-- ==== Sys2Proof/Word.lean ====
section
/-! DEFINITION. The word types: bytes, operand widths, register numbers and the plainest arithmetic on words. -/

namespace Sys2Proof

/-- The unit of memory (20_memory.md R100). -/
abbrev Byte := BitVec 8

/-- A quadword: the width of a general register and of an address while it is computed (10_state.md R41). -/
abbrev Quad := BitVec 64

/-- Operand widths (00_scope.md R21). -/
inductive Width where
  | w8 | w16 | w32 | w64
  deriving DecidableEq, Repr, Inhabited

/-- The number of bits of a width. -/
def Width.bits : Width → Nat
  | .w8 => 8
  | .w16 => 16
  | .w32 => 32
  | .w64 => 64

/-- The number of bytes of a width. -/
def Width.bytes : Width → Nat
  | .w8 => 1
  | .w16 => 2
  | .w32 => 4
  | .w64 => 8

/-- The sixteen general registers, in encoding order (10_state.md R41). -/
inductive Gpr where
  | rax | rcx | rdx | rbx | rsp | rbp | rsi | rdi
  | r8 | r9 | r10 | r11 | r12 | r13 | r14 | r15
  deriving DecidableEq, Repr, Inhabited

/-- The register with an encoding number (10_state.md R41). -/
def Gpr.ofNum (n : BitVec 4) : Gpr :=
  match n.toNat with
  | 0 => .rax | 1 => .rcx | 2 => .rdx | 3 => .rbx | 4 => .rsp | 5 => .rbp | 6 => .rsi | 7 => .rdi
  | 8 => .r8 | 9 => .r9 | 10 => .r10 | 11 => .r11 | 12 => .r12 | 13 => .r13 | 14 => .r14 | _ => .r15

/-- The encoding number of a register (10_state.md R41, `index_of` of 00_scope.md R20). -/
def Gpr.num : Gpr → BitVec 4
  | .rax => 0 | .rcx => 1 | .rdx => 2 | .rbx => 3 | .rsp => 4 | .rbp => 5 | .rsi => 6 | .rdi => 7
  | .r8 => 8 | .r9 => 9 | .r10 => 10 | .r11 => 11 | .r12 => 12 | .r13 => 13 | .r14 => 14 | .r15 => 15

/-- A Bool as one bit of a word. -/
def bit {n : Nat} (b : Bool) : BitVec n := if b then 1#n else 0#n

end Sys2Proof
end

