-- ==== Sys2Proof/Config.lean ====
section
/-! DEFINITION. What an implementation fixes: the parameters of 92_eei_decisions.md section 3 as plain data (`Params`,
kept in State and constant while the machine runs), and the free values and host functions as constants without a body,
of which no proof can see a value. -/

namespace Sys2Proof.Config

/-- CPUID feature flags (53_cpuid.md R1008 to R1041). The defaults are those of 92_eei_decisions.md section 3; a flag that
row does not name is DESIGN CHOICE (log 1). -/
structure Features where
  abm : Bool := true
  adx : Bool := true
  altMovCr8 : Bool := true
  apic : Bool := false
  bmi1 : Bool := true
  bmi2 : Bool := true
  cetSs : Bool := true
  clflushopt : Bool := true
  clfsh : Bool := true
  clwb : Bool := true
  clzero : Bool := true
  cmov : Bool := true
  cmpxchg16b : Bool := true
  cmpxchg8b : Bool := true
  de : Bool := true
  effFreq : Bool := true
  ffxsr : Bool := false
  fpu : Bool := false
  fsgsbase : Bool := true
  fxsr : Bool := true
  intWbinvd : Bool := false
  invlpgb : Bool := false
  invpcid : Bool := true
  lahfSahf : Bool := true
  lm : Bool := true
  lwp : Bool := false
  mca : Bool := false
  mce : Bool := true
  mcommit : Bool := true
  mmx : Bool := true
  mmxExt : Bool := false
  monitor : Bool := true
  monitorx : Bool := true
  movbe : Bool := true
  msr : Bool := true
  mtrr : Bool := false
  nx : Bool := true
  pae : Bool := true
  pat : Bool := false
  perfCtrExtCore : Bool := true
  perfCtrExtNb : Bool := true
  perfCtrExtL2i : Bool := true
  pge : Bool := true
  pku : Bool := true
  popcnt : Bool := true
  prefetch : Bool := true
  pse : Bool := true
  pse36 : Bool := false
  rdpid : Bool := true
  rdpru : Bool := true
  rdrand : Bool := true
  rdseed : Bool := true
  rdtscp : Bool := true
  sev : Bool := false
  sevEs : Bool := false
  skinit : Bool := false
  smap : Bool := true
  smep : Bool := true
  snp : Bool := false
  sse : Bool := true
  sse2 : Bool := true
  sse42 : Bool := true
  svm : Bool := false
  svmLock : Bool := false
  sysCallSysRet : Bool := true
  sysEnterSysExit : Bool := true
  tbm : Bool := true
  threeDNow : Bool := false
  tsc : Bool := true
  umip : Bool := false
  vme : Bool := true
  vmpl : Bool := false
  wbnoinvd : Bool := true
  xop : Bool := false
  avx : Bool := false
  xsave : Bool := false
  nullSelectClearsBase : Bool := true
  lfenceSerializing : Bool := true
  mwaitEmx : Bool := false
  mwaitIbe : Bool := false
  nestedPaging : Bool := false
  lbrVirt : Bool := false
  invlpgbNested : Bool := false
  tlbiCtl : Bool := false
  deriving DecidableEq, Repr

/-- One row of the parameter `cpuid_table`: the values of a function and sub-function, apart from the fields that `features`, the other
parameters or the machine state decide (00_scope.md R6, 53_cpuid.md R1000, R1004, 92_eei_decisions.md D54). -/
structure CpuidRow where
  fn : BitVec 32
  sub : BitVec 32
  eax : BitVec 32
  ebx : BitVec 32
  ecx : BitVec 32
  edx : BitVec 32
  deriving DecidableEq, Repr

/-- How `translate` (20_memory.md R106, D4) is chosen: the default identity, or the host's function. -/
inductive Paging where
  | identity
  | host
  deriving DecidableEq, Repr

/-- A parameter that is the spec's default or the host's function (92_eei_decisions.md section 3). -/
inductive Source where
  | default
  | host
  deriving DecidableEq, Repr

/-- The parameters of 92_eei_decisions.md section 3, with the defaults given there (log 1). -/
structure Params where
  features : Features := {}
  physAddrBits : Nat := 48
  linAddrBits : Nat := 48
  cacheLine : Nat := 64
  monitorLine : Nat := 64
  signature : BitVec 32 := 0
  lFuncStd : BitVec 32 := 0x00000007
  lFuncExt : BitVec 32 := 0x80000021
  cpuidRows : List CpuidRow := []
  /-- D2: bits 63:32 and the bits of CR0 that R63 does not name. -/
  cr0Reserved : BitVec 64 := 0xFFFFFFFF1FFAFFC0
  /-- D2: CR3_RESERVED_MASK in long mode, bits 63:PHYS_ADDR_BITS. -/
  cr3Reserved : BitVec 64 := BitVec.allOnes 64 <<< physAddrBits
  /-- D2: CR3_RESERVED_MASK outside long mode, no bit. -/
  cr3ReservedLegacy : BitVec 64 := 0
  /-- CR4_RESERVED_MASK where it is given; `none` is its default, `Params.cr4Reserved`. -/
  cr4Mask : Option (BitVec 64) := none
  cr8Reserved : BitVec 64 := 0xFFFFFFFFFFFFFFF0
  /-- EFER_RESERVED_MASK where it is given; `none` is its default, `Params.eferReserved`. -/
  eferMask : Option (BitVec 64) := none
  /-- D18: the MSR numbers that exist. -/
  msrs : List (BitVec 32) :=
    [0x00000010, 0x000000E7, 0x000000E8, 0x00000174, 0x00000175, 0x00000176, 0x000006A0, 0x000006A2,
     0x000006A4, 0x000006A5, 0x000006A6, 0x000006A7, 0x000006A8, 0xC0000080, 0xC0000081, 0xC0000082, 0xC0000083,
     0xC0000084, 0xC0000100, 0xC0000101, 0xC0000102, 0xC0000103]
  paging : Paging := .identity
  io : Source := .default
  random : Source := .default
  tsc : Source := .default
  mcommitError : Source := .default
  perf : Source := .default
  invlpgbCountMax : Nat := 0
  maxRdpruId : BitVec 16 := 1
  snpEn : Bool := false
  rmpBase : BitVec 64 := 0
  rmpEnd : BitVec 64 := 0
  numVmpl : Nat := 4
  deriving DecidableEq, Repr

/-- The bits of a register whose features are absent, from the pairs of a bit and its feature. -/
def absentBits (bits : List (Nat × Bool)) : BitVec 64 :=
  bits.foldl (fun m b => if b.2 then m else m ||| BitVec.twoPow 64 b.1) 0

/-- CR4_RESERVED_MASK: by default the bits that 10_state.md R64 does not list, and the bit of every feature whose CPUID flag is
0 (92_eei_decisions.md D2; which flag each bit belongs to: 53_cpuid.md R1006 to R1018, log 1). -/
def Params.cr4Reserved (p : Params) : BitVec 64 :=
  let f := p.features
  p.cr4Mask.getD (0xFFFFFFFFFF08F000 ||| absentBits
    [(0, f.vme), (1, f.vme), (2, f.tsc), (3, f.de), (4, f.pse), (5, f.pae), (6, f.mce), (7, f.pge), (9, f.fxsr), (10, f.sse),
     (11, f.umip), (16, f.fsgsbase), (18, f.xsave), (20, f.smep), (21, f.smap), (22, f.pku), (23, f.cetSs)])

/-- EFER_RESERVED_MASK: by default the bits that 10_state.md R66 does not list, and the bit of every feature whose CPUID flag
is 0: without LM neither LME nor LMA can be set, so that long mode is never entered (92_eei_decisions.md D2, 40_gp_a_b.md
R301, log 1). -/
def Params.eferReserved (p : Params) : BitVec 64 :=
  let f := p.features
  p.eferMask.getD (0xFFFFFFFFFFF902FE ||| absentBits
    [(0, f.sysCallSysRet), (8, f.lm), (10, f.lm), (11, f.nx), (12, f.svm), (14, f.ffxsr), (17, f.mcommit),
     (18, f.intWbinvd)])

/-- The status flags an instruction may leave undefined (93_implementation_defined.md U1). -/
inductive FlagName where
  | cf | pf | af | zf | sf | of
  deriving DecidableEq, Repr

/-- The value of a status flag that the spec leaves undefined: free for each execution (U1, log 5). -/
opaque freeFlag (count : Nat) (f : FlagName) : Bool

/-- Any other value that the spec leaves undefined: free for each execution and slot (U2 to U6, log 5). -/
opaque freeBits (count slot w : Nat) : BitVec w

/-- The kinds of access of `translate` (20_memory.md R106). -/
inductive AccessKind where
  | read | write | execute | shadowRead | shadowWrite
  deriving DecidableEq, Repr

/-- What `translate` is asked (20_memory.md R106). -/
structure Access where
  kind : AccessKind
  user : Bool
  size : Nat
  ac : Bool
  deriving DecidableEq, Repr

/-- The state `translate` may read besides memory (20_memory.md R106): the control registers, PKRU (10_state.md R77), and what VMRUN
loads for nested paging and the checks of the reverse map table (52_sys_s_w.md R841, 51_sys_m_r.md R764); with the parameters, which
hold the bounds of that table. -/
structure PagingRegs where
  cr0 : BitVec 64
  cr3 : BitVec 64
  cr4 : BitVec 64
  efer : BitVec 64
  pkru : BitVec 32
  guest : Bool
  asid : BitVec 32
  npEnable : Bool
  nCr3 : BitVec 64
  gPat : BitVec 64
  sevEs : Bool
  snpActive : Bool
  vmpl : BitVec 4
  params : Params
  deriving DecidableEq, Repr

/-- `translate` of the host: a physical address, or the error code of a page fault (20_memory.md R106, log 4). -/
opaque translate (mem : List Host.Cell) (r : PagingRegs) (acc : Access) (linear : BitVec 64) : Except (BitVec 32) Nat

/-- Reserved bits stand in the page-directory pointer table that a write of CR0, CR3 or CR4 makes current
(51_sys_m_r.md R761): the table's format belongs to the host's paging (20_memory.md R106). -/
opaque pdptReserved (mem : List Host.Cell) (r : PagingRegs) : Bool

/-- The host's MPERF (0), APERF (1) and performance counters (2 on) (93_implementation_defined.md P9). -/
opaque perf (count index : Nat) : BitVec 64

/-- IO_READ of the host: the value, and the next state of the devices (20_memory.md R130, log 16). -/
opaque ioRead (devices : List (BitVec 64)) (count : Nat) (port : BitVec 16) (bytes : Nat) : BitVec 32 × List (BitVec 64)

/-- IO_WRITE of the host: the next state of the devices (20_memory.md R130, log 16). -/
opaque ioWrite (devices : List (BitVec 64)) (count : Nat) (port : BitVec 16) (bytes : Nat) (value : BitVec 32) :
  List (BitVec 64)

/-- The random source of the host (93_implementation_defined.md P8). -/
opaque random (count : Nat) (bits : Nat) : Option (BitVec 64)

/-- The TSC increment of one step (70_reset_and_hazards.md R970). -/
opaque tscIncrement (count : Nat) : Nat

/-- The error indication of MCOMMIT (93_implementation_defined.md P7). -/
opaque mcommitError (count : Nat) : Bool

/-! ### Secure virtual machine: the layouts of Volume 2 as parameters (52_sys_s_w.md R839 to R843, D47, log 17) -/

/-- The parts of a segment register in a VMCB. -/
inductive SegPart where
  | sel | attr | limit | base
  deriving DecidableEq, Repr, Inhabited

/-- The segment registers a VMCB holds. -/
inductive VmSeg where
  | es | cs | ss | ds | fs | gs | ldtr | tr
  deriving DecidableEq, Repr, Inhabited

/-- The fields of a VMCB that 52_sys_s_w.md R839 to R843 name. -/
inductive VmcbField where
  | seg (r : VmSeg) (p : SegPart)
  | gdtrBase | gdtrLimit | idtrBase | idtrLimit
  | efer | cr0 | cr2 | cr3 | cr4 | dr6 | dr7
  | rflags | rip | rsp | rax | cpl | shadow
  | kernelGsBase | star | lstar | cstar | sfmask | sysenterCs | sysenterEsp | sysenterEip
  | intercepts (n : Fin 4)
  | tscOffset | intrControl | eventInj | asid | npEnable | nCr3 | gPat | lbrEnable | sevControl
  | dbgCtl | brFrom | brTo | lastExcpFrom | lastExcpTo
  | exitCode | exitInfo1 | exitInfo2 | exitIntInfo
  deriving DecidableEq, Repr, Inhabited

/-- `VMCB_OFFSET(field)` (52_sys_s_w.md R839). -/
opaque vmcbOffset (f : VmcbField) : Nat

/-- The same for the host state-save area (52_sys_s_w.md R841). -/
opaque hostSaveOffset (f : VmcbField) : Nat

/-- The attribute word of a VMCB segment as the twelve attribute bits of a segment register, and back. -/
opaque vmcbAttrRead (w : BitVec 16) : BitVec 12

@[inherit_doc vmcbAttrRead] opaque vmcbAttrWrite (a : BitVec 12) : BitVec 16

/-- The intercepts that 50_sys_a_l.md R713 and 52_sys_s_w.md R840, R841 name. -/
inductive Intercept where
  | vmrun | vmmcall | invlpgb | invlpgbIllegal
  deriving DecidableEq, Repr, Inhabited

/-- An intercept is set in the intercept vector of the VMCB. -/
opaque intercepted (vector : BitVec 256) (i : Intercept) : Bool

/-- The VMCB lets the guest use INVLPGB and TLBSYNC (50_sys_a_l.md R713). -/
opaque guestTlbControl (vector : BitVec 256) : Bool

/-- The exits by name (52_sys_s_w.md R842). -/
inductive ExitName where
  | vmrun | invalid | npf | vmmcall | vmgexit | invlpgb
  deriving DecidableEq, Repr, Inhabited

/-- The numeric EXITCODE of an exit (Volume 2). -/
opaque exitCode (e : ExitName) : BitVec 64

/-- An event injected into a guest: its vector, its kind (external, exception or software) and its error code. -/
structure Injection where
  vector : BitVec 8
  external : Bool
  software : Bool
  code : Option (BitVec 32)
  deriving DecidableEq, Repr, Inhabited

/-- The EVENTINJ field: an event if its V bit is set (52_sys_s_w.md R841). -/
opaque eventInjection (w : BitVec 64) : Option Injection

/-- What the guest state consistency checks look at (52_sys_s_w.md R841). -/
structure GuestCheck where
  cr0 : BitVec 64
  cr3 : BitVec 64
  cr4 : BitVec 64
  efer : BitVec 64
  dr6 : BitVec 64
  dr7 : BitVec 64
  asid : BitVec 32
  intercepts : BitVec 256
  csAttr : BitVec 12
  deriving DecidableEq, Repr, Inhabited

/-- The guest state consistency checks fail (52_sys_s_w.md R841). -/
opaque guestInvalid (g : GuestCheck) : Bool

/-- The host state a #VMEXIT reloads is illegal (52_sys_s_w.md R842). -/
opaque hostInvalid (g : GuestCheck) : Bool

/-- What the SEV control word of a VMCB makes of the guest: SEV-ES, SNP-active, and its VMPL (51_sys_m_r.md R764). -/
opaque sevEs (w : BitVec 64) : Bool

@[inherit_doc sevEs] opaque snpActive (w : BitVec 64) : Bool

@[inherit_doc sevEs] opaque vmpl (w : BitVec 64) : BitVec 4

/-- The bits DPD, R_INIT and DIS_A20M of VM_CR (52_sys_s_w.md R824). -/
opaque vmCrSkinit : BitVec 64

/-! ### SEV-SNP (51_sys_m_r.md R764, log 18) -/

/-- An entry of the reverse map table by its fields; `perms` holds one byte for each VMPL (51_sys_m_r.md R764). -/
structure RmpEntry where
  assigned : Bool
  large : Bool
  immutable : Bool
  guestPa : BitVec 64
  asid : BitVec 32
  validated : Bool
  vmsa : Bool
  perms : BitVec 128
  deriving DecidableEq, Repr, Inhabited

/-- The fields in the 16 bytes of an RMP entry, and back. -/
opaque rmpRead (w : BitVec 128) : RmpEntry

@[inherit_doc rmpRead] opaque rmpWrite (e : RmpEntry) : BitVec 128

/-- The outcome of TRANSLATE(GUEST_VA): the system and guest physical addresses and whether the nested page is a 2-Mbyte
page, or a page fault with its error code, or a nested page fault (51_sys_m_r.md R764). -/
inductive GuestWalk where
  | page (system guest : Nat) (large : Bool)
  | fault (code : BitVec 32)
  | nested
  deriving DecidableEq, Repr, Inhabited

/-- TRANSLATE(GUEST_VA) of an access with paging, whose level and AC the checks of SMAP read (51_sys_m_r.md R764, 20_memory.md R106). -/
opaque guestTranslate (mem : List Host.Cell) (r : PagingRegs) (acc : Access) (va : BitVec 64) : GuestWalk

/-- TRANSLATE(GUEST_VA) without paging: only the nested table is walked, for the guest physical address that the linear address is. It
gives the system physical address and whether the nested page is a 2-Mbyte page, or a nested page fault (none)
(51_sys_m_r.md R764, 20_memory.md R106). -/
opaque nestedTranslate (mem : List Host.Cell) (r : PagingRegs) (acc : Access) (guest : Nat) : Option (Nat × Bool)

/-- The error code of #VC for PAGE_NOT_VALIDATED (51_sys_m_r.md R773). -/
opaque vcPageNotValidated : BitVec 32

/-! ### Lightweight profiling (93_implementation_defined.md P6, log 19) -/

/-- What the facility holds inside the processor (10_state.md R81): its copies of LWPCB fields (the linear addresses of the LWPCB
and of the ring buffer, its head pointer, the flags: 43_gp_l_m.md R456), the event counters, and the event record that waits
to be written (45_gp_r_s.md R589). Volume 2 gives their layout; here each is a list of words in the facility's own order
(log 19). -/
structure LwpInternal where
  fields : List (BitVec 64) := []
  counters : List (BitVec 64) := []
  pending : List (BitVec 64) := []
  deriving DecidableEq, Repr, Inhabited

/-- What the lightweight-profiling facility sees of the processor. -/
structure LwpCtx where
  cfg : BitVec 64
  cbAddr : BitVec 64
  internal : LwpInternal
  dsBase : BitVec 64
  dsLimit : BitVec 32
  wide : Bool
  count : Nat
  deriving DecidableEq, Repr, Inhabited

/-- What a memory access of the facility ends in: the memory cells it writes, what it holds afterwards and CF for LWPINS; or a #PF
with its code and address (43_gp_l_m.md R456, R459, R460, 45_gp_r_s.md R589). -/
inductive LwpOutcome where
  | done (writes : List Host.Cell) (internal : LwpInternal) (cf : Bool)
  | pageFault (code : BitVec 32) (addr : BitVec 64)
  deriving DecidableEq, Repr, Inhabited

/-- `host_lwp_load` of an LWPCB at a linear address: its validation and the start of the facility; nothing when a check fails, which
raises #GP(0) (43_gp_l_m.md R456). -/
opaque lwpLoad (mem : List Host.Cell) (c : LwpCtx) (linear : BitVec 64) : Option LwpOutcome

/-- `host_lwp_store`: the flush to the LWPCB (45_gp_r_s.md R589, 43_gp_l_m.md R456). -/
opaque lwpStore (mem : List Host.Cell) (c : LwpCtx) : LwpOutcome

/-- `host_lwp_insert` of a record with its Data2, Data1 and Flags (43_gp_l_m.md R459). -/
opaque lwpInsert (mem : List Host.Cell) (c : LwpCtx) (data2 : BitVec 64) (data1 : BitVec 32) (flags : BitVec 16) :
  LwpOutcome

/-- The programmed value sample event is enabled and its decremented counter is negative (43_gp_l_m.md R460). -/
opaque lwpValueDue (mem : List Host.Cell) (c : LwpCtx) : Bool

/-- `host_lwp_value`: the counter of the value sample event, and a record if one is due (43_gp_l_m.md R460). -/
opaque lwpValue (mem : List Host.Cell) (c : LwpCtx) (record : Option (BitVec 64 × BitVec 32 × BitVec 16)) : LwpOutcome

end Sys2Proof.Config
end

