-- ==== Sys2Proof/Machine/State.lean ====
section
/-! DEFINITION. The state of one processor as plain data (10_state.md R40), and its value after reset
(70_reset_and_hazards.md R960). Log entries are notes/assumptions/<n>.md. -/

namespace Sys2Proof.Machine

/-- The sixteen general registers (10_state.md R41). -/
structure Gprs where
  rax : Quad
  rcx : Quad
  rdx : Quad
  rbx : Quad
  rsp : Quad
  rbp : Quad
  rsi : Quad
  rdi : Quad
  r8 : Quad
  r9 : Quad
  r10 : Quad
  r11 : Quad
  r12 : Quad
  r13 : Quad
  r14 : Quad
  r15 : Quad
  deriving DecidableEq, Repr

/-- rFLAGS: its storage; the fixed bits are supplied by `Flags.toBits` (10_state.md R50). `fi` is IF. -/
structure Flags where
  cf : Bool
  pf : Bool
  af : Bool
  zf : Bool
  sf : Bool
  tf : Bool
  fi : Bool
  df : Bool
  of : Bool
  iopl : BitVec 2
  nt : Bool
  rf : Bool
  vm : Bool
  ac : Bool
  vif : Bool
  vip : Bool
  id : Bool
  deriving DecidableEq, Repr

/-- The hidden attributes of a segment register (10_state.md R47): bits 43:40, S, DPL, P, AVL, L, D/B and G of its
descriptor (20_memory.md R111). -/
structure SegAttr where
  type : BitVec 4
  s : Bool
  dpl : BitVec 2
  p : Bool
  avl : Bool
  l : Bool
  db : Bool
  g : Bool
  deriving DecidableEq, Repr

/-- A segment register, LDTR or TR: selector and hidden part; the limit is byte granular (10_state.md R47, R67). -/
structure SegReg where
  sel : BitVec 16
  base : Quad
  limit : BitVec 32
  attr : SegAttr
  deriving DecidableEq, Repr

/-- The six segment registers (10_state.md R46). -/
structure Segs where
  es : SegReg
  cs : SegReg
  ss : SegReg
  ds : SegReg
  fs : SegReg
  gs : SegReg
  deriving DecidableEq, Repr

/-- GDTR or IDTR (10_state.md R67). -/
structure TableReg where
  base : Quad
  limit : BitVec 16
  deriving DecidableEq, Repr

/-- The control registers and EFER (10_state.md R63 to R66), whole words with named accessors in Ops.lean. -/
structure Control where
  cr0 : Quad
  cr2 : Quad
  cr3 : Quad
  cr4 : Quad
  cr8 : Quad
  efer : Quad
  deriving DecidableEq, Repr

/-- The debug registers (10_state.md R68); DR4 and DR5 are other names of DR6 and DR7. -/
structure Debug where
  dr0 : Quad
  dr1 : Quad
  dr2 : Quad
  dr3 : Quad
  dr6 : Quad
  dr7 : Quad
  deriving DecidableEq, Repr

/-- Model-specific registers without a home elsewhere (10_state.md R69 to R75, R83); `perf` holds the performance
counters in the order of 51_sys_m_r.md R769: core 0 to 5, northbridge 6 to 9, L2I 10 to 13. -/
structure Msrs where
  tsc : Quad
  tscAux : Quad
  mperf : Quad
  aperf : Quad
  perf : Vector Quad 14
  star : Quad
  lstar : Quad
  cstar : Quad
  sfmask : Quad
  kernelGsBase : Quad
  sysenterCs : Quad
  sysenterEsp : Quad
  sysenterEip : Quad
  hwcr : Quad
  pat : Quad
  xss : Quad
  deriving DecidableEq, Repr

/-- Shadow-stack state (10_state.md R76). -/
structure Cet where
  ssp : Quad
  uCet : Quad
  sCet : Quad
  pl0Ssp : Quad
  pl1Ssp : Quad
  pl2Ssp : Quad
  pl3Ssp : Quad
  isstAddr : Quad
  deriving DecidableEq, Repr

/-- SVM and SEV-SNP state (10_state.md R78, R82; 52_sys_s_w.md R824, R841): the MSRs, GIF, and what VMRUN loads and
#VMEXIT clears. `vmcb` is the VMCB remembered for the next #VMEXIT. -/
structure Svm where
  gif : Bool
  vmCr : Quad
  vmHsavePa : Quad
  guest : Bool
  vmcb : Quad
  asid : BitVec 32
  tscOffset : Quad
  intercepts : BitVec 256
  vIntr : Quad
  npEnable : Bool
  nCr3 : Quad
  gPat : Quad
  sevEs : Bool
  snpActive : Bool
  vmpl : BitVec 4
  dbgCtl : Quad
  brFrom : Quad
  brTo : Quad
  lastExcpFrom : Quad
  lastExcpTo : Quad
  slDev : Bool
  slDevBase : BitVec 32
  deriving DecidableEq, Repr

/-- Lightweight-profiling state (10_state.md R81): LWP_CFG, LWP_CBADDR (0 when LWP is disabled), and the internal copies of LWPCB
fields and the event counters (log 19). -/
structure Lwp where
  cfg : Quad
  cbAddr : Quad
  internal : Config.LwpInternal
  deriving DecidableEq, Repr

/-- LWP disabled (70_reset_and_hazards.md R960; what the facility holds: log 2). -/
def Lwp.reset : Lwp where
  cfg := 0
  cbAddr := 0
  internal := {}

/-- What the processor is doing between instructions (10_state.md R79 `halted`, 60_exceptions.md R925 shutdown). -/
inductive Activity where
  | running
  | halted
  | shutdown
  deriving DecidableEq, Repr

/-- The interrupt shadow, with its kind (60_exceptions.md R930). -/
inductive Shadow where
  | none
  | sti
  | ss
  deriving DecidableEq, Repr

/-- The monitor set by MONITOR and MONITORX (10_state.md R79). -/
structure Monitor where
  armed : Bool
  addr : Quad
  deriving DecidableEq, Repr

/-- The execution-state flags (10_state.md R79). `latch` holds the bytes of a repeated string instruction between two iterations, or
nothing: a store to them does not change the iterations that remain (20_memory.md R145, log 25). -/
structure ExecState where
  activity : Activity
  shadow : Shadow
  monitor : Monitor
  nmiBlocked : Bool
  latch : List Byte
  deriving DecidableEq, Repr

/-- The vector, MMX and x87 containers (10_state.md R80). XMM is the low half of YMM; an MMX register is the low 64 bits
of its FPR. -/
structure Media where
  ymm : Vector (BitVec 256) 16
  fpr : Vector (BitVec 80) 8
  mxcsr : BitVec 32
  fcw : BitVec 16
  fsw : BitVec 16
  ftw : BitVec 16
  fip : Quad
  fdp : Quad
  fop : BitVec 16
  deriving DecidableEq, Repr

/-- The inputs of the interrupt source (60_exceptions.md R931). -/
structure Pins where
  reset : Bool
  init : Bool
  smi : Bool
  nmi : Bool
  intr : Option (BitVec 8)
  deriving DecidableEq, Repr

/-- The state of one processor and its memory (10_state.md R40). `nextRip` is next_RIP of the current instruction
(00_scope.md R21). `freeCount` and `cfg` are the model's own (log 5, log 1). -/
structure State where
  gpr : Gprs
  rip : Quad
  nextRip : Quad
  flags : Flags
  seg : Segs
  cpl : BitVec 2
  gdtr : TableReg
  idtr : TableReg
  ldtr : SegReg
  tr : SegReg
  ctl : Control
  dbg : Debug
  msr : Msrs
  cet : Cet
  pkru : BitVec 32
  xcr0 : Quad
  svm : Svm
  lwp : Lwp
  exec : ExecState
  media : Media
  pins : Pins
  /-- What the devices behind the ports hold, in words of their own (20_memory.md R130, log 16). -/
  devices : List Quad
  mem : List Host.Cell
  freeCount : Nat
  cfg : Config.Params
  deriving DecidableEq, Repr

/-- The model stops without a next state. -/
inductive Fault where
  /-- Raised by an access to a physical address at or above 2^PHYS_ADDR_BITS, where there is no memory
  (20_memory.md R100, 93_implementation_defined.md A.3). Safe: the model stops where the machine might go on. -/
  | noMemory (addr : Nat)
  deriving DecidableEq, Repr

/-- The model has no meaning for what the machine would do. -/
inductive Refusal where
  /-- Raised by `exec` for an instruction not modelled yet, by its mnemonic. Safe. -/
  | notModelled (mnemonic : String)
  /-- Raised by a far transfer through a task gate or a TSS, by IRET with NT = 1 and by an event through a task gate:
  TASK_SWITCH has no body in the spec (20_memory.md R114, 00_scope.md R4). Safe. -/
  | taskSwitch
  /-- Raised by an SMI: the spec has no SMM entry (60_exceptions.md R932, D43). Safe. -/
  | systemManagement
  /-- Raised by a code point of another volume whose feature is present (00_scope.md R4, D49). Safe. -/
  | otherVolume
  deriving DecidableEq, Repr

/-- The attributes of CS after reset: present, readable, accessed code (70_reset_and_hazards.md R960). -/
def SegAttr.resetCode : SegAttr :=
  { type := 0xB, s := true, dpl := 0, p := true, avl := false, l := false, db := false, g := false }

/-- The attributes of the data segments after reset: present, writable, accessed, and D/B 0 (70_reset_and_hazards.md R960). DESIGN
CHOICE (log 2): AVL and L, for which R960 gives no value, are 0. -/
def SegAttr.resetData : SegAttr :=
  { type := 0x3, s := true, dpl := 0, p := true, avl := false, l := false, db := false, g := false }

/-- The attributes of LDTR and TR after reset: the type, and present (70_reset_and_hazards.md R960). DESIGN CHOICE (log 2): DPL, AVL, L,
D/B and G, for which R960 gives no value, are 0. -/
def SegAttr.resetSystem (type : BitVec 4) : SegAttr :=
  { type, s := false, dpl := 0, p := true, avl := false, l := false, db := false, g := false }

/-- A data segment register after reset. -/
def SegReg.resetData : SegReg := { sel := 0, base := 0, limit := 0xFFFF, attr := .resetData }

/-- The segment registers after RESET and INIT (70_reset_and_hazards.md R960). -/
def Segs.reset : Segs where
  es := .resetData
  cs := { sel := 0xF000, base := 0xFFFF0000, limit := 0xFFFF, attr := .resetCode }
  ss := .resetData
  ds := .resetData
  fs := .resetData
  gs := .resetData

/-- The general registers after RESET and INIT: RDX holds the signature (70_reset_and_hazards.md R960, R962). -/
def Gprs.reset (signature : BitVec 32) : Gprs where
  rax := 0
  rcx := 0
  rdx := signature.setWidth 64
  rbx := 0
  rsp := 0
  rbp := 0
  rsi := 0
  rdi := 0
  r8 := 0
  r9 := 0
  r10 := 0
  r11 := 0
  r12 := 0
  r13 := 0
  r14 := 0
  r15 := 0

/-- rFLAGS = 2: every flag clear (70_reset_and_hazards.md R960). -/
def Flags.reset : Flags where
  cf := false
  pf := false
  af := false
  zf := false
  sf := false
  tf := false
  fi := false
  df := false
  of := false
  iopl := 0
  nt := false
  rf := false
  vm := false
  ac := false
  vif := false
  vip := false
  id := false

/-- The debug registers after RESET and INIT (70_reset_and_hazards.md R960). -/
def Debug.reset : Debug := { dr0 := 0, dr1 := 0, dr2 := 0, dr3 := 0, dr6 := 0xFFFF0FF0, dr7 := 0x400 }

/-- The shadow-stack state after RESET and INIT (70_reset_and_hazards.md R960). -/
def Cet.reset : Cet where
  ssp := 0
  uCet := 0
  sCet := 0
  pl0Ssp := 0
  pl1Ssp := 0
  pl2Ssp := 0
  pl3Ssp := 0
  isstAddr := 0

/-- The execution flags after RESET and INIT (70_reset_and_hazards.md R960). -/
def ExecState.reset : ExecState :=
  { activity := .running, shadow := .none, monitor := { armed := false, addr := 0 }, nmiBlocked := false, latch := [] }

/-- The model-specific registers after RESET (70_reset_and_hazards.md R960); XSS by log 2. -/
def Msrs.reset : Msrs where
  tsc := 0
  tscAux := 0
  mperf := 0
  aperf := 0
  perf := .replicate 14 0
  star := 0
  lstar := 0
  cstar := 0
  sfmask := 0
  kernelGsBase := 0
  sysenterCs := 0
  sysenterEsp := 0
  sysenterEip := 0
  hwcr := 0
  pat := 0x0007040600070406
  xss := 0

/-- The SVM state after RESET: GIF = 1, VM_CR and VM_HSAVE_PA 0 (70_reset_and_hazards.md R960); not in a guest (log 2). -/
def Svm.reset : Svm where
  gif := true
  vmCr := 0
  vmHsavePa := 0
  guest := false
  vmcb := 0
  asid := 0
  tscOffset := 0
  intercepts := 0
  vIntr := 0
  npEnable := false
  nCr3 := 0
  gPat := 0
  sevEs := false
  snpActive := false
  vmpl := 0
  dbgCtl := 0
  brFrom := 0
  brTo := 0
  lastExcpFrom := 0
  lastExcpTo := 0
  slDev := false
  slDevBase := 0

/-- The vector and x87 containers after RESET (70_reset_and_hazards.md R960); the FPRs and the last-instruction
registers by log 2. -/
def Media.reset : Media where
  ymm := .replicate 16 0
  fpr := .replicate 8 0
  mxcsr := 0x1F80
  fcw := 0x40
  fsw := 0
  ftw := 0x5555
  fip := 0
  fdp := 0
  fop := 0

/-- The machine right after RESET with the default parameters of 92_eei_decisions.md section 3, memory with nothing
listed (70_reset_and_hazards.md R960). -/
def State.reset : State where
  gpr := .reset 0
  rip := 0xFFF0
  nextRip := 0
  flags := .reset
  seg := .reset
  cpl := 0
  gdtr := { base := 0, limit := 0xFFFF }
  idtr := { base := 0, limit := 0xFFFF }
  ldtr := { sel := 0, base := 0, limit := 0xFFFF, attr := .resetSystem 2 }
  tr := { sel := 0, base := 0, limit := 0xFFFF, attr := .resetSystem 3 }
  ctl := { cr0 := 0x60000010, cr2 := 0, cr3 := 0, cr4 := 0, cr8 := 0, efer := 0 }
  dbg := .reset
  msr := .reset
  cet := .reset
  pkru := 0
  xcr0 := 1
  svm := .reset
  lwp := .reset
  exec := .reset
  media := .reset
  pins := { reset := false, init := false, smi := false, nmi := false, intr := none }
  devices := []
  mem := []
  freeCount := 0
  cfg := {}

end Sys2Proof.Machine
end

