-- ==== Sys2Proof/Machine/Flags.lean ====
section
/-! DEFINITION. rFLAGS as bits (10_state.md R50), the result-flag functions (10_state.md R55) and the condition codes
(41_gp_c.md R365). A w-bit value stands in a quadword with the bits above w zero. -/

namespace Sys2Proof.Machine

/-- The low bits of a value at an operand width. -/
def trunc (w : Width) (v : Quad) : Quad := (v.setWidth w.bits).setWidth 64

/-- Sign extension of a w-bit value to 64 bits (00_scope.md R17 `sext`). -/
def sext (w : Width) (v : Quad) : Quad := (v.setWidth w.bits).signExtend 64

/-- The most significant bit of a w-bit value. -/
def msbOf (w : Width) (v : Quad) : Bool := v.getLsbD (w.bits - 1)

/-- The integer a w-bit pattern stands for in two's complement (00_scope.md R17 `signed`). -/
def signed (w : Width) (v : Quad) : Int := (v.setWidth w.bits).toInt

/-- An integer reduced to a w-bit pattern. -/
def ofInt (w : Width) (v : Int) : Quad := (BitVec.ofInt w.bits v).setWidth 64

/-- The low byte has an even number of ones (10_state.md R55 PF). -/
def parity (v : Quad) : Bool :=
  !((v.getLsbD 0 ^^ v.getLsbD 1) ^^ (v.getLsbD 2 ^^ v.getLsbD 3) ^^
    ((v.getLsbD 4 ^^ v.getLsbD 5) ^^ (v.getLsbD 6 ^^ v.getLsbD 7)))

/-- SF, ZF and PF of a result (10_state.md R55). -/
def Flags.result (f : Flags) (w : Width) (r : Quad) : Flags :=
  { f with sf := msbOf w r, zf := trunc w r == 0, pf := parity r }

/-- `flags_add` (10_state.md R55): the w-bit sum and the six status flags. -/
def addFlags (f : Flags) (w : Width) (a b : Quad) (cin : Bool) : Quad × Flags :=
  let s := (trunc w a).toNat + (trunc w b).toNat + cin.toNat
  let r := trunc w (BitVec.ofNat 64 s)
  (r, { f.result w r with
        cf := 2 ^ w.bits ≤ s
        af := 16 ≤ (a.extractLsb' 0 4).toNat + (b.extractLsb' 0 4).toNat + cin.toNat
        of := msbOf w a == msbOf w b && msbOf w r != msbOf w a })

/-- `flags_sub` (10_state.md R55): the w-bit difference and the six status flags. -/
def subFlags (f : Flags) (w : Width) (a b : Quad) (bin : Bool) : Quad × Flags :=
  let r := trunc w (a - b - bit bin)
  (r, { f.result w r with
        cf := (trunc w a).toNat < (trunc w b).toNat + bin.toNat
        af := (a.extractLsb' 0 4).toNat < (b.extractLsb' 0 4).toNat + bin.toNat
        of := msbOf w a != msbOf w b && msbOf w r != msbOf w a })

/-- `flags_logic` (10_state.md R55): CF and OF cleared, AF undefined (93_implementation_defined.md U1), a free value. -/
def logicFlags (f : Flags) (count : Nat) (w : Width) (r : Quad) : Flags :=
  { f.result w r with cf := false, of := false, af := Config.freeFlag count .af }

/-- The flags named become free values (93_implementation_defined.md U1). -/
def Flags.undefine (f : Flags) (count : Nat) : List Config.FlagName → Flags
  | [] => f
  | .cf :: l => Flags.undefine { f with cf := Config.freeFlag count .cf } count l
  | .pf :: l => Flags.undefine { f with pf := Config.freeFlag count .pf } count l
  | .af :: l => Flags.undefine { f with af := Config.freeFlag count .af } count l
  | .zf :: l => Flags.undefine { f with zf := Config.freeFlag count .zf } count l
  | .sf :: l => Flags.undefine { f with sf := Config.freeFlag count .sf } count l
  | .of :: l => Flags.undefine { f with of := Config.freeFlag count .of } count l

/-- One flag at its place in rFLAGS. -/
def flagBit (b : Bool) (n : Nat) : Quad := (bit b : Quad) <<< n

/-- The image of rFLAGS: bit 1 reads 1, the other reserved bits 0 (10_state.md R50). -/
def Flags.toBits (f : Flags) : Quad :=
  flagBit f.cf 0 ||| 2 ||| flagBit f.pf 2 ||| flagBit f.af 4 ||| flagBit f.zf 6 ||| flagBit f.sf 7 ||| flagBit f.tf 8 |||
  flagBit f.fi 9 ||| flagBit f.df 10 ||| flagBit f.of 11 ||| (f.iopl.setWidth 64 <<< 12) ||| flagBit f.nt 14 |||
  flagBit f.rf 16 ||| flagBit f.vm 17 ||| flagBit f.ac 18 ||| flagBit f.vif 19 ||| flagBit f.vip 20 ||| flagBit f.id 21

/-- The flags of an image; the reserved bits are dropped (10_state.md R50). -/
def Flags.ofBits (v : Quad) : Flags where
  cf := v.getLsbD 0
  pf := v.getLsbD 2
  af := v.getLsbD 4
  zf := v.getLsbD 6
  sf := v.getLsbD 7
  tf := v.getLsbD 8
  fi := v.getLsbD 9
  df := v.getLsbD 10
  of := v.getLsbD 11
  iopl := v.extractLsb' 12 2
  nt := v.getLsbD 14
  rf := v.getLsbD 16
  vm := v.getLsbD 17
  ac := v.getLsbD 18
  vif := v.getLsbD 19
  vip := v.getLsbD 20
  id := v.getLsbD 21

/-- `RFLAGS.v = x` (50_sys_a_l.md R715): the low 16 bits at a 16-bit size, all flags otherwise. -/
def Flags.load (f : Flags) (w : Width) (v : Quad) : Flags :=
  let n := Flags.ofBits v
  match w with
  | .w16 => { n with rf := f.rf, vm := f.vm, ac := f.ac, vif := f.vif, vip := f.vip, id := f.id }
  | _ => n

/-- The sixteen condition codes, in encoding order (41_gp_c.md R365). -/
inductive Cond where
  | o | no | b | nb | z | nz | be | nbe | s | ns | p | np | l | nl | le | nle
  deriving DecidableEq, Repr

/-- The condition of Jcc, CMOVcc and SETcc (41_gp_c.md R365, 42_gp_d_j.md R418). -/
def Flags.cond (f : Flags) : Cond → Bool
  | .o => f.of
  | .no => !f.of
  | .b => f.cf
  | .nb => !f.cf
  | .z => f.zf
  | .nz => !f.zf
  | .be => f.cf || f.zf
  | .nbe => !f.cf && !f.zf
  | .s => f.sf
  | .ns => !f.sf
  | .p => f.pf
  | .np => !f.pf
  | .l => f.sf != f.of
  | .nl => f.sf == f.of
  | .le => f.zf || f.sf != f.of
  | .nle => !f.zf && f.sf == f.of

end Sys2Proof.Machine
end

