-- ==== Sys2Proof/Machine/Memory.lean ====
section
/-! DEFINITION. Physical memory: a sparse list of (address, byte) in one canonical form (20_memory.md R100). -/

namespace Sys2Proof.Machine

/-- What an address that no entry lists reads as: DESIGN CHOICE 0, the spec gives no contents (log 3). -/
def Memory.unlisted : Byte := 0

/-- The byte at a physical address (20_memory.md R100). -/
def Memory.read : List Host.Cell → Nat → Byte
  | [], _ => Memory.unlisted
  | (b, v) :: m, a => if a = b then v else Memory.read m a

/-- The memory after one byte is written; the canonical form is kept. -/
def Memory.write : List Host.Cell → Nat → Byte → List Host.Cell
  | [], a, v => if v = Memory.unlisted then [] else [(a, v)]
  | (b, u) :: m, a, v =>
    if a < b then if v = Memory.unlisted then (b, u) :: m else (a, v) :: (b, u) :: m
    else if a = b then if v = Memory.unlisted then m else (a, v) :: m
    else (b, u) :: Memory.write m a v

/-- The canonical form: addresses strictly rising, no entry that an unlisted address would read as. -/
abbrev Memory.wf (m : List Host.Cell) : Prop :=
  m.Pairwise (fun x y => x.1 < y.1) ∧ ∀ c ∈ m, c.2 ≠ Memory.unlisted

/-- The little-endian value of the bytes at a list of addresses, the lowest byte first (20_memory.md R100). -/
def Memory.load (m : List Host.Cell) : List Nat → Nat
  | [] => 0
  | a :: as => (Memory.read m a).toNat + 256 * Memory.load m as

/-- A value stored little-endian at a list of addresses, the lowest byte first (20_memory.md R100). -/
def Memory.store (m : List Host.Cell) : List Nat → Nat → List Host.Cell
  | [], _ => m
  | a :: as, v => Memory.store (Memory.write m a (BitVec.ofNat 8 v)) as (v / 256)

end Sys2Proof.Machine
end

