-- ==== Sys2Proof/Syntax.lean ====
section
/-! DEFINITION. The instructions: one constructor for each mnemonic of spec/opcode_table.json, with their operand forms
(30_encoding.md R160 to R205, 31_opcode_maps.md R230 to R284). Segment overrides, address size and repeat prefixes are
resolved by the decoder and stand in the operands. -/

namespace Sys2Proof

/-- Effective address sizes (30_encoding.md R171). -/
inductive ASize where
  | a16 | a32 | a64
  deriving DecidableEq, Repr, Inhabited

/-- The number of bits of an address size. -/
def ASize.bits : ASize → Nat
  | .a16 => 16
  | .a32 => 32
  | .a64 => 64

/-- Segment registers in encoding order (10_state.md R46). -/
inductive SegName where
  | es | cs | ss | ds | fs | gs
  deriving DecidableEq, Repr, Inhabited

/-- The encoding number of a segment register (10_state.md R46). -/
def SegName.num : SegName → BitVec 3
  | .es => 0 | .cs => 1 | .ss => 2 | .ds => 3 | .fs => 4 | .gs => 5

/-- The segment register with an encoding number; 6 and 7 name none (30_encoding.md R183). -/
def SegName.ofNum (n : BitVec 3) : Option SegName :=
  match n.toNat with
  | 0 => some .es | 1 => some .cs | 2 => some .ss | 3 => some .ds | 4 => some .fs | 5 => some .gs
  | _ => none

/-- A general register as an operand: `high` is one of AH, CH, DH, BH (10_state.md R42, 30_encoding.md R176). -/
structure GReg where
  r : Gpr
  high : Bool := false
  deriving DecidableEq, Repr, Inhabited

/-- The base of an effective address (30_encoding.md R180). -/
inductive Base where
  | none
  | reg (r : Gpr)
  | rip
  deriving DecidableEq, Repr, Inhabited

/-- The scaled index of an effective address: `scale` is the SIB field (30_encoding.md R180). -/
structure Index where
  r : Gpr
  scale : BitVec 2
  deriving DecidableEq, Repr, Inhabited

/-- A memory operand: its segment after overrides (20_memory.md R104), base, index, displacement (sign-extended) and
address size (30_encoding.md R180, R181). -/
structure Mem where
  seg : SegName
  base : Base
  index : Option Index
  disp : BitVec 64
  asz : ASize
  deriving DecidableEq, Repr, Inhabited

/-- A register or memory operand (ModRM.r/m, 30_encoding.md R179). -/
inductive RM where
  | reg (r : GReg)
  | mem (m : Mem)
  deriving DecidableEq, Repr, Inhabited

/-- The operand forms of the arithmetic-logic rows (31_opcode_maps.md R233, R246). Immediates are sign-extended. -/
inductive AluForm where
  | rmReg (rm : RM) (r : GReg)
  | regRm (r : GReg) (rm : RM)
  | rmImm (rm : RM) (imm : BitVec 64)
  deriving DecidableEq, Repr, Inhabited

/-- The second operand of TEST (46_gp_t_x.md R631). -/
inductive RegImm where
  | reg (r : GReg)
  | imm (v : BitVec 64)
  deriving DecidableEq, Repr, Inhabited

/-- The control operand of BEXTR (40_gp_a_b.md R312). -/
inductive BextrCtl where
  | reg (r : Gpr)
  | imm (v : BitVec 32)
  deriving DecidableEq, Repr, Inhabited

/-- The bit offset of BT, BTC, BTR, BTS (40_gp_a_b.md R329). -/
inductive BitOff where
  | reg (r : Gpr)
  | imm (v : Byte)
  deriving DecidableEq, Repr, Inhabited

/-- The target of a near CALL or JMP: a sign-extended displacement or an operand (41_gp_c.md R350). -/
inductive NearTarget where
  | rel (d : BitVec 64)
  | rm (t : RM)
  deriving DecidableEq, Repr, Inhabited

/-- The target of a far CALL or JMP (41_gp_c.md R351). -/
inductive FarTarget where
  | ptr (sel : BitVec 16) (off : BitVec 32)
  | mem (m : Mem)
  deriving DecidableEq, Repr, Inhabited

/-- The operand forms of IMUL (42_gp_d_j.md R406). -/
inductive ImulForm where
  | acc (rm : RM)
  | regRm (dst : Gpr) (rm : RM)
  | regRmImm (dst : Gpr) (rm : RM) (imm : BitVec 64)
  deriving DecidableEq, Repr, Inhabited

/-- The port operand of IN and OUT (42_gp_d_j.md R407). -/
inductive Port where
  | imm (v : Byte)
  | dx
  deriving DecidableEq, Repr, Inhabited

/-- Repeat prefixes: F3 and F2 (30_encoding.md R166). -/
inductive Rep where
  | none
  | repe
  | repne
  deriving DecidableEq, Repr, Inhabited

/-- The count of a shift or rotate (31_opcode_maps.md R245). -/
inductive ShiftCount where
  | one
  | imm (v : Byte)
  | cl
  deriving DecidableEq, Repr, Inhabited

/-- Numbers of the vector registers (30_encoding.md R183). -/
abbrev XmmNum := BitVec 4

/-- The operand forms of MOV (43_gp_l_m.md R470, 51_sys_m_r.md R761, R762). -/
inductive MovForm where
  | rmReg (w : Width) (rm : RM) (r : GReg)
  | regRm (w : Width) (r : GReg) (rm : RM)
  | rmImm (w : Width) (rm : RM) (imm : BitVec 64)
  | load (w : Width) (seg : SegName) (asz : ASize) (off : BitVec 64)
  | store (w : Width) (seg : SegName) (asz : ASize) (off : BitVec 64)
  | fromSeg (w : Width) (rm : RM) (s : SegName)
  | toSeg (s : SegName) (rm : RM)
  | fromCr (lock : Bool) (n : BitVec 4) (r : Gpr)
  | toCr (lock : Bool) (n : BitVec 4) (r : Gpr)
  | fromDr (n : BitVec 4) (r : Gpr)
  | toDr (n : BitVec 4) (r : Gpr)
  deriving DecidableEq, Repr, Inhabited

/-- The operand forms of MOVBE (43_gp_l_m.md R471). -/
inductive MovbeForm where
  | load (dst : Gpr) (m : Mem)
  | store (m : Mem) (src : Gpr)
  deriving DecidableEq, Repr, Inhabited

/-- The operand forms of MOVD (43_gp_l_m.md R472). -/
inductive MovdForm where
  | toXmm (x : XmmNum) (src : RM)
  | fromXmm (dst : RM) (x : XmmNum)
  | toMmx (x : BitVec 3) (src : RM)
  | fromMmx (dst : RM) (x : BitVec 3)
  deriving DecidableEq, Repr, Inhabited

/-- The operand forms of POP (44_gp_n_p.md R520). -/
inductive PopForm where
  | rm (d : RM)
  | seg (s : SegName)
  deriving DecidableEq, Repr, Inhabited

/-- The operand forms of PUSH (44_gp_n_p.md R530). -/
inductive PushForm where
  | rm (v : RM)
  | seg (s : SegName)
  | imm (v : BitVec 64)
  deriving DecidableEq, Repr, Inhabited

/-- The instructions. Each constructor's docstring cites its rule. -/
inductive Instr where
  /-- ADD: R308. -/
  | add (w : Width) (f : AluForm) (lock : Bool)
  /-- OR: R513. -/
  | or (w : Width) (f : AluForm) (lock : Bool)
  /-- ADC: R306. -/
  | adc (w : Width) (f : AluForm) (lock : Bool)
  /-- SBB: R580. -/
  | sbb (w : Width) (f : AluForm) (lock : Bool)
  /-- AND: R310. -/
  | and (w : Width) (f : AluForm) (lock : Bool)
  /-- SUB: R593. -/
  | sub (w : Width) (f : AluForm) (lock : Bool)
  /-- XOR: R639. -/
  | xor (w : Width) (f : AluForm) (lock : Bool)
  /-- CMP: R367. -/
  | cmp (w : Width) (f : AluForm)
  /-- AAD: R303. -/
  | aad (base : Byte)
  /-- AAM: R304. -/
  | aam (base : Byte)
  /-- ADCX: R307. -/
  | adcx (w : Width) (dst : Gpr) (src : RM)
  /-- ADOX: R309. -/
  | adox (w : Width) (dst : Gpr) (src : RM)
  /-- ANDN: R311. -/
  | andn (w : Width) (dst : Gpr) (src1 : Gpr) (src2 : RM)
  /-- BEXTR: R312. -/
  | bextr (w : Width) (dst : Gpr) (src : RM) (ctl : BextrCtl)
  /-- BLCFILL: R315. -/
  | blcfill (w : Width) (dst : Gpr) (src : RM)
  /-- BLCI: R316. -/
  | blci (w : Width) (dst : Gpr) (src : RM)
  /-- BLCIC: R317. -/
  | blcic (w : Width) (dst : Gpr) (src : RM)
  /-- BLCMSK: R318. -/
  | blcmsk (w : Width) (dst : Gpr) (src : RM)
  /-- BLCS: R319. -/
  | blcs (w : Width) (dst : Gpr) (src : RM)
  /-- BLSFILL: R320. -/
  | blsfill (w : Width) (dst : Gpr) (src : RM)
  /-- BLSIC: R322. -/
  | blsic (w : Width) (dst : Gpr) (src : RM)
  /-- BLSI: R321. -/
  | blsi (w : Width) (dst : Gpr) (src : RM)
  /-- BLSMSK: R323. -/
  | blsmsk (w : Width) (dst : Gpr) (src : RM)
  /-- BLSR: R324. -/
  | blsr (w : Width) (dst : Gpr) (src : RM)
  /-- BOUND: R325. -/
  | bound (w : Width) (idx : Gpr) (m : Mem)
  /-- BSF: R326. -/
  | bsf (w : Width) (dst : Gpr) (src : RM)
  /-- BSR: R327. -/
  | bsr (w : Width) (dst : Gpr) (src : RM)
  /-- BSWAP: R328. -/
  | bswap (w : Width) (r : Gpr)
  /-- BT: R330. -/
  | bt (w : Width) (rm : RM) (off : BitOff)
  /-- BTC: R331. -/
  | btc (w : Width) (rm : RM) (off : BitOff) (lock : Bool)
  /-- BTR: R332. -/
  | btr (w : Width) (rm : RM) (off : BitOff) (lock : Bool)
  /-- BTS: R333. -/
  | bts (w : Width) (rm : RM) (off : BitOff) (lock : Bool)
  /-- BZHI: R334. -/
  | bzhi (w : Width) (dst : Gpr) (src : RM) (idx : Gpr)
  /-- CALL: R350. -/
  | call (w : Width) (t : NearTarget)
  /-- CALL_FAR: R351. -/
  | callFar (w : Width) (t : FarTarget)
  /-- CLFLUSH: R360. -/
  | clflush (m : Mem)
  /-- CLFLUSHOPT: R361. -/
  | clflushopt (m : Mem)
  /-- CLWB: R362. -/
  | clwb (m : Mem)
  /-- CLZERO: R363. -/
  | clzero (seg : SegName) (asz : ASize)
  /-- CMOVO: R366. -/
  | cmovo (w : Width) (dst : Gpr) (src : RM)
  /-- CMOVNO: R366. -/
  | cmovno (w : Width) (dst : Gpr) (src : RM)
  /-- CMOVB_CMOVC_CMOVNAE: R366. -/
  | cmovb (w : Width) (dst : Gpr) (src : RM)
  /-- CMOVNB_CMOVNC_CMOVAE: R366. -/
  | cmovnb (w : Width) (dst : Gpr) (src : RM)
  /-- CMOVZ_CMOVE: R366. -/
  | cmovz (w : Width) (dst : Gpr) (src : RM)
  /-- CMOVNZ_CMOVNE: R366. -/
  | cmovnz (w : Width) (dst : Gpr) (src : RM)
  /-- CMOVBE_CMOVNA: R366. -/
  | cmovbe (w : Width) (dst : Gpr) (src : RM)
  /-- CMOVNBE_CMOVA: R366. -/
  | cmovnbe (w : Width) (dst : Gpr) (src : RM)
  /-- CMOVS: R366. -/
  | cmovs (w : Width) (dst : Gpr) (src : RM)
  /-- CMOVNS: R366. -/
  | cmovns (w : Width) (dst : Gpr) (src : RM)
  /-- CMOVP_CMOVPE: R366. -/
  | cmovp (w : Width) (dst : Gpr) (src : RM)
  /-- CMOVNP_CMOVPO: R366. -/
  | cmovnp (w : Width) (dst : Gpr) (src : RM)
  /-- CMOVL_CMOVNGE: R366. -/
  | cmovl (w : Width) (dst : Gpr) (src : RM)
  /-- CMOVNL_CMOVGE: R366. -/
  | cmovnl (w : Width) (dst : Gpr) (src : RM)
  /-- CMOVLE_CMOVNG: R366. -/
  | cmovle (w : Width) (dst : Gpr) (src : RM)
  /-- CMOVNLE_CMOVG: R366. -/
  | cmovnle (w : Width) (dst : Gpr) (src : RM)
  /-- CMPS_CMPSB: R368. -/
  | cmpsb (seg : SegName) (asz : ASize) (rep : Rep)
  /-- CMPS_CMPSW_CMPSD_CMPSQ: R368. -/
  | cmpsv (w : Width) (seg : SegName) (asz : ASize) (rep : Rep)
  /-- CMPXCHG: R369. -/
  | cmpxchg (w : Width) (rm : RM) (r : GReg) (lock : Bool)
  /-- CMPXCHG8B: R370. -/
  | cmpxchg8b (m : Mem) (lock : Bool)
  /-- CMPXCHG16B: R370. -/
  | cmpxchg16b (m : Mem) (lock : Bool)
  /-- CRC32: R372. -/
  | crc32 (w : Width) (wide : Bool) (dst : Gpr) (src : RM)
  /-- DEC: R402. -/
  | dec (w : Width) (rm : RM) (lock : Bool)
  /-- DIV: R403. -/
  | div (w : Width) (rm : RM)
  /-- ENTER: R404. -/
  | enter (w : Width) (size : BitVec 16) (level : Byte)
  /-- IDIV: R405. -/
  | idiv (w : Width) (rm : RM)
  /-- IMUL: R406. -/
  | imul (w : Width) (f : ImulForm)
  /-- IN: R407. -/
  | inp (w : Width) (port : Port)
  /-- INC: R408. -/
  | inc (w : Width) (rm : RM) (lock : Bool)
  /-- INS_INSB: R409. -/
  | insb (asz : ASize) (rep : Rep)
  /-- INS_INSW: R409. -/
  | insw (asz : ASize) (rep : Rep)
  /-- INS_INSD: R409. -/
  | insd (asz : ASize) (rep : Rep)
  /-- INT: R410. -/
  | int (vector : Byte)
  /-- JO: R418. -/
  | jo (w : Width) (rel : BitVec 64)
  /-- JNO: R418. -/
  | jno (w : Width) (rel : BitVec 64)
  /-- JB_JC_JNAE: R418. -/
  | jb (w : Width) (rel : BitVec 64)
  /-- JNB_JNC_JAE: R418. -/
  | jnb (w : Width) (rel : BitVec 64)
  /-- JZ_JE: R418. -/
  | jz (w : Width) (rel : BitVec 64)
  /-- JNZ_JNE: R418. -/
  | jnz (w : Width) (rel : BitVec 64)
  /-- JBE_JNA: R418. -/
  | jbe (w : Width) (rel : BitVec 64)
  /-- JNBE_JA: R418. -/
  | jnbe (w : Width) (rel : BitVec 64)
  /-- JS: R418. -/
  | js (w : Width) (rel : BitVec 64)
  /-- JNS: R418. -/
  | jns (w : Width) (rel : BitVec 64)
  /-- JP_JPE: R418. -/
  | jp (w : Width) (rel : BitVec 64)
  /-- JNP_JPO: R418. -/
  | jnp (w : Width) (rel : BitVec 64)
  /-- JL_JNGE: R418. -/
  | jl (w : Width) (rel : BitVec 64)
  /-- JNL_JGE: R418. -/
  | jnl (w : Width) (rel : BitVec 64)
  /-- JLE_JNG: R418. -/
  | jle (w : Width) (rel : BitVec 64)
  /-- JNLE_JG: R418. -/
  | jnle (w : Width) (rel : BitVec 64)
  /-- JCXZ: R419. -/
  | jcxz (w : Width) (rel : BitVec 64)
  /-- JECXZ: R419. -/
  | jecxz (w : Width) (rel : BitVec 64)
  /-- JRCXZ: R419. -/
  | jrcxz (w : Width) (rel : BitVec 64)
  /-- JMP: R420. -/
  | jmp (w : Width) (t : NearTarget)
  /-- JMP_FAR: R421. -/
  | jmpFar (w : Width) (t : FarTarget)
  /-- LDS: R451. -/
  | lds (w : Width) (dst : Gpr) (m : Mem)
  /-- LES: R451. -/
  | les (w : Width) (dst : Gpr) (m : Mem)
  /-- LFS: R451. -/
  | lfs (w : Width) (dst : Gpr) (m : Mem)
  /-- LGS: R451. -/
  | lgs (w : Width) (dst : Gpr) (m : Mem)
  /-- LSS: R451. -/
  | lss (w : Width) (dst : Gpr) (m : Mem)
  /-- LEA: R453. -/
  | lea (w : Width) (dst : Gpr) (m : Mem)
  /-- LEAVE: R454. -/
  | leave (w : Width)
  /-- LLWPCB: R456. -/
  | llwpcb (w : Width) (r : Gpr)
  /-- LODS_LODSB: R457. -/
  | lodsb (seg : SegName) (asz : ASize) (rep : Rep)
  /-- LODS_LODSW_LODSD_LODSQ: R457. -/
  | lodsv (w : Width) (seg : SegName) (asz : ASize) (rep : Rep)
  /-- LOOP: R458. -/
  | loop (w : Width) (asz : ASize) (rel : BitVec 64)
  /-- LOOPE_LOOPZ: R458. -/
  | loope (w : Width) (asz : ASize) (rel : BitVec 64)
  /-- LOOPNE_LOOPNZ: R458. -/
  | loopne (w : Width) (asz : ASize) (rel : BitVec 64)
  /-- LWPINS: R459. -/
  | lwpins (w : Width) (src1 : Gpr) (src2 : RM) (flags : BitVec 32)
  /-- LWPVAL: R460. -/
  | lwpval (w : Width) (src1 : Gpr) (src2 : RM) (flags : BitVec 32)
  /-- LZCNT: R461. -/
  | lzcnt (w : Width) (dst : Gpr) (src : RM)
  /-- MONITORX: R464. -/
  | monitorx (seg : SegName) (asz : ASize)
  /-- MOV: R470 (general forms), R761 (MOV CRn), R762 (MOV DRn). -/
  | mov (f : MovForm)
  /-- MOVBE: R471. -/
  | movbe (w : Width) (f : MovbeForm)
  /-- MOVD: R472. -/
  | movd (wide : Bool) (f : MovdForm)
  /-- MOVMSKPD: R473. -/
  | movmskpd (dst : Gpr) (x : XmmNum)
  /-- MOVMSKPS: R474. -/
  | movmskps (dst : Gpr) (x : XmmNum)
  /-- MOVNTI: R475. -/
  | movnti (w : Width) (m : Mem) (r : Gpr)
  /-- MOVS_MOVSB: R476. -/
  | movsb (seg : SegName) (asz : ASize) (rep : Rep)
  /-- MOVS_MOVSW_MOVSD_MOVSQ: R476. -/
  | movsv (w : Width) (seg : SegName) (asz : ASize) (rep : Rep)
  /-- MOVSX: R477. -/
  | movsx (w : Width) (sw : Width) (dst : Gpr) (src : RM)
  /-- MOVSXD: R478. -/
  | movsxd (w : Width) (dst : Gpr) (src : RM)
  /-- MOVZX: R479. -/
  | movzx (w : Width) (sw : Width) (dst : Gpr) (src : RM)
  /-- MUL: R480. -/
  | mul (w : Width) (rm : RM)
  /-- MULX: R481. -/
  | mulx (w : Width) (hi : Gpr) (lo : Gpr) (src : RM)
  /-- NEG: R510. -/
  | neg (w : Width) (rm : RM) (lock : Bool)
  /-- NOP: R511. -/
  | nop (rm : Option RM)
  /-- NOT: R512. -/
  | not (w : Width) (rm : RM) (lock : Bool)
  /-- OUT: R514. -/
  | out (w : Width) (port : Port)
  /-- OUTS_OUTSB: R515. -/
  | outsb (seg : SegName) (asz : ASize) (rep : Rep)
  /-- OUTS_OUTSW: R515. -/
  | outsw (seg : SegName) (asz : ASize) (rep : Rep)
  /-- OUTS_OUTSD: R515. -/
  | outsd (seg : SegName) (asz : ASize) (rep : Rep)
  /-- PDEP: R517. -/
  | pdep (w : Width) (dst : Gpr) (src : Gpr) (mask : RM)
  /-- PEXT: R518. -/
  | pext (w : Width) (dst : Gpr) (src : Gpr) (mask : RM)
  /-- POP: R520. -/
  | pop (w : Width) (f : PopForm)
  /-- POPCNT: R525. -/
  | popcnt (w : Width) (dst : Gpr) (src : RM)
  /-- PREFETCH: R527. -/
  | prefetch (m : Mem)
  /-- PREFETCHW: R527. -/
  | prefetchw (m : Mem)
  /-- PREFETCHNTA: R528. -/
  | prefetchnta (m : Mem)
  /-- PREFETCHT0: R528. -/
  | prefetcht0 (m : Mem)
  /-- PREFETCHT1: R528. -/
  | prefetcht1 (m : Mem)
  /-- PREFETCHT2: R528. -/
  | prefetcht2 (m : Mem)
  /-- PUSH: R530. -/
  | push (w : Width) (f : PushForm)
  /-- ROL: R573. -/
  | rol (w : Width) (rm : RM) (cnt : ShiftCount)
  /-- ROR: R574. -/
  | ror (w : Width) (rm : RM) (cnt : ShiftCount)
  /-- RCL: R561. -/
  | rcl (w : Width) (rm : RM) (cnt : ShiftCount)
  /-- RCR: R562. -/
  | rcr (w : Width) (rm : RM) (cnt : ShiftCount)
  /-- SAL_SHL: R577. -/
  | shl (w : Width) (rm : RM) (cnt : ShiftCount)
  /-- SHR: R586. -/
  | shr (w : Width) (rm : RM) (cnt : ShiftCount)
  /-- SAR: R578. -/
  | sar (w : Width) (rm : RM) (cnt : ShiftCount)
  /-- RDFSBASE: R563. -/
  | rdfsbase (w : Width) (r : Gpr)
  /-- RDGSBASE: R563. -/
  | rdgsbase (w : Width) (r : Gpr)
  /-- RDPID: R564. -/
  | rdpid (r : Gpr)
  /-- RDRAND: R566. -/
  | rdrand (w : Width) (r : Gpr)
  /-- RDSEED: R567. -/
  | rdseed (w : Width) (r : Gpr)
  /-- RET: R568. -/
  | ret (w : Width) (imm : BitVec 16)
  /-- RETF: R569. -/
  | retf (w : Width) (imm : BitVec 16)
  /-- RORX: R575. -/
  | rorx (w : Width) (dst : Gpr) (src : RM) (imm : Byte)
  /-- SARX: R579. -/
  | sarx (w : Width) (dst : Gpr) (src : RM) (cnt : Gpr)
  /-- SCAS_SCASB: R581. -/
  | scasb (asz : ASize) (rep : Rep)
  /-- SCAS_SCASW_SCASD_SCASQ: R581. -/
  | scasv (w : Width) (asz : ASize) (rep : Rep)
  /-- SETO: R582. -/
  | seto (rm : RM)
  /-- SETNO: R582. -/
  | setno (rm : RM)
  /-- SETB_SETC_SETNAE: R582. -/
  | setb (rm : RM)
  /-- SETNB_SETNC_SETAE: R582. -/
  | setnb (rm : RM)
  /-- SETZ_SETE: R582. -/
  | setz (rm : RM)
  /-- SETNZ_SETNE: R582. -/
  | setnz (rm : RM)
  /-- SETBE_SETNA: R582. -/
  | setbe (rm : RM)
  /-- SETNBE_SETA: R582. -/
  | setnbe (rm : RM)
  /-- SETS: R582. -/
  | sets (rm : RM)
  /-- SETNS: R582. -/
  | setns (rm : RM)
  /-- SETP_SETPE: R582. -/
  | setp (rm : RM)
  /-- SETNP_SETPO: R582. -/
  | setnp (rm : RM)
  /-- SETL_SETNGE: R582. -/
  | setl (rm : RM)
  /-- SETNL_SETGE: R582. -/
  | setnl (rm : RM)
  /-- SETLE_SETNG: R582. -/
  | setle (rm : RM)
  /-- SETNLE_SETG: R582. -/
  | setnle (rm : RM)
  /-- SHLD: R584. -/
  | shld (w : Width) (rm : RM) (r : Gpr) (cnt : ShiftCount)
  /-- SHLX: R585. -/
  | shlx (w : Width) (dst : Gpr) (src : RM) (cnt : Gpr)
  /-- SHRD: R587. -/
  | shrd (w : Width) (rm : RM) (r : Gpr) (cnt : ShiftCount)
  /-- SHRX: R588. -/
  | shrx (w : Width) (dst : Gpr) (src : RM) (cnt : Gpr)
  /-- SLWPCB: R589. -/
  | slwpcb (w : Width) (r : Gpr)
  /-- STOS_STOSB: R592. -/
  | stosb (asz : ASize) (rep : Rep)
  /-- STOS_STOSW_STOSD_STOSQ: R592. -/
  | stosv (w : Width) (asz : ASize) (rep : Rep)
  /-- T1MSKC: R630. -/
  | t1mskc (w : Width) (dst : Gpr) (src : RM)
  /-- TEST: R631. -/
  | test (w : Width) (rm : RM) (src : RegImm)
  /-- TZCNT: R632. -/
  | tzcnt (w : Width) (dst : Gpr) (src : RM)
  /-- TZMSK: R633. -/
  | tzmsk (w : Width) (dst : Gpr) (src : RM)
  /-- WRFSBASE: R635. -/
  | wrfsbase (w : Width) (r : Gpr)
  /-- WRGSBASE: R635. -/
  | wrgsbase (w : Width) (r : Gpr)
  /-- XADD: R636. -/
  | xadd (w : Width) (rm : RM) (r : GReg) (lock : Bool)
  /-- XCHG: R637. -/
  | xchg (w : Width) (rm : RM) (r : GReg) (lock : Bool)
  /-- XLAT_XLATB: R638. -/
  | xlat (seg : SegName) (asz : ASize)
  /-- ARPL: R700. -/
  | arpl (rm : RM) (r : Gpr)
  /-- CLRSSBSY: R706. -/
  | clrssbsy (m : Mem)
  /-- INCSSPD: R708. -/
  | incsspd (r : Gpr)
  /-- INCSSPQ: R708. -/
  | incsspq (r : Gpr)
  /-- INVLPG: R711. -/
  | invlpg (m : Mem)
  /-- INVLPGA: R712. -/
  | invlpga (seg : SegName) (asz : ASize)
  /-- INVLPGB: R713. -/
  | invlpgb (seg : SegName) (asz : ASize)
  /-- INVPCID: R714. -/
  | invpcid (r : Gpr) (m : Mem)
  /-- LAR: R722. -/
  | lar (w : Width) (dst : Gpr) (src : RM)
  /-- LGDT: R723. -/
  | lgdt (w : Width) (m : Mem)
  /-- LIDT: R724. -/
  | lidt (w : Width) (m : Mem)
  /-- LLDT: R725. -/
  | lldt (rm : RM)
  /-- LMSW: R726. -/
  | lmsw (rm : RM)
  /-- LSL: R727. -/
  | lsl (w : Width) (dst : Gpr) (src : RM)
  /-- LTR: R728. -/
  | ltr (rm : RM)
  /-- MONITOR: R760. -/
  | monitor (seg : SegName) (asz : ASize)
  /-- PSMASH: R765. -/
  | psmash (asz : ASize)
  /-- PVALIDATE: R766. -/
  | pvalidate (asz : ASize)
  /-- RDSSPD: R770. -/
  | rdsspd (r : Gpr)
  /-- RDSSPQ: R770. -/
  | rdsspq (r : Gpr)
  /-- RMPADJUST: R773. -/
  | rmpadjust (asz : ASize)
  /-- RMPUPDATE: R774. -/
  | rmpupdate (seg : SegName) (asz : ASize)
  /-- RSTORSSP: R776. -/
  | rstorssp (m : Mem)
  /-- SGDT: R822. -/
  | sgdt (m : Mem)
  /-- SIDT: R823. -/
  | sidt (m : Mem)
  /-- SLDT: R825. -/
  | sldt (w : Width) (rm : RM)
  /-- SMSW: R826. -/
  | smsw (w : Width) (rm : RM)
  /-- STR: R830. -/
  | str (w : Width) (rm : RM)
  /-- SYSRET: R835. -/
  | sysret (w : Width)
  /-- VERR: R837. -/
  | verr (rm : RM)
  /-- VERW: R838. -/
  | verw (rm : RM)
  /-- VMLOAD: R839. -/
  | vmload (asz : ASize)
  /-- VMRUN: R841. -/
  | vmrun (asz : ASize)
  /-- VMSAVE: R843. -/
  | vmsave (asz : ASize)
  /-- WRSSD: R847. -/
  | wrssd (m : Mem) (r : Gpr)
  /-- WRSSQ: R847. -/
  | wrssq (m : Mem) (r : Gpr)
  /-- WRUSSD: R848. -/
  | wrussd (m : Mem) (r : Gpr)
  /-- WRUSSQ: R848. -/
  | wrussq (m : Mem) (r : Gpr)
  /-- prefix_VEX_3-byte: R279, D49: a code point of another volume behind this prefix. -/
  | prefixVex3 (map : BitVec 5) (op : Byte)
  /-- prefix_VEX_2-byte: R279, D49: a code point of another volume behind this prefix. -/
  | prefixVex2 (op : Byte)
  /-- prefix_XOP: R280, D49: a code point of another volume behind this prefix. -/
  | prefixXop (map : BitVec 5) (op : Byte)
  /-- escape_secondary_map: R259, D49: a code point of another volume in the secondary map. -/
  | escape0F (op : Byte) (modrm : Byte)
  /-- escape_0F_38h_map: R268, D49: a code point of another volume in this map. -/
  | escape0F38 (op : Byte) (modrm : Byte)
  /-- escape_0F_3Ah_map: R269, D49: a code point of another volume in this map. -/
  | escape0F3A (op : Byte) (modrm : Byte)
  /-- other_volume_x87: R282, D49. -/
  | x87 (op : BitVec 3) (modrm : Byte)
  /-- other_volume_3DNow: R281, D49. -/
  | threeDNow (op : Byte) (modrm : Byte)
  /-- reserved_Group_3_1: R247, D48. -/
  | reservedGroup3 (w : Width)
  /-- AAA: R302. -/
  | aaa
  /-- AAS: R305. -/
  | aas
  /-- CBW: R356. -/
  | cbw
  /-- CWDE: R356. -/
  | cwde
  /-- CDQE: R356. -/
  | cdqe
  /-- CWD: R357. -/
  | cwd
  /-- CDQ: R357. -/
  | cdq
  /-- CQO: R357. -/
  | cqo
  /-- CLC: R358. -/
  | clc
  /-- CLD: R359. -/
  | cld
  /-- CMC: R364. -/
  | cmc
  /-- CPUID: R371. -/
  | cpuid
  /-- DAA: R400. -/
  | daa
  /-- DAS: R401. -/
  | das
  /-- INTO: R417. -/
  | into
  /-- LAHF: R450. -/
  | lahf
  /-- LFENCE: R455. -/
  | lfence
  /-- MCOMMIT: R462. -/
  | mcommit
  /-- MFENCE: R463. -/
  | mfence
  /-- MWAITX: R482. -/
  | mwaitx
  /-- PAUSE: R516. -/
  | pause
  /-- POPA: R524. -/
  | popa
  /-- POPAD: R524. -/
  | popad
  /-- POPF: R526. -/
  | popf
  /-- POPFD: R526. -/
  | popfd
  /-- POPFQ: R526. -/
  | popfq
  /-- PUSHA: R531. -/
  | pusha
  /-- PUSHAD: R531. -/
  | pushad
  /-- PUSHF: R532. -/
  | pushf
  /-- PUSHFD: R532. -/
  | pushfd
  /-- PUSHFQ: R532. -/
  | pushfq
  /-- RDPRU: R565. -/
  | rdpru
  /-- SAHF: R576. -/
  | sahf
  /-- SFENCE: R583. -/
  | sfence
  /-- STC: R590. -/
  | stc
  /-- STD: R591. -/
  | std
  /-- UD0: R634. -/
  | ud0
  /-- UD1: R634. -/
  | ud1
  /-- UD2: R634. -/
  | ud2
  /-- CLAC: R702. -/
  | clac
  /-- CLGI: R703. -/
  | clgi
  /-- CLI: R704. -/
  | cli
  /-- CLTS: R705. -/
  | clts
  /-- HLT: R707. -/
  | hlt
  /-- INT_3: R709. -/
  | int3
  /-- INVD: R710. -/
  | invd
  /-- IRET: R715. -/
  | iret
  /-- IRETD: R715. -/
  | iretd
  /-- IRETQ: R715. -/
  | iretq
  /-- MWAIT: R763. -/
  | mwait
  /-- RDMSR: R767. -/
  | rdmsr
  /-- RDPKRU: R768. -/
  | rdpkru
  /-- RDPMC: R769. -/
  | rdpmc
  /-- RDTSC: R771. -/
  | rdtsc
  /-- RDTSCP: R772. -/
  | rdtscp
  /-- RSM: R775. -/
  | rsm
  /-- SAVEPREVSSP: R820. -/
  | saveprevssp
  /-- SETSSBSY: R821. -/
  | setssbsy
  /-- SKINIT: R824. -/
  | skinit
  /-- STAC: R827. -/
  | stac
  /-- STI: R828. -/
  | sti
  /-- STGI: R829. -/
  | stgi
  /-- SWAPGS: R831. -/
  | swapgs
  /-- SYSCALL: R832. -/
  | syscall
  /-- SYSENTER: R833. -/
  | sysenter
  /-- SYSEXIT: R834. -/
  | sysexit
  /-- TLBSYNC: R836. -/
  | tlbsync
  /-- VMMCALL: R840. -/
  | vmmcall
  /-- VMGEXIT: R840. -/
  | vmgexit
  /-- WBINVD: R844. -/
  | wbinvd
  /-- WBNOINVD: R844. -/
  | wbnoinvd
  /-- WRMSR: R845. -/
  | wrmsr
  /-- WRPKRU: R846. -/
  | wrpkru
  /-- prefix_operand-size_override: R161: fifteen bytes of prefixes ending in this one. -/
  | prefixOpSize
  /-- prefix_address-size_override: R161: fifteen bytes of prefixes ending in this one. -/
  | prefixAddrSize
  /-- prefix_CS_segment_override: R161: fifteen bytes of prefixes ending in this one. -/
  | prefixCs
  /-- prefix_DS_segment_override: R161: fifteen bytes of prefixes ending in this one. -/
  | prefixDs
  /-- prefix_ES_segment_override: R161: fifteen bytes of prefixes ending in this one. -/
  | prefixEs
  /-- prefix_FS_segment_override: R161: fifteen bytes of prefixes ending in this one. -/
  | prefixFs
  /-- prefix_GS_segment_override: R161: fifteen bytes of prefixes ending in this one. -/
  | prefixGs
  /-- prefix_SS_segment_override: R161: fifteen bytes of prefixes ending in this one. -/
  | prefixSs
  /-- prefix_LOCK: R161: fifteen bytes of prefixes ending in this one. -/
  | prefixLock
  /-- prefix_REP__REPE__REPZ: R161: fifteen bytes of prefixes ending in this one. -/
  | prefixRep
  /-- prefix_REPNE__REPNZ: R161: fifteen bytes of prefixes ending in this one. -/
  | prefixRepne
  /-- prefix_REX: R161: fifteen bytes of prefixes ending in this one. -/
  | prefixRex
  /-- other_volume_WAIT_FWAIT: R282, D49. -/
  | wait
  /-- map_only_INT1: R244, D50. -/
  | int1
  /-- (reserved): R242, D48. -/
  | reservedD6
  deriving DecidableEq, Repr, Inhabited

end Sys2Proof
end

