-- ==== Sys2Proof/WellFormed.lean ====
section
/-! DEFINITION. The decoding context, and which instructions have an encoding in it (30_encoding.md, 31_opcode_maps.md).
A check is a Bool, so that it can be evaluated. -/

namespace Sys2Proof

/-- What decoding depends on: 64-bit mode, whether VEX and XOP prefixes are recognised (protected and long mode,
30_encoding.md R200), and CS.D (30_encoding.md R170). -/
structure Ctx where
  mode64 : Bool
  prot : Bool
  d32 : Bool
  deriving DecidableEq, Repr, Inhabited

/-- Real mode right after reset: 16-bit code (70_reset_and_hazards.md R960). -/
def Ctx.real16 : Ctx := { mode64 := false, prot := false, d32 := false }

/-- 64-bit mode (10_state.md R62). -/
def Ctx.long64 : Ctx := { mode64 := true, prot := true, d32 := false }

/-- Protected mode with 32-bit code (10_state.md R62). -/
def Ctx.prot32 : Ctx := { mode64 := false, prot := true, d32 := true }

namespace WellFormed

/-- A register with number 8 or above needs a REX bit (30_encoding.md R178). -/
def ext (r : Gpr) : Bool := r.num.msb

/-- The register can be named in this mode (10_state.md R41). -/
def gpr (c : Ctx) (r : Gpr) : Bool := c.mode64 || !ext r

/-- The byte register is one of SPL, BPL, SIL, DIL, which need a REX prefix (30_encoding.md R176). -/
def needsRexByte (w : Width) (g : GReg) : Bool :=
  w == .w8 && !g.high && (g.r == .rsp || g.r == .rbp || g.r == .rsi || g.r == .rdi)

/-- A register operand: AH, CH, DH, BH only as bytes; the uniform byte registers only in 64-bit mode (30_encoding.md R176). -/
def greg (c : Ctx) (w : Width) (g : GReg) : Bool :=
  if g.high then w == .w8 && (g.r == .rax || g.r == .rcx || g.r == .rdx || g.r == .rbx)
  else gpr c g.r && (c.mode64 || !needsRexByte w g)

/-- The default segment of an address form (20_memory.md R104). -/
def defaultSeg (b : Base) : SegName :=
  match b with
  | .reg .rsp => .ss
  | .reg .rbp => .ss
  | _ => .ds

/-- The 16-bit address forms (30_encoding.md R181). -/
def form16 (b : Base) (i : Option Index) : Option (BitVec 3) :=
  match b, i with
  | .reg .rbx, some ⟨.rsi, 0⟩ => some 0
  | .reg .rbx, some ⟨.rdi, 0⟩ => some 1
  | .reg .rbp, some ⟨.rsi, 0⟩ => some 2
  | .reg .rbp, some ⟨.rdi, 0⟩ => some 3
  | .reg .rsi, none => some 4
  | .reg .rdi, none => some 5
  | .reg .rbp, none => some 6
  | .reg .rbx, none => some 7
  | _, _ => none

/-- A segment can be selected: in 64-bit mode only FS and GS override (20_memory.md R104). -/
def seg (c : Ctx) (s dflt : SegName) : Bool :=
  !c.mode64 || s == dflt || s == .fs || s == .gs

/-- The address size exists in this mode (30_encoding.md R171). -/
def asize (c : Ctx) (a : ASize) : Bool :=
  if c.mode64 then a != .a16 else a != .a64

/-- A memory operand has an encoding (30_encoding.md R180, R181). -/
def mem (c : Ctx) (m : Mem) : Bool :=
  asize c m.asz && seg c m.seg (defaultSeg m.base) &&
  (match m.asz with
   | .a16 =>
     m.disp == (m.disp.setWidth 16).signExtend 64 &&
     ((form16 m.base m.index).isSome || (m.base == .none && m.index == none))
   | _ =>
     m.disp == (m.disp.setWidth 32).signExtend 64 &&
     (match m.base with
      | .none => true
      | .reg r => gpr c r
      | .rip => c.mode64 && m.index == none) &&
     (match m.index with
      | none => true
      | some i => gpr c i.r && i.r != .rsp))

/-- A register or memory operand of width `w`. -/
def rm (c : Ctx) (w : Width) : RM → Bool
  | .reg g => greg c w g
  | .mem m => mem c m

/-- A register or memory operand whose register is never a high byte. -/
def rmLow (c : Ctx) (w : Width) : RM → Bool
  | .reg g => greg c w g && !g.high
  | .mem m => mem c m

/-- The operand needs a REX prefix: an extended register, or SPL, BPL, SIL, DIL (30_encoding.md R176, R178). -/
def rexRm (w : Width) : RM → Bool
  | .reg g => ext g.r || needsRexByte w g
  | .mem m =>
    (match m.base with | .reg r => ext r | _ => false) || (match m.index with | some i => ext i.r | none => false)

/-- The register operand needs a REX prefix. -/
def rexReg (w : Width) (g : GReg) : Bool := ext g.r || needsRexByte w g

/-- A high byte register cannot stand beside a REX prefix (30_encoding.md R176). -/
def byteMix (w : Width) (r : RM) (g : GReg) : Bool :=
  let high := (match r with | .reg h => h.high | .mem _ => false) || g.high
  !(high && (rexRm w r || rexReg w g))

/-- An immediate is its low min(width, 32) bits, sign-extended (30_encoding.md R190). -/
def imm (w : Width) (v : BitVec 64) : Bool :=
  match w with
  | .w8 => v == (v.setWidth 8).signExtend 64
  | .w16 => v == (v.setWidth 16).signExtend 64
  | _ => v == (v.setWidth 32).signExtend 64

/-- A word, doubleword or quadword operand size (31_opcode_maps.md R232 `v`). -/
def wv (c : Ctx) (w : Width) : Bool :=
  match w with
  | .w8 => false
  | .w64 => c.mode64
  | _ => true

/-- A byte operand, or a word, doubleword or quadword. -/
def wbv (c : Ctx) (w : Width) : Bool := w == .w8 || wv c w

/-- A doubleword or quadword operand size (31_opcode_maps.md R232 `y`). -/
def wy (c : Ctx) (w : Width) : Bool := w == .w32 || (w == .w64 && c.mode64)

/-- An operand size of the rows that default to 64 bits (31_opcode_maps.md R270). -/
def wd64 (c : Ctx) (w : Width) : Bool :=
  if c.mode64 then w == .w64 || w == .w16 else w == .w32 || w == .w16

/-- A displacement: its low 16 bits, or its low 32, sign-extended (30_encoding.md R190). -/
def rel (w : Width) (c : Ctx) (d : BitVec 64) : Bool :=
  match w with
  | .w16 => d == (d.setWidth 16).signExtend 64
  | _ => c.mode64 && d == (d.setWidth 32).signExtend 64 || !c.mode64 && d == (d.setWidth 32).signExtend 64

/-- The segment and address size of a string or implicit operand (30_encoding.md R172). -/
def str (c : Ctx) (s : SegName) (a : ASize) : Bool := asize c a && seg c s .ds

/-- A register form: dst in ModRM.reg, source in ModRM.r/m, no byte registers. -/
def regRm (c : Ctx) (w : Width) (dst : Gpr) (src : RM) : Bool := gpr c dst && rmLow c w src

/-- A VEX or XOP general-purpose form (20_memory.md R122). -/
def vex (c : Ctx) (w : Width) (dst : Gpr) (src : RM) : Bool := c.prot && wy c w && regRm c w dst src

/-- The forms of an arithmetic-logic row. -/
def alu (c : Ctx) (w : Width) : AluForm → Bool
  | .rmReg r g => rm c w r && greg c w g && byteMix w r g
  | .regRm g r => rm c w r && greg c w g && byteMix w r g
  | .rmImm r v => rm c w r && imm w v && byteMix w r ⟨.rax, false⟩

/-- A near target: the displacement of E8/E9, or an operand (41_gp_c.md R350). -/
def near (c : Ctx) (w : Width) : NearTarget → Bool
  | .rel d => rel w c d
  | .rm r => rmLow c w r

/-- A far target (41_gp_c.md R351). -/
def far (c : Ctx) (w : Width) : FarTarget → Bool
  | .ptr _ off => !c.mode64 && w != .w64 && (w == .w32 || off.ule 0xFFFF)
  | .mem m => mem c m

/-- The forms of MOV (43_gp_l_m.md R470). -/
def mov (c : Ctx) : MovForm → Bool
  | .rmReg w r g => wbv c w && rm c w r && greg c w g && byteMix w r g
  | .regRm w g r => wbv c w && rm c w r && greg c w g && byteMix w r g
  | .rmImm w r v =>
    wbv c w && rm c w r && byteMix w r ⟨.rax, false⟩ &&
    (imm w v || (w == .w64 && (match r with | .reg _ => true | .mem _ => false)))
  | .load w s a off => wbv c w && str c s a && (off.toNat < 2 ^ a.bits)
  | .store w s a off => wbv c w && str c s a && (off.toNat < 2 ^ a.bits)
  | .fromSeg w r _ => (match r with | .reg _ => wv c w | .mem _ => w == .w16) && rmLow c w r
  | .toSeg _ r => rmLow c .w16 r
  | .fromCr _ n r => gpr c r && (c.mode64 || !n.msb)
  | .toCr _ n r => gpr c r && (c.mode64 || !n.msb)
  | .fromDr n r => gpr c r && (c.mode64 || !n.msb)
  | .toDr n r => gpr c r && (c.mode64 || !n.msb)

/-- The forms of MOVD (43_gp_l_m.md R472); XMM8 to XMM15 only in 64-bit mode. -/
def movd (c : Ctx) : MovdForm → Bool
  | .toXmm x r => (c.mode64 || !x.msb) && rmLow c .w32 r
  | .fromXmm r x => (c.mode64 || !x.msb) && rmLow c .w32 r
  | .toMmx _ r => rmLow c .w32 r
  | .fromMmx r _ => rmLow c .w32 r

/-- The offset of a bit test: a register of the mode, or any byte (40_gp_a_b.md R329). -/
def bitOff (c : Ctx) : BitOff → Bool
  | .reg r => gpr c r
  | .imm _ => true

end WellFormed

open WellFormed in
/-- The instruction has an encoding in this context. The constructors that stand for prefix runs and for code points of
other volumes are not encoded (00_scope.md R2, 92_eei_decisions.md D49). -/
def wellFormed (c : Ctx) (i : Instr) : Bool :=
  match i with
  | .add w f _ | .or w f _ | .adc w f _ | .sbb w f _ | .and w f _ | .sub w f _ | .xor w f _ | .cmp w f =>
    wbv c w && alu c w f
  | .aaa | .aas | .daa | .das | .into | .popa | .popad | .pusha | .pushad => !c.mode64
  | .aad _ | .aam _ => !c.mode64
  | .adcx w dst src | .adox w dst src => wy c w && regRm c w dst src
  | .andn w dst src1 src2 => vex c w dst src2 && gpr c src1
  | .bextr w dst src ctl => vex c w dst src && (match ctl with | .reg r => gpr c r | .imm _ => true)
  | .blcfill w dst src | .blci w dst src | .blcic w dst src | .blcmsk w dst src | .blcs w dst src | .blsfill w dst src
  | .blsic w dst src | .blsi w dst src | .blsmsk w dst src | .blsr w dst src | .t1mskc w dst src | .tzmsk w dst src =>
    vex c w dst src
  | .bound w idx m => !c.mode64 && wv c w && gpr c idx && mem c m
  | .bsf w dst src | .bsr w dst src | .tzcnt w dst src | .lzcnt w dst src | .popcnt w dst src => wv c w && regRm c w dst src
  | .bswap w r => wv c w && gpr c r
  | .bt w r off => wv c w && rmLow c w r && bitOff c off
  | .btc w r off _ | .btr w r off _ | .bts w r off _ => wv c w && rmLow c w r && bitOff c off
  | .bzhi w dst src idx => vex c w dst src && gpr c idx
  | .call w t | .jmp w t => wd64 c w && near c w t
  | .callFar w t | .jmpFar w t => wv c w && far c w t
  | .cbw | .cwde | .cwd | .cdq | .clc | .cld | .cmc => true
  | .cdqe | .cqo => c.mode64
  | .clflush m | .clflushopt m | .clwb m => mem c m
  | .clzero s a | .monitorx s a | .monitor s a | .invlpga s a | .invlpgb s a | .rmpupdate s a
  | .xlat s a => str c s a
  | .cmovo w d s | .cmovno w d s | .cmovb w d s | .cmovnb w d s | .cmovz w d s | .cmovnz w d s | .cmovbe w d s
  | .cmovnbe w d s | .cmovs w d s | .cmovns w d s | .cmovp w d s | .cmovnp w d s | .cmovl w d s | .cmovnl w d s
  | .cmovle w d s | .cmovnle w d s => wv c w && regRm c w d s
  | .cmpsb s a _ | .lodsb s a _ | .movsb s a _ | .outsb s a _ | .outsw s a _ | .outsd s a _ => str c s a
  | .cmpsv w s a _ | .lodsv w s a _ | .movsv w s a _ => wv c w && str c s a
  | .cmpxchg w r g _ | .xadd w r g _ | .xchg w r g _ => wbv c w && rm c w r && greg c w g && byteMix w r g
  | .cmpxchg8b m _ => mem c m
  | .cmpxchg16b m _ => c.mode64 && mem c m
  | .cpuid => true
  | .crc32 w wide dst src =>
    gpr c dst && rm c w src && byteMix w src ⟨dst, false⟩ && (c.mode64 || !wide) &&
    (match w, src with | .w8, .reg g => !(g.high && (wide || ext dst)) | _, _ => true) &&
    (w == .w8 || w == .w64 && wide || (w == .w16 || w == .w32) && !wide)
  | .dec w r _ | .inc w r _ | .neg w r _ | .not w r _ => wbv c w && rm c w r && byteMix w r ⟨.rax, false⟩
  | .div w r | .idiv w r | .mul w r => wbv c w && rm c w r && byteMix w r ⟨.rax, false⟩
  | .enter w _ _ | .leave w => wd64 c w
  | .imul w f =>
    (match f with
     | .acc r => wbv c w && rm c w r && byteMix w r ⟨.rax, false⟩
     | .regRm dst r => wv c w && regRm c w dst r
     | .regRmImm dst r v => wv c w && regRm c w dst r && imm w v)
  | .inp w _ | .out w _ => w == .w8 || w == .w16 || w == .w32
  | .insb a _ | .insw a _ | .insd a _ | .scasb a _ | .stosb a _ => asize c a
  | .int _ => true
  | .jo w d | .jno w d | .jb w d | .jnb w d | .jz w d | .jnz w d | .jbe w d | .jnbe w d | .js w d | .jns w d | .jp w d
  | .jnp w d | .jl w d | .jnl w d | .jle w d | .jnle w d => wd64 c w && rel w c d
  | .jcxz w d => !c.mode64 && wd64 c w && d == (d.setWidth 8).signExtend 64
  | .jecxz w d => wd64 c w && d == (d.setWidth 8).signExtend 64
  | .jrcxz w d => c.mode64 && wd64 c w && d == (d.setWidth 8).signExtend 64
  | .lahf | .lfence | .mcommit | .mfence | .mwaitx | .pause | .popf | .pushf | .rdpru | .sahf | .sfence | .stc | .std
  | .ud0 | .ud1 | .ud2 => true
  | .popfd | .pushfd => !c.mode64
  | .popfq | .pushfq => c.mode64
  | .lds w dst m | .les w dst m => !c.mode64 && (w == .w16 || w == .w32) && gpr c dst && mem c m
  | .lfs w dst m | .lgs w dst m | .lss w dst m | .lea w dst m => wv c w && gpr c dst && mem c m
  | .llwpcb w r | .slwpcb w r => c.prot && wy c w && gpr c r
  | .loop w a d | .loope w a d | .loopne w a d => wd64 c w && asize c a && d == (d.setWidth 8).signExtend 64
  | .lwpins w s r _ | .lwpval w s r _ => c.prot && wy c w && gpr c s && rmLow c .w32 r
  | .mov f => mov c f
  | .movbe w f =>
    (match f with
     | .load dst m => wv c w && gpr c dst && mem c m
     | .store m src => wv c w && gpr c src && mem c m)
  | .movd wide f => (c.mode64 || !wide) && movd c f
  | .movmskpd dst x | .movmskps dst x => gpr c dst && (c.mode64 || !x.msb)
  | .movnti w m r => wy c w && gpr c r && mem c m
  | .movsx w sw dst src | .movzx w sw dst src =>
    wv c w && (sw == .w8 || sw == .w16) && gpr c dst && rm c sw src &&
    (match src with | .reg g => !(g.high && (ext dst || w == .w64)) | .mem _ => true)
  | .movsxd w dst src => c.mode64 && wv c w && regRm c w dst src
  | .mulx w hi lo src => vex c w hi src && gpr c lo
  | .nop r => (match r with | none => true | some r => rmLow c .w32 r)
  | .pdep w dst src mask | .pext w dst src mask => vex c w dst mask && gpr c src
  | .pop w f =>
    wd64 c w &&
    (match f with
     | .rm r => rmLow c w r
     | .seg s => s != .cs && (!c.mode64 || s == .fs || s == .gs))
  | .prefetch m | .prefetchw m | .prefetchnta m | .prefetcht0 m | .prefetcht1 m | .prefetcht2 m => mem c m
  | .push w f =>
    wd64 c w &&
    (match f with
     | .rm r => rmLow c w r
     | .seg s => !c.mode64 || s == .fs || s == .gs
     | .imm v => imm w v)
  | .rol w r _ | .ror w r _ | .rcl w r _ | .rcr w r _ | .shl w r _ | .shr w r _ | .sar w r _ =>
    wbv c w && rm c w r && byteMix w r ⟨.rax, false⟩
  | .rdfsbase w r | .rdgsbase w r | .wrfsbase w r | .wrgsbase w r => wy c w && gpr c r
  | .rdpid r => gpr c r
  | .rdrand w r | .rdseed w r => wv c w && gpr c r
  | .ret w _ => wd64 c w
  | .retf w _ => wv c w
  | .rorx w dst src _ => vex c w dst src
  | .sarx w dst src cnt | .shlx w dst src cnt | .shrx w dst src cnt => vex c w dst src && gpr c cnt
  | .scasv w a _ | .stosv w a _ => wv c w && asize c a
  | .seto r | .setno r | .setb r | .setnb r | .setz r | .setnz r | .setbe r | .setnbe r | .sets r | .setns r | .setp r
  | .setnp r | .setl r | .setnl r | .setle r | .setnle r => rm c .w8 r && byteMix .w8 r ⟨.rax, false⟩
  | .shld w r g cnt | .shrd w r g cnt => wv c w && rmLow c w r && gpr c g && cnt != .one
  | .test w r s =>
    wbv c w && rm c w r &&
    (match s with
     | .reg g => greg c w g && byteMix w r g
     | .imm v => imm w v && byteMix w r ⟨.rax, false⟩)
  | .arpl r g => !c.mode64 && rmLow c .w16 r && gpr c g
  | .clac | .clgi | .cli | .clts | .hlt | .int3 | .invd | .iret | .mwait | .rdmsr | .rdpkru | .rdpmc | .rdtsc | .rdtscp
  | .rsm | .saveprevssp | .setssbsy | .skinit | .stac | .sti | .stgi | .swapgs | .syscall | .sysenter | .sysexit
  | .tlbsync | .vmmcall | .vmgexit | .wbinvd | .wbnoinvd | .wrmsr | .wrpkru | .int1 | .reservedD6 | .iretd => true
  | .iretq => c.mode64
  | .clrssbsy m | .invlpg m | .rstorssp m | .sgdt m | .sidt m => mem c m
  | .incsspd r | .rdsspd r => gpr c r
  | .incsspq r | .rdsspq r => c.mode64 && gpr c r
  | .invpcid r m => gpr c r && mem c m
  | .lar w dst src | .lsl w dst src => wv c w && regRm c w dst src
  | .lgdt w m | .lidt w m => (if c.mode64 then w == .w64 else w == .w16 || w == .w32) && mem c m
  | .lldt r | .lmsw r | .ltr r | .verr r | .verw r => rmLow c .w16 r
  | .psmash a | .pvalidate a | .rmpadjust a | .vmload a | .vmrun a | .vmsave a => asize c a
  | .sldt w r | .smsw w r | .str w r => (match r with | .reg _ => wv c w | .mem _ => w == .w16) && rmLow c w r
  | .sysret w => w == .w32 || (w == .w64 && c.mode64)
  | .wrssd m r | .wrussd m r => mem c m && gpr c r
  | .wrssq m r | .wrussq m r => c.mode64 && mem c m && gpr c r
  | .reservedGroup3 w => wbv c w
  | .prefixOpSize | .prefixAddrSize | .prefixCs | .prefixDs | .prefixEs | .prefixFs | .prefixGs | .prefixSs
  | .prefixLock | .prefixRep | .prefixRepne | .prefixRex => false
  | .prefixVex3 _ _ | .prefixVex2 _ | .prefixXop _ _ | .escape0F _ _ | .escape0F38 _ _ | .escape0F3A _ _ | .x87 _ _
  | .wait | .threeDNow _ _ => false

end Sys2Proof
end

