-- ==== Sys2Proof/Machine/Ops.lean ====
section
/-! DEFINITION. The operations the instructions share: mode predicates, registers, memory accesses through segmentation
and translation, descriptors, the stacks, and the delivery of exceptions and interrupts and the return from them
(20_memory.md R100 to R131, 60_exceptions.md R900 to R932). -/

namespace Sys2Proof.Machine

/-! ### Exceptions as values -/

/-- The exceptions by name (60_exceptions.md R900). -/
inductive ExcName where
  | de | db | nmi | bp | of | br | ud | nm | df | ts | np | ss | gp | pf | mf | ac | mc | xf | cp | hv | vc | sx
  deriving DecidableEq, Repr

/-- The vector of an exception (60_exceptions.md R900). -/
def ExcName.vector : ExcName → BitVec 8
  | .de => 0 | .db => 1 | .nmi => 2 | .bp => 3 | .of => 4 | .br => 5 | .ud => 6 | .nm => 7 | .df => 8 | .ts => 10
  | .np => 11 | .ss => 12 | .gp => 13 | .pf => 14 | .mf => 16 | .ac => 17 | .mc => 18 | .xf => 19 | .cp => 21
  | .hv => 28 | .vc => 29 | .sx => 30

/-- An exception an instruction raises: its error code, whether the code has the selector format (and so takes EXT,
60_exceptions.md R912), the address for CR2 of a page fault (R910), and whether it is trap-class (R902). -/
structure Exn where
  name : ExcName
  code : Option (BitVec 32) := none
  sel : Bool := false
  cr2 : Option Quad := none
  trap : Bool := false
  deriving DecidableEq, Repr

/-- Why an instruction does not complete. -/
inductive Trap where
  | exc (e : Exn)
  | fault (f : Fault)
  | refuse (r : Refusal)
  deriving DecidableEq, Repr

/-- The outcome of a part of an instruction: a value, or the reason it does not complete (60_exceptions.md R906). -/
abbrev Res (α : Type) := Except Trap α

/-- #UD (60_exceptions.md R905). -/
def ud : Trap := .exc { name := .ud }

/-- #GP(0) (60_exceptions.md R911). -/
def gp0 : Trap := .exc { name := .gp, code := some 0 }

/-- #SS(0) (60_exceptions.md R911). -/
def ss0 : Trap := .exc { name := .ss, code := some 0 }

/-- #AC(0) (60_exceptions.md R911). -/
def ac0 : Trap := .exc { name := .ac, code := some 0 }

/-- #DE (60_exceptions.md R902). -/
def de : Trap := .exc { name := .de }

/-- #NM (60_exceptions.md R902). -/
def nm : Trap := .exc { name := .nm }

/-- The error code of a selector: its RPL bits cleared (60_exceptions.md R912). DEDUCED (log 9): so the code of the #SS of a push
after a stack switch in long mode, whose SS is null plus CPL, is 0 and not the 0 to 2 of R911. -/
def selCode (sel : BitVec 16) : BitVec 32 := (sel &&& 0xFFFC).setWidth 32

/-- An exception whose code names a selector (60_exceptions.md R912). -/
def excSel (name : ExcName) (sel : BitVec 16) : Trap := .exc { name, code := some (selCode sel), sel := true }

/-- #GP(selector). -/
def gpSel (sel : BitVec 16) : Trap := excSel .gp sel

/-- An exception whose code names an IDT gate (20_memory.md R113, 60_exceptions.md R912). -/
def excGate (name : ExcName) (vector : Byte) : Trap :=
  .exc { name, code := some (vector.setWidth 32 * 8 + 2), sel := true }

/-- The causes of #CP and their codes (60_exceptions.md R915). -/
inductive CpCause where
  | nearRet | farRet | rstorssp | setssbsy
  deriving DecidableEq, Repr

/-- #CP with the code of its cause (60_exceptions.md R915). -/
def cp : CpCause → Trap
  | .nearRet => .exc { name := .cp, code := some 1 }
  | .farRet => .exc { name := .cp, code := some 2 }
  | .rstorssp => .exc { name := .cp, code := some 4 }
  | .setssbsy => .exc { name := .cp, code := some 5 }

/-- A check of an instruction: it goes on when the condition holds. -/
def require (c : Bool) (t : Trap) : Res Unit := if c then .ok () else .error t

/-! ### Modes -/

/-- CR0.PE (10_state.md R63). -/
def State.pe (s : State) : Bool := s.ctl.cr0.getLsbD 0

/-- CR0.PG (10_state.md R63). -/
def State.pg (s : State) : Bool := s.ctl.cr0.getLsbD 31

/-- EFER.LMA, LONG_MODE (00_scope.md R20). -/
def State.longMode (s : State) : Bool := s.ctl.efer.getLsbD 10

/-- REAL_MODE (00_scope.md R20). -/
def State.realMode (s : State) : Bool := !s.pe

/-- PROTECTED_MODE, true in long mode too (00_scope.md R20). -/
def State.protMode (s : State) : Bool := s.pe && !s.flags.vm

/-- VIRTUAL_MODE (00_scope.md R20). -/
def State.virtMode (s : State) : Bool := s.pe && s.flags.vm

/-- 64BIT_MODE (00_scope.md R20). -/
def State.mode64 (s : State) : Bool := s.longMode && s.seg.cs.attr.l && !s.seg.cs.attr.db

/-- COMPATIBILITY_MODE (00_scope.md R20). -/
def State.compatMode (s : State) : Bool := s.longMode && !s.seg.cs.attr.l

/-- A bit of CR4 (10_state.md R64). -/
def State.cr4Bit (s : State) (n : Nat) : Bool := s.ctl.cr4.getLsbD n

/-- A bit of EFER (10_state.md R66). -/
def State.eferBit (s : State) (n : Nat) : Bool := s.ctl.efer.getLsbD n

/-- The feature flags (00_scope.md R6). -/
def State.feat (s : State) : Config.Features := s.cfg.features

/-- What decoding depends on (30_encoding.md R170, R200). -/
def State.ctx (s : State) : Ctx := { mode64 := s.mode64, prot := s.protMode, d32 := s.seg.cs.attr.db }

/-- STACK_SIZE (30_encoding.md R173). -/
def State.stackWidth (s : State) : Width :=
  if s.mode64 then .w64 else if s.seg.ss.attr.db then .w32 else .w16

/-- A canonical address (20_memory.md R103). -/
def State.canonical (s : State) (a : Quad) : Bool := (a.setWidth s.cfg.linAddrBits).signExtend 64 == a

/-! ### General registers -/

/-- The 64 bits of a general register (10_state.md R41). -/
def Gprs.get (g : Gprs) : Gpr → Quad
  | .rax => g.rax | .rcx => g.rcx | .rdx => g.rdx | .rbx => g.rbx | .rsp => g.rsp | .rbp => g.rbp | .rsi => g.rsi
  | .rdi => g.rdi | .r8 => g.r8 | .r9 => g.r9 | .r10 => g.r10 | .r11 => g.r11 | .r12 => g.r12 | .r13 => g.r13
  | .r14 => g.r14 | .r15 => g.r15

/-- A general register with all 64 bits replaced. -/
def Gprs.set (g : Gprs) (r : Gpr) (v : Quad) : Gprs :=
  match r with
  | .rax => { g with rax := v } | .rcx => { g with rcx := v } | .rdx => { g with rdx := v }
  | .rbx => { g with rbx := v } | .rsp => { g with rsp := v } | .rbp => { g with rbp := v }
  | .rsi => { g with rsi := v } | .rdi => { g with rdi := v } | .r8 => { g with r8 := v } | .r9 => { g with r9 := v }
  | .r10 => { g with r10 := v } | .r11 => { g with r11 := v } | .r12 => { g with r12 := v }
  | .r13 => { g with r13 := v } | .r14 => { g with r14 := v } | .r15 => { g with r15 := v }

/-- The 64 bits of a general register. -/
def State.reg (s : State) (r : Gpr) : Quad := s.gpr.get r

/-- All 64 bits of a general register written. -/
def State.setReg (s : State) (r : Gpr) (v : Quad) : State := { s with gpr := s.gpr.set r v }

/-- What a write of width `w` leaves in a register that held `old` (10_state.md R45). -/
def mergeReg (w : Width) (old v : Quad) : Quad :=
  match w with
  | .w8 => (old &&& ~~~(0xFF : Quad)) ||| trunc .w8 v
  | .w16 => (old &&& ~~~(0xFFFF : Quad)) ||| trunc .w16 v
  | .w32 => trunc .w32 v
  | .w64 => v

/-- A register read at a width, its low bits (10_state.md R45). -/
def State.readGpr (s : State) (w : Width) (r : Gpr) : Quad := trunc w (s.reg r)

/-- A register written at a width (10_state.md R45). -/
def State.writeGpr (s : State) (w : Width) (r : Gpr) (v : Quad) : State := s.setReg r (mergeReg w (s.reg r) v)

/-- A register operand read: AH, CH, DH, BH are bits 15:8 (10_state.md R42). -/
def State.readGReg (s : State) (w : Width) (g : GReg) : Quad :=
  if g.high then trunc .w8 (s.reg g.r >>> 8) else s.readGpr w g.r

/-- A register operand written (10_state.md R45). -/
def State.writeGReg (s : State) (w : Width) (g : GReg) (v : Quad) : State :=
  if g.high then s.setReg g.r ((s.reg g.r &&& ~~~(0xFF00 : Quad)) ||| (trunc .w8 v <<< 8)) else s.writeGpr w g.r v

/-- The flags replaced. -/
def State.setFlags (s : State) (f : Flags) : State := { s with flags := f }

/-- The slots of `Config.freeBits` (log 5): 0 to 15 the upper halves of the general registers. -/
def upperSlot (r : Gpr) : Nat := r.num.toNat

/-- The upper half of a register becomes a free value (93_implementation_defined.md U6). -/
def freeUpper (count : Nat) (r : Gpr) (v : Quad) : Quad :=
  (Config.freeBits count (upperSlot r) 32) ++ v.extractLsb' 0 32

/-- On entry to 64-bit mode from compatibility or legacy mode the upper halves of the general registers are undefined
(93_implementation_defined.md U6, 31_opcode_maps.md R274). -/
def Gprs.undefineUpper (g : Gprs) (count : Nat) : Gprs where
  rax := freeUpper count .rax g.rax
  rcx := freeUpper count .rcx g.rcx
  rdx := freeUpper count .rdx g.rdx
  rbx := freeUpper count .rbx g.rbx
  rsp := freeUpper count .rsp g.rsp
  rbp := freeUpper count .rbp g.rbp
  rsi := freeUpper count .rsi g.rsi
  rdi := freeUpper count .rdi g.rdi
  r8 := freeUpper count .r8 g.r8
  r9 := freeUpper count .r9 g.r9
  r10 := freeUpper count .r10 g.r10
  r11 := freeUpper count .r11 g.r11
  r12 := freeUpper count .r12 g.r12
  r13 := freeUpper count .r13 g.r13
  r14 := freeUpper count .r14 g.r14
  r15 := freeUpper count .r15 g.r15

/-- The new state `t` of a change of mode that began in `s`: the upper halves become undefined when it enters 64-bit mode
(93_implementation_defined.md U6). -/
def State.enterMode (s t : State) : State :=
  if !s.mode64 && t.mode64 then { t with gpr := t.gpr.undefineUpper t.freeCount } else t

/-! ### Segment registers -/

/-- A segment register (10_state.md R46). -/
def Segs.get (g : Segs) : SegName → SegReg
  | .es => g.es | .cs => g.cs | .ss => g.ss | .ds => g.ds | .fs => g.fs | .gs => g.gs

/-- A segment register replaced. -/
def Segs.set (g : Segs) (n : SegName) (r : SegReg) : Segs :=
  match n with
  | .es => { g with es := r } | .cs => { g with cs := r } | .ss => { g with ss := r } | .ds => { g with ds := r }
  | .fs => { g with fs := r } | .gs => { g with gs := r }

/-- A segment register of the state. -/
def State.sreg (s : State) (n : SegName) : SegReg := s.seg.get n

/-- A segment register of the state replaced. -/
def State.setSreg (s : State) (n : SegName) (r : SegReg) : State := { s with seg := s.seg.set n r }

/-- A null selector: bits 15:2 zero (10_state.md R48). -/
def isNull (sel : BitVec 16) : Bool := sel &&& 0xFFFC == 0

/-- A code segment (20_memory.md R111). -/
def SegAttr.isCode (a : SegAttr) : Bool := a.s && a.type.getLsbD 3

/-- A data segment (20_memory.md R111). -/
def SegAttr.isData (a : SegAttr) : Bool := a.s && !a.type.getLsbD 3

/-- A conforming code segment (20_memory.md R111). -/
def SegAttr.conforming (a : SegAttr) : Bool := a.isCode && a.type.getLsbD 2

/-- A writable data segment (20_memory.md R111). -/
def SegAttr.writable (a : SegAttr) : Bool := a.isData && a.type.getLsbD 1

/-- A data segment or a readable code segment (20_memory.md R105 c). -/
def SegAttr.readable (a : SegAttr) : Bool := a.isData || (a.isCode && a.type.getLsbD 1)

/-- `n` bytes at `off` lie inside the segment; expand-down data segments hold the offsets above the limit (20_memory.md
R105 b, D17). -/
def SegReg.inLimit (r : SegReg) (off : Quad) (n : Nat) : Bool :=
  if r.attr.isData && r.attr.type.getLsbD 2 then
    r.limit.toNat < off.toNat && off.toNat + n - 1 ≤ (if r.attr.db then 0xFFFFFFFF else 0xFFFF)
  else off.toNat + n - 1 ≤ r.limit.toNat

/-! ### Memory -/

/-- The inputs of `translate` besides memory (20_memory.md R106). -/
def State.pagingRegs (s : State) : Config.PagingRegs :=
  { cr0 := s.ctl.cr0, cr3 := s.ctl.cr3, cr4 := s.ctl.cr4, efer := s.ctl.efer, pkru := s.pkru, guest := s.svm.guest, asid := s.svm.asid,
    npEnable := s.svm.npEnable, nCr3 := s.svm.nCr3, gPat := s.svm.gPat, sevEs := s.svm.sevEs, snpActive := s.svm.snpActive,
    vmpl := s.svm.vmpl, params := s.cfg }

/-- `translate` (20_memory.md R106): the identity with paging disabled or by default (D4); a page fault names its linear
address for CR2 (60_exceptions.md R910). -/
def State.translate (s : State) (acc : Config.Access) (lin : Quad) : Res Nat :=
  if s.pg && s.cfg.paging == .host then
    match Config.translate s.mem s.pagingRegs acc lin with
    | .ok p => .ok p
    | .error code => .error (.exc { name := .pf, code := some code, cr2 := some lin })
  else .ok lin.toNat

/-- The linear address `i` bytes further: modulo 2^32 when `wrap32` (20_memory.md R105 d). -/
def nextLin (wrap32 : Bool) (lin : Quad) : Quad := if wrap32 then trunc .w32 (lin + 1) else lin + 1

/-- The physical addresses of `n` bytes from a linear address on, each translated (20_memory.md R105 e). -/
def State.physAddrs (s : State) (acc : Config.Access) (wrap32 : Bool) : Nat → Quad → Res (List Nat)
  | 0, _ => .ok []
  | n + 1, lin =>
    match s.translate acc lin with
    | .error e => .error e
    | .ok p =>
      match State.physAddrs s acc wrap32 n (nextLin wrap32 lin) with
      | .error e => .error e
      | .ok ps => .ok (p :: ps)

/-- The first address of a list that has no memory behind it (93_implementation_defined.md A.3). -/
def State.absent (s : State) (ps : List Nat) : Option Nat := ps.find? fun p => 2 ^ s.cfg.physAddrBits ≤ p

/-- The physical addresses of an access, all checks made (20_memory.md R124). -/
def State.span (s : State) (acc : Config.Access) (wrap32 : Bool) (lin : Quad) : Res (List Nat) :=
  match s.physAddrs acc wrap32 acc.size lin with
  | .error e => .error e
  | .ok ps =>
    match s.absent ps with
    | some p => .error (.fault (.noMemory p))
    | none => .ok ps

/-- The value at a list of addresses. -/
def State.loadAt (s : State) (ps : List Nat) : Nat := Memory.load s.mem ps

/-- A value stored at a list of addresses. -/
def State.storeAt (s : State) (ps : List Nat) (v : Nat) : State := { s with mem := Memory.store s.mem ps v }

/-- Addresses of the current mode are 32 bits wide outside 64-bit mode (20_memory.md R105 d). -/
def State.wrap32 (s : State) : Bool := !s.mode64

/-- The exception of a limit or canonical violation (20_memory.md R105). -/
def segFault (seg : SegName) : Trap := if seg = .ss then ss0 else gp0

/-- The null, limit, type and canonical checks of READ_MEM and WRITE_MEM (20_memory.md R105, R107, R120, R121); `bad` is
raised for a limit or canonical violation. -/
def State.segCheck (s : State) (bad : Trap) (seg : SegName) (off : Quad) (n : Nat) (write : Bool) : Res Unit :=
  let r := s.sreg seg
  if s.mode64 then require (s.canonical off && s.canonical (off + BitVec.ofNat 64 (n - 1))) bad
  else do
    require (!(s.protMode && isNull r.sel)) gp0
    require (r.inLimit off n) bad
    require (!s.protMode || (if write then r.attr.writable else r.attr.readable)) gp0

/-- The linear address of a segment reference (20_memory.md R105). -/
def State.linear (s : State) (seg : SegName) (off : Quad) : Quad :=
  if s.mode64 then
    match seg with
    | .fs => s.seg.fs.base + off
    | .gs => s.seg.gs.base + off
    | _ => off
  else trunc .w32 ((s.sreg seg).base + off)

/-- ALIGNMENT_CHECK_ENABLED (00_scope.md R20). -/
def State.acEnabled (s : State) : Bool := s.ctl.cr0.getLsbD 18 && s.flags.ac && s.cpl == 3

/-- The alignment check of an access of 2, 4 or 8 bytes, on the linear address (20_memory.md R108). -/
def State.alignCheck (s : State) (lin : Quad) (n : Nat) : Res Unit :=
  require (!(s.acEnabled && (n == 2 || n == 4 || n == 8) && lin.toNat % n != 0)) ac0

/-- An access of the instruction itself (20_memory.md R106). -/
def State.dataAccess (s : State) (kind : Config.AccessKind) (n : Nat) : Config.Access :=
  { kind, user := s.cpl == 3, size := n, ac := s.flags.ac }

/-- A segment access with every check of READ_MEM or WRITE_MEM, giving the physical addresses of its bytes; the operand has parts
of `part` bytes, and the alignment check is that of a part (20_memory.md R105, R107, R108). -/
def State.accessParts (s : State) (bad : Trap) (seg : SegName) (off : Quad) (n part : Nat) (write : Bool) :
    Res (List Nat) := do
  s.segCheck bad seg off n write
  s.alignCheck (s.linear seg off) part
  s.span (s.dataAccess (if write then .write else .read) n) s.wrap32 (s.linear seg off)

/-- A segment access of an operand of one part (20_memory.md R105, R107). -/
def State.accessE (s : State) (bad : Trap) (seg : SegName) (off : Quad) (n : Nat) (write : Bool) : Res (List Nat) :=
  s.accessParts bad seg off n n write

/-- A segment access that raises #SS(0) or #GP(0) by its segment (20_memory.md R105). -/
def State.access (s : State) (seg : SegName) (off : Quad) (n : Nat) (write : Bool) : Res (List Nat) :=
  s.accessE (segFault seg) seg off n write

/-- READ_MEM of up to 8 bytes, zero-extended (20_memory.md R105). -/
def State.readMem (s : State) (seg : SegName) (off : Quad) (n : Nat) : Res Quad := do
  let ps ← s.access seg off n false
  .ok (BitVec.ofNat 64 (s.loadAt ps))

/-- WRITE_MEM of up to 8 bytes (20_memory.md R107). -/
def State.writeMem (s : State) (seg : SegName) (off : Quad) (n : Nat) (v : Quad) : Res State := do
  let ps ← s.access seg off n true
  .ok (s.storeAt ps v.toNat)

/-- An implicit access by the processor: supervisor, no alignment check (20_memory.md R106, R108). -/
def sysAccess (kind : Config.AccessKind) (n : Nat) : Config.Access := { kind, user := false, size := n, ac := false }

/-- The physical addresses of an implicit access at a linear address, which is taken modulo 2^32 outside 64-bit mode (20_memory.md
R105 d, log 6). -/
def State.sysSpan (s : State) (kind : Config.AccessKind) (lin : Quad) (n : Nat) : Res (List Nat) :=
  s.span (sysAccess kind n) s.wrap32 (if s.mode64 then lin else trunc .w32 lin)

/-- An implicit read at a linear address. -/
def State.sysReadLin (s : State) (lin : Quad) (n : Nat) : Res Quad := do
  let ps ← s.sysSpan .read lin n
  .ok (BitVec.ofNat 64 (s.loadAt ps))

/-- READ_MEM through one of the pseudo-segments gdt, ldt, idt, tss: `bad` is raised for a limit violation (20_memory.md
R105, R112, R113, R115). -/
def State.tableRead (s : State) (bad : Trap) (base : Quad) (limit : BitVec 32) (off : Nat) (n : Nat) : Res Quad := do
  require (off + n - 1 ≤ limit.toNat) bad
  s.sysReadLin (base + BitVec.ofNat 64 off) n

/-- The addresses of `n` bytes of physical memory, without segmentation or paging (20_memory.md R126). -/
def physRange (pa n : Nat) : List Nat := (List.range n).map (pa + ·)

/-- READ_MEM_PA (20_memory.md R126). -/
def State.readPa (s : State) (pa n : Nat) : Res Nat :=
  match s.absent (physRange pa n) with
  | some p => .error (.fault (.noMemory p))
  | none => .ok (s.loadAt (physRange pa n))

/-- WRITE_MEM_PA (20_memory.md R126). -/
def State.writePa (s : State) (pa n v : Nat) : Res State :=
  match s.absent (physRange pa n) with
  | some p => .error (.fault (.noMemory p))
  | none => .ok (s.storeAt (physRange pa n) v)

/-! ### The program stack -/

/-- PUSH of `n` bytes; `bad` is raised for a stack limit or canonical violation (20_memory.md R110). -/
def State.pushE (s : State) (bad : Trap) (n : Nat) (v : Quad) : Res State := do
  let a := trunc s.stackWidth (s.gpr.rsp - BitVec.ofNat 64 n)
  let ps ← s.accessE bad .ss a n true
  .ok ((s.storeAt ps v.toNat).writeGpr s.stackWidth .rsp a)

/-- PUSH (20_memory.md R110). -/
def State.push (s : State) (n : Nat) (v : Quad) : Res State := s.pushE ss0 n v

/-- A list of values pushed in order. -/
def State.pushAllE (s : State) (bad : Trap) (n : Nat) : List Quad → Res State
  | [] => .ok s
  | v :: vs => do
    let t ← s.pushE bad n v
    State.pushAllE t bad n vs

/-- POP of `n` bytes, zero-extended (20_memory.md R110). -/
def State.pop (s : State) (n : Nat) : Res (Quad × State) := do
  let v ← s.readMem .ss (trunc s.stackWidth s.gpr.rsp) n
  .ok (v, s.writeGpr s.stackWidth .rsp (s.gpr.rsp + BitVec.ofNat 64 n))

/-! ### The shadow stack -/

/-- SSTK_ENABLED (20_memory.md R119). -/
def State.sstkEnabled (s : State) : Bool := s.cr4Bit 23 && s.pe && !s.flags.vm

/-- ShadowStacksEnabled(privLevel) (20_memory.md R119). -/
def State.shadowEnabled (s : State) (level : BitVec 2) : Bool :=
  s.sstkEnabled && (if level == 3 then s.cet.uCet.getLsbD 0 else s.cet.sCet.getLsbD 0)

/-- The physical addresses of a shadow-stack access, user-mode or supervisor-mode (20_memory.md R118). DESIGN CHOICE (log 52): a
shadow-stack linear address keeps 64-bit arithmetic in every mode, because R118 gives no reduction to 32 bits. -/
def State.sstkSpan (s : State) (user write : Bool) (lin : Quad) (n : Nat) : Res (List Nat) :=
  s.span { kind := if write then .shadowWrite else .shadowRead, user, size := n, ac := false } false lin

/-- SSTK_READ_MEM at the current privilege (20_memory.md R118). -/
def State.sstkRead (s : State) (lin : Quad) (n : Nat) : Res Quad := do
  let ps ← s.sstkSpan (s.cpl == 3) false lin n
  .ok (BitVec.ofNat 64 (s.loadAt ps))

/-- SSTK_WRITE_MEM at the current privilege (20_memory.md R118). -/
def State.sstkWrite (s : State) (lin : Quad) (n : Nat) (v : Quad) : Res State := do
  let ps ← s.sstkSpan (s.cpl == 3) true lin n
  .ok (s.storeAt ps v.toNat)

/-- SSP replaced. -/
def State.setSsp (s : State) (v : Quad) : State := { s with cet := { s.cet with ssp := v } }

/-- SET_SSTK_TOKEN_BUSY (20_memory.md R117): a failing token is written back unchanged and raises #GP(0). -/
def State.setTokenBusy (s : State) (ssp : Quad) : Res State := do
  require (ssp.extractLsb' 0 3 == 0) gp0
  let token ← s.sstkRead ssp 8
  let ok := (s.mode64 || token.extractLsb' 32 32 == 0) && !token.getLsbD 0 && (token &&& ~~~(1 : Quad)) == ssp
  let t ← s.sstkWrite ssp 8 (if ok then token ||| 1 else token)
  require ok gp0
  .ok t

/-- The check and release of a supervisor token: an invalid one is written back unchanged and raises nothing
(45_gp_r_s.md R571, 50_sys_a_l.md R717). `keep` leaves a valid one busy (R718). -/
def State.clearToken (s : State) (ssp : Quad) (keep : Bool) : Res State := do
  let token ← s.sstkRead ssp 8
  let valid := token.getLsbD 0 && (token &&& ~~~(1 : Quad)) == ssp
  s.sstkWrite ssp 8 (if valid && !keep then token &&& ~~~(1 : Quad) else token)

/-- "Align SSP to 8B boundary, storing 4B of 0 if needed" (41_gp_c.md R353). -/
def State.alignSsp (s : State) : Res State :=
  if s.cet.ssp.getLsbD 2 then do
    let t ← s.sstkWrite (s.cet.ssp - 4) 4 0
    .ok (t.setSsp (s.cet.ssp - 4))
  else .ok s

/-- The frame of a far transfer on the shadow stack: CS, LIP, old SSP (41_gp_c.md R353). -/
def State.pushSsFrame (s : State) (cs : BitVec 16) (lip oldSsp : Quad) : Res State := do
  let a ← s.sstkWrite (s.cet.ssp - 8) 8 (cs.setWidth 64)
  let b ← a.sstkWrite (s.cet.ssp - 16) 8 lip
  let c ← b.sstkWrite (s.cet.ssp - 24) 8 oldSsp
  .ok (c.setSsp (s.cet.ssp - 24))

/-- PLn_SSP (10_state.md R76). -/
def Cet.plSsp (c : Cet) (n : BitVec 2) : Quad :=
  match n.toNat with
  | 0 => c.pl0Ssp
  | 1 => c.pl1Ssp
  | 2 => c.pl2Ssp
  | _ => c.pl3Ssp

/-! ### Descriptors -/

/-- The attributes in a descriptor (20_memory.md R111). -/
def descAttr (d : Quad) : SegAttr where
  type := d.extractLsb' 40 4
  s := d.getLsbD 44
  dpl := d.extractLsb' 45 2
  p := d.getLsbD 47
  avl := d.getLsbD 52
  l := d.getLsbD 53
  db := d.getLsbD 54
  g := d.getLsbD 55

/-- The 32-bit base in a descriptor (20_memory.md R111). -/
def descBase (d : Quad) : Quad := (d.extractLsb' 56 8 ++ d.extractLsb' 16 24 : BitVec 32).setWidth 64

/-- The effective limit: scaled by the granularity bit (20_memory.md R111, 50_sys_a_l.md R727). -/
def descLimit (d : Quad) : BitVec 32 :=
  let l : BitVec 32 := (d.extractLsb' 48 4 ++ d.extractLsb' 0 16 : BitVec 20).setWidth 32
  if d.getLsbD 55 then (l <<< 12) ||| 0xFFF else l

/-- A segment register loaded from a descriptor (20_memory.md R111). -/
def descSeg (sel : BitVec 16) (d : Quad) : SegReg :=
  { sel, base := descBase d, limit := descLimit d, attr := descAttr d }

/-- The 32-bit offset of a gate (20_memory.md R111). -/
def gateOffset (d : Quad) : Quad := (d.extractLsb' 48 16 ++ d.extractLsb' 0 16 : BitVec 32).setWidth 64

/-- The target selector of a gate (20_memory.md R111). -/
def gateSel (d : Quad) : BitVec 16 := d.extractLsb' 16 16

/-- The IST field of a long-mode interrupt gate (20_memory.md R111). -/
def gateIst (d : Quad) : Nat := (d.extractLsb' 32 3).toNat

/-- The parameter count of a legacy call gate (20_memory.md R111). -/
def gateParams (d : Quad) : Nat := (d.extractLsb' 32 5).toNat

/-- The requestor privilege level (10_state.md R48). -/
def rpl (sel : BitVec 16) : BitVec 2 := sel.extractLsb' 0 2

/-- A selector with its RPL replaced. -/
def withRpl (sel : BitVec 16) (r : BitVec 2) : BitVec 16 := (sel &&& 0xFFFC) ||| r.setWidth 16

/-- The quadword at `plus` bytes into the descriptor a selector names; `bad` is raised for a null LDTR or a table-limit
violation (20_memory.md R112). -/
def State.descQuad (s : State) (bad : Trap) (sel : BitVec 16) (plus : Nat) : Res Quad :=
  let off := (sel &&& 0xFFF8).toNat + plus
  if sel.getLsbD 2 then
    if isNull s.ldtr.sel then .error bad else s.tableRead bad s.ldtr.base s.ldtr.limit off 8
  else s.tableRead bad s.gdtr.base (s.gdtr.limit.setWidth 32) off 8

/-- The 8-byte descriptor a selector names; a null selector and a table-limit violation raise `bad` (20_memory.md R112). -/
def State.readDesc (s : State) (bad : Trap) (sel : BitVec 16) : Res Quad := do
  require (!isNull sel) bad
  s.descQuad bad sel 0

/-- The type check every code-segment load shares: in long mode L and D are not both set (10_state.md R62, 20_memory.md
R112). -/
def State.codeType (s : State) (a : SegAttr) : Bool := a.isCode && !(s.longMode && a.l && a.db)

/-- In long mode the descriptor is of a 64-bit code segment (20_memory.md R112 `clg_chk`, `intcs_chk`). -/
def State.gateCode (s : State) (a : SegAttr) : Bool := a.isCode && (!s.longMode || (a.l && !a.db))

/-- READ_DESCRIPTOR of the code segment a gate names: its privilege rule `priv`, then its type, then present (20_memory.md R112,
D23). -/
def State.readGateCs (s : State) (sel : BitVec 16) (priv : SegAttr → Bool) : Res Quad := do
  let d ← s.readDesc (gpSel sel) sel
  let a := descAttr d
  require (priv a) (gpSel sel)
  require (s.gateCode a) (gpSel sel)
  require a.p (excSel .np sel)
  .ok d

/-- READ_DESCRIPTOR(sel, intcs_chk), and clg_chk of a far CALL (20_memory.md R112). -/
def State.readIntCs (s : State) (sel : BitVec 16) : Res Quad := s.readGateCs sel fun a => a.dpl ≤ s.cpl

/-- READ_DESCRIPTOR(sel, iret_chk) (20_memory.md R112, 45_gp_r_s.md R572, 50_sys_a_l.md R721). -/
def State.readIretCs (s : State) (sel : BitVec 16) : Res Quad := do
  let d ← s.readDesc (gpSel sel) sel
  let a := descAttr d
  require (s.cpl ≤ rpl sel) (gpSel sel)
  require (if a.conforming then a.dpl ≤ rpl sel else a.dpl == rpl sel) (gpSel sel)
  require (s.codeType a) (gpSel sel)
  require a.p (excSel .np sel)
  .ok d

/-- READ_DESCRIPTOR(sel, ss_chk) for a stack at level `cpl`; `bad` names the exception of a failing check (20_memory.md
R112, R115). -/
def State.readSs (s : State) (bad : ExcName) (sel : BitVec 16) (cpl : BitVec 2) : Res SegReg := do
  let d ← s.readDesc (excSel bad sel) sel
  let a := descAttr d
  require (rpl sel == cpl && a.dpl == cpl) (excSel bad sel)
  require a.writable (excSel bad sel)
  require a.p (excSel .ss sel)
  .ok (descSeg sel d)

/-- The stack segment register holding a null selector in long mode: base 0, a flat writable data segment
(20_memory.md R115). -/
def longNullSs (cpl : BitVec 2) : SegReg where
  sel := cpl.setWidth 16
  base := 0
  limit := 0xFFFFFFFF
  attr := { type := 3, s := true, dpl := cpl, p := true, avl := false, l := false, db := true, g := true }

/-- A read of the TSS; a limit violation raises #TS(TR) (20_memory.md R115). -/
def State.tssRead (s : State) (off n : Nat) : Res Quad :=
  s.tableRead (excSel .ts s.tr.sel) s.tr.base s.tr.limit off n

/-- READ_INNER_LEVEL_SP (20_memory.md R115): the new stack segment and stack pointer. -/
def State.innerStack (s : State) (cpl : BitVec 2) (ist : Nat) : Res (SegReg × Quad) :=
  if s.longMode then do
    let sp ← s.tssRead (if ist = 0 then cpl.toNat * 8 + 4 else ist * 8 + 28) 8
    .ok (longNullSs cpl, sp)
  else do
    let sp ← s.tssRead (cpl.toNat * 8 + 4) 4
    let sel ← s.tssRead (cpl.toNat * 8 + 8) 4
    let ss ← s.readSs .ts (sel.setWidth 16) cpl
    .ok (ss, sp)

/-- The target of a control transfer lies in the code segment or is canonical, by the mode of the code segment now
loaded (20_memory.md R125, 42_gp_d_j.md R423). -/
def State.checkTarget (s : State) (rip : Quad) : Res Unit :=
  require (if s.mode64 then s.canonical rip else rip.toNat ≤ s.seg.cs.limit.toNat) gp0

/-- The monitor is no longer armed (10_state.md R79). -/
def State.disarm (s : State) : State := { s with exec := { s.exec with monitor := { s.exec.monitor with armed := false } } }

/-- CS and CPL replaced by a control transfer (10_state.md R57), which ends the monitor (51_sys_m_r.md R763). -/
def State.setCs (s : State) (cs : SegReg) (cpl : BitVec 2) : State :=
  s.enterMode { s.disarm with seg := { s.seg with cs := cs }, cpl := cpl }

/-- CS replaced by a transfer that keeps the privilege level: RSP keeps all 64 bits. DESIGN CHOICE (log 41): U6 leaves RSP[63:32]
open on entry to 64-bit mode, like the other upper halves, which `setCs` frees. -/
def State.setCsSame (s : State) (cs : SegReg) : State := (s.setCs cs s.cpl).setReg .rsp s.gpr.rsp

/-- A real-mode or virtual-8086 segment load: selector and base, limit and attributes kept (10_state.md R47). -/
def SegReg.loadReal (r : SegReg) (sel : BitVec 16) : SegReg := { r with sel, base := sel.setWidth 64 <<< 4 }

/-- CS loaded in real or virtual-8086 mode (42_gp_d_j.md R422), which ends the monitor (51_sys_m_r.md R763). -/
def State.loadCsReal (s : State) (sel : BitVec 16) : State :=
  { s.disarm with seg := { s.seg with cs := s.seg.cs.loadReal sel } }

/-- The instruction pointer set by a control transfer. -/
def State.setRip (s : State) (rip : Quad) : State := { s with rip }

/-- Outside 64-bit mode bits 63:32 of rIP are zero, also after a change of mode that is no control transfer (10_state.md R44). -/
def State.clipRip (s : State) : State := if s.mode64 then s else s.setRip (trunc .w32 s.rip)

/-- RSP as the current mode can name it: 32 bits outside 64-bit mode (10_state.md R41, log 8). -/
def State.oldRsp (s : State) : Quad := if s.mode64 then s.gpr.rsp else trunc .w32 s.gpr.rsp

/-! ### Delivery of exceptions and interrupts -/

/-- The kinds of event (60_exceptions.md R920). -/
inductive EventKind where
  | software | exception | external
  deriving DecidableEq, Repr

/-- An event to deliver (60_exceptions.md R920): `savedRip` is pushed, `oldRip` gives the LIP of the shadow-stack frame,
`rf` is RF in the image (R922), `intN` marks the opcode CD. -/
structure Event where
  vector : Byte
  kind : EventKind
  code : Option (BitVec 32) := none
  savedRip : Quad
  oldRip : Quad
  rf : Bool := false
  intN : Bool := false
  deriving DecidableEq, Repr

/-- The rFLAGS image pushed (60_exceptions.md R922). -/
def State.flagsImage (s : State) (e : Event) : Quad := { s.flags with rf := e.rf }.toBits

/-- "RFLAGS.VM,NT,TF,RF cleared; RFLAGS.IF cleared if interrupt gate" (42_gp_d_j.md R412). -/
def Flags.enterGate (f : Flags) (intGate : Bool) : Flags :=
  { f with vm := false, nt := false, tf := false, rf := false, fi := f.fi && !intGate }

/-- The error code pushed after the return address, if any (60_exceptions.md R920 step 6). -/
def Event.codeList (e : Event) : List Quad :=
  match e.code with
  | some c => [c.setWidth 64]
  | none => []

/-- INT_N_REAL (42_gp_d_j.md R411). -/
def State.deliverReal (s : State) (e : Event) : Res State := do
  let bad := excGate .gp e.vector
  let limit := s.idtr.limit.setWidth 32
  let ip ← s.tableRead bad s.idtr.base limit (e.vector.toNat * 4) 2
  let cs ← s.tableRead bad s.idtr.base limit (e.vector.toNat * 4 + 2) 2
  let t ← s.pushAllE ss0 2 [s.flagsImage e, s.seg.cs.sel.setWidth 64, e.savedRip]
  t.checkTarget ip
  let f := { t.flags with ac := false, tf := false, fi := false, rf := false }
  .ok (((t.loadCsReal (cs.setWidth 16)).setFlags f).setRip ip)

/-- READ_IDT (20_memory.md R113): the gate, with the DPL test for software interrupts only (60_exceptions.md R921). -/
def State.readIdt (s : State) (e : Event) : Res Quad := do
  let bad := excGate .gp e.vector
  let size := if s.longMode then 16 else 8
  require (e.vector.toNat * size + size - 1 ≤ s.idtr.limit.toNat) bad
  let d ← s.sysReadLin (s.idtr.base + BitVec.ofNat 64 (e.vector.toNat * size)) 8
  let a := descAttr d
  require (e.kind != .software || s.cpl ≤ a.dpl) bad
  require (!a.s && (a.type == 0xE || a.type == 0xF ||
    (!s.longMode && (a.type == 5 || a.type == 6 || a.type == 7)))) bad
  require a.p (excGate .np e.vector)
  .ok d

/-- The push size of a gate: 8 bytes in long mode, 4 through a 32-bit gate, 2 otherwise (42_gp_d_j.md R412). -/
def State.gateBytes (s : State) (type : BitVec 4) : Nat :=
  if s.longMode then 8 else if type == 0xE || type == 0xF then 4 else 2

/-- An interrupt gate, not a trap gate (20_memory.md R111). -/
def isIntGate (type : BitVec 4) : Bool := type == 0xE || type == 6

/-- The target offset of an interrupt gate; in long mode the second quadword holds its upper half, and a bit set in its bits 44:40 makes
the gate invalid: #GP with the error code of the gate (42_gp_d_j.md R412, R416, 20_memory.md R111, 93_implementation_defined.md A.3).
DEDUCED (log 50): the test follows those of READ_IDT, as that of a call gate follows READ_DESCRIPTOR (R354); and a 16-bit gate gives
all 32 bits that R111 places, because no rule cuts them. -/
def State.gateTarget (s : State) (e : Event) (d : Quad) : Res Quad :=
  if s.longMode then do
    let hi ← s.sysReadLin (s.idtr.base + BitVec.ofNat 64 (e.vector.toNat * 16 + 8)) 8
    require (hi.extractLsb' 40 5 == 0) (excGate .gp e.vector)
    .ok (gateOffset d + (hi <<< 32))
  else .ok (gateOffset d)

/-- The stack entry of the interrupt SSP table (42_gp_d_j.md R412). -/
def State.isstSsp (s : State) (ist : Nat) : Res Quad :=
  s.sysReadLin (s.cet.isstAddr + BitVec.ofNat 64 (ist * 8)) 8

/-- The code segment an interrupt enters, at the level it runs at (42_gp_d_j.md R412). -/
def intTarget (s : State) (sel : BitVec 16) (d : Quad) : SegReg × BitVec 2 :=
  let cpl := if (descAttr d).conforming then s.cpl else (descAttr d).dpl
  (descSeg (withRpl sel cpl) d, cpl)

/-- The general registers' stack pointer set at the end of a stack switch. -/
def State.setRsp (s : State) (v : Quad) : State := s.setReg .rsp v

/-- The stack an interrupt at an unchanged level runs on, CS being loaded: that of the IST entry, with its shadow stack, or the
current one (42_gp_d_j.md R412). -/
def State.sameStack (s : State) (ist : Nat) : Res State :=
  if ist = 0 then .ok s
  else do
    let sp ← s.tssRead (ist * 8 + 28) 8
    let t := s.setRsp (sp &&& ~~~(0xF : Quad))
    if s.shadowEnabled s.cpl then do
      let ssp ← s.isstSsp ist
      require (ssp.extractLsb' 0 3 == 0) gp0
      .ok (t.setSsp ssp)
    else .ok t

/-- Delivery through a gate without a change of privilege: CS is loaded before the pushes, and an #SS after a stack switch names SS
(42_gp_d_j.md R412, R416). -/
def State.deliverSame (s : State) (e : Event) (gate rip : Quad) (cs : SegReg) : Res State := do
  let ist := if s.longMode then gateIst gate else 0
  let stack ← (s.setCsSame cs).sameStack ist
  let frame := (if s.longMode then [s.seg.ss.sel.setWidth 64, s.oldRsp] else []) ++
    [s.flagsImage e, s.seg.cs.sel.setWidth 64, e.savedRip] ++ e.codeList
  let bad := if ist = 0 then ss0 else excSel .ss s.seg.ss.sel
  let t ← stack.pushAllE bad (s.gateBytes (descAttr gate).type) frame
  let t ← if s.shadowEnabled s.cpl then do
      let t ← if ist = 0 then .ok t else t.setTokenBusy t.cet.ssp
      let t ← t.alignSsp
      t.pushSsFrame s.seg.cs.sel (s.seg.cs.base + e.oldRip) s.cet.ssp
    else .ok t
  t.checkTarget rip
  .ok ((t.setFlags (t.flags.enterGate (isIntGate (descAttr gate).type))).setRip rip)

/-- The stack of an inner level: SS, RSP and CPL of the handler (42_gp_d_j.md R413); in long mode RSP is rounded down to
16 bytes. -/
def State.enterInner (s : State) (cs : SegReg) (cpl : BitVec 2) (ss : SegReg) (sp : Quad) : State :=
  let t := s.setCs cs cpl
  { t with seg := { t.seg with ss := ss } }.setRsp sp

/-- Delivery through a gate to a more privileged level (42_gp_d_j.md R413). -/
def State.deliverInner (s : State) (e : Event) (gate rip : Quad) (cs : SegReg) (cpl : BitVec 2) : Res State := do
  let ist := gateIst gate
  let (ss, sp) ← (s.setCs cs cpl).innerStack cpl (if s.longMode then ist else 0)
  let stack := s.enterInner cs cpl ss (if s.longMode then sp &&& ~~~(0xF : Quad) else sp)
  let shadow := s.shadowEnabled cpl
  let ssp ← if shadow then do
      let v ← if s.longMode && ist != 0 then stack.isstSsp ist else .ok (s.cet.plSsp cpl)
      require (v.extractLsb' 0 3 == 0) gp0
      .ok v
    else .ok s.cet.ssp
  let frame := [s.seg.ss.sel.setWidth 64, s.oldRsp, s.flagsImage e, s.seg.cs.sel.setWidth 64, e.savedRip] ++ e.codeList
  let t ← stack.pushAllE (excSel .ss ss.sel) (s.gateBytes (descAttr gate).type) frame
  let t := if s.shadowEnabled 3 && s.cpl == 3 then { t with cet := { t.cet with pl3Ssp := s.cet.ssp } } else t
  let t := t.setSsp ssp
  let t ← if shadow then do
      let t ← t.setTokenBusy ssp
      if s.cpl != 3 then t.pushSsFrame s.seg.cs.sel (s.seg.cs.base + e.oldRip) s.cet.ssp else .ok t
    else .ok t
  t.checkTarget rip
  .ok ((t.setFlags (t.flags.enterGate (isIntGate (descAttr gate).type))).setRip rip)

/-- A transfer through a task gate: the selector in the gate names an available TSS of the GDT that is present, and TASK_SWITCH follows
(41_gp_c.md R355, 42_gp_d_j.md R416, R424, 20_memory.md R114). DEDUCED (log 54): the tests of a TSS that an instruction names, but for
those of its DPL, hold for the TSS that a task gate names, in the order of READ_DESCRIPTOR, and for the gate of an event too. -/
def State.taskGate (s : State) (gate : Quad) : Res State := do
  let sel := gateSel gate
  let d ← s.readDesc (gpSel sel) sel
  let a := descAttr d
  require (!sel.getLsbD 2 && !a.s && (a.type == 1 || a.type == 9)) (gpSel sel)
  require a.p (excSel .np sel)
  .error (.refuse .taskSwitch)

/-- INT_N_PROTECTED (42_gp_d_j.md R412, R413). -/
def State.deliverProtected (s : State) (e : Event) : Res State := do
  let gate ← s.readIdt e
  if (descAttr gate).type == 5 then s.taskGate gate
  else do
    let rip ← s.gateTarget e gate
    let d ← s.readIntCs (gateSel gate)
    let (cs, cpl) := intTarget s (gateSel gate) d
    if cpl == s.cpl then s.deliverSame e gate rip cs else s.deliverInner e gate rip cs cpl

/-- A segment register made null: the selector is 0 (42_gp_d_j.md R415, 45_gp_r_s.md R571). -/
def SegReg.nullify (r : SegReg) : SegReg := { r with sel := 0 }

/-- DS, ES, FS and GS made null (42_gp_d_j.md R415). -/
def Segs.nullifyData (g : Segs) : Segs :=
  { g with ds := g.ds.nullify, es := g.es.nullify, fs := g.fs.nullify, gs := g.gs.nullify }

/-- INT_N_VIRTUAL_TO_PROTECTED (42_gp_d_j.md R415). -/
def State.deliverFromVirtual (s : State) (e : Event) : Res State := do
  let gate ← s.readIdt e
  if (descAttr gate).type == 5 then s.taskGate gate
  else do
    let rip := gateOffset gate
    let sel := gateSel gate
    let d ← s.readIntCs sel
    let a := descAttr d
    require (a.dpl == 0 && !a.conforming) (gpSel sel)
    let u : State := { s with flags := { s.flags with vm := false } }
    let cs := descSeg (withRpl sel 0) d
    let (ss, sp) ← (u.setCs cs 0).innerStack 0 0
    let stack := u.enterInner cs 0 ss sp
    let zx (r : SegReg) : Quad := r.sel.setWidth 64
    let frame := [zx s.seg.gs, zx s.seg.fs, zx s.seg.ds, zx s.seg.es, zx s.seg.ss, s.oldRsp, s.flagsImage e,
      zx s.seg.cs, e.savedRip] ++ e.codeList
    let t ← stack.pushAllE (excSel .ss ss.sel) (s.gateBytes (descAttr gate).type) frame
    t.checkTarget rip
    let t := { t with seg := t.seg.nullifyData }
    let t := (t.setFlags (t.flags.enterGate (isIntGate (descAttr gate).type))).setRip rip
    if t.shadowEnabled 0 then (t.setSsp t.cet.pl0Ssp).setTokenBusy t.cet.pl0Ssp else .ok t

/-- READ_BIT_ARRAY in the TSS: a byte beyond the limit raises #GP(0) (20_memory.md R116). -/
def State.tssBit (s : State) (base bitNo : Nat) : Res Bool := do
  let b ← s.tableRead gp0 s.tr.base s.tr.limit (base + bitNo / 8) 1
  .ok (b.getLsbD (bitNo % 8))

/-- INT_N_VIRTUAL (42_gp_d_j.md R414): the opcode CD in virtual-8086 mode. -/
def State.deliverVirtual (s : State) (e : Event) : Res State :=
  let toProtected : Res State := do
    require (s.flags.iopl == 3) gp0
    s.deliverFromVirtual e
  if !s.cr4Bit 0 then toProtected
  else do
    let base ← s.tableRead gp0 s.tr.base s.tr.limit 102 2
    let redirect ← s.tssBit (base - 32).toNat e.vector.toNat
    if redirect then toProtected
    else do
      let ip ← s.sysReadLin (BitVec.ofNat 64 (e.vector.toNat * 4)) 2
      let cs ← s.sysReadLin (BitVec.ofNat 64 (e.vector.toNat * 4 + 2)) 2
      let f := if s.flags.iopl == 3 then s.flags else { s.flags with fi := s.flags.vif, iopl := 3 }
      let t ← s.pushAllE ss0 2 [{ f with rf := e.rf }.toBits, s.seg.cs.sel.setWidth 64, e.savedRip]
      let f := { t.flags with tf := false, rf := false }
      let f := if f.iopl == 3 then { f with fi := false } else { f with vif := false }
      .ok (((t.loadCsReal (cs.setWidth 16)).setFlags f).setRip ip)

/-- DELIVER, one attempt (60_exceptions.md R920): the halt and the shadow end, the handler is fetched anew (log 25), and an NMI
blocks further ones. -/
def State.deliverOnce (s : State) (e : Event) : Res State := do
  let s := { s with exec := { s.exec with activity := .running, shadow := .none, latch := [] } }
  let t ←
    if s.realMode then s.deliverReal { e with code := none }
    else if s.protMode then s.deliverProtected e
    else if e.kind == .software && e.intN then s.deliverVirtual e
    else s.deliverFromVirtual e
  .ok (if e.vector == 2 && e.kind == .external then { t with exec := { t.exec with nmiBlocked := true } } else t)

/-- The classes of exceptions for the double fault (60_exceptions.md R925). -/
inductive ExcClass where
  | benign | contributory | pageFault
  deriving DecidableEq, Repr

/-- The class of a vector (60_exceptions.md R925). -/
def vectorClass (v : Byte) : ExcClass :=
  match v.toNat with
  | 0 => .contributory
  | 10 => .contributory
  | 11 => .contributory
  | 12 => .contributory
  | 13 => .contributory
  | 21 => .contributory
  | 14 => .pageFault
  | _ => .benign

/-- The class of an event: an interrupt is benign (60_exceptions.md R925). -/
def Event.cls (e : Event) : ExcClass := if e.kind == .exception then vectorClass e.vector else .benign

/-- The second exception makes a double fault (60_exceptions.md R925). -/
def doubleFault (first second : ExcClass) : Bool :=
  match first, second with
  | .contributory, .contributory => true
  | .pageFault, .contributory => true
  | .pageFault, .pageFault => true
  | _, _ => false

/-- The event that an exception raised while delivering `e` becomes (60_exceptions.md R925, R920 step 5). -/
def Event.second (e : Event) (x : Exn) : Event :=
  if doubleFault e.cls (vectorClass x.name.vector) then
    { vector := 8, kind := .exception, code := some 0, savedRip := e.savedRip, oldRip := e.oldRip, rf := true }
  else
    { vector := x.name.vector, kind := .exception, code := x.code.map fun c => if x.sel && e.kind != .software then c ||| 1 else c,
      savedRip := e.savedRip, oldRip := e.oldRip, rf := true }

/-- CR2 takes the linear address of a page fault (60_exceptions.md R910). -/
def State.noteFault (s : State) (x : Exn) : State :=
  match x.cr2 with
  | some a => { s with ctl := { s.ctl with cr2 := a } }
  | none => s

/-- The processor in shutdown (60_exceptions.md R925). -/
def State.shutdown (s : State) : State := { s with exec := { s.exec with activity := .shutdown } }

/-- Delivery with the second exceptions of 60_exceptions.md R925; an exception while delivering #DF, or eight exceptions
in a row, end in shutdown (log 9). -/
def State.deliverLoop : Nat → State → Event → Host.Outcome State Fault Refusal
  | 0, s, _ => .next s.shutdown
  | n + 1, s, e =>
    match s.deliverOnce e with
    | .ok t => .next t
    | .error (.exc x) =>
      if e.kind == .exception && e.vector == 8 then .next (s.noteFault x).shutdown
      else State.deliverLoop n (s.noteFault x) (e.second x)
    | .error (.fault f) => .fault f
    | .error (.refuse r) => .refused r

/-- TAKING AN EXCEPTION OR INTERRUPT: the one operation by which every event is delivered (60_exceptions.md R920,
R925). -/
def State.take (s : State) (e : Event) : Host.Outcome State Fault Refusal := State.deliverLoop 8 s e

/-- The event of an exception raised by the instruction at `s.rip` (60_exceptions.md R902, R906, R922). DESIGN CHOICE (log 9): the
linear address in the shadow-stack frame of a trap is that of the saved rIP, the next instruction, where R412 prints old_RIP. -/
def State.excEvent (s : State) (x : Exn) : Event where
  vector := x.name.vector
  kind := .exception
  code := x.code
  savedRip := if x.trap then s.nextRip else s.rip
  oldRip := if x.trap then s.nextRip else s.rip
  rf := !x.trap

/-- An instruction raises an exception: the state before it, with CR2 for a page fault, is delivered (60_exceptions.md
R906). -/
def State.raise (s : State) (x : Exn) : Host.Outcome State Fault Refusal := (s.noteFault x).take (s.excEvent x)

/-! ### Running an instruction -/

/-- The state in which an instruction's body starts: rIP is next_RIP (00_scope.md R21), RF and the interrupt shadow end
with the instruction (60_exceptions.md R922, R930), and so do its bytes (20_memory.md R145). -/
def State.start (s : State) : State :=
  { s with rip := s.nextRip, flags := { s.flags with rf := false }, exec := { s.exec with shadow := .none, latch := [] } }

/-- The single-step trap (60_exceptions.md R926): DR6.BS is set and #DB saved with the new rIP, which the shadow-stack frame holds too
(DESIGN CHOICE, log 9). -/
def State.singleStep (t : State) : Host.Outcome State Fault Refusal :=
  { t with dbg := { t.dbg with dr6 := t.dbg.dr6 ||| 0x4000 } }.take
    { vector := 1, kind := .exception, savedRip := t.rip, oldRip := t.rip, rf := false }

/-- The end of an instruction that began in `s` and completed in `t`: with TF set at its start the single-step trap
follows, unless it opened the SS shadow (60_exceptions.md R926). -/
def State.complete (s t : State) : Host.Outcome State Fault Refusal :=
  if s.flags.tf && t.exec.shadow != .ss then t.singleStep else .next t

/-- An instruction whose effect is `body`: it completes, or changes nothing but what the exception it raises does
(60_exceptions.md R906). -/
def run (s : State) (body : State → Res State) : Host.Outcome State Fault Refusal :=
  match body s.start with
  | .ok t => s.complete t
  | .error (.exc x) => s.raise x
  | .error (.fault f) => .fault f
  | .error (.refuse r) => .refused r

/-! ### Return from an exception -/

/-- The flags of IRET in real mode: VIF, VIP and VM unchanged (50_sys_a_l.md R715). -/
def iretFlagsReal (f : Flags) (w : Width) (image : Quad) : Flags :=
  { f.load w image with vif := f.vif, vip := f.vip, vm := f.vm }

/-- The flags of IRET in protected mode at level `cpl`: VIF, VIP and IOPL at CPL 0 only, IF when CPL <= IOPL, VM unchanged,
RF cleared (50_sys_a_l.md R717, R721). -/
def iretFlagsProt (f : Flags) (cpl : BitVec 2) (w : Width) (image : Quad) : Flags :=
  let n := f.load w image
  { n with
    vif := if cpl == 0 then n.vif else f.vif
    vip := if cpl == 0 then n.vip else f.vip
    iopl := if cpl == 0 then n.iopl else f.iopl
    fi := if cpl ≤ f.iopl then n.fi else f.fi
    vm := f.vm
    rf := false }

/-- IRET_REAL (50_sys_a_l.md R715). -/
def State.iretReal (s : State) (w : Width) : Res State := do
  let (rip, t) ← s.pop w.bytes
  let (cs, t) ← t.pop w.bytes
  let (image, t) ← t.pop w.bytes
  t.checkTarget rip
  .ok (((t.loadCsReal (cs.setWidth 16)).setFlags (iretFlagsReal t.flags w image)).setRip rip)

/-- IRET_VIRTUAL (50_sys_a_l.md R719). -/
def State.iretVirtual (s : State) (w : Width) : Res State := do
  require (s.flags.iopl == 3 || s.cr4Bit 0) gp0
  let (rip, t) ← s.pop w.bytes
  let (cs, t) ← t.pop w.bytes
  let (image, t) ← t.pop w.bytes
  t.checkTarget rip
  let f := t.flags
  if f.iopl == 3 then
    let n := { f.load w image with vif := f.vif, vip := f.vip, vm := f.vm, iopl := f.iopl, rf := false }
    .ok (((t.loadCsReal (cs.setWidth 16)).setFlags n).setRip rip)
  else do
    let n := Flags.ofBits image
    require (w == .w16 && (!n.fi || !f.vip) && !n.tf) gp0
    let n := { f.load .w16 image with vif := n.fi, fi := f.fi, iopl := f.iopl, rf := false }
    .ok (((t.loadCsReal (cs.setWidth 16)).setFlags n).setRip rip)

/-- The attributes IRET gives a segment of virtual-8086 mode: 16-bit, DPL 3, code (for CS) or data (50_sys_a_l.md R720). DESIGN
CHOICE (log 29): readable code and writable data, both accessed (types Bh and 3), which R720 does not say. -/
def virtSeg (code : Bool) (sel : BitVec 16) : SegReg where
  sel := sel
  base := sel.setWidth 64 <<< 4
  limit := 0xFFFF
  attr := { type := if code then 0xB else 3, s := true, dpl := 3, p := true, avl := false, l := false, db := false,
            g := false }

/-- IRET_FROM_PROTECTED_TO_VIRTUAL, after rIP, CS and rFLAGS are popped (50_sys_a_l.md R720). DESIGN CHOICE (log 48): the shadow
stack of the old CPL is asked of the flags before the image with VM = 1 is loaded. -/
def State.iretToVirtual (s : State) (rip cs image : Quad) : Res State := do
  let (rsp, t) ← s.pop 4
  let (ss, t) ← t.pop 4
  let (es, t) ← t.pop 4
  let (ds, t) ← t.pop 4
  let (fs, t) ← t.pop 4
  let (gs, t) ← t.pop 4
  let shadow := t.shadowEnabled 0
  let t ← if shadow then t.clearToken t.cet.ssp false else .ok t
  let seg : Segs :=
    { es := virtSeg false (es.setWidth 16), cs := virtSeg true (cs.setWidth 16), ss := virtSeg false (ss.setWidth 16),
      ds := virtSeg false (ds.setWidth 16), fs := virtSeg false (fs.setWidth 16), gs := virtSeg false (gs.setWidth 16) }
  let t := { t.disarm with seg, cpl := 3, flags := t.flags.load .w32 image }
  .ok ((t.writeGpr .w32 .rsp rsp).setRip (rip &&& 0xFFFF))

/-- The frame of a far transfer read from the shadow stack and compared: the previous SSP, and the state with SSP above
the frame (45_gp_r_s.md R570, 50_sys_a_l.md R717, R718). DESIGN CHOICE (log 56): `temp_CS` in the comparison is the low 16 bits of the
popped slot, which are the selector (R569, R720), zero-extended to the 64 bits of the frame's word. -/
def State.popSsFrame (s : State) (cs : BitVec 16) (lip : Quad) (cpl : BitVec 2) : Res (Quad × State) := do
  let user := cpl == 3
  let rd (off : Quad) : Res Quad := do
    let ps ← s.sstkSpan user false (s.cet.ssp + off) 8
    .ok (BitVec.ofNat 64 (s.loadAt ps))
  let frameCs ← rd 16
  let frameLip ← rd 8
  let prev ← rd 0
  require (cs.setWidth 64 == frameCs) (cp .farRet)
  require (lip == frameLip) (cp .farRet)
  require (prev.extractLsb' 0 2 == 0) (cp .farRet)
  .ok (prev, s.setSsp (s.cet.ssp + 24))

/-- A data segment register after a return to an outer level: null when it is null or no longer accessible
(45_gp_r_s.md R571). -/
def SegReg.leaveLevel (r : SegReg) (cpl : BitVec 2) : SegReg :=
  if isNull r.sel || (r.attr.dpl < cpl && (r.attr.isData || (r.attr.isCode && !r.attr.conforming))) then r.nullify
  else r

/-- ES, DS, FS and GS after a return to an outer level (45_gp_r_s.md R571, 50_sys_a_l.md R717). -/
def Segs.leaveLevel (g : Segs) (cpl : BitVec 2) : Segs :=
  { g with es := g.es.leaveLevel cpl, ds := g.ds.leaveLevel cpl, fs := g.fs.leaveLevel cpl, gs := g.gs.leaveLevel cpl }

/-- The stack segment a far return pops: a null selector is legal only when returning to 64-bit mode below level 3, and its RPL
must be that level as every stack selector's must (45_gp_r_s.md R572, 50_sys_a_l.md R721). `t` is the state with the new CS. DESIGN CHOICE (log 22): a null SS keeps its hidden part,
whatever NullSelectClearsBase says, which R1032 states of loads. -/
def State.returnSs (t : State) (sel : BitVec 16) (cpl : BitVec 2) : Res SegReg :=
  if isNull sel then
    if t.mode64 && cpl != 3 && rpl sel == cpl then .ok { t.seg.ss with sel } else .error (gpSel sel)
  else t.readSs .gp sel cpl

/-- RSP written by a return that pops it (45_gp_r_s.md R571, 50_sys_a_l.md R717, R718). DESIGN CHOICE (log 51): the size S of `RSP.s`
is that of the CS and SS it returns to. -/
def State.writeRsp (t : State) (v : Quad) : State := t.writeGpr t.stackWidth .rsp v

/-- IRET_PROTECTED_TO_OUTER_PRIV (50_sys_a_l.md R717). `s` has the frame popped, `d` is the new code segment. -/
def State.iretOuter (s : State) (w : Width) (rip cs image rsp ss : Quad) (d : Quad) : Res State := do
  let sel : BitVec 16 := cs.setWidth 16
  let cpl := rpl sel
  let t := s.setCs (descSeg sel d) cpl
  t.checkTarget rip
  let ssReg ← t.returnSs (ss.setWidth 16) cpl
  let t := { t with seg := { t.seg with ss := ssReg } }.writeRsp rsp
  let old := s.shadowEnabled s.cpl
  if old then require (s.cet.ssp.extractLsb' 0 3 == 0) (cp .farRet)
  let (prev, s') ← if old && cpl != 3 then s.popSsFrame sel (t.seg.cs.base + rip) s.cpl else .ok (s.cet.ssp, s)
  let oldSsp := s'.cet.ssp
  let t ← if s.shadowEnabled cpl then do
      let v := if cpl == 3 then s.cet.pl3Ssp else prev
      require (!(t.compatMode && v.extractLsb' 32 32 != 0)) gp0
      .ok (t.setSsp v)
    else .ok (t.setSsp oldSsp)
  let t ← if old then do
      let u ← ({ t with cpl := s.cpl } : State).clearToken oldSsp false
      .ok { u with cpl }
    else .ok t
  let t := { t with seg := t.seg.leaveLevel cpl }
  .ok ((t.setFlags (iretFlagsProt s.flags s.cpl w image)).setRip rip)

/-- IRET_PROTECTED_TO_SAME_PRIV (50_sys_a_l.md R718). `popped` holds RSP and SS when IRET began in 64-bit mode. -/
def State.iretSame (s : State) (w : Width) (rip cs image : Quad) (popped : Option (Quad × Quad)) (d : Quad) :
    Res State := do
  let sel : BitVec 16 := cs.setWidth 16
  let t := s.setCsSame (descSeg sel d)
  t.checkTarget rip
  let t ← match popped with
    | some (rsp, ss) => do
      let ssReg ← t.returnSs (ss.setWidth 16) s.cpl
      .ok (({ t with seg := { t.seg with ss := ssReg } } : State).writeRsp rsp)
    | none => .ok t
  let t ← if s.shadowEnabled s.cpl then do
      require (t.cet.ssp.extractLsb' 0 3 == 0) (cp .farRet)
      let (prev, u) ← t.popSsFrame sel (t.seg.cs.base + rip) s.cpl
      require (!(u.compatMode && prev.extractLsb' 32 32 != 0)) gp0
      let u ← if s.longMode then u.clearToken u.cet.ssp (prev == u.cet.ssp) else .ok u
      .ok (u.setSsp prev)
    else .ok t
  .ok ((t.setFlags (iretFlagsProt s.flags s.cpl w image)).setRip rip)

/-- IRET_PROTECTED (50_sys_a_l.md R716). -/
def State.iretProtected (s : State) (w : Width) : Res State := do
  if s.flags.nt then
    if s.longMode then .error gp0 else .error (.refuse .taskSwitch)
  else do
    let (rip, t) ← s.pop w.bytes
    let (cs, t) ← t.pop w.bytes
    let (image, t) ← t.pop w.bytes
    if image.getLsbD 17 && s.cpl == 0 && !s.longMode then t.iretToVirtual rip cs image
    else do
      let sel : BitVec 16 := cs.setWidth 16
      require (s.cpl ≤ rpl sel) (gpSel sel)
      let outer := s.cpl != rpl sel
      if s.mode64 || outer then do
        let (rsp, t) ← t.pop w.bytes
        let (ss, t) ← t.pop w.bytes
        let d ← t.readIretCs sel
        if outer then t.iretOuter w rip cs image rsp ss d else t.iretSame w rip cs image (some (rsp, ss)) d
      else do
        let d ← t.readIretCs sel
        t.iretSame w rip cs image none d

/-- RETURN FROM AN EXCEPTION: the dispatch of IRET, IRETD and IRETQ (50_sys_a_l.md R715); completing it ends the blocking of
NMIs (R721). -/
def State.iret (s : State) (w : Width) : Res State := do
  let t ← if s.realMode then s.iretReal w else if s.protMode then s.iretProtected w else s.iretVirtual w
  .ok { t with exec := { t.exec with nmiBlocked := false } }

end Sys2Proof.Machine
end

