-- ==== Sys2Proof/Machine/Operands.lean ====
section
/-! DEFINITION. Operands: effective addresses, register and memory operands as places that are checked first and then
read and written (30_encoding.md R179 to R181, 60_exceptions.md R906). -/

namespace Sys2Proof.Machine

/-- The width of an address size (30_encoding.md R171). -/
def addrWidth : ASize → Width
  | .a16 => .w16
  | .a32 => .w32
  | .a64 => .w64

/-- The base of an effective address: the body's rIP is rIP_next (30_encoding.md R180). -/
def State.baseValue (s : State) (a : ASize) : Base → Quad
  | .none => 0
  | .reg r => s.readGpr (addrWidth a) r
  | .rip => s.rip

/-- The scaled index of an effective address (30_encoding.md R180). -/
def State.indexValue (s : State) (a : ASize) : Option Index → Quad
  | none => 0
  | some i => s.readGpr (addrWidth a) i.r <<< i.scale.toNat

/-- The effective address, truncated to the address size (30_encoding.md R180, R181). -/
def State.ea (s : State) (m : Mem) : Quad :=
  trunc (addrWidth m.asz) (s.baseValue m.asz m.base + s.indexValue m.asz m.index + m.disp)

/-- An operand whose checks are made: a register, or the physical addresses of its bytes. -/
inductive Place where
  | reg (g : GReg)
  | mem (ps : List Nat)
  deriving DecidableEq, Repr

/-- The place of a register or memory operand of width `w`; a memory destination is checked for writing (20_memory.md
R120, R121). -/
def State.place (s : State) (w : Width) (write : Bool) : RM → Res Place
  | .reg g => .ok (.reg g)
  | .mem m => do
    let ps ← s.access m.seg (s.ea m) w.bytes write
    .ok (.mem ps)

/-- The value at a place. -/
def State.getAt (s : State) (w : Width) : Place → Quad
  | .reg g => s.readGReg w g
  | .mem ps => BitVec.ofNat 64 (s.loadAt ps)

/-- A value put at a place. -/
def State.putAt (s : State) (w : Width) (p : Place) (v : Quad) : State :=
  match p with
  | .reg g => s.writeGReg w g v
  | .mem ps => s.storeAt ps (trunc w v).toNat

/-- A register or memory source operand (20_memory.md R120). -/
def State.readRM (s : State) (w : Width) (r : RM) : Res Quad := do
  let p ← s.place w false r
  .ok (s.getAt w p)

/-- A register or memory destination operand (20_memory.md R121). -/
def State.writeRM (s : State) (w : Width) (r : RM) (v : Quad) : Res State := do
  let p ← s.place w true r
  .ok (s.putAt w p v)

/-- A memory source operand. -/
def State.readM (s : State) (m : Mem) (n : Nat) : Res Quad := s.readMem m.seg (s.ea m) n

/-- A memory destination operand. -/
def State.writeM (s : State) (m : Mem) (n : Nat) (v : Quad) : Res State := s.writeMem m.seg (s.ea m) n v

/-- The operand is in memory. -/
def RM.isMem : RM → Bool
  | .mem _ => true
  | .reg _ => false

/-- LOCK with a register destination raises #UD (20_memory.md R123). -/
def checkLock (lock : Bool) (r : RM) : Res Unit := require (!lock || RM.isMem r) ud

/-- A result written to a register destination together with the flags. -/
def State.finish (s : State) (w : Width) (dst : Gpr) (v : Quad) (f : Flags) : State :=
  (s.writeGpr w dst v).setFlags f

end Sys2Proof.Machine
end

