-- ==== Sys2Proof/Machine/Arith.lean ====
section
/-! DEFINITION. The integer arithmetic, logic and decimal instructions (40_gp_a_b.md R302 to R310, 41_gp_c.md R356, R357,
R367 to R372, 42_gp_d_j.md R400 to R408, 43_gp_l_m.md R480, R481, 44_gp_n_p.md R510 to R513, 45_gp_r_s.md R580, R593,
46_gp_t_x.md R631, R636, R639). -/

namespace Sys2Proof.Machine

/-- What an arithmetic-logic instruction computes: from the flags before it, the count of free values, the destination
and the source, the result and the flags after it. -/
abbrev AluOp := Flags → Nat → Quad → Quad → Quad × Flags

/-- The checked destination of an arithmetic-logic form, its value and the source (31_opcode_maps.md R233). -/
def State.aluOperands (t : State) (w : Width) (write : Bool) : AluForm → Res (Place × Quad × Quad)
  | .rmReg rm r => do
    let p ← t.place w write rm
    .ok (p, t.getAt w p, t.readGReg w r)
  | .regRm r rm => do
    let v ← t.readRM w rm
    .ok (.reg r, t.readGReg w r, v)
  | .rmImm rm imm => do
    let p ← t.place w write rm
    .ok (p, t.getAt w p, trunc w imm)

/-- The form writes memory, so that LOCK is legal with it (20_memory.md R123). -/
def formWritesMem : AluForm → Bool
  | .rmReg rm _ => RM.isMem rm
  | .regRm _ _ => false
  | .rmImm rm _ => RM.isMem rm

/-- An arithmetic-logic instruction that writes its destination (40_gp_a_b.md R300). -/
def State.alu (t : State) (w : Width) (f : AluForm) (lock : Bool) (op : AluOp) : Res State := do
  require (!lock || formWritesMem f) ud
  let (p, a, b) ← t.aluOperands w true f
  .ok ((t.putAt w p (op t.flags t.freeCount a b).1).setFlags (op t.flags t.freeCount a b).2)

/-- An arithmetic-logic instruction that only sets flags (41_gp_c.md R367). -/
def State.aluTest (t : State) (w : Width) (f : AluForm) (op : AluOp) : Res State := do
  let (_, a, b) ← t.aluOperands w false f
  .ok (t.setFlags (op t.flags t.freeCount a b).2)

/-- The logical operations: flags_logic of the result (10_state.md R55). -/
def logicOp (w : Width) (g : Quad → Quad → Quad) : AluOp :=
  fun f n a b => (trunc w (g a b), logicFlags f n w (trunc w (g a b)))

/-- ADD (40_gp_a_b.md R308). -/
def addOp (w : Width) : AluOp := fun f _ a b => addFlags f w a b false

/-- ADC (40_gp_a_b.md R306). -/
def adcOp (w : Width) : AluOp := fun f _ a b => addFlags f w a b f.cf

/-- SUB and CMP (45_gp_r_s.md R593, 41_gp_c.md R367). -/
def subOp (w : Width) : AluOp := fun f _ a b => subFlags f w a b false

/-- SBB (45_gp_r_s.md R580). -/
def sbbOp (w : Width) : AluOp := fun f _ a b => subFlags f w a b f.cf

/-- ADD (40_gp_a_b.md R308). -/
def execAdd (w : Width) (f : AluForm) (lock : Bool) (s : State) : Host.Outcome State Fault Refusal :=
  run s fun t => t.alu w f lock (addOp w)

/-- OR (44_gp_n_p.md R513). -/
def execOr (w : Width) (f : AluForm) (lock : Bool) (s : State) : Host.Outcome State Fault Refusal :=
  run s fun t => t.alu w f lock (logicOp w (· ||| ·))

/-- ADC (40_gp_a_b.md R306). -/
def execAdc (w : Width) (f : AluForm) (lock : Bool) (s : State) : Host.Outcome State Fault Refusal :=
  run s fun t => t.alu w f lock (adcOp w)

/-- SBB (45_gp_r_s.md R580). -/
def execSbb (w : Width) (f : AluForm) (lock : Bool) (s : State) : Host.Outcome State Fault Refusal :=
  run s fun t => t.alu w f lock (sbbOp w)

/-- AND (40_gp_a_b.md R310). -/
def execAnd (w : Width) (f : AluForm) (lock : Bool) (s : State) : Host.Outcome State Fault Refusal :=
  run s fun t => t.alu w f lock (logicOp w (· &&& ·))

/-- SUB (45_gp_r_s.md R593). -/
def execSub (w : Width) (f : AluForm) (lock : Bool) (s : State) : Host.Outcome State Fault Refusal :=
  run s fun t => t.alu w f lock (subOp w)

/-- XOR (46_gp_t_x.md R639). -/
def execXor (w : Width) (f : AluForm) (lock : Bool) (s : State) : Host.Outcome State Fault Refusal :=
  run s fun t => t.alu w f lock (logicOp w (· ^^^ ·))

/-- CMP (41_gp_c.md R367). -/
def execCmp (w : Width) (f : AluForm) (s : State) : Host.Outcome State Fault Refusal :=
  run s fun t => t.aluTest w f (subOp w)

/-- TEST: a memory operand is only read (46_gp_t_x.md R631, D29). -/
def execTest (w : Width) (rm : RM) (src : RegImm) (s : State) : Host.Outcome State Fault Refusal :=
  run s fun t => do
    let a ← t.readRM w rm
    let b := match src with
      | .reg r => t.readGReg w r
      | .imm v => trunc w v
    .ok (t.setFlags (logicFlags t.flags t.freeCount w (a &&& b)))

/-! ### One operand -/

/-- An instruction that replaces its one register or memory operand (40_gp_a_b.md R300). -/
def State.unary (t : State) (w : Width) (rm : RM) (lock : Bool) (op : Flags → Quad → Quad × Flags) : Res State := do
  checkLock lock rm
  let p ← t.place w true rm
  .ok ((t.putAt w p (op t.flags (t.getAt w p)).1).setFlags (op t.flags (t.getAt w p)).2)

/-- INC: CF is unchanged (42_gp_d_j.md R408). -/
def execInc (w : Width) (rm : RM) (lock : Bool) (s : State) : Host.Outcome State Fault Refusal :=
  run s fun t => t.unary w rm lock fun f a =>
    ((addFlags f w a 1 false).1, { (addFlags f w a 1 false).2 with cf := f.cf })

/-- DEC: CF is unchanged (42_gp_d_j.md R402). -/
def execDec (w : Width) (rm : RM) (lock : Bool) (s : State) : Host.Outcome State Fault Refusal :=
  run s fun t => t.unary w rm lock fun f a =>
    ((subFlags f w a 1 false).1, { (subFlags f w a 1 false).2 with cf := f.cf })

/-- NEG (44_gp_n_p.md R510). -/
def execNeg (w : Width) (rm : RM) (lock : Bool) (s : State) : Host.Outcome State Fault Refusal :=
  run s fun t => t.unary w rm lock fun f a => subFlags f w 0 a false

/-- NOT: no flag changes (44_gp_n_p.md R512). -/
def execNot (w : Width) (rm : RM) (lock : Bool) (s : State) : Host.Outcome State Fault Refusal :=
  run s fun t => t.unary w rm lock fun f a => (trunc w (~~~a), f)

/-! ### Multiplication and division -/

/-- The double-width result of a multiplication in AX, or in rDX:rAX (43_gp_l_m.md R480, 42_gp_d_j.md R406). -/
def State.setProduct (t : State) (w : Width) (p : Nat) : State :=
  match w with
  | .w8 => t.writeGpr .w16 .rax (BitVec.ofNat 64 p)
  | _ => (t.writeGpr w .rax (trunc w (BitVec.ofNat 64 p))).writeGpr w .rdx (trunc w (BitVec.ofNat 64 (p >>> w.bits)))

/-- The flags of a multiplication: CF and OF tell that the product does not fit, the others are undefined
(43_gp_l_m.md R480, 42_gp_d_j.md R406). -/
def mulFlags (f : Flags) (count : Nat) (large : Bool) : Flags :=
  { f with cf := large, of := large }.undefine count [.sf, .zf, .af, .pf]

/-- MUL (43_gp_l_m.md R480). -/
def execMul (w : Width) (rm : RM) (s : State) : Host.Outcome State Fault Refusal :=
  run s fun t => do
    let b ← t.readRM w rm
    let p := (t.readGpr w .rax).toNat * b.toNat
    .ok ((t.setProduct w p).setFlags (mulFlags t.flags t.freeCount (p >>> w.bits != 0)))

/-- The signed product does not fit the width (42_gp_d_j.md R406). -/
def imulOver (w : Width) (p : Int) : Bool := p != signed w (ofInt w p)

/-- IMUL (42_gp_d_j.md R406). -/
def execImul (w : Width) (f : ImulForm) (s : State) : Host.Outcome State Fault Refusal :=
  run s fun t =>
    match f with
    | .acc rm => do
      let b ← t.readRM w rm
      let p := signed w (t.readGpr w .rax) * signed w b
      .ok ((t.setProduct w (p % (2 : Int) ^ (2 * w.bits)).toNat).setFlags (mulFlags t.flags t.freeCount (imulOver w p)))
    | .regRm dst rm => do
      let b ← t.readRM w rm
      let p := signed w (t.readGpr w dst) * signed w b
      .ok (t.finish w dst (ofInt w p) (mulFlags t.flags t.freeCount (imulOver w p)))
    | .regRmImm dst rm imm => do
      let a ← t.readRM w rm
      let p := signed w a * signed w imm
      .ok (t.finish w dst (ofInt w p) (mulFlags t.flags t.freeCount (imulOver w p)))

/-- The dividend of DIV and IDIV: AX, or rDX:rAX (42_gp_d_j.md R403). -/
def State.dividend (t : State) (w : Width) : Nat :=
  match w with
  | .w8 => (t.readGpr .w16 .rax).toNat
  | _ => (t.readGpr w .rdx).toNat * 2 ^ w.bits + (t.readGpr w .rax).toNat

/-- Quotient and remainder in AL and AH, or in rAX and rDX (42_gp_d_j.md R403). -/
def State.setQuotient (t : State) (w : Width) (q r : Quad) : State :=
  match w with
  | .w8 => t.writeGpr .w16 .rax ((trunc .w8 r <<< 8) ||| trunc .w8 q)
  | _ => (t.writeGpr w .rax q).writeGpr w .rdx r

/-- The flags of a division: all six undefined (42_gp_d_j.md R403, R405). -/
def Flags.undefineAll (f : Flags) (count : Nat) : Flags := f.undefine count [.of, .sf, .zf, .af, .pf, .cf]

/-- DIV (42_gp_d_j.md R403). -/
def execDiv (w : Width) (rm : RM) (s : State) : Host.Outcome State Fault Refusal :=
  run s fun t => do
    let d ← t.readRM w rm
    let n := t.dividend w
    require (d.toNat != 0) de
    require (n / d.toNat < 2 ^ w.bits) de
    .ok ((t.setQuotient w (BitVec.ofNat 64 (n / d.toNat)) (BitVec.ofNat 64 (n % d.toNat))).setFlags
      (t.flags.undefineAll t.freeCount))

/-- The dividend as a signed integer of twice the width (42_gp_d_j.md R405). -/
def State.signedDividend (t : State) (w : Width) : Int :=
  let n := t.dividend w
  if n < 2 ^ (2 * w.bits - 1) then n else n - 2 ^ (2 * w.bits)

/-- IDIV: the quotient is truncated towards zero (42_gp_d_j.md R405). -/
def execIdiv (w : Width) (rm : RM) (s : State) : Host.Outcome State Fault Refusal :=
  run s fun t => do
    let d ← t.readRM w rm
    let n := t.signedDividend w
    let q := n.tdiv (signed w d)
    require (signed w d != 0) de
    require (-(2 : Int) ^ (w.bits - 1) ≤ q && q ≤ (2 : Int) ^ (w.bits - 1) - 1) de
    .ok ((t.setQuotient w (ofInt w q) (ofInt w (n.tmod (signed w d)))).setFlags (t.flags.undefineAll t.freeCount))

/-- MULX: the upper half is written last, no flag changes (43_gp_l_m.md R481). -/
def execMulx (w : Width) (hi lo : Gpr) (src : RM) (s : State) : Host.Outcome State Fault Refusal :=
  run s fun t => do
    require (t.protMode && t.feat.bmi2) ud
    let b ← t.readRM w src
    let p := (t.readGpr w .rdx).toNat * b.toNat
    .ok ((t.writeGpr w lo (trunc w (BitVec.ofNat 64 p))).writeGpr w hi (trunc w (BitVec.ofNat 64 (p >>> w.bits))))

/-! ### Carry chains -/

/-- ADCX: only CF changes (40_gp_a_b.md R307). -/
def execAdcx (w : Width) (dst : Gpr) (src : RM) (s : State) : Host.Outcome State Fault Refusal :=
  run s fun t => do
    require t.feat.adx ud
    let b ← t.readRM w src
    let r := addFlags t.flags w (t.readGpr w dst) b t.flags.cf
    .ok (t.finish w dst r.1 { t.flags with cf := r.2.cf })

/-- ADOX: only OF changes (40_gp_a_b.md R309). -/
def execAdox (w : Width) (dst : Gpr) (src : RM) (s : State) : Host.Outcome State Fault Refusal :=
  run s fun t => do
    require t.feat.adx ud
    let b ← t.readRM w src
    let r := addFlags t.flags w (t.readGpr w dst) b t.flags.of
    .ok (t.finish w dst r.1 { t.flags with of := r.2.cf })

/-! ### Exchange and add, compare and exchange -/

/-- XADD: the sum is written last (46_gp_t_x.md R636, D32). -/
def execXadd (w : Width) (rm : RM) (r : GReg) (lock : Bool) (s : State) : Host.Outcome State Fault Refusal :=
  run s fun t => do
    checkLock lock rm
    let p ← t.place w true rm
    let old := t.getAt w p
    let sum := addFlags t.flags w old (t.readGReg w r) false
    .ok (((t.writeGReg w r old).putAt w p sum.1).setFlags sum.2)

/-- CMPXCHG: memory is written in both cases (41_gp_c.md R369). -/
def execCmpxchg (w : Width) (rm : RM) (r : GReg) (lock : Bool) (s : State) : Host.Outcome State Fault Refusal :=
  run s fun t => do
    checkLock lock rm
    let p ← t.place w true rm
    let old := t.getAt w p
    let acc := t.readGpr w .rax
    let f := (subFlags t.flags w acc old false).2
    let u :=
      if acc == old then t.putAt w p (t.readGReg w r)
      else
        match p with
        | .mem ps => (t.putAt w (.mem ps) old).writeGpr w .rax old
        | .reg _ => t.writeGpr w .rax old
    .ok (u.setFlags f)

/-- CMPXCHG8B and CMPXCHG16B on two halves of width `h`, each aligned by its own size (41_gp_c.md R370, 20_memory.md R108). -/
def State.cmpxchgPair (t : State) (h : Width) (m : Mem) : Res State := do
  let ps ← t.accessParts (segFault m.seg) m.seg (t.ea m) (2 * h.bytes) h.bytes true
  let old := t.loadAt ps
  let pair (hi lo : Gpr) : Nat := (t.readGpr h hi).toNat * 2 ^ h.bits + (t.readGpr h lo).toNat
  if pair .rdx .rax == old then
    .ok ((t.storeAt ps (pair .rcx .rbx)).setFlags { t.flags with zf := true })
  else
    .ok ((((t.storeAt ps old).writeGpr h .rdx (BitVec.ofNat 64 (old >>> h.bits))).writeGpr h .rax
      (trunc h (BitVec.ofNat 64 old))).setFlags { t.flags with zf := false })

/-- CMPXCHG8B (41_gp_c.md R370). -/
def execCmpxchg8b (m : Mem) (_lock : Bool) (s : State) : Host.Outcome State Fault Refusal :=
  run s fun t => do
    require t.feat.cmpxchg8b ud
    t.cmpxchgPair .w32 m

/-- CMPXCHG16B: the operand is 16-byte aligned (41_gp_c.md R370). -/
def execCmpxchg16b (m : Mem) (_lock : Bool) (s : State) : Host.Outcome State Fault Refusal :=
  run s fun t => do
    require t.feat.cmpxchg16b ud
    require ((t.linear m.seg (t.ea m)).extractLsb' 0 4 == 0) gp0
    t.cmpxchgPair .w64 m

/-! ### Sign extension into the accumulator -/

/-- CBW (41_gp_c.md R356). -/
def execCbw (s : State) : Host.Outcome State Fault Refusal :=
  run s fun t => .ok (t.writeGpr .w16 .rax (sext .w8 t.gpr.rax))

/-- CWDE (41_gp_c.md R356). -/
def execCwde (s : State) : Host.Outcome State Fault Refusal :=
  run s fun t => .ok (t.writeGpr .w32 .rax (sext .w16 t.gpr.rax))

/-- CDQE (41_gp_c.md R356). -/
def execCdqe (s : State) : Host.Outcome State Fault Refusal :=
  run s fun t => .ok (t.writeGpr .w64 .rax (sext .w32 t.gpr.rax))

/-- Copies of the sign bit of rAX in rDX (41_gp_c.md R357). -/
def State.signToDx (t : State) (w : Width) : State :=
  t.writeGpr w .rdx (if msbOf w t.gpr.rax then BitVec.allOnes 64 else 0)

/-- CWD (41_gp_c.md R357). -/
def execCwd (s : State) : Host.Outcome State Fault Refusal := run s fun t => .ok (t.signToDx .w16)

/-- CDQ (41_gp_c.md R357). -/
def execCdq (s : State) : Host.Outcome State Fault Refusal := run s fun t => .ok (t.signToDx .w32)

/-- CQO (41_gp_c.md R357). -/
def execCqo (s : State) : Host.Outcome State Fault Refusal := run s fun t => .ok (t.signToDx .w64)

/-! ### Decimal adjustment -/

/-- AH and AL written together. -/
def State.setAx (t : State) (ah al : Quad) : State := t.writeGpr .w16 .rax ((trunc .w8 ah <<< 8) ||| trunc .w8 al)

/-- AL (10_state.md R42). -/
def State.al (t : State) : Quad := t.readGpr .w8 .rax

/-- AH (10_state.md R42). -/
def State.ah (t : State) : Quad := trunc .w8 (t.gpr.rax >>> 8)

/-- The lower nibble of AL needs adjusting (40_gp_a_b.md R302, 42_gp_d_j.md R400). -/
def State.adjustLow (t : State) : Bool := 9 < (t.al &&& 0xF) || t.flags.af

/-- AAA and AAS: AH and AL move separately, each modulo 256 (40_gp_a_b.md R302, R305, 93_implementation_defined.md
G1). -/
def State.asciiAdjust (t : State) (dh dl : Quad) : Res State := do
  require (!t.mode64) ud
  let c := t.adjustLow
  let f := { t.flags with cf := c, af := c }.undefine t.freeCount [.of, .sf, .zf, .pf]
  if c then .ok ((t.setAx (t.ah + dh) ((t.al + dl) &&& 0xF)).setFlags f)
  else .ok ((t.setAx t.ah (t.al &&& 0xF)).setFlags f)

/-- AAA (40_gp_a_b.md R302). -/
def execAaa (s : State) : Host.Outcome State Fault Refusal := run s fun t => t.asciiAdjust 1 6

/-- AAS (40_gp_a_b.md R305). -/
def execAas (s : State) : Host.Outcome State Fault Refusal := run s fun t => t.asciiAdjust (-1) (-6)

/-- The flags of AAD and AAM (40_gp_a_b.md R303, R304). -/
def State.asciiFlags (t : State) (al : Quad) : Flags := (t.flags.result .w8 al).undefine t.freeCount [.of, .af, .cf]

/-- AAD (40_gp_a_b.md R303). -/
def execAad (base : Byte) (s : State) : Host.Outcome State Fault Refusal :=
  run s fun t => do
    require (!t.mode64) ud
    let al := trunc .w8 (base.setWidth 64 * t.ah + t.al)
    .ok ((t.setAx 0 al).setFlags (t.asciiFlags al))

/-- AAM (40_gp_a_b.md R304). -/
def execAam (base : Byte) (s : State) : Host.Outcome State Fault Refusal :=
  run s fun t => do
    require (!t.mode64) ud
    require (base != 0) de
    let al := t.al % base.setWidth 64
    .ok ((t.setAx (t.al / base.setWidth 64) al).setFlags (t.asciiFlags al))

/-- DAA and DAS: each nibble's adjustment sets its flag and clears none (42_gp_d_j.md R400, R401,
93_implementation_defined.md G4). -/
def State.decimalAdjust (t : State) (low high : Quad) : Res State := do
  require (!t.mode64) ud
  let lo := t.adjustLow
  let hi := 0x99 < t.al || t.flags.cf
  let a := if lo then trunc .w8 (t.al + low) else t.al
  let al := if hi then trunc .w8 (a + high) else a
  let f := ({ t.flags with af := t.flags.af || lo, cf := t.flags.cf || hi }.result .w8 al).undefine t.freeCount [.of]
  .ok ((t.writeGpr .w8 .rax al).setFlags f)

/-- DAA (42_gp_d_j.md R400). -/
def execDaa (s : State) : Host.Outcome State Fault Refusal := run s fun t => t.decimalAdjust 0x06 0x60

/-- DAS (42_gp_d_j.md R401). -/
def execDas (s : State) : Host.Outcome State Fault Refusal := run s fun t => t.decimalAdjust (-0x06) (-0x60)

/-! ### CRC32 -/

/-- The low `n` bits in reversed order (41_gp_c.md R372, 93_implementation_defined.md G3). -/
def reverseBits : Nat → Nat → Nat
  | 0, _ => 0
  | n + 1, v => (v % 2) * 2 ^ n + reverseBits n (v / 2)

/-- The remainder over GF(2) by the polynomial 1_1EDC_6F41h of a vector of `32 + n` bits (41_gp_c.md R372). -/
def crcRem : Nat → Nat → Nat
  | 0, v => v
  | n + 1, v => crcRem n (if v.testBit (32 + n) then v ^^^ (0x11EDC6F41 <<< n) else v)

/-- CRC32 of an accumulator and a `k`-bit value (41_gp_c.md R372). -/
def crc32Step (k : Nat) (acc v : Nat) : Nat :=
  reverseBits 32 (crcRem k ((reverseBits 32 acc <<< k) ^^^ (reverseBits k v <<< 32)))

/-- CRC32: `w` is the width of the source, `wide` a 64-bit destination (41_gp_c.md R372). -/
def execCrc32 (w : Width) (wide : Bool) (dst : Gpr) (src : RM) (s : State) : Host.Outcome State Fault Refusal :=
  run s fun t => do
    require t.feat.sse42 ud
    let b ← t.readRM w src
    let r := crc32Step w.bits (t.readGpr .w32 dst).toNat b.toNat
    .ok (t.writeGpr (if wide then .w64 else .w32) dst (BitVec.ofNat 64 r))

end Sys2Proof.Machine
end

