-- ==== Sys2Proof/Machine/Bits.lean ====
section
/-! DEFINITION. Bit manipulation, bit strings, shifts and rotates (40_gp_a_b.md R311 to R334, 43_gp_l_m.md R461,
44_gp_n_p.md R517, R518, R525, 45_gp_r_s.md R560 to R588, 46_gp_t_x.md R630 to R633). -/

namespace Sys2Proof.Machine

/-! ### BMI and TBM -/

/-- A VEX or XOP instruction of one source: protected mode and the feature are checked, the source is read, the result
and the flags are written (20_memory.md R122). -/
def State.vexOp (t : State) (feature : Bool) (w : Width) (dst : Gpr) (src : RM) (op : Quad → Quad × Flags) :
    Res State := do
  require (t.protMode && feature) ud
  let v ← t.readRM w src
  .ok (t.finish w dst (op v).1 (op v).2)

/-- The flags of the BMI1, BMI2 and TBM operations: OF clear, SF and ZF of the result, AF and PF undefined (40_gp_a_b.md
R314). -/
def bmiFlags (f : Flags) (count : Nat) (w : Width) (r : Quad) (cf : Bool) : Flags :=
  { f.result w r with of := false, cf := cf }.undefine count [.af, .pf]

/-- A two-operand BMI1 or TBM instruction: `g` of the source, with its carry (40_gp_a_b.md R314). -/
def State.bitOp (t : State) (feature : Bool) (w : Width) (dst : Gpr) (src : RM) (g : Quad → Quad)
    (carry : Quad → Bool) : Res State :=
  t.vexOp feature w dst src fun v => (trunc w (g v), bmiFlags t.flags t.freeCount w (trunc w (g v)) (carry v))

/-- The carry of `src + 1` (40_gp_a_b.md R315). -/
def incCarry (w : Width) (v : Quad) : Bool := trunc w (v + 1) == 0

/-- The borrow of `src - 1` (40_gp_a_b.md R320). -/
def decBorrow (v : Quad) : Bool := v == 0

/-- ANDN (40_gp_a_b.md R311). -/
def execAndn (w : Width) (dst src1 : Gpr) (src2 : RM) (s : State) : Host.Outcome State Fault Refusal :=
  run s fun t => t.vexOp t.feat.bmi1 w dst src2 fun v =>
    let r := ~~~(t.readGpr w src1) &&& v
    (r, bmiFlags t.flags t.freeCount w r false)

/-- The bit field of BEXTR (40_gp_a_b.md R312). -/
def bextrField (w : Width) (v : Quad) (lsb len : Nat) : Quad :=
  let r := if lsb < w.bits then v >>> lsb else 0
  if w.bits ≤ len then r else r &&& (((1 : Quad) <<< len) - 1)

/-- BEXTR, register and immediate form (40_gp_a_b.md R312, R313). -/
def execBextr (w : Width) (dst : Gpr) (src : RM) (ctl : BextrCtl) (s : State) : Host.Outcome State Fault Refusal :=
  run s fun t =>
    let c := match ctl with
      | .reg r => t.readGpr w r
      | .imm v => v.setWidth 64
    let feature := match ctl with
      | .reg _ => t.feat.bmi1
      | .imm _ => t.feat.tbm
    t.vexOp feature w dst src fun v =>
      let r := bextrField w v (c.extractLsb' 0 8).toNat (c.extractLsb' 8 8).toNat
      (r, { t.flags with of := false, cf := false, zf := r == 0 }.undefine t.freeCount [.sf, .af, .pf])

/-- BLCFILL (40_gp_a_b.md R315). -/
def execBlcfill (w : Width) (dst : Gpr) (src : RM) (s : State) : Host.Outcome State Fault Refusal :=
  run s fun t => t.bitOp t.feat.tbm w dst src (fun v => (v + 1) &&& v) (incCarry w)

/-- BLCI (40_gp_a_b.md R316). -/
def execBlci (w : Width) (dst : Gpr) (src : RM) (s : State) : Host.Outcome State Fault Refusal :=
  run s fun t => t.bitOp t.feat.tbm w dst src (fun v => ~~~(v + 1) ||| v) (incCarry w)

/-- BLCIC (40_gp_a_b.md R317). -/
def execBlcic (w : Width) (dst : Gpr) (src : RM) (s : State) : Host.Outcome State Fault Refusal :=
  run s fun t => t.bitOp t.feat.tbm w dst src (fun v => (v + 1) &&& ~~~v) (incCarry w)

/-- BLCMSK (40_gp_a_b.md R318). -/
def execBlcmsk (w : Width) (dst : Gpr) (src : RM) (s : State) : Host.Outcome State Fault Refusal :=
  run s fun t => t.bitOp t.feat.tbm w dst src (fun v => (v + 1) ^^^ v) (incCarry w)

/-- BLCS (40_gp_a_b.md R319). -/
def execBlcs (w : Width) (dst : Gpr) (src : RM) (s : State) : Host.Outcome State Fault Refusal :=
  run s fun t => t.bitOp t.feat.tbm w dst src (fun v => (v + 1) ||| v) (incCarry w)

/-- BLSFILL (40_gp_a_b.md R320). -/
def execBlsfill (w : Width) (dst : Gpr) (src : RM) (s : State) : Host.Outcome State Fault Refusal :=
  run s fun t => t.bitOp t.feat.tbm w dst src (fun v => (v - 1) ||| v) decBorrow

/-- BLSI: the carry is that of the negation (40_gp_a_b.md R321). -/
def execBlsi (w : Width) (dst : Gpr) (src : RM) (s : State) : Host.Outcome State Fault Refusal :=
  run s fun t => t.bitOp t.feat.bmi1 w dst src (fun v => (0 - v) &&& v) (fun v => v != 0)

/-- BLSIC (40_gp_a_b.md R322). -/
def execBlsic (w : Width) (dst : Gpr) (src : RM) (s : State) : Host.Outcome State Fault Refusal :=
  run s fun t => t.bitOp t.feat.tbm w dst src (fun v => (v - 1) ||| ~~~v) decBorrow

/-- BLSMSK (40_gp_a_b.md R323). -/
def execBlsmsk (w : Width) (dst : Gpr) (src : RM) (s : State) : Host.Outcome State Fault Refusal :=
  run s fun t => t.bitOp t.feat.bmi1 w dst src (fun v => (v - 1) ^^^ v) decBorrow

/-- BLSR (40_gp_a_b.md R324). -/
def execBlsr (w : Width) (dst : Gpr) (src : RM) (s : State) : Host.Outcome State Fault Refusal :=
  run s fun t => t.bitOp t.feat.bmi1 w dst src (fun v => (v - 1) &&& v) decBorrow

/-- T1MSKC (46_gp_t_x.md R630). -/
def execT1mskc (w : Width) (dst : Gpr) (src : RM) (s : State) : Host.Outcome State Fault Refusal :=
  run s fun t => t.bitOp t.feat.tbm w dst src (fun v => (v + 1) ||| ~~~v) (incCarry w)

/-- TZMSK (46_gp_t_x.md R633). -/
def execTzmsk (w : Width) (dst : Gpr) (src : RM) (s : State) : Host.Outcome State Fault Refusal :=
  run s fun t => t.bitOp t.feat.tbm w dst src (fun v => (v - 1) &&& ~~~v) decBorrow

/-- BZHI (40_gp_a_b.md R334). -/
def execBzhi (w : Width) (dst : Gpr) (src : RM) (idx : Gpr) (s : State) : Host.Outcome State Fault Refusal :=
  run s fun t => t.vexOp t.feat.bmi2 w dst src fun v =>
    let n := (t.readGpr .w8 idx).toNat
    let r := if w.bits ≤ n then v else v &&& (((1 : Quad) <<< n) - 1)
    (r, bmiFlags t.flags t.freeCount w r (w.bits ≤ n))

/-- The bits of `src` deposited at the ones of `mask`, over `n` bit positions (44_gp_n_p.md R517). -/
def deposit : Nat → Quad → Quad → Quad
  | 0, _, _ => 0
  | n + 1, src, mask =>
    if mask.getLsbD 0 then (src &&& 1) ||| (deposit n (src >>> 1) (mask >>> 1) <<< 1)
    else deposit n src (mask >>> 1) <<< 1

/-- The bits of `src` at the ones of `mask` packed together, over `n` bit positions (44_gp_n_p.md R518). -/
def extract : Nat → Quad → Quad → Quad
  | 0, _, _ => 0
  | n + 1, src, mask =>
    if mask.getLsbD 0 then (src &&& 1) ||| (extract n (src >>> 1) (mask >>> 1) <<< 1)
    else extract n (src >>> 1) (mask >>> 1)

/-- PDEP (44_gp_n_p.md R517). -/
def execPdep (w : Width) (dst src : Gpr) (mask : RM) (s : State) : Host.Outcome State Fault Refusal :=
  run s fun t => t.vexOp t.feat.bmi2 w dst mask fun m => (deposit w.bits (t.readGpr w src) m, t.flags)

/-- PEXT (44_gp_n_p.md R518). -/
def execPext (w : Width) (dst src : Gpr) (mask : RM) (s : State) : Host.Outcome State Fault Refusal :=
  run s fun t => t.vexOp t.feat.bmi2 w dst mask fun m => (extract w.bits (t.readGpr w src) m, t.flags)

/-! ### Bit scans and counts -/

/-- The number of zero bits below the lowest one among `n` bits (46_gp_t_x.md R632). -/
def trailingZeros : Nat → Quad → Nat
  | 0, _ => 0
  | n + 1, v => if v.getLsbD 0 then 0 else trailingZeros n (v >>> 1) + 1

/-- The number of zero bits above the highest one among the low `n` bits (43_gp_l_m.md R461). -/
def leadingZeros : Nat → Quad → Nat
  | 0, _ => 0
  | n + 1, v => if v.getLsbD n then 0 else leadingZeros n v + 1

/-- The number of ones among the low `n` bits (44_gp_n_p.md R525). -/
def onesCount : Nat → Quad → Nat
  | 0, _ => 0
  | n + 1, v => onesCount n v + (v.getLsbD n).toNat

/-- A bit scan: with a zero source the destination keeps all 64 bits (40_gp_a_b.md R326, R327,
93_implementation_defined.md U7). -/
def State.bitScan (t : State) (w : Width) (dst : Gpr) (src : RM) (index : Quad → Nat) : Res State := do
  let v ← t.readRM w src
  let f := { t.flags with zf := v == 0 }.undefine t.freeCount [.of, .sf, .af, .pf, .cf]
  .ok (if v == 0 then t.setFlags f else t.finish w dst (BitVec.ofNat 64 (index v)) f)

/-- The index of the highest one (40_gp_a_b.md R327). -/
def highestOne (w : Width) (v : Quad) : Nat := w.bits - 1 - leadingZeros w.bits v

/-- BSF (40_gp_a_b.md R326). -/
def execBsf (w : Width) (dst : Gpr) (src : RM) (s : State) : Host.Outcome State Fault Refusal :=
  run s fun t => t.bitScan w dst src (trailingZeros w.bits)

/-- BSR (40_gp_a_b.md R327). -/
def execBsr (w : Width) (dst : Gpr) (src : RM) (s : State) : Host.Outcome State Fault Refusal :=
  run s fun t => t.bitScan w dst src (highestOne w)

/-- A zero count with its flags (43_gp_l_m.md R461, 46_gp_t_x.md R632). -/
def State.zeroCount (t : State) (w : Width) (dst : Gpr) (src : RM) (count : Quad → Nat) : Res State := do
  let v ← t.readRM w src
  let f := { t.flags with zf := count v == 0, cf := v == 0 }.undefine t.freeCount [.of, .sf, .af, .pf]
  .ok (t.finish w dst (BitVec.ofNat 64 (count v)) f)

/-- LZCNT; without ABM its bytes are those of BSR (43_gp_l_m.md R461). -/
def execLzcnt (w : Width) (dst : Gpr) (src : RM) (s : State) : Host.Outcome State Fault Refusal :=
  run s fun t =>
    if t.feat.abm then t.zeroCount w dst src (leadingZeros w.bits) else t.bitScan w dst src (highestOne w)

/-- TZCNT; without BMI1 its bytes are those of BSF (46_gp_t_x.md R632). -/
def execTzcnt (w : Width) (dst : Gpr) (src : RM) (s : State) : Host.Outcome State Fault Refusal :=
  run s fun t =>
    if t.feat.bmi1 then t.zeroCount w dst src (trailingZeros w.bits)
    else t.bitScan w dst src (trailingZeros w.bits)

/-- POPCNT (44_gp_n_p.md R525). -/
def execPopcnt (w : Width) (dst : Gpr) (src : RM) (s : State) : Host.Outcome State Fault Refusal :=
  run s fun t => do
    require t.feat.popcnt ud
    let v ← t.readRM w src
    .ok (t.finish w dst (BitVec.ofNat 64 (onesCount w.bits v))
      { t.flags with zf := v == 0, of := false, sf := false, af := false, pf := false, cf := false })

/-- The bytes of a value of width `w` in reverse order (40_gp_a_b.md R328, 43_gp_l_m.md R471). -/
def byteSwap (w : Width) (v : Quad) : Quad :=
  let b (n : Nat) : Byte := v.extractLsb' (8 * n) 8
  match w with
  | .w8 => trunc .w8 v
  | .w16 => (b 0 ++ b 1 : BitVec 16).setWidth 64
  | .w32 => (b 0 ++ b 1 ++ b 2 ++ b 3 : BitVec 32).setWidth 64
  | .w64 => (b 0 ++ b 1 ++ b 2 ++ b 3 ++ b 4 ++ b 5 ++ b 6 ++ b 7 : BitVec 64)

/-- The free value of a result that the spec leaves undefined (93_implementation_defined.md U2, U5, A.2): slot 16. -/
def State.freeResult (t : State) : Quad := Config.freeBits t.freeCount 16 64

/-- BSWAP; of a 16-bit register the low 16 bits become undefined (40_gp_a_b.md R328, 93_implementation_defined.md U2). -/
def execBswap (w : Width) (r : Gpr) (s : State) : Host.Outcome State Fault Refusal :=
  run s fun t =>
    match w with
    | .w16 => .ok (t.writeGpr .w16 r t.freeResult)
    | _ => .ok (t.writeGpr w r (byteSwap w (t.readGpr w r)))

/-! ### Bit strings -/

/-- The unit that holds the selected bit, and the bit's number in it; the formula names no width, so the offset is not cut to the
address size (40_gp_a_b.md R329, log 23). -/
def State.bitPlace (t : State) (w : Width) (write : Bool) (rm : RM) (off : BitOff) : Res (Place × Nat) :=
  match rm, off with
  | .reg g, .imm v => .ok (.reg g, v.toNat % w.bits)
  | .reg g, .reg r => .ok (.reg g, (t.readGpr w r).toNat % w.bits)
  | .mem m, .imm v => do
    let ps ← t.access m.seg (t.ea m) w.bytes write
    .ok (.mem ps, v.toNat % w.bits)
  | .mem m, .reg r => do
    let i := signed w (t.readGpr w r)
    let ps ← t.access m.seg (t.ea m + BitVec.ofInt 64 (i / w.bits * w.bytes)) w.bytes write
    .ok (.mem ps, (i % w.bits).toNat)

/-- The flags of a bit test (40_gp_a_b.md R330). -/
def State.bitFlags (t : State) (b : Bool) : Flags :=
  { t.flags with cf := b }.undefine t.freeCount [.of, .sf, .zf, .af, .pf]

/-- BT (40_gp_a_b.md R330). -/
def execBt (w : Width) (rm : RM) (off : BitOff) (s : State) : Host.Outcome State Fault Refusal :=
  run s fun t => do
    let (p, n) ← t.bitPlace w false rm off
    .ok (t.setFlags (t.bitFlags ((t.getAt w p).getLsbD n)))

/-- BTC, BTR and BTS: the unit is written with the selected bit changed (40_gp_a_b.md R331 to R333). -/
def State.bitChange (t : State) (w : Width) (rm : RM) (off : BitOff) (lock : Bool) (g : Quad → Quad → Quad) :
    Res State := do
  checkLock lock rm
  let (p, n) ← t.bitPlace w true rm off
  .ok ((t.putAt w p (g (t.getAt w p) ((1 : Quad) <<< n))).setFlags (t.bitFlags ((t.getAt w p).getLsbD n)))

/-- BTC (40_gp_a_b.md R331). -/
def execBtc (w : Width) (rm : RM) (off : BitOff) (lock : Bool) (s : State) : Host.Outcome State Fault Refusal :=
  run s fun t => t.bitChange w rm off lock (· ^^^ ·)

/-- BTR (40_gp_a_b.md R332). -/
def execBtr (w : Width) (rm : RM) (off : BitOff) (lock : Bool) (s : State) : Host.Outcome State Fault Refusal :=
  run s fun t => t.bitChange w rm off lock (fun v m => v &&& ~~~m)

/-- BTS (40_gp_a_b.md R333). -/
def execBts (w : Width) (rm : RM) (off : BitOff) (lock : Bool) (s : State) : Host.Outcome State Fault Refusal :=
  run s fun t => t.bitChange w rm off lock (· ||| ·)

/-! ### Shifts and rotates -/

/-- A shift count masked to the width (45_gp_r_s.md R560). -/
def maskCount (w : Width) (n : Nat) : Nat := n % (if w = .w64 then 64 else 32)

/-- The masked count of a shift or rotate (45_gp_r_s.md R560). -/
def State.shiftCount (t : State) (w : Width) (c : ShiftCount) : Nat :=
  maskCount w (match c with
    | .one => 1
    | .imm v => v.toNat
    | .cl => (t.readGpr .w8 .rcx).toNat)

/-- A shift or rotate: with a count of 0 the destination is written unchanged and no flag changes (45_gp_r_s.md R560,
D27). -/
def State.shift (t : State) (w : Width) (rm : RM) (cnt : ShiftCount) (op : Nat → Quad → Quad × Flags) : Res State := do
  let p ← t.place w true rm
  let c := t.shiftCount w cnt
  if c = 0 then .ok (t.putAt w p (t.getAt w p))
  else .ok ((t.putAt w p (op c (t.getAt w p)).1).setFlags (op c (t.getAt w p)).2)

/-- The flags of a rotate: CF, and OF for a count of 1, undefined otherwise (45_gp_r_s.md R561, R573). -/
def rotateFlags (f : Flags) (count c : Nat) (cf of : Bool) : Flags :=
  if c = 1 then { f with cf := cf, of := of } else { f with cf := cf }.undefine count [.of]

/-- The flags of a shift: SF, ZF and PF of the result, AF undefined, OF for a count of 1 only (45_gp_r_s.md R577). -/
def shiftFlags (f : Flags) (count c : Nat) (w : Width) (r : Quad) (cf of : Bool) : Flags :=
  (rotateFlags (f.result w r) count c cf of).undefine count [.af]

/-- A value rotated left (45_gp_r_s.md R573). -/
def rotateLeft (w : Width) (v : Quad) (c : Nat) : Quad :=
  trunc w ((v <<< (c % w.bits)) ||| (v >>> (w.bits - c % w.bits)))

/-- A value rotated right (45_gp_r_s.md R574). -/
def rotateRight (w : Width) (v : Quad) (c : Nat) : Quad :=
  trunc w ((v >>> (c % w.bits)) ||| (v <<< (w.bits - c % w.bits)))

/-- The bit below the most significant one. -/
def belowMsb (w : Width) (v : Quad) : Bool := v.getLsbD (w.bits - 2)

/-- ROL (45_gp_r_s.md R573). -/
def execRol (w : Width) (rm : RM) (cnt : ShiftCount) (s : State) : Host.Outcome State Fault Refusal :=
  run s fun t => t.shift w rm cnt fun c v =>
    let r := rotateLeft w v c
    (r, rotateFlags t.flags t.freeCount c (r.getLsbD 0) (r.getLsbD 0 ^^ msbOf w r))

/-- ROR (45_gp_r_s.md R574). -/
def execRor (w : Width) (rm : RM) (cnt : ShiftCount) (s : State) : Host.Outcome State Fault Refusal :=
  run s fun t => t.shift w rm cnt fun c v =>
    let r := rotateRight w v c
    (r, rotateFlags t.flags t.freeCount c (msbOf w r) (msbOf w r ^^ belowMsb w r))

/-- Left steps through the carry (45_gp_r_s.md R561). -/
def carryLeft (w : Width) : Nat → Quad → Bool → Quad × Bool
  | 0, v, c => (v, c)
  | n + 1, v, c => carryLeft w n (trunc w (v <<< 1) ||| bit c) (msbOf w v)

/-- Right steps through the carry (45_gp_r_s.md R562). -/
def carryRight (w : Width) : Nat → Quad → Bool → Quad × Bool
  | 0, v, c => (v, c)
  | n + 1, v, c => carryRight w n ((v >>> 1) ||| ((bit c : Quad) <<< (w.bits - 1))) (v.getLsbD 0)

/-- RCL (45_gp_r_s.md R561). -/
def execRcl (w : Width) (rm : RM) (cnt : ShiftCount) (s : State) : Host.Outcome State Fault Refusal :=
  run s fun t => t.shift w rm cnt fun c v =>
    let r := carryLeft w c v t.flags.cf
    (r.1, rotateFlags t.flags t.freeCount c r.2 (r.2 ^^ msbOf w r.1))

/-- RCR (45_gp_r_s.md R562). -/
def execRcr (w : Width) (rm : RM) (cnt : ShiftCount) (s : State) : Host.Outcome State Fault Refusal :=
  run s fun t => t.shift w rm cnt fun c v =>
    let r := carryRight w c v t.flags.cf
    (r.1, rotateFlags t.flags t.freeCount c r.2 (msbOf w r.1 ^^ belowMsb w r.1))

/-- SHL and SAL (45_gp_r_s.md R577). -/
def execShl (w : Width) (rm : RM) (cnt : ShiftCount) (s : State) : Host.Outcome State Fault Refusal :=
  run s fun t => t.shift w rm cnt fun c v =>
    let r := trunc w (v <<< c)
    let cf := decide (c ≤ w.bits) && v.getLsbD (w.bits - c)
    (r, shiftFlags t.flags t.freeCount c w r cf (cf ^^ msbOf w r))

/-- SHR (45_gp_r_s.md R586). -/
def execShr (w : Width) (rm : RM) (cnt : ShiftCount) (s : State) : Host.Outcome State Fault Refusal :=
  run s fun t => t.shift w rm cnt fun c v =>
    let r := v >>> c
    (r, shiftFlags t.flags t.freeCount c w r (v.getLsbD (c - 1)) (msbOf w v))

/-- SAR (45_gp_r_s.md R578). -/
def execSar (w : Width) (rm : RM) (cnt : ShiftCount) (s : State) : Host.Outcome State Fault Refusal :=
  run s fun t => t.shift w rm cnt fun c v =>
    let r := trunc w ((sext w v).sshiftRight c)
    (r, shiftFlags t.flags t.freeCount c w r ((sext w v).getLsbD (c - 1)) false)

/-- SHLD and SHRD: with a count above the width the destination and the six flags are undefined (45_gp_r_s.md R584,
R587). -/
def State.shiftDouble (t : State) (w : Width) (rm : RM) (cnt : ShiftCount) (op : Nat → Quad → Quad)
    (carry : Nat → Quad → Bool) : Res State :=
  t.shift w rm cnt fun c v =>
    if w.bits < c then (trunc w t.freeResult, t.flags.undefine t.freeCount [.of, .sf, .zf, .af, .pf, .cf])
    else
      (trunc w (op c v),
        shiftFlags t.flags t.freeCount c w (trunc w (op c v)) (carry c v) (msbOf w (op c v) ^^ msbOf w v))

/-- SHLD (45_gp_r_s.md R584). -/
def execShld (w : Width) (rm : RM) (r : Gpr) (cnt : ShiftCount) (s : State) : Host.Outcome State Fault Refusal :=
  run s fun t => t.shiftDouble w rm cnt (fun c v => (v <<< c) ||| (t.readGpr w r >>> (w.bits - c)))
    (fun c v => v.getLsbD (w.bits - c))

/-- SHRD (45_gp_r_s.md R587). -/
def execShrd (w : Width) (rm : RM) (r : Gpr) (cnt : ShiftCount) (s : State) : Host.Outcome State Fault Refusal :=
  run s fun t => t.shiftDouble w rm cnt (fun c v => (v >>> c) ||| (t.readGpr w r <<< (w.bits - c)))
    (fun c v => v.getLsbD (c - 1))

/-- RORX (45_gp_r_s.md R575). -/
def execRorx (w : Width) (dst : Gpr) (src : RM) (imm : Byte) (s : State) : Host.Outcome State Fault Refusal :=
  run s fun t => t.vexOp t.feat.bmi2 w dst src fun v => (rotateRight w v (maskCount w imm.toNat), t.flags)

/-- SARX (45_gp_r_s.md R579). -/
def execSarx (w : Width) (dst : Gpr) (src : RM) (cnt : Gpr) (s : State) : Host.Outcome State Fault Refusal :=
  run s fun t => t.vexOp t.feat.bmi2 w dst src fun v =>
    (trunc w ((sext w v).sshiftRight (maskCount w (t.readGpr w cnt).toNat)), t.flags)

/-- SHLX (45_gp_r_s.md R585). -/
def execShlx (w : Width) (dst : Gpr) (src : RM) (cnt : Gpr) (s : State) : Host.Outcome State Fault Refusal :=
  run s fun t => t.vexOp t.feat.bmi2 w dst src fun v =>
    (trunc w (v <<< maskCount w (t.readGpr w cnt).toNat), t.flags)

/-- SHRX (45_gp_r_s.md R588). -/
def execShrx (w : Width) (dst : Gpr) (src : RM) (cnt : Gpr) (s : State) : Host.Outcome State Fault Refusal :=
  run s fun t => t.vexOp t.feat.bmi2 w dst src fun v => (v >>> maskCount w (t.readGpr w cnt).toNat, t.flags)

end Sys2Proof.Machine
end

