-- ==== Sys2Proof/Machine/Segment.lean ====
section
/-! DEFINITION. Loading a data-segment register or SS (43_gp_l_m.md R452), and the control and debug registers as MOV
reads and writes them (51_sys_m_r.md R761, R762). -/

namespace Sys2Proof.Machine

/-- A null selector loaded into a segment register; with NullSelectClearsBase the base and limit are cleared
(43_gp_l_m.md R452, 53_cpuid.md R1032). -/
def State.loadNull (t : State) (n : SegName) (sel : BitVec 16) : State :=
  let r := t.sreg n
  t.setSreg n (if t.feat.nullSelectClearsBase then { r with sel, base := 0, limit := 0 } else { r with sel })

/-- The data segment or readable code segment a selector names, checked for a load (43_gp_l_m.md R452, D23). -/
def State.readDataSeg (t : State) (sel : BitVec 16) : Res SegReg := do
  let d ← t.readDesc (gpSel sel) sel
  let a := descAttr d
  require a.readable (gpSel sel)
  require (a.conforming || (rpl sel ≤ a.dpl && t.cpl ≤ a.dpl)) (gpSel sel)
  require a.p (excSel .np sel)
  .ok (descSeg sel d)

/-- LOAD_SEGREG (43_gp_l_m.md R452). -/
def State.loadSegReg (t : State) (n : SegName) (sel : BitVec 16) : Res State :=
  if !t.protMode then .ok (t.setSreg n ((t.sreg n).loadReal sel))
  else if n = .ss then
    if isNull sel then do
      require (t.mode64 && t.cpl != 3) (gpSel sel)
      .ok (t.loadNull .ss sel)
    else do
      let r ← t.readSs .gp sel t.cpl
      .ok (t.setSreg .ss r)
  else if isNull sel then .ok (t.loadNull n sel)
  else do
    let r ← t.readDataSeg sel
    .ok (t.setSreg n r)

/-- The interrupt shadow of a MOV or POP that loads SS; a shadow is not extended by a second such instruction: `s` is
the state before the instruction (60_exceptions.md R930, D15). -/
def State.openShadow (t s : State) (n : SegName) : State :=
  if n = .ss && s.exec.shadow == .none then { t with exec := { t.exec with shadow := .ss } } else t

/-! ### Control registers -/

/-- The width of MOV CRn and MOV DRn (51_sys_m_r.md R761, R762). -/
def State.crWidth (t : State) : Width := if t.mode64 then .w64 else .w32

/-- The control register a MOV CRn names: LOCK adds 8 to its number (51_sys_m_r.md R761). -/
def State.crNumber (t : State) (lock : Bool) (n : BitVec 4) : Res Nat := do
  require (!lock || t.feat.altMovCr8) ud
  let k := n.toNat + (if lock then 8 else 0)
  require (k == 0 || k == 2 || k == 3 || k == 4 || k == 8) ud
  .ok k

/-- A control register by number (10_state.md R63 to R65). -/
def Control.cr (c : Control) (n : Nat) : Quad :=
  match n with
  | 0 => c.cr0
  | 2 => c.cr2
  | 3 => c.cr3
  | 4 => c.cr4
  | _ => c.cr8

/-- A control register by number replaced; ET of CR0 reads as 1 (10_state.md R63). -/
def Control.setCr (c : Control) (n : Nat) (v : Quad) : Control :=
  match n with
  | 0 => { c with cr0 := v ||| 0x10 }
  | 2 => { c with cr2 := v }
  | 3 => { c with cr3 := v }
  | 4 => { c with cr4 := v }
  | _ => { c with cr8 := v }

/-- EFER after a write of CR0: setting PG with LME set activates long mode, clearing PG ends it (10_state.md R66). -/
def activate (efer cr0 : Quad) : Quad :=
  if cr0.getLsbD 31 && efer.getLsbD 8 then efer ||| 0x400 else efer &&& ~~~(0x400 : Quad)

/-- The checks of a write of CR0 (51_sys_m_r.md R761). -/
def State.checkCr0 (t : State) (v : Quad) : Res Unit := do
  require (v &&& t.cfg.cr0Reserved == 0) gp0
  require (!(v.getLsbD 31 && !v.getLsbD 0)) gp0
  require (!(v.getLsbD 29 && !v.getLsbD 30)) gp0
  require (!(v.getLsbD 31 && !t.pg && t.eferBit 8 && !t.cr4Bit 5)) gp0
  require (!(!v.getLsbD 31 && t.cr4Bit 17)) gp0

/-- CR3_RESERVED_MASK of the current mode (10_state.md R65, D2). -/
def State.cr3Mask (t : State) : Quad := if t.longMode then t.cfg.cr3Reserved else t.cfg.cr3ReservedLegacy

/-- The checks of a write of CR3 (51_sys_m_r.md R761). -/
def State.checkCr3 (t : State) (v : Quad) : Res Unit := require (v &&& t.cr3Mask == 0) gp0

/-- The checks of a write of CR4; PCIDE is tested when the write sets it (51_sys_m_r.md R761). -/
def State.checkCr4 (t : State) (v : Quad) : Res Unit := do
  require (v &&& t.cfg.cr4Reserved == 0) gp0
  require (!(t.longMode && !v.getLsbD 5)) gp0
  require (!(v.getLsbD 17 && !t.cr4Bit 17 && (!t.longMode || t.ctl.cr3.extractLsb' 0 12 != 0))) gp0

/-- The checks of a write of a control register (51_sys_m_r.md R761). -/
def State.checkCr (t : State) (n : Nat) (v : Quad) : Res Unit :=
  match n with
  | 0 => t.checkCr0 v
  | 2 => .ok ()
  | 3 => t.checkCr3 v
  | 4 => t.checkCr4 v
  | _ => require (v &&& t.cfg.cr8Reserved == 0) gp0

/-- The page-directory pointer table of the legacy extended mode is in use and holds reserved bits: a check of the host's
paging (51_sys_m_r.md R761, 20_memory.md R106). -/
def State.badPdpt (t : State) : Bool :=
  t.cfg.paging == .host && t.pg && t.cr4Bit 5 && !t.longMode && Config.pdptReserved t.mem t.pagingRegs

/-- CR0 with its effect on the mode (10_state.md R62, R66). DESIGN CHOICE (log 42): the write completes whatever CS holds, also
with L = 1 and D = 1, which is then neither 64-bit nor compatibility mode. A write that ends 64-bit mode clears rIP[63:32]
(10_state.md R44). -/
def State.setCr0 (t : State) (v : Quad) : State :=
  (t.enterMode { t with ctl := { t.ctl.setCr 0 v with efer := activate t.ctl.efer v } }).clipRip

/-- A control register written, its checks made (51_sys_m_r.md R761). -/
def State.writeCr (t : State) (n : Nat) (v : Quad) : Res State := do
  t.checkCr n v
  let u := if n = 0 then t.setCr0 v else { t with ctl := t.ctl.setCr n v }
  require (!((n == 0 || n == 3 || n == 4) && u.badPdpt)) gp0
  .ok u

/-- MOV from a control register (51_sys_m_r.md R761). -/
def State.movFromCr (t : State) (lock : Bool) (n : BitVec 4) (r : Gpr) : Res State := do
  let k ← t.crNumber lock n
  require (t.cpl == 0) gp0
  .ok (t.writeGpr t.crWidth r (t.ctl.cr k))

/-- MOV to a control register (51_sys_m_r.md R761). -/
def State.movToCr (t : State) (lock : Bool) (n : BitVec 4) (r : Gpr) : Res State := do
  let k ← t.crNumber lock n
  require (t.cpl == 0) gp0
  t.writeCr k (t.readGpr t.crWidth r)

/-! ### Debug registers -/

/-- The debug register a MOV DRn names, its checks made: DR4 and DR5 are DR6 and DR7 when CR4.DE = 0 (51_sys_m_r.md R762,
D39). DESIGN CHOICE (log 45): the #DB of general detect sets no bit of DR6 and leaves DR7.GD set; R762 leaves both to
Volume 2. -/
def State.drNumber (t : State) (n : BitVec 4) : Res Nat := do
  require (n.toNat < 8) ud
  let old45 := n == 4 || n == 5
  require (!(old45 && t.cr4Bit 3)) ud
  require (t.cpl == 0) gp0
  require (!t.dbg.dr7.getLsbD 13) (.exc { name := .db })
  .ok (if old45 then n.toNat + 2 else n.toNat)

/-- A debug register by number (10_state.md R68). -/
def Debug.dr (d : Debug) (n : Nat) : Quad :=
  match n with
  | 0 => d.dr0
  | 1 => d.dr1
  | 2 => d.dr2
  | 3 => d.dr3
  | 6 => d.dr6
  | _ => d.dr7

/-- A debug register by number replaced. -/
def Debug.setDr (d : Debug) (n : Nat) (v : Quad) : Debug :=
  match n with
  | 0 => { d with dr0 := v }
  | 1 => { d with dr1 := v }
  | 2 => { d with dr2 := v }
  | 3 => { d with dr3 := v }
  | 6 => { d with dr6 := v }
  | _ => { d with dr7 := v }

/-- MOV from a debug register (51_sys_m_r.md R762). -/
def State.movFromDr (t : State) (n : BitVec 4) (r : Gpr) : Res State := do
  let k ← t.drNumber n
  .ok (t.writeGpr t.crWidth r (t.dbg.dr k))

/-- MOV to a debug register (51_sys_m_r.md R762). -/
def State.movToDr (t : State) (n : BitVec 4) (r : Gpr) : Res State := do
  let k ← t.drNumber n
  let v := t.readGpr t.crWidth r
  require (!(t.mode64 && (k == 6 || k == 7) && v.extractLsb' 32 32 != 0)) gp0
  .ok { t with dbg := t.dbg.setDr k v }

end Sys2Proof.Machine
end

