-- ==== Sys2Proof/Machine/Move.lean ====
section
/-! DEFINITION. Data movement: moves, conditional moves and sets, exchanges, far-pointer loads, vector containers, bases,
processor identification and random numbers, fences, cache lines and no-operations (41_gp_c.md R358 to R366, 43_gp_l_m.md
R450 to R482, 44_gp_n_p.md R511 to R528, 45_gp_r_s.md R563 to R567, R576 to R591, 46_gp_t_x.md R635 to R638). -/

namespace Sys2Proof.Machine

/-! ### MOV -/

/-- MOV from a segment register: a memory destination has 16 bits (43_gp_l_m.md R470). -/
def State.movFromSeg (t : State) (w : Width) (rm : RM) (n : SegName) : Res State :=
  match rm with
  | .reg g => .ok (t.writeGReg w g ((t.sreg n).sel.setWidth 64))
  | .mem m => t.writeM m 2 ((t.sreg n).sel.setWidth 64)

/-- MOV to a segment register; CS cannot be loaded (43_gp_l_m.md R470). -/
def State.movToSeg (t s : State) (n : SegName) (rm : RM) : Res State := do
  require (n != .cs) ud
  let v ← t.readRM .w16 rm
  let u ← t.loadSegReg n (v.setWidth 16)
  .ok (u.openShadow s n)

/-- MOV (43_gp_l_m.md R470, 51_sys_m_r.md R761, R762). -/
def execMov (f : MovForm) (s : State) : Host.Outcome State Fault Refusal :=
  run s fun t =>
    match f with
    | .rmReg w rm r => t.writeRM w rm (t.readGReg w r)
    | .regRm w r rm => do
      let v ← t.readRM w rm
      .ok (t.writeGReg w r v)
    | .rmImm w rm imm => t.writeRM w rm imm
    | .load w seg asz off => do
      let v ← t.readMem seg (trunc (addrWidth asz) off) w.bytes
      .ok (t.writeGpr w .rax v)
    | .store w seg asz off => t.writeMem seg (trunc (addrWidth asz) off) w.bytes (t.readGpr w .rax)
    | .fromSeg w rm n => t.movFromSeg w rm n
    | .toSeg n rm => t.movToSeg s n rm
    | .fromCr lock n r => t.movFromCr lock n r
    | .toCr lock n r => t.movToCr lock n r
    | .fromDr n r => t.movFromDr n r
    | .toDr n r => t.movToDr n r

/-- MOVBE (43_gp_l_m.md R471). -/
def execMovbe (w : Width) (f : MovbeForm) (s : State) : Host.Outcome State Fault Refusal :=
  run s fun t => do
    require t.feat.movbe ud
    match f with
    | .load dst m => do
      let v ← t.readM m w.bytes
      .ok (t.writeGpr w dst (byteSwap w v))
    | .store m src => t.writeM m w.bytes (byteSwap w (t.readGpr w src))

/-- MOVNTI: an ordinary store for the executing processor (43_gp_l_m.md R475, 20_memory.md R141). -/
def execMovnti (w : Width) (m : Mem) (r : Gpr) (s : State) : Host.Outcome State Fault Refusal :=
  run s fun t => do
    require t.feat.sse2 ud
    t.writeM m w.bytes (t.readGpr w r)

/-- MOVSX (43_gp_l_m.md R477). -/
def execMovsx (w sw : Width) (dst : Gpr) (src : RM) (s : State) : Host.Outcome State Fault Refusal :=
  run s fun t => do
    let v ← t.readRM sw src
    .ok (t.writeGpr w dst (sext sw v))

/-- MOVSXD: the source has the operand size, at most 32 bits (43_gp_l_m.md R478). -/
def execMovsxd (w : Width) (dst : Gpr) (src : RM) (s : State) : Host.Outcome State Fault Refusal :=
  run s fun t => do
    let sw := if w = .w16 then .w16 else .w32
    let v ← t.readRM sw src
    .ok (t.writeGpr w dst (sext sw v))

/-- MOVZX (43_gp_l_m.md R479). -/
def execMovzx (w sw : Width) (dst : Gpr) (src : RM) (s : State) : Host.Outcome State Fault Refusal :=
  run s fun t => do
    let v ← t.readRM sw src
    .ok (t.writeGpr w dst v)

/-- XCHG: a memory operand is locked with or without the prefix (46_gp_t_x.md R637). -/
def execXchg (w : Width) (rm : RM) (r : GReg) (lock : Bool) (s : State) : Host.Outcome State Fault Refusal :=
  run s fun t => do
    checkLock lock rm
    let p ← t.place w true rm
    .ok ((t.putAt w p (t.readGReg w r)).writeGReg w r (t.getAt w p))

/-- XLAT (46_gp_t_x.md R638). -/
def execXlat (seg : SegName) (asz : ASize) (s : State) : Host.Outcome State Fault Refusal :=
  run s fun t => do
    let v ← t.readMem seg (trunc (addrWidth asz) (t.gpr.rbx + t.readGpr .w8 .rax)) 1
    .ok (t.writeGpr .w8 .rax v)

/-- LEA (43_gp_l_m.md R453). -/
def execLea (w : Width) (dst : Gpr) (m : Mem) (s : State) : Host.Outcome State Fault Refusal :=
  run s fun t => .ok (t.writeGpr w dst (t.ea m))

/-! ### Far pointers -/

/-- The offset size z of a far pointer (43_gp_l_m.md R451). -/
def zWidth (w : Width) : Width := if w = .w16 then .w16 else .w32

/-- A far pointer in memory: the offset, then the selector (43_gp_l_m.md R451, 42_gp_d_j.md R421). DEDUCED (log 53): with a 64-bit
operand size the offset has 32 bits, as R351, R421 and R451 say, where the cross-check R275 names 64. -/
def State.readFar (t : State) (w : Width) (m : Mem) : Res (Quad × BitVec 16) := do
  let off ← t.readM m (zWidth w).bytes
  let sel ← t.readMem m.seg (t.ea m + BitVec.ofNat 64 (zWidth w).bytes) 2
  .ok (off, sel.setWidth 16)

/-- A far pointer loaded into a segment register and a general register (43_gp_l_m.md R451). -/
def State.loadFar (t : State) (w : Width) (n : SegName) (dst : Gpr) (m : Mem) : Res State := do
  let (off, sel) ← t.readFar w m
  let u ← t.loadSegReg n sel
  .ok (u.writeGpr (zWidth w) dst off)

/-- LDS (43_gp_l_m.md R451). -/
def execLds (w : Width) (dst : Gpr) (m : Mem) (s : State) : Host.Outcome State Fault Refusal :=
  run s fun t => do
    require (!t.mode64) ud
    t.loadFar w .ds dst m

/-- LES (43_gp_l_m.md R451). -/
def execLes (w : Width) (dst : Gpr) (m : Mem) (s : State) : Host.Outcome State Fault Refusal :=
  run s fun t => do
    require (!t.mode64) ud
    t.loadFar w .es dst m

/-- LFS (43_gp_l_m.md R451). -/
def execLfs (w : Width) (dst : Gpr) (m : Mem) (s : State) : Host.Outcome State Fault Refusal :=
  run s fun t => t.loadFar w .fs dst m

/-- LGS (43_gp_l_m.md R451). -/
def execLgs (w : Width) (dst : Gpr) (m : Mem) (s : State) : Host.Outcome State Fault Refusal :=
  run s fun t => t.loadFar w .gs dst m

/-- LSS: no interrupt shadow (43_gp_l_m.md R451, D15). -/
def execLss (w : Width) (dst : Gpr) (m : Mem) (s : State) : Host.Outcome State Fault Refusal :=
  run s fun t => t.loadFar w .ss dst m

/-! ### Conditional moves and sets -/

/-- CMOVcc: the source is read whether or not the condition holds, and a 32-bit form in 64-bit mode clears the upper half
in both cases (41_gp_c.md R366, D20). -/
def State.cmov (t : State) (c : Cond) (w : Width) (dst : Gpr) (src : RM) : Res State := do
  require t.feat.cmov ud
  let v ← t.readRM w src
  .ok (if t.flags.cond c then t.writeGpr w dst v
    else if w = .w32 && t.mode64 then t.writeGpr .w32 dst (t.readGpr .w32 dst)
    else t)

/-- SETcc: the byte is written in both cases (45_gp_r_s.md R582). -/
def State.setcc (t : State) (c : Cond) (rm : RM) : Res State := t.writeRM .w8 rm (bit (t.flags.cond c))

/-- CMOVcc (41_gp_c.md R366). -/
def execCmovo (w : Width) (dst : Gpr) (src : RM) (s : State) : Host.Outcome State Fault Refusal :=
  run s fun t => t.cmov .o w dst src

/-- CMOVcc (41_gp_c.md R366). -/
def execCmovno (w : Width) (dst : Gpr) (src : RM) (s : State) : Host.Outcome State Fault Refusal :=
  run s fun t => t.cmov .no w dst src

/-- CMOVcc (41_gp_c.md R366). -/
def execCmovb (w : Width) (dst : Gpr) (src : RM) (s : State) : Host.Outcome State Fault Refusal :=
  run s fun t => t.cmov .b w dst src

/-- CMOVcc (41_gp_c.md R366). -/
def execCmovnb (w : Width) (dst : Gpr) (src : RM) (s : State) : Host.Outcome State Fault Refusal :=
  run s fun t => t.cmov .nb w dst src

/-- CMOVcc (41_gp_c.md R366). -/
def execCmovz (w : Width) (dst : Gpr) (src : RM) (s : State) : Host.Outcome State Fault Refusal :=
  run s fun t => t.cmov .z w dst src

/-- CMOVcc (41_gp_c.md R366). -/
def execCmovnz (w : Width) (dst : Gpr) (src : RM) (s : State) : Host.Outcome State Fault Refusal :=
  run s fun t => t.cmov .nz w dst src

/-- CMOVcc (41_gp_c.md R366). -/
def execCmovbe (w : Width) (dst : Gpr) (src : RM) (s : State) : Host.Outcome State Fault Refusal :=
  run s fun t => t.cmov .be w dst src

/-- CMOVcc (41_gp_c.md R366). -/
def execCmovnbe (w : Width) (dst : Gpr) (src : RM) (s : State) : Host.Outcome State Fault Refusal :=
  run s fun t => t.cmov .nbe w dst src

/-- CMOVcc (41_gp_c.md R366). -/
def execCmovs (w : Width) (dst : Gpr) (src : RM) (s : State) : Host.Outcome State Fault Refusal :=
  run s fun t => t.cmov .s w dst src

/-- CMOVcc (41_gp_c.md R366). -/
def execCmovns (w : Width) (dst : Gpr) (src : RM) (s : State) : Host.Outcome State Fault Refusal :=
  run s fun t => t.cmov .ns w dst src

/-- CMOVcc (41_gp_c.md R366). -/
def execCmovp (w : Width) (dst : Gpr) (src : RM) (s : State) : Host.Outcome State Fault Refusal :=
  run s fun t => t.cmov .p w dst src

/-- CMOVcc (41_gp_c.md R366). -/
def execCmovnp (w : Width) (dst : Gpr) (src : RM) (s : State) : Host.Outcome State Fault Refusal :=
  run s fun t => t.cmov .np w dst src

/-- CMOVcc (41_gp_c.md R366). -/
def execCmovl (w : Width) (dst : Gpr) (src : RM) (s : State) : Host.Outcome State Fault Refusal :=
  run s fun t => t.cmov .l w dst src

/-- CMOVcc (41_gp_c.md R366). -/
def execCmovnl (w : Width) (dst : Gpr) (src : RM) (s : State) : Host.Outcome State Fault Refusal :=
  run s fun t => t.cmov .nl w dst src

/-- CMOVcc (41_gp_c.md R366). -/
def execCmovle (w : Width) (dst : Gpr) (src : RM) (s : State) : Host.Outcome State Fault Refusal :=
  run s fun t => t.cmov .le w dst src

/-- CMOVcc (41_gp_c.md R366). -/
def execCmovnle (w : Width) (dst : Gpr) (src : RM) (s : State) : Host.Outcome State Fault Refusal :=
  run s fun t => t.cmov .nle w dst src

/-- SETcc (45_gp_r_s.md R582). -/
def execSeto (rm : RM) (s : State) : Host.Outcome State Fault Refusal :=
  run s fun t => t.setcc .o rm

/-- SETcc (45_gp_r_s.md R582). -/
def execSetno (rm : RM) (s : State) : Host.Outcome State Fault Refusal :=
  run s fun t => t.setcc .no rm

/-- SETcc (45_gp_r_s.md R582). -/
def execSetb (rm : RM) (s : State) : Host.Outcome State Fault Refusal :=
  run s fun t => t.setcc .b rm

/-- SETcc (45_gp_r_s.md R582). -/
def execSetnb (rm : RM) (s : State) : Host.Outcome State Fault Refusal :=
  run s fun t => t.setcc .nb rm

/-- SETcc (45_gp_r_s.md R582). -/
def execSetz (rm : RM) (s : State) : Host.Outcome State Fault Refusal :=
  run s fun t => t.setcc .z rm

/-- SETcc (45_gp_r_s.md R582). -/
def execSetnz (rm : RM) (s : State) : Host.Outcome State Fault Refusal :=
  run s fun t => t.setcc .nz rm

/-- SETcc (45_gp_r_s.md R582). -/
def execSetbe (rm : RM) (s : State) : Host.Outcome State Fault Refusal :=
  run s fun t => t.setcc .be rm

/-- SETcc (45_gp_r_s.md R582). -/
def execSetnbe (rm : RM) (s : State) : Host.Outcome State Fault Refusal :=
  run s fun t => t.setcc .nbe rm

/-- SETcc (45_gp_r_s.md R582). -/
def execSets (rm : RM) (s : State) : Host.Outcome State Fault Refusal :=
  run s fun t => t.setcc .s rm

/-- SETcc (45_gp_r_s.md R582). -/
def execSetns (rm : RM) (s : State) : Host.Outcome State Fault Refusal :=
  run s fun t => t.setcc .ns rm

/-- SETcc (45_gp_r_s.md R582). -/
def execSetp (rm : RM) (s : State) : Host.Outcome State Fault Refusal :=
  run s fun t => t.setcc .p rm

/-- SETcc (45_gp_r_s.md R582). -/
def execSetnp (rm : RM) (s : State) : Host.Outcome State Fault Refusal :=
  run s fun t => t.setcc .np rm

/-- SETcc (45_gp_r_s.md R582). -/
def execSetl (rm : RM) (s : State) : Host.Outcome State Fault Refusal :=
  run s fun t => t.setcc .l rm

/-- SETcc (45_gp_r_s.md R582). -/
def execSetnl (rm : RM) (s : State) : Host.Outcome State Fault Refusal :=
  run s fun t => t.setcc .nl rm

/-- SETcc (45_gp_r_s.md R582). -/
def execSetle (rm : RM) (s : State) : Host.Outcome State Fault Refusal :=
  run s fun t => t.setcc .le rm

/-- SETcc (45_gp_r_s.md R582). -/
def execSetnle (rm : RM) (s : State) : Host.Outcome State Fault Refusal :=
  run s fun t => t.setcc .nle rm

/-! ### Vector containers -/

/-- #MF (60_exceptions.md R902). -/
def mf : Trap := .exc { name := .mf }

/-- The checks of an XMM form (43_gp_l_m.md R472 to R474). -/
def State.checkXmm (t : State) : Res Unit := do
  require (t.feat.sse2 && !t.ctl.cr0.getLsbD 2 && t.cr4Bit 9) ud
  require (!t.ctl.cr0.getLsbD 3) nm

/-- The checks of an MMX form (43_gp_l_m.md R472). PRESUMED (log 43): the spec names no bit for a pending x87 exception, and the
model takes ES, bit 7 of the x87 status word, whatever CR0.NE. -/
def State.checkMmx (t : State) : Res Unit := do
  require (t.feat.mmx && !t.ctl.cr0.getLsbD 2) ud
  require (!t.ctl.cr0.getLsbD 3) nm
  require (!t.media.fsw.getLsbD 7) mf

/-- The 256 bits of a vector register (10_state.md R80). -/
def State.ymm (t : State) (x : XmmNum) : BitVec 256 := t.media.ymm[x.toNat]

/-- An XMM register written by a legacy-encoded instruction: bits 255:128 are unchanged (10_state.md R80). -/
def State.setXmm (t : State) (x : XmmNum) (v : BitVec 128) : State :=
  let old := t.ymm x
  { t with media := { t.media with ymm := t.media.ymm.set x.toNat (old.extractLsb' 128 128 ++ v) } }

/-- A 64-bit media instruction writes the x87 tag word; its value is not stated: free, slot 17 (10_state.md R80, log
15). -/
def State.touchTags (t : State) : State :=
  { t with media := { t.media with ftw := Config.freeBits t.freeCount 17 16 } }

/-- The 64 bits of an MMX register (10_state.md R80). -/
def State.mmx (t : State) (x : BitVec 3) : Quad := (t.media.fpr[x.toNat]).extractLsb' 0 64

/-- An MMX register written; bits 79:64 of the x87 register it lies in are not stated: free, slot 18 (10_state.md R80,
log 15). -/
def State.setMmx (t : State) (x : BitVec 3) (v : Quad) : State :=
  let hi : BitVec 16 := Config.freeBits t.freeCount 18 16
  { t with media := { t.media with fpr := t.media.fpr.set x.toNat (hi ++ v) } }

/-- The width of MOVD (43_gp_l_m.md R472). -/
def movdWidth (wide : Bool) : Width := if wide then .w64 else .w32

/-- MOVD (43_gp_l_m.md R472). -/
def execMovd (wide : Bool) (f : MovdForm) (s : State) : Host.Outcome State Fault Refusal :=
  run s fun t =>
    let w := movdWidth wide
    match f with
    | .toXmm x src => do
      t.checkXmm
      let v ← t.readRM w src
      .ok (t.setXmm x (v.setWidth 128))
    | .fromXmm dst x => do
      t.checkXmm
      t.writeRM w dst (trunc w ((t.ymm x).extractLsb' 0 64))
    | .toMmx x src => do
      t.checkMmx
      let v ← t.readRM w src
      .ok (t.touchTags.setMmx x v)
    | .fromMmx dst x => do
      t.checkMmx
      t.touchTags.writeRM w dst (trunc w (t.mmx x))

/-- A bit of a vector register as an integer bit of a mask. -/
def maskBit (v : BitVec 256) (src dst : Nat) : Quad := flagBit (v.getLsbD src) dst

/-- MOVMSKPD (43_gp_l_m.md R473). -/
def execMovmskpd (dst : Gpr) (x : XmmNum) (s : State) : Host.Outcome State Fault Refusal :=
  run s fun t => do
    t.checkXmm
    let v := t.ymm x
    .ok (t.writeGpr .w32 dst (maskBit v 63 0 ||| maskBit v 127 1))

/-- MOVMSKPS (43_gp_l_m.md R474). -/
def execMovmskps (dst : Gpr) (x : XmmNum) (s : State) : Host.Outcome State Fault Refusal :=
  run s fun t => do
    t.checkXmm
    let v := t.ymm x
    .ok (t.writeGpr .w32 dst (maskBit v 31 0 ||| maskBit v 63 1 ||| maskBit v 95 2 ||| maskBit v 127 3))

/-! ### Flags -/

/-- CLC (41_gp_c.md R358). -/
def execClc (s : State) : Host.Outcome State Fault Refusal := run s fun t => .ok (t.setFlags { t.flags with cf := false })

/-- STC (45_gp_r_s.md R590). -/
def execStc (s : State) : Host.Outcome State Fault Refusal := run s fun t => .ok (t.setFlags { t.flags with cf := true })

/-- CMC (41_gp_c.md R364). -/
def execCmc (s : State) : Host.Outcome State Fault Refusal :=
  run s fun t => .ok (t.setFlags { t.flags with cf := !t.flags.cf })

/-- CLD (41_gp_c.md R359). -/
def execCld (s : State) : Host.Outcome State Fault Refusal := run s fun t => .ok (t.setFlags { t.flags with df := false })

/-- STD (45_gp_r_s.md R591). -/
def execStd (s : State) : Host.Outcome State Fault Refusal := run s fun t => .ok (t.setFlags { t.flags with df := true })

/-- AH as a register operand (10_state.md R42). -/
def ahReg : GReg := { r := .rax, high := true }

/-- LAHF: the low byte of rFLAGS in AH (43_gp_l_m.md R450). -/
def execLahf (s : State) : Host.Outcome State Fault Refusal :=
  run s fun t => do
    require (!t.mode64 || t.feat.lahfSahf) ud
    .ok (t.writeGReg .w8 ahReg t.flags.toBits)

/-- SAHF (45_gp_r_s.md R576). -/
def execSahf (s : State) : Host.Outcome State Fault Refusal :=
  run s fun t => do
    require (!t.mode64 || t.feat.lahfSahf) ud
    let n := Flags.ofBits (t.readGReg .w8 ahReg)
    .ok (t.setFlags { t.flags with sf := n.sf, zf := n.zf, af := n.af, pf := n.pf, cf := n.cf })

/-! ### Bases, identification, random numbers -/

/-- The checks of the FS and GS base instructions (45_gp_r_s.md R563, 46_gp_t_x.md R635). -/
def State.checkFsgs (t : State) : Res Unit := require (t.mode64 && t.feat.fsgsbase && t.cr4Bit 16) ud

/-- The base of a segment register replaced (10_state.md R70). -/
def State.setBase (t : State) (n : SegName) (v : Quad) : State := t.setSreg n { t.sreg n with base := v }

/-- WRFSBASE and WRGSBASE: a 32-bit form clears the upper half (46_gp_t_x.md R635, D31). -/
def State.writeBase (t : State) (w : Width) (n : SegName) (r : Gpr) : Res State := do
  t.checkFsgs
  require (w != .w64 || t.canonical (t.reg r)) gp0
  .ok (t.setBase n (t.readGpr w r))

/-- RDFSBASE (45_gp_r_s.md R563). -/
def execRdfsbase (w : Width) (r : Gpr) (s : State) : Host.Outcome State Fault Refusal :=
  run s fun t => do
    t.checkFsgs
    .ok (t.writeGpr w r t.seg.fs.base)

/-- RDGSBASE (45_gp_r_s.md R563). -/
def execRdgsbase (w : Width) (r : Gpr) (s : State) : Host.Outcome State Fault Refusal :=
  run s fun t => do
    t.checkFsgs
    .ok (t.writeGpr w r t.seg.gs.base)

/-- WRFSBASE (46_gp_t_x.md R635). -/
def execWrfsbase (w : Width) (r : Gpr) (s : State) : Host.Outcome State Fault Refusal :=
  run s fun t => t.writeBase w .fs r

/-- WRGSBASE (46_gp_t_x.md R635). -/
def execWrgsbase (w : Width) (r : Gpr) (s : State) : Host.Outcome State Fault Refusal :=
  run s fun t => t.writeBase w .gs r

/-- RDPID (45_gp_r_s.md R564). -/
def execRdpid (r : Gpr) (s : State) : Host.Outcome State Fault Refusal :=
  run s fun t => do
    require t.feat.rdpid ud
    .ok (t.writeGpr t.crWidth r (trunc .w32 t.msr.tscAux))

/-- A value in EDX:EAX (10_state.md R45). -/
def State.setEdxEax (t : State) (v : Quad) : State :=
  (t.writeGpr .w32 .rax v).writeGpr .w32 .rdx (v >>> 32)

/-- A performance register: its own value, or the host's (10_state.md R73, 93_implementation_defined.md P9). -/
def State.perfValue (t : State) (index : Nat) (own : Quad) : Quad :=
  match t.cfg.perf with
  | .default => own
  | .host => Config.perf t.freeCount index

/-- RDPRU: CF is free (45_gp_r_s.md R565, 93_implementation_defined.md U3). -/
def execRdpru (s : State) : Host.Outcome State Fault Refusal :=
  run s fun t => do
    require t.feat.rdpru ud
    require (!(t.cpl != 0 && t.cr4Bit 2)) ud
    let c := t.readGpr .w32 .rcx
    let v := if c == 0 then t.perfValue 0 t.msr.mperf
      else if c == 1 && 1 ≤ t.cfg.maxRdpruId.toNat then t.perfValue 1 t.msr.aperf else 0
    let f := { t.flags with of := false, sf := false, zf := false, af := false, pf := false }
    .ok ((t.setEdxEax v).setFlags (f.undefine t.freeCount [.cf]))

/-- The random source (93_implementation_defined.md P8). -/
def State.randomValue (t : State) (w : Width) : Option Quad :=
  match t.cfg.random with
  | .default => none
  | .host => Config.random t.freeCount w.bits

/-- RDRAND and RDSEED; `fail` is written when there is no value (45_gp_r_s.md R566, R567). -/
def State.randomInto (t : State) (w : Width) (r : Gpr) (fail : Quad) : State :=
  let f (ok : Bool) : Flags := { t.flags with of := false, sf := false, zf := false, af := false, pf := false, cf := ok }
  match t.randomValue w with
  | some v => t.finish w r v (f true)
  | none => t.finish w r fail (f false)

/-- RDRAND: without a value the destination is free (45_gp_r_s.md R566, 93_implementation_defined.md U5). -/
def execRdrand (w : Width) (r : Gpr) (s : State) : Host.Outcome State Fault Refusal :=
  run s fun t => do
    require t.feat.rdrand ud
    .ok (t.randomInto w r t.freeResult)

/-- RDSEED: without a value the destination is 0 (45_gp_r_s.md R567). -/
def execRdseed (w : Width) (r : Gpr) (s : State) : Host.Outcome State Fault Refusal :=
  run s fun t => do
    require t.feat.rdseed ud
    .ok (t.randomInto w r 0)

/-! ### No-operations, fences, cache lines, monitors -/

/-- NOP: the operand is not accessed (44_gp_n_p.md R511). -/
def execNop (_rm : Option RM) (s : State) : Host.Outcome State Fault Refusal := run s fun t => .ok t

/-- PAUSE (44_gp_n_p.md R516). -/
def execPause (s : State) : Host.Outcome State Fault Refusal := run s fun t => .ok t

/-- PREFETCH and PREFETCHW exist when one of three features does (44_gp_n_p.md R527). -/
def State.checkPrefetch (t : State) : Res Unit := require (t.feat.prefetch || t.feat.lm || t.feat.threeDNow) ud

/-- PREFETCH: a hint (44_gp_n_p.md R527). -/
def execPrefetch (_m : Mem) (s : State) : Host.Outcome State Fault Refusal :=
  run s fun t => do
    t.checkPrefetch
    .ok t

/-- PREFETCHW: a hint (44_gp_n_p.md R527). -/
def execPrefetchw (_m : Mem) (s : State) : Host.Outcome State Fault Refusal :=
  run s fun t => do
    t.checkPrefetch
    .ok t

/-- PREFETCHNTA: a hint (44_gp_n_p.md R528). -/
def execPrefetchnta (_m : Mem) (s : State) : Host.Outcome State Fault Refusal := run s fun t => .ok t

/-- PREFETCHT0: a hint (44_gp_n_p.md R528). -/
def execPrefetcht0 (_m : Mem) (s : State) : Host.Outcome State Fault Refusal := run s fun t => .ok t

/-- PREFETCHT1: a hint (44_gp_n_p.md R528). -/
def execPrefetcht1 (_m : Mem) (s : State) : Host.Outcome State Fault Refusal := run s fun t => .ok t

/-- PREFETCHT2: a hint (44_gp_n_p.md R528). -/
def execPrefetcht2 (_m : Mem) (s : State) : Host.Outcome State Fault Refusal := run s fun t => .ok t

/-- LFENCE: every access of one processor is visible at once (43_gp_l_m.md R455, 20_memory.md R140). -/
def execLfence (s : State) : Host.Outcome State Fault Refusal :=
  run s fun t => do
    require t.feat.sse2 ud
    .ok t

/-- MFENCE (43_gp_l_m.md R463, 20_memory.md R140). -/
def execMfence (s : State) : Host.Outcome State Fault Refusal :=
  run s fun t => do
    require t.feat.sse2 ud
    .ok t

/-- SFENCE: #UD needs both SSE and the AMD extensions to MMX (MmxExt, absent here) clear (45_gp_r_s.md R583,
20_memory.md R140). -/
def execSfence (s : State) : Host.Outcome State Fault Refusal :=
  run s fun t => do
    require (t.feat.sse || t.feat.mmxExt) ud
    .ok t

/-- MCOMMIT (43_gp_l_m.md R462, 93_implementation_defined.md P7). -/
def execMcommit (s : State) : Host.Outcome State Fault Refusal :=
  run s fun t => do
    require (t.feat.mcommit && t.eferBit 17) ud
    let err := match t.cfg.mcommitError with
      | .default => false
      | .host => Config.mcommitError t.freeCount
    .ok (t.setFlags { t.flags with of := false, sf := false, zf := false, af := false, pf := false, cf := !err })

/-- The checks of a cache-line instruction: those of a 1-byte read, but an execute-only segment is allowed
(41_gp_c.md R360). -/
def State.checkLine (t : State) (m : Mem) : Res Unit := do
  let off := t.ea m
  let bad := segFault m.seg
  if t.mode64 then require (t.canonical off) bad
  else do
    require (!(t.protMode && isNull (t.sreg m.seg).sel)) gp0
    require ((t.sreg m.seg).inLimit off 1) bad
  let _ ← t.span (t.dataAccess .read 1) t.wrap32 (t.linear m.seg off)
  .ok ()

/-- CLFLUSH: no effect on memory without caches (41_gp_c.md R360, 20_memory.md R142). -/
def execClflush (m : Mem) (s : State) : Host.Outcome State Fault Refusal :=
  run s fun t => do
    require t.feat.clfsh ud
    t.checkLine m
    .ok t

/-- CLFLUSHOPT (41_gp_c.md R361). -/
def execClflushopt (m : Mem) (s : State) : Host.Outcome State Fault Refusal :=
  run s fun t => do
    require (t.feat.clflushopt && t.feat.clfsh) ud
    t.checkLine m
    .ok t

/-- CLWB (41_gp_c.md R362). -/
def execClwb (m : Mem) (s : State) : Host.Outcome State Fault Refusal :=
  run s fun t => do
    require t.feat.clwb ud
    t.checkLine m
    .ok t

/-- An address rounded down to a multiple of a size. -/
def roundDown (a : Quad) (size : Nat) : Quad := BitVec.ofNat 64 (a.toNat / size * size)

/-- CLZERO (41_gp_c.md R363). -/
def execClzero (seg : SegName) (asz : ASize) (s : State) : Host.Outcome State Fault Refusal :=
  run s fun t => do
    require t.feat.clzero ud
    let base := roundDown (t.readGpr (addrWidth asz) .rax) t.cfg.cacheLine
    let ps ← t.access seg base t.cfg.cacheLine true
    .ok (t.storeAt ps 0)

/-- The monitor armed on the line that holds seg:rAX, checked as a 1-byte read (51_sys_m_r.md R760, 43_gp_l_m.md
R464). -/
def State.armMonitor (t : State) (seg : SegName) (asz : ASize) : Res State := do
  let off := t.readGpr (addrWidth asz) .rax
  let _ ← t.access seg off 1 false
  let addr := roundDown (t.linear seg off) t.cfg.monitorLine
  .ok { t with exec := { t.exec with monitor := { armed := true, addr } } }

/-- MONITORX (43_gp_l_m.md R464). -/
def execMonitorx (seg : SegName) (asz : ASize) (s : State) : Host.Outcome State Fault Refusal :=
  run s fun t => do
    require t.feat.monitorx ud
    require (t.readGpr .w32 .rcx == 0) gp0
    t.armMonitor seg asz

/-- MWAITX: the wait ends at once (43_gp_l_m.md R482, 60_exceptions.md R933). -/
def execMwaitx (s : State) : Host.Outcome State Fault Refusal :=
  run s fun t => do
    require t.feat.monitorx ud
    require ((t.readGpr .w32 .rcx) >>> 2 == 0) gp0
    .ok t.disarm

end Sys2Proof.Machine
end

