-- ==== Sys2Proof/Machine/Control.lean ====
section
/-! DEFINITION. Control transfers: jumps, calls, returns, software interrupts and IRET (41_gp_c.md R350 to R355,
42_gp_d_j.md R410 to R424, 45_gp_r_s.md R568 to R572, 50_sys_a_l.md R709, R715). -/

namespace Sys2Proof.Machine

/-! ### Near transfers -/

/-- The target of a relative transfer: rIP_next plus the displacement, truncated to the operand size (42_gp_d_j.md R418).
In a body rIP is rIP_next. -/
def State.relTarget (t : State) (w : Width) (rel : Quad) : Quad := trunc w (t.rip + rel)

/-- A near transfer to a target that lies in the code segment or is canonical (42_gp_d_j.md R418). -/
def State.jumpTo (t : State) (target : Quad) : Res State := do
  t.checkTarget target
  .ok (t.setRip target)

/-- A relative jump taken when `c` holds (42_gp_d_j.md R418). -/
def State.jumpIf (t : State) (c : Bool) (w : Width) (rel : Quad) : Res State :=
  if c then t.jumpTo (t.relTarget w rel) else .ok t

/-- Jcc (42_gp_d_j.md R418). -/
def State.jcc (t : State) (c : Cond) (w : Width) (rel : Quad) : Res State := t.jumpIf (t.flags.cond c) w rel

/-- Jcc (42_gp_d_j.md R418). -/
def execJo (w : Width) (rel : BitVec 64) (s : State) : Host.Outcome State Fault Refusal :=
  run s fun t => t.jcc .o w rel

/-- Jcc (42_gp_d_j.md R418). -/
def execJno (w : Width) (rel : BitVec 64) (s : State) : Host.Outcome State Fault Refusal :=
  run s fun t => t.jcc .no w rel

/-- Jcc (42_gp_d_j.md R418). -/
def execJb (w : Width) (rel : BitVec 64) (s : State) : Host.Outcome State Fault Refusal :=
  run s fun t => t.jcc .b w rel

/-- Jcc (42_gp_d_j.md R418). -/
def execJnb (w : Width) (rel : BitVec 64) (s : State) : Host.Outcome State Fault Refusal :=
  run s fun t => t.jcc .nb w rel

/-- Jcc (42_gp_d_j.md R418). -/
def execJz (w : Width) (rel : BitVec 64) (s : State) : Host.Outcome State Fault Refusal :=
  run s fun t => t.jcc .z w rel

/-- Jcc (42_gp_d_j.md R418). -/
def execJnz (w : Width) (rel : BitVec 64) (s : State) : Host.Outcome State Fault Refusal :=
  run s fun t => t.jcc .nz w rel

/-- Jcc (42_gp_d_j.md R418). -/
def execJbe (w : Width) (rel : BitVec 64) (s : State) : Host.Outcome State Fault Refusal :=
  run s fun t => t.jcc .be w rel

/-- Jcc (42_gp_d_j.md R418). -/
def execJnbe (w : Width) (rel : BitVec 64) (s : State) : Host.Outcome State Fault Refusal :=
  run s fun t => t.jcc .nbe w rel

/-- Jcc (42_gp_d_j.md R418). -/
def execJs (w : Width) (rel : BitVec 64) (s : State) : Host.Outcome State Fault Refusal :=
  run s fun t => t.jcc .s w rel

/-- Jcc (42_gp_d_j.md R418). -/
def execJns (w : Width) (rel : BitVec 64) (s : State) : Host.Outcome State Fault Refusal :=
  run s fun t => t.jcc .ns w rel

/-- Jcc (42_gp_d_j.md R418). -/
def execJp (w : Width) (rel : BitVec 64) (s : State) : Host.Outcome State Fault Refusal :=
  run s fun t => t.jcc .p w rel

/-- Jcc (42_gp_d_j.md R418). -/
def execJnp (w : Width) (rel : BitVec 64) (s : State) : Host.Outcome State Fault Refusal :=
  run s fun t => t.jcc .np w rel

/-- Jcc (42_gp_d_j.md R418). -/
def execJl (w : Width) (rel : BitVec 64) (s : State) : Host.Outcome State Fault Refusal :=
  run s fun t => t.jcc .l w rel

/-- Jcc (42_gp_d_j.md R418). -/
def execJnl (w : Width) (rel : BitVec 64) (s : State) : Host.Outcome State Fault Refusal :=
  run s fun t => t.jcc .nl w rel

/-- Jcc (42_gp_d_j.md R418). -/
def execJle (w : Width) (rel : BitVec 64) (s : State) : Host.Outcome State Fault Refusal :=
  run s fun t => t.jcc .le w rel

/-- Jcc (42_gp_d_j.md R418). -/
def execJnle (w : Width) (rel : BitVec 64) (s : State) : Host.Outcome State Fault Refusal :=
  run s fun t => t.jcc .nle w rel

/-- JCXZ (42_gp_d_j.md R419). -/
def execJcxz (w : Width) (rel : BitVec 64) (s : State) : Host.Outcome State Fault Refusal :=
  run s fun t => t.jumpIf (t.readGpr .w16 .rcx == 0) w rel

/-- JECXZ (42_gp_d_j.md R419). -/
def execJecxz (w : Width) (rel : BitVec 64) (s : State) : Host.Outcome State Fault Refusal :=
  run s fun t => t.jumpIf (t.readGpr .w32 .rcx == 0) w rel

/-- JRCXZ (42_gp_d_j.md R419). -/
def execJrcxz (w : Width) (rel : BitVec 64) (s : State) : Host.Outcome State Fault Refusal :=
  run s fun t => t.jumpIf (t.readGpr .w64 .rcx == 0) w rel

/-- LOOPcc: the count is decremented at the address size; the jump needs it non-zero and `c` (43_gp_l_m.md R458). -/
def State.loopIf (t : State) (c : Bool) (w : Width) (asz : ASize) (rel : Quad) : Res State :=
  let a := addrWidth asz
  let n := trunc a (t.gpr.rcx - 1)
  (t.writeGpr a .rcx n).jumpIf (c && n != 0) w rel

/-- LOOP (43_gp_l_m.md R458). -/
def execLoop (w : Width) (asz : ASize) (rel : BitVec 64) (s : State) : Host.Outcome State Fault Refusal :=
  run s fun t => t.loopIf true w asz rel

/-- LOOPE (43_gp_l_m.md R458). -/
def execLoope (w : Width) (asz : ASize) (rel : BitVec 64) (s : State) : Host.Outcome State Fault Refusal :=
  run s fun t => t.loopIf t.flags.zf w asz rel

/-- LOOPNE (43_gp_l_m.md R458). -/
def execLoopne (w : Width) (asz : ASize) (rel : BitVec 64) (s : State) : Host.Outcome State Fault Refusal :=
  run s fun t => t.loopIf (!t.flags.zf) w asz rel

/-- The target of a near CALL or JMP (41_gp_c.md R350, 42_gp_d_j.md R420). -/
def State.nearTarget (t : State) (w : Width) : NearTarget → Res Quad
  | .rel d => .ok (t.relTarget w d)
  | .rm r => t.readRM w r

/-- CALL with displacement 0 does not push on the shadow stack (41_gp_c.md R350). -/
def NearTarget.isNext : NearTarget → Bool
  | .rel d => d == 0
  | .rm _ => false

/-- The return address pushed on the shadow stack: 4 bytes for the 16- and 32-bit sizes (41_gp_c.md R350). -/
def State.pushSsReturn (t : State) (w : Width) (ret : Quad) : Res State := do
  let n := if w = .w64 then 8 else 4
  let a := t.cet.ssp - BitVec.ofNat 64 n
  let u ← t.sstkWrite a n (trunc w ret)
  .ok (u.setSsp a)

/-- The shadow stack of a near CALL (41_gp_c.md R350). -/
def State.callShadow (t : State) (w : Width) (target : NearTarget) (ret : Quad) : Res State :=
  if t.shadowEnabled t.cpl && !NearTarget.isNext target then t.pushSsReturn w ret else .ok t

/-- CALL (Near) (41_gp_c.md R350). -/
def execCall (w : Width) (target : NearTarget) (s : State) : Host.Outcome State Fault Refusal :=
  run s fun t => do
    let rip ← t.nearTarget w target
    let u ← t.push w.bytes t.rip
    u.checkTarget rip
    let v ← u.callShadow w target t.rip
    .ok (v.setRip rip)

/-- JMP (Near) (42_gp_d_j.md R420). -/
def execJmp (w : Width) (target : NearTarget) (s : State) : Host.Outcome State Fault Refusal :=
  run s fun t => do
    let rip ← t.nearTarget w target
    t.jumpTo rip

/-- The return address on the shadow stack compared with the one popped (45_gp_r_s.md R568). -/
def State.retShadow (t : State) (w : Width) (rip : Quad) : Res State :=
  if t.shadowEnabled t.cpl then do
    let n := if w = .w64 then 8 else 4
    let v ← t.sstkRead t.cet.ssp n
    require (rip == v) (cp .nearRet)
    .ok (t.setSsp (t.cet.ssp + BitVec.ofNat 64 n))
  else .ok t

/-- RSP moved up by an immediate at the stack size (45_gp_r_s.md R568). -/
def State.dropStack (t : State) (imm : BitVec 16) : State :=
  t.writeGpr t.stackWidth .rsp (t.gpr.rsp + imm.setWidth 64)

/-- RET (Near) (45_gp_r_s.md R568). -/
def execRet (w : Width) (imm : BitVec 16) (s : State) : Host.Outcome State Fault Refusal :=
  run s fun t => do
    let (rip, u) ← t.pop w.bytes
    u.checkTarget rip
    let v ← u.retShadow w rip
    .ok ((v.dropStack imm).setRip rip)

/-! ### Far transfers -/

/-- The offset and selector of a far target (41_gp_c.md R353): the direct form has no encoding in 64-bit mode. -/
def State.farTarget (t : State) (w : Width) : FarTarget → Res (Quad × BitVec 16)
  | .ptr sel off => do
    require (!t.mode64) ud
    .ok (trunc (zWidth w) (off.setWidth 64), sel)
  | .mem m => t.readFar w m

/-- What a far CALL or JMP finds at its selector (20_memory.md R112 `cs_chk`). -/
inductive FarKind where
  | code | callGate | taskGate | tss
  deriving DecidableEq, Repr

/-- The kind of a descriptor a far transfer names: in long mode the only system type is the 64-bit call gate
(41_gp_c.md R355, 42_gp_d_j.md R424, D22). DESIGN CHOICE (log 55): a far CALL in long mode, too, may name a compatibility-mode code
segment, as D22 has it for a far JMP: R355's row "not a 64-bit code segment" would forbid it, and R353's test of L = 0 under LMA
allows it. -/
def State.farKind (t : State) (a : SegAttr) : Option FarKind :=
  if a.s then (if t.codeType a then some .code else none)
  else if t.longMode then (if a.type == 0xC then some .callGate else none)
  else if a.type == 0xC || a.type == 4 then some .callGate
  else if a.type == 5 then some .taskGate
  else if a.type == 1 || a.type == 9 then some .tss
  else none

/-- The privilege rule of `cs_chk` (20_memory.md R112). -/
def State.farPriv (t : State) (sel : BitVec 16) (a : SegAttr) : FarKind → Bool
  | .code => if a.conforming then a.dpl ≤ t.cpl else rpl sel ≤ t.cpl && a.dpl == t.cpl
  | _ => t.cpl ≤ a.dpl && rpl sel ≤ a.dpl

/-- READ_DESCRIPTOR(sel, cs_chk) (20_memory.md R112): a TSS descriptor in the LDT is refused (41_gp_c.md R355). -/
def State.readFarDesc (t : State) (sel : BitVec 16) : Res (FarKind × Quad) := do
  let d ← t.readDesc (gpSel sel) sel
  let a := descAttr d
  match t.farKind a with
  | none => .error (gpSel sel)
  | some k =>
    require (t.farPriv sel a k) (gpSel sel)
    require (!(k == .tss && sel.getLsbD 2)) (gpSel sel)
    require a.p (excSel .np sel)
    .ok (k, d)

/-- The return linear address of a far CALL, by its push size (41_gp_c.md R353). -/
def State.returnLip (t : State) (v : Nat) : Quad :=
  match v with
  | 2 => t.seg.cs.base + trunc .w16 t.rip
  | 4 => t.seg.cs.base + trunc .w32 t.rip
  | _ => t.rip

/-- The frame of a far CALL on the shadow stack of an unchanged privilege level (41_gp_c.md R353, R354): `t` is the state
before the transfer, `u` the state that runs with the new CS. DEDUCED (log 44): `temp_desc.attr.L`, which a call gate does not have,
is L of the code segment that is loaded. -/
def State.callFrame (u t : State) (v : Nat) : Res State :=
  if u.shadowEnabled u.cpl then do
    require (!(t.longMode && !u.seg.cs.attr.l && u.cet.ssp.extractLsb' 32 32 != 0)) gp0
    let x ← u.alignSsp
    x.pushSsFrame t.seg.cs.sel (t.returnLip v) x.cet.ssp
  else .ok u

/-- A far CALL that keeps the privilege level: CS is loaded before the pushes (41_gp_c.md R353, R354). -/
def State.callSame (t : State) (v : Nat) (cs : SegReg) (rip : Quad) : Res State := do
  let u ← (t.setCsSame cs).pushAllE ss0 v [t.seg.cs.sel.setWidth 64, t.rip]
  u.checkTarget rip
  let x ← u.callFrame t v
  .ok (x.setRip rip)

/-- The parameters of a call gate, copied from the old stack, the last one first (41_gp_c.md R354, as printed). DESIGN CHOICE (log
30): a read beyond the limit of the old SS raises #SS(0). -/
def State.copyParams (u t : State) (v : Nat) : Nat → Res State
  | 0 => .ok u
  | i + 1 => do
    let old : State := { t with mem := u.mem, cpl := u.cpl }
    let x ← old.readMem .ss (trunc t.stackWidth (t.oldRsp + BitVec.ofNat 64 ((i + 1) * v))) v
    let u ← u.pushE (excSel .ss u.seg.ss.sel) v x
    State.copyParams u t v i

/-- The shadow stack of a far CALL to an inner level (41_gp_c.md R354). -/
def State.callInnerShadow (u t : State) (v : Nat) : Res State := do
  let u := if t.shadowEnabled 3 && t.cpl == 3 then { u with cet := { u.cet with pl3Ssp := u.cet.ssp } } else u
  if u.shadowEnabled u.cpl then do
    let ssp := u.cet.plSsp u.cpl
    let x ← (u.setSsp ssp).setTokenBusy ssp
    if t.cpl != 3 then x.pushSsFrame t.seg.cs.sel (t.returnLip v) t.cet.ssp else .ok x
  else .ok u

/-- A far CALL through a gate to an inner level (41_gp_c.md R354). -/
def State.callInner (t : State) (v params : Nat) (cs : SegReg) (cpl : BitVec 2) (rip : Quad) : Res State := do
  let (ss, sp) ← (t.setCs cs cpl).innerStack cpl 0
  let bad := excSel .ss ss.sel
  let u ← (t.enterInner cs cpl ss sp).pushAllE bad v [t.seg.ss.sel.setWidth 64, t.oldRsp]
  let u ← u.copyParams t v params
  let u ← u.pushAllE bad v [t.seg.cs.sel.setWidth 64, t.rip]
  let x ← u.callInnerShadow t v
  .ok (x.setRip rip)

/-- The target offset of a call gate: in long mode the second quadword, whose type field must be zero, holds the upper half; a
32-bit gate gives 32 bits and a 16-bit gate 16, zero-extended (41_gp_c.md R351, R354, 42_gp_d_j.md R421, R423; log 50). -/
def State.callGateTarget (t : State) (sel : BitVec 16) (d : Quad) : Res Quad :=
  if t.longMode then do
    let hi ← t.descQuad (gpSel sel) sel 8
    require (hi.extractLsb' 40 5 == 0) (gpSel sel)
    .ok (gateOffset d + (hi <<< 32))
  else .ok (trunc (if (descAttr d).type == 0xC then .w32 else .w16) (gateOffset d))

/-- The push size of a call gate (41_gp_c.md R354). -/
def State.callGateBytes (t : State) (d : Quad) : Nat :=
  if t.longMode then 8 else if (descAttr d).type == 0xC then 4 else 2

/-- CALLF_CALLGATE (41_gp_c.md R354). -/
def State.callGate (t : State) (sel : BitVec 16) (d : Quad) : Res State := do
  let v := t.callGateBytes d
  let rip ← t.callGateTarget sel d
  let c ← t.readIntCs (gateSel d)
  let (cs, cpl) := intTarget t (gateSel d) c
  (t.setCs cs cpl).checkTarget rip
  if cpl == t.cpl then t.callSame v cs rip
  else t.callInner v (if t.longMode then 0 else gateParams d) cs cpl rip

/-- CALLF_PROTECTED (41_gp_c.md R353). -/
def State.callProtected (t : State) (w : Width) (sel : BitVec 16) (off : Quad) : Res State := do
  let (k, d) ← t.readFarDesc sel
  match k with
  | .tss => .error (.refuse .taskSwitch)
  | .taskGate => t.taskGate d
  | .callGate => t.callGate sel d
  | .code => t.callSame w.bytes (descSeg (withRpl sel t.cpl) d) off

/-- CALLF_REAL_OR_VIRTUAL (41_gp_c.md R352). -/
def State.callReal (t : State) (w : Width) (sel : BitVec 16) (off : Quad) : Res State := do
  let u ← t.pushAllE ss0 w.bytes [t.seg.cs.sel.setWidth 64, t.rip]
  u.checkTarget off
  .ok ((u.loadCsReal sel).setRip off)

/-- CALL (Far) (41_gp_c.md R351 to R354). -/
def execCallFar (w : Width) (target : FarTarget) (s : State) : Host.Outcome State Fault Refusal :=
  run s fun t => do
    let (off, sel) ← t.farTarget w target
    if t.protMode then t.callProtected w sel off else t.callReal w sel off

/-- READ_DESCRIPTOR(sel, clg_chk) of a far JMP, which changes no privilege: the privilege rule, then the type, then present
(42_gp_d_j.md R424, 20_memory.md R112). -/
def State.readJumpCs (t : State) (sel : BitVec 16) : Res Quad :=
  t.readGateCs sel fun a => if a.conforming then a.dpl ≤ t.cpl else a.dpl == t.cpl

/-- A far JMP to a code segment at the same level (42_gp_d_j.md R423). -/
def State.jumpSame (t : State) (cs : SegReg) (rip : Quad) : Res State := do
  let u := t.setCs cs t.cpl
  u.checkTarget rip
  .ok (u.setRip rip)

/-- JMPF_PROTECTED (42_gp_d_j.md R423). -/
def State.jmpProtected (t : State) (sel : BitVec 16) (off : Quad) : Res State := do
  let (k, d) ← t.readFarDesc sel
  match k with
  | .tss => .error (.refuse .taskSwitch)
  | .taskGate => t.taskGate d
  | .callGate => do
    let rip ← t.callGateTarget sel d
    let c ← t.readJumpCs (gateSel d)
    t.jumpSame (descSeg (withRpl (gateSel d) t.cpl) c) rip
  | .code => t.jumpSame (descSeg (withRpl sel t.cpl) d) off

/-- JMPF_REAL_OR_VIRTUAL (42_gp_d_j.md R422). -/
def State.jmpReal (t : State) (sel : BitVec 16) (off : Quad) : Res State := do
  t.checkTarget off
  .ok ((t.loadCsReal sel).setRip off)

/-- JMP (Far) (42_gp_d_j.md R421 to R423). -/
def execJmpFar (w : Width) (target : FarTarget) (s : State) : Host.Outcome State Fault Refusal :=
  run s fun t => do
    let (off, sel) ← t.farTarget w target
    if t.protMode then t.jmpProtected sel off else t.jmpReal sel off

/-- RETF_REAL_OR_VIRTUAL, after the pops (45_gp_r_s.md R569). -/
def State.retfReal (t : State) (imm : BitVec 16) (rip cs : Quad) : Res State := do
  t.checkTarget rip
  .ok (((t.loadCsReal (cs.setWidth 16)).dropStack imm).setRip rip)

/-- The previous SSP of a far return must lie below 4 GB in compatibility mode (45_gp_r_s.md R570). -/
def State.checkSsp (t : State) (ssp : Quad) : Res Unit :=
  require (!(t.compatMode && ssp.extractLsb' 32 32 != 0)) gp0

/-- The shadow stack of a far return to the same level (45_gp_r_s.md R570). -/
def State.retfSameShadow (t : State) (sel : BitVec 16) (rip : Quad) : Res State :=
  if t.shadowEnabled t.cpl then do
    require (t.cet.ssp.extractLsb' 0 3 == 0) (cp .farRet)
    let (prev, u) ← t.popSsFrame sel (t.seg.cs.base + rip) t.cpl
    u.checkSsp prev
    .ok (u.setSsp prev)
  else .ok t

/-- RETF_PROTECTED_TO_SAME_PRIV (45_gp_r_s.md R570): the immediate is added in the mode of the new CS. -/
def State.retfSame (t : State) (imm : BitVec 16) (sel : BitVec 16) (rip : Quad) : Res State := do
  let d ← t.readIretCs sel
  let u := (t.setCsSame (descSeg sel d)).dropStack imm
  u.checkTarget rip
  let x ← u.retfSameShadow sel rip
  .ok (x.setRip rip)

/-- The frame a far return to an outer level finds on the old shadow stack; without one the SSP stays (45_gp_r_s.md
R571). `t` is the state before, `u` the state at the outer level, whose CPL the frame is read with: the Action sets CPL first
(20_memory.md R118). -/
def State.retfOuterFrame (u t : State) (sel : BitVec 16) (rip : Quad) : Res (Quad × State) :=
  if t.shadowEnabled t.cpl then do
    require (t.cet.ssp.extractLsb' 0 3 == 0) (cp .farRet)
    let (prev, x) ← u.popSsFrame sel (u.seg.cs.base + rip) u.cpl
    x.checkSsp prev
    .ok (prev, x)
  else .ok (u.cet.ssp, u)

/-- The shadow stack of a far return to an outer level (45_gp_r_s.md R571). -/
def State.retfOuterShadow (u t : State) (sel : BitVec 16) (rip : Quad) : Res State := do
  let (prev, x) ← u.retfOuterFrame t sel rip
  let oldSsp := x.cet.ssp
  let y ← if x.shadowEnabled x.cpl then do
      let v := if x.shadowEnabled 3 && x.cpl == 3 then x.cet.pl3Ssp else prev
      x.checkSsp v
      .ok (x.setSsp v)
    else .ok x
  if t.shadowEnabled t.cpl then do
    let z ← ({ y with cpl := t.cpl } : State).clearToken oldSsp false
    .ok { z with cpl := u.cpl }
  else .ok y

/-- RETF_PROTECTED_TO_OUTER_PRIV (45_gp_r_s.md R571). -/
def State.retfOuter (t : State) (w : Width) (imm : BitVec 16) (sel : BitVec 16) (rip : Quad) : Res State := do
  let (rsp, u) ← (t.dropStack imm).pop w.bytes
  let (ss, u) ← u.pop w.bytes
  let d ← t.readIretCs sel
  let u := u.setCs (descSeg sel d) (rpl sel)
  u.checkTarget rip
  let ssReg ← u.returnSs (ss.setWidth 16) (rpl sel)
  let u := { u with seg := { u.seg with ss := ssReg } }.writeRsp (rsp + imm.setWidth 64)
  let x ← u.retfOuterShadow t sel rip
  .ok ({ x with seg := x.seg.leaveLevel (rpl sel) }.setRip rip)

/-- RET (Far) (45_gp_r_s.md R569 to R571). -/
def execRetf (w : Width) (imm : BitVec 16) (s : State) : Host.Outcome State Fault Refusal :=
  run s fun t => do
    let (rip, u) ← t.pop w.bytes
    let (cs, u) ← u.pop w.bytes
    let sel : BitVec 16 := cs.setWidth 16
    if !t.protMode then u.retfReal imm rip cs
    else if rpl sel == t.cpl then u.retfSame imm sel rip
    else u.retfOuter w imm sel rip

/-! ### Software interrupts and IRET -/

/-- A software interrupt: the handler returns past the instruction (42_gp_d_j.md R410, 60_exceptions.md R920). `s` is the
state before the instruction. -/
def State.softInt (t s : State) (vector : Byte) (intN : Bool) : Res State :=
  t.deliverOnce { vector, kind := .software, savedRip := t.rip, oldRip := s.rip, intN }

/-- INT n (42_gp_d_j.md R410). -/
def execInt (vector : Byte) (s : State) : Host.Outcome State Fault Refusal :=
  run s fun t => t.softInt s vector true

/-- INT 3 (50_sys_a_l.md R709). -/
def execInt3 (s : State) : Host.Outcome State Fault Refusal :=
  run s fun t => t.softInt s 3 false

/-- INTO (42_gp_d_j.md R417). -/
def execInto (s : State) : Host.Outcome State Fault Refusal :=
  run s fun t => do
    require (!t.mode64) ud
    if t.flags.of then t.softInt s 4 false else .ok t

/-- The exception INT1 raises: #DB as a trap (31_opcode_maps.md R244, D50). -/
def int1Trap : Exn := { name := .db, trap := true }

/-- INT1: it completes with the entry it makes, and with TF set at its start the single-step trap follows (31_opcode_maps.md R244,
D50, 60_exceptions.md R926). -/
def execInt1 (s : State) : Host.Outcome State Fault Refusal :=
  match s.deliverOnce (s.excEvent int1Trap) with
  | .ok t => s.complete t
  | .error _ => s.raise int1Trap

/-- BOUND (40_gp_a_b.md R325). -/
def execBound (w : Width) (idx : Gpr) (m : Mem) (s : State) : Host.Outcome State Fault Refusal :=
  run s fun t => do
    require (!t.mode64) ud
    let lower ← t.readM m w.bytes
    let upper ← t.readMem m.seg (t.ea m + BitVec.ofNat 64 w.bytes) w.bytes
    let v := signed w (t.readGpr w idx)
    require (signed w lower ≤ v && v ≤ signed w upper) (.exc { name := .br })
    .ok t

/-- UD0 (46_gp_t_x.md R634). -/
def execUd0 (s : State) : Host.Outcome State Fault Refusal := run s fun _ => .error ud

/-- UD1 (46_gp_t_x.md R634). -/
def execUd1 (s : State) : Host.Outcome State Fault Refusal := run s fun _ => .error ud

/-- UD2 (46_gp_t_x.md R634). -/
def execUd2 (s : State) : Host.Outcome State Fault Refusal := run s fun _ => .error ud

/-- IRET (50_sys_a_l.md R715). -/
def execIret (s : State) : Host.Outcome State Fault Refusal := run s fun t => t.iret .w16

/-- IRETD (50_sys_a_l.md R715). -/
def execIretd (s : State) : Host.Outcome State Fault Refusal := run s fun t => t.iret .w32

/-- IRETQ (50_sys_a_l.md R715). -/
def execIretq (s : State) : Host.Outcome State Fault Refusal := run s fun t => t.iret .w64

end Sys2Proof.Machine
end

