-- ==== Sys2Proof/Machine/Cpuid.lean ====
section
/-! DEFINITION. CPUID and the values it returns (41_gp_c.md R371, 53_cpuid.md R1000 to R1032, D53, D54). -/

namespace Sys2Proof.Machine

/-- The four results of CPUID (53_cpuid.md R1000). -/
structure CpuidRegs where
  eax : BitVec 32
  ebx : BitVec 32
  ecx : BitVec 32
  edx : BitVec 32
  deriving DecidableEq, Repr

/-- Zero in the four registers: reserved functions (D53). -/
def CpuidRegs.zero : CpuidRegs := { eax := 0, ebx := 0, ecx := 0, edx := 0 }

/-- One of the four registers of a function: its value where `cpuid_table` lists no row, and the bits `fixed` that keep that value under
a row: those that `features`, another parameter, the machine state or a rule decide (53_cpuid.md R1000, R1004, log 34). -/
structure CpuidWord where
  value : BitVec 32
  fixed : BitVec 32
  deriving DecidableEq, Repr

/-- The four registers of a function. -/
structure CpuidFields where
  eax : CpuidWord
  ebx : CpuidWord
  ecx : CpuidWord
  edx : CpuidWord
  deriving DecidableEq, Repr

/-- A register that no row changes. -/
def CpuidWord.all (v : BitVec 32) : CpuidWord := { value := v, fixed := BitVec.allOnes 32 }

/-- A register that a row gives whole, zero without one (D53, D54). -/
def CpuidWord.free : CpuidWord := { value := 0, fixed := 0 }

/-- The four registers of a function that no row changes. -/
def CpuidFields.all (r : CpuidRegs) : CpuidFields := { eax := .all r.eax, ebx := .all r.ebx, ecx := .all r.ecx, edx := .all r.edx }

/-- The four registers of a function that a row gives whole, zero without one (D53, D54). -/
def CpuidFields.free : CpuidFields := { eax := .free, ebx := .free, ecx := .free, edx := .free }

/-- The register under a row's word. -/
def CpuidWord.fill (c : CpuidWord) : Option (BitVec 32) → BitVec 32
  | none => c.value
  | some r => (c.value &&& c.fixed) ||| (r &&& ~~~c.fixed)

/-- The row of `cpuid_table` for a function and sub-function (D54). -/
def State.cpuidRow (t : State) (fn sub : BitVec 32) : Option Config.CpuidRow :=
  t.cfg.cpuidRows.find? fun r => r.fn == fn && r.sub == sub

/-- The four registers under a row. -/
def CpuidFields.fill (f : CpuidFields) (r : Option Config.CpuidRow) : CpuidRegs where
  eax := f.eax.fill (r.map (·.eax))
  ebx := f.ebx.fill (r.map (·.ebx))
  ecx := f.ecx.fill (r.map (·.ecx))
  edx := f.edx.fill (r.map (·.edx))

/-- A word of feature bits: the listed positions hold the listed flags, every other bit is zero (D53). -/
def packBits (l : List (Nat × Bool)) : BitVec 32 :=
  l.foldl (fun acc p => acc ||| (if p.2 then 1 <<< p.1 else 0)) 0

/-- A register in which the listed positions hold the listed flags, and a row gives the other bits. -/
def CpuidWord.flags (l : List (Nat × Bool)) : CpuidWord :=
  { value := packBits l, fixed := packBits (l.map fun p => (p.1, true)) }

/-- The vendor string with a maximum function number (53_cpuid.md R1005, R1015). -/
def cpuidVendor (max : BitVec 32) : CpuidFields :=
  .all { eax := max, ebx := 0x68747541, ecx := 0x444D4163, edx := 0x69746E65 }

/-- The feature bits that are the same in Fn0000_0001_EDX and Fn8000_0001_EDX (53_cpuid.md R1009, R1018). -/
def cpuidCommon (f : Config.Features) : List (Nat × Bool) :=
  [(24, f.fxsr), (23, f.mmx), (17, f.pse36), (16, f.pat), (15, f.cmov), (14, f.mca), (13, f.pge), (12, f.mtrr), (9, f.apic), (8, f.cmpxchg8b),
   (7, f.mce), (6, f.pae), (5, f.msr), (4, f.tsc), (3, f.pse), (2, f.de), (1, f.vme), (0, f.fpu)]

/-- Fn0000_0001 (53_cpuid.md R1006 to R1009): the line size in quadwords, one logical processor (D54). Bit 31 of ECX reads as zero;
OSXSAVE follows CR4 (R1004). -/
def State.cpuid1 (t : State) : CpuidFields :=
  let f := t.feat
  { eax := .all t.cfg.signature
    ebx := { value := BitVec.ofNat 32 (0x10000 + t.cfg.cacheLine / 8 % 256 * 256), fixed := 0xFF00 }
    ecx := .flags [(31, false), (30, f.rdrand), (28, f.avx), (27, f.xsave && t.cr4Bit 18), (26, f.xsave), (23, f.popcnt),
      (22, f.movbe), (20, f.sse42), (13, f.cmpxchg16b), (3, f.monitor)]
    edx := .flags ([(26, f.sse2), (25, f.sse), (19, f.clfsh), (11, f.sysEnterSysExit)] ++ cpuidCommon f) }

/-- Fn0000_0005 (53_cpuid.md R1010): the smallest and the largest monitor line are the monitored range unless a row gives them. -/
def State.cpuid5 (t : State) : CpuidFields :=
  let line : CpuidWord := { value := BitVec.ofNat 32 (t.cfg.monitorLine % 0x10000), fixed := 0 }
  { eax := line, ebx := line, ecx := .flags [(1, t.feat.mwaitIbe), (0, t.feat.mwaitEmx)], edx := .free }

/-- Fn0000_0006 (53_cpuid.md R1011). -/
def State.cpuid6 (t : State) : CpuidFields := { CpuidFields.free with ecx := .flags [(0, t.feat.effFreq)] }

/-- Fn0000_0007, sub-function 0 (53_cpuid.md R1012, C28): OSPKE follows CR4.PKE (R1004). DESIGN CHOICE (log 34): MaxSubFn is 0 without
a row. -/
def State.cpuid7 (t : State) : CpuidFields :=
  let f := t.feat
  { eax := .free
    ebx := .flags [(24, f.clwb), (23, f.clflushopt), (20, f.smap), (19, f.adx), (18, f.rdseed), (10, f.invpcid),
      (8, f.bmi2), (7, f.smep), (3, f.bmi1), (0, f.fsgsbase)]
    ecx := .flags [(22, f.rdpid), (7, f.cetSs), (4, f.pku && t.cr4Bit 22), (3, f.pku), (2, f.umip)]
    edx := .free }

/-- The mask of the components that XCR0 can enable: x87, SSE, AVX, MPK and LWP by their features, and those a row adds; the lower and
the upper word (53_cpuid.md R1014, log 34). -/
def State.xcr0Words (t : State) : CpuidWord × CpuidWord :=
  (.flags [(9, t.feat.pku), (2, t.feat.avx), (1, t.feat.sse), (0, true)], .flags [(30, t.feat.lwp)])

/-- The components that XCR0 can enable (53_cpuid.md R1014). -/
def State.xcr0Supported (t : State) : Quad :=
  let r := t.cpuidRow 0xD 0
  t.xcr0Words.2.fill (r.map (·.edx)) ++ t.xcr0Words.1.fill (r.map (·.eax))

/-- The end of a component in the XSAVE area, by the offset and the size that its own sub-function reports (53_cpuid.md R1014). -/
def State.xsaveEnd (t : State) (i : Nat) : Nat :=
  match t.cpuidRow 0xD (BitVec.ofNat 32 i) with
  | some r => r.eax.toNat + r.ebx.toNat
  | none => 0

/-- The size of the XSAVE area for a set of components: the fixed 240h bytes, and each further component (53_cpuid.md R1014,
log 34). -/
def State.xsaveSize (t : State) (mask : Quad) : BitVec 32 :=
  BitVec.ofNat 32 ((List.range 63).foldl (fun n i => if 2 ≤ i && mask.getLsbD i then max n (t.xsaveEnd i) else n) 0x240)

/-- Fn0000_000D, sub-function 0: the supported mask, and the sizes for what XCR0 enables, which follows it, and for all
(53_cpuid.md R1004, R1014). -/
def State.cpuidD0 (t : State) : CpuidFields where
  eax := t.xcr0Words.1
  ebx := .all (t.xsaveSize t.xcr0)
  ecx := { value := t.xsaveSize t.xcr0Supported, fixed := 0 }
  edx := t.xcr0Words.2

/-- Fn0000_000D, sub-function 1: the size formula over XCR0 and XSS (53_cpuid.md R1004, R1014). -/
def State.cpuidD1 (t : State) : CpuidFields :=
  let part (b : Bool) (n : Nat) : Nat := if b then n else 0
  { eax := .free
    ebx := .all (BitVec.ofNat 32 (0x240 + part (t.xcr0.getLsbD 2) 0x100 + part (t.xcr0.getLsbD 9) 8 +
      part (t.msr.xss.getLsbD 11) 0x10 + part (t.msr.xss.getLsbD 12) 0x18))
    ecx := .flags [(12, t.feat.cetSs), (11, t.feat.cetSs)]
    edx := .free }

/-- Fn0000_000D, sub-functions 11 and 12: supervisor components, whose size and offset a row gives (53_cpuid.md R1014). -/
def State.cpuidDCet (t : State) : CpuidFields :=
  if t.feat.cetSs then { eax := .free, ebx := .free, ecx := .all 1, edx := .all 0 } else .all .zero

/-- Fn0000_000D: all zero without XSAVE and above 3Eh; the other sub-functions are those for which there is a row
(53_cpuid.md R1014, D54). -/
def State.cpuidD (t : State) (sub : BitVec 32) : CpuidFields :=
  if t.feat.xsave && sub.toNat ≤ 0x3E then
    match sub.toNat with
    | 0 => t.cpuidD0
    | 1 => t.cpuidD1
    | 11 | 12 => t.cpuidDCet
    | _ => .free
  else .all .zero

/-- Fn8000_0001 (53_cpuid.md R1016 to R1018). DEDUCED (log 34): bit 28 of ECX, PerfCtrExtLLC in R1017, reports the feature whose
counters R769 calls PerfCtrExtL2I, which R1017 gives no bit. -/
def State.cpuidExt1 (t : State) : CpuidFields :=
  let f := t.feat
  { eax := .all t.cfg.signature
    ebx := .free
    ecx := .flags [(29, f.monitorx), (28, f.perfCtrExtL2i), (24, f.perfCtrExtNb), (23, f.perfCtrExtCore),
      (21, f.tbm), (15, f.lwp), (12, f.skinit), (11, f.xop), (8, f.prefetch), (5, f.abm), (4, f.altMovCr8),
      (2, f.svm), (0, f.lahfSahf)]
    edx := .flags ([(31, f.threeDNow), (29, f.lm), (27, f.rdtscp), (25, f.ffxsr), (22, f.mmxExt), (20, f.nx),
      (11, f.sysCallSysRet)] ++ cpuidCommon f) }

/-- Fn8000_0008 (53_cpuid.md R1023). -/
def State.cpuidExt8 (t : State) : CpuidFields :=
  let f := t.feat
  { eax := { value := BitVec.ofNat 32 (t.cfg.linAddrBits % 256 * 256 + t.cfg.physAddrBits % 256), fixed := 0xFFFF }
    ebx := .flags [(21, f.invlpgbNested), (13, f.intWbinvd), (9, f.wbnoinvd), (8, f.mcommit), (4, f.rdpru),
      (3, f.invlpgb), (0, f.clzero)]
    ecx := .free
    edx := .all (t.cfg.maxRdpruId ++ BitVec.ofNat 16 t.cfg.invlpgbCountMax) }

/-- Fn8000_000A (53_cpuid.md R1024). -/
def State.cpuidExtA (t : State) : CpuidFields :=
  if t.feat.svm then
    { CpuidFields.free with
      edx := .flags [(24, t.feat.tlbiCtl), (2, t.feat.svmLock), (1, t.feat.lbrVirt), (0, t.feat.nestedPaging)] }
  else .all .zero

/-- The LWP features of the processor: LWP, and LWPVAL where no row says otherwise (53_cpuid.md R1028). DESIGN CHOICE (log 19). -/
def lwpWord : CpuidWord := { value := packBits [(1, true), (0, true)], fixed := packBits [(0, true)] }

/-- Fn8000_001C (53_cpuid.md R1028): what is supported, and what of it is available: LWP itself once XCR0 enables it (R1042), its
features where LWP_CFG allows them, in the same bits (log 19). -/
def State.cpuidExt1C (t : State) : CpuidFields :=
  if t.feat.lwp then
    let supported := lwpWord.fill ((t.cpuidRow 0x8000001C 0).map (·.edx))
    { eax := .all (if t.xcr0.getLsbD 62 then supported &&& (t.lwp.cfg.extractLsb' 0 32 ||| 1) else 0)
      ebx := .free
      ecx := .free
      edx := lwpWord }
  else .all .zero

/-- Fn8000_001F (53_cpuid.md R1031). -/
def State.cpuidExt1F (t : State) : CpuidFields :=
  let f := t.feat
  { CpuidFields.free with
    eax := .flags [(5, f.vmpl), (4, f.snp), (3, f.sevEs), (1, f.sev)]
    ebx := { value := if f.snp then BitVec.ofNat 32 (t.cfg.numVmpl % 16 * 4096) else 0, fixed := 0xF000 } }

/-- Fn8000_0021 (53_cpuid.md R1032). -/
def State.cpuidExt21 (t : State) : CpuidFields :=
  { CpuidFields.free with eax := .flags [(6, t.feat.nullSelectClearsBase), (2, t.feat.lfenceSerializing)] }

/-- The registers of a function, before the row of `cpuid_table` (53_cpuid.md R1004). -/
def State.cpuidFields (t : State) (fn sub : BitVec 32) : CpuidFields :=
  match fn.toNat with
  | 0 => cpuidVendor t.cfg.lFuncStd
  | 1 => t.cpuid1
  | 5 => t.cpuid5
  | 6 => t.cpuid6
  | 7 => if sub == 0 then t.cpuid7 else .free
  | 0xD => t.cpuidD sub
  | 0x80000000 => cpuidVendor t.cfg.lFuncExt
  | 0x80000001 => t.cpuidExt1
  | 0x80000008 => t.cpuidExt8
  | 0x8000000A => t.cpuidExtA
  | 0x8000001C => t.cpuidExt1C
  | 0x8000001F => t.cpuidExt1F
  | 0x80000021 => t.cpuidExt21
  | _ => .free

/-- The functions that read ECX as a sub-function (53_cpuid.md R1000). -/
def cpuidSub (fn sub : BitVec 32) : BitVec 32 :=
  if fn == 7 || fn == 0xB || fn == 0xD || fn == 0x8000001D then sub else 0

/-- The function number lies in one of the two ranges (53_cpuid.md R1002). -/
def State.cpuidInRange (t : State) (fn : BitVec 32) : Bool :=
  if fn.getLsbD 31 then fn ≤ t.cfg.lFuncExt else fn ≤ t.cfg.lFuncStd

/-- `cpuid_table` (00_scope.md R6, 53_cpuid.md R1000): the row of the function where there is one, but for the fields that the rest of
the machine decides; zero beyond the maxima (D53). -/
def State.cpuidTable (t : State) (fn ecx : BitVec 32) : CpuidRegs :=
  let sub := cpuidSub fn ecx
  if t.cpuidInRange fn then (t.cpuidFields fn sub).fill (t.cpuidRow fn sub) else .zero

/-- The four result registers written, zero-extended (53_cpuid.md R1000). -/
def State.setCpuid (t : State) (r : CpuidRegs) : State :=
  (((t.writeGpr .w32 .rax (r.eax.setWidth 64)).writeGpr .w32 .rbx (r.ebx.setWidth 64)).writeGpr .w32 .rcx
    (r.ecx.setWidth 64)).writeGpr .w32 .rdx (r.edx.setWidth 64)

/-- CPUID (41_gp_c.md R371). -/
def execCpuid (s : State) : Host.Outcome State Fault Refusal :=
  run s fun t => .ok (t.setCpuid (t.cpuidTable (t.gpr.rax.setWidth 32) (t.gpr.rcx.setWidth 32)))

end Sys2Proof.Machine
end

