-- ==== Sys2Proof/Machine/Lwp.lean ====
section
/-! DEFINITION. Lightweight profiling (43_gp_l_m.md R456, R459, R460, 45_gp_r_s.md R589): the envelope that the rules give,
over the host functions of 93_implementation_defined.md P6 (log 19). -/

namespace Sys2Proof.Machine

open Config (LwpOutcome)

/-- The four instructions exist: in protected mode, with the feature present and available (43_gp_l_m.md R456, log 19). -/
def State.needLwp (t : State) : Res Unit := require (t.feat.lwp && t.protMode && t.xcr0.getLsbD 62) ud

/-- LWP is enabled: LWP_CBADDR is not zero (45_gp_r_s.md R589). -/
def State.lwpEnabled (t : State) : Bool := t.lwp.cbAddr != 0

/-- DS.base as an effective address sees it (20_memory.md R105). -/
def State.dsBase (t : State) : Quad := if t.mode64 then 0 else t.seg.ds.base

/-- What the host functions see (93_implementation_defined.md P6). -/
def State.lwpCtx (t : State) (w : Width) : Config.LwpCtx where
  cfg := t.lwp.cfg
  cbAddr := t.lwp.cbAddr
  internal := t.lwp.internal
  dsBase := t.dsBase
  dsLimit := t.seg.ds.limit
  wide := w = .w64
  count := t.freeCount

/-- What an LWP instruction ends in besides a stop: it completes, or it raises an exception after part of its effect
(43_gp_l_m.md R456). -/
inductive LwpEnd where
  | done (t : State)
  | abort (t : State) (x : Exn)
  deriving DecidableEq, Repr

/-- The cells the facility writes, each in memory that exists (20_memory.md R100). -/
def State.lwpWrites (t : State) (cells : List Host.Cell) : Res State :=
  match t.absent (cells.map Prod.fst) with
  | some p => .error (.fault (.noMemory p))
  | none => .ok { t with mem := cells.foldl (fun m c => Memory.write m c.1 c.2) t.mem }

/-- What the facility holds inside the processor, replaced (10_state.md R81). -/
def State.setLwpInternal (t : State) (i : Config.LwpInternal) : State := { t with lwp := { t.lwp with internal := i } }

/-- The exception of an outcome, or the state with its writes, what the facility then holds, and its CF. -/
def State.lwpResult (t : State) : LwpOutcome → Res (Except Exn (State × Bool))
  | .done cells internal cf => do
    let u ← t.lwpWrites cells
    .ok (.ok (u.setLwpInternal internal, cf))
  | .pageFault code addr => .ok (.error { name := .pf, code := some code, cr2 := some addr })

/-- An instruction that ends in an `LwpEnd`: one that aborts keeps its memory writes and LWP_CBADDR. -/
def runLwp (s : State) (body : State → Res LwpEnd) : Host.Outcome State Fault Refusal :=
  match body s.start with
  | .ok (.done t) => s.complete t
  | .ok (.abort t x) => ({ s with mem := t.mem, lwp := t.lwp } : State).raise x
  | .error (.exc x) => s.raise x
  | .error (.fault f) => .fault f
  | .error (.refuse r) => .refused r

/-- LWP_CBADDR replaced. -/
def State.setLwpcb (t : State) (a : Quad) : State := { t with lwp := { t.lwp with cbAddr := a } }

/-- The flush to the current LWPCB; a #PF leaves LWP enabled with it (43_gp_l_m.md R456 step 2). -/
def State.lwpFlush (t : State) (w : Width) : Res (Except Exn (State × Bool)) :=
  if t.lwpEnabled then t.lwpResult (Config.lwpStore t.mem (t.lwpCtx w)) else .ok (.ok (t, false))

/-- LLWPCB after the flush: an LWPCB that fails its checks raises #GP(0), and any exception leaves LWP disabled (43_gp_l_m.md R456
steps 3 to 8). -/
def State.lwpStart (t : State) (w : Width) (addr : Quad) : Res LwpEnd :=
  if addr = 0 then .ok (.done (t.setLwpcb 0))
  else do
    let lin := t.linear .ds addr
    match Config.lwpLoad t.mem (t.lwpCtx w) lin with
    | none => .ok (.abort (t.setLwpcb 0) { name := .gp, code := some 0 })
    | some o =>
      match ← t.lwpResult o with
      | .error x => .ok (.abort (t.setLwpcb 0) x)
      | .ok (u, _) => .ok (.done (u.setLwpcb lin))

/-- LLWPCB (43_gp_l_m.md R456). -/
def execLlwpcb (w : Width) (r : Gpr) (s : State) : Host.Outcome State Fault Refusal :=
  runLwp s fun t => do
    t.needLwp
    match ← t.lwpFlush w with
    | .error x => .ok (.abort t x)
    | .ok (u, _) => u.lwpStart w (t.readGpr w r)

/-- SLWPCB (45_gp_r_s.md R589). -/
def execSlwpcb (w : Width) (r : Gpr) (s : State) : Host.Outcome State Fault Refusal :=
  runLwp s fun t => do
    t.needLwp
    if t.lwpEnabled then
      match ← t.lwpFlush w with
      | .error x => .ok (.abort t x)
      | .ok (u, _) => .ok (.done (u.writeGpr w r (trunc w (t.lwp.cbAddr - t.dsBase))))
    else .ok (.done (t.writeGpr w r 0))

/-- LWPINS (43_gp_l_m.md R459). -/
def execLwpins (w : Width) (src1 : Gpr) (src2 : RM) (flags : BitVec 32) (s : State) : Host.Outcome State Fault Refusal :=
  runLwp s fun t => do
    t.needLwp
    if t.lwpEnabled then do
      let data1 ← t.readRM .w32 src2
      let o := Config.lwpInsert t.mem (t.lwpCtx w) (t.readGpr w src1) (data1.setWidth 32) (flags.setWidth 16)
      match ← t.lwpResult o with
      | .error x => .ok (.abort t x)
      | .ok (u, cf) => .ok (.done (u.setFlags { u.flags with cf }))
    else .ok (.done (t.setFlags { t.flags with cf := false }))

/-- LWPVAL: the second operand is read only when a record is due (43_gp_l_m.md R460). -/
def execLwpval (w : Width) (src1 : Gpr) (src2 : RM) (flags : BitVec 32) (s : State) : Host.Outcome State Fault Refusal :=
  runLwp s fun t => do
    t.needLwp
    if t.lwpEnabled then do
      let record ←
        if Config.lwpValueDue t.mem (t.lwpCtx w) then do
          let data1 ← t.readRM .w32 src2
          .ok (some (t.readGpr w src1, data1.setWidth 32, flags.setWidth 16))
        else .ok none
      match ← t.lwpResult (Config.lwpValue t.mem (t.lwpCtx w) record) with
      | .error x => .ok (.abort t x)
      | .ok (u, _) => .ok (.done u)
    else .ok (.done t)

end Sys2Proof.Machine
end

