-- ==== Sys2Proof/Machine/Other.lean ====
section
/-! DEFINITION. Prefixes without an instruction (30_encoding.md R161), reserved code points (31_opcode_maps.md R231), and the
code points of other volumes: #UD when their feature is absent, a refusal when it is present (31_opcode_maps.md R259, R268,
R269, R279 to R282, D48, D49). -/

namespace Sys2Proof.Machine

/-- Fifteen bytes of prefixes exceed the instruction length (30_encoding.md R161). -/
def onlyPrefixes (s : State) : Host.Outcome State Fault Refusal := run s fun _ => .error gp0

/-- A reserved code point (31_opcode_maps.md R231, D48). -/
def reservedCode (s : State) : Host.Outcome State Fault Refusal := run s fun _ => .error ud

/-- A code point of another volume whose feature is `present` (D49). -/
def otherVolume (present : Bool) (s : State) : Host.Outcome State Fault Refusal :=
  run s fun _ => .error (if present then .refuse .otherVolume else ud)

/-- A media feature is present. -/
def State.hasMedia (s : State) : Bool := s.feat.mmx || s.feat.sse || s.feat.sse2

/-- The feature of a code point of the secondary map that belongs to another volume (31_opcode_maps.md R259). -/
def State.hasEscape (s : State) (op modrm : Byte) : Bool :=
  match op.toNat with
  | 0x01 => s.feat.xsave
  | 0x0E => s.feat.threeDNow
  | 0xAE =>
    match (modrm.extractLsb' 3 3).toNat with
    | 0 => s.feat.fxsr
    | 1 => s.feat.fxsr
    | 2 => s.feat.sse
    | 3 => s.feat.sse
    | _ => s.feat.xsave
  | _ => s.hasMedia

/-- Prefixes that end in 66 (30_encoding.md R161). -/
def execPrefixOpSize (s : State) : Host.Outcome State Fault Refusal := onlyPrefixes s

/-- Prefixes that end in 67 (30_encoding.md R161). -/
def execPrefixAddrSize (s : State) : Host.Outcome State Fault Refusal := onlyPrefixes s

/-- Prefixes that end in 2E (30_encoding.md R161). -/
def execPrefixCs (s : State) : Host.Outcome State Fault Refusal := onlyPrefixes s

/-- Prefixes that end in 3E (30_encoding.md R161). -/
def execPrefixDs (s : State) : Host.Outcome State Fault Refusal := onlyPrefixes s

/-- Prefixes that end in 26 (30_encoding.md R161). -/
def execPrefixEs (s : State) : Host.Outcome State Fault Refusal := onlyPrefixes s

/-- Prefixes that end in 64 (30_encoding.md R161). -/
def execPrefixFs (s : State) : Host.Outcome State Fault Refusal := onlyPrefixes s

/-- Prefixes that end in 65 (30_encoding.md R161). -/
def execPrefixGs (s : State) : Host.Outcome State Fault Refusal := onlyPrefixes s

/-- Prefixes that end in 36 (30_encoding.md R161). -/
def execPrefixSs (s : State) : Host.Outcome State Fault Refusal := onlyPrefixes s

/-- Prefixes that end in F0 (30_encoding.md R161). -/
def execPrefixLock (s : State) : Host.Outcome State Fault Refusal := onlyPrefixes s

/-- Prefixes that end in F3 (30_encoding.md R161). -/
def execPrefixRep (s : State) : Host.Outcome State Fault Refusal := onlyPrefixes s

/-- Prefixes that end in F2 (30_encoding.md R161). -/
def execPrefixRepne (s : State) : Host.Outcome State Fault Refusal := onlyPrefixes s

/-- Prefixes that end in 40 to 4F (30_encoding.md R161). -/
def execPrefixRex (s : State) : Host.Outcome State Fault Refusal := onlyPrefixes s

/-- Another volume's instruction behind a three-byte VEX prefix (31_opcode_maps.md R279). -/
def execPrefixVex3 (_map : BitVec 5) (_op : Byte) (s : State) : Host.Outcome State Fault Refusal := otherVolume s.feat.avx s

/-- Another volume's instruction behind a two-byte VEX prefix (31_opcode_maps.md R279). -/
def execPrefixVex2 (_op : Byte) (s : State) : Host.Outcome State Fault Refusal := otherVolume s.feat.avx s

/-- Another volume's instruction behind an XOP prefix (31_opcode_maps.md R280). -/
def execPrefixXop (_map : BitVec 5) (_op : Byte) (s : State) : Host.Outcome State Fault Refusal := otherVolume s.feat.xop s

/-- Another volume's instruction of the secondary map (31_opcode_maps.md R259). -/
def execEscape0F (op modrm : Byte) (s : State) : Host.Outcome State Fault Refusal := otherVolume (s.hasEscape op modrm) s

/-- Another volume's instruction of this map: all are of the media extensions (31_opcode_maps.md R268). -/
def execEscape0F38 (_op _modrm : Byte) (s : State) : Host.Outcome State Fault Refusal := otherVolume s.hasMedia s

/-- Another volume's instruction of this map: all are of the media extensions (31_opcode_maps.md R269). -/
def execEscape0F3A (_op _modrm : Byte) (s : State) : Host.Outcome State Fault Refusal := otherVolume s.hasMedia s

/-- An x87 instruction (31_opcode_maps.md R282). -/
def execX87 (_op : BitVec 3) (_modrm : Byte) (s : State) : Host.Outcome State Fault Refusal := otherVolume s.feat.fpu s

/-- WAIT, an x87 instruction (31_opcode_maps.md R282). -/
def execWait (s : State) : Host.Outcome State Fault Refusal := otherVolume s.feat.fpu s

/-- A 3DNow! instruction (31_opcode_maps.md R281). -/
def execThreeDNow (_op _modrm : Byte) (s : State) : Host.Outcome State Fault Refusal := otherVolume s.feat.threeDNow s

/-- Opcode D6 (31_opcode_maps.md R242, D48). -/
def execReservedD6 (s : State) : Host.Outcome State Fault Refusal := reservedCode s

/-- Group 3 with /1 (31_opcode_maps.md R247, D48). -/
def execReservedGroup3 (_w : Width) (s : State) : Host.Outcome State Fault Refusal := reservedCode s

end Sys2Proof.Machine
end

