-- ==== Sys2Proof/Machine/SysSeg.lean ====
section
/-! DEFINITION. System instructions on selectors, descriptors and descriptor-table registers (50_sys_a_l.md R700, R722 to
R728, 52_sys_s_w.md R822, R823, R825, R826, R830, R837, R838). -/

namespace Sys2Proof.Machine

/-- The instruction exists in protected mode only (50_sys_a_l.md R722). -/
def State.needProt (t : State) : Res Unit := require t.protMode ud

/-- A privileged instruction (60_exceptions.md R928, D34). -/
def State.needCpl0 (t : State) : Res Unit := require (t.cpl == 0) gp0

/-- ARPL: a memory destination is checked for writing whether or not it is written (50_sys_a_l.md R700, D33). -/
def execArpl (rm : RM) (r : Gpr) (s : State) : Host.Outcome State Fault Refusal :=
  run s fun t => do
    t.needProt
    let p ← t.place .w16 true rm
    let d := t.getAt .w16 p
    let new : BitVec 2 := (t.reg r).extractLsb' 0 2
    if d.extractLsb' 0 2 < new then
      .ok ((t.putAt .w16 p ((d &&& 0xFFFC) ||| new.setWidth 64)).setFlags { t.flags with zf := true })
    else .ok (t.setFlags { t.flags with zf := false })

/-! ### Queries of a descriptor -/

/-- The quadword at `plus` bytes into the descriptor a selector names, or nothing when the selector is null or outside
its table (50_sys_a_l.md R722). -/
def State.queryQuad (t : State) (sel : BitVec 16) (plus : Nat) : Res (Option Quad) :=
  let off := (sel &&& 0xFFF8).toNat + plus
  let ldt := sel.getLsbD 2
  let limit := if ldt then t.ldtr.limit else t.gdtr.limit.setWidth 32
  if isNull sel || (ldt && isNull t.ldtr.sel) || limit.toNat < off + 7 then .ok none
  else do
    let d ← t.sysReadLin ((if ldt then t.ldtr.base else t.gdtr.base) + BitVec.ofNat 64 off) 8
    .ok (some d)

/-- The privilege rule of LAR, LSL and VERR (50_sys_a_l.md R722, 52_sys_s_w.md R837). -/
def State.queryPriv (t : State) (sel : BitVec 16) (a : SegAttr) : Bool :=
  a.conforming || (t.cpl ≤ a.dpl && rpl sel ≤ a.dpl)

/-- The system types LAR accepts (50_sys_a_l.md R722). -/
def larType (long : Bool) (type : BitVec 4) : Bool :=
  type == 2 || type == 9 || type == 0xB || type == 0xC ||
    (!long && (type == 1 || type == 3 || type == 4 || type == 5))

/-- The system types LSL accepts (50_sys_a_l.md R727). -/
def lslType (long : Bool) (type : BitVec 4) : Bool :=
  type == 2 || type == 9 || type == 0xB || (!long && (type == 1 || type == 3))

/-- The type field of the second quadword must be zero: for LDT and TSS descriptors in 64-bit mode, for call gates in long
mode (50_sys_a_l.md R722). -/
def State.needsUpper (t : State) (a : SegAttr) : Bool :=
  !a.s && (if a.type == 0xC then t.longMode else t.mode64)

/-- The descriptor LAR or LSL finds, if every check holds; `types` are the system types accepted (50_sys_a_l.md R722,
R727). -/
def State.queryDesc (t : State) (types : Bool → BitVec 4 → Bool) (sel : BitVec 16) : Res (Option Quad) := do
  match ← t.queryQuad sel 0 with
  | none => .ok none
  | some d =>
    let a := descAttr d
    if !t.queryPriv sel a || !(a.s || types t.longMode a.type) then .ok none
    else if t.needsUpper a then
      match ← t.queryQuad sel 8 with
      | none => .ok none
      | some hi => .ok (if hi.extractLsb' 40 5 == 0 then some d else none)
    else .ok (some d)

/-- ZF as the answer of a query. -/
def State.answer (t : State) (ok : Bool) : State := t.setFlags { t.flags with zf := ok }

/-- The access rights LAR returns (50_sys_a_l.md R722). -/
def accessRights (w : Width) (d : Quad) : Quad :=
  if w = .w16 then (d >>> 32) &&& 0xFF00 else (d >>> 32) &&& 0x00FFFF00

/-- LAR (50_sys_a_l.md R722). -/
def execLar (w : Width) (dst : Gpr) (src : RM) (s : State) : Host.Outcome State Fault Refusal :=
  run s fun t => do
    t.needProt
    let sel ← t.readRM .w16 src
    match ← t.queryDesc larType (sel.setWidth 16) with
    | none => .ok (t.answer false)
    | some d => .ok ((t.writeGpr w dst (accessRights w d)).answer true)

/-- LSL (50_sys_a_l.md R727). -/
def execLsl (w : Width) (dst : Gpr) (src : RM) (s : State) : Host.Outcome State Fault Refusal :=
  run s fun t => do
    t.needProt
    let sel ← t.readRM .w16 src
    match ← t.queryDesc lslType (sel.setWidth 16) with
    | none => .ok (t.answer false)
    | some d => .ok ((t.writeGpr w dst ((descLimit d).setWidth 64)).answer true)

/-- VERR (52_sys_s_w.md R837). -/
def execVerr (rm : RM) (s : State) : Host.Outcome State Fault Refusal :=
  run s fun t => do
    t.needProt
    let sel ← t.readRM .w16 rm
    let d ← t.queryQuad (sel.setWidth 16) 0
    .ok (t.answer (d.any fun d => (descAttr d).readable && t.queryPriv (sel.setWidth 16) (descAttr d)))

/-- VERW (52_sys_s_w.md R838). -/
def execVerw (rm : RM) (s : State) : Host.Outcome State Fault Refusal :=
  run s fun t => do
    t.needProt
    let sel ← t.readRM .w16 rm
    let d ← t.queryQuad (sel.setWidth 16) 0
    .ok (t.answer (d.any fun d => (descAttr d).writable && t.queryPriv (sel.setWidth 16) (descAttr d)))

/-! ### GDTR and IDTR -/

/-- The pseudo-descriptor of LGDT and LIDT (50_sys_a_l.md R723, D36). -/
def State.readPseudo (t : State) (w : Width) (m : Mem) : Res TableReg := do
  t.needCpl0
  let limit ← t.readM m 2
  let at2 := t.ea m + 2
  let base ← t.readMem m.seg at2 (if t.mode64 then 8 else 4)
  require (!t.mode64 || t.canonical base) gp0
  .ok { limit := limit.setWidth 16, base := if !t.mode64 && w = .w16 then base &&& 0xFFFFFF else base }

/-- LGDT (50_sys_a_l.md R723). -/
def execLgdt (w : Width) (m : Mem) (s : State) : Host.Outcome State Fault Refusal :=
  run s fun t => do
    let r ← t.readPseudo w m
    .ok { t with gdtr := r }

/-- LIDT (50_sys_a_l.md R724). -/
def execLidt (w : Width) (m : Mem) (s : State) : Host.Outcome State Fault Refusal :=
  run s fun t => do
    let r ← t.readPseudo w m
    .ok { t with idtr := r }

/-- SGDT and SIDT: the operand size has no effect (52_sys_s_w.md R822, R823). -/
def State.storePseudo (t : State) (r : TableReg) (m : Mem) : Res State := do
  let u ← t.writeM m 2 (r.limit.setWidth 64)
  u.writeMem m.seg (t.ea m + 2) (if t.mode64 then 8 else 4) (if t.mode64 then r.base else trunc .w32 r.base)

/-- SGDT (52_sys_s_w.md R822). -/
def execSgdt (m : Mem) (s : State) : Host.Outcome State Fault Refusal := run s fun t => t.storePseudo t.gdtr m

/-- SIDT (52_sys_s_w.md R823). -/
def execSidt (m : Mem) (s : State) : Host.Outcome State Fault Refusal := run s fun t => t.storePseudo t.idtr m

/-! ### LDTR and TR -/

/-- A system descriptor that LLDT or LTR loads; in 64-bit mode it has 16 bytes (50_sys_a_l.md R725, R728). -/
structure SysDesc where
  reg : SegReg
  present : Bool

/-- The system descriptor a selector names in the GDT, its type checked (50_sys_a_l.md R725, R728). DEDUCED (log 49): 16 bytes in
64-bit mode and 8 in compatibility mode, as the two pages say; the summary of 31_opcode_maps.md R278 says 16 in both. -/
def State.readSysDesc (t : State) (sel : BitVec 16) (ok : BitVec 4 → Bool) : Res SysDesc := do
  require (!sel.getLsbD 2) (gpSel sel)
  require ((sel &&& 0xFFF8).toNat + (if t.mode64 then 15 else 7) ≤ t.gdtr.limit.toNat) (gpSel sel)
  let d ← t.descQuad (gpSel sel) sel 0
  let hi ← if t.mode64 then t.descQuad (gpSel sel) sel 8 else .ok 0
  let a := descAttr d
  require (!a.s && ok a.type) (gpSel sel)
  require (hi.extractLsb' 40 5 == 0) (gpSel sel)
  let base := descBase d + (hi <<< 32)
  require (!t.mode64 || t.canonical base) (gpSel sel)
  .ok { reg := { descSeg sel d with base }, present := a.p }

/-- LLDT (50_sys_a_l.md R725). -/
def execLldt (rm : RM) (s : State) : Host.Outcome State Fault Refusal :=
  run s fun t => do
    t.needProt
    t.needCpl0
    let v ← t.readRM .w16 rm
    let sel : BitVec 16 := v.setWidth 16
    if isNull sel then .ok { t with ldtr := { t.ldtr with sel } }
    else do
      let d ← t.readSysDesc sel (· == 2)
      require d.present (excSel .np sel)
      .ok { t with ldtr := d.reg }

/-- The busy bit set in the TSS descriptor at a selector (50_sys_a_l.md R728). -/
def State.setBusy (t : State) (sel : BitVec 16) : Res State := do
  let lin := t.gdtr.base + BitVec.ofNat 64 ((sel &&& 0xFFF8).toNat + 5)
  let ps ← t.sysSpan .write lin 1
  .ok (t.storeAt ps (t.loadAt ps ||| 2))

/-- LTR (50_sys_a_l.md R728, D37). -/
def execLtr (rm : RM) (s : State) : Host.Outcome State Fault Refusal :=
  run s fun t => do
    t.needProt
    t.needCpl0
    let v ← t.readRM .w16 rm
    let sel : BitVec 16 := v.setWidth 16
    require (!isNull sel) gp0
    let d ← t.readSysDesc sel fun type => type == 9 || (type == 1 && !t.longMode)
    require d.present (excSel .np sel)
    let u ← t.setBusy sel
    .ok { u with tr := { d.reg with attr := { d.reg.attr with type := d.reg.attr.type ||| 2 } } }

/-- A 16-bit word stored: zero-extended into a register, two bytes in memory (52_sys_s_w.md R825). -/
def State.storeWord (t : State) (w : Width) (rm : RM) (v : Quad) : Res State :=
  match rm with
  | .reg g => .ok (t.writeGReg w g v)
  | .mem m => t.writeM m 2 (trunc .w16 v)

/-- SLDT (52_sys_s_w.md R825). -/
def execSldt (w : Width) (rm : RM) (s : State) : Host.Outcome State Fault Refusal :=
  run s fun t => do
    t.needProt
    t.storeWord w rm (t.ldtr.sel.setWidth 64)

/-- STR (52_sys_s_w.md R830). -/
def execStr (w : Width) (rm : RM) (s : State) : Host.Outcome State Fault Refusal :=
  run s fun t => do
    t.needProt
    t.storeWord w rm (t.tr.sel.setWidth 64)

/-! ### The machine status word -/

/-- SMSW (52_sys_s_w.md R826). -/
def execSmsw (w : Width) (rm : RM) (s : State) : Host.Outcome State Fault Refusal :=
  run s fun t => t.storeWord w rm t.ctl.cr0

/-- CR0 with its low four bits loaded from a machine status word; PE cannot be cleared (50_sys_a_l.md R726). -/
def mswCr0 (cr0 v : Quad) : Quad := (cr0 &&& ~~~(0xE : Quad)) ||| (v &&& 0xF)

/-- LMSW (50_sys_a_l.md R726). -/
def execLmsw (rm : RM) (s : State) : Host.Outcome State Fault Refusal :=
  run s fun t => do
    t.needCpl0
    let v ← t.readRM .w16 rm
    .ok (t.setCr0 (mswCr0 t.ctl.cr0 v))

end Sys2Proof.Machine
end

