-- ==== Sys2Proof/Machine/Shadow.lean ====
section
/-! DEFINITION. The shadow-stack instructions (50_sys_a_l.md R706, R708, 51_sys_m_r.md R770, R776, 52_sys_s_w.md R820,
R821, R847, R848). -/

namespace Sys2Proof.Machine

/-- The linear address of a shadow-stack operand, with the checks of a data write (50_sys_a_l.md R706, 51_sys_m_r.md
R776). -/
def State.sstkOperand (t : State) (m : Mem) (n : Nat) : Res Quad := do
  t.segCheck (segFault m.seg) m.seg (t.ea m) n true
  let lin := t.linear m.seg (t.ea m)
  require (lin.toNat % n == 0) gp0
  .ok lin

/-- Shadow stacks are enabled at the current level (50_sys_a_l.md R708). -/
def State.needShadow (t : State) : Res Unit := require (t.feat.cetSs && t.shadowEnabled t.cpl) ud

/-- The checks of CLRSSBSY and SETSSBSY (50_sys_a_l.md R706, 52_sys_s_w.md R821). -/
def State.needBusy (t : State) : Res Unit := do
  require (t.feat.cetSs && t.protMode && t.cr4Bit 23) ud
  require (t.cet.sCet.getLsbD 0) ud
  t.needCpl0

/-- The flags of the token instructions: CF tells, the other status flags are cleared (50_sys_a_l.md R706). -/
def Flags.token (f : Flags) (cf : Bool) : Flags :=
  { f with zf := false, pf := false, af := false, of := false, sf := false, cf := cf }

/-- CLRSSBSY: an invalid token is written back unchanged (50_sys_a_l.md R706). -/
def execClrssbsy (m : Mem) (s : State) : Host.Outcome State Fault Refusal :=
  run s fun t => do
    t.needBusy
    let lin ← t.sstkOperand m 8
    let token ← t.sstkRead lin 8
    let valid := token.getLsbD 0 && (token &&& ~~~(1 : Quad)) == lin
    let u ← t.clearToken lin false
    let u := u.setFlags (t.flags.token (!valid))
    .ok (if valid then u.setSsp 0 else u)

/-- SETSSBSY (52_sys_s_w.md R821). -/
def execSetssbsy (s : State) : Host.Outcome State Fault Refusal :=
  run s fun t => do
    t.needBusy
    let ssp := t.cet.pl0Ssp
    require (ssp.extractLsb' 0 3 == 0) gp0
    let token ← t.sstkRead ssp 8
    let ok := (t.mode64 || token.extractLsb' 32 32 == 0) && !token.getLsbD 0 && (token &&& ~~~(1 : Quad)) == ssp
    let u ← t.sstkWrite ssp 8 (if ok then token ||| 1 else token)
    require ok (cp .setssbsy)
    .ok (u.setSsp ssp)

/-- INCSSP of `n`-byte elements: the first and last element of the range are touched (50_sys_a_l.md R708). -/
def State.incSsp (t : State) (n : Nat) (r : Gpr) : Res State := do
  t.needShadow
  let c := ((t.reg r).extractLsb' 0 8).toNat
  let items := if c = 0 then 1 else c
  let _ ← t.sstkRead t.cet.ssp n
  let _ ← t.sstkRead (t.cet.ssp + BitVec.ofNat 64 (items * n - n)) n
  .ok (t.setSsp (t.cet.ssp + BitVec.ofNat 64 (c * n)))

/-- INCSSPD (50_sys_a_l.md R708). -/
def execIncsspd (r : Gpr) (s : State) : Host.Outcome State Fault Refusal := run s fun t => t.incSsp 4 r

/-- INCSSPQ (50_sys_a_l.md R708). -/
def execIncsspq (r : Gpr) (s : State) : Host.Outcome State Fault Refusal := run s fun t => t.incSsp 8 r

/-- RDSSPD: a NOP where shadow stacks are not enabled (51_sys_m_r.md R770). -/
def execRdsspd (r : Gpr) (s : State) : Host.Outcome State Fault Refusal :=
  run s fun t => .ok (if t.shadowEnabled t.cpl then t.writeGpr .w32 r t.cet.ssp else t)

/-- RDSSPQ: a NOP where shadow stacks are not enabled (51_sys_m_r.md R770). -/
def execRdsspq (r : Gpr) (s : State) : Host.Outcome State Fault Refusal :=
  run s fun t => .ok (if t.shadowEnabled t.cpl then t.writeGpr .w64 r t.cet.ssp else t)

/-- A restore token is valid for its linear address (51_sys_m_r.md R776). -/
def restoreValid (mode64 : Bool) (token lin : Quad) : Bool :=
  !token.getLsbD 1 && token.getLsbD 0 == mode64 && (mode64 || token.extractLsb' 32 32 == 0) &&
    (((token &&& ~~~(1 : Quad)) - 8) &&& ~~~(7 : Quad)) == lin

/-- RSTORSSP (51_sys_m_r.md R776). -/
def execRstorssp (m : Mem) (s : State) : Host.Outcome State Fault Refusal :=
  run s fun t => do
    t.needShadow
    let lin ← t.sstkOperand m 8
    let token ← t.sstkRead lin 8
    let valid := restoreValid t.mode64 token lin
    let u ← t.sstkWrite lin 8 (if valid then t.cet.ssp ||| bit t.mode64 ||| 2 else token)
    require valid (cp .rstorssp)
    .ok ((u.setSsp lin).setFlags (t.flags.token (token.getLsbD 2)))

/-- The address above the previous-SSP token, past the alignment hole that CF announces (52_sys_s_w.md R820). -/
def State.pastHole (t : State) : Res Quad :=
  if t.flags.cf then do
    require (!t.mode64) gp0
    let hole ← t.sstkRead (t.cet.ssp + 8) 4
    require (hole == 0) gp0
    .ok (t.cet.ssp + 12)
  else .ok (t.cet.ssp + 8)

/-- SAVEPREVSSP (52_sys_s_w.md R820). -/
def execSaveprevssp (s : State) : Host.Outcome State Fault Refusal :=
  run s fun t => do
    t.needShadow
    require (t.cet.ssp.extractLsb' 0 3 == 0) gp0
    let token ← t.sstkRead t.cet.ssp 8
    let ssp ← t.pastHole
    require (token.getLsbD 1) gp0
    require (token.getLsbD 0 == t.mode64) gp0
    require (t.mode64 || token.extractLsb' 32 32 == 0) gp0
    let old := token &&& ~~~(3 : Quad)
    let u ← t.sstkWrite (old - 4) 4 0
    let u ← u.sstkWrite ((old &&& ~~~(7 : Quad)) - 8) 8 (old ||| bit t.mode64)
    .ok (u.setSsp ssp)

/-- WRSS is enabled by WR_SHSTK_EN of the current level (52_sys_s_w.md R847). -/
def State.needWrss (t : State) : Res Unit := do
  t.needShadow
  require (if t.cpl == 3 then t.cet.uCet.getLsbD 1 else t.cet.sCet.getLsbD 1) ud

/-- WRSS of `n` bytes (52_sys_s_w.md R847). -/
def State.wrss (t : State) (n : Nat) (m : Mem) (r : Gpr) : Res State := do
  t.needWrss
  let lin ← t.sstkOperand m n
  t.sstkWrite lin n (t.reg r)

/-- WRSSD (52_sys_s_w.md R847). -/
def execWrssd (m : Mem) (r : Gpr) (s : State) : Host.Outcome State Fault Refusal := run s fun t => t.wrss 4 m r

/-- WRSSQ (52_sys_s_w.md R847). -/
def execWrssq (m : Mem) (r : Gpr) (s : State) : Host.Outcome State Fault Refusal := run s fun t => t.wrss 8 m r

/-- WRUSS of `n` bytes, a user access (52_sys_s_w.md R848). -/
def State.wruss (t : State) (n : Nat) (m : Mem) (r : Gpr) : Res State := do
  require (t.feat.cetSs && t.protMode && t.cr4Bit 23) ud
  t.needCpl0
  let lin ← t.sstkOperand m n
  let ps ← t.sstkSpan true true lin n
  .ok (t.storeAt ps (t.reg r).toNat)

/-- WRUSSD (52_sys_s_w.md R848). -/
def execWrussd (m : Mem) (r : Gpr) (s : State) : Host.Outcome State Fault Refusal := run s fun t => t.wruss 4 m r

/-- WRUSSQ (52_sys_s_w.md R848). -/
def execWrussq (m : Mem) (r : Gpr) (s : State) : Host.Outcome State Fault Refusal := run s fun t => t.wruss 8 m r

end Sys2Proof.Machine
end

