-- ==== Sys2Proof/Decode.lean ====
section
/-! DEFINITION. The decoder: a total function from bytes to an instruction and its length, rejecting by name, and after
it the encoder. Written from 30_encoding.md R160 to R205 and 31_opcode_maps.md R230 to R284. -/

namespace Sys2Proof

/-- Why bytes are no instruction. `truncated` means that more bytes are needed; every other reason is #UD. -/
inductive DecodeError where
  /-- The bytes end inside the instruction (30_encoding.md R161, R162 step 8). -/
  | truncated
  /-- A reserved code point (31_opcode_maps.md R231, D48). -/
  | reserved
  /-- F0 before an instruction that cannot be locked (20_memory.md R123). -/
  | lockNotAllowed
  /-- 66, F2, F3, F0 or REX before a VEX or XOP prefix, or a wrong field in it (30_encoding.md R205). -/
  | badExtendedPrefix
  deriving DecidableEq, Repr

/-- What the bytes before the opcode say (30_encoding.md R163, R174, R201). -/
structure Env where
  c : Ctx
  opsz : Bool := false
  addr : Bool := false
  seg : Option SegName := none
  lock : Bool := false
  rep : Rep := .none
  rex : Bool := false
  w : Bool := false
  r : Bool := false
  x : Bool := false
  b : Bool := false
  deriving DecidableEq, Repr

/-- A parser over the bytes of an instruction. -/
abbrev Parser (α : Type) := List Byte → Except DecodeError (α × List Byte)

namespace Parser

/-- The parser that reads nothing. -/
def ret {α : Type} (a : α) : Parser α := fun bs => .ok (a, bs)

/-- The parser that rejects. -/
def fail {α : Type} (e : DecodeError) : Parser α := fun _ => .error e

/-- One parser after another. -/
def andThen {α β : Type} (p : Parser α) (f : α → Parser β) : Parser β := fun bs =>
  match p bs with
  | .ok (a, rest) => f a rest
  | .error e => .error e

/-- A parser's result, changed. -/
def map {α β : Type} (f : α → β) (p : Parser α) : Parser β := p.andThen fun a => ret (f a)

/-- Read all that `p` reads, then reject: the bytes of an entry come before its #UD (30_encoding.md R162 steps 6 to 9). -/
def reject {α β : Type} (e : DecodeError) (p : Parser α) : Parser β := p.andThen fun _ => fail e

/-- One byte. -/
def byte : Parser Byte := fun bs =>
  match bs with
  | b :: rest => .ok (b, rest)
  | [] => .error .truncated

/-- Two bytes, the first the lower (30_encoding.md R190). -/
def word : Parser (BitVec 16) := byte.andThen fun lo => byte.andThen fun hi => ret (hi ++ lo)

/-- Four bytes. -/
def dword : Parser (BitVec 32) := word.andThen fun lo => word.andThen fun hi => ret (hi ++ lo)

/-- Eight bytes. -/
def qword : Parser (BitVec 64) := dword.andThen fun lo => dword.andThen fun hi => ret (hi ++ lo)

/-- The next byte, not consumed. -/
def peek : Parser Byte := fun bs =>
  match bs with
  | b :: _ => .ok (b, bs)
  | [] => .error .truncated

end Parser

open Sys2Proof.Parser

/-- `mod` of a ModRM byte, `scale` of a SIB byte (30_encoding.md R179). -/
def modField (b : Byte) : BitVec 2 := b.extractLsb' 6 2

/-- `reg` of a ModRM byte, `index` of a SIB byte. -/
def regField (b : Byte) : BitVec 3 := b.extractLsb' 3 3

/-- `r/m` of a ModRM byte, `base` of a SIB byte, the register number in an opcode byte. -/
def rmField (b : Byte) : BitVec 3 := b.extractLsb' 0 3

/-- A three-bit register field with its extension bit (30_encoding.md R178). -/
def extend (e : Bool) (f : BitVec 3) : BitVec 4 := (bit e : BitVec 1) ++ f

/-- The ModRM.r/m operand before its width is known: a register number or a memory operand. -/
inductive RawRM where
  | reg (n : BitVec 4)
  | mem (m : Mem)
  deriving DecidableEq, Repr

/-- A register number as an operand of width `w` (30_encoding.md R176). -/
def Env.greg (e : Env) (w : Width) (n : BitVec 4) : GReg :=
  if w == .w8 && !e.rex && n.ule 7 && n.ule 3 == false then { r := .ofNum (n - 4), high := true }
  else { r := .ofNum n }

/-- The ModRM.r/m operand at width `w`. -/
def Env.rm (e : Env) (w : Width) : RawRM → RM
  | .reg n => .reg (e.greg w n)
  | .mem m => .mem m

/-- The effective operand size; `d64` for the rows that default to 64 bits (30_encoding.md R170, 31_opcode_maps.md R270). -/
def Env.opsize (e : Env) (d64 : Bool) : Width :=
  if e.c.mode64 then
    if e.w then .w64 else if e.opsz then .w16 else if d64 then .w64 else .w32
  else if e.c.d32 == e.opsz then .w16 else .w32

/-- The operand size `y`: 32 bits, or 64 with REX.W (31_opcode_maps.md R232). -/
def Env.ysize (e : Env) : Width := if e.c.mode64 && e.w then .w64 else .w32

/-- The effective address size (30_encoding.md R171). -/
def Env.asize (e : Env) : ASize :=
  if e.c.mode64 then if e.addr then .a32 else .a64
  else if e.c.d32 == e.addr then .a16 else .a32

/-- The segment of a memory operand with its default (20_memory.md R104). -/
def Env.segOr (e : Env) (dflt : SegName) : SegName := e.seg.getD dflt

/-- An address with its default segment. -/
def Env.mkMem (e : Env) (b : Base) (i : Option Index) (d : BitVec 64) : RawRM :=
  .mem { seg := e.segOr (WellFormed.defaultSeg b), base := b, index := i, disp := d, asz := e.asize }

/-- A sign-extended displacement of one byte. -/
def disp8 : Parser (BitVec 64) := byte.map (·.signExtend 64)

/-- A sign-extended displacement of two bytes. -/
def disp16 : Parser (BitVec 64) := word.map (·.signExtend 64)

/-- A sign-extended displacement of four bytes. -/
def disp32 : Parser (BitVec 64) := dword.map (·.signExtend 64)

/-- The displacement that `mod` asks for in 32-bit and 64-bit addressing (30_encoding.md R180). -/
def dispMod (m : BitVec 2) : Parser (BitVec 64) :=
  if m = 0 then ret 0 else if m = 1 then disp8 else disp32

/-- Base and index of the 16-bit forms (30_encoding.md R181). -/
def base16 (f : BitVec 3) : Base × Option Index :=
  match f.toNat with
  | 0 => (.reg .rbx, some ⟨.rsi, 0⟩)
  | 1 => (.reg .rbx, some ⟨.rdi, 0⟩)
  | 2 => (.reg .rbp, some ⟨.rsi, 0⟩)
  | 3 => (.reg .rbp, some ⟨.rdi, 0⟩)
  | 4 => (.reg .rsi, none)
  | 5 => (.reg .rdi, none)
  | 6 => (.reg .rbp, none)
  | _ => (.reg .rbx, none)

/-- A memory operand with 16-bit addressing (30_encoding.md R181). -/
def Env.mem16 (e : Env) (m : BitVec 2) (f : BitVec 3) : Parser RawRM :=
  if m = 0 ∧ f = 6 then disp16.map fun d => e.mkMem .none none d
  else (if m = 0 then ret 0 else if m = 1 then disp8 else disp16).map fun d => e.mkMem (base16 f).1 (base16 f).2 d

/-- The SIB byte and its displacement (30_encoding.md R180). -/
def Env.sib (e : Env) (m : BitVec 2) : Parser RawRM :=
  byte.andThen fun s =>
    let xi := extend e.x (regField s)
    let i : Option Index := if xi = 4 then none else some ⟨.ofNum xi, modField s⟩
    if rmField s = 5 ∧ m = 0 then disp32.map fun d => e.mkMem .none i d
    else (dispMod m).map fun d => e.mkMem (.reg (.ofNum (extend e.b (rmField s)))) i d

/-- A memory operand with 32-bit or 64-bit addressing (30_encoding.md R180). -/
def Env.mem32 (e : Env) (m : BitVec 2) (f : BitVec 3) : Parser RawRM :=
  if f = 4 then e.sib m
  else if m = 0 ∧ f = 5 then disp32.map fun d => e.mkMem (if e.c.mode64 then .rip else .none) none d
  else (dispMod m).map fun d => e.mkMem (.reg (.ofNum (extend e.b f))) none d

/-- The r/m operand of a ModRM byte. -/
def Env.rmOf (e : Env) (b : Byte) : Parser RawRM :=
  if modField b = 3 then ret (.reg (extend e.b (rmField b)))
  else if e.asize = .a16 then e.mem16 (modField b) (rmField b)
  else e.mem32 (modField b) (rmField b)

/-- A ModRM byte with its operand: the `reg` number (extended by R) and the r/m operand. -/
def Env.modrm (e : Env) : Parser (BitVec 4 × RawRM) :=
  byte.andThen fun b => (e.rmOf b).map fun r => (extend e.r (regField b), r)

/-- The three-bit `reg` field of an extended register number: an opcode extension /n (31_opcode_maps.md R232). -/
def slash (n : BitVec 4) : Nat := (n.setWidth 3).toNat

/-- ModRM, then a function of the register and r/m operands at width `w`. -/
def Env.gE (e : Env) (w : Width) (f : GReg → RM → Instr) : Parser Instr :=
  e.modrm.map fun (n, r) => f (e.greg w n) (e.rm w r)

/-- The same with a plain register in ModRM.reg. -/
def Env.rE (e : Env) (w : Width) (f : Gpr → RM → Instr) : Parser Instr :=
  e.modrm.map fun (n, r) => f (.ofNum n) (e.rm w r)

/-- A ModRM byte whose operand must be in memory; a register form is reserved. -/
def Env.gM (e : Env) (f : Gpr → Mem → Instr) : Parser Instr :=
  e.modrm.andThen fun (n, r) =>
    match r with
    | .mem m => ret (f (.ofNum n) m)
    | .reg _ => fail .reserved

/-- An immediate of width min(w, 32), sign-extended (30_encoding.md R190 `Iz`). -/
def immz (w : Width) : Parser (BitVec 64) :=
  match w with
  | .w8 => disp8
  | .w16 => disp16
  | _ => disp32

/-- The immediate of `B8`+r (30_encoding.md R190 `Iv`). -/
def immv (w : Width) : Parser (BitVec 64) :=
  match w with
  | .w64 => qword
  | w => immz w

/-- The width of a row whose opcode's low bit selects byte or operand size. -/
def Env.bv (e : Env) (op : Byte) : Width := if op.getLsbD 0 then e.opsize false else .w8

/-- The accumulator as an operand. -/
def acc : GReg := { r := .rax }

/-- An arithmetic-logic instruction by its number in the rows of the primary map and Group 1 (31_opcode_maps.md R233, R246). -/
def aluInstr (n : Nat) (w : Width) (f : AluForm) (lock : Bool) : Instr :=
  match n with
  | 0 => .add w f lock
  | 1 => .or w f lock
  | 2 => .adc w f lock
  | 3 => .sbb w f lock
  | 4 => .and w f lock
  | 5 => .sub w f lock
  | 6 => .xor w f lock
  | _ => .cmp w f

/-- A shift or rotate of Group 2 (31_opcode_maps.md R245). -/
def shiftInstr (n : Nat) (w : Width) (r : RM) (cnt : ShiftCount) : Instr :=
  match n with
  | 0 => .rol w r cnt
  | 1 => .ror w r cnt
  | 2 => .rcl w r cnt
  | 3 => .rcr w r cnt
  | 4 => .shl w r cnt
  | 5 => .shr w r cnt
  | 6 => .shl w r cnt
  | _ => .sar w r cnt

/-- Jcc by condition number (31_opcode_maps.md R251). -/
def jccInstr (n : Nat) (w : Width) (d : BitVec 64) : Instr :=
  match n with
  | 0 => .jo w d | 1 => .jno w d | 2 => .jb w d | 3 => .jnb w d | 4 => .jz w d | 5 => .jnz w d | 6 => .jbe w d
  | 7 => .jnbe w d | 8 => .js w d | 9 => .jns w d | 10 => .jp w d | 11 => .jnp w d | 12 => .jl w d | 13 => .jnl w d
  | 14 => .jle w d | _ => .jnle w d

/-- SETcc by condition number. -/
def setccInstr (n : Nat) (r : RM) : Instr :=
  match n with
  | 0 => .seto r | 1 => .setno r | 2 => .setb r | 3 => .setnb r | 4 => .setz r | 5 => .setnz r | 6 => .setbe r
  | 7 => .setnbe r | 8 => .sets r | 9 => .setns r | 10 => .setp r | 11 => .setnp r | 12 => .setl r | 13 => .setnl r
  | 14 => .setle r | _ => .setnle r

/-- CMOVcc by condition number. -/
def cmovInstr (n : Nat) (w : Width) (d : Gpr) (s : RM) : Instr :=
  match n with
  | 0 => .cmovo w d s | 1 => .cmovno w d s | 2 => .cmovb w d s | 3 => .cmovnb w d s | 4 => .cmovz w d s
  | 5 => .cmovnz w d s | 6 => .cmovbe w d s | 7 => .cmovnbe w d s | 8 => .cmovs w d s | 9 => .cmovns w d s
  | 10 => .cmovp w d s | 11 => .cmovnp w d s | 12 => .cmovl w d s | 13 => .cmovnl w d s | 14 => .cmovle w d s
  | _ => .cmovnle w d s

/-- The low nibble of an opcode byte. -/
def lowNibble (op : Byte) : Nat := (op.setWidth 4).toNat

/-- Primary map `00` to `3F` (31_opcode_maps.md R233). -/
def decode00 (e : Env) (op : Byte) : Parser Instr :=
  let n := slash ((op.extractLsb' 3 3).setWidth 4)
  let w := e.bv op
  if op = 0x06 then ret (.push (e.opsize true) (.seg .es))
  else if op = 0x07 then ret (.pop (e.opsize true) (.seg .es))
  else if op = 0x0E then ret (.push (e.opsize true) (.seg .cs))
  else if op = 0x16 then ret (.push (e.opsize true) (.seg .ss))
  else if op = 0x17 then ret (.pop (e.opsize true) (.seg .ss))
  else if op = 0x1E then ret (.push (e.opsize true) (.seg .ds))
  else if op = 0x1F then ret (.pop (e.opsize true) (.seg .ds))
  else if op = 0x27 then ret .daa
  else if op = 0x2F then ret .das
  else if op = 0x37 then ret .aaa
  else if op = 0x3F then ret .aas
  else
    match (rmField op).toNat with
    | 0 => e.gE w fun g r => aluInstr n w (.rmReg r g) e.lock
    | 1 => e.gE w fun g r => aluInstr n w (.rmReg r g) e.lock
    | 2 => e.gE w fun g r => aluInstr n w (.regRm g r) e.lock
    | 3 => e.gE w fun g r => aluInstr n w (.regRm g r) e.lock
    | _ => (immz w).map fun v => aluInstr n w (.rmImm (.reg acc) v) e.lock

/-- Primary map `40` to `5F` (31_opcode_maps.md R234). -/
def decode40 (e : Env) (op : Byte) : Parser Instr :=
  let r : Gpr := .ofNum (extend e.b (rmField op))
  let w := e.opsize false
  if op.ule 0x47 then ret (.inc w (.reg { r }) e.lock)
  else if op.ule 0x4F then ret (.dec w (.reg { r }) e.lock)
  else if op.ule 0x57 then ret (.push (e.opsize true) (.rm (.reg { r })))
  else ret (.pop (e.opsize true) (.rm (.reg { r })))

/-- Primary map `60` to `6F` (31_opcode_maps.md R235). -/
def decode60 (e : Env) (op : Byte) : Parser Instr :=
  let w := e.opsize false
  if op = 0x60 then ret (if w = .w16 then .pusha else .pushad)
  else if op = 0x61 then ret (if w = .w16 then .popa else .popad)
  else if op = 0x62 then e.gM fun g m => .bound w g m
  else if op = 0x63 then
    if e.c.mode64 then e.modrm.map fun (n, r) => .movsxd w (.ofNum n) (e.rm .w32 r)
    else e.rE .w16 fun g r => .arpl r g
  else if op = 0x68 then (immz (e.opsize true)).map fun v => .push (e.opsize true) (.imm v)
  else if op = 0x69 then
    e.modrm.andThen fun (n, r) => (immz w).map fun v => .imul w (.regRmImm (.ofNum n) (e.rm w r) v)
  else if op = 0x6A then disp8.map fun v => .push (e.opsize true) (.imm v)
  else if op = 0x6B then
    e.modrm.andThen fun (n, r) => disp8.map fun v => .imul w (.regRmImm (.ofNum n) (e.rm w r) v)
  else if op = 0x6C then ret (.insb e.asize e.rep)
  else if op = 0x6D then ret (if w = .w16 then .insw e.asize e.rep else .insd e.asize e.rep)
  else if op = 0x6E then ret (.outsb (e.segOr .ds) e.asize e.rep)
  else if op = 0x6F then
    ret (if w = .w16 then .outsw (e.segOr .ds) e.asize e.rep else .outsd (e.segOr .ds) e.asize e.rep)
  else fail .reserved

/-- Primary map `80` to `8F` (31_opcode_maps.md R236, R240). -/
def decode80 (e : Env) (op : Byte) : Parser Instr :=
  let w := e.bv op
  if op = 0x82 ∧ e.c.mode64 then reject .reserved (e.modrm.andThen fun _ => byte)
  else if op.ule 0x83 then
    e.modrm.andThen fun (n, r) =>
      (if op = 0x83 then disp8 else immz w).map fun v => aluInstr (slash n) w (.rmImm (e.rm w r) v) e.lock
  else if op.ule 0x85 then e.gE w fun g r => .test w r (.reg g)
  else if op.ule 0x87 then e.gE w fun g r => .xchg w r g e.lock
  else if op.ule 0x89 then e.gE w fun g r => .mov (.rmReg w r g)
  else if op.ule 0x8B then e.gE w fun g r => .mov (.regRm w g r)
  else if op = 0x8C then
    e.modrm.andThen fun (n, r) =>
      match SegName.ofNum (n.setWidth 3) with
      | none => fail .reserved
      | some s =>
        let ws := match r with | .reg _ => e.opsize false | .mem _ => .w16
        ret (.mov (.fromSeg ws (e.rm ws r) s))
  else if op = 0x8D then e.gM fun g m => .lea (e.opsize false) g m
  else if op = 0x8E then
    e.modrm.andThen fun (n, r) =>
      match SegName.ofNum (n.setWidth 3) with
      | none => fail .reserved
      | some s => ret (.mov (.toSeg s (e.rm .w16 r)))
  else
    e.modrm.andThen fun (n, r) =>
      if slash n = 0 then ret (.pop (e.opsize true) (.rm (e.rm (e.opsize true) r))) else fail .reserved

/-- Primary map `90` to `9F` (31_opcode_maps.md R237, R276). DESIGN CHOICE (log 46): with F3 and REX.B = 1, opcode 90 is XCHG. -/
def decode90 (e : Env) (op : Byte) : Parser Instr :=
  let w := e.opsize false
  if op = 0x90 ∧ e.b = false then ret (if e.rep = .repe then .pause else .nop none)
  else if op.ule 0x97 then ret (.xchg w (.reg { r := .ofNum (extend e.b (rmField op)) }) acc e.lock)
  else if op = 0x98 then ret (match w with | .w16 => .cbw | .w64 => .cdqe | _ => .cwde)
  else if op = 0x99 then ret (match w with | .w16 => .cwd | .w64 => .cqo | _ => .cdq)
  else if op = 0x9A then
    (if w = .w16 then word.map (·.setWidth 32) else dword).andThen fun off => word.map fun s => .callFar w (.ptr s off)
  else if op = 0x9B then ret .wait
  else if op = 0x9C then ret (match e.opsize true with | .w16 => .pushf | .w64 => .pushfq | _ => .pushfd)
  else if op = 0x9D then ret (match e.opsize true with | .w16 => .popf | .w64 => .popfq | _ => .popfd)
  else if op = 0x9E then ret .sahf
  else ret .lahf

/-- A direct memory offset: as long as the address size, zero-extended (30_encoding.md R191). -/
def moffs (a : ASize) : Parser (BitVec 64) :=
  match a with
  | .a16 => word.map (·.setWidth 64)
  | .a32 => dword.map (·.setWidth 64)
  | .a64 => qword

/-- Primary map `A0` to `AF` (31_opcode_maps.md R238). -/
def decodeA0 (e : Env) (op : Byte) : Parser Instr :=
  let w := e.bv op
  let s := e.segOr .ds
  if op.ule 0xA1 then (moffs e.asize).map fun o => .mov (.load w s e.asize o)
  else if op.ule 0xA3 then (moffs e.asize).map fun o => .mov (.store w s e.asize o)
  else if op = 0xA4 then ret (.movsb s e.asize e.rep)
  else if op = 0xA5 then ret (.movsv w s e.asize e.rep)
  else if op = 0xA6 then ret (.cmpsb s e.asize e.rep)
  else if op = 0xA7 then ret (.cmpsv w s e.asize e.rep)
  else if op.ule 0xA9 then (immz w).map fun v => .test w (.reg acc) (.imm v)
  else if op = 0xAA then ret (.stosb e.asize e.rep)
  else if op = 0xAB then ret (.stosv w e.asize e.rep)
  else if op = 0xAC then ret (.lodsb s e.asize e.rep)
  else if op = 0xAD then ret (.lodsv w s e.asize e.rep)
  else if op = 0xAE then ret (.scasb e.asize e.rep)
  else ret (.scasv w e.asize e.rep)

/-- Primary map `B0` to `BF` (31_opcode_maps.md R239). -/
def decodeB0 (e : Env) (op : Byte) : Parser Instr :=
  let n := extend e.b (rmField op)
  if op.ule 0xB7 then disp8.map fun v => .mov (.rmImm .w8 (.reg (e.greg .w8 n)) v)
  else (immv (e.opsize false)).map fun v => .mov (.rmImm (e.opsize false) (.reg { r := .ofNum n }) v)

/-- Primary map `C0` to `CF` (31_opcode_maps.md R241). -/
def decodeC0 (e : Env) (op : Byte) : Parser Instr :=
  let w := e.bv op
  if op.ule 0xC1 then
    e.modrm.andThen fun (n, r) => byte.map fun v => shiftInstr (slash n) w (e.rm w r) (.imm v)
  else if op = 0xC2 then word.map fun v => .ret (e.opsize true) v
  else if op = 0xC3 then ret (.ret (e.opsize true) 0)
  else if op = 0xC4 then e.gM fun g m => .les (e.opsize false) g m
  else if op = 0xC5 then e.gM fun g m => .lds (e.opsize false) g m
  else if op.ule 0xC7 then
    e.modrm.andThen fun (n, r) =>
      if slash n = 0 then (immz w).map fun v => .mov (.rmImm w (e.rm w r) v) else reject .reserved (immz w)
  else if op = 0xC8 then word.andThen fun s => byte.map fun l => .enter (e.opsize true) s l
  else if op = 0xC9 then ret (.leave (e.opsize true))
  else if op = 0xCA then word.map fun v => .retf (e.opsize false) v
  else if op = 0xCB then ret (.retf (e.opsize false) 0)
  else if op = 0xCC then ret .int3
  else if op = 0xCD then byte.map .int
  else if op = 0xCE then ret .into
  else ret (match e.opsize false with | .w16 => .iret | .w64 => .iretq | _ => .iretd)

/-- Primary map `D0` to `DF` (31_opcode_maps.md R242, R282). -/
def decodeD0 (e : Env) (op : Byte) : Parser Instr :=
  let w := e.bv op
  if op.ule 0xD1 then e.modrm.map fun (n, r) => shiftInstr (slash n) w (e.rm w r) .one
  else if op.ule 0xD3 then e.modrm.map fun (n, r) => shiftInstr (slash n) w (e.rm w r) .cl
  else if op = 0xD4 then byte.map .aam
  else if op = 0xD5 then byte.map .aad
  else if op = 0xD6 then ret .reservedD6
  else if op = 0xD7 then ret (.xlat (e.segOr .ds) e.asize)
  else peek.andThen fun m => e.modrm.map fun _ => .x87 (rmField op) m

/-- A short branch's counter form by address size (42_gp_d_j.md R419). -/
def jrcxzInstr (a : ASize) (w : Width) (d : BitVec 64) : Instr :=
  match a with
  | .a16 => .jcxz w d
  | .a32 => .jecxz w d
  | .a64 => .jrcxz w d

/-- Primary map `E0` to `EF` (31_opcode_maps.md R243). -/
def decodeE0 (e : Env) (op : Byte) : Parser Instr :=
  let w := e.opsize true
  let wp : Width := if op.getLsbD 0 then (if e.opsize false = .w16 then .w16 else .w32) else .w8
  if op = 0xE0 then disp8.map fun d => .loopne w e.asize d
  else if op = 0xE1 then disp8.map fun d => .loope w e.asize d
  else if op = 0xE2 then disp8.map fun d => .loop w e.asize d
  else if op = 0xE3 then disp8.map fun d => jrcxzInstr e.asize w d
  else if op.ule 0xE5 then byte.map fun v => .inp wp (.imm v)
  else if op.ule 0xE7 then byte.map fun v => .out wp (.imm v)
  else if op = 0xE8 then (immz w).map fun d => .call w (.rel d)
  else if op = 0xE9 then (immz w).map fun d => .jmp w (.rel d)
  else if op = 0xEA then
    let wf := e.opsize false
    (if wf = .w16 then word.map (·.setWidth 32) else dword).andThen fun off => word.map fun s => .jmpFar wf (.ptr s off)
  else if op = 0xEB then disp8.map fun d => .jmp w (.rel d)
  else if op.ule 0xED then ret (.inp wp .dx)
  else ret (.out wp .dx)

/-- Group 3 (31_opcode_maps.md R247). -/
def decodeGroup3 (e : Env) (w : Width) : Parser Instr :=
  e.modrm.andThen fun (n, r) =>
    let o := e.rm w r
    match slash n with
    | 0 => (immz w).map fun v => .test w o (.imm v)
    | 1 => ret (.reservedGroup3 w)
    | 2 => ret (.not w o e.lock)
    | 3 => ret (.neg w o e.lock)
    | 4 => ret (.mul w o)
    | 5 => ret (.imul w (.acc o))
    | 6 => ret (.div w o)
    | _ => ret (.idiv w o)

/-- Group 5 (31_opcode_maps.md R249). -/
def decodeGroup5 (e : Env) : Parser Instr :=
  e.modrm.andThen fun (n, r) =>
    let w := e.opsize false
    let w6 := e.opsize true
    match slash n, r with
    | 0, _ => ret (.inc w (e.rm w r) e.lock)
    | 1, _ => ret (.dec w (e.rm w r) e.lock)
    | 2, _ => ret (.call w6 (.rm (e.rm w6 r)))
    | 3, .mem m => ret (.callFar w (.mem m))
    | 4, _ => ret (.jmp w6 (.rm (e.rm w6 r)))
    | 5, .mem m => ret (.jmpFar w (.mem m))
    | 6, _ => ret (.push w6 (.rm (e.rm w6 r)))
    | _, _ => fail .reserved

/-- Primary map `F0` to `FF` (31_opcode_maps.md R244, R248). -/
def decodeF0 (e : Env) (op : Byte) : Parser Instr :=
  if op = 0xF1 then ret .int1
  else if op = 0xF4 then ret .hlt
  else if op = 0xF5 then ret .cmc
  else if op = 0xF6 then decodeGroup3 e .w8
  else if op = 0xF7 then decodeGroup3 e (e.opsize false)
  else if op = 0xF8 then ret .clc
  else if op = 0xF9 then ret .stc
  else if op = 0xFA then ret .cli
  else if op = 0xFB then ret .sti
  else if op = 0xFC then ret .cld
  else if op = 0xFD then ret .std
  else if op = 0xFE then
    e.modrm.andThen fun (n, r) =>
      match slash n with
      | 0 => ret (.inc .w8 (e.rm .w8 r) e.lock)
      | 1 => ret (.dec .w8 (e.rm .w8 r) e.lock)
      | _ => fail .reserved
  else if op = 0xFF then decodeGroup5 e
  else fail .reserved

/-- The primary map (31_opcode_maps.md R233 to R250). -/
def decodePrimary (e : Env) (op : Byte) : Parser Instr :=
  match (op.extractLsb' 4 4).toNat with
  | 0 => decode00 e op
  | 1 => decode00 e op
  | 2 => decode00 e op
  | 3 => decode00 e op
  | 4 => decode40 e op
  | 5 => decode40 e op
  | 6 => decode60 e op
  | 7 => disp8.map fun d => jccInstr (lowNibble op) (e.opsize true) d
  | 8 => decode80 e op
  | 9 => decode90 e op
  | 10 => decodeA0 e op
  | 11 => decodeB0 e op
  | 12 => decodeC0 e op
  | 13 => decodeD0 e op
  | 14 => decodeE0 e op
  | _ => decodeF0 e op

/-- A code point of another volume: its ModRM byte with its address bytes, then `n` immediate bytes (31_opcode_maps.md R259). -/
def Env.otherVolume (e : Env) (f : Byte → Instr) (n : Nat) : Parser Instr :=
  peek.andThen fun m => e.modrm.andThen fun _ =>
    match n with
    | 0 => ret (f m)
    | 1 => byte.map fun _ => f m
    | _ => byte.andThen fun _ => byte.map fun _ => f m

/-- Group 6 (31_opcode_maps.md R260). -/
def decodeGroup6 (e : Env) : Parser Instr :=
  e.modrm.andThen fun (n, r) =>
    let ws : Width := match r with | .reg _ => e.opsize false | .mem _ => .w16
    match slash n with
    | 0 => ret (.sldt ws (e.rm ws r))
    | 1 => ret (.str ws (e.rm ws r))
    | 2 => ret (.lldt (e.rm .w16 r))
    | 3 => ret (.ltr (e.rm .w16 r))
    | 4 => ret (.verr (e.rm .w16 r))
    | 5 => ret (.verw (e.rm .w16 r))
    | _ => fail .reserved

/-- The operand size of LGDT and LIDT: fixed at 64 bits in 64-bit mode (31_opcode_maps.md R270). -/
def Env.tableSize (e : Env) : Width := if e.c.mode64 then .w64 else e.opsize false

/-- `0F 01` with a register form: the whole ModRM byte names the instruction (31_opcode_maps.md R261). -/
def decode0F01 (e : Env) (m : Byte) : Option Instr :=
  let s := e.segOr .ds
  match m.toNat with
  | 0xC8 => some (.monitor s e.asize)
  | 0xC9 => some .mwait
  | 0xCA => some .clac
  | 0xCB => some .stac
  | 0xD0 => some (.escape0F 0x01 0xD0)
  | 0xD1 => some (.escape0F 0x01 0xD1)
  | 0xD8 => some (.vmrun e.asize)
  | 0xD9 => some (if e.rep = .none then .vmmcall else .vmgexit)
  | 0xDA => some (.vmload e.asize)
  | 0xDB => some (.vmsave e.asize)
  | 0xDC => some .stgi
  | 0xDD => some .clgi
  | 0xDE => some .skinit
  | 0xDF => some (.invlpga s e.asize)
  | 0xE8 => if e.rep = .repe then some .setssbsy else none
  | 0xEA => if e.rep = .repe then some .saveprevssp else none
  | 0xEE => some .rdpkru
  | 0xEF => some .wrpkru
  | 0xF8 => some .swapgs
  | 0xF9 => some .rdtscp
  | 0xFA => some (if e.rep = .repe then .mcommit else .monitorx s e.asize)
  | 0xFB => some .mwaitx
  | 0xFC => some (.clzero s e.asize)
  | 0xFD => some .rdpru
  | 0xFE =>
    some (match e.rep with | .repe => .rmpadjust e.asize | .repne => .rmpupdate s e.asize | .none => .invlpgb s e.asize)
  | 0xFF =>
    some (match e.rep with | .repe => .psmash e.asize | .repne => .pvalidate e.asize | .none => .tlbsync)
  | _ => none

/-- Group 7 (31_opcode_maps.md R261). -/
def decodeGroup7 (e : Env) : Parser Instr :=
  peek.andThen fun mb => e.modrm.andThen fun (n, r) =>
    match r with
    | .mem m =>
      match slash n with
      | 0 => ret (.sgdt m)
      | 1 => ret (.sidt m)
      | 2 => ret (.lgdt e.tableSize m)
      | 3 => ret (.lidt e.tableSize m)
      | 4 => ret (.smsw .w16 (.mem m))
      | 5 => if e.rep = .repe then ret (.rstorssp m) else fail .reserved
      | 6 => ret (.lmsw (.mem m))
      | _ => ret (.invlpg m)
    | .reg _ =>
      match slash n with
      | 4 => ret (.smsw (e.opsize false) (e.rm (e.opsize false) r))
      | 6 => ret (.lmsw (e.rm .w16 r))
      | _ =>
        match decode0F01 e mb with
        | some i => ret i
        | none => fail .reserved

/-- Group P and Group 16 (31_opcode_maps.md R262, D52). -/
def decodePrefetch (e : Env) (op : Byte) : Parser Instr :=
  e.modrm.andThen fun (n, r) =>
    match r with
    | .reg _ => if op = 0x18 then ret (.nop (some (e.rm .w32 r))) else fail .reserved
    | .mem m =>
      if op = 0x0D then ret (if slash n = 1 then .prefetchw m else .prefetch m)
      else
        match slash n with
        | 0 => ret (.prefetchnta m)
        | 1 => ret (.prefetcht0 m)
        | 2 => ret (.prefetcht1 m)
        | 3 => ret (.prefetcht2 m)
        | _ => ret (.nop (some (.mem m)))

/-- Secondary map `0F 00` to `0F 1F` (31_opcode_maps.md R252, R253). -/
def decode0F00 (e : Env) (op : Byte) : Parser Instr :=
  let w := e.opsize false
  if op = 0x00 then decodeGroup6 e
  else if op = 0x01 then decodeGroup7 e
  else if op = 0x02 then e.rE w fun g r => .lar w g r
  else if op = 0x03 then e.rE w fun g r => .lsl w g r
  else if op = 0x05 then ret .syscall
  else if op = 0x06 then ret .clts
  else if op = 0x07 then ret (.sysret (if e.ysize = .w64 then .w64 else .w32))
  else if op = 0x08 then ret .invd
  else if op = 0x09 then ret (if e.rep = .repe then .wbnoinvd else .wbinvd)
  else if op = 0x0B then ret .ud2
  else if op = 0x0D then decodePrefetch e op
  else if op = 0x0E then ret (.escape0F op 0)
  else if op = 0x0F then
    peek.andThen fun m => e.modrm.andThen fun _ => byte.map fun o => .threeDNow o m
  else if op.ule 0x0F then fail .reserved
  else if op.ule 0x17 then e.otherVolume (.escape0F op) 0
  else if op = 0x18 then decodePrefetch e op
  else
    e.modrm.andThen fun (n, r) =>
      match r with
      | .reg g =>
        if op = 0x1E ∧ e.rep = .repe ∧ slash n = 1 then
          ret (if e.ysize = .w64 then .rdsspq (.ofNum g) else .rdsspd (.ofNum g))
        else ret (.nop (some (e.rm .w32 r)))
      | .mem m => ret (.nop (some (.mem m)))

/-- MOV to and from control and debug registers: the mod field is ignored (31_opcode_maps.md R254). -/
def decodeMovCr (e : Env) (op : Byte) : Parser Instr :=
  byte.map fun b =>
    let n := extend e.r (regField b)
    let g : Gpr := .ofNum (extend e.b (rmField b))
    match op.toNat with
    | 0x20 => .mov (.fromCr e.lock n g)
    | 0x21 => .mov (.fromDr n g)
    | 0x22 => .mov (.toCr e.lock n g)
    | _ => .mov (.toDr n g)

/-- Secondary map `0F 20` to `0F 3F`, but for the escapes (31_opcode_maps.md R254). -/
def decode0F20 (e : Env) (op : Byte) : Parser Instr :=
  if op.ule 0x23 then decodeMovCr e op
  else if op.ule 0x27 then fail .reserved
  else if op.ule 0x2F then e.otherVolume (.escape0F op) 0
  else if op = 0x30 then ret .wrmsr
  else if op = 0x31 then ret .rdtsc
  else if op = 0x32 then ret .rdmsr
  else if op = 0x33 then ret .rdpmc
  else if op = 0x34 then ret .sysenter
  else if op = 0x35 then ret .sysexit
  else fail .reserved

/-- Secondary map `0F 50` to `0F 7F`: MOVMSKPD, MOVMSKPS and MOVD; the rest is of other volumes, `F3 0F 7E` too. F2
and F3 are ignored before the three, and a memory form of opcode 50 is reserved (31_opcode_maps.md R259, 43_gp_l_m.md R472 to R474,
60_exceptions.md R905, D51; log 31). PRESUMED (log 31): one immediate byte follows 0F 70 to 0F 73 and two follow 0F 78. -/
def decode0F50 (e : Env) (op : Byte) : Parser Instr :=
  let y := e.ysize
  let wide := y == .w64
  if op = 0x50 then
    e.modrm.andThen fun (n, r) =>
      match r with
      | .reg x => ret (if e.opsz then .movmskpd (.ofNum n) x else .movmskps (.ofNum n) x)
      | .mem _ => fail .reserved
  else if op = 0x6E then
    e.modrm.map fun (n, r) =>
      if e.opsz then .movd wide (.toXmm n (e.rm .w32 r)) else .movd wide (.toMmx (n.setWidth 3) (e.rm .w32 r))
  else if op = 0x7E ∧ e.rep ≠ .repe then
    e.modrm.map fun (n, r) =>
      if e.opsz then .movd wide (.fromXmm (e.rm .w32 r) n) else .movd wide (.fromMmx (e.rm .w32 r) (n.setWidth 3))
  else if op = 0x77 then ret (.escape0F op 0)
  else if op = 0x7A ∨ op = 0x7B then fail .reserved
  else if op = 0x78 ∨ op = 0x79 ∨ op = 0x7C ∨ op = 0x7D then
    if e.opsz ∨ e.rep = .repne then e.otherVolume (.escape0F op) (if op = 0x78 then 2 else 0) else fail .reserved
  else e.otherVolume (.escape0F op) (if op.ule 0x73 && !op.ule 0x6F then 1 else 0)

/-- Group 15 (31_opcode_maps.md R266). DESIGN CHOICE (log 46): of 66 and F3 together, F3 selects, before a memory /6 and before the
register forms /0 to /3 and /5, whose operand size is then `y` (32 or 64 bits) and never 16. -/
def decodeGroup15 (e : Env) : Parser Instr :=
  peek.andThen fun mb => e.modrm.andThen fun (n, r) =>
    let y := e.ysize
    match r with
    | .mem m =>
      match slash n, e.rep, e.opsz with
      | 7, .none, false => ret (.clflush m)
      | 7, .none, true => ret (.clflushopt m)
      | 6, .repe, _ => ret (.clrssbsy m)
      | 6, .none, true => ret (.clwb m)
      | _, .none, false => ret (.escape0F 0xAE mb)
      | _, _, _ => fail .reserved
    | .reg g =>
      match slash n, e.rep, e.opsz with
      | 5, .none, false => ret .lfence
      | 6, .none, false => ret .mfence
      | 7, .none, false => ret .sfence
      | 0, .repe, _ => ret (.rdfsbase y (.ofNum g))
      | 1, .repe, _ => ret (.rdgsbase y (.ofNum g))
      | 2, .repe, _ => ret (.wrfsbase y (.ofNum g))
      | 3, .repe, _ => ret (.wrgsbase y (.ofNum g))
      | 5, .repe, _ => ret (if y = .w64 then .incsspq (.ofNum g) else .incsspd (.ofNum g))
      | _, _, _ => fail .reserved

/-- Secondary map `0F A0` to `0F AF` (31_opcode_maps.md R256). -/
def decode0FA0 (e : Env) (op : Byte) : Parser Instr :=
  let w := e.opsize false
  if op = 0xA0 then ret (.push (e.opsize true) (.seg .fs))
  else if op = 0xA1 then ret (.pop (e.opsize true) (.seg .fs))
  else if op = 0xA2 then ret .cpuid
  else if op = 0xA3 then e.rE w fun g r => .bt w r (.reg g)
  else if op = 0xA4 then e.modrm.andThen fun (n, r) => byte.map fun v => .shld w (e.rm w r) (.ofNum n) (.imm v)
  else if op = 0xA5 then e.rE w fun g r => .shld w r g .cl
  else if op = 0xA8 then ret (.push (e.opsize true) (.seg .gs))
  else if op = 0xA9 then ret (.pop (e.opsize true) (.seg .gs))
  else if op = 0xAA then ret .rsm
  else if op = 0xAB then e.rE w fun g r => .bts w r (.reg g) e.lock
  else if op = 0xAC then e.modrm.andThen fun (n, r) => byte.map fun v => .shrd w (e.rm w r) (.ofNum n) (.imm v)
  else if op = 0xAD then e.rE w fun g r => .shrd w r g .cl
  else if op = 0xAE then decodeGroup15 e
  else if op = 0xAF then e.rE w fun g r => .imul w (.regRm g r)
  else fail .reserved

/-- Group 8 (31_opcode_maps.md R263). -/
def decodeGroup8 (e : Env) : Parser Instr :=
  e.modrm.andThen fun (n, r) =>
    let w := e.opsize false
    match slash n with
    | 4 => byte.map fun v => .bt w (e.rm w r) (.imm v)
    | 5 => byte.map fun v => .bts w (e.rm w r) (.imm v) e.lock
    | 6 => byte.map fun v => .btr w (e.rm w r) (.imm v) e.lock
    | 7 => byte.map fun v => .btc w (e.rm w r) (.imm v) e.lock
    | _ => reject .reserved byte

/-- Secondary map `0F B0` to `0F BF` (31_opcode_maps.md R257). -/
def decode0FB0 (e : Env) (op : Byte) : Parser Instr :=
  let w := e.opsize false
  let wb := e.bv op
  if op.ule 0xB1 then e.gE wb fun g r => .cmpxchg wb r g e.lock
  else if op = 0xB2 then e.gM fun g m => .lss w g m
  else if op = 0xB3 then e.rE w fun g r => .btr w r (.reg g) e.lock
  else if op = 0xB4 then e.gM fun g m => .lfs w g m
  else if op = 0xB5 then e.gM fun g m => .lgs w g m
  else if op = 0xB6 then e.rE .w8 fun g r => .movzx w .w8 g r
  else if op = 0xB7 then e.rE .w16 fun g r => .movzx w .w16 g r
  else if op = 0xB8 then if e.rep = .repe then e.rE w fun g r => .popcnt w g r else fail .reserved
  else if op = 0xB9 then ret .ud1
  else if op = 0xBA then decodeGroup8 e
  else if op = 0xBB then e.rE w fun g r => .btc w r (.reg g) e.lock
  else if op = 0xBC then e.rE w fun g r => if e.rep = .repe then .tzcnt w g r else .bsf w g r
  else if op = 0xBD then e.rE w fun g r => if e.rep = .repe then .lzcnt w g r else .bsr w g r
  else if op = 0xBE then e.rE .w8 fun g r => .movsx w .w8 g r
  else e.rE .w16 fun g r => .movsx w .w16 g r

/-- Group 9; F2 and F3 are ignored where their column has no entry (31_opcode_maps.md R264, D51). -/
def decodeGroup9 (e : Env) : Parser Instr :=
  e.modrm.andThen fun (n, r) =>
    match slash n, r, e.rep with
    | 1, .mem m, _ => ret (if e.ysize = .w64 then .cmpxchg16b m e.lock else .cmpxchg8b m e.lock)
    | 6, .reg g, _ => ret (.rdrand (e.opsize false) (.ofNum g))
    | 7, .reg g, .repe => ret (.rdpid (.ofNum g))
    | 7, .reg g, _ => ret (.rdseed (e.opsize false) (.ofNum g))
    | _, _, _ => fail .reserved

/-- Secondary map `0F C0` to `0F FF` (31_opcode_maps.md R258, R259). PRESUMED (log 31): one immediate byte follows 0F C2, C4, C5
and C6. -/
def decode0FC0 (e : Env) (op : Byte) : Parser Instr :=
  let w := e.opsize false
  let wb := e.bv op
  if op.ule 0xC1 then e.gE wb fun g r => .xadd wb r g e.lock
  else if op = 0xC3 then e.gM fun g m => .movnti e.ysize m g
  else if op.ule 0xC6 then e.otherVolume (.escape0F op) 1
  else if op = 0xC7 then decodeGroup9 e
  else if op.ule 0xCF then ret (.bswap w (.ofNum (extend e.b (rmField op))))
  else if op = 0xFF then ret .ud0
  else e.otherVolume (.escape0F op) 0

/-- The `0F_38h` map (31_opcode_maps.md R268, 50_sys_a_l.md R714). DESIGN CHOICE (log 46): of 66 and F3 together before F6, F3
selects. DESIGN CHOICE (log 31): R268 does not say which of the remaining code points are SSE and which reserved; all of them are
code points of another volume. -/
def decode0F38 (e : Env) (op : Byte) : Parser Instr :=
  let w := e.opsize false
  let y := e.ysize
  if op = 0xF0 then
    if e.rep = .repne then e.rE .w8 fun g r => .crc32 .w8 (y == .w64) g r
    else e.gM fun g m => .movbe w (.load g m)
  else if op = 0xF1 then
    if e.rep = .repne then e.rE w fun g r => .crc32 w (y == .w64) g r
    else e.gM fun g m => .movbe w (.store m g)
  else if op = 0xF5 ∧ e.opsz then e.gM fun g m => if y = .w64 then .wrussq m g else .wrussd m g
  else if op = 0xF6 then
    if e.rep = .repe then e.rE y fun g r => .adox y g r
    else if e.opsz then e.rE y fun g r => .adcx y g r
    else e.gM fun g m => if y = .w64 then .wrssq m g else .wrssd m g
  else if op = 0x82 ∧ e.opsz then e.gM fun g m => .invpcid g m
  else e.otherVolume (.escape0F38 op) 0

/-- The secondary map (31_opcode_maps.md R252 to R259). -/
def decodeSecondary (e : Env) (op : Byte) : Parser Instr :=
  if op = 0x38 then byte.andThen fun o => decode0F38 e o
  else if op = 0x3A then byte.andThen fun o => e.otherVolume (.escape0F3A o) 1
  else
    match (op.extractLsb' 4 4).toNat with
    | 0 => decode0F00 e op
    | 1 => decode0F00 e op
    | 2 => decode0F20 e op
    | 3 => decode0F20 e op
    | 4 => e.rE (e.opsize false) fun g r => cmovInstr (lowNibble op) (e.opsize false) g r
    | 5 => decode0F50 e op
    | 6 => decode0F50 e op
    | 7 => decode0F50 e op
    | 8 => (immz (e.opsize true)).map fun d => jccInstr (lowNibble op) (e.opsize true) d
    | 9 => e.modrm.map fun (_, r) => setccInstr (lowNibble op) (e.rm .w8 r)
    | 10 => decode0FA0 e op
    | 11 => decode0FB0 e op
    | _ => decode0FC0 e op

/-- The fields of a VEX or XOP prefix besides the register extensions, which go to the environment (30_encoding.md R201). -/
structure VexFields where
  map : BitVec 5
  v : BitVec 4
  l : Bool
  pp : BitVec 2
  deriving DecidableEq, Repr

/-- The prefix byte and its payload are a VEX or XOP prefix (30_encoding.md R200). -/
def isExtendedPrefix (c : Ctx) (b0 b1 : Byte) : Bool :=
  c.prot && (
    if b0 = 0x8F then !(b1.setWidth 5).ule 7
    else (b0 = 0xC4 || b0 = 0xC5) && (c.mode64 || modField b1 == 3))

/-- The register that vvvv names; outside 64-bit mode bit 3 is ignored (30_encoding.md R203). -/
def Env.vreg (e : Env) (f : VexFields) : Gpr :=
  .ofNum (if e.c.mode64 then ~~~f.v else (~~~f.v) &&& 7)

/-- VEX maps 2 and 3; L = 1, and RORX's vvvv other than 1111b, reject after the entry's bytes (31_opcode_maps.md R279,
30_encoding.md R162). DESIGN CHOICE (log 31): an entry that R279 does not name is a code point of another volume, and such an
instruction ends with its opcode byte. -/
def decodeVex (e : Env) (f : VexFields) (op : Byte) : Parser Instr :=
  let y := e.ysize
  let v := e.vreg f
  let rows : Option (Parser Instr) :=
    match f.map.toNat, op.toNat, f.pp.toNat with
    | 2, 0xF2, 0 => some (e.rE y fun g r => .andn y g v r)
    | 2, 0xF3, 0 => some (e.modrm.andThen fun (n, r) =>
        match slash n with
        | 1 => ret (.blsr y v (e.rm y r))
        | 2 => ret (.blsmsk y v (e.rm y r))
        | 3 => ret (.blsi y v (e.rm y r))
        | _ => fail .reserved)
    | 2, 0xF5, 0 => some (e.rE y fun g r => .bzhi y g r v)
    | 2, 0xF5, 2 => some (e.rE y fun g r => .pext y g v r)
    | 2, 0xF5, 3 => some (e.rE y fun g r => .pdep y g v r)
    | 2, 0xF6, 3 => some (e.rE y fun g r => .mulx y g v r)
    | 2, 0xF7, 0 => some (e.rE y fun g r => .bextr y g r (.reg v))
    | 2, 0xF7, 1 => some (e.rE y fun g r => .shlx y g r v)
    | 2, 0xF7, 2 => some (e.rE y fun g r => .sarx y g r v)
    | 2, 0xF7, 3 => some (e.rE y fun g r => .shrx y g r v)
    | 3, 0xF0, 3 => some (e.modrm.andThen fun (n, r) =>
        if f.v = 15 then byte.map fun i => .rorx y (.ofNum n) (e.rm y r) i else reject .badExtendedPrefix byte)
    | _, _, _ => none
  match rows with
  | some p => if f.l then reject .badExtendedPrefix p else p
  | none => if f.map = 0 ∨ !f.map.ule 3 then fail .reserved else ret (.prefixVex3 f.map op)

/-- XOP maps 9 and 10; L = 1, pp other than 00 and a wrong vvvv reject after the entry's bytes (31_opcode_maps.md R280,
30_encoding.md R162). DESIGN CHOICE (log 31): an entry that R280 does not name is a code point of another volume, and such an
instruction ends with its opcode byte. -/
def decodeXop (e : Env) (f : VexFields) (op : Byte) : Parser Instr :=
  let y := e.ysize
  let v := e.vreg f
  let group (g : Nat → RawRM → Parser Instr) : Option (Parser Instr) :=
    some (e.modrm.andThen fun (n, r) => g (slash n) r)
  let imm32 (k : BitVec 32 → Instr) : Parser Instr := dword.map k
  let rows : Option (Parser Instr) :=
    match f.map.toNat, op.toNat with
    | 9, 0x01 => group fun n r =>
        let o := e.rm y r
        match n with
        | 1 => ret (.blcfill y v o)
        | 2 => ret (.blsfill y v o)
        | 3 => ret (.blcs y v o)
        | 4 => ret (.tzmsk y v o)
        | 5 => ret (.blcic y v o)
        | 6 => ret (.blsic y v o)
        | 7 => ret (.t1mskc y v o)
        | _ => fail .reserved
    | 9, 0x02 => group fun n r =>
        match n with
        | 1 => ret (.blcmsk y v (e.rm y r))
        | 6 => ret (.blci y v (e.rm y r))
        | _ => fail .reserved
    | 9, 0x12 => group fun n r =>
        match n, r with
        | 0, .reg g => if f.v = 15 then ret (.llwpcb y (.ofNum g)) else fail .badExtendedPrefix
        | 1, .reg g => if f.v = 15 then ret (.slwpcb y (.ofNum g)) else fail .badExtendedPrefix
        | _, _ => fail .reserved
    | 10, 0x10 => some (e.modrm.andThen fun (n, r) =>
        if f.v = 15 then imm32 fun i => .bextr y (.ofNum n) (e.rm y r) (.imm i) else reject .badExtendedPrefix dword)
    | 10, 0x12 => group fun n r =>
        match n with
        | 0 => imm32 fun i => .lwpins y v (e.rm .w32 r) i
        | 1 => imm32 fun i => .lwpval y v (e.rm .w32 r) i
        | _ => fail .reserved
    | _, _ => none
  match rows with
  | some p => if f.l ∨ f.pp ≠ 0 then reject .badExtendedPrefix p else p
  | none => if f.map.ule 10 then ret (.prefixXop f.map op) else fail .reserved

/-- The environment behind a VEX or XOP prefix: inverted R, X, B; outside 64-bit mode B and W are ignored (30_encoding.md R201, R205). -/
def Env.withVex (e : Env) (nr nx nb w : Bool) : Env :=
  { e with rex := true, r := !nr, x := !nx, b := !nb && e.c.mode64, w := w }

/-- An instruction behind a VEX or XOP prefix byte: a legacy or REX prefix before it rejects at once, a wrong R or X outside
64-bit mode after the entry's bytes (30_encoding.md R162 steps 3 and 9, R201, R204, R205). DESIGN CHOICE (log 31): an instruction
behind C5, all of other volumes, ends with its opcode byte. -/
def decodeExtended (e : Env) (b0 : Byte) : Parser Instr :=
  if e.lock ∨ e.opsz ∨ e.rep ≠ .none ∨ e.rex then fail .badExtendedPrefix
  else if b0 = 0xC5 then
    byte.andThen fun b1 => byte.map fun op => let _ := b1; .prefixVex2 op
  else
    byte.andThen fun b1 => byte.andThen fun b2 =>
      let e' := e.withVex (b1.getLsbD 7) (b1.getLsbD 6) (b1.getLsbD 5) (b2.getLsbD 7)
      let f : VexFields :=
        { map := b1.setWidth 5, v := b2.extractLsb' 3 4, l := b2.getLsbD 2, pp := b2.setWidth 2 }
      let entry := byte.andThen fun op => if b0 = 0xC4 then decodeVex e' f op else decodeXop e' f op
      if !e.c.mode64 ∧ (e'.r ∨ e'.x) then reject .badExtendedPrefix entry else entry

/-- The instruction after the prefixes (30_encoding.md R162 steps 3 to 7). -/
def decodeOpcode (e : Env) : Parser Instr :=
  byte.andThen fun op => fun bs =>
    match bs with
    | b1 :: rest =>
      if isExtendedPrefix e.c op b1 then decodeExtended e op bs
      else if op = 0x0F then decodeSecondary e b1 rest
      else decodePrimary e op bs
    | [] =>
      if op = 0x0F ∨ op = 0x8F ∨ op = 0xC4 ∨ op = 0xC5 then .error .truncated else decodePrimary e op bs

/-- A REX prefix byte (30_encoding.md R174). -/
def isRex (c : Ctx) (b : Byte) : Bool := c.mode64 && b.extractLsb' 4 4 == 4

/-- The constructor that stands for a run of prefixes ending in this byte, if the byte is a prefix (30_encoding.md R163). -/
def prefixInstr (c : Ctx) (b : Byte) : Option Instr :=
  match b.toNat with
  | 0x66 => some .prefixOpSize
  | 0x67 => some .prefixAddrSize
  | 0x2E => some .prefixCs
  | 0x3E => some .prefixDs
  | 0x26 => some .prefixEs
  | 0x64 => some .prefixFs
  | 0x65 => some .prefixGs
  | 0x36 => some .prefixSs
  | 0xF0 => some .prefixLock
  | 0xF2 => some .prefixRepne
  | 0xF3 => some .prefixRep
  | _ => if isRex c b then some .prefixRex else none

/-- A segment override; in 64-bit mode only FS and GS (20_memory.md R104). -/
def Env.withSeg (e : Env) (s : SegName) : Env :=
  if e.c.mode64 && s != .fs && s != .gs then e else { e with seg := some s }

/-- Forget a REX prefix that another prefix follows (30_encoding.md R175). -/
def Env.noRex (e : Env) : Env := { e with rex := false, w := false, r := false, x := false, b := false }

/-- One more prefix byte (30_encoding.md R163, R164, R174, R175). -/
def Env.addPrefix (e : Env) (b : Byte) : Env :=
  match b.toNat with
  | 0x66 => { e.noRex with opsz := true }
  | 0x67 => { e.noRex with addr := true }
  | 0x2E => e.noRex.withSeg .cs
  | 0x3E => e.noRex.withSeg .ds
  | 0x26 => e.noRex.withSeg .es
  | 0x64 => e.noRex.withSeg .fs
  | 0x65 => e.noRex.withSeg .gs
  | 0x36 => e.noRex.withSeg .ss
  | 0xF0 => { e.noRex with lock := true }
  | 0xF2 => { e.noRex with rep := .repne }
  | 0xF3 => { e.noRex with rep := .repe }
  | _ => { e with rex := true, w := b.getLsbD 3, r := b.getLsbD 2, x := b.getLsbD 1, b := b.getLsbD 0 }

/-- Read the prefixes (30_encoding.md R162 steps 1 and 2). -/
def readPrefixes (e : Env) : List Byte → Env × List Byte
  | [] => (e, [])
  | b :: rest => if (prefixInstr e.c b).isSome then readPrefixes (e.addPrefix b) rest else (e, b :: rest)

/-- F0 may stand before the instruction: those that write a memory operand, and MOV CRn (20_memory.md R123,
51_sys_m_r.md R761). A register destination is refused by the meaning. -/
def lockable : Instr → Bool
  | .add _ _ _ | .or _ _ _ | .adc _ _ _ | .sbb _ _ _ | .and _ _ _ | .sub _ _ _ | .xor _ _ _ => true
  | .btc _ _ _ _ | .btr _ _ _ _ | .bts _ _ _ _ | .cmpxchg _ _ _ _ | .cmpxchg8b _ _ | .cmpxchg16b _ _ => true
  | .dec _ _ _ | .inc _ _ _ | .neg _ _ _ | .not _ _ _ | .xadd _ _ _ _ | .xchg _ _ _ _ => true
  | .mov (.fromCr _ _ _) | .mov (.toCr _ _ _) => true
  | _ => false

/-- All bytes are prefixes: the constructor of the last one. -/
def lastPrefix (c : Ctx) : List Byte → Option Instr
  | [] => none
  | [b] => prefixInstr c b
  | b :: rest => if (prefixInstr c b).isSome then lastPrefix c rest else none

/-- Decode: the instruction and its length in bytes. The caller gives at most 15 bytes; fifteen prefix bytes are the
constructor of the last prefix (30_encoding.md R161, R162). -/
def decode (c : Ctx) (bs : List Byte) : Except DecodeError (Instr × Nat) :=
  let pre : Option Instr := if bs.length = 15 then lastPrefix c bs else none
  match pre with
  | some i => .ok (i, 15)
  | none =>
    let (e, rest) := readPrefixes { c } bs
    match decodeOpcode e rest with
    | .error err => .error err
    | .ok (i, rest') =>
      if e.lock && !lockable i then .error .lockNotAllowed else .ok (i, bs.length - rest'.length)

/-! ## The encoder -/

/-- Two bytes of a word, the low one first. -/
def bytes16 (v : BitVec 16) : List Byte := [v.extractLsb' 0 8, v.extractLsb' 8 8]

/-- Four bytes. -/
def bytes32 (v : BitVec 32) : List Byte := bytes16 (v.extractLsb' 0 16) ++ bytes16 (v.extractLsb' 16 16)

/-- Eight bytes. -/
def bytes64 (v : BitVec 64) : List Byte := bytes32 (v.extractLsb' 0 32) ++ bytes32 (v.extractLsb' 32 32)

/-- An immediate `Iz` (30_encoding.md R190). -/
def encImmz (w : Width) (v : BitVec 64) : List Byte :=
  match w with
  | .w8 => [v.setWidth 8]
  | .w16 => bytes16 (v.setWidth 16)
  | _ => bytes32 (v.setWidth 32)

/-- The prefix byte of a segment override (30_encoding.md R163). -/
def segByte : SegName → Byte
  | .es => 0x26
  | .cs => 0x2E
  | .ss => 0x36
  | .ds => 0x3E
  | .fs => 0x64
  | .gs => 0x65

/-- The address-size prefix, if the address size is not the default (30_encoding.md R171). -/
def addrPrefix (c : Ctx) (a : ASize) : List Byte :=
  if ({ c : Env }).asize = a then [] else [0x67]

/-- The segment prefix, if the segment is not the default (20_memory.md R104). -/
def segPrefix (s dflt : SegName) : List Byte := if s = dflt then [] else [segByte s]

/-- The address prefixes of a memory operand. -/
def memPrefixes (c : Ctx) (m : Mem) : List Byte := addrPrefix c m.asz ++ segPrefix m.seg (WellFormed.defaultSeg m.base)

/-- A byte from its `mod`, `reg`, `r/m` fields. -/
def modrmByte (m : BitVec 2) (reg rm : BitVec 3) : Byte := m ++ reg ++ rm

/-- The low three bits of a register number. -/
def low3 (r : Gpr) : BitVec 3 := r.num.setWidth 3

/-- The encoding number of a register operand at width `w` (30_encoding.md R176). -/
def gregNum (g : GReg) : BitVec 4 := if g.high then g.r.num + 4 else g.r.num

/-- ModRM, SIB and displacement of a memory operand: mod 10 with a SIB byte, or the disp32 and RIP-relative forms
(30_encoding.md R180, R181). -/
def encMem (reg : BitVec 3) (m : Mem) : List Byte :=
  match m.asz with
  | .a16 =>
    match WellFormed.form16 m.base m.index with
    | some f => modrmByte 2 reg f :: bytes16 (m.disp.setWidth 16)
    | none => modrmByte 0 reg 6 :: bytes16 (m.disp.setWidth 16)
  | _ =>
    let (scale, idx) : BitVec 2 × BitVec 3 := match m.index with | some i => (i.scale, low3 i.r) | none => (0, 4)
    match m.base with
    | .rip => modrmByte 0 reg 5 :: bytes32 (m.disp.setWidth 32)
    | .none => modrmByte 0 reg 4 :: modrmByte scale idx 5 :: bytes32 (m.disp.setWidth 32)
    | .reg r => modrmByte 2 reg 4 :: modrmByte scale idx (low3 r) :: bytes32 (m.disp.setWidth 32)

/-- ModRM and what follows it. -/
def encRm (reg : BitVec 3) : RM → List Byte
  | .reg g => [modrmByte 3 reg ((gregNum g).setWidth 3)]
  | .mem m => encMem reg m

/-- The X and B extension bits of an operand (30_encoding.md R178). -/
def extBits : RM → Bool × Bool
  | .reg g => (false, !g.high && WellFormed.ext g.r)
  | .mem m =>
    (match m.index with | some i => WellFormed.ext i.r | none => false,
     match m.base with | .reg r => WellFormed.ext r | _ => false)

/-- The REX prefix, if one is needed (30_encoding.md R174). -/
def rexByte (w r x b force : Bool) : List Byte :=
  if w || r || x || b || force then [0x40#8 ||| bit b ||| (bit x <<< 1) ||| (bit r <<< 2) ||| (bit w <<< 3)] else []

/-- The operand-size prefix for width `w`, `d64` for the rows that default to 64 bits (30_encoding.md R170). -/
def sizePrefix (c : Ctx) (w : Width) : List Byte :=
  match w with
  | .w8 => []
  | .w64 => []
  | .w16 => if c.mode64 || c.d32 then [0x66] else []
  | .w32 => if c.mode64 || c.d32 then [] else [0x66]

/-- REX.W stands for a 64-bit operand size (not for the rows that default to 64 bits). -/
def wBit (w : Width) : Bool := w == .w64

/-- The prefixes of an operand. -/
def rmPrefixes (c : Ctx) : RM → List Byte
  | .reg _ => []
  | .mem m => memPrefixes c m

/-- Opcode bytes with a ModRM operand: legacy prefixes, REX, opcode, ModRM. -/
def encModrm (c : Ctx) (pre : List Byte) (wide : Bool) (wReg wRm : Width) (op : List Byte) (reg : GReg) (r : RM) : List Byte :=
  let (x, b) := extBits r
  pre ++ rmPrefixes c r ++
  rexByte wide (!reg.high && WellFormed.ext reg.r) x b
    (WellFormed.needsRexByte wReg reg || (match r with | .reg g => WellFormed.needsRexByte wRm g | .mem _ => false)) ++
  op ++ encRm ((gregNum reg).setWidth 3) r

/-- Opcode bytes with a ModRM operand whose reg field is /n. -/
def encSlash (c : Ctx) (pre : List Byte) (wide : Bool) (w : Width) (op : List Byte) (n : BitVec 3) (r : RM) : List Byte :=
  let (x, b) := extBits r
  pre ++ rmPrefixes c r ++
  rexByte wide false x b (match r with | .reg g => WellFormed.needsRexByte w g | .mem _ => false) ++ op ++ encRm n r

/-- A plain register as an operand. -/
def plain (r : Gpr) : GReg := { r }

/-- The opcode of a row whose low bit selects byte or operand size. -/
def opBv (op : Byte) (w : Width) : List Byte := if w = .w8 then [op] else [op ||| 1]

/-- The LOCK prefix. -/
def lockPrefix (l : Bool) : List Byte := if l then [0xF0] else []

/-- The repeat prefix. -/
def repPrefix : Rep → List Byte
  | .none => []
  | .repe => [0xF3]
  | .repne => [0xF2]

/-- An arithmetic-logic row (31_opcode_maps.md R233, R246). -/
def encAlu (c : Ctx) (n : BitVec 3) (w : Width) (f : AluForm) (lock : Bool) : List Byte :=
  let pre := lockPrefix lock ++ sizePrefix c w
  let base : Byte := (n.setWidth 8) <<< 3
  match f with
  | .rmReg r g => encModrm c pre (wBit w) w w (opBv base w) g r
  | .regRm g r => encModrm c pre (wBit w) w w (opBv (base ||| 2) w) g r
  | .rmImm r v => encSlash c pre (wBit w) w (opBv 0x80 w) n r ++ encImmz w v

/-- A shift or rotate (31_opcode_maps.md R245). -/
def encShift (c : Ctx) (n : BitVec 3) (w : Width) (r : RM) (cnt : ShiftCount) : List Byte :=
  match cnt with
  | .imm v => encSlash c (sizePrefix c w) (wBit w) w (opBv 0xC0 w) n r ++ [v]
  | .one => encSlash c (sizePrefix c w) (wBit w) w (opBv 0xD0 w) n r
  | .cl => encSlash c (sizePrefix c w) (wBit w) w (opBv 0xD2 w) n r

/-- A register destination and an r/m source. -/
def encRegRm (c : Ctx) (pre : List Byte) (w : Width) (op : List Byte) (dst : Gpr) (src : RM) : List Byte :=
  encModrm c pre (wBit w) w w op (plain dst) src

/-- A register destination and an r/m source, with the operand-size prefix. -/
def encV (c : Ctx) (w : Width) (op : List Byte) (dst : Gpr) (src : RM) : List Byte :=
  encRegRm c (sizePrefix c w) w op dst src

/-- An opcode with the width in the default-64 convention. -/
def encD64 (c : Ctx) (w : Width) (op : List Byte) : List Byte := sizePrefix c w ++ op

/-- A string instruction: repeat, size, address and segment prefixes, REX.W, opcode. -/
def encStr (c : Ctx) (w : Width) (s : SegName) (a : ASize) (rep : Rep) (op : Byte) : List Byte :=
  repPrefix rep ++ sizePrefix c w ++ addrPrefix c a ++ segPrefix s .ds ++ rexByte (wBit w) false false false false ++ [op]

/-- An implicit rAX address: address and segment prefixes before fixed bytes. -/
def encAddr (c : Ctx) (s : SegName) (a : ASize) (op : List Byte) : List Byte :=
  addrPrefix c a ++ segPrefix s .ds ++ op

/-- A VEX (`C4`) or XOP (`8F`) form (30_encoding.md R201). -/
def encVex (c : Ctx) (b0 : Byte) (map : BitVec 5) (pp : BitVec 2) (w : Width) (v : Gpr) (op : Byte) (regHi : Bool)
    (reg : BitVec 3) (r : RM) : List Byte :=
  let (x, b) := extBits r
  rmPrefixes c r ++
  [b0, (bit (!regHi) : BitVec 1) ++ (bit (!x) : BitVec 1) ++ (bit (!b) : BitVec 1) ++ map,
   (bit (wBit w) : BitVec 1) ++ (~~~v.num) ++ (0 : BitVec 1) ++ pp, op] ++ encRm reg r

/-- A VEX form with its destination in ModRM.reg. -/
def encVexR (c : Ctx) (map : BitVec 5) (pp : BitVec 2) (w : Width) (dst v : Gpr) (op : Byte) (r : RM) : List Byte :=
  encVex c 0xC4 map pp w v op (WellFormed.ext dst) (low3 dst) r

/-- A VEX group form: /n, destination in vvvv. -/
def encVexN (c : Ctx) (w : Width) (dst : Gpr) (n : BitVec 3) (r : RM) : List Byte :=
  encVex c 0xC4 2 0 w dst 0xF3 false n r

/-- An XOP group form: /n, destination in vvvv. -/
def encXopN (c : Ctx) (w : Width) (dst : Gpr) (op : Byte) (n : BitVec 3) (r : RM) : List Byte :=
  encVex c 0x8F 9 0 w dst op false n r

/-- A Jcc with a displacement of min(w, 32) bits (31_opcode_maps.md R255). -/
def encJcc (c : Ctx) (n : Byte) (w : Width) (d : BitVec 64) : List Byte :=
  encD64 c w [0x0F, 0x80 ||| n] ++ encImmz w d

/-- A memory-only form with /n and a fixed prefix. -/
def encMem0 (c : Ctx) (pre op : List Byte) (n : BitVec 3) (m : Mem) : List Byte :=
  encSlash c pre false .w32 op n (.mem m)

/-- A register-only form with /n, a fixed prefix and a width. -/
def encReg0 (c : Ctx) (pre : List Byte) (w : Width) (op : List Byte) (n : BitVec 3) (r : Gpr) : List Byte :=
  encSlash c pre (wBit w) .w32 op n (.reg (plain r))

/-- MOV (43_gp_l_m.md R470, 51_sys_m_r.md R761, R762). -/
def encMov (c : Ctx) : MovForm → List Byte
  | .rmReg w r g => encModrm c (sizePrefix c w) (wBit w) w w (opBv 0x88 w) g r
  | .regRm w g r => encModrm c (sizePrefix c w) (wBit w) w w (opBv 0x8A w) g r
  | .rmImm w r v =>
    match w, r with
    | .w64, .reg g => rexByte true false false (WellFormed.ext g.r) false ++ [0xB8#8 ||| (low3 g.r).setWidth 8] ++ bytes64 v
    | _, _ => encSlash c (sizePrefix c w) (wBit w) w (opBv 0xC6 w) 0 r ++ encImmz w v
  | .load w s a o =>
    sizePrefix c w ++ encAddr c s a (rexByte (wBit w) false false false false ++ opBv 0xA0 w) ++
    (match a with | .a16 => bytes16 (o.setWidth 16) | .a32 => bytes32 (o.setWidth 32) | .a64 => bytes64 o)
  | .store w s a o =>
    sizePrefix c w ++ encAddr c s a (rexByte (wBit w) false false false false ++ opBv 0xA2 w) ++
    (match a with | .a16 => bytes16 (o.setWidth 16) | .a32 => bytes32 (o.setWidth 32) | .a64 => bytes64 o)
  | .fromSeg w r s =>
    encSlash c (match r with | .reg _ => sizePrefix c w | .mem _ => []) (wBit w) .w32 [0x8C] s.num r
  | .toSeg s r => encSlash c [] false .w32 [0x8E] s.num r
  | .fromCr l n r => lockPrefix l ++ rexByte false n.msb false (WellFormed.ext r) false ++ [0x0F, 0x20, modrmByte 3 (n.setWidth 3) (low3 r)]
  | .toCr l n r => lockPrefix l ++ rexByte false n.msb false (WellFormed.ext r) false ++ [0x0F, 0x22, modrmByte 3 (n.setWidth 3) (low3 r)]
  | .fromDr n r => rexByte false n.msb false (WellFormed.ext r) false ++ [0x0F, 0x21, modrmByte 3 (n.setWidth 3) (low3 r)]
  | .toDr n r => rexByte false n.msb false (WellFormed.ext r) false ++ [0x0F, 0x23, modrmByte 3 (n.setWidth 3) (low3 r)]

/-- MOVD (43_gp_l_m.md R472). -/
def encMovd (c : Ctx) (wide : Bool) : MovdForm → List Byte
  | .toXmm x r => encModrm c [0x66] wide .w32 .w32 [0x0F, 0x6E] (plain (.ofNum x)) r
  | .fromXmm r x => encModrm c [0x66] wide .w32 .w32 [0x0F, 0x7E] (plain (.ofNum x)) r
  | .toMmx x r => encSlash c [] wide .w32 [0x0F, 0x6E] x r
  | .fromMmx r x => encSlash c [] wide .w32 [0x0F, 0x7E] x r

/-- PUSH (44_gp_n_p.md R530). -/
def encPush (c : Ctx) (w : Width) : PushForm → List Byte
  | .rm r => encSlash c (sizePrefix c w) false .w32 [0xFF] 6 r
  | .imm v => sizePrefix c w ++ [0x68] ++ encImmz w v
  | .seg .es => encD64 c w [0x06]
  | .seg .cs => encD64 c w [0x0E]
  | .seg .ss => encD64 c w [0x16]
  | .seg .ds => encD64 c w [0x1E]
  | .seg .fs => encD64 c w [0x0F, 0xA0]
  | .seg .gs => encD64 c w [0x0F, 0xA8]

/-- POP (44_gp_n_p.md R520). -/
def encPop (c : Ctx) (w : Width) : PopForm → List Byte
  | .rm r => encSlash c (sizePrefix c w) false .w32 [0x8F] 0 r
  | .seg .es => encD64 c w [0x07]
  | .seg .cs => []
  | .seg .ss => encD64 c w [0x17]
  | .seg .ds => encD64 c w [0x1F]
  | .seg .fs => encD64 c w [0x0F, 0xA1]
  | .seg .gs => encD64 c w [0x0F, 0xA9]

/-- A far pointer in the instruction (31_opcode_maps.md R284 `Ap`). -/
def encFar (w : Width) (s : BitVec 16) (off : BitVec 32) : List Byte :=
  (if w = .w16 then bytes16 (off.setWidth 16) else bytes32 off) ++ bytes16 s

/-- A bit-test row: `Ev, Gv` or Group 8 (31_opcode_maps.md R263). -/
def encBit (c : Ctx) (op : Byte) (n : BitVec 3) (w : Width) (r : RM) (off : BitOff) (lock : Bool) : List Byte :=
  match off with
  | .reg g => encModrm c (lockPrefix lock ++ sizePrefix c w) (wBit w) w w [0x0F, op] (plain g) r
  | .imm v => encSlash c (lockPrefix lock ++ sizePrefix c w) (wBit w) w [0x0F, 0xBA] n r ++ [v]

/-- The prefix run of a prefix constructor and the code points of other volumes have no canonical bytes: the empty list. -/
def encode (c : Ctx) (i : Instr) : List Byte :=
  let slashB (lock : Bool) (w : Width) (op : Byte) (n : BitVec 3) (r : RM) :=
    encSlash c (lockPrefix lock ++ sizePrefix c w) (wBit w) w (opBv op w) n r
  let cmov (n : Byte) (w : Width) (d : Gpr) (s : RM) := encV c w [0x0F, 0x40 ||| n] d s
  let setcc (n : Byte) (r : RM) := encSlash c [] false .w8 [0x0F, 0x90 ||| n] 0 r
  match i with
  | .add w f l => encAlu c 0 w f l
  | .or w f l => encAlu c 1 w f l
  | .adc w f l => encAlu c 2 w f l
  | .sbb w f l => encAlu c 3 w f l
  | .and w f l => encAlu c 4 w f l
  | .sub w f l => encAlu c 5 w f l
  | .xor w f l => encAlu c 6 w f l
  | .cmp w f => encAlu c 7 w f false
  | .aaa => [0x37]
  | .aad v => [0xD5, v]
  | .aam v => [0xD4, v]
  | .aas => [0x3F]
  | .adcx w d s => encModrm c [0x66] (wBit w) w w [0x0F, 0x38, 0xF6] (plain d) s
  | .adox w d s => encModrm c [0xF3] (wBit w) w w [0x0F, 0x38, 0xF6] (plain d) s
  | .andn w d a s => encVexR c 2 0 w d a 0xF2 s
  | .bextr w d s (.reg v) => encVexR c 2 0 w d v 0xF7 s
  | .bextr w d s (.imm v) => encVex c 0x8F 10 0 w .rax 0x10 (WellFormed.ext d) (low3 d) s ++ bytes32 v
  | .blcfill w d s => encXopN c w d 1 1 s
  | .blci w d s => encXopN c w d 2 6 s
  | .blcic w d s => encXopN c w d 1 5 s
  | .blcmsk w d s => encXopN c w d 2 1 s
  | .blcs w d s => encXopN c w d 1 3 s
  | .blsfill w d s => encXopN c w d 1 2 s
  | .blsic w d s => encXopN c w d 1 6 s
  | .blsi w d s => encVexN c w d 3 s
  | .blsmsk w d s => encVexN c w d 2 s
  | .blsr w d s => encVexN c w d 1 s
  | .bound w d m => encV c w [0x62] d (.mem m)
  | .bsf w d s => encV c w [0x0F, 0xBC] d s
  | .bsr w d s => encV c w [0x0F, 0xBD] d s
  | .bswap w r => sizePrefix c w ++ rexByte (wBit w) false false (WellFormed.ext r) false ++ [0x0F, 0xC8#8 ||| (low3 r).setWidth 8]
  | .bt w r o => encBit c 0xA3 4 w r o false
  | .btc w r o l => encBit c 0xBB 7 w r o l
  | .btr w r o l => encBit c 0xB3 6 w r o l
  | .bts w r o l => encBit c 0xAB 5 w r o l
  | .bzhi w d s v => encVexR c 2 0 w d v 0xF5 s
  | .call w (.rel d) => encD64 c w [0xE8] ++ encImmz w d
  | .call w (.rm r) => encSlash c (sizePrefix c w) false .w32 [0xFF] 2 r
  | .callFar w (.ptr s o) => sizePrefix c w ++ [0x9A] ++ encFar w s o
  | .callFar w (.mem m) => encSlash c (sizePrefix c w) (wBit w) w [0xFF] 3 (.mem m)
  | .cbw => sizePrefix c .w16 ++ [0x98]
  | .cwde => sizePrefix c .w32 ++ [0x98]
  | .cdqe => [0x48, 0x98]
  | .cwd => sizePrefix c .w16 ++ [0x99]
  | .cdq => sizePrefix c .w32 ++ [0x99]
  | .cqo => [0x48, 0x99]
  | .clc => [0xF8]
  | .cld => [0xFC]
  | .clflush m => encMem0 c [] [0x0F, 0xAE] 7 m
  | .clflushopt m => encMem0 c [0x66] [0x0F, 0xAE] 7 m
  | .clwb m => encMem0 c [0x66] [0x0F, 0xAE] 6 m
  | .clzero s a => encAddr c s a [0x0F, 0x01, 0xFC]
  | .cmc => [0xF5]
  | .cmovo w d s => cmov 0 w d s
  | .cmovno w d s => cmov 1 w d s
  | .cmovb w d s => cmov 2 w d s
  | .cmovnb w d s => cmov 3 w d s
  | .cmovz w d s => cmov 4 w d s
  | .cmovnz w d s => cmov 5 w d s
  | .cmovbe w d s => cmov 6 w d s
  | .cmovnbe w d s => cmov 7 w d s
  | .cmovs w d s => cmov 8 w d s
  | .cmovns w d s => cmov 9 w d s
  | .cmovp w d s => cmov 10 w d s
  | .cmovnp w d s => cmov 11 w d s
  | .cmovl w d s => cmov 12 w d s
  | .cmovnl w d s => cmov 13 w d s
  | .cmovle w d s => cmov 14 w d s
  | .cmovnle w d s => cmov 15 w d s
  | .cmpsb s a rep => encStr c .w8 s a rep 0xA6
  | .cmpsv w s a rep => encStr c w s a rep 0xA7
  | .cmpxchg w r g l => encModrm c (lockPrefix l ++ sizePrefix c w) (wBit w) w w (0x0F :: opBv 0xB0 w) g r
  | .cmpxchg8b m l => encMem0 c (lockPrefix l) [0x0F, 0xC7] 1 m
  | .cmpxchg16b m l => encSlash c (lockPrefix l) true .w32 [0x0F, 0xC7] 1 (.mem m)
  | .cpuid => [0x0F, 0xA2]
  | .crc32 w wide d s =>
    encModrm c ([0xF2] ++ (if w = .w8 ∨ wide then [] else sizePrefix c w)) wide .w32 w
      (0x0F :: 0x38 :: (if w = .w8 then [0xF0] else [0xF1])) (plain d) s
  | .daa => [0x27]
  | .das => [0x2F]
  | .dec w r l => slashB l w 0xFE 1 r
  | .div w r => slashB false w 0xF6 6 r
  | .enter w s l => encD64 c w [0xC8] ++ bytes16 s ++ [l]
  | .idiv w r => slashB false w 0xF6 7 r
  | .imul w (.acc r) => slashB false w 0xF6 5 r
  | .imul w (.regRm d r) => encV c w [0x0F, 0xAF] d r
  | .imul w (.regRmImm d r v) => encV c w [0x69] d r ++ encImmz w v
  | .inp w (.imm v) => sizePrefix c w ++ opBv 0xE4 w ++ [v]
  | .inp w .dx => sizePrefix c w ++ opBv 0xEC w
  | .inc w r l => slashB l w 0xFE 0 r
  | .insb a rep => encStr c .w8 .ds a rep 0x6C
  | .insw a rep => encStr c .w16 .ds a rep 0x6D
  | .insd a rep => encStr c .w32 .ds a rep 0x6D
  | .int v => [0xCD, v]
  | .into => [0xCE]
  | .jo w d => encJcc c 0 w d
  | .jno w d => encJcc c 1 w d
  | .jb w d => encJcc c 2 w d
  | .jnb w d => encJcc c 3 w d
  | .jz w d => encJcc c 4 w d
  | .jnz w d => encJcc c 5 w d
  | .jbe w d => encJcc c 6 w d
  | .jnbe w d => encJcc c 7 w d
  | .js w d => encJcc c 8 w d
  | .jns w d => encJcc c 9 w d
  | .jp w d => encJcc c 10 w d
  | .jnp w d => encJcc c 11 w d
  | .jl w d => encJcc c 12 w d
  | .jnl w d => encJcc c 13 w d
  | .jle w d => encJcc c 14 w d
  | .jnle w d => encJcc c 15 w d
  | .jcxz w d => sizePrefix c w ++ addrPrefix c .a16 ++ [0xE3, d.setWidth 8]
  | .jecxz w d => sizePrefix c w ++ addrPrefix c .a32 ++ [0xE3, d.setWidth 8]
  | .jrcxz w d => sizePrefix c w ++ addrPrefix c .a64 ++ [0xE3, d.setWidth 8]
  | .jmp w (.rel d) => encD64 c w [0xE9] ++ encImmz w d
  | .jmp w (.rm r) => encSlash c (sizePrefix c w) false .w32 [0xFF] 4 r
  | .jmpFar w (.ptr s o) => sizePrefix c w ++ [0xEA] ++ encFar w s o
  | .jmpFar w (.mem m) => encSlash c (sizePrefix c w) (wBit w) w [0xFF] 5 (.mem m)
  | .lahf => [0x9F]
  | .lds w d m => encV c w [0xC5] d (.mem m)
  | .les w d m => encV c w [0xC4] d (.mem m)
  | .lfs w d m => encV c w [0x0F, 0xB4] d (.mem m)
  | .lgs w d m => encV c w [0x0F, 0xB5] d (.mem m)
  | .lss w d m => encV c w [0x0F, 0xB2] d (.mem m)
  | .lea w d m => encV c w [0x8D] d (.mem m)
  | .leave w => encD64 c w [0xC9]
  | .lfence => [0x0F, 0xAE, 0xE8]
  | .llwpcb w r => encVex c 0x8F 9 0 w .rax 0x12 false 0 (.reg (plain r))
  | .lodsb s a rep => encStr c .w8 s a rep 0xAC
  | .lodsv w s a rep => encStr c w s a rep 0xAD
  | .loop w a d => sizePrefix c w ++ addrPrefix c a ++ [0xE2, d.setWidth 8]
  | .loope w a d => sizePrefix c w ++ addrPrefix c a ++ [0xE1, d.setWidth 8]
  | .loopne w a d => sizePrefix c w ++ addrPrefix c a ++ [0xE0, d.setWidth 8]
  | .lwpins w s r v => encVex c 0x8F 10 0 w s 0x12 false 0 r ++ bytes32 v
  | .lwpval w s r v => encVex c 0x8F 10 0 w s 0x12 false 1 r ++ bytes32 v
  | .lzcnt w d s => encRegRm c (0xF3 :: sizePrefix c w) w [0x0F, 0xBD] d s
  | .mcommit => [0xF3, 0x0F, 0x01, 0xFA]
  | .mfence => [0x0F, 0xAE, 0xF0]
  | .monitorx s a => encAddr c s a [0x0F, 0x01, 0xFA]
  | .mov f => encMov c f
  | .movbe w (.load d m) => encV c w [0x0F, 0x38, 0xF0] d (.mem m)
  | .movbe w (.store m s) => encV c w [0x0F, 0x38, 0xF1] s (.mem m)
  | .movd wide f => encMovd c wide f
  | .movmskpd d x => encModrm c [0x66] false .w32 .w32 [0x0F, 0x50] (plain d) (.reg (plain (.ofNum x)))
  | .movmskps d x => encModrm c [] false .w32 .w32 [0x0F, 0x50] (plain d) (.reg (plain (.ofNum x)))
  | .movnti w m r => encModrm c [] (wBit w) .w32 .w32 [0x0F, 0xC3] (plain r) (.mem m)
  | .movsb s a rep => encStr c .w8 s a rep 0xA4
  | .movsv w s a rep => encStr c w s a rep 0xA5
  | .movsx w sw d s => encModrm c (sizePrefix c w) (wBit w) .w32 sw (0x0F :: opBv 0xBE sw) (plain d) s
  | .movsxd w d s => encModrm c (sizePrefix c w) (wBit w) .w32 .w32 [0x63] (plain d) s
  | .movzx w sw d s => encModrm c (sizePrefix c w) (wBit w) .w32 sw (0x0F :: opBv 0xB6 sw) (plain d) s
  | .mul w r => slashB false w 0xF6 4 r
  | .mulx w hi lo s => encVexR c 2 3 w hi lo 0xF6 s
  | .mwaitx => [0x0F, 0x01, 0xFB]
  | .neg w r l => slashB l w 0xF6 3 r
  | .nop none => [0x90]
  | .nop (some r) => encSlash c [] false .w32 [0x0F, 0x1F] 0 r
  | .not w r l => slashB l w 0xF6 2 r
  | .out w (.imm v) => sizePrefix c w ++ opBv 0xE6 w ++ [v]
  | .out w .dx => sizePrefix c w ++ opBv 0xEE w
  | .outsb s a rep => encStr c .w8 s a rep 0x6E
  | .outsw s a rep => encStr c .w16 s a rep 0x6F
  | .outsd s a rep => encStr c .w32 s a rep 0x6F
  | .pause => [0xF3, 0x90]
  | .pdep w d s m => encVexR c 2 3 w d s 0xF5 m
  | .pext w d s m => encVexR c 2 2 w d s 0xF5 m
  | .pop w f => encPop c w f
  | .popa => sizePrefix c .w16 ++ [0x61]
  | .popad => sizePrefix c .w32 ++ [0x61]
  | .popcnt w d s => encRegRm c (0xF3 :: sizePrefix c w) w [0x0F, 0xB8] d s
  | .popf => sizePrefix c .w16 ++ [0x9D]
  | .popfd => sizePrefix c .w32 ++ [0x9D]
  | .popfq => [0x9D]
  | .prefetch m => encMem0 c [] [0x0F, 0x0D] 0 m
  | .prefetchw m => encMem0 c [] [0x0F, 0x0D] 1 m
  | .prefetchnta m => encMem0 c [] [0x0F, 0x18] 0 m
  | .prefetcht0 m => encMem0 c [] [0x0F, 0x18] 1 m
  | .prefetcht1 m => encMem0 c [] [0x0F, 0x18] 2 m
  | .prefetcht2 m => encMem0 c [] [0x0F, 0x18] 3 m
  | .push w f => encPush c w f
  | .pusha => sizePrefix c .w16 ++ [0x60]
  | .pushad => sizePrefix c .w32 ++ [0x60]
  | .pushf => sizePrefix c .w16 ++ [0x9C]
  | .pushfd => sizePrefix c .w32 ++ [0x9C]
  | .pushfq => [0x9C]
  | .rol w r n => encShift c 0 w r n
  | .ror w r n => encShift c 1 w r n
  | .rcl w r n => encShift c 2 w r n
  | .rcr w r n => encShift c 3 w r n
  | .shl w r n => encShift c 4 w r n
  | .shr w r n => encShift c 5 w r n
  | .sar w r n => encShift c 7 w r n
  | .rdfsbase w r => encReg0 c [0xF3] w [0x0F, 0xAE] 0 r
  | .rdgsbase w r => encReg0 c [0xF3] w [0x0F, 0xAE] 1 r
  | .rdpid r => encReg0 c [0xF3] .w32 [0x0F, 0xC7] 7 r
  | .rdpru => [0x0F, 0x01, 0xFD]
  | .rdrand w r => encReg0 c (sizePrefix c w) w [0x0F, 0xC7] 6 r
  | .rdseed w r => encReg0 c (sizePrefix c w) w [0x0F, 0xC7] 7 r
  | .ret w v => encD64 c w [0xC2] ++ bytes16 v
  | .retf w v => sizePrefix c w ++ rexByte (wBit w) false false false false ++ [0xCA] ++ bytes16 v
  | .rorx w d s v => encVexR c 3 3 w d .rax 0xF0 s ++ [v]
  | .sahf => [0x9E]
  | .sarx w d s v => encVexR c 2 2 w d v 0xF7 s
  | .scasb a rep => encStr c .w8 .ds a rep 0xAE
  | .scasv w a rep => encStr c w .ds a rep 0xAF
  | .seto r => setcc 0 r
  | .setno r => setcc 1 r
  | .setb r => setcc 2 r
  | .setnb r => setcc 3 r
  | .setz r => setcc 4 r
  | .setnz r => setcc 5 r
  | .setbe r => setcc 6 r
  | .setnbe r => setcc 7 r
  | .sets r => setcc 8 r
  | .setns r => setcc 9 r
  | .setp r => setcc 10 r
  | .setnp r => setcc 11 r
  | .setl r => setcc 12 r
  | .setnl r => setcc 13 r
  | .setle r => setcc 14 r
  | .setnle r => setcc 15 r
  | .sfence => [0x0F, 0xAE, 0xF8]
  | .shld w r g (.imm v) => encV c w [0x0F, 0xA4] g r ++ [v]
  | .shld w r g _ => encV c w [0x0F, 0xA5] g r
  | .shlx w d s v => encVexR c 2 1 w d v 0xF7 s
  | .shrd w r g (.imm v) => encV c w [0x0F, 0xAC] g r ++ [v]
  | .shrd w r g _ => encV c w [0x0F, 0xAD] g r
  | .shrx w d s v => encVexR c 2 3 w d v 0xF7 s
  | .slwpcb w r => encVex c 0x8F 9 0 w .rax 0x12 false 1 (.reg (plain r))
  | .stc => [0xF9]
  | .std => [0xFD]
  | .stosb a rep => encStr c .w8 .ds a rep 0xAA
  | .stosv w a rep => encStr c w .ds a rep 0xAB
  | .t1mskc w d s => encXopN c w d 1 7 s
  | .test w r (.reg g) => encModrm c (sizePrefix c w) (wBit w) w w (opBv 0x84 w) g r
  | .test w r (.imm v) => slashB false w 0xF6 0 r ++ encImmz w v
  | .tzcnt w d s => encRegRm c (0xF3 :: sizePrefix c w) w [0x0F, 0xBC] d s
  | .tzmsk w d s => encXopN c w d 1 4 s
  | .ud0 => [0x0F, 0xFF]
  | .ud1 => [0x0F, 0xB9]
  | .ud2 => [0x0F, 0x0B]
  | .wrfsbase w r => encReg0 c [0xF3] w [0x0F, 0xAE] 2 r
  | .wrgsbase w r => encReg0 c [0xF3] w [0x0F, 0xAE] 3 r
  | .xadd w r g l => encModrm c (lockPrefix l ++ sizePrefix c w) (wBit w) w w (0x0F :: opBv 0xC0 w) g r
  | .xchg w r g l => encModrm c (lockPrefix l ++ sizePrefix c w) (wBit w) w w (opBv 0x86 w) g r
  | .xlat s a => encAddr c s a [0xD7]
  | .arpl r g => encModrm c [] false .w32 .w32 [0x63] (plain g) r
  | .clac => [0x0F, 0x01, 0xCA]
  | .clgi => [0x0F, 0x01, 0xDD]
  | .cli => [0xFA]
  | .clts => [0x0F, 0x06]
  | .clrssbsy m => encMem0 c [0xF3] [0x0F, 0xAE] 6 m
  | .hlt => [0xF4]
  | .incsspd r => encReg0 c [0xF3] .w32 [0x0F, 0xAE] 5 r
  | .incsspq r => encReg0 c [0xF3] .w64 [0x0F, 0xAE] 5 r
  | .int3 => [0xCC]
  | .invd => [0x0F, 0x08]
  | .invlpg m => encMem0 c [] [0x0F, 0x01] 7 m
  | .invlpga s a => encAddr c s a [0x0F, 0x01, 0xDF]
  | .invlpgb s a => encAddr c s a [0x0F, 0x01, 0xFE]
  | .invpcid r m => encModrm c [0x66] false .w32 .w32 [0x0F, 0x38, 0x82] (plain r) (.mem m)
  | .iret => sizePrefix c .w16 ++ [0xCF]
  | .iretd => sizePrefix c .w32 ++ [0xCF]
  | .iretq => [0x48, 0xCF]
  | .lar w d s => encV c w [0x0F, 0x02] d s
  | .lgdt w m => encMem0 c (sizePrefix c w) [0x0F, 0x01] 2 m
  | .lidt w m => encMem0 c (sizePrefix c w) [0x0F, 0x01] 3 m
  | .lldt r => encSlash c [] false .w32 [0x0F, 0x00] 2 r
  | .lmsw r => encSlash c [] false .w32 [0x0F, 0x01] 6 r
  | .lsl w d s => encV c w [0x0F, 0x03] d s
  | .ltr r => encSlash c [] false .w32 [0x0F, 0x00] 3 r
  | .monitor s a => encAddr c s a [0x0F, 0x01, 0xC8]
  | .mwait => [0x0F, 0x01, 0xC9]
  | .psmash a => 0xF3 :: addrPrefix c a ++ [0x0F, 0x01, 0xFF]
  | .pvalidate a => 0xF2 :: addrPrefix c a ++ [0x0F, 0x01, 0xFF]
  | .rdmsr => [0x0F, 0x32]
  | .rdpkru => [0x0F, 0x01, 0xEE]
  | .rdpmc => [0x0F, 0x33]
  | .rdsspd r => encReg0 c [0xF3] .w32 [0x0F, 0x1E] 1 r
  | .rdsspq r => encReg0 c [0xF3] .w64 [0x0F, 0x1E] 1 r
  | .rdtsc => [0x0F, 0x31]
  | .rdtscp => [0x0F, 0x01, 0xF9]
  | .rmpadjust a => 0xF3 :: addrPrefix c a ++ [0x0F, 0x01, 0xFE]
  | .rmpupdate s a => 0xF2 :: encAddr c s a [0x0F, 0x01, 0xFE]
  | .rsm => [0x0F, 0xAA]
  | .rstorssp m => encMem0 c [0xF3] [0x0F, 0x01] 5 m
  | .saveprevssp => [0xF3, 0x0F, 0x01, 0xEA]
  | .setssbsy => [0xF3, 0x0F, 0x01, 0xE8]
  | .sgdt m => encMem0 c [] [0x0F, 0x01] 0 m
  | .sidt m => encMem0 c [] [0x0F, 0x01] 1 m
  | .skinit => [0x0F, 0x01, 0xDE]
  | .sldt w r => encSlash c (match r with | .reg _ => sizePrefix c w | .mem _ => []) (wBit w) .w32 [0x0F, 0x00] 0 r
  | .smsw w r => encSlash c (match r with | .reg _ => sizePrefix c w | .mem _ => []) (wBit w) .w32 [0x0F, 0x01] 4 r
  | .stac => [0x0F, 0x01, 0xCB]
  | .sti => [0xFB]
  | .stgi => [0x0F, 0x01, 0xDC]
  | .str w r => encSlash c (match r with | .reg _ => sizePrefix c w | .mem _ => []) (wBit w) .w32 [0x0F, 0x00] 1 r
  | .swapgs => [0x0F, 0x01, 0xF8]
  | .syscall => [0x0F, 0x05]
  | .sysenter => [0x0F, 0x34]
  | .sysexit => [0x0F, 0x35]
  | .sysret w => rexByte (wBit w) false false false false ++ [0x0F, 0x07]
  | .tlbsync => [0x0F, 0x01, 0xFF]
  | .verr r => encSlash c [] false .w32 [0x0F, 0x00] 4 r
  | .verw r => encSlash c [] false .w32 [0x0F, 0x00] 5 r
  | .vmload a => addrPrefix c a ++ [0x0F, 0x01, 0xDA]
  | .vmmcall => [0x0F, 0x01, 0xD9]
  | .vmgexit => [0xF3, 0x0F, 0x01, 0xD9]
  | .vmrun a => addrPrefix c a ++ [0x0F, 0x01, 0xD8]
  | .vmsave a => addrPrefix c a ++ [0x0F, 0x01, 0xDB]
  | .wbinvd => [0x0F, 0x09]
  | .wbnoinvd => [0xF3, 0x0F, 0x09]
  | .wrmsr => [0x0F, 0x30]
  | .wrpkru => [0x0F, 0x01, 0xEF]
  | .wrssd m r => encModrm c [] false .w32 .w32 [0x0F, 0x38, 0xF6] (plain r) (.mem m)
  | .wrssq m r => encModrm c [] true .w32 .w32 [0x0F, 0x38, 0xF6] (plain r) (.mem m)
  | .wrussd m r => encModrm c [0x66] false .w32 .w32 [0x0F, 0x38, 0xF5] (plain r) (.mem m)
  | .wrussq m r => encModrm c [0x66] true .w32 .w32 [0x0F, 0x38, 0xF5] (plain r) (.mem m)
  | .int1 => [0xF1]
  | .reservedD6 => [0xD6]
  | .reservedGroup3 w => slashB false w 0xF6 1 (.reg (plain .rax))
  | .prefixOpSize | .prefixAddrSize | .prefixCs | .prefixDs | .prefixEs | .prefixFs | .prefixGs | .prefixSs
  | .prefixLock | .prefixRep | .prefixRepne | .prefixRex => []
  | .prefixVex3 _ _ | .prefixVex2 _ | .prefixXop _ _ | .escape0F _ _ | .escape0F38 _ _ | .escape0F3A _ _ | .x87 _ _
  | .wait | .threeDNow _ _ => []

/-- The bytes of an opcode-table word of `nbits` bits, the first byte lowest, followed by zero bytes up to 15. -/
def tableBytes (nbits w : Nat) : List Byte :=
  (List.range 15).map fun k => if 8 * k < nbits then BitVec.ofNat 8 (w >>> (8 * k)) else 0

/-- The instruction that the decoder reads from an opcode-table word: in 16-bit real mode, where the machine is after
reset; where that mode rejects it, in 64-bit mode, and then in 32-bit protected mode (log 7). -/
def decodeTableWord (nbits w : Nat) : Option Instr :=
  let bs := tableBytes nbits w
  match decode .real16 bs with
  | .ok (i, _) => some i
  | .error _ =>
    match decode .long64 bs with
    | .ok (i, _) => some i
    | .error _ =>
      match decode .prot32 bs with
      | .ok (i, _) => some i
      | .error _ => none

end Sys2Proof
end

