-- ==== Sys2Proof/Machine/Fetch.lean ====
section
/-! DEFINITION. Instruction fetch (20_memory.md R125), external events (60_exceptions.md R931, R932), RESET and INIT
(70_reset_and_hazards.md R960, R963): what `step` calls. -/

namespace Sys2Proof.Machine

/-- The linear address of an instruction byte (20_memory.md R125). -/
def State.fetchLinear (s : State) (off : Quad) : Quad :=
  if s.mode64 then off else trunc .w32 (s.seg.cs.base + off)

/-- One instruction byte at offset `off` in the code segment, with the checks of 20_memory.md R125. -/
def State.fetchByte (s : State) (off : Quad) : Res Byte := do
  require (if s.mode64 then s.canonical off else off.toNat ≤ s.seg.cs.limit.toNat) gp0
  let ps ← s.span { kind := .execute, user := s.cpl == 3, size := 1, ac := s.flags.ac } s.wrap32 (s.fetchLinear off)
  .ok (BitVec.ofNat 8 (s.loadAt ps))

/-- Up to `n` instruction bytes from an offset on: those before the first byte that cannot be fetched, and why it
cannot. -/
def State.fetchBytes (s : State) : Nat → Quad → List Byte × Option Trap
  | 0, _ => ([], none)
  | n + 1, off =>
    match s.fetchByte off with
    | .error e => ([], some e)
    | .ok b =>
      let (bs, e) := State.fetchBytes s n (off + 1)
      (b :: bs, e)

/-- The bytes of the instruction to run: those kept of a repeated one that is not finished, or those at rIP (20_memory.md R125,
R145). -/
def State.codeBytes (s : State) : List Byte × Option Trap :=
  if s.exec.latch = [] then s.fetchBytes 15 s.rip else (s.exec.latch, none)

/-- The instruction at rIP and its length: a fetch fault only for a byte the instruction has, #GP(0) beyond 15 bytes,
#UD for bytes that are no instruction (60_exceptions.md R905, 30_encoding.md R161). -/
def State.fetch (s : State) : Res (Instr × Nat) :=
  let (bs, e) := s.codeBytes
  match decode s.ctx bs with
  | .ok r => .ok r
  | .error .truncated => .error (e.getD gp0)
  | .error _ => .error ud

/-- Time passes: the TSC advances by `tsc_source` (70_reset_and_hazards.md R970), and the next free values are others
(log 5). -/
def State.tick (s : State) : State :=
  let n := if s.cfg.tsc == .default then 1 else Config.tscIncrement s.freeCount
  { s with msr := { s.msr with tsc := s.msr.tsc + BitVec.ofNat 64 n }, freeCount := s.freeCount + 1 }

/-- next_RIP: outside 64-bit mode bits 63:32 of rIP are zero (10_state.md R44). -/
def State.afterLen (s : State) (len : Nat) : Quad :=
  let r := s.rip + BitVec.ofNat 64 len
  if s.mode64 then r else trunc .w32 r

/-- The state with next_RIP and the bytes of a fetched instruction (00_scope.md R21, 20_memory.md R145). -/
def State.withNext (s : State) (len : Nat) : State :=
  { s with nextRip := s.afterLen len, exec := { s.exec with latch := s.codeBytes.1.take len } }

/-- RESET (70_reset_and_hazards.md R960, R963): memory, parameters and the other inputs are kept, and so is what the devices behind the
ports hold. -/
def State.resetEvent (s : State) : State :=
  { State.reset with
    gpr := .reset s.cfg.signature
    pins := { s.pins with reset := false }
    devices := s.devices
    mem := s.mem
    freeCount := s.freeCount
    cfg := s.cfg }

/-- The processor state of an INIT (70_reset_and_hazards.md R960, column "After INIT"). DESIGN CHOICE (log 21): LWP is disabled by
clearing the whole of its state. -/
def State.initState (s : State) : State :=
  { s with
    gpr := .reset s.cfg.signature
    rip := 0xFFF0
    flags := .reset
    seg := .reset
    cpl := 0
    gdtr := State.reset.gdtr
    idtr := State.reset.idtr
    ldtr := State.reset.ldtr
    tr := State.reset.tr
    ctl := { cr0 := (s.ctl.cr0 &&& 0x60000000) ||| 0x10, cr2 := 0, cr3 := 0, cr4 := 0, cr8 := 0, efer := 0 }
    dbg := .reset
    cet := .reset
    pkru := 0
    svm := { s.svm with gif := true }
    lwp := .reset
    exec := .reset }

/-- INIT as an event (70_reset_and_hazards.md R963). -/
def State.initEvent (s : State) : State := { s.initState with pins := { s.pins with init := false } }

/-- The external events, in order of priority (60_exceptions.md R932). -/
inductive Pending where
  | none
  | reset
  | init
  | smi
  | nmi
  | intr (vector : BitVec 8)
  deriving DecidableEq, Repr

/-- The event taken before the next instruction (60_exceptions.md R932); in shutdown only RESET and INIT (R925). -/
def State.pending (s : State) : Pending :=
  let p := s.pins
  let gif := s.svm.gif
  let live := s.exec.activity != .shutdown
  if p.reset then .reset
  else if p.init && gif then .init
  else if live && p.smi && gif then .smi
  else if live && p.nmi && gif && !s.exec.nmiBlocked && s.exec.shadow != .ss then .nmi
  else
    match p.intr with
    | none => .none
    | some v =>
      if live && gif && s.flags.fi && s.exec.shadow == .none && s.ctl.cr8.extractLsb' 0 4 < v.extractLsb' 4 4 then .intr v
      else .none

/-- An NMI taken (60_exceptions.md R932). -/
def State.takeNmi (s : State) : Host.Outcome State Fault Refusal :=
  { s with pins := { s.pins with nmi := false } }.disarm.take
    { vector := 2, kind := .external, savedRip := s.rip, oldRip := s.rip }

/-- A maskable interrupt taken and acknowledged (60_exceptions.md R931, R932). -/
def State.takeIntr (s : State) (v : BitVec 8) : Host.Outcome State Fault Refusal :=
  { s with pins := { s.pins with intr := none } }.disarm.take
    { vector := v, kind := .external, savedRip := s.rip, oldRip := s.rip }

/-- The bytes put at rIP (for `withFetchWord`): plain physical memory through the code segment, fetched anew. -/
def State.putCode (s : State) (bs : List Byte) : State :=
  let rec go (t : State) (off : Quad) : List Byte → State
    | [] => t
    | b :: rest => go { t with mem := Memory.write t.mem (s.fetchLinear off).toNat b } (off + 1) rest
  go { s with exec := { s.exec with latch := [] } } s.rip bs

end Sys2Proof.Machine
end

