-- ==== Sys2Proof/Machine/SysCtl.lean ====
section
/-! DEFINITION. Processor control: flags, halt, caches and translation buffers, the monitor, and the fast system calls
(50_sys_a_l.md R702 to R714, 51_sys_m_r.md R760, R763, R775, 52_sys_s_w.md R827 to R836, R844). -/

namespace Sys2Proof.Machine

/-! ### Flags of the system -/

/-- The checks of CLAC and STAC: every failure is #UD (50_sys_a_l.md R702). -/
def State.needSmap (t : State) : Res Unit := require (t.feat.smap && !t.virtMode && t.cpl == 0) ud

/-- CLAC (50_sys_a_l.md R702). -/
def execClac (s : State) : Host.Outcome State Fault Refusal :=
  run s fun t => do
    t.needSmap
    .ok (t.setFlags { t.flags with ac := false })

/-- STAC (52_sys_s_w.md R827). -/
def execStac (s : State) : Host.Outcome State Fault Refusal :=
  run s fun t => do
    t.needSmap
    .ok (t.setFlags { t.flags with ac := true })

/-- CLI and STI act on VIF: virtual-8086 mode with VME, or level 3 of protected mode with PVI (50_sys_a_l.md R704). -/
def State.virtIf (t : State) : Bool :=
  (t.virtMode && t.cr4Bit 0) || (t.protMode && t.cr4Bit 1 && t.cpl == 3)

/-- CLI (50_sys_a_l.md R704). -/
def execCli (s : State) : Host.Outcome State Fault Refusal :=
  run s fun t =>
    if t.cpl ≤ t.flags.iopl then .ok (t.setFlags { t.flags with fi := false })
    else if t.virtIf then .ok (t.setFlags { t.flags with vif := false })
    else .error gp0

/-- The interrupt shadow of STI: it opens when IF goes from 0 to 1 and none was open; `s` is the state before the
instruction (52_sys_s_w.md R828, 60_exceptions.md R930). -/
def State.stiShadow (t s : State) : State :=
  if !s.flags.fi && s.exec.shadow == .none then { t with exec := { t.exec with shadow := .sti } } else t

/-- STI (52_sys_s_w.md R828). -/
def execSti (s : State) : Host.Outcome State Fault Refusal :=
  run s fun t =>
    if t.cpl ≤ t.flags.iopl then .ok ((t.setFlags { t.flags with fi := true }).stiShadow s)
    else if t.virtIf then do
      require (!t.flags.vip) gp0
      .ok (t.setFlags { t.flags with vif := true })
    else .error gp0

/-- CLTS (50_sys_a_l.md R705). -/
def execClts (s : State) : Host.Outcome State Fault Refusal :=
  run s fun t => do
    t.needCpl0
    .ok { t with ctl := { t.ctl with cr0 := t.ctl.cr0 &&& ~~~(8 : Quad) } }

/-- HLT (50_sys_a_l.md R707). -/
def execHlt (s : State) : Host.Outcome State Fault Refusal :=
  run s fun t => do
    t.needCpl0
    .ok { t with exec := { t.exec with activity := .halted } }

/-! ### Caches and translation buffers: no state here (93_implementation_defined.md A.2) -/

/-- INVD (50_sys_a_l.md R710, D9). -/
def execInvd (s : State) : Host.Outcome State Fault Refusal :=
  run s fun t => do
    t.needCpl0
    .ok t

/-- WBINVD (52_sys_s_w.md R844). -/
def execWbinvd (s : State) : Host.Outcome State Fault Refusal :=
  run s fun t => do
    t.needCpl0
    .ok t

/-- WBNOINVD, which is WBINVD where it is absent (52_sys_s_w.md R844). -/
def execWbnoinvd (s : State) : Host.Outcome State Fault Refusal :=
  run s fun t => do
    t.needCpl0
    .ok t

/-- INVLPG: the operand is not accessed (50_sys_a_l.md R711). -/
def execInvlpg (_m : Mem) (s : State) : Host.Outcome State Fault Refusal :=
  run s fun t => do
    t.needCpl0
    .ok t

/-- The checks of CLGI and INVLPGA (50_sys_a_l.md R703, R712). -/
def State.needSvm (t : State) : Res Unit := do
  require t.feat.svm ud
  t.needProt
  require (t.eferBit 12) ud
  t.needCpl0

/-- INVLPGA (50_sys_a_l.md R712). -/
def execInvlpga (_seg : SegName) (_asz : ASize) (s : State) : Host.Outcome State Fault Refusal :=
  run s fun t => do
    t.needSvm
    .ok t

/-- The value checks of INVPCID on its type and descriptor (50_sys_a_l.md R714). -/
def State.checkPcid (t : State) (type : Quad) (desc : BitVec 128) : Res Unit := do
  let low : Quad := desc.extractLsb' 0 64
  require (type.toNat ≤ 3) gp0
  require (low >>> 12 == 0) gp0
  require (!(type == 0) || t.canonical (desc.extractLsb' 64 64)) gp0
  require (!(type.toNat ≤ 1) || t.cr4Bit 17 || low.extractLsb' 0 12 == 0) gp0

/-- INVPCID (50_sys_a_l.md R714, D35). -/
def execInvpcid (r : Gpr) (m : Mem) (s : State) : Host.Outcome State Fault Refusal :=
  run s fun t => do
    t.needProt
    require t.feat.invpcid ud
    t.needCpl0
    let ps ← t.access m.seg (t.ea m) 16 false
    t.checkPcid (t.readGpr t.crWidth r) (BitVec.ofNat 128 (t.loadAt ps))
    .ok t

/-! ### The monitor -/

/-- MONITOR and MWAIT exist and are allowed at this level (51_sys_m_r.md R760, 10_state.md R83). -/
def State.needMonitor (t : State) : Res Unit := do
  require t.feat.monitor ud
  require (t.cpl == 0 || t.msr.hwcr.getLsbD 10) ud

/-- MONITOR (51_sys_m_r.md R760, D38). -/
def execMonitor (seg : SegName) (asz : ASize) (s : State) : Host.Outcome State Fault Refusal :=
  run s fun t => do
    t.needMonitor
    require (t.readGpr .w32 .rcx == 0) gp0
    t.armMonitor seg asz

/-- MWAIT: the wait ends at once (51_sys_m_r.md R763, 60_exceptions.md R933). -/
def execMwait (s : State) : Host.Outcome State Fault Refusal :=
  run s fun t => do
    t.needMonitor
    require (t.readGpr .w32 .rcx >>> (if t.feat.mwaitIbe then 1 else 0) == 0) gp0
    .ok t.disarm

/-! ### Fast system calls -/

/-- SWAPGS (52_sys_s_w.md R831). -/
def execSwapgs (s : State) : Host.Outcome State Fault Refusal :=
  run s fun t => do
    require t.mode64 ud
    t.needCpl0
    .ok { t with
      seg := { t.seg with gs := { t.seg.gs with base := t.msr.kernelGsBase } }
      msr := { t.msr with kernelGsBase := t.seg.gs.base } }

/-- The code segment the fast system calls force: flat, execute and read, 64-bit or 32-bit; the attributes that the Action does not
name are zero (52_sys_s_w.md R832, 91_not_in_source.md N39, log 29). -/
def flatCode (sel : BitVec 16) (dpl : BitVec 2) (long : Bool) : SegReg where
  sel := sel
  base := 0
  limit := 0xFFFFFFFF
  attr := { type := 0xA, s := true, dpl, p := true, avl := false, l := long, db := !long, g := false }

/-- The stack segment the fast system calls force: flat, read and write, expand up (52_sys_s_w.md R832, 91_not_in_source.md N39,
log 29). -/
def flatStack (sel : BitVec 16) (dpl : BitVec 2) : SegReg where
  sel := sel
  base := 0
  limit := 0xFFFFFFFF
  attr := { type := 2, s := true, dpl, p := true, avl := false, l := false, db := true, g := false }

/-- CS, SS and CPL of a fast system call or return. -/
def State.setFlat (t : State) (cs ss : SegReg) (cpl : BitVec 2) : State :=
  let u := t.setCs cs cpl
  { u with seg := { u.seg with ss := ss } }

/-- SYSCALL_CS of STAR with its RPL cleared (52_sys_s_w.md R832). -/
def State.syscallCs (t : State) : BitVec 16 := t.msr.star.extractLsb' 32 16

/-- SYSRET_CS of STAR (52_sys_s_w.md R835). -/
def State.sysretCs (t : State) : BitVec 16 := t.msr.star.extractLsb' 48 16

/-- CS and SS of SYSCALL (52_sys_s_w.md R832). -/
def State.syscallSegs (t : State) (long : Bool) : State :=
  t.setFlat (flatCode (t.syscallCs &&& 0xFFFC) 0 long) (flatStack (t.syscallCs + 8) 0) 0

/-- SYSCALL_LONG_MODE (52_sys_s_w.md R832). -/
def State.syscallLong (t : State) : State :=
  let target := if t.mode64 then t.msr.lstar else t.msr.cstar
  let u := ((t.syscallSegs true).setReg .rcx t.rip).setReg .r11 { t.flags with rf := false }.toBits
  let f := { Flags.ofBits (t.flags.toBits &&& ~~~t.msr.sfmask) with rf := false }
  let u := (u.setFlags f).setRip target
  let u := if t.shadowEnabled t.cpl then { u with cet := { u.cet with pl3Ssp := t.cet.ssp } } else u
  if u.shadowEnabled 0 then u.setSsp 0 else u

/-- SYSCALL_LEGACY_MODE (52_sys_s_w.md R832). -/
def State.syscallLegacy (t : State) : State :=
  let u := (t.writeGpr .w32 .rcx t.rip).syscallSegs false
  (u.setFlags { t.flags with vm := false, fi := false, rf := false }).setRip (trunc .w32 t.msr.star)

/-- SYSCALL (52_sys_s_w.md R832). -/
def execSyscall (s : State) : Host.Outcome State Fault Refusal :=
  run s fun t => do
    require (t.feat.sysCallSysRet && t.eferBit 0) ud
    .ok (if t.longMode then t.syscallLong else t.syscallLegacy)

/-- SSP of a fast return to level 3 (52_sys_s_w.md R835). -/
def State.sysretSsp (t : State) : State := if t.shadowEnabled t.cpl then t.setSsp t.cet.pl3Ssp else t

/-- SYSRET_64BIT_MODE: SS keeps its base, limit and attributes (52_sys_s_w.md R835). -/
def State.sysretLong (t : State) (w : Width) : State :=
  let long := w = .w64
  let sel := (if long then t.sysretCs + 16 else t.sysretCs) ||| 3
  let u := t.setFlat (flatCode sel 3 long) { t.seg.ss with sel := t.sysretCs + 8 } 3
  let f := { Flags.ofBits (trunc .w32 t.gpr.r11) with rf := false, vm := false }
  ((u.setFlags f).setRip (if long then t.gpr.rcx else trunc .w32 t.gpr.rcx)).sysretSsp

/-- SYSRET_NON_64BIT_MODE (52_sys_s_w.md R835). -/
def State.sysretLegacy (t : State) : State :=
  let u := t.setFlat (flatCode (t.sysretCs ||| 3) 3 false) { t.seg.ss with sel := t.sysretCs + 8 } 3
  ((u.setFlags { t.flags with fi := true }).setRip (trunc .w32 t.gpr.rcx)).sysretSsp

/-- SYSRET (52_sys_s_w.md R835). -/
def execSysret (w : Width) (s : State) : Host.Outcome State Fault Refusal :=
  run s fun t => do
    require (t.feat.sysCallSysRet && t.eferBit 0) ud
    require (t.protMode && t.cpl == 0) gp0
    .ok (if t.mode64 then t.sysretLong w else t.sysretLegacy)

/-- The CS selector of SYSENTER and SYSEXIT, null when zero (52_sys_s_w.md R833, D46). -/
def State.sysenterSel (t : State) : BitVec 16 := t.msr.sysenterCs.setWidth 16 &&& 0xFFFC

/-- The checks SYSENTER and SYSEXIT share (52_sys_s_w.md R833, R834). -/
def State.needSysenter (t : State) (mode : Bool) : Res Unit := do
  require (t.feat.sysEnterSysExit && !t.longMode) ud
  require mode gp0
  require (t.sysenterSel != 0) gp0

/-- SYSENTER (52_sys_s_w.md R833, D45, D46). -/
def execSysenter (s : State) : Host.Outcome State Fault Refusal :=
  run s fun t => do
    t.needSysenter t.pe
    let u := t.setFlat (flatCode t.sysenterSel 0 false) (flatStack (t.sysenterSel + 8) 0) 0
    let u := u.setFlags { t.flags with vm := false, rf := false, fi := false }
    .ok ((u.writeGpr .w32 .rsp t.msr.sysenterEsp).setRip (trunc .w32 t.msr.sysenterEip))

/-- SYSEXIT (52_sys_s_w.md R834, D45, D46). -/
def execSysexit (s : State) : Host.Outcome State Fault Refusal :=
  run s fun t => do
    t.needSysenter (t.protMode && t.cpl == 0)
    let u := t.setFlat (flatCode ((t.sysenterSel + 16) ||| 3) 3 false) (flatStack ((t.sysenterSel + 24) ||| 3) 3) 3
    .ok ((u.writeGpr .w32 .rsp t.gpr.rcx).setRip (trunc .w32 t.gpr.rdx))

/-- RSM: the model has no system-management mode, so the processor is never in it (51_sys_m_r.md R775, D43). -/
def execRsm (s : State) : Host.Outcome State Fault Refusal := run s fun _ => .error ud

end Sys2Proof.Machine
end

