-- ==== Sys2Proof/Machine/Svm.lean ====
section
/-! DEFINITION. The secure virtual machine (50_sys_a_l.md R703, R713, 52_sys_s_w.md R824, R829, R836, R839 to R843). The
layouts that belong to Volume 2 are parameters of Config (D47, log 17). -/

namespace Sys2Proof.Machine

open Config (VmcbField VmSeg SegPart ExitName)

/-! ### Records in physical memory -/

/-- The number of bytes of a field of the VMCB or the host save area: the width of what it holds (log 17). -/
def vmcbBytes : VmcbField → Nat
  | .seg _ .sel => 2
  | .seg _ .attr => 2
  | .seg _ .limit => 4
  | .seg _ .base => 8
  | .gdtrLimit => 2
  | .idtrLimit => 2
  | .asid => 4
  | .cpl => 1
  | .shadow => 1
  | _ => 8

/-- A record in physical memory: its address, and whether it is the host state-save area or a VMCB. -/
structure Area where
  pa : Nat
  host : Bool
  deriving DecidableEq, Repr

/-- Where a field of a record lies (52_sys_s_w.md R839, R841). -/
def Area.offset (a : Area) (f : VmcbField) : Nat := if a.host then Config.hostSaveOffset f else Config.vmcbOffset f

/-- The VMCB at a physical address (52_sys_s_w.md R839). -/
def vmcbAt (pa : Quad) : Area := { pa := pa.toNat, host := false }

/-- The host state-save area (52_sys_s_w.md R841). -/
def State.hostArea (t : State) : Area := { pa := t.svm.vmHsavePa.toNat, host := true }

/-- A field of a record read. -/
def State.getField (t : State) (a : Area) (f : VmcbField) : Res Quad := do
  let v ← t.readPa (a.pa + a.offset f) (vmcbBytes f)
  .ok (BitVec.ofNat 64 v)

/-- Fields of a record written in order. -/
def State.putFields (t : State) (a : Area) : List (VmcbField × Quad) → Res State
  | [] => .ok t
  | (f, v) :: rest => do
    let u ← t.writePa (a.pa + a.offset f) (vmcbBytes f) v.toNat
    State.putFields u a rest

/-- The twelve attribute bits of a segment register as a word. -/
def SegAttr.pack (a : SegAttr) : BitVec 12 :=
  a.type ++ bit (n := 1) a.s ++ a.dpl ++ bit (n := 1) a.p ++ bit (n := 1) a.avl ++ bit (n := 1) a.l ++
    bit (n := 1) a.db ++ bit (n := 1) a.g

/-- The attributes in a word of twelve bits. -/
def SegAttr.unpack (w : BitVec 12) : SegAttr where
  type := w.extractLsb' 8 4
  s := w.getLsbD 7
  dpl := w.extractLsb' 5 2
  p := w.getLsbD 4
  avl := w.getLsbD 3
  l := w.getLsbD 2
  db := w.getLsbD 1
  g := w.getLsbD 0

/-- A segment register with its hidden part from a record. -/
def State.getSeg (t : State) (a : Area) (r : VmSeg) : Res SegReg := do
  let sel ← t.getField a (.seg r .sel)
  let attr ← t.getField a (.seg r .attr)
  let limit ← t.getField a (.seg r .limit)
  let base ← t.getField a (.seg r .base)
  .ok { sel := sel.setWidth 16, base, limit := limit.setWidth 32,
        attr := .unpack (Config.vmcbAttrRead (attr.setWidth 16)) }

/-- The fields of a segment register with its hidden part. -/
def segFields (r : VmSeg) (g : SegReg) : List (VmcbField × Quad) :=
  [(.seg r .sel, g.sel.setWidth 64), (.seg r .attr, (Config.vmcbAttrWrite g.attr.pack).setWidth 64),
   (.seg r .limit, g.limit.setWidth 64), (.seg r .base, g.base)]

/-! ### VMLOAD and VMSAVE -/

/-- The VMCB address in rAX, checked: below the maximum physical address and 4-Kbyte aligned (52_sys_s_w.md R839). -/
def State.vmcbAddr (t : State) (asz : ASize) : Res Quad := do
  require (t.feat.svm && t.eferBit 12 && t.protMode) ud
  t.needCpl0
  let pa := t.readGpr (addrWidth asz) .rax
  require (pa >>> t.cfg.physAddrBits == 0 && pa.extractLsb' 0 12 == 0) gp0
  .ok pa

/-- VMLOAD (52_sys_s_w.md R839). -/
def execVmload (asz : ASize) (s : State) : Host.Outcome State Fault Refusal :=
  run s fun t => do
    let pa ← t.vmcbAddr asz
    let a := vmcbAt pa
    let fs ← t.getSeg a .fs
    let gs ← t.getSeg a .gs
    let tr ← t.getSeg a .tr
    let ldtr ← t.getSeg a .ldtr
    let kernelGsBase ← t.getField a .kernelGsBase
    let star ← t.getField a .star
    let lstar ← t.getField a .lstar
    let cstar ← t.getField a .cstar
    let sfmask ← t.getField a .sfmask
    let sysenterCs ← t.getField a .sysenterCs
    let sysenterEsp ← t.getField a .sysenterEsp
    let sysenterEip ← t.getField a .sysenterEip
    .ok { t with
      seg := { t.seg with fs, gs }
      tr, ldtr
      msr := { t.msr with kernelGsBase, star, lstar, cstar, sfmask, sysenterCs, sysenterEsp, sysenterEip } }

/-- VMSAVE (52_sys_s_w.md R843). -/
def execVmsave (asz : ASize) (s : State) : Host.Outcome State Fault Refusal :=
  run s fun t => do
    let pa ← t.vmcbAddr asz
    t.putFields (vmcbAt pa) (segFields .fs t.seg.fs ++ segFields .gs t.seg.gs ++ segFields .tr t.tr ++
      segFields .ldtr t.ldtr ++
      [(.kernelGsBase, t.msr.kernelGsBase), (.star, t.msr.star), (.lstar, t.msr.lstar), (.cstar, t.msr.cstar),
       (.sfmask, t.msr.sfmask), (.sysenterCs, t.msr.sysenterCs), (.sysenterEsp, t.msr.sysenterEsp),
       (.sysenterEip, t.msr.sysenterEip)])

/-! ### #VMEXIT -/

/-- What the consistency checks look at (52_sys_s_w.md R841). -/
def State.guestCheck (t : State) : Config.GuestCheck where
  cr0 := t.ctl.cr0
  cr3 := t.ctl.cr3
  cr4 := t.ctl.cr4
  efer := t.ctl.efer
  dr6 := t.dbg.dr6
  dr7 := t.dbg.dr7
  asid := t.svm.asid
  intercepts := t.svm.intercepts
  csAttr := t.seg.cs.attr.pack

/-- The general fields that a guest and a host keep in a record (52_sys_s_w.md R841, R842). -/
def State.coreFields (t : State) : List (VmcbField × Quad) :=
  [(.gdtrBase, t.gdtr.base), (.gdtrLimit, t.gdtr.limit.setWidth 64), (.idtrBase, t.idtr.base),
   (.idtrLimit, t.idtr.limit.setWidth 64), (.efer, t.ctl.efer), (.cr0, t.ctl.cr0), (.cr4, t.ctl.cr4),
   (.cr3, t.ctl.cr3), (.rflags, t.flags.toBits), (.rip, t.rip), (.rsp, t.gpr.rsp), (.rax, t.gpr.rax)]

/-- The last-branch registers as fields (52_sys_s_w.md R841). -/
def State.lbrFields (t : State) : List (VmcbField × Quad) :=
  [(.dbgCtl, t.svm.dbgCtl), (.brFrom, t.svm.brFrom), (.brTo, t.svm.brTo), (.lastExcpFrom, t.svm.lastExcpFrom),
   (.lastExcpTo, t.svm.lastExcpTo)]

/-- The last-branch registers loaded from a record (52_sys_s_w.md R841). -/
def State.loadLbr (t : State) (a : Area) : Res State := do
  let dbgCtl ← t.getField a .dbgCtl
  let brFrom ← t.getField a .brFrom
  let brTo ← t.getField a .brTo
  let lastExcpFrom ← t.getField a .lastExcpFrom
  let lastExcpTo ← t.getField a .lastExcpTo
  .ok { t with svm := { t.svm with dbgCtl, brFrom, brTo, lastExcpFrom, lastExcpTo } }

/-- The exchange of last-branch registers, stored in one record and loaded from another (52_sys_s_w.md R841, R842). -/
def State.swapLbr (t : State) (vmcb store load : Area) : Res State := do
  if t.feat.lbrVirt then do
    let on ← t.getField vmcb .lbrEnable
    if on.getLsbD 0 then do
      let u ← t.putFields store t.lbrFields
      u.loadLbr load
    else .ok t
  else .ok t

/-- The registers of `coreFields` loaded from a record (52_sys_s_w.md R841, R842). -/
def State.loadCore (t : State) (a : Area) : Res State := do
  let gdtrBase ← t.getField a .gdtrBase
  let gdtrLimit ← t.getField a .gdtrLimit
  let idtrBase ← t.getField a .idtrBase
  let idtrLimit ← t.getField a .idtrLimit
  let efer ← t.getField a .efer
  let cr0 ← t.getField a .cr0
  let cr4 ← t.getField a .cr4
  let cr3 ← t.getField a .cr3
  let rflags ← t.getField a .rflags
  let rip ← t.getField a .rip
  let rsp ← t.getField a .rsp
  let rax ← t.getField a .rax
  .ok { t with
    gdtr := { base := gdtrBase, limit := gdtrLimit.setWidth 16 }
    idtr := { base := idtrBase, limit := idtrLimit.setWidth 16 }
    ctl := { t.ctl with efer, cr0 := cr0 ||| 0x10, cr4, cr3 }
    flags := .ofBits rflags
    rip
    gpr := { t.gpr with rsp, rax } }

/-- What EXITINFO1 (slot 20), EXITINFO2 (21) and EXITINTINFO (22) hold after an exit: Volume 2 values, free here
(52_sys_s_w.md R842, log 17). -/
def State.exitInfo (t : State) (slot : Nat) : Quad := Config.freeBits t.freeCount slot 64

/-- The guest state stored in its VMCB (52_sys_s_w.md R842). -/
def State.saveGuest (t : State) (e : ExitName) : Res State :=
  t.putFields (vmcbAt t.svm.vmcb) (segFields .es t.seg.es ++ segFields .cs t.seg.cs ++ segFields .ss t.seg.ss ++
    segFields .ds t.seg.ds ++ t.coreFields ++
    [(.cr2, t.ctl.cr2), (.dr7, t.dbg.dr7), (.dr6, t.dbg.dr6), (.cpl, t.cpl.setWidth 64),
     (.shadow, bit (t.exec.shadow != .none)), (.intrControl, t.svm.vIntr), (.exitCode, Config.exitCode e),
     (.exitInfo1, t.exitInfo 20), (.exitInfo2, t.exitInfo 21), (.exitIntInfo, t.exitInfo 22), (.eventInj, 0)] ++
    (if t.svm.npEnable then [(.gPat, t.svm.gPat)] else []))

/-- The internal bits a #VMEXIT clears (52_sys_s_w.md R842). -/
def Svm.leaveGuest (v : Svm) : Svm :=
  { v with gif := false, guest := false, intercepts := 0, vIntr := 0, tscOffset := 0, npEnable := false, asid := 0,
           sevEs := false, snpActive := false, vmpl := 0 }

/-- A world switch from `t` to the state `u` loaded from a record: a change to 64-bit mode leaves the upper halves of the registers
that the record does not hold undefined (52_sys_s_w.md R841, R842, 93_implementation_defined.md U6), and outside that mode
rIP[63:32] are zero (10_state.md R44). DEDUCED (log 17): it is a far control transfer, which ends the monitor (51_sys_m_r.md
R763). -/
def State.switchWorld (t u : State) : State :=
  let v := t.enterMode u
  ({ v with gpr := { v.gpr with rsp := u.gpr.rsp, rax := u.gpr.rax } } : State).clipRip.disarm

/-- EFER asks for long mode on a processor without it (40_gp_a_b.md R301). DEDUCED (log 17): such a guest is invalid, and such a
host state illegal. -/
def State.needsLongMode (t : State) : Bool := !t.feat.lm && (t.eferBit 8 || t.eferBit 10)

/-- A host segment reloaded from the GDT, whatever TI says (52_sys_s_w.md R842). DESIGN CHOICE (log 17): for a null selector no
descriptor is read and the hidden part stays the guest's, whatever NullSelectClearsBase says. -/
def State.hostSeg (t : State) (old : SegReg) (r : VmSeg) : Res SegReg := do
  let v ← t.getField t.hostArea (.seg r .sel)
  let sel : BitVec 16 := v.setWidth 16
  if isNull sel then .ok { old with sel }
  else do
    let d ← t.tableRead (gpSel sel) t.gdtr.base (t.gdtr.limit.setWidth 32) (sel &&& 0xFFF8).toNat 8
    .ok (descSeg sel d)

/-- The mode in which the host's descriptors are read: 64-bit addresses when the host runs in long mode (52_sys_s_w.md R842,
log 17). -/
def State.hostMode (t : State) : State :=
  { t with seg := { t.seg with cs := { t.seg.cs with attr := { t.seg.cs.attr with l := t.longMode, db := false } } } }

/-- What a #VMEXIT leaves of the execution-state flags: the host runs without an interrupt shadow, and a blocked NMI stays blocked,
because only a completing IRET and reset end that (52_sys_s_w.md R842, 10_state.md R79). -/
def ExecState.toHost (e : ExecState) : ExecState := { e with activity := .running, shadow := .none, latch := [] }

/-- The host state reloaded (52_sys_s_w.md R842): CR0.PE is set, every breakpoint of DR7 is disabled, CPL is 0. -/
def State.loadHost (t : State) : Res State := do
  let u ← t.loadCore t.hostArea
  let u : State := { u with
    ctl := { u.ctl with cr0 := u.ctl.cr0 ||| 1 }, dbg := { u.dbg with dr7 := Debug.reset.dr7 }, cpl := 0 }
  let es ← u.hostMode.hostSeg t.seg.es .es
  let cs ← u.hostMode.hostSeg t.seg.cs .cs
  let ss ← u.hostMode.hostSeg t.seg.ss .ss
  let ds ← u.hostMode.hostSeg t.seg.ds .ds
  .ok (t.switchWorld { u with seg := { u.seg with es, cs, ss, ds }, exec := u.exec.toHost })

/-- The host state is illegal (52_sys_s_w.md R842). -/
def State.badHost (t : State) : Bool := Config.hostInvalid t.guestCheck || t.badPdpt || t.needsLongMode

/-- The host state and the last-branch registers reloaded by a #VMEXIT, the guest being saved (52_sys_s_w.md R842). -/
def State.returnToHost (t : State) : Res State := do
  let v ← t.loadHost
  let w ← v.swapLbr (vmcbAt t.svm.vmcb) (vmcbAt t.svm.vmcb) v.hostArea
  .ok (if w.badHost then w.shutdown else w)

/-- The first host instruction after a #VMEXIT, or the single-step trap before it: the VMRUN that the #VMEXIT ends began with the TF
that the host area gives back (60_exceptions.md R926, 52_sys_s_w.md R842). DESIGN CHOICE (log 14): that trap follows the
#VMEXIT and not the entry to the guest. -/
def State.resumeHost (w : State) : Host.Outcome State Fault Refusal :=
  if w.flags.tf && w.exec.activity == .running then w.singleStep else .next w

/-- #VMEXIT: the guest is saved and the host state reloaded; illegal host state, or an exception while it is loaded, ends
in shutdown with the guest saved (52_sys_s_w.md R842). -/
def State.vmexit (t : State) (e : ExitName) : Host.Outcome State Fault Refusal :=
  match ({ t with svm := { t.svm with gif := false } } : State).saveGuest e with
  | .ok u =>
    let u : State := { u with svm := u.svm.leaveGuest }
    match u.returnToHost with
    | .ok w => w.resumeHost
    | .error (.exc _) => .next u.shutdown
    | .error (.fault f) => .fault f
    | .error (.refuse r) => .refused r
  | .error (.exc _) => .next ({ t with svm := t.svm.leaveGuest } : State).shutdown
  | .error (.fault f) => .fault f
  | .error (.refuse r) => .refused r

/-- What an instruction of this family ends in: it completes, it exits to the host, or it enters a guest. -/
inductive VmEnd where
  | done (t : State)
  | exit (t : State) (e : ExitName)
  | enter (t : State)

/-- The event injected into a guest (52_sys_s_w.md R841). DESIGN CHOICE (log 17): it saves the rIP loaded from the VMCB, whatever its
kind, a software interrupt too. -/
def State.injectEvent (t : State) (i : Config.Injection) : Event where
  vector := i.vector
  kind := if i.external then .external else if i.software then .software else .exception
  code := i.code
  savedRip := t.rip
  oldRip := t.rip
  rf := !i.external && !i.software

/-- The first step of a guest: the event that EVENTINJ holds, if any (52_sys_s_w.md R841). -/
def State.enterGuest (t : State) : Host.Outcome State Fault Refusal :=
  match t.getField (vmcbAt t.svm.vmcb) .eventInj with
  | .ok w =>
    match Config.eventInjection w with
    | some i => t.take (t.injectEvent i)
    | none => .next t
  | .error (.exc x) => t.raise x
  | .error (.fault f) => .fault f
  | .error (.refuse r) => .refused r

/-- An instruction that may exit to the host or enter a guest. DESIGN CHOICE (log 14): the single-step trap of a VMRUN begun with
TF = 1 follows its #VMEXIT (`State.resumeHost`); an intercepted instruction does not complete and has none. -/
def runVm (s : State) (body : State → Res VmEnd) : Host.Outcome State Fault Refusal :=
  match body s.start with
  | .ok (.done t) => s.complete t
  | .ok (.exit t e) => t.vmexit e
  | .ok (.enter t) => t.enterGuest
  | .error (.exc x) => s.raise x
  | .error (.fault f) => .fault f
  | .error (.refuse r) => .refused r

/-! ### VMRUN -/

/-- An intercept is set and the processor runs a guest (52_sys_s_w.md R840). -/
def State.intercepts (t : State) (i : Config.Intercept) : Bool :=
  t.svm.guest && Config.intercepted t.svm.intercepts i

/-- The host state saved by VMRUN; RIP is that of the next instruction (52_sys_s_w.md R841). -/
def State.saveHost (t : State) : Res State :=
  t.putFields t.hostArea ([(.seg .es .sel, t.seg.es.sel.setWidth 64), (.seg .cs .sel, t.seg.cs.sel.setWidth 64),
    (.seg .ss .sel, t.seg.ss.sel.setWidth 64), (.seg .ds .sel, t.seg.ds.sel.setWidth 64)] ++ t.coreFields)

/-- The control information of a VMCB (52_sys_s_w.md R841). -/
def State.loadControl (t : State) (pa : Quad) : Res State := do
  let a := vmcbAt pa
  let i0 ← t.getField a (.intercepts 0)
  let i1 ← t.getField a (.intercepts 1)
  let i2 ← t.getField a (.intercepts 2)
  let i3 ← t.getField a (.intercepts 3)
  let tscOffset ← t.getField a .tscOffset
  let vIntr ← t.getField a .intrControl
  let asid ← t.getField a .asid
  let np ← t.getField a .npEnable
  let nCr3 ← t.getField a .nCr3
  let sev ← t.getField a .sevControl
  let npEnable := t.feat.nestedPaging && np.getLsbD 0
  .ok { t with svm := { t.svm with
    vmcb := pa, guest := true, intercepts := i3 ++ i2 ++ i1 ++ i0, tscOffset, vIntr, asid := asid.setWidth 32,
    npEnable, nCr3 := if npEnable then nCr3 else t.svm.nCr3, sevEs := t.feat.sevEs && Config.sevEs sev,
    snpActive := t.feat.snp && Config.snpActive sev, vmpl := Config.vmpl sev } }

/-- CPL of a guest: 0 in real mode, 3 in virtual-8086 mode, else as loaded (52_sys_s_w.md R841). -/
def State.guestCpl (t : State) (loaded : Quad) : BitVec 2 :=
  if t.realMode then 0 else if t.flags.vm then 3 else loaded.setWidth 2

/-- The guest state of a VMCB (52_sys_s_w.md R841). -/
def State.loadGuest (t : State) (pa : Quad) : Res State := do
  let a := vmcbAt pa
  let es ← t.getSeg a .es
  let cs ← t.getSeg a .cs
  let ss ← t.getSeg a .ss
  let ds ← t.getSeg a .ds
  let cr2 ← t.getField a .cr2
  let gPat ← t.getField a .gPat
  let dr7 ← t.getField a .dr7
  let dr6 ← t.getField a .dr6
  let cpl ← t.getField a .cpl
  let shadow ← t.getField a .shadow
  let u ← t.loadCore a
  let u : State := { u with
    seg := { u.seg with es, cs, ss, ds }
    ctl := { u.ctl with cr2 }
    dbg := { u.dbg with dr6, dr7 }
    exec := { u.exec with shadow := if shadow.getLsbD 0 then .sti else .none }
    svm := { u.svm with gPat := if u.svm.npEnable then gPat else u.svm.gPat } }
  .ok (t.switchWorld { u with cpl := u.guestCpl cpl })

/-- VMRUN after its checks; `s` is the state before it (52_sys_s_w.md R841). -/
def State.vmrun (t : State) (pa : Quad) : Res VmEnd := do
  let hosted ← ({ t with svm := { t.svm with vmcb := pa } } : State).saveHost
  let u ← hosted.loadControl pa
  let u ← u.loadGuest pa
  let u ← u.swapLbr (vmcbAt pa) t.hostArea (vmcbAt pa)
  if Config.guestInvalid u.guestCheck || u.needsLongMode then .ok (.exit u .invalid)
  else .ok (.enter { u with svm := { u.svm with gif := true } })

/-- VMRUN (52_sys_s_w.md R841). -/
def execVmrun (asz : ASize) (s : State) : Host.Outcome State Fault Refusal :=
  runVm s fun t => do
    let pa ← t.vmcbAddr asz
    if t.intercepts .vmrun then .ok (.exit s .vmrun) else t.vmrun pa

/-! ### The other instructions of the family -/

/-- CLGI (50_sys_a_l.md R703). -/
def execClgi (s : State) : Host.Outcome State Fault Refusal :=
  run s fun t => do
    t.needSvm
    .ok { t with svm := { t.svm with gif := false } }

/-- STGI and SKINIT exist: SVM is enabled, or the SVM lock or SKINIT is present (52_sys_s_w.md R824, R829, C23). -/
def State.needLoader (t : State) : Res Unit := do
  t.needProt
  require (t.eferBit 12 || t.feat.svmLock || t.feat.skinit) ud
  t.needCpl0

/-- STGI (52_sys_s_w.md R829). -/
def execStgi (s : State) : Host.Outcome State Fault Refusal :=
  run s fun t => do
    t.needLoader
    .ok { t with svm := { t.svm with gif := true } }

/-- The state of the secure loader, before its entry point is read: the copy of the image to the TPM is outside the
processor (52_sys_s_w.md R824). DEDUCED (log 29): the bits of CS and SS that the Action does not name (accessed, AVL, G) are 0,
which makes their types 0Ah and 2. -/
def State.loaderState (t : State) (slb : Quad) : State :=
  let u := t.initState
  { u with
    gpr := { u.gpr with rax := slb, rsp := trunc .w32 (slb + 0x10000) }
    seg := { u.seg with cs := flatCode 8 0 false, ss := flatStack 0x10 0 }
    ctl := { u.ctl with cr0 := u.ctl.cr0 ||| 1 }
    svm := { u.svm with gif := false, vmCr := u.svm.vmCr ||| Config.vmCrSkinit, slDev := true,
                        slDevBase := slb.setWidth 32 } }

/-- SKINIT (52_sys_s_w.md R824). -/
def execSkinit (s : State) : Host.Outcome State Fault Refusal :=
  run s fun t => do
    t.needLoader
    let slb := t.gpr.rax &&& 0xFFFF0000
    let _ ← t.readPa (slb.toNat + 2) 2
    let entry ← t.readPa slb.toNat 2
    .ok ((t.loaderState slb).setRip (trunc .w32 (slb + BitVec.ofNat 64 entry)))

/-- VMMCALL: without an intercept it raises #UD (52_sys_s_w.md R840). `s` is the state before it. -/
def State.vmmcall (t s : State) : Res VmEnd :=
  if t.intercepts .vmmcall then .ok (.exit s .vmmcall) else .error ud

/-- VMMCALL (52_sys_s_w.md R840). -/
def execVmmcall (s : State) : Host.Outcome State Fault Refusal :=
  runVm s fun t => do
    require (t.feat.svm && t.eferBit 12) ud
    t.vmmcall s

/-- VMGEXIT: VMMCALL but in a SEV-ES guest (52_sys_s_w.md R840). -/
def execVmgexit (s : State) : Host.Outcome State Fault Refusal :=
  runVm s fun t => do
    require (t.feat.svm && t.eferBit 12) ud
    if t.feat.sevEs && t.svm.guest && t.svm.sevEs then .ok (.exit s .vmgexit) else t.vmmcall s

/-- INVLPGB and TLBSYNC may be used: in a guest the VMCB must allow it (50_sys_a_l.md R713, 52_sys_s_w.md R836). -/
def State.needBroadcast (t : State) : Res Unit := do
  t.needProt
  require t.feat.invlpgb ud
  require (!t.svm.guest || (t.feat.tlbiCtl && Config.guestTlbControl t.svm.intercepts)) ud
  t.needCpl0

/-- The register values of INVLPGB are legal (50_sys_a_l.md R713). -/
def State.broadcastLegal (t : State) : Bool :=
  let a := t.gpr.rax
  let d := t.gpr.rdx
  let asid := (d.extractLsb' 0 16).toNat
  a.extractLsb' 6 6 == 0 && (!a.getLsbD 5 || t.feat.invlpgbNested) && d.extractLsb' 28 4 == 0 &&
    (t.cr4Bit 17 || d.extractLsb' 16 12 == 0) && (t.eferBit 12 || asid == 0) &&
    asid ≤ (t.cpuidTable 0x8000000A 0).ebx.toNat && (t.gpr.rcx.extractLsb' 0 16).toNat ≤ t.cfg.invlpgbCountMax &&
    !(t.pg && t.cr4Bit 4 && !t.cr4Bit 5)

/-- INVLPGB: no translation buffer holds state here (50_sys_a_l.md R713). DESIGN CHOICE (log 17): the intercept is tested after the
#UD and CPL tests, whose order to it R713 does not give. -/
def execInvlpgb (_seg : SegName) (_asz : ASize) (s : State) : Host.Outcome State Fault Refusal :=
  runVm s fun t => do
    t.needBroadcast
    if t.intercepts .invlpgb || (!t.broadcastLegal && t.intercepts .invlpgbIllegal) then
      .ok (.exit s .invlpgb)
    else do
      require t.broadcastLegal gp0
      .ok (.done t)

/-- TLBSYNC (52_sys_s_w.md R836). -/
def execTlbsync (s : State) : Host.Outcome State Fault Refusal :=
  run s fun t => do
    t.needBroadcast
    .ok t

end Sys2Proof.Machine
end

