-- ==== Sys2Proof/Machine/Snp.lean ====
section
/-! DEFINITION. The SEV-SNP instructions over the reverse map table (51_sys_m_r.md R764, R765, R766, R773, R774). The fields
inside an entry and the guest page walk are parameters of Config (log 18). -/

namespace Sys2Proof.Machine

open Config (RmpEntry)

/-- The codes the instructions leave in EAX (51_sys_m_r.md R764); FAIL_INUSE needs a second processor. -/
inductive RmpCode where
  | success | failInput | failPermission | failBadAddr | failOverlap | failSizeMismatch
  deriving DecidableEq, Repr

/-- The number of a code: FAIL_BADADDR and FAIL_OVERLAP share 4 (51_sys_m_r.md R764). -/
def RmpCode.num : RmpCode → Quad
  | .success => 0
  | .failInput => 1
  | .failPermission => 2
  | .failBadAddr => 4
  | .failOverlap => 4
  | .failSizeMismatch => 6

/-- The code in EAX and the flags it sets; CF is left alone (51_sys_m_r.md R764, D40). -/
def State.rmpReturn (t : State) (c : RmpCode) : State :=
  let f := t.flags
  (t.writeGpr .w32 .rax c.num).setFlags
    { f with zf := c.num == 0, sf := false, pf := parity c.num, of := false, af := false }

/-- RMP_ENTRY_PA of a system physical address (51_sys_m_r.md R764). -/
def State.rmpAddr (t : State) (pa : Nat) : Nat := t.cfg.rmpBase.toNat + 0x4000 + pa / 0x1000 * 16

/-- The entry exists (51_sys_m_r.md R764). -/
def State.rmpExists (t : State) (entry : Nat) : Bool := entry ≤ t.cfg.rmpEnd.toNat

/-- The RMP entry at a physical address. -/
def State.rmpGet (t : State) (entry : Nat) : Res RmpEntry := do
  let v ← t.readPa entry 16
  .ok (Config.rmpRead (BitVec.ofNat 128 v))

/-- The RMP entry at a physical address written. -/
def State.rmpPut (t : State) (entry : Nat) (e : RmpEntry) : Res State :=
  t.writePa entry 16 (Config.rmpWrite e).toNat

/-- The permission mask of a VMPL: one byte for each (51_sys_m_r.md R764). -/
def rmpPerm (e : RmpEntry) (level : Nat) : Byte := e.perms.extractLsb' (8 * level) 8

/-- The permission mask of a VMPL replaced. -/
def rmpSetPerm (perms : BitVec 128) (level : Nat) (m : Byte) : BitVec 128 :=
  (perms &&& ~~~((0xFF : BitVec 128) <<< (8 * level))) ||| (m.setWidth 128 <<< (8 * level))

/-- The instruction exists. -/
def State.needSnp (t : State) : Res Unit := require t.feat.snp ud

/-- The checks of the two instructions for a hypervisor (51_sys_m_r.md R765, R774). -/
def State.needSnpHost (t : State) : Res Unit := do
  t.needSnp
  require t.mode64 ud
  require t.cfg.snpEn ud
  t.needCpl0

/-! ### PSMASH -/

/-- The entries 1 to 511 of a smashed page: `n` are left to write, the next at `entry` with `e` (51_sys_m_r.md R765). -/
def State.smashRest (t : State) : Nat → Nat → RmpEntry → Res State
  | 0, _, _ => .ok t
  | n + 1, entry, e => do
    let u ← t.rmpPut entry e
    State.smashRest u n (entry + 16) { e with guestPa := e.guestPa + 0x1000 }

/-- PSMASH: the address is all of RAX (51_sys_m_r.md R765). -/
def execPsmash (_asz : ASize) (s : State) : Host.Outcome State Fault Refusal :=
  run s fun t => do
    t.needSnpHost
    let entry := t.rmpAddr (t.gpr.rax &&& ~~~(0x1FFFFF : Quad)).toNat
    if t.svm.asid != 0 then .ok (t.rmpReturn .failPermission)
    else if !t.rmpExists entry then .ok (t.rmpReturn .failInput)
    else do
      let e ← t.rmpGet entry
      if e.immutable || !e.assigned || !e.large then .ok (t.rmpReturn .failBadAddr)
      else do
        let u ← t.smashRest 512 entry { e with large := false }
        .ok (u.rmpReturn .success)

/-! ### PVALIDATE and RMPADJUST -/

/-- What the walk to an RMP entry of a guest page gives: an entry with its address and the page size of the nested table,
or a nested page fault (51_sys_m_r.md R766, R773). -/
inductive GuestEntry where
  | found (entry : Nat) (e : RmpEntry)
  | npf
  deriving DecidableEq, Repr

/-- The entry belongs to the page as the guest sees it (51_sys_m_r.md R766, R773). -/
def State.rmpMatches (t : State) (e : RmpEntry) (guest : Nat) (nested large : Bool) : Bool :=
  !e.immutable && e.assigned && e.guestPa.toNat == guest && e.asid == t.svm.asid && e.large == nested &&
    !(e.large && !large)

/-- TRANSLATE(GUEST_VA): without paging the linear address is the guest physical address, and no #PF can happen (51_sys_m_r.md R764,
20_memory.md R106). -/
def State.guestWalk (t : State) (va : Quad) : Config.GuestWalk :=
  let acc := t.dataAccess .read 1
  if t.pg then Config.guestTranslate t.mem t.pagingRegs acc va
  else match Config.nestedTranslate t.mem t.pagingRegs acc va.toNat with
    | some (system, large) => .page system va.toNat large
    | none => .nested

/-- TRANSLATE(GUEST_VA) and the entry of the page, with the segmentation and paging checks of a 1-byte read (51_sys_m_r.md R766, R773). DESIGN
CHOICE (log 18): the segment of the checks is DS, whatever override stands before the instruction, and outside 64-bit mode its base
is added before TRANSLATE. -/
def State.guestEntry (t : State) (off : Quad) (large : Bool) : Res GuestEntry := do
  t.segCheck gp0 .ds off 1 false
  let va := t.linear .ds off
  match t.guestWalk va with
  | .fault code => .error (.exc { name := .pf, code := some code, cr2 := some va })
  | .nested => .ok .npf
  | .page system guest nested =>
    if !t.rmpExists (t.rmpAddr system) then .ok .npf
    else do
      let e ← t.rmpGet (t.rmpAddr system)
      .ok (if t.rmpMatches e guest nested large then .found (t.rmpAddr system) e else .npf)

/-- The guest virtual address in rAX and the page size in ECX[0] (51_sys_m_r.md R766, R773). -/
def State.guestVa (t : State) (asz : ASize) : Quad := t.readGpr (addrWidth asz) .rax &&& ~~~(0xFFF : Quad)

/-- A 2-Mbyte page at an address that is not 2-Mbyte aligned (51_sys_m_r.md R766, R773). -/
def misaligned2M (large : Bool) (va : Quad) : Bool := large && va.extractLsb' 12 9 != 0

/-- CF replaced. -/
def State.setCf (t : State) (b : Bool) : State := t.setFlags { t.flags with cf := b }

/-- PVALIDATE once the entry is found (51_sys_m_r.md R766). -/
def State.validate (t : State) (entry : Nat) (e : RmpEntry) (large : Bool) : Res State :=
  if !e.large && large then .ok (t.rmpReturn .failSizeMismatch)
  else do
    let v := t.gpr.rdx.getLsbD 0
    let u ← t.rmpPut entry { e with validated := v }
    .ok ((u.rmpReturn .success).setCf (e.validated == v))

/-- PVALIDATE (51_sys_m_r.md R766). -/
def execPvalidate (asz : ASize) (s : State) : Host.Outcome State Fault Refusal :=
  runVm s fun t => do
    t.needSnp
    t.needCpl0
    let va := t.guestVa asz
    let large := t.gpr.rcx.getLsbD 0
    if !t.svm.snpActive then .ok (.done ((t.rmpReturn .success).setCf true))
    else do
      require (t.svm.vmpl == 0) gp0
      if misaligned2M large va then .ok (.done (t.rmpReturn .failInput))
      else
        match ← t.guestEntry va large with
        | .npf => .ok (.exit s .npf)
        | .found entry e => do
          let u ← t.validate entry e large
          .ok (.done u)

/-- RMPADJUST once the entry is found (51_sys_m_r.md R773). -/
def State.rmpAdjust (t : State) (entry : Nat) (e : RmpEntry) (large : Bool) (target : Nat) (mask : Byte) : Res State := do
  require e.validated (.exc { name := .vc, code := some Config.vcPageNotValidated })
  if !e.large && large then .ok (t.rmpReturn .failSizeMismatch)
  else if mask &&& ~~~rmpPerm e t.svm.vmpl.toNat != 0 then .ok (t.rmpReturn .failPermission)
  else do
    let u ← t.rmpPut entry { e with
      vmsa := if t.svm.vmpl == 0 then t.gpr.rdx.getLsbD 16 else e.vmsa
      perms := rmpSetPerm e.perms target mask }
    .ok (u.rmpReturn .success)

/-- RMPADJUST: the address is all of RAX (51_sys_m_r.md R773, D41). DESIGN CHOICE (log 18): the test of a TARGET_VMPL that does not
exist, which D41 adds, comes after the test against the current VMPL and before TRANSLATE. -/
def execRmpadjust (_asz : ASize) (s : State) : Host.Outcome State Fault Refusal :=
  runVm s fun t => do
    t.needSnp
    require t.mode64 ud
    require t.svm.snpActive ud
    t.needCpl0
    let va := t.guestVa .a64
    let large := t.gpr.rcx.getLsbD 0
    let target := (t.gpr.rdx.extractLsb' 0 8).toNat
    if misaligned2M large va then .ok (.done (t.rmpReturn .failInput))
    else if target ≤ t.svm.vmpl.toNat then .ok (.done (t.rmpReturn .failPermission))
    else if t.cfg.numVmpl ≤ target then .ok (.done (t.rmpReturn .failInput))
    else
      match ← t.guestEntry va large with
      | .npf => .ok (.exit s .npf)
      | .found entry e => do
        let u ← t.rmpAdjust entry e large target (t.gpr.rdx.extractLsb' 8 8)
        .ok (.done u)

/-! ### RMPUPDATE -/

/-- The 16-byte structure at [RCX] (51_sys_m_r.md R774). -/
structure NewRmp where
  guestPa : Quad
  assigned : Bool
  large : Bool
  immutable : Bool
  asid : BitVec 32
  deriving DecidableEq, Repr

/-- The structure in 16 bytes (51_sys_m_r.md R774). -/
def NewRmp.ofBits (v : BitVec 128) : NewRmp where
  guestPa := v.extractLsb' 0 64
  assigned := v.getLsbD 64
  large := v.getLsbD 72
  immutable := v.getLsbD 80
  asid := v.extractLsb' 96 32

/-- An entry of zeros but for ASSIGNED (51_sys_m_r.md R774). -/
def rmpBlank (assigned : Bool) : RmpEntry where
  assigned := assigned
  large := false
  immutable := false
  guestPa := 0
  asid := 0
  validated := false
  vmsa := false
  perms := 0

/-- Some 4-Kbyte entry that is assigned among `n` from `entry` on (51_sys_m_r.md R774, D42). -/
def State.rmpOverlap (t : State) : Nat → Nat → Res Bool
  | 0, _ => .ok false
  | n + 1, entry => do
    let e ← t.rmpGet entry
    if e.assigned && !e.large then .ok true else State.rmpOverlap t n (entry + 16)

/-- `n` entries from `entry` on become zero but for ASSIGNED (51_sys_m_r.md R774). -/
def State.rmpFill (t : State) (assigned : Bool) : Nat → Nat → Res State
  | 0, _ => .ok t
  | n + 1, entry => do
    let u ← t.rmpPut entry (rmpBlank assigned)
    State.rmpFill u assigned n (entry + 16)

/-- PERMISSIONS[0] = 0xF and PERMISSIONS[1:(n-1)] = 0 (51_sys_m_r.md R774). -/
def rmpResetPerms (perms : BitVec 128) (n : Nat) : BitVec 128 :=
  (List.range (n - 1)).foldl (fun p i => rmpSetPerm p (i + 1) 0) (rmpSetPerm perms 0 0xF)

/-- Whether the page changes hands (51_sys_m_r.md R774). -/
def NewRmp.changes (new : NewRmp) (old : RmpEntry) : Bool :=
  old.asid != new.asid || old.guestPa != new.guestPa || old.large != new.large || old.assigned != new.assigned

/-- The entry RMPUPDATE writes (51_sys_m_r.md R774). -/
def rmpNext (new : NewRmp) (old : RmpEntry) (vmpls : Nat) : RmpEntry :=
  if !new.assigned then rmpBlank false
  else
    let e : RmpEntry :=
      { assigned := new.assigned, large := new.large, immutable := new.immutable, asid := new.asid,
        guestPa := if new.asid == 0 then 0 else new.guestPa, validated := old.validated, vmsa := old.vmsa,
        perms := old.perms }
    if new.changes old then { e with validated := false, vmsa := false, perms := rmpResetPerms old.perms vmpls } else e

/-- RMPUPDATE once the structure is read (51_sys_m_r.md R774). -/
def State.rmpUpdate (t : State) (pa : Quad) (new : NewRmp) : Res State :=
  let entry := t.rmpAddr pa.toNat
  if misaligned2M new.large pa || (!new.assigned && (new.immutable || new.asid != 0)) || !t.rmpExists entry then
    .ok (t.rmpReturn .failInput)
  else do
    let old ← t.rmpGet entry
    if old.immutable then .ok (t.rmpReturn .failPermission)
    else if !new.large && pa.extractLsb' 12 9 == 0 && old.large then .ok (t.rmpReturn .failOverlap)
    else do
      let overlap ← if new.large then t.rmpOverlap 511 (entry + 16) else .ok false
      if overlap then .ok (t.rmpReturn .failOverlap)
      else do
        let u ← if new.large then t.rmpFill new.assigned 511 (entry + 16) else .ok t
        let v ← u.rmpPut entry (rmpNext new old t.cfg.numVmpl)
        .ok (v.rmpReturn .success)

/-- RMPUPDATE (51_sys_m_r.md R774). -/
def execRmpupdate (seg : SegName) (asz : ASize) (s : State) : Host.Outcome State Fault Refusal :=
  run s fun t => do
    t.needSnpHost
    if t.svm.asid != 0 then .ok (t.rmpReturn .failPermission)
    else do
      let ps ← t.access seg (t.readGpr (addrWidth asz) .rcx) 16 false
      t.rmpUpdate (t.gpr.rax &&& ~~~(0xFFF : Quad)) (.ofBits (BitVec.ofNat 128 (t.loadAt ps)))

end Sys2Proof.Machine
end

