-- ==== Sys2Proof/Machine/Stack.lean ====
section
/-! DEFINITION. Pushes, pops and stack frames (42_gp_d_j.md R404, 43_gp_l_m.md R454, 44_gp_n_p.md R520 to R532). -/

namespace Sys2Proof.Machine

/-- DS, ES, SS and CS cannot be pushed or popped in 64-bit mode (44_gp_n_p.md R523, R530). -/
def oldSegment : SegName → Bool
  | .fs => false
  | .gs => false
  | _ => true

/-- PUSH: the value is read with the state before the instruction (44_gp_n_p.md R530, D25, D26). -/
def execPush (w : Width) (f : PushForm) (s : State) : Host.Outcome State Fault Refusal :=
  run s fun t =>
    match f with
    | .rm v => do
      let x ← t.readRM w v
      t.push w.bytes x
    | .seg n => do
      require (!(t.mode64 && oldSegment n)) ud
      t.push w.bytes ((t.sreg n).sel.setWidth 64)
    | .imm v => t.push w.bytes (trunc w v)

/-- POP to a register or memory: the destination is addressed and written after the increment (44_gp_n_p.md R520, D25). -/
def State.popRM (t : State) (w : Width) (d : RM) : Res State := do
  let (v, u) ← t.pop w.bytes
  u.writeRM w d v

/-- POP to a segment register (44_gp_n_p.md R523). DESIGN CHOICE (log 51): a POP SS that changes SS.B increments rSP at the stack
size of the old SS, before the new SS is loaded. -/
def State.popSeg (t s : State) (w : Width) (n : SegName) : Res State := do
  require (n != .cs && !(t.mode64 && oldSegment n)) ud
  let (v, u) ← t.pop w.bytes
  let u ← u.loadSegReg n (v.setWidth 16)
  .ok (u.openShadow s n)

/-- POP (44_gp_n_p.md R520, R523). -/
def execPop (w : Width) (f : PopForm) (s : State) : Host.Outcome State Fault Refusal :=
  run s fun t =>
    match f with
    | .rm d => t.popRM w d
    | .seg n => t.popSeg s w n

/-- PUSHA and PUSHAD (44_gp_n_p.md R531). -/
def State.pushRegs (t : State) (w : Width) : Res State := do
  require (!t.mode64) ud
  t.pushAllE ss0 w.bytes
    [t.readGpr w .rax, t.readGpr w .rcx, t.readGpr w .rdx, t.readGpr w .rbx, t.readGpr w .rsp, t.readGpr w .rbp,
     t.readGpr w .rsi, t.readGpr w .rdi]

/-- Registers popped in order; `none` discards a slot (44_gp_n_p.md R524). -/
def State.popList (t : State) (w : Width) : List (Option Gpr) → Res State
  | [] => .ok t
  | r :: rs => do
    let (v, u) ← t.pop w.bytes
    let u := match r with
      | some g => u.writeGpr w g v
      | none => u
    State.popList u w rs

/-- POPA and POPAD (44_gp_n_p.md R524). -/
def State.popRegs (t : State) (w : Width) : Res State := do
  require (!t.mode64) ud
  t.popList w [some .rdi, some .rsi, some .rbp, none, some .rbx, some .rdx, some .rcx, some .rax]

/-- PUSHA (44_gp_n_p.md R531). -/
def execPusha (s : State) : Host.Outcome State Fault Refusal := run s fun t => t.pushRegs .w16

/-- PUSHAD (44_gp_n_p.md R531). -/
def execPushad (s : State) : Host.Outcome State Fault Refusal := run s fun t => t.pushRegs .w32

/-- POPA (44_gp_n_p.md R524). -/
def execPopa (s : State) : Host.Outcome State Fault Refusal := run s fun t => t.popRegs .w16

/-- POPAD (44_gp_n_p.md R524). -/
def execPopad (s : State) : Host.Outcome State Fault Refusal := run s fun t => t.popRegs .w32

/-- PUSHF, PUSHFD and PUSHFQ (44_gp_n_p.md R532). -/
def State.pushFlags (t : State) (w : Width) : Res State :=
  let f := { t.flags with rf := false, vm := false }
  if !t.virtMode || t.flags.iopl == 3 then t.push w.bytes f.toBits
  else do
    require (t.cr4Bit 0 && w == .w16) gp0
    t.push w.bytes { f with fi := f.vif, iopl := 3 }.toBits

/-- PUSHF (44_gp_n_p.md R532). -/
def execPushf (s : State) : Host.Outcome State Fault Refusal := run s fun t => t.pushFlags .w16

/-- PUSHFD (44_gp_n_p.md R532). -/
def execPushfd (s : State) : Host.Outcome State Fault Refusal := run s fun t => t.pushFlags .w32

/-- PUSHFQ (44_gp_n_p.md R532). -/
def execPushfq (s : State) : Host.Outcome State Fault Refusal := run s fun t => t.pushFlags .w64

/-- `write` of POPF: VM, VIF and VIP are unchanged, RF is cleared (44_gp_n_p.md R526). -/
def popfFlags (f : Flags) (w : Width) (image : Quad) (setIopl setIf : Bool) : Flags :=
  let n := f.load w image
  { n with
    vm := f.vm
    vif := f.vif
    vip := f.vip
    rf := false
    iopl := if setIopl then n.iopl else f.iopl
    fi := if setIf then n.fi else f.fi }

/-- POPF, POPFD and POPFQ (44_gp_n_p.md R526). -/
def State.popFlags (t : State) (w : Width) : Res State :=
  if !t.virtMode then do
    let (v, u) ← t.pop w.bytes
    .ok (u.setFlags (popfFlags t.flags w v (t.cpl == 0) (t.cpl ≤ t.flags.iopl)))
  else if t.flags.iopl == 3 then do
    let (v, u) ← t.pop w.bytes
    .ok (u.setFlags (popfFlags t.flags w v false true))
  else do
    require (t.cr4Bit 0 && w == .w16) gp0
    let (v, u) ← t.pop w.bytes
    let n := Flags.ofBits v
    require (!(n.fi && t.flags.vip) && !n.tf) gp0
    .ok (u.setFlags { popfFlags t.flags w v false false with vif := n.fi })

/-- POPF (44_gp_n_p.md R526). -/
def execPopf (s : State) : Host.Outcome State Fault Refusal := run s fun t => t.popFlags .w16

/-- POPFD (44_gp_n_p.md R526). -/
def execPopfd (s : State) : Host.Outcome State Fault Refusal := run s fun t => t.popFlags .w32

/-- POPFQ (44_gp_n_p.md R526). -/
def execPopfq (s : State) : Host.Outcome State Fault Refusal := run s fun t => t.popFlags .w64

/-- The display entries ENTER copies: entries `i`, `i` + 1, … of the old frame (42_gp_d_j.md R404). -/
def State.copyDisplay (t : State) (n : Nat) (oldBp : Quad) : Nat → Nat → Res State
  | 0, _ => .ok t
  | k + 1, i => do
    let v ← t.readMem .ss (trunc t.stackWidth (oldBp - BitVec.ofNat 64 (i * n))) n
    let u ← t.push n v
    State.copyDisplay u n oldBp k (i + 1)

/-- The display of a nested frame: the copied entries and the new frame pointer (42_gp_d_j.md R404). -/
def State.enterDisplay (u : State) (n level : Nat) (oldBp frame : Quad) : Res State :=
  if level = 0 then .ok u
  else do
    let v ← u.copyDisplay n oldBp (level - 1) 1
    v.push n frame

/-- ENTER: the last write is a check only (42_gp_d_j.md R404). -/
def execEnter (w : Width) (size : BitVec 16) (level : Byte) (s : State) : Host.Outcome State Fault Refusal :=
  run s fun t => do
    let u ← t.push w.bytes t.gpr.rbp
    let frame := u.gpr.rsp
    let u ← u.enterDisplay w.bytes (level.toNat % 32) t.gpr.rbp frame
    let u := u.writeGpr u.stackWidth .rsp (u.gpr.rsp - size.setWidth 64)
    let _ ← u.access .ss (u.readGpr u.stackWidth .rsp) w.bytes true
    .ok (u.writeGpr w .rbp frame)

/-- LEAVE (43_gp_l_m.md R454). -/
def execLeave (w : Width) (s : State) : Host.Outcome State Fault Refusal :=
  run s fun t => do
    let u := t.writeGpr t.stackWidth .rsp (t.readGpr t.stackWidth .rbp)
    let (v, u) ← u.pop w.bytes
    .ok (u.writeGpr w .rbp v)

end Sys2Proof.Machine
end

