-- ==== Sys2Proof/Machine/Strings.lean ====
section
/-! DEFINITION. The string instructions with their repeat prefixes, and port input and output (30_encoding.md R166,
41_gp_c.md R368, 42_gp_d_j.md R407, R409, 43_gp_l_m.md R457, R476, 44_gp_n_p.md R514, R515, 45_gp_r_s.md R581, R592). -/

namespace Sys2Proof.Machine

/-- A repeated instruction that has more iterations to make: rIP is at its first prefix byte again, its bytes stay as they were
fetched (20_memory.md R145), and a shadow that covers it lasts until it completes (30_encoding.md R166, 60_exceptions.md R930,
log 25). -/
def State.again (u s : State) : State :=
  { u with rip := s.rip, exec := { u.exec with shadow := s.exec.shadow, latch := s.exec.latch } }

/-- The repetition ends: the count is 0, or ZF says so for CMPS and SCAS (30_encoding.md R166). -/
def repDone (rep : Rep) (zfTest : Bool) (count : Quad) (zf : Bool) : Bool :=
  count == 0 || (zfTest && (rep == .repe && !zf || rep == .repne && zf))

/-- One step of a string instruction that began in `s`: one iteration when it is repeated, none when the count is 0
(30_encoding.md R166, D12). -/
def State.iterate (t s : State) (asz : ASize) (rep : Rep) (zfTest : Bool) (body : State → Res State) : Res State :=
  if rep = .none then body t
  else if t.readGpr (addrWidth asz) .rcx = 0 then .ok t
  else do
    let u ← body t
    let c := trunc (addrWidth asz) (t.readGpr (addrWidth asz) .rcx - 1)
    let u := u.writeGpr (addrWidth asz) .rcx c
    .ok (if repDone rep zfTest c u.flags.zf then u else u.again s)

/-- A string pointer moved by `n` bytes: up when DF = 0, down when DF = 1 (30_encoding.md R166, R172). -/
def State.advance (t : State) (asz : ASize) (r : Gpr) (n : Nat) : State :=
  let v := t.readGpr (addrWidth asz) r
  t.writeGpr (addrWidth asz) r (if t.flags.df then v - BitVec.ofNat 64 n else v + BitVec.ofNat 64 n)

/-- A string pointer (30_encoding.md R172). -/
def State.pointer (t : State) (asz : ASize) (r : Gpr) : Quad := t.readGpr (addrWidth asz) r

/-- One iteration of CMPS (41_gp_c.md R368). -/
def State.cmps (t : State) (w : Width) (seg : SegName) (asz : ASize) : Res State := do
  let a ← t.readMem seg (t.pointer asz .rsi) w.bytes
  let b ← t.readMem .es (t.pointer asz .rdi) w.bytes
  .ok (((t.setFlags (subFlags t.flags w a b false).2).advance asz .rsi w.bytes).advance asz .rdi w.bytes)

/-- One iteration of LODS (43_gp_l_m.md R457). -/
def State.lods (t : State) (w : Width) (seg : SegName) (asz : ASize) : Res State := do
  let v ← t.readMem seg (t.pointer asz .rsi) w.bytes
  .ok ((t.writeGpr w .rax v).advance asz .rsi w.bytes)

/-- One iteration of MOVS: the destination is checked for writing before anything is written (43_gp_l_m.md R476). -/
def State.movs (t : State) (w : Width) (seg : SegName) (asz : ASize) : Res State := do
  let v ← t.readMem seg (t.pointer asz .rsi) w.bytes
  let u ← t.writeMem .es (t.pointer asz .rdi) w.bytes v
  .ok ((u.advance asz .rsi w.bytes).advance asz .rdi w.bytes)

/-- One iteration of SCAS (45_gp_r_s.md R581). -/
def State.scas (t : State) (w : Width) (asz : ASize) : Res State := do
  let m ← t.readMem .es (t.pointer asz .rdi) w.bytes
  .ok ((t.setFlags (subFlags t.flags w (t.readGpr w .rax) m false).2).advance asz .rdi w.bytes)

/-- One iteration of STOS (45_gp_r_s.md R592). -/
def State.stos (t : State) (w : Width) (asz : ASize) : Res State := do
  let u ← t.writeMem .es (t.pointer asz .rdi) w.bytes (t.readGpr w .rax)
  .ok (u.advance asz .rdi w.bytes)

/-! ### Ports -/

/-- The width of a port access: at most 32 bits (42_gp_d_j.md R407). -/
def portWidth : Width → Width
  | .w8 => .w8
  | .w16 => .w16
  | _ => .w32

/-- The bits of the I/O permission bitmap for `n` ports (20_memory.md R131). -/
def State.ioBits (t : State) (base port : Nat) : Nat → Res Unit
  | 0 => .ok ()
  | n + 1 => do
    State.ioBits t base port n
    let b ← t.tssBit base (port + n)
    require (!b) gp0

/-- IO_PERMISSION_CHECK where the mode asks for it (20_memory.md R131). -/
def State.ioCheck (t : State) (port : BitVec 16) (n : Nat) : Res Unit :=
  if t.virtMode || (t.protMode && t.flags.iopl < t.cpl) then do
    require (t.tr.attr.type != 1 && t.tr.attr.type != 3) gp0
    let base ← t.tableRead gp0 t.tr.base t.tr.limit 102 2
    t.ioBits base.toNat port.toNat n
  else .ok ()

/-- IO_READ: all ones by default; a device of the host may change with the read (20_memory.md R130, D14, log 16). -/
def State.ioRead (t : State) (port : BitVec 16) (w : Width) : Quad × State :=
  match t.cfg.io with
  | .default => (trunc w (BitVec.allOnes 64), t)
  | .host =>
    let r := Config.ioRead t.devices t.freeCount port w.bytes
    (trunc w (r.1.setWidth 64), { t with devices := r.2 })

/-- IO_WRITE: dropped by default; otherwise a device of the host takes the value (20_memory.md R130, D14, log 16). -/
def State.ioWrite (t : State) (port : BitVec 16) (w : Width) (v : Quad) : State :=
  match t.cfg.io with
  | .default => t
  | .host => { t with devices := Config.ioWrite t.devices t.freeCount port w.bytes ((trunc w v).setWidth 32) }

/-- The port in DX. -/
def State.dxPort (t : State) : BitVec 16 := t.gpr.rdx.setWidth 16

/-- A port operand (42_gp_d_j.md R407). -/
def State.portOf (t : State) : Port → BitVec 16
  | .imm v => v.setWidth 16
  | .dx => t.dxPort

/-- IN (42_gp_d_j.md R407). -/
def execInp (w : Width) (port : Port) (s : State) : Host.Outcome State Fault Refusal :=
  run s fun t => do
    t.ioCheck (t.portOf port) (portWidth w).bytes
    let (v, u) := t.ioRead (t.portOf port) (portWidth w)
    .ok (u.writeGpr (portWidth w) .rax v)

/-- OUT (44_gp_n_p.md R514). -/
def execOut (w : Width) (port : Port) (s : State) : Host.Outcome State Fault Refusal :=
  run s fun t => do
    t.ioCheck (t.portOf port) (portWidth w).bytes
    .ok (t.ioWrite (t.portOf port) (portWidth w) (t.readGpr (portWidth w) .rax))

/-- One iteration of INS: permission, destination access, port read, store (42_gp_d_j.md R409, D21). -/
def State.ins (t : State) (w : Width) (asz : ASize) : Res State := do
  t.ioCheck t.dxPort w.bytes
  let ps ← t.access .es (t.pointer asz .rdi) w.bytes true
  let (v, u) := t.ioRead t.dxPort w
  .ok ((u.storeAt ps v.toNat).advance asz .rdi w.bytes)

/-- One iteration of OUTS: permission, memory read, port write (44_gp_n_p.md R515, D21). -/
def State.outs (t : State) (w : Width) (seg : SegName) (asz : ASize) : Res State := do
  t.ioCheck t.dxPort w.bytes
  let v ← t.readMem seg (t.pointer asz .rsi) w.bytes
  .ok ((t.ioWrite t.dxPort w v).advance asz .rsi w.bytes)

/-! ### The instructions -/

/-- CMPSB (41_gp_c.md R368). -/
def execCmpsb (seg : SegName) (asz : ASize) (rep : Rep) (s : State) : Host.Outcome State Fault Refusal :=
  run s fun t => t.iterate s asz rep true fun t => t.cmps .w8 seg asz

/-- CMPSW, CMPSD and CMPSQ (41_gp_c.md R368). -/
def execCmpsv (w : Width) (seg : SegName) (asz : ASize) (rep : Rep) (s : State) : Host.Outcome State Fault Refusal :=
  run s fun t => t.iterate s asz rep true fun t => t.cmps w seg asz

/-- LODSB (43_gp_l_m.md R457). -/
def execLodsb (seg : SegName) (asz : ASize) (rep : Rep) (s : State) : Host.Outcome State Fault Refusal :=
  run s fun t => t.iterate s asz rep false fun t => t.lods .w8 seg asz

/-- LODSW, LODSD and LODSQ (43_gp_l_m.md R457). -/
def execLodsv (w : Width) (seg : SegName) (asz : ASize) (rep : Rep) (s : State) : Host.Outcome State Fault Refusal :=
  run s fun t => t.iterate s asz rep false fun t => t.lods w seg asz

/-- MOVSB (43_gp_l_m.md R476). -/
def execMovsb (seg : SegName) (asz : ASize) (rep : Rep) (s : State) : Host.Outcome State Fault Refusal :=
  run s fun t => t.iterate s asz rep false fun t => t.movs .w8 seg asz

/-- MOVSW, MOVSD and MOVSQ (43_gp_l_m.md R476). -/
def execMovsv (w : Width) (seg : SegName) (asz : ASize) (rep : Rep) (s : State) : Host.Outcome State Fault Refusal :=
  run s fun t => t.iterate s asz rep false fun t => t.movs w seg asz

/-- SCASB (45_gp_r_s.md R581). -/
def execScasb (asz : ASize) (rep : Rep) (s : State) : Host.Outcome State Fault Refusal :=
  run s fun t => t.iterate s asz rep true fun t => t.scas .w8 asz

/-- SCASW, SCASD and SCASQ (45_gp_r_s.md R581). -/
def execScasv (w : Width) (asz : ASize) (rep : Rep) (s : State) : Host.Outcome State Fault Refusal :=
  run s fun t => t.iterate s asz rep true fun t => t.scas w asz

/-- STOSB (45_gp_r_s.md R592). -/
def execStosb (asz : ASize) (rep : Rep) (s : State) : Host.Outcome State Fault Refusal :=
  run s fun t => t.iterate s asz rep false fun t => t.stos .w8 asz

/-- STOSW, STOSD and STOSQ (45_gp_r_s.md R592). -/
def execStosv (w : Width) (asz : ASize) (rep : Rep) (s : State) : Host.Outcome State Fault Refusal :=
  run s fun t => t.iterate s asz rep false fun t => t.stos w asz

/-- INSB (42_gp_d_j.md R409). -/
def execInsb (asz : ASize) (rep : Rep) (s : State) : Host.Outcome State Fault Refusal :=
  run s fun t => t.iterate s asz rep false fun t => t.ins .w8 asz

/-- INSW (42_gp_d_j.md R409). -/
def execInsw (asz : ASize) (rep : Rep) (s : State) : Host.Outcome State Fault Refusal :=
  run s fun t => t.iterate s asz rep false fun t => t.ins .w16 asz

/-- INSD (42_gp_d_j.md R409). -/
def execInsd (asz : ASize) (rep : Rep) (s : State) : Host.Outcome State Fault Refusal :=
  run s fun t => t.iterate s asz rep false fun t => t.ins .w32 asz

/-- OUTSB (44_gp_n_p.md R515). -/
def execOutsb (seg : SegName) (asz : ASize) (rep : Rep) (s : State) : Host.Outcome State Fault Refusal :=
  run s fun t => t.iterate s asz rep false fun t => t.outs .w8 seg asz

/-- OUTSW (44_gp_n_p.md R515). -/
def execOutsw (seg : SegName) (asz : ASize) (rep : Rep) (s : State) : Host.Outcome State Fault Refusal :=
  run s fun t => t.iterate s asz rep false fun t => t.outs .w16 seg asz

/-- OUTSD (44_gp_n_p.md R515). -/
def execOutsd (seg : SegName) (asz : ASize) (rep : Rep) (s : State) : Host.Outcome State Fault Refusal :=
  run s fun t => t.iterate s asz rep false fun t => t.outs .w32 seg asz

end Sys2Proof.Machine
end

