-- ==== Sys2Proof/Machine/SysMsr.lean ====
section
/-! DEFINITION. Model-specific registers, counters and protection keys (51_sys_m_r.md R767 to R772, 52_sys_s_w.md R845,
R846, 10_state.md R69 to R83). -/

namespace Sys2Proof.Machine

/-- The slot of the undefined upper half of a 32-bit MSR (log 5). -/
def msrSlot : Nat := 19

/-- A 32-bit MSR as RDMSR reads it: the upper half is undefined (93_implementation_defined.md U4). -/
def State.halfMsr (t : State) (v : Quad) : Quad := Config.freeBits t.freeCount msrSlot 32 ++ v.extractLsb' 0 32

/-- An MSR by number (10_state.md R69). DESIGN CHOICE (log 47): a number that is in the parameter MSR_IMPLEMENTED but not in the table
of R69 reads 0. -/
def State.readMsr (t : State) (n : BitVec 32) : Quad :=
  match n.toNat with
  | 0x10 => t.msr.tsc
  | 0xE7 => t.perfValue 0 t.msr.mperf
  | 0xE8 => t.perfValue 1 t.msr.aperf
  | 0x174 => t.msr.sysenterCs
  | 0x175 => t.msr.sysenterEsp
  | 0x176 => t.msr.sysenterEip
  | 0x6A0 => t.cet.uCet
  | 0x6A2 => t.cet.sCet
  | 0x6A4 => t.cet.pl0Ssp
  | 0x6A5 => t.cet.pl1Ssp
  | 0x6A6 => t.cet.pl2Ssp
  | 0x6A7 => t.cet.pl3Ssp
  | 0x6A8 => t.cet.isstAddr
  | 0xC0000080 => t.ctl.efer
  | 0xC0000081 => t.msr.star
  | 0xC0000082 => t.msr.lstar
  | 0xC0000083 => t.msr.cstar
  | 0xC0000084 => t.halfMsr t.msr.sfmask
  | 0xC0000100 => t.seg.fs.base
  | 0xC0000101 => t.seg.gs.base
  | 0xC0000102 => t.msr.kernelGsBase
  | 0xC0000103 => t.msr.tscAux
  | 0xC0000105 => t.lwp.cfg
  | 0xC0000106 => t.lwp.cbAddr
  | 0xC0010015 => t.msr.hwcr
  | 0xC0010114 => t.svm.vmCr
  | 0xC0010117 => t.svm.vmHsavePa
  | _ => 0

/-- The MSRs that accept only canonical values (10_state.md R69). -/
def canonicalMsr (n : BitVec 32) : Bool :=
  n == 0x175 || n == 0x176 || n == 0x6A4 || n == 0x6A5 || n == 0x6A6 || n == 0x6A7 || n == 0x6A8 || n == 0xC0000082 ||
    n == 0xC0000083 || n == 0xC0000100 || n == 0xC0000101 || n == 0xC0000102

/-- The bits of an MSR that must be zero (10_state.md R66, R72, R74, R76). -/
def State.msrReserved (t : State) (n : BitVec 32) : Quad :=
  match n.toNat with
  | 0xC0000080 => t.cfg.eferReserved
  | 0xC0000084 => 0xFFFFFFFF00000000
  | 0xC0000103 => 0xFFFFFFFF00000000
  | 0x6A4 => 3
  | 0x6A5 => 3
  | 0x6A6 => 3
  | 0x6A7 => 3
  | _ => 0

/-- EFER written: LMA keeps its value (10_state.md R66). -/
def newEfer (old v : Quad) : Quad := (v &&& ~~~(0x400 : Quad)) ||| (old &&& 0x400)

/-- An MSR by number replaced; the checks are those of `State.checkMsr` (10_state.md R69). DESIGN CHOICE (log 47): a write of a number
that is not in the table of R69 changes nothing. -/
def State.setMsr (t : State) (n : BitVec 32) (v : Quad) : State :=
  match n.toNat with
  | 0x10 => { t with msr := { t.msr with tsc := v } }
  | 0xE7 => { t with msr := { t.msr with mperf := v } }
  | 0xE8 => { t with msr := { t.msr with aperf := v } }
  | 0x174 => { t with msr := { t.msr with sysenterCs := v } }
  | 0x175 => { t with msr := { t.msr with sysenterEsp := v } }
  | 0x176 => { t with msr := { t.msr with sysenterEip := v } }
  | 0x6A0 => { t with cet := { t.cet with uCet := v } }
  | 0x6A2 => { t with cet := { t.cet with sCet := v } }
  | 0x6A4 => { t with cet := { t.cet with pl0Ssp := v } }
  | 0x6A5 => { t with cet := { t.cet with pl1Ssp := v } }
  | 0x6A6 => { t with cet := { t.cet with pl2Ssp := v } }
  | 0x6A7 => { t with cet := { t.cet with pl3Ssp := v } }
  | 0x6A8 => { t with cet := { t.cet with isstAddr := v } }
  | 0xC0000080 => { t with ctl := { t.ctl with efer := newEfer t.ctl.efer v } }
  | 0xC0000081 => { t with msr := { t.msr with star := v } }
  | 0xC0000082 => { t with msr := { t.msr with lstar := v } }
  | 0xC0000083 => { t with msr := { t.msr with cstar := v } }
  | 0xC0000084 => { t with msr := { t.msr with sfmask := v } }
  | 0xC0000100 => { t with seg := { t.seg with fs := { t.seg.fs with base := v } } }
  | 0xC0000101 => { t with seg := { t.seg with gs := { t.seg.gs with base := v } } }
  | 0xC0000102 => { t with msr := { t.msr with kernelGsBase := v } }
  | 0xC0000103 => { t with msr := { t.msr with tscAux := v } }
  | 0xC0000105 => { t with lwp := { t.lwp with cfg := v } }
  | 0xC0000106 => { t with lwp := { t.lwp with cbAddr := v } }
  | 0xC0010015 => { t with msr := { t.msr with hwcr := v } }
  | 0xC0010114 => { t with svm := { t.svm with vmCr := v } }
  | 0xC0010117 => { t with svm := { t.svm with vmHsavePa := v } }
  | _ => t

/-- The checks RDMSR and WRMSR share: the feature, the privilege, and that the MSR exists (51_sys_m_r.md R767, D18). -/
def State.needMsr (t : State) (n : BitVec 32) : Res Unit := do
  require t.feat.msr ud
  t.needCpl0
  require (t.cfg.msrs.contains n) gp0

/-- The value checks of WRMSR; LME cannot change while paging is on (52_sys_s_w.md R845, 10_state.md R66). -/
def State.checkMsr (t : State) (n : BitVec 32) (v : Quad) : Res Unit := do
  require (v &&& t.msrReserved n == 0) gp0
  require (!canonicalMsr n || t.canonical v) gp0
  require (!(n == 0xC0000080 && t.pg && (v ^^^ t.ctl.efer).getLsbD 8)) gp0

/-- RDMSR (51_sys_m_r.md R767). -/
def execRdmsr (s : State) : Host.Outcome State Fault Refusal :=
  run s fun t => do
    let n : BitVec 32 := t.gpr.rcx.setWidth 32
    t.needMsr n
    .ok (t.setEdxEax (t.readMsr n))

/-- EDX:EAX (52_sys_s_w.md R845). -/
def State.edxEax (t : State) : Quad := t.gpr.rdx.extractLsb' 0 32 ++ t.gpr.rax.extractLsb' 0 32

/-- WRMSR (52_sys_s_w.md R845). -/
def execWrmsr (s : State) : Host.Outcome State Fault Refusal :=
  run s fun t => do
    let n : BitVec 32 := t.gpr.rcx.setWidth 32
    t.needMsr n
    t.checkMsr n t.edxEax
    .ok (t.setMsr n t.edxEax)

/-- The performance counters that exist (51_sys_m_r.md R769). -/
def State.hasCounter (t : State) (n : Nat) : Bool :=
  n < 4 || (n < 6 && t.feat.perfCtrExtCore) || (6 ≤ n && n < 10 && t.feat.perfCtrExtNb) ||
    (10 ≤ n && n < 14 && t.feat.perfCtrExtL2i)

/-- RDPMC (51_sys_m_r.md R769). -/
def execRdpmc (s : State) : Host.Outcome State Fault Refusal :=
  run s fun t => do
    let n := (t.gpr.rcx.extractLsb' 0 32).toNat
    require (t.cpl == 0 || t.cr4Bit 8) gp0
    require (t.hasCounter n) gp0
    .ok (t.setEdxEax (t.perfValue (n + 2) (t.msr.perf.toList.getD n 0)))

/-- The time-stamp counter may be read: CR4.TSD restricts it to level 0 (51_sys_m_r.md R771). -/
def State.needTsd (t : State) : Res Unit := require (t.cpl == 0 || !t.cr4Bit 2) gp0

/-- RDTSC (51_sys_m_r.md R771). -/
def execRdtsc (s : State) : Host.Outcome State Fault Refusal :=
  run s fun t => do
    require t.feat.tsc ud
    t.needTsd
    .ok (t.setEdxEax t.msr.tsc)

/-- RDTSCP (51_sys_m_r.md R772). -/
def execRdtscp (s : State) : Host.Outcome State Fault Refusal :=
  run s fun t => do
    require t.feat.rdtscp ud
    t.needTsd
    .ok ((t.setEdxEax t.msr.tsc).writeGpr .w32 .rcx t.msr.tscAux)

/-- RDPKRU (51_sys_m_r.md R768). -/
def execRdpkru (s : State) : Host.Outcome State Fault Refusal :=
  run s fun t => do
    require (t.cr4Bit 22) ud
    require (t.readGpr .w32 .rcx == 0) gp0
    .ok ((t.setReg .rax (t.pkru.setWidth 64)).setReg .rdx 0)

/-- WRPKRU (52_sys_s_w.md R846). -/
def execWrpkru (s : State) : Host.Outcome State Fault Refusal :=
  run s fun t => do
    require (t.cr4Bit 22) ud
    require (t.readGpr .w32 .rcx == 0 && t.readGpr .w32 .rdx == 0) gp0
    .ok { t with pkru := t.gpr.rax.extractLsb' 0 32 }

end Sys2Proof.Machine
end

