-- ==== Sys2Proof/Machine/Dispatch.lean ====
section
/-! DEFINITION. One arm per instruction: a direct call of its meaning. -/

namespace Sys2Proof.Machine

def exec (i : Instr) (s : State) : Host.Outcome State Fault Refusal :=
  match i with
  | .add w f lock => Sys2Proof.Machine.execAdd w f lock s
  | .or w f lock => Sys2Proof.Machine.execOr w f lock s
  | .adc w f lock => Sys2Proof.Machine.execAdc w f lock s
  | .sbb w f lock => Sys2Proof.Machine.execSbb w f lock s
  | .and w f lock => Sys2Proof.Machine.execAnd w f lock s
  | .sub w f lock => Sys2Proof.Machine.execSub w f lock s
  | .xor w f lock => Sys2Proof.Machine.execXor w f lock s
  | .cmp w f => Sys2Proof.Machine.execCmp w f s
  | .aad base => Sys2Proof.Machine.execAad base s
  | .aam base => Sys2Proof.Machine.execAam base s
  | .adcx w dst src => Sys2Proof.Machine.execAdcx w dst src s
  | .adox w dst src => Sys2Proof.Machine.execAdox w dst src s
  | .andn w dst src1 src2 => Sys2Proof.Machine.execAndn w dst src1 src2 s
  | .bextr w dst src ctl => Sys2Proof.Machine.execBextr w dst src ctl s
  | .blcfill w dst src => Sys2Proof.Machine.execBlcfill w dst src s
  | .blci w dst src => Sys2Proof.Machine.execBlci w dst src s
  | .blcic w dst src => Sys2Proof.Machine.execBlcic w dst src s
  | .blcmsk w dst src => Sys2Proof.Machine.execBlcmsk w dst src s
  | .blcs w dst src => Sys2Proof.Machine.execBlcs w dst src s
  | .blsfill w dst src => Sys2Proof.Machine.execBlsfill w dst src s
  | .blsic w dst src => Sys2Proof.Machine.execBlsic w dst src s
  | .blsi w dst src => Sys2Proof.Machine.execBlsi w dst src s
  | .blsmsk w dst src => Sys2Proof.Machine.execBlsmsk w dst src s
  | .blsr w dst src => Sys2Proof.Machine.execBlsr w dst src s
  | .bound w idx m => Sys2Proof.Machine.execBound w idx m s
  | .bsf w dst src => Sys2Proof.Machine.execBsf w dst src s
  | .bsr w dst src => Sys2Proof.Machine.execBsr w dst src s
  | .bswap w r => Sys2Proof.Machine.execBswap w r s
  | .bt w rm off => Sys2Proof.Machine.execBt w rm off s
  | .btc w rm off lock => Sys2Proof.Machine.execBtc w rm off lock s
  | .btr w rm off lock => Sys2Proof.Machine.execBtr w rm off lock s
  | .bts w rm off lock => Sys2Proof.Machine.execBts w rm off lock s
  | .bzhi w dst src idx => Sys2Proof.Machine.execBzhi w dst src idx s
  | .call w t => Sys2Proof.Machine.execCall w t s
  | .callFar w t => Sys2Proof.Machine.execCallFar w t s
  | .clflush m => Sys2Proof.Machine.execClflush m s
  | .clflushopt m => Sys2Proof.Machine.execClflushopt m s
  | .clwb m => Sys2Proof.Machine.execClwb m s
  | .clzero seg asz => Sys2Proof.Machine.execClzero seg asz s
  | .cmovo w dst src => Sys2Proof.Machine.execCmovo w dst src s
  | .cmovno w dst src => Sys2Proof.Machine.execCmovno w dst src s
  | .cmovb w dst src => Sys2Proof.Machine.execCmovb w dst src s
  | .cmovnb w dst src => Sys2Proof.Machine.execCmovnb w dst src s
  | .cmovz w dst src => Sys2Proof.Machine.execCmovz w dst src s
  | .cmovnz w dst src => Sys2Proof.Machine.execCmovnz w dst src s
  | .cmovbe w dst src => Sys2Proof.Machine.execCmovbe w dst src s
  | .cmovnbe w dst src => Sys2Proof.Machine.execCmovnbe w dst src s
  | .cmovs w dst src => Sys2Proof.Machine.execCmovs w dst src s
  | .cmovns w dst src => Sys2Proof.Machine.execCmovns w dst src s
  | .cmovp w dst src => Sys2Proof.Machine.execCmovp w dst src s
  | .cmovnp w dst src => Sys2Proof.Machine.execCmovnp w dst src s
  | .cmovl w dst src => Sys2Proof.Machine.execCmovl w dst src s
  | .cmovnl w dst src => Sys2Proof.Machine.execCmovnl w dst src s
  | .cmovle w dst src => Sys2Proof.Machine.execCmovle w dst src s
  | .cmovnle w dst src => Sys2Proof.Machine.execCmovnle w dst src s
  | .cmpsb seg asz rep => Sys2Proof.Machine.execCmpsb seg asz rep s
  | .cmpsv w seg asz rep => Sys2Proof.Machine.execCmpsv w seg asz rep s
  | .cmpxchg w rm r lock => Sys2Proof.Machine.execCmpxchg w rm r lock s
  | .cmpxchg8b m lock => Sys2Proof.Machine.execCmpxchg8b m lock s
  | .cmpxchg16b m lock => Sys2Proof.Machine.execCmpxchg16b m lock s
  | .crc32 w wide dst src => Sys2Proof.Machine.execCrc32 w wide dst src s
  | .dec w rm lock => Sys2Proof.Machine.execDec w rm lock s
  | .div w rm => Sys2Proof.Machine.execDiv w rm s
  | .enter w size level => Sys2Proof.Machine.execEnter w size level s
  | .idiv w rm => Sys2Proof.Machine.execIdiv w rm s
  | .imul w f => Sys2Proof.Machine.execImul w f s
  | .inp w port => Sys2Proof.Machine.execInp w port s
  | .inc w rm lock => Sys2Proof.Machine.execInc w rm lock s
  | .insb asz rep => Sys2Proof.Machine.execInsb asz rep s
  | .insw asz rep => Sys2Proof.Machine.execInsw asz rep s
  | .insd asz rep => Sys2Proof.Machine.execInsd asz rep s
  | .int vector => Sys2Proof.Machine.execInt vector s
  | .jo w rel => Sys2Proof.Machine.execJo w rel s
  | .jno w rel => Sys2Proof.Machine.execJno w rel s
  | .jb w rel => Sys2Proof.Machine.execJb w rel s
  | .jnb w rel => Sys2Proof.Machine.execJnb w rel s
  | .jz w rel => Sys2Proof.Machine.execJz w rel s
  | .jnz w rel => Sys2Proof.Machine.execJnz w rel s
  | .jbe w rel => Sys2Proof.Machine.execJbe w rel s
  | .jnbe w rel => Sys2Proof.Machine.execJnbe w rel s
  | .js w rel => Sys2Proof.Machine.execJs w rel s
  | .jns w rel => Sys2Proof.Machine.execJns w rel s
  | .jp w rel => Sys2Proof.Machine.execJp w rel s
  | .jnp w rel => Sys2Proof.Machine.execJnp w rel s
  | .jl w rel => Sys2Proof.Machine.execJl w rel s
  | .jnl w rel => Sys2Proof.Machine.execJnl w rel s
  | .jle w rel => Sys2Proof.Machine.execJle w rel s
  | .jnle w rel => Sys2Proof.Machine.execJnle w rel s
  | .jcxz w rel => Sys2Proof.Machine.execJcxz w rel s
  | .jecxz w rel => Sys2Proof.Machine.execJecxz w rel s
  | .jrcxz w rel => Sys2Proof.Machine.execJrcxz w rel s
  | .jmp w t => Sys2Proof.Machine.execJmp w t s
  | .jmpFar w t => Sys2Proof.Machine.execJmpFar w t s
  | .lds w dst m => Sys2Proof.Machine.execLds w dst m s
  | .les w dst m => Sys2Proof.Machine.execLes w dst m s
  | .lfs w dst m => Sys2Proof.Machine.execLfs w dst m s
  | .lgs w dst m => Sys2Proof.Machine.execLgs w dst m s
  | .lss w dst m => Sys2Proof.Machine.execLss w dst m s
  | .lea w dst m => Sys2Proof.Machine.execLea w dst m s
  | .leave w => Sys2Proof.Machine.execLeave w s
  | .llwpcb w r => Sys2Proof.Machine.execLlwpcb w r s
  | .lodsb seg asz rep => Sys2Proof.Machine.execLodsb seg asz rep s
  | .lodsv w seg asz rep => Sys2Proof.Machine.execLodsv w seg asz rep s
  | .loop w asz rel => Sys2Proof.Machine.execLoop w asz rel s
  | .loope w asz rel => Sys2Proof.Machine.execLoope w asz rel s
  | .loopne w asz rel => Sys2Proof.Machine.execLoopne w asz rel s
  | .lwpins w src1 src2 flags => Sys2Proof.Machine.execLwpins w src1 src2 flags s
  | .lwpval w src1 src2 flags => Sys2Proof.Machine.execLwpval w src1 src2 flags s
  | .lzcnt w dst src => Sys2Proof.Machine.execLzcnt w dst src s
  | .monitorx seg asz => Sys2Proof.Machine.execMonitorx seg asz s
  | .mov f => Sys2Proof.Machine.execMov f s
  | .movbe w f => Sys2Proof.Machine.execMovbe w f s
  | .movd wide f => Sys2Proof.Machine.execMovd wide f s
  | .movmskpd dst x => Sys2Proof.Machine.execMovmskpd dst x s
  | .movmskps dst x => Sys2Proof.Machine.execMovmskps dst x s
  | .movnti w m r => Sys2Proof.Machine.execMovnti w m r s
  | .movsb seg asz rep => Sys2Proof.Machine.execMovsb seg asz rep s
  | .movsv w seg asz rep => Sys2Proof.Machine.execMovsv w seg asz rep s
  | .movsx w sw dst src => Sys2Proof.Machine.execMovsx w sw dst src s
  | .movsxd w dst src => Sys2Proof.Machine.execMovsxd w dst src s
  | .movzx w sw dst src => Sys2Proof.Machine.execMovzx w sw dst src s
  | .mul w rm => Sys2Proof.Machine.execMul w rm s
  | .mulx w hi lo src => Sys2Proof.Machine.execMulx w hi lo src s
  | .neg w rm lock => Sys2Proof.Machine.execNeg w rm lock s
  | .nop rm => Sys2Proof.Machine.execNop rm s
  | .not w rm lock => Sys2Proof.Machine.execNot w rm lock s
  | .out w port => Sys2Proof.Machine.execOut w port s
  | .outsb seg asz rep => Sys2Proof.Machine.execOutsb seg asz rep s
  | .outsw seg asz rep => Sys2Proof.Machine.execOutsw seg asz rep s
  | .outsd seg asz rep => Sys2Proof.Machine.execOutsd seg asz rep s
  | .pdep w dst src mask => Sys2Proof.Machine.execPdep w dst src mask s
  | .pext w dst src mask => Sys2Proof.Machine.execPext w dst src mask s
  | .pop w f => Sys2Proof.Machine.execPop w f s
  | .popcnt w dst src => Sys2Proof.Machine.execPopcnt w dst src s
  | .prefetch m => Sys2Proof.Machine.execPrefetch m s
  | .prefetchw m => Sys2Proof.Machine.execPrefetchw m s
  | .prefetchnta m => Sys2Proof.Machine.execPrefetchnta m s
  | .prefetcht0 m => Sys2Proof.Machine.execPrefetcht0 m s
  | .prefetcht1 m => Sys2Proof.Machine.execPrefetcht1 m s
  | .prefetcht2 m => Sys2Proof.Machine.execPrefetcht2 m s
  | .push w f => Sys2Proof.Machine.execPush w f s
  | .rol w rm cnt => Sys2Proof.Machine.execRol w rm cnt s
  | .ror w rm cnt => Sys2Proof.Machine.execRor w rm cnt s
  | .rcl w rm cnt => Sys2Proof.Machine.execRcl w rm cnt s
  | .rcr w rm cnt => Sys2Proof.Machine.execRcr w rm cnt s
  | .shl w rm cnt => Sys2Proof.Machine.execShl w rm cnt s
  | .shr w rm cnt => Sys2Proof.Machine.execShr w rm cnt s
  | .sar w rm cnt => Sys2Proof.Machine.execSar w rm cnt s
  | .rdfsbase w r => Sys2Proof.Machine.execRdfsbase w r s
  | .rdgsbase w r => Sys2Proof.Machine.execRdgsbase w r s
  | .rdpid r => Sys2Proof.Machine.execRdpid r s
  | .rdrand w r => Sys2Proof.Machine.execRdrand w r s
  | .rdseed w r => Sys2Proof.Machine.execRdseed w r s
  | .ret w imm => Sys2Proof.Machine.execRet w imm s
  | .retf w imm => Sys2Proof.Machine.execRetf w imm s
  | .rorx w dst src imm => Sys2Proof.Machine.execRorx w dst src imm s
  | .sarx w dst src cnt => Sys2Proof.Machine.execSarx w dst src cnt s
  | .scasb asz rep => Sys2Proof.Machine.execScasb asz rep s
  | .scasv w asz rep => Sys2Proof.Machine.execScasv w asz rep s
  | .seto rm => Sys2Proof.Machine.execSeto rm s
  | .setno rm => Sys2Proof.Machine.execSetno rm s
  | .setb rm => Sys2Proof.Machine.execSetb rm s
  | .setnb rm => Sys2Proof.Machine.execSetnb rm s
  | .setz rm => Sys2Proof.Machine.execSetz rm s
  | .setnz rm => Sys2Proof.Machine.execSetnz rm s
  | .setbe rm => Sys2Proof.Machine.execSetbe rm s
  | .setnbe rm => Sys2Proof.Machine.execSetnbe rm s
  | .sets rm => Sys2Proof.Machine.execSets rm s
  | .setns rm => Sys2Proof.Machine.execSetns rm s
  | .setp rm => Sys2Proof.Machine.execSetp rm s
  | .setnp rm => Sys2Proof.Machine.execSetnp rm s
  | .setl rm => Sys2Proof.Machine.execSetl rm s
  | .setnl rm => Sys2Proof.Machine.execSetnl rm s
  | .setle rm => Sys2Proof.Machine.execSetle rm s
  | .setnle rm => Sys2Proof.Machine.execSetnle rm s
  | .shld w rm r cnt => Sys2Proof.Machine.execShld w rm r cnt s
  | .shlx w dst src cnt => Sys2Proof.Machine.execShlx w dst src cnt s
  | .shrd w rm r cnt => Sys2Proof.Machine.execShrd w rm r cnt s
  | .shrx w dst src cnt => Sys2Proof.Machine.execShrx w dst src cnt s
  | .slwpcb w r => Sys2Proof.Machine.execSlwpcb w r s
  | .stosb asz rep => Sys2Proof.Machine.execStosb asz rep s
  | .stosv w asz rep => Sys2Proof.Machine.execStosv w asz rep s
  | .t1mskc w dst src => Sys2Proof.Machine.execT1mskc w dst src s
  | .test w rm src => Sys2Proof.Machine.execTest w rm src s
  | .tzcnt w dst src => Sys2Proof.Machine.execTzcnt w dst src s
  | .tzmsk w dst src => Sys2Proof.Machine.execTzmsk w dst src s
  | .wrfsbase w r => Sys2Proof.Machine.execWrfsbase w r s
  | .wrgsbase w r => Sys2Proof.Machine.execWrgsbase w r s
  | .xadd w rm r lock => Sys2Proof.Machine.execXadd w rm r lock s
  | .xchg w rm r lock => Sys2Proof.Machine.execXchg w rm r lock s
  | .xlat seg asz => Sys2Proof.Machine.execXlat seg asz s
  | .arpl rm r => Sys2Proof.Machine.execArpl rm r s
  | .clrssbsy m => Sys2Proof.Machine.execClrssbsy m s
  | .incsspd r => Sys2Proof.Machine.execIncsspd r s
  | .incsspq r => Sys2Proof.Machine.execIncsspq r s
  | .invlpg m => Sys2Proof.Machine.execInvlpg m s
  | .invlpga seg asz => Sys2Proof.Machine.execInvlpga seg asz s
  | .invlpgb seg asz => Sys2Proof.Machine.execInvlpgb seg asz s
  | .invpcid r m => Sys2Proof.Machine.execInvpcid r m s
  | .lar w dst src => Sys2Proof.Machine.execLar w dst src s
  | .lgdt w m => Sys2Proof.Machine.execLgdt w m s
  | .lidt w m => Sys2Proof.Machine.execLidt w m s
  | .lldt rm => Sys2Proof.Machine.execLldt rm s
  | .lmsw rm => Sys2Proof.Machine.execLmsw rm s
  | .lsl w dst src => Sys2Proof.Machine.execLsl w dst src s
  | .ltr rm => Sys2Proof.Machine.execLtr rm s
  | .monitor seg asz => Sys2Proof.Machine.execMonitor seg asz s
  | .psmash asz => Sys2Proof.Machine.execPsmash asz s
  | .pvalidate asz => Sys2Proof.Machine.execPvalidate asz s
  | .rdsspd r => Sys2Proof.Machine.execRdsspd r s
  | .rdsspq r => Sys2Proof.Machine.execRdsspq r s
  | .rmpadjust asz => Sys2Proof.Machine.execRmpadjust asz s
  | .rmpupdate seg asz => Sys2Proof.Machine.execRmpupdate seg asz s
  | .rstorssp m => Sys2Proof.Machine.execRstorssp m s
  | .sgdt m => Sys2Proof.Machine.execSgdt m s
  | .sidt m => Sys2Proof.Machine.execSidt m s
  | .sldt w rm => Sys2Proof.Machine.execSldt w rm s
  | .smsw w rm => Sys2Proof.Machine.execSmsw w rm s
  | .str w rm => Sys2Proof.Machine.execStr w rm s
  | .sysret w => Sys2Proof.Machine.execSysret w s
  | .verr rm => Sys2Proof.Machine.execVerr rm s
  | .verw rm => Sys2Proof.Machine.execVerw rm s
  | .vmload asz => Sys2Proof.Machine.execVmload asz s
  | .vmrun asz => Sys2Proof.Machine.execVmrun asz s
  | .vmsave asz => Sys2Proof.Machine.execVmsave asz s
  | .wrssd m r => Sys2Proof.Machine.execWrssd m r s
  | .wrssq m r => Sys2Proof.Machine.execWrssq m r s
  | .wrussd m r => Sys2Proof.Machine.execWrussd m r s
  | .wrussq m r => Sys2Proof.Machine.execWrussq m r s
  | .prefixVex3 map op => Sys2Proof.Machine.execPrefixVex3 map op s
  | .prefixVex2 op => Sys2Proof.Machine.execPrefixVex2 op s
  | .prefixXop map op => Sys2Proof.Machine.execPrefixXop map op s
  | .escape0F op modrm => Sys2Proof.Machine.execEscape0F op modrm s
  | .escape0F38 op modrm => Sys2Proof.Machine.execEscape0F38 op modrm s
  | .escape0F3A op modrm => Sys2Proof.Machine.execEscape0F3A op modrm s
  | .x87 op modrm => Sys2Proof.Machine.execX87 op modrm s
  | .threeDNow op modrm => Sys2Proof.Machine.execThreeDNow op modrm s
  | .reservedGroup3 w => Sys2Proof.Machine.execReservedGroup3 w s
  | .aaa => Sys2Proof.Machine.execAaa s
  | .aas => Sys2Proof.Machine.execAas s
  | .cbw => Sys2Proof.Machine.execCbw s
  | .cwde => Sys2Proof.Machine.execCwde s
  | .cdqe => Sys2Proof.Machine.execCdqe s
  | .cwd => Sys2Proof.Machine.execCwd s
  | .cdq => Sys2Proof.Machine.execCdq s
  | .cqo => Sys2Proof.Machine.execCqo s
  | .clc => Sys2Proof.Machine.execClc s
  | .cld => Sys2Proof.Machine.execCld s
  | .cmc => Sys2Proof.Machine.execCmc s
  | .cpuid => Sys2Proof.Machine.execCpuid s
  | .daa => Sys2Proof.Machine.execDaa s
  | .das => Sys2Proof.Machine.execDas s
  | .into => Sys2Proof.Machine.execInto s
  | .lahf => Sys2Proof.Machine.execLahf s
  | .lfence => Sys2Proof.Machine.execLfence s
  | .mcommit => Sys2Proof.Machine.execMcommit s
  | .mfence => Sys2Proof.Machine.execMfence s
  | .mwaitx => Sys2Proof.Machine.execMwaitx s
  | .pause => Sys2Proof.Machine.execPause s
  | .popa => Sys2Proof.Machine.execPopa s
  | .popad => Sys2Proof.Machine.execPopad s
  | .popf => Sys2Proof.Machine.execPopf s
  | .popfd => Sys2Proof.Machine.execPopfd s
  | .popfq => Sys2Proof.Machine.execPopfq s
  | .pusha => Sys2Proof.Machine.execPusha s
  | .pushad => Sys2Proof.Machine.execPushad s
  | .pushf => Sys2Proof.Machine.execPushf s
  | .pushfd => Sys2Proof.Machine.execPushfd s
  | .pushfq => Sys2Proof.Machine.execPushfq s
  | .rdpru => Sys2Proof.Machine.execRdpru s
  | .sahf => Sys2Proof.Machine.execSahf s
  | .sfence => Sys2Proof.Machine.execSfence s
  | .stc => Sys2Proof.Machine.execStc s
  | .std => Sys2Proof.Machine.execStd s
  | .ud0 => Sys2Proof.Machine.execUd0 s
  | .ud1 => Sys2Proof.Machine.execUd1 s
  | .ud2 => Sys2Proof.Machine.execUd2 s
  | .clac => Sys2Proof.Machine.execClac s
  | .clgi => Sys2Proof.Machine.execClgi s
  | .cli => Sys2Proof.Machine.execCli s
  | .clts => Sys2Proof.Machine.execClts s
  | .hlt => Sys2Proof.Machine.execHlt s
  | .int3 => Sys2Proof.Machine.execInt3 s
  | .invd => Sys2Proof.Machine.execInvd s
  | .iret => Sys2Proof.Machine.execIret s
  | .iretd => Sys2Proof.Machine.execIretd s
  | .iretq => Sys2Proof.Machine.execIretq s
  | .mwait => Sys2Proof.Machine.execMwait s
  | .rdmsr => Sys2Proof.Machine.execRdmsr s
  | .rdpkru => Sys2Proof.Machine.execRdpkru s
  | .rdpmc => Sys2Proof.Machine.execRdpmc s
  | .rdtsc => Sys2Proof.Machine.execRdtsc s
  | .rdtscp => Sys2Proof.Machine.execRdtscp s
  | .rsm => Sys2Proof.Machine.execRsm s
  | .saveprevssp => Sys2Proof.Machine.execSaveprevssp s
  | .setssbsy => Sys2Proof.Machine.execSetssbsy s
  | .skinit => Sys2Proof.Machine.execSkinit s
  | .stac => Sys2Proof.Machine.execStac s
  | .sti => Sys2Proof.Machine.execSti s
  | .stgi => Sys2Proof.Machine.execStgi s
  | .swapgs => Sys2Proof.Machine.execSwapgs s
  | .syscall => Sys2Proof.Machine.execSyscall s
  | .sysenter => Sys2Proof.Machine.execSysenter s
  | .sysexit => Sys2Proof.Machine.execSysexit s
  | .tlbsync => Sys2Proof.Machine.execTlbsync s
  | .vmmcall => Sys2Proof.Machine.execVmmcall s
  | .vmgexit => Sys2Proof.Machine.execVmgexit s
  | .wbinvd => Sys2Proof.Machine.execWbinvd s
  | .wbnoinvd => Sys2Proof.Machine.execWbnoinvd s
  | .wrmsr => Sys2Proof.Machine.execWrmsr s
  | .wrpkru => Sys2Proof.Machine.execWrpkru s
  | .prefixOpSize => Sys2Proof.Machine.execPrefixOpSize s
  | .prefixAddrSize => Sys2Proof.Machine.execPrefixAddrSize s
  | .prefixCs => Sys2Proof.Machine.execPrefixCs s
  | .prefixDs => Sys2Proof.Machine.execPrefixDs s
  | .prefixEs => Sys2Proof.Machine.execPrefixEs s
  | .prefixFs => Sys2Proof.Machine.execPrefixFs s
  | .prefixGs => Sys2Proof.Machine.execPrefixGs s
  | .prefixSs => Sys2Proof.Machine.execPrefixSs s
  | .prefixLock => Sys2Proof.Machine.execPrefixLock s
  | .prefixRep => Sys2Proof.Machine.execPrefixRep s
  | .prefixRepne => Sys2Proof.Machine.execPrefixRepne s
  | .prefixRex => Sys2Proof.Machine.execPrefixRex s
  | .wait => Sys2Proof.Machine.execWait s
  | .int1 => Sys2Proof.Machine.execInt1 s
  | .reservedD6 => Sys2Proof.Machine.execReservedD6 s

end Sys2Proof.Machine
end

