-- ==== Sys2Proof/Machine/Step.lean ====
section
/-! DEFINITION. One step: an external event, or one instruction (00_scope.md R18). -/

namespace Sys2Proof.Machine

/-- The instruction at rIP: fetched, decoded and executed (00_scope.md R18); an instruction that cannot be fetched raises
its exception (60_exceptions.md R905). -/
def runInstr (s : State) : Host.Outcome State Fault Refusal :=
  match s.fetch with
  | .ok (i, len) => exec i (s.withNext len)
  | .error (.exc x) => s.raise x
  | .error (.fault f) => .fault f
  | .error (.refuse r) => .refused r

/-- One step (00_scope.md R18): time passes, then an external event is taken (60_exceptions.md R932), or the processor
stays halted or shut down, or it runs one instruction. -/
def step (s : State) : Host.Outcome State Fault Refusal :=
  match s.tick.pending with
  | .reset => .next s.tick.resetEvent
  | .init => .next s.tick.initEvent
  | .smi => .refused .systemManagement
  | .nmi => s.tick.takeNmi
  | .intr v => s.tick.takeIntr v
  | .none => if s.exec.activity = .running then runInstr s.tick else .next s.tick

/-- The instruction of an opcode-table word placed where the next step fetches, the bits above it zero. -/
def State.withFetchWord (s : State) (nbits w : Nat) : State := s.putCode (tableBytes nbits w)

end Sys2Proof.Machine
end

