-- ==== Sys2Proof/Safety.lean ====
section
/-! DEFINITION. The terms of the statements: the invariants that every step keeps, and the values and flags of the
instructions by integers, beside the bit patterns of the model. -/

namespace Sys2Proof.Machine

/-! ### Invariants -/

/-- Memory has its canonical form. -/
def State.memOk (s : State) : Prop := Memory.wf s.mem

/-- The hard-wired bit ET of CR0 reads 1 (10_state.md R63). -/
def State.etOk (s : State) : Prop := s.ctl.cr0.getLsbD 4 = true

/-- The mode is a legal one, on a processor without SVM (10_state.md R57, R62 to R66, 00_scope.md R20): paging needs
protection, NW needs CD, LMA is LME and PG, long mode needs PAE and PCIDE needs long mode; without protection CPL is 0 and
there is no virtual-8086 mode, which runs at CPL 3 and not in long mode. -/
structure State.LegalMode (s : State) : Prop where
  noSvm : s.cfg.features.svm = false
  noGuest : s.svm.guest = false
  noSnp : s.svm.snpActive = false
  paging : s.pg = true → s.pe = true
  caching : s.ctl.cr0.getLsbD 29 = true → s.ctl.cr0.getLsbD 30 = true
  lma : s.longMode = (s.eferBit 8 && s.pg)
  pae : s.longMode = true → s.cr4Bit 5 = true
  pcid : s.cr4Bit 17 = true → s.longMode = true
  realCpl : s.pe = false → s.cpl = 0
  realVm : s.pe = false → s.flags.vm = false
  virtCpl : s.flags.vm = true → s.cpl = 3
  longVm : s.longMode = true → s.flags.vm = false

/-! ### Values by integers (00_scope.md R17, 10_state.md R55) -/

/-- The unsigned value of the low `w` bits. -/
def uns (w : Width) (v : Quad) : Nat := v.toNat % 2 ^ w.bits

/-- The signed value of the low `w` bits. -/
def sgn (w : Width) (v : Quad) : Int :=
  if uns w v < 2 ^ (w.bits - 1) then (uns w v : Int) else (uns w v : Int) - 2 ^ w.bits

/-- An integer modulo 2^w. -/
def wrap (w : Width) (n : Int) : Quad := BitVec.ofInt 64 (n % 2 ^ w.bits)

/-- A signed integer fits the width. -/
def fits (w : Width) (n : Int) : Bool := decide (-2 ^ (w.bits - 1) ≤ n) && decide (n < 2 ^ (w.bits - 1))

/-- An even number of ones in the low byte. -/
def evenOnes (n : Nat) : Bool := ((List.range 8).countP fun i => n.testBit i) % 2 == 0

/-- SF, ZF and PF of a w-bit result (10_state.md R55). -/
def valueFlags (f : Flags) (w : Width) (r : Quad) : Flags :=
  { f with sf := decide (2 ^ (w.bits - 1) ≤ uns w r), zf := uns w r == 0, pf := evenOnes (uns w r) }

/-- The flags of `a + b + c` (10_state.md R55): CF and AF by unsigned overflow of the value and of its low nibble, OF by
signed overflow. -/
def sumFlags (f : Flags) (w : Width) (a b : Quad) (c : Bool) : Flags :=
  { valueFlags f w (wrap w (uns w a + uns w b + c.toNat)) with
    cf := decide (2 ^ w.bits ≤ uns w a + uns w b + c.toNat)
    af := decide (16 ≤ uns w a % 16 + uns w b % 16 + c.toNat)
    of := !fits w (sgn w a + sgn w b + c.toNat) }

/-- The flags of `a - b - c` (10_state.md R55): CF and AF by borrows, OF by signed overflow. -/
def diffFlags (f : Flags) (w : Width) (a b : Quad) (c : Bool) : Flags :=
  { valueFlags f w (wrap w (uns w a - uns w b - c.toNat)) with
    cf := decide (uns w a < uns w b + c.toNat)
    af := decide (uns w a % 16 < uns w b % 16 + c.toNat)
    of := !fits w (sgn w a - sgn w b - c.toNat) }

/-- The flags of a logical result (10_state.md R55): AF is a free value. -/
def bitwiseFlags (s : State) (w : Width) (r : Quad) : Flags :=
  { valueFlags s.flags w r with cf := false, of := false, af := Config.freeFlag s.freeCount .af }

/-- Flags that become free values in this state (93_implementation_defined.md U1). -/
def State.freed (s : State) (f : Flags) (l : List Config.FlagName) : Flags := f.undefine s.freeCount l

/-- CF and OF of a multiplication, the other status flags free (43_gp_l_m.md R480, 42_gp_d_j.md R406). -/
def State.productFlags (s : State) (large : Bool) : Flags :=
  s.freed { s.flags with cf := large, of := large } [.sf, .zf, .af, .pf]

/-- A double-width product in AX, or in rDX:rAX (42_gp_d_j.md R406, 43_gp_l_m.md R480). -/
def State.putProduct (s : State) (w : Width) (p : Int) : State :=
  match w with
  | .w8 => s.writeGpr .w16 .rax (wrap .w16 p)
  | _ => (s.writeGpr w .rax (wrap w p)).writeGpr w .rdx (wrap w (p / 2 ^ w.bits))

/-- The double-width dividend, in AX or in rDX:rAX (42_gp_d_j.md R403). -/
def State.unsDividend (s : State) (w : Width) : Nat :=
  match w with
  | .w8 => uns .w16 s.gpr.rax
  | _ => uns w s.gpr.rdx * 2 ^ w.bits + uns w s.gpr.rax

/-- The dividend as a signed integer (42_gp_d_j.md R405). -/
def State.sgnDividend (s : State) (w : Width) : Int :=
  match w with
  | .w8 => sgn .w16 s.gpr.rax
  | _ => sgn w s.gpr.rdx * 2 ^ w.bits + uns w s.gpr.rax

/-- Quotient and remainder in AL and AH, or in rAX and rDX (42_gp_d_j.md R403, R405). -/
def State.putQuotient (s : State) (w : Width) (q r : Int) : State :=
  match w with
  | .w8 => (s.writeGReg .w8 ⟨.rax, false⟩ (wrap .w8 q)).writeGReg .w8 ⟨.rax, true⟩ (wrap .w8 r)
  | _ => (s.writeGpr w .rax (wrap w q)).writeGpr w .rdx (wrap w r)

/-- The condition with code `n` (41_gp_c.md R365): an even code names a condition, the next one its opposite. -/
def condHolds (f : Flags) (n : Nat) : Bool :=
  let base := match n / 2 with
    | 0 => f.of
    | 1 => f.cf
    | 2 => f.zf
    | 3 => f.cf || f.zf
    | 4 => f.sf
    | 5 => f.pf
    | 6 => f.sf != f.of
    | _ => f.zf || f.sf != f.of
  if n % 2 = 0 then base else !base

/-! ### Instructions by the number of their condition (41_gp_c.md R365) -/

/-- CMOVcc. -/
def cmovccs : List (Nat × (Width → Gpr → RM → Instr)) :=
  [(0, .cmovo), (1, .cmovno), (2, .cmovb), (3, .cmovnb), (4, .cmovz), (5, .cmovnz), (6, .cmovbe), (7, .cmovnbe),
   (8, .cmovs), (9, .cmovns), (10, .cmovp), (11, .cmovnp), (12, .cmovl), (13, .cmovnl), (14, .cmovle), (15, .cmovnle)]

/-- SETcc. -/
def setccs : List (Nat × (RM → Instr)) :=
  [(0, .seto), (1, .setno), (2, .setb), (3, .setnb), (4, .setz), (5, .setnz), (6, .setbe), (7, .setnbe), (8, .sets),
   (9, .setns), (10, .setp), (11, .setnp), (12, .setl), (13, .setnl), (14, .setle), (15, .setnle)]

/-- Jcc. -/
def jccs : List (Nat × (Width → Quad → Instr)) :=
  [(0, .jo), (1, .jno), (2, .jb), (3, .jnb), (4, .jz), (5, .jnz), (6, .jbe), (7, .jnbe), (8, .js), (9, .jns), (10, .jp),
   (11, .jnp), (12, .jl), (13, .jnl), (14, .jle), (15, .jnle)]

/-! ### Bit fields and bit strings -/

/-- The positions of the ones of a w-bit value, from the lowest on. -/
def onePositions (w : Width) (v : Quad) : List Nat := (List.range w.bits).filter fun i => v.getLsbD i

/-- A w-bit value with the bits that `p` gives. -/
def ofBits (w : Width) (p : Nat → Bool) : Quad :=
  (List.range w.bits).foldl (fun v i => if p i then v ||| ((1 : Quad) <<< i) else v) 0

/-- The two-operand operations of BMI1 and TBM on w-bit values: the instruction, whether its feature is BMI1, the result,
and CF, by the carry or borrow of its addition (40_gp_a_b.md R315 to R324, 46_gp_t_x.md R630, R633). -/
def bitOps (w : Width) : List ((Gpr → RM → Instr) × Bool × (BitVec w.bits → BitVec w.bits) × (BitVec w.bits → Bool)) :=
  let ones : BitVec w.bits := BitVec.allOnes _
  [(.blcfill w, false, fun v => (v + 1) &&& v, fun v => v == ones), (.blci w, false, fun v => ~~~(v + 1) ||| v, fun v => v == ones),
   (.blcic w, false, fun v => (v + 1) &&& ~~~v, fun v => v == ones), (.blcmsk w, false, fun v => (v + 1) ^^^ v, fun v => v == ones),
   (.blcs w, false, fun v => (v + 1) ||| v, fun v => v == ones), (.blsfill w, false, fun v => (v - 1) ||| v, fun v => v == 0),
   (.blsi w, true, fun v => -v &&& v, fun v => v != 0), (.blsic w, false, fun v => (v - 1) ||| ~~~v, fun v => v == 0),
   (.blsmsk w, true, fun v => (v - 1) ^^^ v, fun v => v == 0), (.blsr w, true, fun v => (v - 1) &&& v, fun v => v == 0),
   (.t1mskc w, false, fun v => (v + 1) ||| ~~~v, fun v => v == ones), (.tzmsk w, false, fun v => (v - 1) &&& ~~~v, fun v => v == 0)]

/-- The bytes of a w-bit value in reverse order, the lowest one first (40_gp_a_b.md R328, 43_gp_l_m.md R471). -/
def swapped (w : Width) (v : Quad) : Quad :=
  BitVec.ofNat 64 ((List.range w.bytes).foldl (fun n i => n * 256 + v.toNat / 256 ^ i % 256) 0)

/-! ### Shifts -/

/-- The masked count of a shift or rotate (45_gp_r_s.md R560). -/
def State.countOf (s : State) (w : Width) (c : ShiftCount) : Nat :=
  (match c with
    | .one => 1
    | .imm v => v.toNat
    | .cl => s.gpr.rcx.toNat % 256) % (if w = .w64 then 64 else 32)

/-- One step of a rotate through the carry to the left (45_gp_r_s.md R561). -/
def rclStep (w : Width) (x : Quad × Bool) : Quad × Bool :=
  (wrap w (2 * uns w x.1 + x.2.toNat), decide (2 ^ (w.bits - 1) ≤ uns w x.1))

/-- One step of a rotate through the carry to the right (45_gp_r_s.md R562). -/
def rcrStep (w : Width) (x : Quad × Bool) : Quad × Bool :=
  (wrap w (uns w x.1 / 2 + x.2.toNat * 2 ^ (w.bits - 1)), decide (uns w x.1 % 2 = 1))

/-- One step of SHL (45_gp_r_s.md R577). -/
def shlStep (w : Width) (x : Quad × Bool) : Quad × Bool :=
  (wrap w (2 * uns w x.1), decide (2 ^ (w.bits - 1) ≤ uns w x.1))

/-- One step of SHR (45_gp_r_s.md R586). -/
def shrStep (w : Width) (x : Quad × Bool) : Quad × Bool := (wrap w (uns w x.1 / 2), decide (uns w x.1 % 2 = 1))

/-- One step of SAR: the sign is kept (45_gp_r_s.md R578). -/
def sarStep (w : Width) (x : Quad × Bool) : Quad × Bool := (wrap w (sgn w x.1 / 2), decide (uns w x.1 % 2 = 1))

/-- A step made `n` times. -/
def times {α : Type} (f : α → α) : Nat → α → α
  | 0, x => x
  | n + 1, x => times f n (f x)

/-- The most significant bit of a w-bit value. -/
def topBit (w : Width) (v : Quad) : Bool := decide (2 ^ (w.bits - 1) ≤ uns w v)

/-- The bit below it. -/
def nextBit (w : Width) (v : Quad) : Bool := v.getLsbD (w.bits - 2)

/-! ### Control transfers -/

/-- The target lies in the code segment, or is canonical in 64-bit mode (20_memory.md R125). -/
def State.targetOk (s : State) (rip : Quad) : Bool :=
  if s.mode64 then s.canonical rip else rip.toNat ≤ s.seg.cs.limit.toNat

/-- A jump to a target from a state whose rIP is rIP_next (42_gp_d_j.md R418). -/
def State.goto (s : State) (rip : Quad) : State := { s with rip }

/-! ### Strings (30_encoding.md R166, R172) -/

/-- A string pointer moved by `n` bytes in the direction that DF gives, at the address size. -/
def State.move (s : State) (asz : ASize) (r : Gpr) (n : Nat) : State :=
  let a := addrWidth asz
  s.writeGpr a r (wrap a (if s.flags.df then (uns a (s.reg r) : Int) - n else uns a (s.reg r) + n))

/-- The string instructions: whether ZF ends a repetition, the instruction by its repeat prefix, and one iteration
(41_gp_c.md R368, 42_gp_d_j.md R409, 43_gp_l_m.md R457, R476, 44_gp_n_p.md R515, 45_gp_r_s.md R581, R592). -/
def stringForms (w : Width) (seg : SegName) (asz : ASize) : List (Bool × (Rep → Instr) × (State → Res State)) :=
  [(true, .cmpsb seg asz, fun t => t.cmps .w8 seg asz), (true, .cmpsv w seg asz, fun t => t.cmps w seg asz),
   (false, .lodsb seg asz, fun t => t.lods .w8 seg asz), (false, .lodsv w seg asz, fun t => t.lods w seg asz),
   (false, .movsb seg asz, fun t => t.movs .w8 seg asz), (false, .movsv w seg asz, fun t => t.movs w seg asz),
   (true, .scasb asz, fun t => t.scas .w8 asz), (true, .scasv w asz, fun t => t.scas w asz),
   (false, .stosb asz, fun t => t.stos .w8 asz), (false, .stosv w asz, fun t => t.stos w asz),
   (false, .insb asz, fun t => t.ins .w8 asz), (false, .insw asz, fun t => t.ins .w16 asz),
   (false, .insd asz, fun t => t.ins .w32 asz), (false, .outsb seg asz, fun t => t.outs .w8 seg asz),
   (false, .outsw seg asz, fun t => t.outs .w16 seg asz), (false, .outsd seg asz, fun t => t.outs .w32 seg asz)]

/-! ### System instructions -/

/-- The code segment that the fast system calls and SKINIT force (52_sys_s_w.md R824, R832 to R835): flat, execute and read,
64-bit or 32-bit, the attributes that are not named zero (91_not_in_source.md N39). -/
def forcedCode (sel : BitVec 16) (dpl : BitVec 2) (long : Bool) : SegReg where
  sel := sel
  base := 0
  limit := 0xFFFFFFFF
  attr := { type := 0b1010, s := true, dpl := dpl, p := true, avl := false, l := long, db := !long, g := false }

/-- The stack segment that they force: flat, read and write (52_sys_s_w.md R824, R832 to R834). -/
def forcedStack (sel : BitVec 16) (dpl : BitVec 2) : SegReg where
  sel := sel
  base := 0
  limit := 0xFFFFFFFF
  attr := { type := 0b0010, s := true, dpl := dpl, p := true, avl := false, l := false, db := true, g := false }

/-- A value in EDX:EAX (10_state.md R45). -/
def State.pair (s : State) (v : Quad) : State :=
  (s.writeGpr .w32 .rax (BitVec.ofNat 64 (v.toNat % 2 ^ 32))).writeGpr .w32 .rdx (BitVec.ofNat 64 (v.toNat / 2 ^ 32))

/-- The model-specific registers of 10_state.md R69 by number: what RDMSR reads, the upper half of SFMASK free; whether
only canonical values are accepted; the bits that must be zero; and the state after a write. -/
def msrTable (s : State) : List (BitVec 32 × Quad × Bool × Quad × (Quad → State)) :=
  let half (v : Quad) : Quad := Config.freeBits s.freeCount 19 32 ++ v.extractLsb' 0 32
  let upper : Quad := 0xFFFFFFFF00000000
  [(0x10, s.msr.tsc, false, 0, fun v => { s with msr := { s.msr with tsc := v } }),
   (0xE7, s.msr.mperf, false, 0, fun v => { s with msr := { s.msr with mperf := v } }),
   (0xE8, s.msr.aperf, false, 0, fun v => { s with msr := { s.msr with aperf := v } }),
   (0x174, s.msr.sysenterCs, false, 0, fun v => { s with msr := { s.msr with sysenterCs := v } }),
   (0x175, s.msr.sysenterEsp, true, 0, fun v => { s with msr := { s.msr with sysenterEsp := v } }),
   (0x176, s.msr.sysenterEip, true, 0, fun v => { s with msr := { s.msr with sysenterEip := v } }),
   (0x6A0, s.cet.uCet, false, 0, fun v => { s with cet := { s.cet with uCet := v } }),
   (0x6A2, s.cet.sCet, false, 0, fun v => { s with cet := { s.cet with sCet := v } }),
   (0x6A4, s.cet.pl0Ssp, true, 3, fun v => { s with cet := { s.cet with pl0Ssp := v } }),
   (0x6A5, s.cet.pl1Ssp, true, 3, fun v => { s with cet := { s.cet with pl1Ssp := v } }),
   (0x6A6, s.cet.pl2Ssp, true, 3, fun v => { s with cet := { s.cet with pl2Ssp := v } }),
   (0x6A7, s.cet.pl3Ssp, true, 3, fun v => { s with cet := { s.cet with pl3Ssp := v } }),
   (0x6A8, s.cet.isstAddr, true, 0, fun v => { s with cet := { s.cet with isstAddr := v } }),
   (0xC0000080, s.ctl.efer, false, s.cfg.eferReserved, fun v =>
     { s with ctl := { s.ctl with efer := if s.ctl.efer.getLsbD 10 then v ||| 0x400 else v &&& ~~~(0x400 : Quad) } }),
   (0xC0000081, s.msr.star, false, 0, fun v => { s with msr := { s.msr with star := v } }),
   (0xC0000082, s.msr.lstar, true, 0, fun v => { s with msr := { s.msr with lstar := v } }),
   (0xC0000083, s.msr.cstar, true, 0, fun v => { s with msr := { s.msr with cstar := v } }),
   (0xC0000084, half s.msr.sfmask, false, upper, fun v => { s with msr := { s.msr with sfmask := v } }),
   (0xC0000100, s.seg.fs.base, true, 0, fun v => { s with seg := { s.seg with fs := { s.seg.fs with base := v } } }),
   (0xC0000101, s.seg.gs.base, true, 0, fun v => { s with seg := { s.seg with gs := { s.seg.gs with base := v } } }),
   (0xC0000102, s.msr.kernelGsBase, true, 0, fun v => { s with msr := { s.msr with kernelGsBase := v } }),
   (0xC0000103, s.msr.tscAux, false, upper, fun v => { s with msr := { s.msr with tscAux := v } }),
   (0xC0000105, s.lwp.cfg, false, 0, fun v => { s with lwp := { s.lwp with cfg := v } }),
   (0xC0000106, s.lwp.cbAddr, false, 0, fun v => { s with lwp := { s.lwp with cbAddr := v } }),
   (0xC0010015, s.msr.hwcr, false, 0, fun v => { s with msr := { s.msr with hwcr := v } }),
   (0xC0010114, s.svm.vmCr, false, 0, fun v => { s with svm := { s.svm with vmCr := v } }),
   (0xC0010117, s.svm.vmHsavePa, false, 0, fun v => { s with svm := { s.svm with vmHsavePa := v } })]

/-- The status flags of the shadow-stack token instructions (50_sys_a_l.md R706). -/
def tokenFlags (f : Flags) (cf : Bool) : Flags :=
  { f with zf := false, pf := false, af := false, of := false, sf := false, cf := cf }

end Sys2Proof.Machine
end

