-- ==== Sys2Proof/Certificates/Slice0/Obligations.lean ====
section
/-! DEFINITION. The statements for the provers. Each says of which rules of spec/ it speaks; `s.start` is the state in which
an instruction's effect begins (00_scope.md R21): rIP is next_RIP, RF and the interrupt shadow are clear. TF = 0 in a
hypothesis leaves the single-step trap to `SingleStepTrap`. -/

open Sys2Proof Sys2Proof.Machine

/-! ### The machine -/

/-- R960 and R962, the column "After RESET", with the default parameters (92_eei_decisions.md section 3). The model's choices in it: the
AVL bit of each segment register, the L bit of the data segments, the DPL, L, D/B and G bits of LDTR and TR, and the address in the
monitor are clear (log 2), and no instruction is in progress (`exec.latch`, log 25). What else R960 does not give is left out. -/
def Obligations.ResetValues : Prop :=
  State.reset.gpr = Gprs.reset 0 ∧ (∀ r, r ≠ .rdx → State.reset.reg r = 0) ∧
  State.reset.reg .rdx = State.reset.cfg.signature.setWidth 64 ∧
  State.reset.rip = 0xFFF0 ∧ State.reset.flags.toBits = 2 ∧
  State.reset.seg.cs = { sel := 0xF000, base := 0xFFFF0000, limit := 0xFFFF, attr := .resetCode } ∧
  (∀ n, n ≠ .cs → State.reset.sreg n = { sel := 0, base := 0, limit := 0xFFFF, attr := .resetData }) ∧
  State.reset.cpl = 0 ∧ State.reset.gdtr = { base := 0, limit := 0xFFFF } ∧
  State.reset.idtr = { base := 0, limit := 0xFFFF } ∧
  State.reset.ldtr = { sel := 0, base := 0, limit := 0xFFFF, attr := .resetSystem 2 } ∧
  State.reset.tr = { sel := 0, base := 0, limit := 0xFFFF, attr := .resetSystem 3 } ∧
  State.reset.ctl = { cr0 := 0x60000010, cr2 := 0, cr3 := 0, cr4 := 0, cr8 := 0, efer := 0 } ∧
  State.reset.dbg = { dr0 := 0, dr1 := 0, dr2 := 0, dr3 := 0, dr6 := 0xFFFF0FF0, dr7 := 0x400 } ∧
  (let m := State.reset.msr;
   m.pat = 0x0007040600070406 ∧ (∀ i : Fin 14, m.perf[i] = 0) ∧
   ∀ v ∈ [m.tsc, m.tscAux, m.mperf, m.aperf, m.star, m.lstar, m.cstar, m.sfmask, m.kernelGsBase, m.sysenterCs, m.sysenterEsp,
     m.sysenterEip, m.hwcr], v = 0) ∧
  State.reset.cet = { ssp := 0, uCet := 0, sCet := 0, pl0Ssp := 0, pl1Ssp := 0, pl2Ssp := 0, pl3Ssp := 0, isstAddr := 0 } ∧
  State.reset.pkru = 0 ∧ State.reset.xcr0 = 1 ∧ State.reset.svm.gif = true ∧ State.reset.svm.vmCr = 0 ∧
  State.reset.svm.vmHsavePa = 0 ∧
  State.reset.exec =
    { activity := .running, shadow := .none, monitor := { armed := false, addr := 0 }, nmiBlocked := false, latch := [] } ∧
  State.reset.media.fcw = 0x40 ∧
  State.reset.media.fsw = 0 ∧ State.reset.media.ftw = 0x5555 ∧ State.reset.media.mxcsr = 0x1F80 ∧
  (∀ x, State.reset.ymm x = 0) ∧ State.reset.lwp.cbAddr = 0 ∧ State.reset.realMode = true

/-- The state after reset meets the invariants of `StepKeepsMemory` and `StepKeepsLegalMode`; that an unlisted byte reads 0
is the model's choice (log 3). -/
def Obligations.ResetMeetsInvariants : Prop :=
  State.reset.memOk ∧ State.reset.etOk ∧ State.reset.LegalMode

/-- Every step keeps memory in its canonical form and the hard-wired bit ET of CR0 set, from every state that meets both,
reachable or not. -/
def Obligations.StepKeepsMemory : Prop :=
  ∀ s t : State, s.memOk → s.etOk → step s = .next t → t.memOk ∧ t.etOk

/-- Every step of a processor without SVM keeps the mode a legal one, from every state that meets the invariant. -/
def Obligations.StepKeepsLegalMode : Prop :=
  ∀ s t : State, s.LegalMode → step s = .next t → t.LegalMode

/-- Decoding the encoding of a well-formed arithmetic-logic instruction, with any bytes after it, gives it back with its
length, in every mode and for every operand form. -/
def Obligations.AluDecodeEncode : Prop :=
  ∀ (c : Ctx) (w : Width) (f : AluForm) (lock : Bool) (rest : List Byte),
    ∀ i ∈ [Instr.add w f (lock && formWritesMem f), .or w f (lock && formWritesMem f), .adc w f (lock && formWritesMem f),
      .sbb w f (lock && formWritesMem f), .and w f (lock && formWritesMem f), .sub w f (lock && formWritesMem f),
      .xor w f (lock && formWritesMem f), .cmp w f],
    wellFormed c i = true → decode c (encode c i ++ rest) = .ok (i, (encode c i).length)

/-- The same for every instruction of every map that has an encoding in the context, whatever its operands: moves, shifts, string
and stack instructions, control transfers, the secondary maps, VEX and XOP forms and the system instructions. Prefix runs and the
code points of other volumes are not well-formed (`ReservedCodePoints` speaks of them). That an encoding has at most 15 bytes is
the fetch's concern. -/
def Obligations.InstrDecodeEncode : Prop :=
  ∀ (c : Ctx) (i : Instr) (rest : List Byte),
    wellFormed c i = true → decode c (encode c i ++ rest) = .ok (i, (encode c i).length)

/-- A step whose next event is none and whose bytes at rIP decode to `i` is `exec` of `i`, at the state one tick later with
next_RIP past the instruction (00_scope.md R18, R21). A repeated string instruction in progress runs the bytes it was fetched with
(20_memory.md R145): they stand in `exec.latch` (the model's own field, log 25), which is empty otherwise; the bytes of `i` are
put there, and an instruction that does not repeat empties it. -/
def Obligations.StepRunsDecodedInstruction : Prop :=
  ∀ (s : State) (bs : List Byte) (e : Option Trap) (i : Instr) (len : Nat),
    s.tick.pending = .none → s.exec.activity = .running →
    (if s.exec.latch = [] then s.tick.fetchBytes 15 s.rip else (s.exec.latch, none)) = (bs, e) →
    decode s.tick.ctx bs = .ok (i, len) →
    step s = exec i { s.tick with
      nextRip := if s.mode64 then s.rip + BitVec.ofNat 64 len else trunc .w32 (s.rip + BitVec.ofNat 64 len)
      exec := { s.exec with latch := bs.take len } }

/-- A step that runs no instruction. In the order of R932, by the inputs and the state before it: RESET leaves the state of R960
(column "After RESET") with memory, the devices and the parameters kept; INIT that of its column "After INIT" (R963); an SMI ends in the refusal
`systemManagement` (D43); an NMI and an interrupt are delivered with the rIP of the next instruction, which ends the monitor. With
no event a halted processor waits, and bytes that are no instruction raise #UD (R905). The model's choices: the inputs are data of the
state, each cleared when it is taken (log 38), a halted or shut-down processor answers a next state (log 37), INIT
sets GIF and keeps the rest of the SVM state (log 21), and the values of `State.reset` that R960 does not give (log 2, log 25). -/
def Obligations.StepOtherwise : Prop :=
  ∀ (s t : State),
    let live : Prop := s.exec.activity ≠ .shutdown;
    let reset : Prop := s.pins.reset = true;
    let init : Prop := s.pins.init = true ∧ s.svm.gif = true;
    let smi : Prop := live ∧ s.pins.smi = true ∧ s.svm.gif = true;
    let nmi : Prop := live ∧ s.pins.nmi = true ∧ s.svm.gif = true ∧ s.exec.nmiBlocked = false ∧ s.exec.shadow ≠ .ss;
    let intr (v : Byte) : Prop := live ∧ s.pins.intr = some v ∧ s.svm.gif = true ∧ s.flags.fi = true ∧ s.exec.shadow = .none ∧
      s.ctl.cr8.toNat % 16 < v.toNat / 16;
    let quiet : Prop := ¬reset ∧ ¬init ∧ ¬smi ∧ ¬nmi ∧ ∀ v, ¬intr v;
    let unarmed : ExecState := { s.exec with monitor := { s.exec.monitor with armed := false } };
    let event (v : Byte) : Event := { vector := v, kind := .external, savedRip := s.rip, oldRip := s.rip };
    let noNmi : State := { s.tick with pins := { s.pins with nmi := false }, exec := unarmed };
    let noIntr : State := { s.tick with pins := { s.pins with intr := none }, exec := unarmed };
    (reset → step s = .next { State.reset with
      gpr := Gprs.reset s.cfg.signature
      pins := { s.pins with reset := false }
      devices := s.devices
      mem := s.mem
      freeCount := s.freeCount + 1
      cfg := s.cfg }) ∧
    (¬reset → init → step s = .next { s.tick with
      gpr := Gprs.reset s.cfg.signature
      rip := State.reset.rip
      flags := State.reset.flags
      seg := State.reset.seg
      cpl := 0
      gdtr := State.reset.gdtr
      idtr := State.reset.idtr
      ldtr := State.reset.ldtr
      tr := State.reset.tr
      ctl := { State.reset.ctl with cr0 := BitVec.ofNat 64 (s.ctl.cr0.toNat / 2 ^ 29 % 4 * 2 ^ 29 + 16) }
      dbg := State.reset.dbg
      cet := State.reset.cet
      pkru := 0
      svm := { s.svm with gif := true }
      lwp := State.reset.lwp
      exec := State.reset.exec
      pins := { s.pins with init := false } }) ∧
    (¬reset → ¬init → smi → step s = .refused .systemManagement) ∧
    (¬reset → ¬init → ¬smi → nmi →
      step s = noNmi.take (event 2) ∧ (noNmi.deliverOnce (event 2) = .ok t → step s = .next t)) ∧
    (∀ v, ¬reset → ¬init → ¬smi → ¬nmi → intr v →
      step s = noIntr.take (event v) ∧ (noIntr.deliverOnce (event v) = .ok t → step s = .next t)) ∧
    (quiet → s.tick.pending = .none) ∧
    (quiet → s.exec.activity ≠ .running → step s = .next s.tick) ∧
    (∀ bs e, quiet → s.exec.activity = .running →
      (if s.exec.latch = [] then s.tick.fetchBytes 15 s.rip else (s.exec.latch, none)) = (bs, e) →
      ∀ why, why ≠ .truncated → decode s.tick.ctx bs = .error why → step s = s.tick.raise { name := .ud })

/-- Bytes written out from the spec's encodings decode to the instruction they stand for (30_encoding.md R175 to R181,
31_opcode_maps.md R233). -/
def Obligations.WordsDecode : Prop :=
  decode Ctx.long64 [0x48, 0x01, 0xD8] = .ok (.add .w64 (.rmReg (.reg ⟨.rax, false⟩) ⟨.rbx, false⟩) false, 3) ∧
  decode Ctx.long64 [0x8B, 0x44, 0x88, 0xFC] =
    .ok (.mov (.regRm .w32 ⟨.rax, false⟩ (.mem ⟨.ds, .reg .rax, some ⟨.rcx, 2⟩, -4, .a64⟩)), 4) ∧
  decode Ctx.real16 [0x74, 0xFE] = .ok (.jz .w16 (-2), 2) ∧
  decode Ctx.real16 [0xCD, 0x21] = .ok (.int 0x21, 2) ∧
  decode Ctx.long64 [0x41, 0x0F, 0xC8] = .ok (.bswap .w32 .r8, 3) ∧
  decode Ctx.prot32 [0xF3, 0xA5] = .ok (.movsv .w32 .ds .a32 .repe, 2)

/-! ### Registers, memory and operands -/

/-- R45: what a write of each width leaves in each register, for a low and for a high byte register, and R42: what a read
gives. -/
def Obligations.RegisterWritesByWidth : Prop :=
  ∀ (s : State) (r q : Gpr) (v : Quad),
    (s.writeGReg .w64 ⟨r, false⟩ v).reg r = v ∧
    (s.writeGReg .w32 ⟨r, false⟩ v).reg r = (v.extractLsb' 0 32).setWidth 64 ∧
    (s.writeGReg .w16 ⟨r, false⟩ v).reg r = (s.reg r).extractLsb' 16 48 ++ v.extractLsb' 0 16 ∧
    (s.writeGReg .w8 ⟨r, false⟩ v).reg r = (s.reg r).extractLsb' 8 56 ++ v.extractLsb' 0 8 ∧
    (s.writeGReg .w8 ⟨r, true⟩ v).reg r = (s.reg r).extractLsb' 16 48 ++ v.extractLsb' 0 8 ++ (s.reg r).extractLsb' 0 8 ∧
    (∀ w g, g.r ≠ q → (s.writeGReg w g v).reg q = s.reg q) ∧
    (∀ w g, ∃ x, s.writeGReg w g v = s.setReg g.r x) ∧
    (∀ w, (s.readGReg w ⟨r, false⟩).toNat = (s.reg r).toNat % 2 ^ w.bits) ∧
    s.readGReg .w8 ⟨r, true⟩ = ((s.reg r).extractLsb' 8 8).setWidth 64

/-- R100: memory is little-endian, a store of `n` bytes at `a` puts byte `i` of the value at `a + i` and leaves every other
byte alone, and a load of them gives the value back. -/
def Obligations.MemoryIsLittleEndian : Prop :=
  ∀ (s : State) (a n v : Nat), s.memOk →
    (∀ i, i < n → Memory.read (s.storeAt (physRange a n) v).mem (a + i) = BitVec.ofNat 8 (v / 256 ^ i)) ∧
    (∀ b, b < a ∨ a + n ≤ b → Memory.read (s.storeAt (physRange a n) v).mem b = Memory.read s.mem b) ∧
    (s.storeAt (physRange a n) v).loadAt (physRange a n) = v % 256 ^ n ∧
    (s.storeAt (physRange a n) v).memOk ∧
    s.storeAt (physRange a n) v = { s with mem := (s.storeAt (physRange a n) v).mem }

/-- R105, R107: without paging and alignment checks a segmented access of `n` bytes that passes its checks has the
consecutive addresses from the linear address on, modulo 2^32 outside 64-bit mode; a violation raises #SS(0) through SS and
#GP(0) through the others. R180, R181: the effective address is base plus scaled index plus displacement, modulo 2 to the
address size; a base of rIP is the address of the next instruction. -/
def Obligations.OperandAddress : Prop :=
  (∀ (s : State) (seg : SegName) (off : Quad) (n : Nat) (write : Bool),
     s.cfg.paging = .identity → s.acEnabled = false → 0 < n →
     (s.mode64 = true → s.canonical off = true → s.canonical (off + BitVec.ofNat 64 (n - 1)) = true →
       (s.linear seg off).toNat + n ≤ 2 ^ 64 → (∀ i < n, (s.linear seg off).toNat + i < 2 ^ s.cfg.physAddrBits) →
       s.access seg off n write = .ok (physRange (s.linear seg off).toNat n)) ∧
     (s.mode64 = true → s.canonical off = false → s.access seg off n write = .error (if seg = .ss then ss0 else gp0)) ∧
     (s.mode64 = false → (s.sreg seg).inLimit off n = true →
       (s.protMode = true → isNull (s.sreg seg).sel = false ∧
         (if write then (s.sreg seg).attr.writable else (s.sreg seg).attr.readable) = true) →
       (∀ i < n, ((s.linear seg off).toNat + i) % 2 ^ 32 < 2 ^ s.cfg.physAddrBits) →
       s.access seg off n write = .ok ((List.range n).map fun i => ((s.linear seg off).toNat + i) % 2 ^ 32)) ∧
     (s.mode64 = false → (s.sreg seg).inLimit off n = false → (s.protMode = true → isNull (s.sreg seg).sel = false) →
       s.access seg off n write = .error (if seg = .ss then ss0 else gp0)) ∧
     (s.mode64 = false → s.protMode = true → isNull (s.sreg seg).sel = true → s.access seg off n write = .error gp0) ∧
     (s.mode64 = false → s.protMode = true → isNull (s.sreg seg).sel = false → (s.sreg seg).inLimit off n = true →
       (if write then (s.sreg seg).attr.writable else (s.sreg seg).attr.readable) = false →
       s.access seg off n write = .error gp0)) ∧
  (∀ (s : State) (m : Mem),
     (s.ea m).toNat =
       ((match m.base with
         | .none => 0
         | .reg r => (s.reg r).toNat
         | .rip => s.rip.toNat) +
        (match m.index with
         | none => 0
         | some i => (s.reg i.r).toNat * 2 ^ i.scale.toNat) +
        m.disp.toNat) % 2 ^ m.asz.bits)

/-- R365: the sixteen condition codes by their number, which the low four bits of the opcodes of Jcc, SETcc and CMOVcc give. -/
def Obligations.ConditionCodes : Prop :=
  (∀ f : Flags, [Cond.o, .no, .b, .nb, .z, .nz, .be, .nbe, .s, .ns, .p, .np, .l, .nl, .le, .nle].map f.cond =
    (List.range 16).map (condHolds f)) ∧
  ∀ c : Ctx,
    (∀ x ∈ jccs, decode c [BitVec.ofNat 8 (0x70 + x.1), 0xFE] =
      .ok (x.2 (if c.mode64 then .w64 else if c.d32 then .w32 else .w16) (-2), 2)) ∧
    (∀ x ∈ setccs, decode c [0x0F, BitVec.ofNat 8 (0x90 + x.1), 0xC0] = .ok (x.2 (.reg ⟨.rax, false⟩), 3)) ∧
    (∀ x ∈ cmovccs, decode c [0x0F, BitVec.ofNat 8 (0x40 + x.1), 0xC1] =
      .ok (x.2 (if c.mode64 || c.d32 then .w32 else .w16) .rax (.reg ⟨.rcx, false⟩), 3))
/-! ### Arithmetic and logic -/

/-- ADD and ADC (R308, R306, R55): the sum of the operands, and of CF for ADC, at the destination, with the six status
flags; for every operand form and width, when the operands can be accessed and LOCK is legal. ADCX and ADOX (R307, R309): the
unsigned sum with CF, or with OF, which takes its carry; no other flag changes. -/
def Obligations.AddResult : Prop :=
  (∀ (s : State) (w : Width) (f : AluForm) (lock : Bool) (p : Place) (a b : Quad),
     s.flags.tf = false → (lock = true → formWritesMem f = true) → s.start.aluOperands w true f = .ok (p, a, b) →
     exec (.add w f lock) s =
       .next ((s.start.putAt w p (wrap w (uns w a + uns w b))).setFlags (sumFlags s.start.flags w a b false)) ∧
     exec (.adc w f lock) s =
       .next ((s.start.putAt w p (wrap w (uns w a + uns w b + s.flags.cf.toNat))).setFlags
         (sumFlags s.start.flags w a b s.flags.cf))) ∧
  (∀ (s : State) (w : Width) (dst : Gpr) (src : RM) (b : Quad),
     s.flags.tf = false → s.feat.adx = true → s.start.readRM w src = .ok b →
     (let n := uns w (s.reg dst) + uns w b + s.flags.cf.toNat;
       exec (.adcx w dst src) s =
         .next ((s.start.writeGpr w dst (wrap w n)).setFlags { s.start.flags with cf := decide (2 ^ w.bits ≤ n) })) ∧
     (let n := uns w (s.reg dst) + uns w b + s.flags.of.toNat;
       exec (.adox w dst src) s =
         .next ((s.start.writeGpr w dst (wrap w n)).setFlags { s.start.flags with of := decide (2 ^ w.bits ≤ n) })))

/-- SUB, SBB and CMP (R593, R580, R367, R55): the difference, less CF for SBB; CMP writes the flags only. -/
def Obligations.SubSbbCmpResult : Prop :=
  ∀ (s : State) (w : Width) (f : AluForm) (lock : Bool) (p : Place) (a b : Quad),
    s.flags.tf = false →
    ((lock = true → formWritesMem f = true) → s.start.aluOperands w true f = .ok (p, a, b) →
      exec (.sub w f lock) s =
        .next ((s.start.putAt w p (wrap w (uns w a - uns w b))).setFlags (diffFlags s.start.flags w a b false)) ∧
      exec (.sbb w f lock) s =
        .next ((s.start.putAt w p (wrap w (uns w a - uns w b - s.flags.cf.toNat))).setFlags
          (diffFlags s.start.flags w a b s.flags.cf))) ∧
    (s.start.aluOperands w false f = .ok (p, a, b) →
      exec (.cmp w f) s = .next (s.start.setFlags (diffFlags s.start.flags w a b false)))

/-- AND, OR, XOR and TEST (R310, R513, R639, R631, R55): bit by bit, with CF and OF clear and AF free; TEST writes the flags
only, takes a register or an immediate, and only reads a memory operand. -/
def Obligations.BitwiseResult : Prop :=
  (∀ (s : State) (w : Width) (f : AluForm) (lock : Bool) (p : Place) (a b : Quad),
     s.flags.tf = false → (lock = true → formWritesMem f = true) → s.start.aluOperands w true f = .ok (p, a, b) →
     let result (n : Nat) : Host.Outcome State Fault Refusal :=
       .next ((s.start.putAt w p (wrap w n)).setFlags (bitwiseFlags s.start w (wrap w n)))
     exec (.and w f lock) s = result (uns w a &&& uns w b) ∧ exec (.or w f lock) s = result (uns w a ||| uns w b) ∧
     exec (.xor w f lock) s = result (uns w a ^^^ uns w b)) ∧
  (∀ (s : State) (w : Width) (rm : RM) (r : GReg) (imm a : Quad),
     s.flags.tf = false → s.start.readRM w rm = .ok a →
     exec (.test w rm (.reg r)) s =
       .next (s.start.setFlags (bitwiseFlags s.start w (wrap w (uns w a &&& uns w (s.start.readGReg w r) : Nat)))) ∧
     exec (.test w rm (.imm imm)) s =
       .next (s.start.setFlags (bitwiseFlags s.start w (wrap w (uns w a &&& uns w imm : Nat)))))

/-- INC, DEC, NEG and NOT (R408, R402, R510, R512): INC and DEC keep CF, NEG sets CF unless the operand is 0, NOT changes no
flag. -/
def Obligations.IncDecNegNotResult : Prop :=
  ∀ (s : State) (w : Width) (rm : RM) (lock : Bool) (p : Place),
    s.flags.tf = false → (lock = true → RM.isMem rm = true) → s.start.place w true rm = .ok p →
    let a := s.start.getAt w p;
    exec (.inc w rm lock) s = .next ((s.start.putAt w p (wrap w (uns w a + 1))).setFlags
      { sumFlags s.start.flags w a 1 false with cf := s.flags.cf }) ∧
    exec (.dec w rm lock) s = .next ((s.start.putAt w p (wrap w (uns w a - 1))).setFlags
      { diffFlags s.start.flags w a 1 false with cf := s.flags.cf }) ∧
    exec (.neg w rm lock) s = .next ((s.start.putAt w p (wrap w (-uns w a))).setFlags
      { diffFlags s.start.flags w 0 a false with cf := uns w a != 0 }) ∧
    exec (.not w rm lock) s = .next ((s.start.putAt w p (wrap w (2 ^ w.bits - 1 - uns w a))).setFlags s.start.flags)

/-- MUL, IMUL and MULX (R480, R406, R481): the exact product at twice the width, or its low half; CF and OF say that the
half width does not hold it, the other status flags are free, and MULX changes none. -/
def Obligations.MultiplyResult : Prop :=
  ∀ (s : State) (w : Width) (rm : RM) (dst hi lo : Gpr) (imm b : Quad),
    s.flags.tf = false → s.start.readRM w rm = .ok b →
    (let p : Int := uns w s.gpr.rax * uns w b;
      exec (.mul w rm) s = .next ((s.start.putProduct w p).setFlags (s.start.productFlags (decide (2 ^ w.bits ≤ p))))) ∧
    (let p : Int := sgn w s.gpr.rax * sgn w b;
      exec (.imul w (.acc rm)) s = .next ((s.start.putProduct w p).setFlags (s.start.productFlags (!fits w p)))) ∧
    (let p : Int := sgn w (s.reg dst) * sgn w b;
      exec (.imul w (.regRm dst rm)) s =
        .next ((s.start.writeGpr w dst (wrap w p)).setFlags (s.start.productFlags (!fits w p)))) ∧
    (let p : Int := sgn w b * sgn w imm;
      exec (.imul w (.regRmImm dst rm imm)) s =
        .next ((s.start.writeGpr w dst (wrap w p)).setFlags (s.start.productFlags (!fits w p)))) ∧
    (s.protMode = true → s.feat.bmi2 = true →
      let p : Int := uns w s.gpr.rdx * uns w b;
      exec (.mulx w hi lo rm) s = .next ((s.start.writeGpr w lo (wrap w p)).writeGpr w hi (wrap w (p / 2 ^ w.bits))))

/-- DIV and IDIV (R403, R405): quotient, truncated towards zero, and remainder of the double-width dividend, with every
status flag free; a divisor of 0 and a quotient that does not fit raise #DE. -/
def Obligations.DivideResult : Prop :=
  ∀ (s : State) (w : Width) (rm : RM) (d : Quad),
    s.flags.tf = false → s.start.readRM w rm = .ok d →
    (let n := s.unsDividend w;
      exec (.div w rm) s =
        if uns w d = 0 ∨ 2 ^ w.bits ≤ n / uns w d then s.raise { name := .de }
        else .next ((s.start.putQuotient w (n / uns w d : Nat) (n % uns w d : Nat)).setFlags
          (s.start.freed s.start.flags [.of, .sf, .zf, .af, .pf, .cf]))) ∧
    (let n := s.sgnDividend w;
      exec (.idiv w rm) s =
        if sgn w d = 0 ∨ fits w (n.tdiv (sgn w d)) = false then s.raise { name := .de }
        else .next ((s.start.putQuotient w (n.tdiv (sgn w d)) (n.tmod (sgn w d))).setFlags
          (s.start.freed s.start.flags [.of, .sf, .zf, .af, .pf, .cf])))

/-- XADD, XCHG and CMPXCHG (R636, R637, R369): the exchange with its sum, the exchange, and the exchange on equality with
the accumulator, which takes the destination otherwise; memory is written in both cases. CMPXCHG8B and CMPXCHG16B (R370): the
double-width comparison with rDX:rAX; ZF tells, and no other flag changes; a 16-byte operand must be aligned. -/
def Obligations.ExchangeResult : Prop :=
  (∀ (s : State) (w : Width) (rm : RM) (r : GReg) (lock : Bool) (p : Place),
     s.flags.tf = false → (lock = true → RM.isMem rm = true) → s.start.place w true rm = .ok p →
     let old := s.start.getAt w p;
     let src := s.start.readGReg w r;
     exec (.xadd w rm r lock) s =
       .next (((s.start.writeGReg w r old).putAt w p (wrap w (uns w old + uns w src))).setFlags
         (sumFlags s.start.flags w old src false)) ∧
     exec (.xchg w rm r lock) s = .next ((s.start.putAt w p src).writeGReg w r old) ∧
     exec (.cmpxchg w rm r lock) s =
       .next ((if uns w s.gpr.rax = uns w old then s.start.putAt w p src
         else
           match p with
           | .mem ps => (s.start.putAt w (.mem ps) old).writeGpr w .rax old
           | .reg _ => s.start.writeGpr w .rax old).setFlags
         (diffFlags s.start.flags w s.gpr.rax old false))) ∧
  (∀ (s : State) (m : Mem) (lock : Bool) (ps : List Nat), s.flags.tf = false →
     (s.feat.cmpxchg8b = true →
       s.start.accessParts (if m.seg = .ss then ss0 else gp0) m.seg (s.start.ea m) 8 4 true = .ok ps →
       exec (.cmpxchg8b m lock) s =
         if uns .w32 s.gpr.rdx * 2 ^ 32 + uns .w32 s.gpr.rax = s.loadAt ps then
           .next ((s.start.storeAt ps (uns .w32 s.gpr.rcx * 2 ^ 32 + uns .w32 s.gpr.rbx)).setFlags
             { s.start.flags with zf := true })
         else
           .next ((((s.start.storeAt ps (s.loadAt ps)).writeGpr .w32 .rdx (wrap .w32 (s.loadAt ps / 2 ^ 32 : Nat))).writeGpr
             .w32 .rax (wrap .w32 (s.loadAt ps))).setFlags { s.start.flags with zf := false })) ∧
     (s.feat.cmpxchg16b = true → (s.start.linear m.seg (s.start.ea m)).toNat % 16 = 0 →
       s.start.access m.seg (s.start.ea m) 16 true = .ok ps →
       exec (.cmpxchg16b m lock) s =
         if s.gpr.rdx.toNat * 2 ^ 64 + s.gpr.rax.toNat = s.loadAt ps then
           .next ((s.start.storeAt ps (s.gpr.rcx.toNat * 2 ^ 64 + s.gpr.rbx.toNat)).setFlags
             { s.start.flags with zf := true })
         else
           .next ((((s.start.storeAt ps (s.loadAt ps)).writeGpr .w64 .rdx (wrap .w64 (s.loadAt ps / 2 ^ 64 : Nat))).writeGpr
             .w64 .rax (wrap .w64 (s.loadAt ps))).setFlags { s.start.flags with zf := false })) ∧
     (s.feat.cmpxchg16b = true → (s.start.linear m.seg (s.start.ea m)).toNat % 16 ≠ 0 →
       exec (.cmpxchg16b m lock) s = s.raise { name := .gp, code := some 0 }))

/-- The accumulator's sign extensions (R356, R357): within rAX, or into rDX. -/
def Obligations.SignExtendAccumulator : Prop :=
  ∀ s : State, s.flags.tf = false →
    exec .cbw s = .next (s.start.writeGpr .w16 .rax (wrap .w16 (sgn .w8 s.gpr.rax))) ∧
    exec .cwde s = .next (s.start.writeGpr .w32 .rax (wrap .w32 (sgn .w16 s.gpr.rax))) ∧
    exec .cdqe s = .next (s.start.writeGpr .w64 .rax (wrap .w64 (sgn .w32 s.gpr.rax))) ∧
    exec .cwd s = .next (s.start.writeGpr .w16 .rdx (wrap .w16 (if sgn .w16 s.gpr.rax < 0 then -1 else 0))) ∧
    exec .cdq s = .next (s.start.writeGpr .w32 .rdx (wrap .w32 (if sgn .w32 s.gpr.rax < 0 then -1 else 0))) ∧
    exec .cqo s = .next (s.start.writeGpr .w64 .rdx (wrap .w64 (if sgn .w64 s.gpr.rax < 0 then -1 else 0)))

/-- AAD and AAM (R303, R304) outside 64-bit mode: AX from AH, AL and the base byte, SF, ZF and PF by AL, OF, AF and CF free;
AAM raises #DE for a base of 0; in 64-bit mode both raise #UD, and no bytes decode to them. -/
def Obligations.AsciiAdjustDivide : Prop :=
  ∀ (s : State) (base : Byte), s.flags.tf = false →
    (s.mode64 = false →
      let ah := s.gpr.rax.toNat / 256 % 256;
      let al := s.gpr.rax.toNat % 256;
      let adjusted (h l : Nat) : Host.Outcome State Fault Refusal :=
        .next ((s.start.writeGpr .w16 .rax (BitVec.ofNat 64 (256 * h + l))).setFlags
          (s.start.freed (valueFlags s.start.flags .w8 (BitVec.ofNat 64 l)) [.of, .af, .cf]))
      exec (.aad base) s = adjusted 0 ((base.toNat * ah + al) % 256) ∧
      (base ≠ 0 → exec (.aam base) s = adjusted (al / base.toNat) (al % base.toNat)) ∧
      (base = 0 → exec (.aam base) s = s.raise { name := .de })) ∧
    (s.mode64 = true → exec (.aad base) s = s.raise { name := .ud } ∧ exec (.aam base) s = s.raise { name := .ud }) ∧
    (∀ c : Ctx, c.mode64 = false →
      decode c [0xD5, base] = .ok (.aad base, 2) ∧ decode c [0xD4, base] = .ok (.aam base, 2)) ∧
    (∀ c : Ctx, ∀ n, c.mode64 = true → decode c [0xD5, base] ≠ .ok (.aad base, n) ∧
      decode c [0xD4, base] ≠ .ok (.aam base, n))

/-- AAA, AAS, DAA and DAS (R302, R305, R400, R401) outside 64-bit mode: the adjustment of the low nibble moves AH for AAA and
AAS, that of the high digit belongs to DAA and DAS; in 64-bit mode they raise #UD. -/
def Obligations.DecimalAdjust : Prop :=
  ∀ s : State, s.flags.tf = false →
    (s.mode64 = false →
      let ah : Int := s.gpr.rax.toNat / 256 % 256;
      let al : Int := s.gpr.rax.toNat % 256;
      let low := decide (9 < al % 16) || s.flags.af;
      let high := decide (0x99 < al) || s.flags.cf;
      let ascii (d : Int) : Host.Outcome State Fault Refusal :=
        .next ((s.start.writeGpr .w16 .rax (wrap .w16
          (if low then 256 * ((ah + d) % 256) + (al + 6 * d) % 16 else 256 * ah + al % 16))).setFlags
          (s.start.freed { s.start.flags with cf := low, af := low } [.of, .sf, .zf, .pf]))
      let packed (d : Int) : Host.Outcome State Fault Refusal :=
        let r := wrap .w8 (al + (if low then 6 * d else 0) + (if high then 0x60 * d else 0));
        .next ((s.start.writeGpr .w8 .rax r).setFlags
          (s.start.freed (valueFlags { s.start.flags with af := low, cf := high } .w8 r) [.of]))
      exec .aaa s = ascii 1 ∧ exec .aas s = ascii (-1) ∧ exec .daa s = packed 1 ∧ exec .das s = packed (-1)) ∧
    (s.mode64 = true → ∀ i ∈ [Instr.aaa, .aas, .daa, .das], exec i s = s.raise { name := .ud })

/-! ### Bits, shifts and rotates -/

/-- BSF, BSR, LZCNT, TZCNT and POPCNT (R326, R327, R461, R632, R525), by the positions of the ones of the source: a scan of 0
sets ZF and keeps the destination (U7, log 20); LZCNT and TZCNT without their feature are BSR and BSF. CRC32 (R372): the reflected CRC-32C of
the accumulator and the source, one bit after the other, the lowest first. -/
def Obligations.BitScanAndCrcResult : Prop :=
  (∀ (s : State) (w : Width) (dst : Gpr) (src : RM) (v : Quad),
     s.flags.tf = false → s.start.readRM w src = .ok v →
     let ones := onePositions w v;
     let scan (l : List Nat) : Host.Outcome State Fault Refusal :=
       match l with
       | [] => .next (s.start.setFlags (s.start.freed { s.start.flags with zf := true } [.of, .sf, .af, .pf, .cf]))
       | n :: _ => .next ((s.start.writeGpr w dst (BitVec.ofNat 64 n)).setFlags
           (s.start.freed { s.start.flags with zf := false } [.of, .sf, .af, .pf, .cf]))
     let count (n : Nat) : Host.Outcome State Fault Refusal :=
       .next ((s.start.writeGpr w dst (BitVec.ofNat 64 n)).setFlags
         (s.start.freed { s.start.flags with zf := n == 0, cf := n == w.bits } [.of, .sf, .af, .pf]))
     exec (.bsf w dst src) s = scan ones ∧ exec (.bsr w dst src) s = scan ones.reverse ∧
     (s.feat.abm = true → exec (.lzcnt w dst src) s = count (w.bits - (ones.reverse.map (· + 1)).headD 0)) ∧
     (s.feat.abm = false → exec (.lzcnt w dst src) s = scan ones.reverse) ∧
     (s.feat.bmi1 = true → exec (.tzcnt w dst src) s = count (ones.headD w.bits)) ∧
     (s.feat.bmi1 = false → exec (.tzcnt w dst src) s = scan ones) ∧
     (s.feat.popcnt = true → exec (.popcnt w dst src) s =
       .next ((s.start.writeGpr w dst (BitVec.ofNat 64 ones.length)).setFlags
         { s.start.flags with zf := ones.isEmpty, of := false, sf := false, af := false, pf := false, cf := false }))) ∧
  (∀ (s : State) (w : Width) (wide : Bool) (dst : Gpr) (src : RM) (b : Quad),
     s.flags.tf = false → s.feat.sse42 = true → s.start.readRM w src = .ok b →
     let fold (x : Nat) : Nat := if x % 2 = 1 then x / 2 ^^^ 0x82F63B78 else x / 2;
     let crc := (List.range w.bits).foldl (fun acc i => fold (acc ^^^ (b.getLsbD i).toNat)) (uns .w32 (s.reg dst));
     exec (.crc32 w wide dst src) s = .next (s.start.writeGpr .w64 dst (BitVec.ofNat 64 crc)))

/-- ANDN, BEXTR, BZHI, PDEP, PEXT and the twelve two-operand operations of BMI1 and TBM (R311 to R324, R334, R517, R518, R630,
R633): the result, with its flags; PDEP and PEXT change none. RORX, SARX, SHLX and SHRX (R575, R579, R585, R588): the shifted
source in the destination, and no flag changes. -/
def Obligations.BitManipulationResult : Prop :=
  (∀ (s : State) (w : Width) (dst a : Gpr) (src : RM) (imm : BitVec 32) (v : Quad),
     s.flags.tf = false → s.protMode = true → (w = .w32 ∨ w = .w64) → s.start.readRM w src = .ok v →
     let done (r : Quad) (cf : Bool) : Host.Outcome State Fault Refusal :=
       .next ((s.start.writeGpr w dst r).setFlags
         (s.start.freed { valueFlags s.start.flags w r with of := false, cf := cf } [.af, .pf]))
     let field (c : Nat) : Host.Outcome State Fault Refusal :=
       let r : Nat := uns w v / 2 ^ (c % 256) % 2 ^ (c / 256 % 256);
       .next ((s.start.writeGpr w dst (BitVec.ofNat 64 r)).setFlags
         (s.start.freed { s.start.flags with of := false, cf := false, zf := r == 0 } [.sf, .af, .pf]))
     (∀ x ∈ bitOps w, (if x.2.1 then s.feat.bmi1 else s.feat.tbm) = true →
       exec (x.1 dst src) s = done ((x.2.2.1 (v.setWidth w.bits)).setWidth 64) (x.2.2.2 (v.setWidth w.bits))) ∧
     (s.feat.bmi1 = true →
       exec (.andn w dst a src) s = done (wrap w ((2 ^ w.bits - 1 - uns w (s.reg a)) &&& uns w v : Nat)) false) ∧
     (s.feat.bmi1 = true → exec (.bextr w dst src (.reg a)) s = field (s.reg a).toNat) ∧
     (s.feat.tbm = true → exec (.bextr w dst src (.imm imm)) s = field imm.toNat) ∧
     (s.feat.bmi2 = true →
       exec (.bzhi w dst src a) s =
         done (wrap w (uns w v % 2 ^ uns .w8 (s.reg a) : Nat)) (decide (w.bits ≤ uns .w8 (s.reg a))) ∧
       exec (.pdep w dst a src) s = .next (s.start.writeGpr w dst
         (ofBits w fun i => v.getLsbD i && (s.reg a).getLsbD ((onePositions w v).idxOf i))) ∧
       exec (.pext w dst a src) s = .next (s.start.writeGpr w dst
         (ofBits w fun i => ((onePositions w v)[i]?).any fun n => (s.reg a).getLsbD n)))) ∧
  (∀ (s : State) (w : Width) (dst cnt : Gpr) (src : RM) (imm : Byte) (v : Quad),
     s.flags.tf = false → s.protMode = true → s.feat.bmi2 = true → (w = .w32 ∨ w = .w64) → s.start.readRM w src = .ok v →
     let k := (s.reg cnt).toNat % w.bits;
     let i := imm.toNat % w.bits;
     exec (.rorx w dst src imm) s =
       .next (s.start.writeGpr w dst (wrap w (uns w v / 2 ^ i + uns w v * 2 ^ (w.bits - i) : Nat))) ∧
     exec (.sarx w dst src cnt) s = .next (s.start.writeGpr w dst (wrap w (sgn w v / 2 ^ k))) ∧
     exec (.shlx w dst src cnt) s = .next (s.start.writeGpr w dst (wrap w (uns w v * 2 ^ k : Nat))) ∧
     exec (.shrx w dst src cnt) s = .next (s.start.writeGpr w dst (wrap w (uns w v / 2 ^ k : Nat))))

/-- BT, BTC, BTR and BTS (R329 to R333): CF takes the selected bit, which the last three then complement, clear or set. A
register offset of a memory operand is signed and selects the unit; other offsets count modulo the width. -/
def Obligations.BitTestResult : Prop :=
  ∀ (s : State) (w : Width) (rm : RM) (off : BitOff) (lock : Bool) (p : Place), s.flags.tf = false →
    let i : Int := match off with
      | .reg r => sgn w (s.reg r)
      | .imm v => v.toNat
    let n := (i % w.bits).toNat;
    let located (write : Bool) : Prop := match rm, off with
      | .mem m, .reg _ => ∃ ps, p = .mem ps ∧
          s.start.access m.seg (s.start.ea m + BitVec.ofInt 64 (i / w.bits * w.bytes)) w.bytes write = .ok ps
      | _, _ => s.start.place w write rm = .ok p
    let a := s.start.getAt w p;
    let f := s.start.freed { s.start.flags with cf := a.getLsbD n } [.of, .sf, .zf, .af, .pf];
    (located false → exec (.bt w rm off) s = .next (s.start.setFlags f)) ∧
    ((lock = true → RM.isMem rm = true) → located true →
      exec (.btc w rm off lock) s = .next ((s.start.putAt w p (ofBits w fun k => a.getLsbD k != (k == n))).setFlags f) ∧
      exec (.btr w rm off lock) s = .next ((s.start.putAt w p (ofBits w fun k => a.getLsbD k && k != n)).setFlags f) ∧
      exec (.bts w rm off lock) s = .next ((s.start.putAt w p (ofBits w fun k => a.getLsbD k || k == n)).setFlags f))

/-- ROL, ROR, RCL and RCR (R560 to R562, R573, R574): the rotation by the masked count, through CF for the last two; OF is
defined for a count of 1, and a count of 0 changes no flag. -/
def Obligations.RotateResult : Prop :=
  ∀ (s : State) (w : Width) (rm : RM) (cnt : ShiftCount) (p : Place),
    s.flags.tf = false → s.start.place w true rm = .ok p →
    let a := s.start.getAt w p;
    let c := s.countOf w cnt;
    let k := c % w.bits;
    let done (r : Quad) (cf of : Bool) : Host.Outcome State Fault Refusal :=
      .next ((s.start.putAt w p r).setFlags
        (if c = 0 then s.start.flags
         else if c = 1 then { s.start.flags with cf := cf, of := of }
         else s.start.freed { s.start.flags with cf := cf } [.of]))
    (let r := wrap w (uns w a * 2 ^ k + uns w a / 2 ^ (w.bits - k) : Nat);
      exec (.rol w rm cnt) s = done r (r.getLsbD 0) (r.getLsbD 0 != topBit w r)) ∧
    (let r := wrap w (uns w a / 2 ^ k + uns w a * 2 ^ (w.bits - k) : Nat);
      exec (.ror w rm cnt) s = done r (topBit w r) (topBit w r != nextBit w r)) ∧
    (let x := times (rclStep w) c (a, s.flags.cf);
      exec (.rcl w rm cnt) s = done x.1 x.2 (x.2 != topBit w x.1)) ∧
    (let x := times (rcrStep w) c (a, s.flags.cf);
      exec (.rcr w rm cnt) s = done x.1 x.2 (topBit w x.1 != nextBit w x.1))

/-- SHL, SHR, SAR, SHLD and SHRD (R560, R577, R578, R584, R586, R587): the shift by the masked count, one bit after the other;
CF is the last bit out, OF is defined for a count of 1, AF is free, and a count of 0 changes no flag. A double shift by more
than the width leaves the destination and the six flags free. -/
def Obligations.ShiftResult : Prop :=
  ∀ (s : State) (w : Width) (rm : RM) (r : Gpr) (cnt : ShiftCount) (p : Place),
    s.flags.tf = false → s.start.place w true rm = .ok p →
    let a := s.start.getAt w p;
    let b := uns w (s.reg r);
    let c := s.countOf w cnt;
    let done (v : Quad) (cf of : Bool) : Host.Outcome State Fault Refusal :=
      if c = 0 then .next (s.start.putAt w p a)
      else .next ((s.start.putAt w p v).setFlags (s.start.freed
        { valueFlags s.start.flags w v with cf := cf, of := of } (if c = 1 then [.af] else [.af, .of])))
    let double (v : Quad) (cf : Bool) : Host.Outcome State Fault Refusal :=
      if w.bits < c then .next ((s.start.putAt w p s.start.freeResult).setFlags
        (s.start.freed s.start.flags [.of, .sf, .zf, .af, .pf, .cf]))
      else done v cf (topBit w v != topBit w a)
    (let x := times (shlStep w) c (a, false);
      exec (.shl w rm cnt) s = done x.1 x.2 (x.2 != topBit w x.1)) ∧
    (let x := times (shrStep w) c (a, false);
      exec (.shr w rm cnt) s = done x.1 x.2 (topBit w a)) ∧
    (let x := times (sarStep w) c (a, false);
      exec (.sar w rm cnt) s = done x.1 x.2 false) ∧
    exec (.shld w rm r cnt) s =
      double (wrap w (uns w a * 2 ^ c + b / 2 ^ (w.bits - c) : Nat)) (uns w a / 2 ^ (w.bits - c) % 2 == 1) ∧
    exec (.shrd w rm r cnt) s =
      double (wrap w (uns w a / 2 ^ c + b * 2 ^ (w.bits - c) : Nat)) (uns w a / 2 ^ (c - 1) % 2 == 1)

/-! ### Moves -/

/-- MOV between registers, memory and immediates, MOVZX, MOVSX, MOVSXD, MOVBE, MOVNTI, LEA, XLAT and BSWAP (R470, R477 to R479,
R471, R475, R453, R638, R328): no flag changes; BSWAP of a 16-bit register leaves a free value in it. -/
def Obligations.MoveResult : Prop :=
  ∀ (s : State) (w sw : Width) (rm : RM) (r : GReg) (d : Gpr) (m : Mem) (seg n : SegName) (asz : ASize) (imm v : Quad) (p : Place)
    (ps : List Nat), s.flags.tf = false →
    (s.start.readRM sw rm = .ok v →
      exec (.mov (.regRm sw r rm)) s = .next (s.start.writeGReg sw r v) ∧
      exec (.movzx w sw d rm) s = .next (s.start.writeGpr w d (BitVec.ofNat 64 (uns sw v))) ∧
      exec (.movsx w sw d rm) s = .next (s.start.writeGpr w d (BitVec.ofInt 64 (sgn sw v))) ∧
      ((if w = .w16 then sw = .w16 else sw = .w32) →
        exec (.movsxd w d rm) s = .next (s.start.writeGpr w d (BitVec.ofInt 64 (sgn sw v))))) ∧
    (s.start.place w true rm = .ok p →
      exec (.mov (.rmReg w rm r)) s = .next (s.start.putAt w p (s.start.readGReg w r)) ∧
      exec (.mov (.rmImm w rm imm)) s = .next (s.start.putAt w p imm)) ∧
    (s.start.access seg (wrap (addrWidth asz) imm.toNat) w.bytes false = .ok ps →
      exec (.mov (.load w seg asz imm)) s = .next (s.start.writeGpr w .rax (BitVec.ofNat 64 (s.loadAt ps)))) ∧
    (s.start.access seg (wrap (addrWidth asz) imm.toNat) w.bytes true = .ok ps →
      exec (.mov (.store w seg asz imm)) s = .next (s.start.storeAt ps (uns w s.gpr.rax))) ∧
    exec (.mov (.fromSeg w (.reg r) n)) s = .next (s.start.writeGReg w r ((s.sreg n).sel.setWidth 64)) ∧
    (s.start.access m.seg (s.start.ea m) 2 true = .ok ps →
      exec (.mov (.fromSeg w (.mem m) n)) s = .next (s.start.storeAt ps (s.sreg n).sel.toNat)) ∧
    (s.start.access m.seg (s.start.ea m) w.bytes false = .ok ps → s.feat.movbe = true →
      exec (.movbe w (.load d m)) s = .next (s.start.writeGpr w d (swapped w (BitVec.ofNat 64 (s.loadAt ps))))) ∧
    (s.start.access m.seg (s.start.ea m) w.bytes true = .ok ps →
      (s.feat.movbe = true →
        exec (.movbe w (.store m d)) s = .next (s.start.storeAt ps (swapped w (s.reg d)).toNat)) ∧
      (s.feat.sse2 = true → exec (.movnti w m d) s = .next (s.start.storeAt ps (uns w (s.reg d))))) ∧
    exec (.lea w d m) s = .next (s.start.writeGpr w d (s.start.ea m)) ∧
    (s.start.access seg (wrap (addrWidth asz) (s.gpr.rbx.toNat + s.gpr.rax.toNat % 256 : Nat)) 1 false = .ok ps →
      exec (.xlat seg asz) s = .next (s.start.writeGpr .w8 .rax (BitVec.ofNat 64 (s.loadAt ps)))) ∧
    exec (.bswap .w32 d) s = .next (s.start.writeGpr .w32 d (swapped .w32 (s.reg d))) ∧
    exec (.bswap .w64 d) s = .next (s.start.writeGpr .w64 d (swapped .w64 (s.reg d))) ∧
    exec (.bswap .w16 d) s = .next (s.start.writeGpr .w16 d s.start.freeResult)

/-- Segment registers (R452, R470, R523, R451, R930): what a load leaves in the register, by mode and selector; MOV, POP and the
far-pointer loads put it there, and a MOV or POP to SS opens the interrupt shadow if none is open. The model's choices: the base
and limit that a null selector leaves, by NullSelectClearsBase (53_cpuid.md R1032, log 22), that memory is unchanged, the
accessed bit of the descriptor included (log 35), and that POP SS increments rSP at the old stack size before the load (log 51). -/
def Obligations.SegmentRegisterLoads : Prop :=
  ∀ (s t u : State) (w : Width) (rm : RM) (dst : Gpr) (m : Mem) (n : SegName) (sel : BitVec 16) (d v off : Quad)
    (ps qs : List Nat),
    (s.protMode = false →
      s.loadSegReg n sel = .ok (s.setSreg n { s.sreg n with sel := sel, base := BitVec.ofNat 64 (sel.toNat * 16) })) ∧
    (s.protMode = true → sel.toNat < 4 → (n = .ss → s.mode64 = true ∧ s.cpl ≠ 3) →
      s.loadSegReg n sel = .ok (s.setSreg n { s.sreg n with
        sel := sel
        base := if s.feat.nullSelectClearsBase then 0 else (s.sreg n).base
        limit := if s.feat.nullSelectClearsBase then 0 else (s.sreg n).limit })) ∧
    (s.protMode = true → sel.toNat < 4 → n = .ss → (s.mode64 = false ∨ s.cpl = 3) → s.loadSegReg n sel = .error (gpSel sel)) ∧
    (s.protMode = true → s.readDesc (gpSel sel) sel = .ok d →
      let a := descAttr d;
      let legal : Bool :=
        if n = .ss then rpl sel == s.cpl && a.dpl == s.cpl && a.writable
        else a.readable && (a.conforming || (rpl sel ≤ a.dpl && s.cpl ≤ a.dpl))
      s.loadSegReg n sel =
        if legal = false then .error (gpSel sel)
        else if a.p = false then .error (excSel (if n = .ss then .ss else .np) sel)
        else .ok (s.setSreg n { sel := sel, base := descBase d, limit := descLimit d, attr := a })) ∧
    (s.flags.tf = false → n ≠ .cs →
      let shadowed (t : State) : State :=
        if n = .ss ∧ s.exec.shadow = .none then { t with exec := { t.exec with shadow := .ss } } else t
      (s.start.readRM .w16 rm = .ok v → s.start.loadSegReg n (v.setWidth 16) = .ok u →
        exec (.mov (.toSeg n rm)) s = .next (shadowed u)) ∧
      ((s.mode64 = true → n = .fs ∨ n = .gs) →
        s.start.pop w.bytes = .ok (v, t) → t.loadSegReg n (v.setWidth 16) = .ok u →
          exec (.pop w (.seg n)) s = .next (shadowed u))) ∧
    (s.flags.tf = false →
      let z := if w = .w16 then Width.w16 else .w32;
      s.start.access m.seg (s.start.ea m) z.bytes false = .ok ps →
        s.start.access m.seg (s.start.ea m + BitVec.ofNat 64 z.bytes) 2 false = .ok qs → off = BitVec.ofNat 64 (s.loadAt ps) →
        sel = BitVec.ofNat 16 (s.loadAt qs) → s.start.loadSegReg n sel = .ok u →
        ∀ x ∈ [(SegName.ds, Instr.lds w dst m), (.es, .les w dst m), (.fs, .lfs w dst m), (.gs, .lgs w dst m),
          (.ss, .lss w dst m)],
          x.1 = n → (s.mode64 = false ∨ (n ≠ .ds ∧ n ≠ .es)) → exec x.2 s = .next (u.writeGpr z dst off))

/-- MOV CRn and MOV DRn (R761, R762): the registers by number (LOCK adds 8), at 64 bits in 64-bit mode and at 32 otherwise; the
value of a write that is legal, with the bits LMA and ET that follow CR0 and rIP[63:32] clear outside 64-bit mode (R44), and #GP(0)
for one that is not; #GP(0) at another level; #UD for a register that does not exist, DR4 and DR5 with CR4.DE = 1 among them, and for
LOCK without its feature; and the #DB of general detect. The model's choices: a write of CR4 that keeps PCIDE = 1 completes without a
test of CR3 (log 24), a write of CR0 that switches long mode completes whatever CS holds (log 42), and the #DB of general detect
leaves DR6 and DR7 alone (log 45). -/
def Obligations.ControlRegisterMoves : Prop :=
  ∀ (s : State) (lock : Bool) (n : BitVec 4) (r : Gpr), s.flags.tf = false → s.cfg.paging = .identity →
    let cw := if s.mode64 then Width.w64 else .w32;
    let v := BitVec.ofNat 64 (uns cw (s.reg r));
    let k := n.toNat + (if lock then 8 else 0);
    let read : Instr := .mov (.fromCr lock n r)
    let write : Instr := .mov (.toCr lock n r)
    let no (i : Instr) : Prop := exec i s = s.raise { name := .gp, code := some 0 };
    let absent (i : Instr) : Prop := exec i s = s.raise { name := .ud };
    let legal : Prop := match k with
      | 0 => v &&& s.cfg.cr0Reserved = 0 ∧ (v.getLsbD 31 = true → v.getLsbD 0 = true) ∧
          (v.getLsbD 29 = true → v.getLsbD 30 = true) ∧
          (v.getLsbD 31 = true → s.pg = false → s.eferBit 8 = true → s.cr4Bit 5 = true) ∧
          (v.getLsbD 31 = false → s.cr4Bit 17 = false)
      | 3 => v &&& (if s.longMode then s.cfg.cr3Reserved else s.cfg.cr3ReservedLegacy) = 0
      | 4 => v &&& s.cfg.cr4Reserved = 0 ∧ (s.longMode = true → v.getLsbD 5 = true) ∧
          (v.getLsbD 17 = true → s.cr4Bit 17 = false → s.longMode = true ∧ s.ctl.cr3.toNat % 4096 = 0)
      | 8 => v &&& s.cfg.cr8Reserved = 0
      | _ => True;
    ((lock = true → s.feat.altMovCr8 = true) → s.cpl = 0 →
      (∀ x ∈ [(0, s.ctl.cr0), (2, s.ctl.cr2), (3, s.ctl.cr3), (4, s.ctl.cr4), (8, s.ctl.cr8)], x.1 = k →
        exec read s = .next (s.start.writeGpr cw r x.2)) ∧
      (k = 0 → legal →
        let u := s.start.enterMode { s.start with ctl := { s.ctl with
          cr0 := v ||| 0x10
          efer := if v.getLsbD 31 && s.eferBit 8 then s.ctl.efer ||| 0x400 else s.ctl.efer &&& ~~~(0x400 : Quad) } };
        exec write s = .next { u with rip := if u.mode64 then s.nextRip else BitVec.ofNat 64 (s.nextRip.toNat % 2 ^ 32) }) ∧
      (∀ x ∈ [(2, { s.ctl with cr2 := v }), (3, { s.ctl with cr3 := v }), (4, { s.ctl with cr4 := v }),
        (8, { s.ctl with cr8 := v })], x.1 = k → legal → exec write s = .next { s.start with ctl := x.2 }) ∧
      (k ∈ [0, 3, 4, 8] → ¬legal → no write)) ∧
    ((lock = true → s.feat.altMovCr8 = true) → k ∈ [0, 2, 3, 4, 8] → s.cpl ≠ 0 → no read ∧ no write) ∧
    (k ∉ [0, 2, 3, 4, 8] ∨ lock = true ∧ s.feat.altMovCr8 = false → absent read ∧ absent write) ∧
    (let gone := 8 ≤ n.toNat ∨ (n = 4 ∨ n = 5) ∧ s.cr4Bit 3 = true;
     let dr : Instr := .mov (.fromDr n r)
     let toDr : Instr := .mov (.toDr n r)
     (gone → absent dr ∧ absent toDr) ∧
     (¬gone → s.cpl ≠ 0 → no dr ∧ no toDr) ∧
     (¬gone → s.cpl = 0 →
      let j := if n = 4 ∨ n = 5 then n.toNat + 2 else n.toNat;
      (s.dbg.dr7.getLsbD 13 = true → exec dr s = s.raise { name := .db } ∧ exec toDr s = s.raise { name := .db }) ∧
      (s.dbg.dr7.getLsbD 13 = false →
        ∀ x ∈ [(0, s.dbg.dr0, { s.dbg with dr0 := v }), (1, s.dbg.dr1, { s.dbg with dr1 := v }),
          (2, s.dbg.dr2, { s.dbg with dr2 := v }), (3, s.dbg.dr3, { s.dbg with dr3 := v }),
          (6, s.dbg.dr6, { s.dbg with dr6 := v }), (7, s.dbg.dr7, { s.dbg with dr7 := v })], x.1 = j →
          exec dr s = .next (s.start.writeGpr cw r x.2.1) ∧
          exec toDr s =
            if s.mode64 ∧ 6 ≤ j ∧ 2 ^ 32 ≤ v.toNat then s.raise { name := .gp, code := some 0 }
            else .next { s.start with dbg := x.2.2 })))

/-- CMOVcc and SETcc (R365, R366, R582): by the number of the condition; a 32-bit CMOVcc in 64-bit mode clears the upper half
in both cases, SETcc writes its byte in both cases, and no flag changes. -/
def Obligations.ConditionalMoveAndSet : Prop :=
  ∀ (s : State) (w : Width) (dst : Gpr) (src : RM) (v : Quad) (p : Place), s.flags.tf = false →
    (s.feat.cmov = true → s.start.readRM w src = .ok v → ∀ x ∈ cmovccs,
      exec (x.2 w dst src) s = .next
        (if condHolds s.flags x.1 then s.start.writeGpr w dst v
         else if w = .w32 ∧ s.mode64 = true then s.start.writeGpr .w32 dst (s.reg dst) else s.start)) ∧
    (s.start.place .w8 true src = .ok p → ∀ x ∈ setccs,
      exec (x.2 src) s = .next (s.start.putAt .w8 p (if condHolds s.flags x.1 then 1 else 0)))

/-! ### Flag instructions -/

/-- CLC, STC and CMC (R358, R590, R364), LAHF and SAHF (R450, R576): their encoding in every mode, and the carry flag, the
status flags in AH, or AH in the status flags; nothing else changes. Beside them CLD and STD, which set DF. -/
def Obligations.StatusFlagInstructions : Prop :=
  (∀ s : State, s.flags.tf = false →
    exec .clc s = .next (s.start.setFlags { s.start.flags with cf := false }) ∧
    exec .stc s = .next (s.start.setFlags { s.start.flags with cf := true }) ∧
    exec .cmc s = .next (s.start.setFlags { s.start.flags with cf := !s.flags.cf }) ∧
    exec .cld s = .next (s.start.setFlags { s.start.flags with df := false }) ∧
    exec .std s = .next (s.start.setFlags { s.start.flags with df := true }) ∧
    (let f := s.flags;
     let ah := s.gpr.rax.extractLsb' 8 8;
     let available := s.mode64 = false ∨ s.feat.lahfSahf = true;
     (available → exec .lahf s = .next (s.start.writeGReg .w8 ⟨.rax, true⟩ (BitVec.ofNat 64
       (128 * f.sf.toNat + 64 * f.zf.toNat + 16 * f.af.toNat + 4 * f.pf.toNat + 2 + f.cf.toNat)))) ∧
     (available → exec .sahf s = .next (s.start.setFlags { s.start.flags with
       sf := ah.getLsbD 7, zf := ah.getLsbD 6, af := ah.getLsbD 4, pf := ah.getLsbD 2, cf := ah.getLsbD 0 })) ∧
     (¬available → exec .lahf s = s.raise { name := .ud } ∧ exec .sahf s = s.raise { name := .ud }))) ∧
  (∀ c : Ctx, ∀ x ∈ [((0xF8 : Byte), Instr.clc), (0xF9, .stc), (0xF5, .cmc), (0xFC, .cld), (0xFD, .std), (0x9F, .lahf),
    (0x9E, .sahf)], decode c [x.1] = .ok (x.2, 1))

/-- CLAC, STAC and CLTS (R702, R827, R705): their encodings, the clearing and setting of AC, the clearing of TS, and the
exceptions of an absent feature, virtual-8086 mode, LOCK and a level other than 0. Beside them CLI and STI, which act on IF, or on
VIF where virtual interrupts are enabled; STI opens the interrupt shadow when it sets IF. -/
def Obligations.SystemFlagInstructions : Prop :=
  (∀ s : State, s.flags.tf = false →
    (let allowed := s.feat.smap = true ∧ s.virtMode = false ∧ s.cpl = 0;
     (allowed → exec .clac s = .next (s.start.setFlags { s.start.flags with ac := false }) ∧
       exec .stac s = .next (s.start.setFlags { s.start.flags with ac := true })) ∧
     (¬allowed → exec .clac s = s.raise { name := .ud } ∧ exec .stac s = s.raise { name := .ud })) ∧
    exec .clts s = (if s.cpl = 0 then .next { s.start with ctl := { s.ctl with cr0 := s.ctl.cr0 &&& ~~~(1#64 <<< 3) } }
      else s.raise { name := .gp, code := some 0 }) ∧
    (let virtual := s.virtMode = true ∧ s.cr4Bit 0 = true ∨ s.protMode = true ∧ s.cr4Bit 1 = true ∧ s.cpl = 3;
     (s.cpl ≤ s.flags.iopl → exec .cli s = .next (s.start.setFlags { s.start.flags with fi := false }) ∧
       exec .sti s = .next { s.start with
         flags := { s.start.flags with fi := true }
         exec := { s.start.exec with shadow := if s.flags.fi = false ∧ s.exec.shadow = .none then .sti else .none } }) ∧
     (¬s.cpl ≤ s.flags.iopl → virtual → exec .cli s = .next (s.start.setFlags { s.start.flags with vif := false }) ∧
       exec .sti s = (if s.flags.vip then s.raise { name := .gp, code := some 0 }
         else .next (s.start.setFlags { s.start.flags with vif := true }))) ∧
     (¬s.cpl ≤ s.flags.iopl → ¬virtual → exec .cli s = s.raise { name := .gp, code := some 0 } ∧
       exec .sti s = s.raise { name := .gp, code := some 0 }))) ∧
  (∀ c : Ctx, decode c [0x0F, 0x01, 0xCA] = .ok (.clac, 3) ∧ decode c [0x0F, 0x01, 0xCB] = .ok (.stac, 3) ∧
    decode c [0x0F, 0x06] = .ok (.clts, 2) ∧ decode c [0xF0, 0x0F, 0x01, 0xCA] = .error .lockNotAllowed ∧
    decode c [0xF0, 0x0F, 0x01, 0xCB] = .error .lockNotAllowed)

/-! ### Registers of the processor -/

/-- MOVD, MOVMSKPD and MOVMSKPS (R472 to R474): the low bits of a vector or MMX register and the sign bits of its elements. The model's
choices (log 15, log 43): an MMX form leaves the x87 tag word free, and a write of an MMX register the top of the x87 register,
and keeps the x87 status word; a pending x87 exception is bit 7 of that word. -/
def Obligations.MediaMoveResult : Prop :=
  ∀ (s : State) (wide : Bool) (x : XmmNum) (k : BitVec 3) (rm : RM) (dst : Gpr) (v : Quad) (p : Place),
    s.flags.tf = false → s.ctl.cr0.getLsbD 2 = false → s.ctl.cr0.getLsbD 3 = false →
    let w := if wide then Width.w64 else .w32;
    let y := s.media.ymm[x.toNat];
    let tagged := { s.media with ftw := Config.freeBits s.freeCount 17 16 };
    (s.feat.sse2 = true → s.cr4Bit 9 = true →
      (s.start.readRM w rm = .ok v → exec (.movd wide (.toXmm x rm)) s = .next { s.start with media := { s.media with
        ymm := s.media.ymm.set x.toNat (y.extractLsb' 128 128 ++ v.setWidth 128) } }) ∧
      (s.start.place w true rm = .ok p →
        exec (.movd wide (.fromXmm rm x)) s = .next (s.start.putAt w p (wrap w (y.extractLsb' 0 64).toNat))) ∧
      exec (.movmskpd dst x) s = .next (s.start.writeGpr .w32 dst (BitVec.ofNat 64
        ((y.getLsbD 63).toNat + 2 * (y.getLsbD 127).toNat))) ∧
      exec (.movmskps dst x) s = .next (s.start.writeGpr .w32 dst (BitVec.ofNat 64
        ((y.getLsbD 31).toNat + 2 * (y.getLsbD 63).toNat + 4 * (y.getLsbD 95).toNat + 8 * (y.getLsbD 127).toNat)))) ∧
    (s.feat.mmx = true → s.media.fsw.getLsbD 7 = false →
      (s.start.readRM w rm = .ok v → exec (.movd wide (.toMmx k rm)) s = .next { s.start with media := { tagged with
        fpr := s.media.fpr.set k.toNat (Config.freeBits s.freeCount 18 16 ++ v) } }) ∧
      (s.start.place w true rm = .ok p → exec (.movd wide (.fromMmx rm k)) s =
        .next (({ s.start with media := tagged } : State).putAt w p (wrap w ((s.media.fpr[k.toNat]).extractLsb' 0 64).toNat))))

/-- RDFSBASE, RDGSBASE, WRFSBASE, WRGSBASE, RDPID, RDPRU, RDRAND, RDSEED, CPUID and MCOMMIT (R563, R635, R564 to R567, R371,
R462): what each reads and where it leaves it. A failed RDRAND leaves a free value. The contents of CPUID, whatever the rows of
`cpuid_table` (R1002, R1004 to R1023): the vendor string with the largest functions, the signature, the flag of each optional subset (R301),
OSXSAVE and OSPKE that follow CR4, the size of Fn0000_000D that follows XCR0 and XSS, and zero beyond the largest function. The model's
choices: the highest ECX of RDPRU (log 1), and that a row gives no bit that a feature or the state decides (log 34). -/
def Obligations.ProcessorRegisterReads : Prop :=
  ∀ (s : State) (w : Width) (r : Gpr), s.flags.tf = false →
    let known (cf : Bool) : Flags :=
      { s.start.flags with of := false, sf := false, zf := false, af := false, pf := false, cf := cf }
    let pair (v : Quad) : State :=
      (s.start.writeGpr .w32 .rax (BitVec.ofNat 64 (v.toNat % 2 ^ 32))).writeGpr .w32 .rdx (BitVec.ofNat 64 (v.toNat / 2 ^ 32))
    (s.mode64 = true → s.feat.fsgsbase = true → s.cr4Bit 16 = true →
      exec (.rdfsbase w r) s = .next (s.start.writeGpr w r s.seg.fs.base) ∧
      exec (.rdgsbase w r) s = .next (s.start.writeGpr w r s.seg.gs.base) ∧
      (let v := BitVec.ofNat 64 (uns w (s.reg r));
       let legal := w = .w64 → s.canonical v = true;
       (legal → exec (.wrfsbase w r) s =
          .next { s.start with seg := { s.seg with fs := { s.seg.fs with base := v } } } ∧
        exec (.wrgsbase w r) s = .next { s.start with seg := { s.seg with gs := { s.seg.gs with base := v } } }) ∧
       (¬legal → exec (.wrfsbase w r) s = s.raise { name := .gp, code := some 0 } ∧
        exec (.wrgsbase w r) s = s.raise { name := .gp, code := some 0 }))) ∧
    (s.feat.rdpid = true → exec (.rdpid r) s =
      .next (s.start.writeGpr (if s.mode64 then .w64 else .w32) r (BitVec.ofNat 64 (s.msr.tscAux.toNat % 2 ^ 32)))) ∧
    (s.feat.rdpru = true → (s.cpl = 0 ∨ s.cr4Bit 2 = false) → s.cfg.perf = .default →
      exec .rdpru s = .next ((pair (if s.cfg.maxRdpruId.toNat < uns .w32 s.gpr.rcx then 0
        else match uns .w32 s.gpr.rcx with
          | 0 => s.msr.mperf
          | 1 => s.msr.aperf
          | _ => 0)).setFlags (known (Config.freeFlag s.freeCount .cf)))) ∧
    (s.feat.rdrand = true → exec (.rdrand w r) s = match s.start.randomValue w with
      | some v => .next ((s.start.writeGpr w r v).setFlags (known true))
      | none => .next ((s.start.writeGpr w r s.start.freeResult).setFlags (known false))) ∧
    (s.feat.rdseed = true → exec (.rdseed w r) s = match s.start.randomValue w with
      | some v => .next ((s.start.writeGpr w r v).setFlags (known true))
      | none => .next ((s.start.writeGpr w r 0).setFlags (known false))) ∧
    (let c := s.cpuidTable (BitVec.ofNat 32 (uns .w32 s.gpr.rax)) (BitVec.ofNat 32 (uns .w32 s.gpr.rcx));
      exec .cpuid s = .next ((((s.start.writeGpr .w32 .rax (c.eax.setWidth 64)).writeGpr .w32 .rbx
        (c.ebx.setWidth 64)).writeGpr .w32 .rcx (c.ecx.setWidth 64)).writeGpr .w32 .rdx (c.edx.setWidth 64))) ∧
    (let f := s.feat;
     let reach (fn : BitVec 32) : Prop := if 2 ^ 31 ≤ fn.toNat then fn.toNat ≤ s.cfg.lFuncExt.toNat else fn.toNat ≤ s.cfg.lFuncStd.toNat;
     let vendor (m : BitVec 32) : CpuidRegs := { eax := m, ebx := 0x68747541, ecx := 0x444D4163, edx := 0x69746E65 };
     let size (b : Bool) (n : Nat) : Nat := if b then n else 0
     ∀ ecx : BitVec 32,
      s.cpuidTable 0 ecx = vendor s.cfg.lFuncStd ∧
      (reach 0x80000000 → s.cpuidTable 0x80000000 ecx = vendor s.cfg.lFuncExt) ∧
      (reach 1 → (s.cpuidTable 1 ecx).eax = s.cfg.signature ∧
        ∀ x ∈ [(3, f.monitor), (13, f.cmpxchg16b), (20, f.sse42), (22, f.movbe), (23, f.popcnt), (26, f.xsave),
          (27, f.xsave && s.cr4Bit 18), (30, f.rdrand)], (s.cpuidTable 1 ecx).ecx.getLsbD x.1 = x.2) ∧
      (∀ x ∈ [(8, f.cmpxchg8b), (15, f.cmov), (23, f.mmx)], (reach 1 → (s.cpuidTable 1 ecx).edx.getLsbD x.1 = x.2) ∧
        (reach 0x80000001 → (s.cpuidTable 0x80000001 ecx).edx.getLsbD x.1 = x.2)) ∧
      (∀ x ∈ [(19, f.clfsh), (25, f.sse), (26, f.sse2)], reach 1 → (s.cpuidTable 1 ecx).edx.getLsbD x.1 = x.2) ∧
      (reach 7 →
        (∀ x ∈ [(0, f.fsgsbase), (3, f.bmi1), (8, f.bmi2), (18, f.rdseed), (19, f.adx), (23, f.clflushopt), (24, f.clwb)],
          (s.cpuidTable 7 0).ebx.getLsbD x.1 = x.2) ∧
        (∀ x ∈ [(3, f.pku), (4, f.pku && s.cr4Bit 22), (22, f.rdpid)], (s.cpuidTable 7 0).ecx.getLsbD x.1 = x.2)) ∧
      (reach 0xD → f.xsave = true → (s.cpuidTable 0xD 1).ebx.toNat = 0x240 + size (s.xcr0.getLsbD 2) 0x100 +
        size (s.xcr0.getLsbD 9) 8 + size (s.msr.xss.getLsbD 11) 0x10 + size (s.msr.xss.getLsbD 12) 0x18) ∧
      (∀ x ∈ [(0, f.lahfSahf), (5, f.abm), (8, f.prefetch), (15, f.lwp), (21, f.tbm), (29, f.monitorx)],
        reach 0x80000001 → (s.cpuidTable 0x80000001 ecx).ecx.getLsbD x.1 = x.2) ∧
      (∀ x ∈ [(29, f.lm), (31, f.threeDNow)], reach 0x80000001 → (s.cpuidTable 0x80000001 ecx).edx.getLsbD x.1 = x.2) ∧
      (∀ x ∈ [(0, f.clzero), (4, f.rdpru), (8, f.mcommit)], reach 0x80000008 → (s.cpuidTable 0x80000008 ecx).ebx.getLsbD x.1 = x.2) ∧
      (∀ fn, ¬reach fn → s.cpuidTable fn ecx = { eax := 0, ebx := 0, ecx := 0, edx := 0 })) ∧
    (s.feat.mcommit = true → s.eferBit 17 = true → s.cfg.mcommitError = .default →
      exec .mcommit s = .next (s.start.setFlags (known true)))

/-- The instructions that only pass, or that change the monitor, the halt or one line of memory: NOP, PAUSE, the prefetches, fences,
cache and translation-buffer instructions; CLZERO clears a line; MONITOR and MONITORX arm the monitor, and MWAIT and MWAITX disarm
it; HLT halts (R511, R516, R527, R528, R455, R463, R583, R360 to R363, R464, R482, R710, R844, R711, R712, R714, R760, R763, R707).
The model's choices (log 32): the waits end at once, the monitor is always armed, and PREFETCHW writes nothing. -/
def Obligations.HintsAndWaits : Prop :=
  ∀ (s : State) (m : Mem) (o : Option RM) (seg : SegName) (asz : ASize) (r : Gpr) (ps : List Nat), s.flags.tf = false →
    (∀ i ∈ [Instr.nop o, .pause, .prefetchnta m, .prefetcht0 m, .prefetcht1 m, .prefetcht2 m], exec i s = .next s.start) ∧
    ((s.feat.prefetch || s.feat.lm || s.feat.threeDNow) = true →
      ∀ i ∈ [Instr.prefetch m, .prefetchw m], exec i s = .next s.start) ∧
    (s.feat.sse2 = true → ∀ i ∈ [Instr.lfence, .mfence], exec i s = .next s.start) ∧
    ((s.feat.sse || s.feat.mmxExt) = true → exec .sfence s = .next s.start) ∧
    (s.start.access m.seg (s.start.ea m) 1 false = .ok ps →
      (s.feat.clfsh = true → exec (.clflush m) s = .next s.start) ∧
      (s.feat.clfsh = true → s.feat.clflushopt = true → exec (.clflushopt m) s = .next s.start) ∧
      (s.feat.clwb = true → exec (.clwb m) s = .next s.start)) ∧
    (let off := uns (addrWidth asz) s.gpr.rax;
     let line := off / s.cfg.cacheLine * s.cfg.cacheLine;
     (s.feat.clzero = true → s.start.access seg (BitVec.ofNat 64 line) s.cfg.cacheLine true = .ok ps →
       exec (.clzero seg asz) s = .next (s.start.storeAt ps 0)) ∧
     (s.start.access seg (BitVec.ofNat 64 off) 1 false = .ok ps → uns .w32 s.gpr.rcx = 0 →
       let addr := BitVec.ofNat 64 ((s.linear seg (BitVec.ofNat 64 off)).toNat / s.cfg.monitorLine * s.cfg.monitorLine);
       let armed := { s.start with exec := { s.start.exec with monitor := { armed := true, addr := addr } } };
       (s.feat.monitorx = true → exec (.monitorx seg asz) s = .next armed) ∧
       (s.feat.monitor = true → (s.cpl = 0 ∨ s.msr.hwcr.getLsbD 10 = true) →
         exec (.monitor seg asz) s = .next armed))) ∧
    (let disarmed := { s.start with exec := { s.start.exec with monitor := { s.exec.monitor with armed := false } } };
     (s.feat.monitorx = true → uns .w32 s.gpr.rcx < 4 → exec .mwaitx s = .next disarmed) ∧
     (s.feat.monitor = true → (s.cpl = 0 ∨ s.msr.hwcr.getLsbD 10 = true) →
       uns .w32 s.gpr.rcx < (if s.feat.mwaitIbe then 2 else 1) → exec .mwait s = .next disarmed)) ∧
    (s.cpl = 0 →
      (∀ i ∈ [Instr.invd, .wbinvd, .wbnoinvd, .invlpg m], exec i s = .next s.start) ∧
      exec .hlt s = .next { s.start with exec := { s.start.exec with activity := .halted } } ∧
      (s.feat.svm = true → s.protMode = true → s.eferBit 12 = true → exec (.invlpga seg asz) s = .next s.start) ∧
      (s.protMode = true → s.feat.invpcid = true → s.start.access m.seg (s.start.ea m) 16 false = .ok ps →
        let type := uns (if s.mode64 then .w64 else .w32) (s.reg r);
        let pcid := s.loadAt ps % 2 ^ 64;
        type ≤ 3 → pcid < 2 ^ 12 → (type = 0 → s.canonical (BitVec.ofNat 64 (s.loadAt ps / 2 ^ 64)) = true) →
        (type ≤ 1 → s.cr4Bit 17 = false → pcid = 0) → exec (.invpcid r m) s = .next s.start)) ∧
    (s.cpl ≠ 0 → ∀ i ∈ [Instr.invd, .wbinvd, .wbnoinvd, .invlpg m, .hlt],
      exec i s = s.raise { name := .gp, code := some 0 })

/-! ### Control transfers -/

/-- Jcc, JCXZ, JECXZ, JRCXZ, LOOP, LOOPE, LOOPNE, JMP, CALL and RET near (R365, R418, R419, R458, R420, R350, R568): the target
by rIP_next, #GP(0) when it is taken and lies outside the code segment, and the return address on the stack; with shadow stacks
CALL pushes it there too, except to the next instruction, and RET compares it and raises #CP. The model's choice: shadow-stack
addresses keep 64 bits in every mode (log 52). -/
def Obligations.NearTransfers : Prop :=
  ∀ (s t : State) (w : Width) (asz : ASize) (rel v : Quad) (rm : RM) (imm : BitVec 16) (ps : List Nat),
    s.flags.tf = false →
    let target := wrap w (s.nextRip.toNat + rel.toNat);
    let a := addrWidth asz;
    let n : Nat := if w = .w64 then 8 else 4;
    let jump (u : State) (taken : Bool) (v : Quad) : Host.Outcome State Fault Refusal :=
      if taken = false then .next u
      else if s.targetOk v = false then s.raise { name := .gp, code := some 0 }
      else .next (u.goto v)
    (∀ x ∈ jccs, exec (x.2 w rel) s = jump s.start (condHolds s.flags x.1) target) ∧
    (∀ x ∈ [(Width.w16, Instr.jcxz w rel), (.w32, .jecxz w rel), (.w64, .jrcxz w rel)],
      exec x.2 s = jump s.start (uns x.1 s.gpr.rcx == 0) target) ∧
    (let c := wrap a (uns a s.gpr.rcx - 1);
     ∀ x ∈ [(true, Instr.loop w asz rel), (s.flags.zf, .loope w asz rel), (!s.flags.zf, .loopne w asz rel)],
      exec x.2 s = jump (s.start.writeGpr a .rcx c) (c != 0 && x.1) target) ∧
    exec (.jmp w (.rel rel)) s = jump s.start true target ∧
    (s.start.readRM w rm = .ok v → exec (.jmp w (.rm rm)) s = jump s.start true v) ∧
    (s.start.push w.bytes s.nextRip = .ok t →
      (s.shadowEnabled s.cpl = false ∨ rel = 0 → exec (.call w (.rel rel)) s = jump t true target) ∧
      (s.shadowEnabled s.cpl = false → s.start.readRM w rm = .ok v → exec (.call w (.rm rm)) s = jump t true v) ∧
      (s.shadowEnabled s.cpl = true → t.sstkSpan (s.cpl == 3) true (s.cet.ssp - BitVec.ofNat 64 n) n = .ok ps →
        let u := (t.storeAt ps (uns w s.nextRip)).setSsp (s.cet.ssp - BitVec.ofNat 64 n);
        (rel ≠ 0 → exec (.call w (.rel rel)) s = jump u true target) ∧
        (s.start.readRM w rm = .ok v → exec (.call w (.rm rm)) s = jump u true v))) ∧
    (s.start.pop w.bytes = .ok (v, t) →
      let u := t.writeGpr s.stackWidth .rsp (t.gpr.rsp + BitVec.ofNat 64 imm.toNat);
      (s.shadowEnabled s.cpl = false → exec (.ret w imm) s = jump u true v) ∧
      (s.shadowEnabled s.cpl = true → s.targetOk v = true → s.sstkSpan (s.cpl == 3) false s.cet.ssp n = .ok ps →
        exec (.ret w imm) s =
          if v.toNat = s.loadAt ps then .next ((u.setSsp (s.cet.ssp + BitVec.ofNat 64 n)).goto v)
          else s.raise { name := .cp, code := some 1 }))

/-- Far CALL, JMP and RET outside protected mode (R351, R352, R421, R422, R569): selector and offset of the target, CS with its
base at 16 times the selector, and the return address on the stack; #GP(0) for an offset outside the segment, and #UD for the
direct form in 64-bit mode. The monitor is disarmed. The model's choice: with a 64-bit operand size the offset of a far pointer in
memory has 32 bits, where R275 names 64 (log 53). -/
def Obligations.FarTransfersReal : Prop :=
  ∀ (s t u : State) (w : Width) (far : FarTarget) (m : Mem) (off cs : Quad) (sel imm : BitVec 16) (o : BitVec 32)
    (ps qs : List Nat), s.flags.tf = false →
    let z := if w = .w16 then Width.w16 else .w32;
    let into (u : State) (sel : BitVec 16) (off : Quad) : Host.Outcome State Fault Refusal :=
      if s.targetOk off = false then s.raise { name := .gp, code := some 0 }
      else .next { u with
        rip := off
        seg := { u.seg with cs := { s.seg.cs with sel := sel, base := BitVec.ofNat 64 (sel.toNat * 16) } }
        exec := { u.exec with monitor := { u.exec.monitor with armed := false } } }
    (s.mode64 = false → s.start.farTarget w (.ptr sel o) = .ok (wrap z o.toNat, sel)) ∧
    (s.mode64 = true → exec (.jmpFar w (.ptr sel o)) s = s.raise { name := .ud } ∧
      exec (.callFar w (.ptr sel o)) s = s.raise { name := .ud }) ∧
    (s.start.access m.seg (s.start.ea m) z.bytes false = .ok ps →
      s.start.access m.seg (s.start.ea m + BitVec.ofNat 64 z.bytes) 2 false = .ok qs →
      s.start.farTarget w (.mem m) = .ok (BitVec.ofNat 64 (s.loadAt ps), BitVec.ofNat 16 (s.loadAt qs))) ∧
    (s.protMode = false → s.mode64 = false →
      (s.start.farTarget w far = .ok (off, sel) →
        exec (.jmpFar w far) s = into s.start sel off ∧
        (s.start.pushAllE ss0 w.bytes [s.seg.cs.sel.setWidth 64, s.nextRip] = .ok t →
          exec (.callFar w far) s = into t sel off)) ∧
      (s.start.pop w.bytes = .ok (off, u) → u.pop w.bytes = .ok (cs, t) →
        exec (.retf w imm) s =
          into (t.writeGpr t.stackWidth .rsp (t.gpr.rsp + BitVec.ofNat 64 imm.toNat)) (BitVec.ofNat 16 cs.toNat) off))

/-- Far CALL, JMP and RET in protected mode with shadow stacks disabled (R112, R353, R354, R423, R424, R570, R571): to a code
segment at the same level, through a call gate to the same or an inner level without parameters, and back to the same or an outer
level; outside long mode a 32-bit gate gives a 32-bit rIP and a 16-bit gate a 16-bit one (log 50); a TSS, and a task gate
that names an available one of the GDT, end in the refusal `taskSwitch`, a task gate that names anything else in #GP and one whose TSS is
not present in #NP, with the selector in the gate (log 54). The model's choices: CALL too may name a compatibility-mode code segment in
long mode (log 55), CS.sel takes the CPL in its low bits (R57, log 10),
the old RSP is 32 bits outside 64-bit mode (log 8), RSP keeps all 64 bits on a transfer to the same level (log 41), and a null SS
popped by a return keeps its hidden part (log 22), and a return writes RSP at the stack size it returns to (log 51). -/
def Obligations.FarTransfersProtected : Prop :=
  ∀ (s t u x y : State) (w : Width) (far : FarTarget) (off rip v ss sp d c : Quad) (sel imm : BitVec 16) (st : SegReg),
    s.flags.tf = false → s.protMode = true → s.sstkEnabled = false →
    let a := descAttr d;
    let sizes : Nat := if s.longMode then 8 else if a.type = 0xC then 4 else 2;
    let enter (q : State) (off : Quad) : Host.Outcome State Fault Refusal :=
      if q.targetOk off = false then s.raise { name := .gp, code := some 0 } else .next (q.goto off)
    (s.start.farTarget w far = .ok (off, sel) → s.start.readDesc (gpSel sel) sel = .ok d →
      (a.isCode = true → ¬(s.longMode = true ∧ a.l = true ∧ a.db = true) →
        (if a.conforming then a.dpl ≤ s.cpl else rpl sel ≤ s.cpl ∧ a.dpl = s.cpl) → a.p = true →
        let cs := descSeg (withRpl sel s.cpl) d;
        exec (.jmpFar w far) s = enter (s.start.setCs cs s.cpl) off ∧
        (((s.start.setCs cs s.cpl).setRsp s.gpr.rsp).pushAllE ss0 w.bytes [s.seg.cs.sel.setWidth 64, s.nextRip] = .ok u →
          exec (.callFar w far) s = enter u off)) ∧
      (a.isCode = true → (if a.conforming then s.cpl < a.dpl else s.cpl < rpl sel ∨ a.dpl ≠ s.cpl) →
        exec (.jmpFar w far) s = s.raise { name := .gp, code := some (selCode sel), sel := true } ∧
        exec (.callFar w far) s = s.raise { name := .gp, code := some (selCode sel), sel := true }) ∧
      (a.s = false → (a.type = 0xC ∨ s.longMode = false ∧ a.type = 4) → s.cpl ≤ a.dpl → rpl sel ≤ a.dpl → a.p = true →
        s.start.callGateTarget sel d = .ok rip → s.start.readIntCs (gateSel d) = .ok c →
        let b := descAttr c;
        let same := b.conforming = true ∨ b.dpl = s.cpl;
        let cs := descSeg (withRpl (gateSel d) s.cpl) c;
        (s.longMode = false →
          rip.toNat = d.toNat % 2 ^ 16 + (if a.type = 0xC then d.toNat / 2 ^ 48 * 2 ^ 16 else 0)) ∧
        (same → exec (.jmpFar w far) s = enter (s.start.setCs cs s.cpl) rip) ∧
        (same → ((s.start.setCs cs s.cpl).setRsp s.gpr.rsp).pushAllE ss0 sizes [s.seg.cs.sel.setWidth 64, s.nextRip] = .ok u →
          exec (.callFar w far) s = enter u rip) ∧
        (¬same → (s.start.setCs (descSeg (withRpl (gateSel d) b.dpl) c) b.dpl).innerStack b.dpl 0 = .ok (st, sp) → (s.longMode = true ∨ gateParams d = 0) →
          let inner := s.start.enterInner (descSeg (withRpl (gateSel d) b.dpl) c) b.dpl st sp;
          inner.targetOk rip = true →
          inner.pushAllE (excSel .ss st.sel) sizes
            [s.seg.ss.sel.setWidth 64, s.oldRsp, s.seg.cs.sel.setWidth 64, s.nextRip] = .ok u →
          exec (.callFar w far) s = .next (u.goto rip))) ∧
      (a.s = false → s.longMode = false → s.cpl ≤ a.dpl → rpl sel ≤ a.dpl → a.p = true →
        let both (o : Host.Outcome State Fault Refusal) : Prop := exec (.jmpFar w far) s = o ∧ exec (.callFar w far) s = o
        let task := gateSel d;
        let b := descAttr c;
        let tss : Prop := b.s = false ∧ (b.type = 1 ∨ b.type = 9) ∧ task.getLsbD 2 = false;
        let no : Host.Outcome State Fault Refusal := s.raise { name := .gp, code := some (selCode task), sel := true }
        ((a.type = 1 ∨ a.type = 9) → sel.getLsbD 2 = false → both (.refused .taskSwitch)) ∧
        (a.type = 5 → isNull task = true → both no) ∧
        (a.type = 5 → s.start.readDesc (gpSel task) task = .ok c →
          (¬tss → both no) ∧
          (tss → both (if b.p then .refused .taskSwitch
            else s.raise { name := .np, code := some (selCode task), sel := true }))))) ∧
    (s.start.pop w.bytes = .ok (rip, t) → t.pop w.bytes = .ok (v, u) → sel = BitVec.ofNat 16 v.toNat →
      (rpl sel = s.cpl → u.readIretCs sel = .ok d →
        let q := (u.setCs (descSeg sel d) s.cpl).setRsp u.gpr.rsp;
        exec (.retf w imm) s = enter (q.writeGpr q.stackWidth .rsp (q.gpr.rsp + BitVec.ofNat 64 imm.toNat)) rip) ∧
      (rpl sel ≠ s.cpl → (u.writeGpr u.stackWidth .rsp (u.gpr.rsp + BitVec.ofNat 64 imm.toNat)).pop w.bytes = .ok (sp, x) →
        x.pop w.bytes = .ok (ss, y) → y.readIretCs sel = .ok d →
        let z := y.setCs (descSeg sel d) (rpl sel);
        z.targetOk rip = true → z.returnSs (BitVec.ofNat 16 ss.toNat) (rpl sel) = .ok st →
        let q := ({ z with seg := { z.seg with ss := st } } : State).writeRsp (sp + BitVec.ofNat 64 imm.toNat);
        exec (.retf w imm) s = .next (({ q with seg := q.seg.leaveLevel (rpl sel) } : State).goto rip)))

/-- INT n, INT3, INTO, INT1 and BOUND (R410, R709, R417, R244, R325): the event each delivers, with the address of the next
instruction saved by the first four; INTO with OF = 0 and BOUND with its index in range do nothing. The model's choice: the linear
address in the shadow-stack frame of INT1 is that of the next instruction (log 9). -/
def Obligations.SoftwareInterrupts : Prop :=
  ∀ (s t : State) (v : Byte) (w : Width) (idx : Gpr) (m : Mem) (ps qs : List Nat), s.flags.tf = false →
    let event (v : Byte) (intN : Bool) : Event :=
      { vector := v, kind := .software, savedRip := s.nextRip, oldRip := s.rip, intN := intN }
    (s.start.deliverOnce (event v true) = .ok t → exec (.int v) s = .next t) ∧
    (s.start.deliverOnce (event 3 false) = .ok t → exec .int3 s = .next t) ∧
    (s.mode64 = false → s.flags.of = true → s.start.deliverOnce (event 4 false) = .ok t → exec .into s = .next t) ∧
    (s.mode64 = false → s.flags.of = false → exec .into s = .next s.start) ∧
    (s.mode64 = true → exec .into s = s.raise { name := .ud } ∧ exec (.bound w idx m) s = s.raise { name := .ud }) ∧
    (s.deliverOnce { vector := 1, kind := .exception, savedRip := s.nextRip, oldRip := s.nextRip } = .ok t →
      exec .int1 s = .next t) ∧
    (s.mode64 = false → s.start.access m.seg (s.start.ea m) w.bytes false = .ok ps →
      s.start.access m.seg (s.start.ea m + BitVec.ofNat 64 w.bytes) w.bytes false = .ok qs →
      exec (.bound w idx m) s =
        if sgn w (BitVec.ofNat 64 (s.loadAt ps)) ≤ sgn w (s.reg idx) ∧
          sgn w (s.reg idx) ≤ sgn w (BitVec.ofNat 64 (s.loadAt qs)) then .next s.start
        else s.raise { name := .br })

/-! ### Taking an exception and returning from it -/

/-- Delivery in real mode (R411, R920, R922): rFLAGS with the RF of the event, CS and the saved rIP are pushed as words; AC, TF,
IF and RF are cleared; CS and rIP come from the four bytes at 4 times the vector in the interrupt table. The processor runs, the
shadow ends, and an external NMI blocks others. -/
def Obligations.RealModeEntry : Prop :=
  ∀ (s t : State) (e : Event), s.realMode = true → s.pg = false → s.longMode = false → 32 ≤ s.cfg.physAddrBits →
    let entry := s.idtr.base.toNat + 4 * e.vector.toNat;
    let ip := s.loadAt (physRange entry 2);
    let sel := BitVec.ofNat 16 (s.loadAt (physRange (entry + 2) 2));
    let ready := { s with exec := { s.exec with activity := .running, shadow := .none, latch := [] } };
    let image := { s.flags with rf := e.rf }.toBits;
    entry + 4 ≤ 2 ^ 32 → 4 * e.vector.toNat + 3 ≤ s.idtr.limit.toNat → ip ≤ s.seg.cs.limit.toNat →
    ready.pushAllE ss0 2 [image, s.seg.cs.sel.setWidth 64, e.savedRip] = .ok t →
    s.deliverOnce e = .ok { t with
      rip := BitVec.ofNat 64 ip
      flags := { s.flags with ac := false, tf := false, fi := false, rf := false }
      seg := { s.seg with cs := { s.seg.cs with sel := sel, base := BitVec.ofNat 64 (sel.toNat * 16) } }
      exec := { s.exec with
        activity := .running
        shadow := .none
        latch := []
        monitor := { s.exec.monitor with armed := false }
        nmiBlocked := s.exec.nmiBlocked || (e.vector == 2 && e.kind == .external) } }

/-- Delivery in protected mode (R113, R412, R413, R920, R922): the frame of SS, RSP, rFLAGS, CS, rIP and the error code, SS and RSP only
in long mode or with a change of level, pushed at the gate's size on the stack of the handler's level or of the gate's IST entry; VM,
NT, TF and RF are cleared, IF too through an interrupt gate; CS and rIP come from the gate. With shadow stacks the new SSP is that of
the level or of the IST entry, its token set busy, with the frame of CS, LIP and the old SSP, which PL3_SSP keeps on leaving CPL 3.
CS is loaded before the pushes. And delivery from virtual-8086 mode: through a gate to CPL 0, the data segments pushed and made null
(R415), and INT n by CR4.VME and the redirection bitmap (R414). The model's choices: CS.sel takes the new CPL in its low bits (R57,
log 10), the old RSP is 32 bits outside 64-bit mode (log 8), RSP keeps all 64 bits at the same level (log 41), the pushed image from
virtual-8086 mode has the RF of R922 where R415 prints 'Pushed with RF = 0' (log 12), a data segment made null keeps its hidden
part (log 22), shadow-stack addresses keep 64 bits in every mode (log 52), and a 16-bit interrupt gate gives a 32-bit rIP (log 50). A
long-mode gate with one of bits 44:40 of its second quadword set is #GP with the code of the gate (R111, 93_implementation_defined.md A.3),
and a task gate that names a present, available TSS of the GDT is the refusal `taskSwitch` (log 54). -/
def Obligations.ProtectedModeEntry : Prop :=
  ∀ (s u v x y : State) (e : Event) (gate d rip sp ssp : Quad) (st : SegReg),
    let ready := { s with exec := { s.exec with activity := .running, shadow := .none, latch := [] } };
    let a := descAttr gate;
    let bytes : Nat := if s.longMode then 8 else if a.type = 0xE ∨ a.type = 0xF then 4 else 2;
    let image := { s.flags with rf := e.rf }.toBits;
    let zx (r : SegReg) : Quad := r.sel.setWidth 64
    let outer := [zx s.seg.ss, s.oldRsp];
    let core := [image, zx s.seg.cs, e.savedRip] ++ e.codeList;
    let lip := s.seg.cs.base + e.oldRip;
    let finish (x : State) : State := { x with
      rip := rip
      flags := { x.flags with
        vm := false, nt := false, tf := false, rf := false
        fi := x.flags.fi && !(a.type = 0xE ∨ a.type = 6) } }
    let blocked (x : State) : State :=
      { x with exec := { x.exec with nmiBlocked := x.exec.nmiBlocked || (e.vector == 2 && e.kind == .external) } }
    let gated : Prop := ready.readIdt e = .ok gate ∧ a.type ≠ 5 ∧ ready.gateTarget e gate = .ok rip ∧
      ready.readIntCs (gateSel gate) = .ok d;
    (s.protMode = true → s.longMode = true → ready.readIdt e = .ok gate →
      ready.sysReadLin (s.idtr.base + BitVec.ofNat 64 (e.vector.toNat * 16 + 8)) 8 = .ok d → d.toNat / 2 ^ 40 % 32 ≠ 0 →
      s.deliverOnce e = .error (.exc { name := .gp, code := some (BitVec.ofNat 32 (e.vector.toNat * 8 + 2)), sel := true })) ∧
    (s.protMode = true → ready.readIdt e = .ok gate → a.type = 5 → (gateSel gate).getLsbD 2 = false →
      ready.readDesc (gpSel (gateSel gate)) (gateSel gate) = .ok d → (descAttr d).s = false →
      ((descAttr d).type = 1 ∨ (descAttr d).type = 9) → (descAttr d).p = true → s.deliverOnce e = .error (.refuse .taskSwitch)) ∧
    (s.protMode = true → gated →
      let level := if (descAttr d).conforming then s.cpl else (descAttr d).dpl;
      let cs := descSeg (withRpl (gateSel gate) level) d;
      let ist : Nat := if s.longMode then gateIst gate else 0
      let frame := (if s.longMode then outer else []) ++ core;
      let current := (ready.setCs cs s.cpl).setRsp s.gpr.rsp;
      let moved := current.setRsp (sp &&& ~~~(0xF : Quad));
      let stack := ready.enterInner cs level st (if s.longMode then sp &&& ~~~(0xF : Quad) else sp);
      let left (x : State) : State :=
        if s.shadowEnabled 3 = true ∧ s.cpl = 3 then { x with cet := { x.cet with pl3Ssp := s.cet.ssp } } else x
      (level = s.cpl → ist = 0 → current.pushAllE ss0 bytes frame = .ok u →
        (s.shadowEnabled s.cpl = false → u.targetOk rip = true → s.deliverOnce e = .ok (blocked (finish u))) ∧
        (s.shadowEnabled s.cpl = true → u.alignSsp = .ok x → x.pushSsFrame s.seg.cs.sel lip s.cet.ssp = .ok y →
          y.targetOk rip = true → s.deliverOnce e = .ok (blocked (finish y)))) ∧
      (level = s.cpl → ist ≠ 0 → current.tssRead (ist * 8 + 28) 8 = .ok sp →
        (s.shadowEnabled s.cpl = false → moved.pushAllE (excSel .ss s.seg.ss.sel) bytes frame = .ok u → u.targetOk rip = true →
          s.deliverOnce e = .ok (blocked (finish u))) ∧
        (s.shadowEnabled s.cpl = true → moved.isstSsp ist = .ok ssp →
          (ssp.toNat % 8 ≠ 0 → s.deliverOnce e = .error gp0) ∧
          (ssp.toNat % 8 = 0 → (moved.setSsp ssp).pushAllE (excSel .ss s.seg.ss.sel) bytes frame = .ok u →
            u.setTokenBusy ssp = .ok v → v.pushSsFrame s.seg.cs.sel lip s.cet.ssp = .ok y → y.targetOk rip = true →
            s.deliverOnce e = .ok (blocked (finish y))))) ∧
      (level ≠ s.cpl → (ready.setCs cs level).innerStack level ist = .ok (st, sp) →
        (s.shadowEnabled level = false → stack.pushAllE (excSel .ss st.sel) bytes (outer ++ core) = .ok u →
          u.targetOk rip = true → s.deliverOnce e = .ok (blocked (finish (left u)))) ∧
        (s.shadowEnabled level = true →
          (if ist = 0 then ssp = s.cet.plSsp level else stack.isstSsp ist = .ok ssp) →
          (ssp.toNat % 8 ≠ 0 → s.deliverOnce e = .error gp0) ∧
          (ssp.toNat % 8 = 0 → stack.pushAllE (excSel .ss st.sel) bytes (outer ++ core) = .ok u →
            ((left u).setSsp ssp).setTokenBusy ssp = .ok v →
            (if s.cpl = 3 then y = v else v.pushSsFrame s.seg.cs.sel lip s.cet.ssp = .ok y) → y.targetOk rip = true →
            s.deliverOnce e = .ok (blocked (finish y)))))) ∧
    (s.virtMode = true → s.longMode = false →
      let interrupt : Prop := e.kind = .software ∧ e.intN = true;
      let bitmap (b : Bool) : Prop := ∃ io, ready.tableRead gp0 s.tr.base s.tr.limit 102 2 = .ok io ∧
        ready.tssBit (io - 32).toNat e.vector.toNat = .ok b;
      let byGate : Prop := ¬interrupt ∨ s.flags.iopl = 3 ∧ (s.cr4Bit 0 = false ∨ bitmap true);
      let cs := descSeg (withRpl (gateSel gate) 0) d;
      let cleared : State := { ready with flags := { s.flags with vm := false } };
      (byGate → gated → (descAttr d).dpl = 0 → (descAttr d).conforming = false →
        (cleared.setCs cs 0).innerStack 0 0 = .ok (st, sp) →
        (cleared.enterInner cs 0 st sp).pushAllE (excSel .ss st.sel) bytes
          ([zx s.seg.gs, zx s.seg.fs, zx s.seg.ds, zx s.seg.es] ++ outer ++ core) = .ok u →
        u.targetOk rip = true →
        let gone (r : SegReg) : SegReg := { r with sel := 0 }
        let z := finish { u with seg := { u.seg with
          ds := gone s.seg.ds, es := gone s.seg.es, fs := gone s.seg.fs, gs := gone s.seg.gs } };
        let shadow := s.cr4Bit 23 && s.cet.sCet.getLsbD 0;
        (shadow = false → s.deliverOnce e = .ok (blocked z)) ∧
        (shadow = true → (z.setSsp s.cet.pl0Ssp).setTokenBusy s.cet.pl0Ssp = .ok y → s.deliverOnce e = .ok (blocked y))) ∧
      (interrupt → s.flags.iopl ≠ 3 → (s.cr4Bit 0 = false ∨ bitmap true) → s.deliverOnce e = .error gp0) ∧
      (interrupt → s.cr4Bit 0 = true → bitmap false → ready.sysReadLin (BitVec.ofNat 64 (e.vector.toNat * 4)) 2 = .ok rip →
        ready.sysReadLin (BitVec.ofNat 64 (e.vector.toNat * 4 + 2)) 2 = .ok d →
        let pushed : Flags :=
          if s.flags.iopl = 3 then { s.flags with rf := e.rf } else { s.flags with rf := e.rf, fi := s.flags.vif, iopl := 3 };
        ready.pushAllE ss0 2 [pushed.toBits, zx s.seg.cs, e.savedRip] = .ok u →
        s.deliverOnce e = .ok { u with
          rip := rip
          flags := { s.flags with
            tf := false, rf := false
            fi := if s.flags.iopl = 3 then false else s.flags.fi
            vif := if s.flags.iopl = 3 then s.flags.vif else false }
          seg := { s.seg with cs := { s.seg.cs with
            sel := BitVec.ofNat 16 d.toNat, base := BitVec.ofNat 64 (d.toNat % 2 ^ 16 * 16) } }
          exec := { ready.exec with monitor := { s.exec.monitor with armed := false } } }))

/-- IRET, IRETD and IRETQ (R715 to R721): rIP, CS and rFLAGS popped in real mode, in virtual-8086 mode at IOPL 3 or with CR4.VME, where
VIF takes the popped IF (R719), and in protected mode to the same and to an outer level, where SS and RSP are popped too; and from CPL 0
of legacy protected mode to virtual-8086 mode, with every segment register (R720); NMIs are unblocked. With shadow stacks the frame is
compared, the token released, and SSP is the one that was saved. With NT = 1 protected mode has #GP(0) in long mode and the refusal
`taskSwitch` in legacy mode. The model's choices: RSP keeps all 64 bits at the same level (log 41), a null SS keeps its hidden part
(log 22), the types of the virtual-8086 segments (log 29), the shadow stack of CPL 0 left for virtual-8086 mode (log 48),
shadow-stack addresses of 64 bits in every mode (log 52), RSP written at the stack size of the SS it returns to (log 51), and the low 16
bits of the popped CS compared with the shadow-stack frame (log 56). -/
def Obligations.IretResult : Prop :=
  ∀ (s a b c y z : State) (rip cs image rsp ss d : Quad) (st : SegReg), s.flags.tf = false →
    ∀ x ∈ [(Width.w16, Instr.iret), (.w32, .iretd), (.w64, .iretq)],
    let n := x.1.bytes;
    let loaded := c.flags.load x.1 image;
    let unblocked (t : State) : State := { t with exec := { t.exec with nmiBlocked := false } };
    let sel := BitVec.ofNat 16 cs.toNat;
    let on := s.shadowEnabled s.cpl;
    let no : Host.Outcome State Fault Refusal := s.raise { name := .gp, code := some 0 }
    let real (f : Flags) : Host.Outcome State Fault Refusal :=
      .next (unblocked { c with
        rip := rip
        flags := f
        seg := { c.seg with cs := { c.seg.cs with sel := sel, base := BitVec.ofNat 64 (sel.toNat * 16) } }
        exec := { c.exec with monitor := { c.exec.monitor with armed := false } } })
    let back (t : State) : Host.Outcome State Fault Refusal :=
      .next (unblocked { t with
        rip := rip
        flags := { loaded with
          vif := if s.cpl = 0 then loaded.vif else c.flags.vif
          vip := if s.cpl = 0 then loaded.vip else c.flags.vip
          iopl := if s.cpl = 0 then loaded.iopl else c.flags.iopl
          fi := if s.cpl ≤ c.flags.iopl then loaded.fi else c.flags.fi
          vm := c.flags.vm
          rf := false } })
    let low (t : State) (ssp : Quad) : Prop := t.compatMode = true → ssp.toNat < 2 ^ 32;
    (s.start.pop n = .ok (rip, a) → a.pop n = .ok (cs, b) → b.pop n = .ok (image, c) →
      (s.realMode = true → c.targetOk rip = true →
        exec x.2 s = real { loaded with vif := c.flags.vif, vip := c.flags.vip, vm := c.flags.vm }) ∧
      (s.virtMode = true → c.targetOk rip = true →
        (s.flags.iopl = 3 → exec x.2 s = real { loaded with
          vif := c.flags.vif, vip := c.flags.vip, vm := c.flags.vm, iopl := c.flags.iopl, rf := false }) ∧
        (s.flags.iopl ≠ 3 → s.cr4Bit 0 = true → exec x.2 s =
          if x.1 = .w16 ∧ ¬(image.getLsbD 9 = true ∧ s.flags.vip = true) ∧ image.getLsbD 8 = false then
            real { loaded with vif := image.getLsbD 9, fi := c.flags.fi, iopl := c.flags.iopl, rf := false }
          else no)) ∧
      (s.protMode = true → s.flags.nt = false → ¬(image.getLsbD 17 = true ∧ s.cpl = 0 ∧ s.longMode = false) →
        (rpl sel = s.cpl → s.mode64 = false → c.readIretCs sel = .ok d →
          let t := (c.setCs (descSeg sel d) s.cpl).setRsp c.gpr.rsp;
          t.targetOk rip = true →
          (on = false → exec x.2 s = back t) ∧
          (∀ prev f g, on = true → s.cet.ssp.toNat % 8 = 0 → t.popSsFrame sel (t.seg.cs.base + rip) s.cpl = .ok (prev, f) →
            low f prev → (if s.longMode then f.clearToken f.cet.ssp (prev == f.cet.ssp) = .ok g else g = f) →
            exec x.2 s = back (g.setSsp prev))) ∧
        (s.cpl < rpl sel ∨ rpl sel = s.cpl ∧ s.mode64 = true →
          c.pop n = .ok (rsp, y) → y.pop n = .ok (ss, z) → z.readIretCs sel = .ok d →
          let t := z.setCs (descSeg sel d) (rpl sel);
          t.targetOk rip = true → t.returnSs (BitVec.ofNat 16 ss.toNat) (rpl sel) = .ok st →
          let q := ({ t with seg := { t.seg with ss := st } } : State).writeRsp rsp;
          let leave (r : State) : State := { r with seg := r.seg.leaveLevel (rpl sel) };
          (rpl sel = s.cpl → on = false → exec x.2 s = back q) ∧
          (s.cpl < rpl sel → s.sstkEnabled = false → exec x.2 s = back (leave q)) ∧
          (∀ prev f g, rpl sel = s.cpl → on = true → s.cet.ssp.toNat % 8 = 0 →
            q.popSsFrame sel (q.seg.cs.base + rip) s.cpl = .ok (prev, f) → low f prev →
            (if s.longMode then f.clearToken f.cet.ssp (prev == f.cet.ssp) = .ok g else g = f) →
            exec x.2 s = back (g.setSsp prev)) ∧
          (∀ prev f g, s.cpl < rpl sel → (on = true → s.cet.ssp.toNat % 8 = 0) →
            (if on = true ∧ rpl sel ≠ 3 then z.popSsFrame sel (q.seg.cs.base + rip) s.cpl = .ok (prev, f)
             else prev = s.cet.ssp ∧ f = z) →
            let new := if rpl sel = 3 then s.cet.pl3Ssp else prev;
            (s.shadowEnabled (rpl sel) = true → low q new) →
            let r := q.setSsp (if s.shadowEnabled (rpl sel) then new else f.cet.ssp);
            (if on then ({ r with cpl := s.cpl } : State).clearToken f.cet.ssp false = .ok g else g = r) →
            exec x.2 s = back (leave { g with cpl := rpl sel })))) ∧
      (∀ (p : Fin 6 → Quad) (t : Fin 7 → State) (u : State), s.protMode = true → s.flags.nt = false → s.cpl = 0 →
        s.longMode = false → image.getLsbD 17 = true → t 0 = c → (∀ i : Fin 6, (t i.castSucc).pop 4 = .ok (p i, t i.succ)) →
        let seg (code : Bool) (v : Quad) : SegReg := {
          sel := BitVec.ofNat 16 v.toNat, base := BitVec.ofNat 64 (v.toNat % 2 ^ 16 * 16), limit := 0xFFFF
          attr := {
            type := if code then 0xB else 3, s := true, dpl := 3, p := true, avl := false, l := false, db := false, g := false } }
        (if s.shadowEnabled 0 then (t 6).clearToken s.cet.ssp false = .ok u else u = t 6) →
        exec x.2 s = .next (unblocked (({ u with
          seg := { es := seg false (p 2), cs := seg true cs, ss := seg false (p 1), ds := seg false (p 3), fs := seg false (p 4)
                   gs := seg false (p 5) }
          cpl := 3
          flags := c.flags.load .w32 image
          rip := BitVec.ofNat 64 (rip.toNat % 2 ^ 16)
          exec := { u.exec with monitor := { u.exec.monitor with armed := false } } } : State).writeGpr .w32 .rsp (p 0))))) ∧
    (s.virtMode = true → s.flags.iopl ≠ 3 → s.cr4Bit 0 = false → exec x.2 s = no) ∧
    (s.protMode = true → s.flags.nt = true → exec x.2 s = if s.longMode then no else .refused .taskSwitch)

/-- IRET in the handler of INT n undoes the interrupt in real mode (R411, R715): every register, every segment register and
rFLAGS are as before, but for AC and RF, which the interrupt clears; rIP is past the INT, and memory is changed only in the six
bytes of the frame. -/
def Obligations.IretUndoesInterrupt : Prop :=
  ∀ (s t : State) (v : Byte) (n : Quad), s.realMode = true → s.longMode = false → s.flags.tf = false →
    s.cfg.paging = .identity → s.seg.ss.attr.db = false → s.seg.cs.base = BitVec.ofNat 64 (s.seg.cs.sel.toNat * 16) →
    s.nextRip.toNat < 2 ^ 16 → s.nextRip.toNat ≤ s.seg.cs.limit.toNat → 6 ≤ uns .w16 s.gpr.rsp →
    s.start.deliverOnce { vector := v, kind := .software, savedRip := s.nextRip, oldRip := s.rip, intN := true } = .ok t →
    exec (.int v) s = .next t ∧
    ∃ u, exec .iret { t with nextRip := n } = .next u ∧ u.rip = s.nextRip ∧
      u.flags = { s.flags with ac := false, rf := false } ∧ u.gpr = s.gpr ∧ u.seg = s.seg ∧ u.cpl = s.cpl ∧
      ∀ b, (∀ i < 6, b ≠ (s.seg.ss.base.toNat + uns .w16 s.gpr.rsp - 6 + i) % 2 ^ 32) →
        Memory.read u.mem b = Memory.read s.mem b

/-- Exceptions while delivering (R925): contributory after contributory or page fault, and page fault after page fault, make
#DF(0); any other pair delivers the second one, EXT set in a code that names a selector or a gate unless the first event is a
software interrupt (R912, R920); an exception while delivering #DF ends in shutdown. CR2 follows each page fault. The model's
choice (log 9): the second delivery saves the rIP of the first event, with RF = 1 in its image. -/
def Obligations.DoubleFaults : Prop :=
  ∀ (s t : State) (e : Event) (x : Exn), s.deliverOnce e = .error (.exc x) →
    let contributory : List Byte := [0, 10, 11, 12, 13, 21];
    let first (l : List Byte) : Prop := e.kind = .exception ∧ e.vector ∈ l;
    let double : Prop := first contributory ∧ x.name.vector ∈ contributory ∨
      first [14] ∧ (x.name.vector ∈ contributory ∨ x.name.vector = 14);
    let noted := match x.cr2 with
      | some a => { s with ctl := { s.ctl with cr2 := a } }
      | none => s
    (e.kind = .exception → e.vector = 8 →
      s.take e = .next { noted with exec := { noted.exec with activity := .shutdown } }) ∧
    (double → noted.deliverOnce
        { vector := 8, kind := .exception, code := some 0, savedRip := e.savedRip, oldRip := e.oldRip, rf := true } = .ok t →
      s.take e = .next t) ∧
    (¬first [8] → ¬double → noted.deliverOnce
        { vector := x.name.vector, kind := .exception, code := x.code.map fun c => if x.sel = true ∧ e.kind ≠ .software then c ||| 1 else c,
          savedRip := e.savedRip, oldRip := e.oldRip, rf := true } = .ok t →
      s.take e = .next t)

/-- The single-step trap (R926) and the state an exception sees (R906): an instruction that begins with TF = 1 and completes is
followed by #DB with DR6.BS set and the new rIP saved, unless it opened the shadow of SS; one that raises an exception is delivered from
the state before it, its own rIP saved with RF = 1 for a fault. The model's choices: INT1 (R244, D50) too is followed by the
trap, after the #DB it raises (log 14), and the linear address in the shadow-stack frame of a trap is that of the saved rIP (log 9). -/
def Obligations.SingleStepTrap : Prop :=
  ∀ (s t : State) (x : Exn) (body : State → Res State),
    let stepped (u : State) : State := { u with dbg := { u.dbg with dr6 := u.dbg.dr6 ||| 0x4000 } };
    let trap (u : State) : Event := { vector := 1, kind := .exception, savedRip := u.rip, oldRip := u.rip };
    (s.flags.tf = true → (stepped s.start).deliverOnce (trap s.start) = .ok t → exec (.nop none) s = .next t) ∧
    (s.flags.tf = true → t.exec.shadow ≠ .ss →
      s.deliverOnce { vector := 1, kind := .exception, savedRip := s.nextRip, oldRip := s.nextRip } = .ok t →
      exec .int1 s = (stepped t).take (trap t)) ∧
    (body s.start = .ok t → s.flags.tf = true → t.exec.shadow ≠ .ss → run s body = (stepped t).take (trap t)) ∧
    (body s.start = .ok t → s.flags.tf = true → t.exec.shadow = .ss → run s body = .next t) ∧
    (x.cr2 = none → x.trap = false →
      s.deliverOnce { vector := x.name.vector, kind := .exception, code := x.code, savedRip := s.rip, oldRip := s.rip, rf := true }
        = .ok t → s.raise x = .next t)

/-- No instruction at CPL 3 changes the descriptor-table registers, LDTR, TR, CR0, CR3, CR4, CR8, EFER, the debug address
registers or DR7, outside a guest (R57, R928 and the privilege checks of the instructions): not even one that enters the kernel. -/
def Obligations.UserModeKeepsSystemState : Prop :=
  ∀ (i : Instr) (s t : State), s.cpl = 3 → s.svm.guest = false → exec i s = .next t →
    t.gdtr = s.gdtr ∧ t.idtr = s.idtr ∧ t.ldtr = s.ldtr ∧ t.tr = s.tr ∧
    t.ctl.cr0 = s.ctl.cr0 ∧ t.ctl.cr3 = s.ctl.cr3 ∧ t.ctl.cr4 = s.ctl.cr4 ∧ t.ctl.cr8 = s.ctl.cr8 ∧ t.ctl.efer = s.ctl.efer ∧
    t.dbg.dr0 = s.dbg.dr0 ∧ t.dbg.dr1 = s.dbg.dr1 ∧ t.dbg.dr2 = s.dbg.dr2 ∧ t.dbg.dr3 = s.dbg.dr3 ∧ t.dbg.dr7 = s.dbg.dr7 ∧
    t.svm = s.svm ∧ t.cfg = s.cfg ∧ t.pins = s.pins

/-! ### Strings and ports -/

/-- One iteration of the string instructions, and IN and OUT (R368, R457, R476, R581, R592, R409, R515, R407, R514, R130, R131): the
element at seg:rSI or ES:rDI, the pointers moved by its size in the direction of DF, the flags of a comparison, and the port in DX;
where the privilege test or the bitmap of the TSS allows the port. By default a port reads all ones and drops what is written (D14);
otherwise the devices of the host answer, and change with each access (what they hold is in a field of the model's own, log 16). -/
def Obligations.StringIteration : Prop :=
  ∀ (s : State) (w : Width) (seg : SegName) (asz : ASize) (port : Port) (base : Quad) (ps qs : List Nat),
    s.flags.tf = false →
    let a := addrWidth asz;
    let n := w.bytes;
    let si := BitVec.ofNat 64 (uns a s.gpr.rsi);
    let di := BitVec.ofNat 64 (uns a s.gpr.rdi);
    let dx : BitVec 16 := s.gpr.rdx.setWidth 16;
    let pick (byte other : Rep → Instr) : Instr := if w = .w8 then byte .none else other .none
    let port32 (byte word dword : Rep → Instr) : Instr :=
      if w = .w8 then byte .none else if w = .w16 then word .none else dword .none
    let sent (p : BitVec 16) (k v : Nat) : State :=
      if s.cfg.io = .default then s.start
      else { s.start with devices := Config.ioWrite s.devices s.freeCount p k (BitVec.ofNat 32 (v % 256 ^ k)) }
    let got (p : BitVec 16) (k : Nat) : Nat × State :=
      if s.cfg.io = .default then (256 ^ k - 1, s.start)
      else
        let r := Config.ioRead s.devices s.freeCount p k
        (r.1.toNat % 256 ^ k, { s.start with devices := r.2 })
    (s.start.access seg si n false = .ok ps →
      let v := BitVec.ofNat 64 (s.loadAt ps);
      exec (pick (.lodsb seg asz) (.lodsv w seg asz)) s = .next ((s.start.writeGpr w .rax v).move asz .rsi n) ∧
      (s.start.access .es di n true = .ok qs → exec (pick (.movsb seg asz) (.movsv w seg asz)) s =
        .next (((s.start.storeAt qs (s.loadAt ps)).move asz .rsi n).move asz .rdi n)) ∧
      (s.start.access .es di n false = .ok qs → exec (pick (.cmpsb seg asz) (.cmpsv w seg asz)) s =
        .next (((s.start.setFlags (diffFlags s.start.flags w v (BitVec.ofNat 64 (s.loadAt qs)) false)).move asz .rsi n).move
          asz .rdi n)) ∧
      (w ≠ .w64 → s.start.ioCheck dx n = .ok () →
        exec (port32 (.outsb seg asz) (.outsw seg asz) (.outsd seg asz)) s = .next ((sent dx n (s.loadAt ps)).move asz .rsi n))) ∧
    (s.start.access .es di n false = .ok qs → exec (pick (.scasb asz) (.scasv w asz)) s =
      .next ((s.start.setFlags (diffFlags s.start.flags w s.gpr.rax (BitVec.ofNat 64 (s.loadAt qs)) false)).move asz .rdi n)) ∧
    (s.start.access .es di n true = .ok qs →
      exec (pick (.stosb asz) (.stosv w asz)) s = .next ((s.start.storeAt qs (uns w s.gpr.rax)).move asz .rdi n) ∧
      (w ≠ .w64 → s.start.ioCheck dx n = .ok () →
        exec (port32 (.insb asz) (.insw asz) (.insd asz)) s =
          .next (((got dx n).2.storeAt qs (got dx n).1).move asz .rdi n))) ∧
    (let number : BitVec 16 := match port with
        | .imm v => v.setWidth 16
        | .dx => dx
     let pw := if w = .w64 then Width.w32 else w;
     (s.start.ioCheck number pw.bytes = .ok () →
      exec (.out w port) s = .next (sent number pw.bytes s.gpr.rax.toNat) ∧
      exec (.inp w port) s = .next ((got number pw.bytes).2.writeGpr pw .rax (BitVec.ofNat 64 (got number pw.bytes).1))) ∧
     (s.virtMode = false → (s.protMode = true → s.cpl ≤ s.flags.iopl) → s.start.ioCheck number pw.bytes = .ok ()) ∧
     ((s.virtMode = true ∨ s.protMode = true ∧ s.flags.iopl < s.cpl) → s.tr.attr.type ≠ 1 → s.tr.attr.type ≠ 3 →
      s.tableRead gp0 s.tr.base s.tr.limit 102 2 = .ok base →
      ((∀ i < pw.bytes, s.tssBit base.toNat (number.toNat + i) = .ok false) → s.start.ioCheck number pw.bytes = .ok ()) ∧
      (s.tssBit base.toNat number.toNat = .ok true →
        exec (.out w port) s = s.raise { name := .gp, code := some 0 } ∧
        exec (.inp w port) s = s.raise { name := .gp, code := some 0 })))

/-- The repeat prefixes (R166, R930): with rCX = 0 nothing happens; otherwise one iteration, rCX less one, and either the end, when
rCX is 0 or ZF says so for CMPS and SCAS, or the instruction again, with the bytes it was fetched with (20_memory.md R145); an
exception in the iteration is raised as without the prefix. The model's choice (log 25): the interrupt shadow is kept from one
iteration to the next. -/
def Obligations.StringRepeat : Prop :=
  ∀ (s u : State) (w : Width) (seg : SegName) (asz : ASize) (rep : Rep) (e : Exn), s.flags.tf = false → rep ≠ .none →
    let a := addrWidth asz;
    ∀ x ∈ stringForms w seg asz,
      (uns a s.gpr.rcx = 0 → exec (x.2.1 rep) s = .next s.start) ∧
      (x.2.2 s.start = .ok u →
        exec (x.2.1 .none) s = .next u ∧
        (uns a s.gpr.rcx ≠ 0 →
          let c := uns a s.gpr.rcx - 1;
          let v := u.writeGpr a .rcx (BitVec.ofNat 64 c);
          let ends := c = 0 ∨ x.1 = true ∧ (rep = .repe ∧ u.flags.zf = false ∨ rep = .repne ∧ u.flags.zf = true);
          exec (x.2.1 rep) s = .next (if ends then v
            else { v with rip := s.rip, exec := { v.exec with shadow := s.exec.shadow, latch := s.exec.latch } }))) ∧
      (x.2.2 s.start = .error (.exc e) → uns a s.gpr.rcx ≠ 0 →
        exec (x.2.1 .none) s = s.raise e ∧ exec (x.2.1 rep) s = s.raise e)

/-! ### The stack -/

/-- PUSH, POP, PUSHA, POPA, PUSHF, POPF, ENTER and LEAVE in their sizes (R110, R173, R530, R520, R531, R524, R532, R526, R404,
R454): what is stored and where, rSP at the stack size, and the flags that POPF may change by mode and level. -/
def Obligations.StackResult : Prop :=
  ∀ (s t u z y : State) (w : Width) (rm : RM) (g : GReg) (m : Mem) (n : SegName) (imm v : Quad) (size : BitVec 16) (level : Byte)
    (ps : List Nat) (slot : Nat → List Nat) (p : Place), s.flags.tf = false →
    let sw := s.stackWidth;
    let top := wrap sw (uns sw s.gpr.rsp);
    let below := wrap sw (uns sw s.gpr.rsp - w.bytes);
    (s.start.access .ss below w.bytes true = .ok ps →
      let pushed (v : Nat) : Host.Outcome State Fault Refusal := .next ((s.start.storeAt ps v).writeGpr sw .rsp below)
      (s.start.readRM w rm = .ok v → exec (.push w (.rm rm)) s = pushed v.toNat) ∧
      exec (.push w (.imm imm)) s = pushed (uns w imm) ∧
      ((s.mode64 = true → n = .fs ∨ n = .gs) → exec (.push w (.seg n)) s = pushed (s.sreg n).sel.toNat)) ∧
    (s.start.access .ss top w.bytes false = .ok ps →
      let v := BitVec.ofNat 64 (s.loadAt ps);
      let popped := s.start.writeGpr sw .rsp (s.gpr.rsp + BitVec.ofNat 64 w.bytes);
      exec (.pop w (.rm (.reg g))) s = .next (popped.writeGReg w g v) ∧
      (popped.place w true (.mem m) = .ok p → exec (.pop w (.rm (.mem m))) s = .next (popped.putAt w p v))) ∧
    (∀ x ∈ [(Width.w16, Instr.pusha, Instr.popa), (.w32, .pushad, .popad)], s.mode64 = false →
      (s.start.pushAllE ss0 x.1.bytes ([Gpr.rax, .rcx, .rdx, .rbx, .rsp, .rbp, .rsi, .rdi].map (s.readGpr x.1)) = .ok t →
        exec x.2.1 s = .next t) ∧
      ((∀ i < 8, s.start.access .ss (wrap sw (uns sw s.gpr.rsp + i * x.1.bytes : Nat)) x.1.bytes false = .ok (slot i)) →
        exec x.2.2 s = .next (([(0, Gpr.rdi), (1, .rsi), (2, .rbp), (4, .rbx), (5, .rdx), (6, .rcx), (7, .rax)].foldl
          (fun t r => t.writeGpr x.1 r.2 (BitVec.ofNat 64 (s.loadAt (slot r.1)))) s.start).writeGpr sw .rsp
            (s.gpr.rsp + BitVec.ofNat 64 (8 * x.1.bytes))))) ∧
    (∀ x ∈ [(Width.w16, Instr.pushf, Instr.popf), (.w32, .pushfd, .popfd), (.w64, .pushfq, .popfq)],
      let f := s.start.flags;
      let plain := s.virtMode = false ∨ s.flags.iopl = 3;
      let image := { f with rf := false, vm := false };
      (plain → s.start.push x.1.bytes image.toBits = .ok t → exec x.2.1 s = .next t) ∧
      (¬plain → s.cr4Bit 0 = true → x.1 = .w16 → s.start.push 2 { image with fi := f.vif, iopl := 3 }.toBits = .ok t →
        exec x.2.1 s = .next t) ∧
      (¬plain → (s.cr4Bit 0 = false ∨ x.1 ≠ .w16) →
        exec x.2.1 s = s.raise { name := .gp, code := some 0 } ∧ exec x.2.2 s = s.raise { name := .gp, code := some 0 }) ∧
      (s.start.pop x.1.bytes = .ok (v, u) →
        let loaded := { f.load x.1 v with vm := f.vm, vif := f.vif, vip := f.vip, rf := false };
        (s.virtMode = false → exec x.2.2 s = .next (u.setFlags { loaded with
          iopl := if s.cpl = 0 then loaded.iopl else f.iopl
          fi := if s.cpl ≤ f.iopl then loaded.fi else f.fi })) ∧
        (s.virtMode = true → s.flags.iopl = 3 → exec x.2.2 s = .next (u.setFlags { loaded with iopl := f.iopl })) ∧
        (¬plain → s.cr4Bit 0 = true → x.1 = .w16 → exec x.2.2 s =
          if v.getLsbD 9 && f.vip || v.getLsbD 8 then s.raise { name := .gp, code := some 0 }
          else .next (u.setFlags { loaded with vif := v.getLsbD 9, iopl := f.iopl, fi := f.fi })))) ∧
    (s.start.push w.bytes s.gpr.rbp = .ok t →
      (if level.toNat % 32 = 0 then y = t
        else t.copyDisplay w.bytes s.gpr.rbp (level.toNat % 32 - 1) 1 = .ok z ∧ z.push w.bytes t.gpr.rsp = .ok y) →
      u = y.writeGpr sw .rsp (y.gpr.rsp - BitVec.ofNat 64 size.toNat) →
      u.access .ss (wrap sw (uns sw u.gpr.rsp)) w.bytes true = .ok ps →
      exec (.enter w size level) s = .next (u.writeGpr w .rbp t.gpr.rsp)) ∧
    (s.start.access .ss (wrap sw (uns sw s.gpr.rbp)) w.bytes false = .ok ps →
      exec (.leave w) s = .next ((s.start.writeGpr sw .rsp
        (BitVec.ofNat 64 (uns sw s.gpr.rbp + w.bytes))).writeGpr w .rbp (BitVec.ofNat 64 (s.loadAt ps))))

/-! ### System instructions -/

/-- ARPL, LAR, LSL, VERR, VERW, and the loads and stores of GDTR, IDTR, LDTR, TR and the machine status word (R700, R722, R727,
R837, R838, R723, R724, R725, R728, R822, R823, R825, R830, R826, R726). A query of a selector that is null, outside its table or
not accessible clears ZF and writes nothing. The model's choice: LLDT and LTR read 16 bytes in 64-bit mode and 8 in compatibility
mode, as R725 and R728 say, where R278 has 16 in both (log 49). -/
def Obligations.DescriptorInstructions : Prop :=
  ∀ (s : State) (w : Width) (rm : RM) (dst : Gpr) (m : Mem) (g : GReg) (v d hi : Quad) (p : Place) (ps qs : List Nat),
    s.flags.tf = false →
    let sel : BitVec 16 := BitVec.ofNat 16 v.toNat;
    let zf (t : State) (b : Bool) : Host.Outcome State Fault Refusal := .next (t.setFlags { t.flags with zf := b })
    let ldt := sel.getLsbD 2;
    let offset := sel.toNat / 8 * 8;
    let base := (if ldt then s.ldtr.base else s.gdtr.base) + BitVec.ofNat 64 offset;
    let limit := if ldt then s.ldtr.limit.toNat else s.gdtr.limit.toNat;
    let visible := 4 ≤ sel.toNat ∧ (ldt = true → 4 ≤ s.ldtr.sel.toNat) ∧ offset + 7 ≤ limit;
    let a := descAttr d;
    let allowed : Bool := a.conforming || (s.cpl ≤ a.dpl && rpl sel ≤ a.dpl);
    let base4 := BitVec.ofNat 64 (s.loadAt qs);
    (s.protMode = true →
      (s.start.place .w16 true rm = .ok p →
        let old := s.start.getAt .w16 p;
        let new := (s.reg dst).toNat % 4;
        exec (.arpl rm dst) s =
          if old.toNat % 4 < new then
            zf (s.start.putAt .w16 p (BitVec.ofNat 64 (old.toNat / 4 * 4 + new))) true
          else zf s.start false) ∧
      (s.start.readRM .w16 rm = .ok v →
        (¬visible → ∀ i ∈ [Instr.lar w dst rm, .lsl w dst rm, .verr rm, .verw rm], exec i s = zf s.start false) ∧
        (visible → s.start.sysReadLin base 8 = .ok d →
          exec (.verr rm) s = zf s.start (a.readable && allowed) ∧ exec (.verw rm) s = zf s.start (a.writable && allowed) ∧
          (∀ x ∈ [(Instr.lar w dst rm, [2, 9, 0xB, 0xC], [1, 3, 4, 5],
              BitVec.ofNat 64 (d.toNat / 2 ^ 32 &&& (if w = .w16 then 0xFF00 else 0xFFFF00))),
            (.lsl w dst rm, [2, 9, 0xB], [1, 3], (descLimit d).setWidth 64)],
            let known : Bool := a.s || a.type ∈ x.2.1 || (!s.longMode && a.type ∈ x.2.2.1)
            let long16 : Bool := !a.s && (if a.type = 0xC then s.longMode else s.mode64)
            ((allowed && known) = false → exec x.1 s = zf s.start false) ∧
            ((allowed && known) = true →
              (long16 = false → exec x.1 s = zf (s.start.writeGpr w dst x.2.2.2) true) ∧
              (long16 = true → limit < offset + 15 → exec x.1 s = zf s.start false) ∧
              (long16 = true → offset + 15 ≤ limit → s.start.sysReadLin (base + 8) 8 = .ok hi →
                exec x.1 s = if hi.extractLsb' 40 5 = 0 then zf (s.start.writeGpr w dst x.2.2.2) true
                  else zf s.start false))))) ∧
      (s.cpl = 0 → s.start.readRM .w16 rm = .ok v →
        (sel.toNat < 4 → exec (.lldt rm) s = .next { s.start with ldtr := { s.ldtr with sel := sel } } ∧
          exec (.ltr rm) s = s.raise { name := .gp, code := some 0 }) ∧
        (4 ≤ sel.toNat → ldt = false → offset + (if s.mode64 then 15 else 7) ≤ limit → s.start.sysReadLin base 8 = .ok d →
          (if s.mode64 then s.start.sysReadLin (base + 8) 8 = .ok hi else hi = 0) → hi.extractLsb' 40 5 = 0 →
          a.s = false → a.p = true →
          let full := descBase d + (hi <<< 32);
          (s.mode64 = true → s.canonical full = true) →
          let reg : SegReg := { sel := sel, base := full, limit := descLimit d, attr := a }
          (a.type = 2 → exec (.lldt rm) s = .next { s.start with ldtr := reg }) ∧
          (a.type = 9 ∨ a.type = 1 ∧ s.longMode = false → s.start.sysSpan .write (base + 5) 1 = .ok ps →
            exec (.ltr rm) s = .next { s.start.storeAt ps (s.loadAt ps ||| 2) with
              tr := { reg with attr := { a with type := a.type ||| 2 } } }))) ∧
      exec (.sldt w (.reg g)) s = .next (s.start.writeGReg w g (s.ldtr.sel.setWidth 64)) ∧
      exec (.str w (.reg g)) s = .next (s.start.writeGReg w g (s.tr.sel.setWidth 64)) ∧
      (s.start.access m.seg (s.start.ea m) 2 true = .ok ps →
        exec (.sldt w (.mem m)) s = .next (s.start.storeAt ps s.ldtr.sel.toNat) ∧
        exec (.str w (.mem m)) s = .next (s.start.storeAt ps s.tr.sel.toNat))) ∧
    (s.cpl = 0 → s.start.access m.seg (s.start.ea m) 2 false = .ok ps →
      s.start.access m.seg (s.start.ea m + 2) (if s.mode64 then 8 else 4) false = .ok qs →
      let r : TableReg := { limit := BitVec.ofNat 16 (s.loadAt ps)
                            base := if s.mode64 = false ∧ w = .w16 then base4 &&& 0xFFFFFF else base4 }
      (s.mode64 = true → s.canonical base4 = true) →
      exec (.lgdt w m) s = .next { s.start with gdtr := r } ∧ exec (.lidt w m) s = .next { s.start with idtr := r }) ∧
    (s.start.access m.seg (s.start.ea m) 2 true = .ok ps →
      exec (.smsw w (.mem m)) s = .next (s.start.storeAt ps (s.ctl.cr0.toNat % 2 ^ 16)) ∧
      (∀ x ∈ [(Instr.sgdt m, s.gdtr), (.sidt m, s.idtr)],
        let n : Nat := if s.mode64 then 8 else 4;
        (s.start.storeAt ps x.2.limit.toNat).access m.seg (s.start.ea m + 2) n true = .ok qs →
        exec x.1 s = .next ((s.start.storeAt ps x.2.limit.toNat).storeAt qs (x.2.base.toNat % 256 ^ n)))) ∧
    exec (.smsw w (.reg g)) s = .next (s.start.writeGReg w g s.ctl.cr0) ∧
    (s.cpl = 0 → s.longMode = (s.eferBit 8 && s.pg) → s.start.readRM .w16 rm = .ok v →
      exec (.lmsw rm) s = .next { s.start with ctl := { s.ctl with
        cr0 := (s.ctl.cr0 &&& ~~~(0xE : Quad)) ||| BitVec.ofNat 64 (v.toNat % 16) ||| 0x10 } }) ∧
    (s.cpl ≠ 0 → ∀ i ∈ [Instr.lgdt w m, .lidt w m, .lmsw rm], exec i s = s.raise { name := .gp, code := some 0 }) ∧
    (s.protMode = false → ∀ i ∈ [Instr.arpl rm dst, .lar w dst rm, .lsl w dst rm, .verr rm, .verw rm, .lldt rm, .ltr rm,
      .sldt w rm, .str w rm], exec i s = s.raise { name := .ud })

/-- SYSCALL, SYSRET, SYSENTER, SYSEXIT and SWAPGS (R832 to R835, R831) with shadow stacks disabled: the flat code and stack
segments by their selectors, the levels, rIP, the flags and the registers that keep the return. The model's choices (log 29): the
types 0Ah and 02h and G = 0 of those segments (91_not_in_source.md N39 has the attributes that the Action does not name zero), and
SYSCALL outside protected mode by the letter of its Action. -/
def Obligations.FastSystemCalls : Prop :=
  ∀ (s : State) (w : Width), s.flags.tf = false → s.cr4Bit 23 = false →
    let star := s.msr.star;
    let callCs : BitVec 16 := star.extractLsb' 32 16;
    let retCs : BitVec 16 := star.extractLsb' 48 16;
    let sysCs : BitVec 16 := s.msr.sysenterCs.extractLsb' 0 16 &&& 0xFFFC;
    let enter (cs ss : SegReg) (cpl : BitVec 2) : State :=
      let t := s.start.setCs cs cpl
      { t with seg := { t.seg with ss := ss } }
    let back (sel : BitVec 16) (long : Bool) : State :=
      enter (forcedCode (sel ||| 3) 3 long) { s.seg.ss with sel := retCs + 8 } 3
    (s.feat.sysCallSysRet = true → s.eferBit 0 = true →
      (s.longMode = true →
        let t := enter (forcedCode (callCs &&& 0xFFFC) 0 true) (forcedStack (callCs + 8) 0) 0;
        exec .syscall s = .next { (t.setReg .rcx s.nextRip).setReg .r11 { s.flags with rf := false }.toBits with
          flags := { Flags.ofBits ({ s.flags with rf := false }.toBits &&& ~~~s.msr.sfmask) with rf := false }
          rip := if s.mode64 then s.msr.lstar else s.msr.cstar }) ∧
      (s.longMode = false →
        exec .syscall s = .next { (enter (forcedCode (callCs &&& 0xFFFC) 0 false) (forcedStack (callCs + 8) 0) 0).setReg
            .rcx (BitVec.ofNat 64 (uns .w32 s.nextRip)) with
          flags := { s.flags with vm := false, fi := false, rf := false }
          rip := BitVec.ofNat 64 (uns .w32 star) }) ∧
      (s.protMode = true → s.cpl = 0 → s.mode64 = true →
        let flags := { Flags.ofBits (BitVec.ofNat 64 (uns .w32 s.gpr.r11)) with rf := false, vm := false };
        exec (.sysret .w64) s = .next { back (retCs + 16) true with flags := flags, rip := s.gpr.rcx } ∧
        (w ≠ .w64 → exec (.sysret w) s =
          .next { back retCs false with flags := flags, rip := BitVec.ofNat 64 (uns .w32 s.gpr.rcx) })) ∧
      (s.protMode = true → s.cpl = 0 → s.mode64 = false → exec (.sysret w) s =
        .next { back retCs false with flags := { s.start.flags with fi := true }, rip := BitVec.ofNat 64 (uns .w32 s.gpr.rcx) }) ∧
      (s.protMode = false ∨ s.cpl ≠ 0 → exec (.sysret w) s = s.raise { name := .gp, code := some 0 })) ∧
    (s.feat.sysCallSysRet = false ∨ s.eferBit 0 = false →
      exec .syscall s = s.raise { name := .ud } ∧ exec (.sysret w) s = s.raise { name := .ud }) ∧
    (s.feat.sysEnterSysExit = true → s.longMode = false → sysCs ≠ 0 →
      (s.pe = true → exec .sysenter s =
        .next { (enter (forcedCode sysCs 0 false) (forcedStack (sysCs + 8) 0) 0).writeGpr .w32 .rsp s.msr.sysenterEsp with
          flags := { s.flags with vm := false, fi := false, rf := false }
          rip := BitVec.ofNat 64 (uns .w32 s.msr.sysenterEip) }) ∧
      (s.protMode = true → s.cpl = 0 → exec .sysexit s =
        .next { (enter (forcedCode ((sysCs + 16) ||| 3) 3 false) (forcedStack ((sysCs + 24) ||| 3) 3) 3).writeGpr .w32 .rsp
            s.gpr.rcx with
          rip := BitVec.ofNat 64 (uns .w32 s.gpr.rdx) }) ∧
      (s.pe = false → exec .sysenter s = s.raise { name := .gp, code := some 0 }) ∧
      (s.protMode = false ∨ s.cpl ≠ 0 → exec .sysexit s = s.raise { name := .gp, code := some 0 })) ∧
    (s.longMode = true → exec .sysenter s = s.raise { name := .ud } ∧ exec .sysexit s = s.raise { name := .ud }) ∧
    (s.mode64 = true → s.cpl = 0 → exec .swapgs s = .next { s.start with
      seg := { s.seg with gs := { s.seg.gs with base := s.msr.kernelGsBase } }
      msr := { s.msr with kernelGsBase := s.seg.gs.base } }) ∧
    (s.mode64 = false → exec .swapgs s = s.raise { name := .ud }) ∧
    (s.mode64 = true → s.cpl ≠ 0 → exec .swapgs s = s.raise { name := .gp, code := some 0 })

/-- RDMSR and WRMSR for every register of the model, RDPMC, RDTSC, RDTSCP, RDPKRU, WRPKRU and RSM (R767, R845, R69, R769, R771,
R772, R768, R846, R775): the value in EDX:EAX, the checks of a written value, and the traps of privilege and of registers that do
not exist; RSM outside system management raises #UD. The model's choices: what is stored of the upper halves of SFMASK and TSC_AUX,
the #GP(0) for bits 1:0 of PLn_SSP, and the free upper half of SFMASK on a read (log 28); a number that the parameter names and
R69 does not reads 0 (log 47, not stated here). -/
def Obligations.ModelSpecificRegisters : Prop :=
  ∀ (s t : State), s.flags.tf = false → s.cfg.perf = .default →
    let n : BitVec 32 := s.gpr.rcx.extractLsb' 0 32;
    let v : Quad := s.gpr.rdx.extractLsb' 0 32 ++ s.gpr.rax.extractLsb' 0 32;
    let stop (i : Instr) : Prop := exec i s = s.raise { name := .gp, code := some 0 };
    (s.feat.msr = true → s.cpl = 0 → n ∈ s.cfg.msrs →
      ∀ x ∈ msrTable s.start, x.1 = n →
        exec .rdmsr s = .next (s.start.pair x.2.1) ∧
        (let legal := (x.2.2.1 = true → s.canonical v = true) ∧ v &&& x.2.2.2.1 = 0 ∧
          (n = 0xC0000080 → s.pg = true → v.getLsbD 8 = s.eferBit 8);
         (legal → exec .wrmsr s = .next (x.2.2.2.2 v)) ∧ (¬legal → stop .wrmsr))) ∧
    (s.feat.msr = true → (s.cpl ≠ 0 ∨ n ∉ s.cfg.msrs) → stop .rdmsr ∧ stop .wrmsr) ∧
    (let counters : Nat := s.start.msr.perf.size;
     let exists_ : Bool := decide (n.toNat < 4) || (s.feat.perfCtrExtCore && 4 ≤ n.toNat && n.toNat < 6) ||
        (s.feat.perfCtrExtNb && 6 ≤ n.toNat && n.toNat < 10) || (s.feat.perfCtrExtL2i && 10 ≤ n.toNat && n.toNat < counters)
     (exists_ = true → (s.cpl = 0 ∨ s.cr4Bit 8 = true) → ∀ x ∈ s.msr.perf.toList.zipIdx, x.2 = n.toNat →
       exec .rdpmc s = .next (s.start.pair x.1)) ∧
     (exists_ = false ∨ s.cpl ≠ 0 ∧ s.cr4Bit 8 = false → stop .rdpmc)) ∧
    (let open_ := s.cpl = 0 ∨ s.cr4Bit 2 = false;
     (s.feat.tsc = true → (open_ → exec .rdtsc s = .next (s.start.pair s.msr.tsc)) ∧ (¬open_ → stop .rdtsc)) ∧
     (s.feat.rdtscp = true →
       (open_ → exec .rdtscp s =
         .next ((s.start.pair s.msr.tsc).writeGpr .w32 .rcx (BitVec.ofNat 64 (s.msr.tscAux.toNat % 2 ^ 32)))) ∧
       (¬open_ → stop .rdtscp))) ∧
    (s.cr4Bit 22 = true →
      (n = 0 → exec .rdpkru s = .next ((s.start.setReg .rax (BitVec.ofNat 64 s.pkru.toNat)).setReg .rdx 0)) ∧
      (n = 0 → uns .w32 s.gpr.rdx = 0 →
        exec .wrpkru s = .next { s.start with pkru := BitVec.ofNat 32 (uns .w32 s.gpr.rax) }) ∧
      (n ≠ 0 → stop .rdpkru ∧ stop .wrpkru) ∧ (uns .w32 s.gpr.rdx ≠ 0 → stop .wrpkru)) ∧
    (s.cr4Bit 22 = false → exec .rdpkru s = s.raise { name := .ud } ∧ exec .wrpkru s = s.raise { name := .ud }) ∧
    (s.deliverOnce (s.excEvent { name := .ud }) = .ok t → exec .rsm s = .next t)

/-- The shadow-stack instructions (R706, R821, R708, R770, R776, R820, R847, R848): where they are enabled, the tokens they read
and leave on the shadow stack, SSP and the flags; RDSSP is a no-operation where shadow stacks are disabled. And the five operations by
which far transfers, interrupts and IRET use the shadow stack (R117, R353, R571, R717, R718): a token set busy, or released, at `lin`;
SSP aligned to 8 bytes; and the frame of CS, LIP and SSP pushed, or read and compared. The model's choice: shadow-stack addresses
keep 64 bits in every mode (log 52), and the popped CS is compared by its 16 bits (log 56). -/
def Obligations.ShadowStackResult : Prop :=
  ∀ (s : State) (m : Mem) (r : Gpr) (lin lip old : Quad) (sel : BitVec 16) (cpl : BitVec 2) (keep : Bool)
    (ps qs rs us : List Nat), s.flags.tf = false → s.feat.cetSs = true →
    let ssp := s.cet.ssp;
    let user := s.cpl == 3;
    let mode := s.mode64.toNat;
    let span (write : Bool) (a : Quad) (n : Nat) (l : List Nat) : Prop := s.start.sstkSpan user write a n = .ok l;
    let on := s.shadowEnabled s.cpl = true;
    let token := s.loadAt ps;
    (s.protMode = true → s.cr4Bit 23 = true → s.cet.sCet.getLsbD 0 = true → s.cpl = 0 →
      (s.start.sstkOperand m 8 = .ok lin → span false lin 8 ps → span true lin 8 qs →
        let valid := token = lin.toNat + 1 ∧ lin.toNat % 2 = 0;
        exec (.clrssbsy m) s = .next
          (let t := (s.start.storeAt qs (if valid then token - 1 else token)).setFlags
             (tokenFlags s.start.flags (!decide valid))
           if valid then t.setSsp 0 else t)) ∧
      (s.cet.pl0Ssp.toNat % 8 = 0 → span false s.cet.pl0Ssp 8 ps → span true s.cet.pl0Ssp 8 qs →
        exec .setssbsy s =
          if token = s.cet.pl0Ssp.toNat ∧ (s.mode64 = true ∨ token < 2 ^ 32) then
            .next ((s.start.storeAt qs (token + 1)).setSsp s.cet.pl0Ssp)
          else s.raise { name := .cp, code := some 5 })) ∧
    (on →
      (∀ x ∈ [(4, Instr.incsspd r), (8, .incsspq r)],
        let c := uns .w8 (s.reg r);
        span false ssp x.1 ps → span false (ssp + BitVec.ofNat 64 ((max c 1 - 1) * x.1)) x.1 qs →
        exec x.2 s = .next (s.start.setSsp (ssp + BitVec.ofNat 64 (c * x.1)))) ∧
      exec (.rdsspd r) s = .next (s.start.writeGpr .w32 r ssp) ∧ exec (.rdsspq r) s = .next (s.start.writeGpr .w64 r ssp) ∧
      (s.start.sstkOperand m 8 = .ok lin → span false lin 8 ps → span true lin 8 qs →
        let valid := token % 4 = mode ∧ (s.mode64 = true ∨ token < 2 ^ 32) ∧
          (token + 2 ^ 64 - mode - 8) % 2 ^ 64 / 8 * 8 = lin.toNat;
        (valid → exec (.rstorssp m) s = .next (((s.start.storeAt qs (ssp.toNat ||| (mode + 2))).setSsp lin).setFlags
          (tokenFlags s.start.flags (token / 4 % 2 == 1)))) ∧
        (¬valid → exec (.rstorssp m) s = s.raise { name := .cp, code := some 4 })) ∧
      (let hole := s.flags.cf;
       ssp.toNat % 8 = 0 → span false ssp 8 ps → token % 4 = 2 + mode → (s.mode64 = true ∨ token < 2 ^ 32) →
       (hole = true → s.mode64 = false ∧ span false (ssp + 8) 4 rs ∧ s.loadAt rs = 0) →
       let old := BitVec.ofNat 64 (token / 4 * 4);
       span true (old - 4) 4 qs → (s.start.storeAt qs 0).sstkSpan user true (BitVec.ofNat 64 (token / 8 * 8) - 8) 8 = .ok us →
       exec .saveprevssp s = .next (((s.start.storeAt qs 0).storeAt us (token / 4 * 4 + mode)).setSsp
         (ssp + (if hole then 12 else 8)))) ∧
      ((if s.cpl = 3 then s.cet.uCet.getLsbD 1 else s.cet.sCet.getLsbD 1) = true →
        ∀ x ∈ [(4, Instr.wrssd m r), (8, .wrssq m r)],
          s.start.sstkOperand m x.1 = .ok lin → span true lin x.1 ps →
          exec x.2 s = .next (s.start.storeAt ps ((s.reg r).toNat % 256 ^ x.1)))) ∧
    (¬on → exec (.rdsspd r) s = .next s.start ∧ exec (.rdsspq r) s = .next s.start ∧
      ∀ i ∈ [Instr.incsspd r, .incsspq r, .rstorssp m, .saveprevssp, .wrssd m r, .wrssq m r], exec i s = s.raise { name := .ud }) ∧
    (s.protMode = true → s.cr4Bit 23 = true → s.cpl = 0 → ∀ x ∈ [(4, Instr.wrussd m r), (8, .wrussq m r)],
      s.start.sstkOperand m x.1 = .ok lin → s.start.sstkSpan true true lin x.1 = .ok ps →
      exec x.2 s = .next (s.start.storeAt ps ((s.reg r).toNat % 256 ^ x.1))) ∧
    (s.sstkSpan user false lin 8 = .ok ps → s.sstkSpan user true lin 8 = .ok qs →
      (let free := token = lin.toNat ∧ (s.mode64 = true ∨ token < 2 ^ 32);
       s.setTokenBusy lin = if lin.toNat % 8 = 0 ∧ free then .ok (s.storeAt qs (token + 1)) else .error gp0) ∧
      (let busy := token = lin.toNat + 1 ∧ lin.toNat % 2 = 0;
       s.clearToken lin keep = .ok (s.storeAt qs (if busy ∧ keep = false then token - 1 else token)))) ∧
    (ssp.toNat / 4 % 2 = 0 → s.alignSsp = .ok s) ∧
    (ssp.toNat / 4 % 2 = 1 → s.sstkSpan user true (ssp - 4) 4 = .ok ps →
      s.alignSsp = .ok ((s.storeAt ps 0).setSsp (ssp - 4))) ∧
    (let a := s.storeAt ps sel.toNat;
     let b := a.storeAt qs lip.toNat;
     s.sstkSpan user true (ssp - 8) 8 = .ok ps → a.sstkSpan user true (ssp - 16) 8 = .ok qs →
     b.sstkSpan user true (ssp - 24) 8 = .ok rs →
     s.pushSsFrame sel lip old = .ok ((b.storeAt rs old.toNat).setSsp (ssp - 24))) ∧
    (s.sstkSpan (cpl == 3) false (ssp + 16) 8 = .ok ps → s.sstkSpan (cpl == 3) false (ssp + 8) 8 = .ok qs →
      s.sstkSpan (cpl == 3) false ssp 8 = .ok rs →
      s.popSsFrame sel lip cpl =
        if s.loadAt ps = sel.toNat ∧ s.loadAt qs = lip.toNat ∧ s.loadAt rs % 4 = 0 then
          .ok (BitVec.ofNat 64 (s.loadAt rs), s.setSsp (ssp + 24))
        else .error (.exc { name := .cp, code := some 2 }))

/-- CLGI, STGI, VMLOAD, VMSAVE, VMRUN, VMMCALL, VMGEXIT, SKINIT, INVLPGB and TLBSYNC (R703, R829, R839, R843, R841, R840, R824,
R713, R836) at CPL 0 of protected mode, over the VMCB layout of the host: what each loads, saves or leaves, and the exits to the
host. VMRUN saves the host, then holds the guest of the VMCB: rIP, RSP, RAX, rFLAGS, the control and debug registers, CS, DS, ES, SS,
GDTR, IDTR, CPL and the interrupt shadow, with the control information; GIF is set unless the guest is invalid, and the event that
EVENTINJ holds is delivered. The model's choices: the widths of the fields of a VMCB, that each is read where the host's layout puts
it, ET = 1 of a loaded CR0, no long mode without LM, and the kind of shadow (log 17); the state of SKINIT outside R824 (log 21) and
its flat segments (log 29); the rIP that an injected event of any kind saves, and the end of the monitor with the world switch (log
17). -/
def Obligations.VirtualMachineInstructions : Prop :=
  ∀ (s t : State) (asz : ASize) (seg : SegName) (val : Config.VmcbField → Quad) (w : Quad) (entry : Nat)
    (h : State),
    s.flags.tf = false → s.protMode = true → s.cpl = 0 →
    let pa := BitVec.ofNat 64 (uns (addrWidth asz) s.gpr.rax);
    let area : Area := { pa := pa.toNat, host := false }
    let reg (r : Config.VmSeg) : SegReg := {
      sel := (val (.seg r .sel)).extractLsb' 0 16, base := val (.seg r .base), limit := (val (.seg r .limit)).extractLsb' 0 32
      attr := .unpack (Config.vmcbAttrRead ((val (.seg r .attr)).extractLsb' 0 16)) }
    let taken (i : Config.Intercept) : Prop := s.svm.guest = true ∧ Config.intercepted s.svm.intercepts i = true;
    let stop (i : Instr) : Prop := exec i s = s.raise { name := .ud };
    (s.feat.svm = true → s.eferBit 12 = true →
      exec .clgi s = .next { s.start with svm := { s.svm with gif := false } } ∧
      (uns (addrWidth asz) s.gpr.rax < 2 ^ s.cfg.physAddrBits → uns (addrWidth asz) s.gpr.rax % 4096 = 0 →
        ((∀ f, s.start.getField area f = .ok (val f)) → exec (.vmload asz) s = .next { s.start with
          seg := { s.seg with fs := reg .fs, gs := reg .gs }
          tr := reg .tr
          ldtr := reg .ldtr
          msr := { s.msr with
            kernelGsBase := val .kernelGsBase, star := val .star, lstar := val .lstar, cstar := val .cstar
            sfmask := val .sfmask, sysenterCs := val .sysenterCs, sysenterEsp := val .sysenterEsp
            sysenterEip := val .sysenterEip } }) ∧
        (s.start.putFields area (segFields .fs s.seg.fs ++ segFields .gs s.seg.gs ++ segFields .tr s.tr ++ segFields .ldtr s.ldtr ++
            [(.kernelGsBase, s.msr.kernelGsBase), (.star, s.msr.star), (.lstar, s.msr.lstar), (.cstar, s.msr.cstar),
             (.sfmask, s.msr.sfmask), (.sysenterCs, s.msr.sysenterCs), (.sysenterEsp, s.msr.sysenterEsp),
             (.sysenterEip, s.msr.sysenterEip)]) = .ok t →
          exec (.vmsave asz) s = .next t) ∧
        (taken .vmrun → exec (.vmrun asz) s = s.vmexit .vmrun) ∧
        (¬taken .vmrun → s.start.vmrun pa = .ok (.enter t) →
          t.svm.guest = true ∧ t.svm.gif = true ∧ t.svm.vmcb = pa ∧ t.svm.vmHsavePa = s.svm.vmHsavePa ∧ t.cfg = s.cfg ∧
          (t.getField { pa := pa.toNat, host := false } .eventInj = .ok w → Config.eventInjection w = none →
            exec (.vmrun asz) s = .next t)) ∧
        (¬taken .vmrun → s.start.vmrun pa = .ok (.exit t .invalid) → exec (.vmrun asz) s = t.vmexit .invalid) ∧
        (¬taken .vmrun → s.feat.lbrVirt = false →
          ({ s.start with svm := { s.svm with vmcb := pa } } : State).saveHost = .ok h →
          (∀ f, h.getField area f = .ok (val f)) →
          let nested := s.feat.nestedPaging && (val .npEnable).getLsbD 0;
          let guest : State := { h with
            ctl := { s.ctl with
              cr0 := val .cr0 ||| 0x10, cr2 := val .cr2, cr3 := val .cr3, cr4 := val .cr4, efer := val .efer }
            dbg := { s.dbg with dr6 := val .dr6, dr7 := val .dr7 }
            seg := { s.seg with es := reg .es, cs := reg .cs, ss := reg .ss, ds := reg .ds }
            gdtr := { base := val .gdtrBase, limit := (val .gdtrLimit).extractLsb' 0 16 }
            idtr := { base := val .idtrBase, limit := (val .idtrLimit).extractLsb' 0 16 }
            flags := .ofBits (val .rflags)
            cpl := if (val .cr0).getLsbD 0 = false then 0 else if (val .rflags).getLsbD 17 then 3 else (val .cpl).extractLsb' 0 2
            exec := { s.start.exec with
              shadow := if (val .shadow).getLsbD 0 then .sti else .none
              monitor := { s.exec.monitor with armed := false } }
            svm := { s.svm with
              vmcb := pa, guest := true, npEnable := nested
              intercepts := val (.intercepts 3) ++ val (.intercepts 2) ++ val (.intercepts 1) ++ val (.intercepts 0)
              tscOffset := val .tscOffset, vIntr := val .intrControl, asid := (val .asid).extractLsb' 0 32
              nCr3 := if nested then val .nCr3 else s.svm.nCr3
              gPat := if nested then val .gPat else s.svm.gPat
              sevEs := s.feat.sevEs && Config.sevEs (val .sevControl)
              snpActive := s.feat.snp && Config.snpActive (val .sevControl)
              vmpl := Config.vmpl (val .sevControl) } };
          let free := s.start.enterMode guest;
          let g : State := { free with
            gpr := { free.gpr with rsp := val .rsp, rax := val .rax }
            rip := if guest.mode64 then val .rip else BitVec.ofNat 64 ((val .rip).toNat % 2 ^ 32) };
          let valid := Config.guestInvalid g.guestCheck = false ∧
            (s.feat.lm = true ∨ (val .efer).getLsbD 8 = false ∧ (val .efer).getLsbD 10 = false);
          let entered : State := { g with svm := { g.svm with gif := true } };
          (¬valid → exec (.vmrun asz) s = g.vmexit .invalid) ∧
          (valid → s.start.vmrun pa = .ok (.enter entered)) ∧
          (valid → Config.eventInjection (val .eventInj) = none → exec (.vmrun asz) s = .next entered) ∧
          (∀ x, valid → Config.eventInjection (val .eventInj) = some x → exec (.vmrun asz) s = entered.take {
            vector := x.vector, kind := if x.external then .external else if x.software then .software else .exception
            code := x.code, savedRip := entered.rip, oldRip := entered.rip, rf := !x.external && !x.software }))) ∧
      ((2 ^ s.cfg.physAddrBits ≤ uns (addrWidth asz) s.gpr.rax ∨ uns (addrWidth asz) s.gpr.rax % 4096 ≠ 0) →
        ∀ i ∈ [Instr.vmload asz, .vmsave asz, .vmrun asz], exec i s = s.raise { name := .gp, code := some 0 }) ∧
      (taken .vmmcall → exec .vmmcall s = s.vmexit .vmmcall ∧ (s.vmexit .vmmcall = .next t → exec .vmmcall s = .next t)) ∧
      (¬taken .vmmcall → stop .vmmcall) ∧
      (s.feat.sevEs = true → s.svm.guest = true → s.svm.sevEs = true →
        exec .vmgexit s = s.vmexit .vmgexit ∧ (s.vmexit .vmgexit = .next t → exec .vmgexit s = .next t)) ∧
      (s.feat.sevEs = false ∨ s.svm.guest = false ∨ s.svm.sevEs = false → exec .vmgexit s = exec .vmmcall s)) ∧
    (s.feat.svm = false ∨ s.eferBit 12 = false →
      ∀ i ∈ [Instr.clgi, .vmload asz, .vmsave asz, .vmrun asz, .vmmcall, .vmgexit], stop i) ∧
    ((s.eferBit 12 || s.feat.svmLock || s.feat.skinit) = true →
      exec .stgi s = .next { s.start with svm := { s.svm with gif := true } } ∧
      (let slb := BitVec.ofNat 64 (s.gpr.rax.toNat % 2 ^ 32 / 2 ^ 16 * 2 ^ 16);
       let u := s.start.initState;
       slb.toNat + 4 ≤ 2 ^ s.cfg.physAddrBits → entry = s.loadAt (physRange slb.toNat 2) →
       exec .skinit s = .next { u with
         gpr := { u.gpr with rax := slb, rsp := BitVec.ofNat 64 ((slb.toNat + 0x10000) % 2 ^ 32) }
         rip := BitVec.ofNat 64 ((slb.toNat + entry) % 2 ^ 32)
         seg := { u.seg with cs := forcedCode 8 0 false, ss := forcedStack 0x10 0 }
         ctl := { u.ctl with cr0 := u.ctl.cr0 ||| 1 }
         svm := { s.svm with
           gif := false, vmCr := s.svm.vmCr ||| Config.vmCrSkinit, slDev := true, slDevBase := slb.extractLsb' 0 32 } })) ∧
    ((s.eferBit 12 || s.feat.svmLock || s.feat.skinit) = false → stop .stgi ∧ stop .skinit) ∧
    (s.feat.invlpgb = true → s.svm.guest = false →
      exec .tlbsync s = .next s.start ∧
      (let a := s.gpr.rax.toNat;
       let d := s.gpr.rdx.toNat;
       let legal := a / 64 % 64 = 0 ∧ (a / 32 % 2 = 1 → s.feat.invlpgbNested = true) ∧ d / 2 ^ 28 % 16 = 0 ∧
         (s.cr4Bit 17 = false → d / 2 ^ 16 % 2 ^ 12 = 0) ∧ (s.eferBit 12 = false → d % 2 ^ 16 = 0) ∧
         d % 2 ^ 16 ≤ (s.cpuidTable 0x8000000A 0).ebx.toNat ∧ s.gpr.rcx.toNat % 2 ^ 16 ≤ s.cfg.invlpgbCountMax ∧
         ¬(s.pg = true ∧ s.cr4Bit 4 = true ∧ s.cr4Bit 5 = false);
       (legal → exec (.invlpgb seg asz) s = .next s.start) ∧
       (¬legal → exec (.invlpgb seg asz) s = s.raise { name := .gp, code := some 0 }))) ∧
    (s.feat.invlpgb = false → stop .tlbsync ∧ stop (.invlpgb seg asz))

/-- #VMEXIT (R842, R926): it always answers a state in which GIF is clear and no guest runs, the parameters and the address of the
host area kept, or the single-step trap of that state where its TF is set, unless it meets an address without memory; a record of fields changes memory in those fields only; the guest is saved in
its VMCB; and the host is reloaded from the host area: rIP, RSP, RAX, rFLAGS, the control registers with CR0.PE set, GDTR and IDTR,
DR7 with every breakpoint disabled, CPL 0, and the segments from the GDT, with shutdown where the host state is illegal or a
descriptor cannot be read; a blocked NMI stays blocked (R79). The model's choices (log 17): the widths of the fields, the free exit
information, a null host selector that keeps the hidden part, descriptors read at 64-bit addresses for a host in long mode, no long
mode without LM, and the end of the monitor; and that the trap of a VMRUN begun with TF = 1 follows its #VMEXIT (log 14). -/
def Obligations.VmexitResult : Prop :=
  (∀ (s : State) (e : Config.ExitName),
    (∃ t, (s.vmexit e = .next t ∨ t.flags.tf = true ∧ s.vmexit e = t.singleStep) ∧ t.svm.gif = false ∧ t.svm.guest = false ∧ t.svm.intercepts = 0 ∧ t.svm.asid = 0 ∧
      t.svm.vmHsavePa = s.svm.vmHsavePa ∧ t.cfg = s.cfg ∧ t.freeCount = s.freeCount) ∨
    ∃ a, s.vmexit e = .fault (.noMemory a)) ∧
  (∀ (s t : State) (a : Area) (fields : List (Config.VmcbField × Quad)), s.memOk → s.putFields a fields = .ok t →
    t = { s with mem := t.mem } ∧ t.memOk ∧
    ∀ b, (∀ x ∈ fields, b < a.pa + a.offset x.1 ∨ a.pa + a.offset x.1 + vmcbBytes x.1 ≤ b) →
      Memory.read t.mem b = Memory.read s.mem b) ∧
  (∀ (s u : State) (e : Config.ExitName) (val : Config.VmcbField → Quad) (desc : Config.VmSeg → Quad) (x : Exn),
    let masked : State := { s with svm := { s.svm with gif := false } };
    masked.putFields { pa := s.svm.vmcb.toNat, host := false }
      (segFields .es s.seg.es ++ segFields .cs s.seg.cs ++ segFields .ss s.seg.ss ++ segFields .ds s.seg.ds ++
        [(.gdtrBase, s.gdtr.base), (.gdtrLimit, s.gdtr.limit.setWidth 64), (.idtrBase, s.idtr.base),
         (.idtrLimit, s.idtr.limit.setWidth 64), (.efer, s.ctl.efer), (.cr0, s.ctl.cr0), (.cr4, s.ctl.cr4), (.cr3, s.ctl.cr3),
         (.rflags, s.flags.toBits), (.rip, s.rip), (.rsp, s.gpr.rsp), (.rax, s.gpr.rax), (.cr2, s.ctl.cr2), (.dr7, s.dbg.dr7),
         (.dr6, s.dbg.dr6), (.cpl, s.cpl.setWidth 64), (.shadow, if s.exec.shadow = .none then 0 else 1),
         (.intrControl, s.svm.vIntr), (.exitCode, Config.exitCode e), (.exitInfo1, Config.freeBits s.freeCount 20 64),
         (.exitInfo2, Config.freeBits s.freeCount 21 64), (.exitIntInfo, Config.freeBits s.freeCount 22 64), (.eventInj, 0)] ++
        if s.svm.npEnable then [(.gPat, s.svm.gPat)] else []) = .ok u →
    (∀ f, u.getField { pa := s.svm.vmHsavePa.toNat, host := true } f = .ok (val f)) →
    let left : State := { u with svm := { u.svm with
      gif := false, guest := false, intercepts := 0, vIntr := 0, tscOffset := 0, npEnable := false, asid := 0, sevEs := false
      snpActive := false, vmpl := 0 } };
    let core : State := { left with
      gpr := { s.gpr with rsp := val .rsp, rax := val .rax }
      rip := val .rip
      flags := .ofBits (val .rflags)
      gdtr := { base := val .gdtrBase, limit := (val .gdtrLimit).extractLsb' 0 16 }
      idtr := { base := val .idtrBase, limit := (val .idtrLimit).extractLsb' 0 16 }
      ctl := { s.ctl with cr0 := val .cr0 ||| 0x11, cr3 := val .cr3, cr4 := val .cr4, efer := val .efer }
      dbg := { s.dbg with dr7 := 0x400 }
      cpl := 0 };
    let sel (r : Config.VmSeg) : BitVec 16 := (val (.seg r .sel)).extractLsb' 0 16
    let read (r : Config.VmSeg) : Res Quad := core.hostMode.tableRead (gpSel (sel r)) core.gdtr.base
      (core.gdtr.limit.setWidth 32) ((sel r).toNat / 8 * 8) 8
    let reg (r : Config.VmSeg) (old : SegReg) : SegReg :=
      if isNull (sel r) then { old with sel := sel r } else descSeg (sel r) (desc r)
    (isNull (sel .es) = false → read .es = .error (.exc x) →
      s.feat.lbrVirt = false → s.vmexit e = .next { left with exec := { s.exec with activity := .shutdown } }) ∧
    (s.feat.lbrVirt = false → (∀ r ∈ [Config.VmSeg.es, .cs, .ss, .ds], isNull (sel r) = false → read r = .ok (desc r)) →
      let back : State := { core with
        seg := { s.seg with es := reg .es s.seg.es, cs := reg .cs s.seg.cs, ss := reg .ss s.seg.ss, ds := reg .ds s.seg.ds }
        exec := { s.exec with
          activity := .running, shadow := .none, latch := [], monitor := { s.exec.monitor with armed := false } } };
      let free := s.enterMode back;
      let host : State := { free with
        gpr := { free.gpr with rsp := val .rsp, rax := val .rax }
        rip := if back.mode64 then val .rip else BitVec.ofNat 64 ((val .rip).toNat % 2 ^ 32) };
      let legal := Config.hostInvalid host.guestCheck = false ∧ host.badPdpt = false ∧
        (s.feat.lm = true ∨ (val .efer).getLsbD 8 = false ∧ (val .efer).getLsbD 10 = false);
      (legal → (val .rflags).getLsbD 8 = false → s.vmexit e = .next host) ∧
      (legal → (val .rflags).getLsbD 8 = true → s.vmexit e = host.singleStep) ∧
      (¬legal → s.vmexit e = .next { host with exec := { host.exec with activity := .shutdown } })))

/-- PSMASH, PVALIDATE, RMPADJUST and RMPUPDATE (R764, R765, R766, R773, R774), over the layout of an RMP entry and the guest page
walk of the host: the code in EAX with its flags, CF left alone but by PVALIDATE, and the entry that is written. Without paging the walk has no #PF. The model's choices
(log 18): RMPADJUST tests TARGET_VMPL against the number of VMPLs before it translates, PSMASH and RMPADJUST take all 64 bits of RAX,
and the permission bytes beyond the number of VMPLs are kept. -/
def Obligations.ReverseMapInstructions : Prop :=
  ∀ (s t : State) (asz : ASize) (seg : SegName) (e : Config.RmpEntry) (entry : Nat) (ps : List Nat),
    s.flags.tf = false → s.feat.snp = true → s.cpl = 0 →
    let answer (u : State) (n : Nat) : Host.Outcome State Fault Refusal :=
      .next ((u.writeGpr .w32 .rax (BitVec.ofNat 64 n)).setFlags
        { u.flags with zf := n == 0, sf := false, of := false, af := false, pf := evenOnes n })
    let slot (a : Nat) : Nat := s.cfg.rmpBase.toNat + 0x4000 + a / 4096 * 16;
    let last := s.cfg.rmpEnd.toNat;
    let large : Bool := s.gpr.rcx.getLsbD 0
    (s.mode64 = true → s.cfg.snpEn = true →
      (s.svm.asid ≠ 0 → exec (.psmash asz) s = answer s.start 2 ∧ exec (.rmpupdate seg asz) s = answer s.start 2) ∧
      (s.svm.asid = 0 →
        (let here := slot (s.gpr.rax.toNat / 2 ^ 21 * 2 ^ 21);
         (last < here → exec (.psmash asz) s = answer s.start 1) ∧
         (here ≤ last → s.start.rmpGet here = .ok e →
          ((e.immutable = true ∨ e.assigned = false ∨ e.large = false) → exec (.psmash asz) s = answer s.start 4) ∧
          (e.immutable = false → e.assigned = true → e.large = true →
            s.start.smashRest 512 here { e with large := false } = .ok t → exec (.psmash asz) s = answer t 0))) ∧
        (s.start.access seg (BitVec.ofNat 64 (uns (addrWidth asz) s.gpr.rcx)) 16 false = .ok ps →
          let v := s.loadAt ps;
          let assigned : Bool := v.testBit 64
          let wide : Bool := v.testBit 72
          let immutable : Bool := v.testBit 80
          let asid := v / 2 ^ 96;
          let here := slot s.gpr.rax.toNat;
          let bad := wide = true ∧ s.gpr.rax.toNat / 4096 % 512 ≠ 0 ∨ assigned = false ∧ (immutable = true ∨ asid ≠ 0) ∨ last < here;
          (bad → exec (.rmpupdate seg asz) s = answer s.start 1) ∧
          (¬bad → s.start.rmpGet here = .ok e →
            (e.immutable = true → exec (.rmpupdate seg asz) s = answer s.start 2) ∧
            (e.immutable = false → wide = false → s.gpr.rax.toNat / 4096 % 512 = 0 → e.large = true →
              exec (.rmpupdate seg asz) s = answer s.start 4) ∧
            (e.immutable = false → wide = false → ¬(s.gpr.rax.toNat / 4096 % 512 = 0 ∧ e.large = true) →
              let same := e.asid.toNat = asid ∧ e.guestPa.toNat = v % 2 ^ 64 ∧ e.large = false ∧ e.assigned = true;
              let next : Config.RmpEntry :=
                if assigned = false then rmpBlank false
                else {
                  assigned := true, large := false, immutable := immutable, asid := BitVec.ofNat 32 asid
                  guestPa := if asid = 0 then 0 else BitVec.ofNat 64 v
                  validated := decide same && e.validated
                  vmsa := decide same && e.vmsa
                  perms := if same then e.perms else rmpResetPerms e.perms s.cfg.numVmpl }
              s.start.rmpPut here next = .ok t → exec (.rmpupdate seg asz) s = answer t 0))))) ∧
    (let va := BitVec.ofNat 64 (uns (addrWidth asz) s.gpr.rax / 4096 * 4096);
     let v := s.gpr.rdx.getLsbD 0;
     (s.svm.snpActive = false → exec (.pvalidate asz) s = .next ((s.start.writeGpr .w32 .rax 0).setFlags
        { s.start.flags with zf := true, sf := false, of := false, af := false, pf := true, cf := true })) ∧
     (s.svm.snpActive = true → s.svm.vmpl = 0 →
      (large = true → va.toNat / 4096 % 512 ≠ 0 → exec (.pvalidate asz) s = answer s.start 1) ∧
      ((large = true → va.toNat / 4096 % 512 = 0) → s.start.guestEntry va large = .ok (.found entry e) →
        (e.large = false → large = true → exec (.pvalidate asz) s = answer s.start 6) ∧
        ((large = true → e.large = true) → s.start.rmpPut entry { e with validated := v } = .ok t →
          exec (.pvalidate asz) s = .next ((t.writeGpr .w32 .rax 0).setFlags
            { t.flags with zf := true, sf := false, of := false, af := false, pf := true, cf := e.validated == v })))) ∧
     (s.svm.snpActive = true → s.svm.vmpl ≠ 0 → exec (.pvalidate asz) s = s.raise { name := .gp, code := some 0 })) ∧
    (s.pg = false → ∀ off x, s.start.guestEntry off large = .error (.exc x) → x.name ≠ .pf) ∧
    (s.mode64 = true → s.svm.snpActive = true →
      let va := BitVec.ofNat 64 (s.gpr.rax.toNat / 4096 * 4096);
      let target := s.gpr.rdx.toNat % 256;
      let mask : Byte := s.gpr.rdx.extractLsb' 8 8
      let aligned := large = true → va.toNat / 4096 % 512 = 0;
      (¬aligned → exec (.rmpadjust asz) s = answer s.start 1) ∧
      (aligned → target ≤ s.svm.vmpl.toNat → exec (.rmpadjust asz) s = answer s.start 2) ∧
      (aligned → s.svm.vmpl.toNat < target → s.cfg.numVmpl ≤ target → exec (.rmpadjust asz) s = answer s.start 1) ∧
      (aligned → s.svm.vmpl.toNat < target → target < s.cfg.numVmpl → s.start.guestEntry va large = .ok (.found entry e) →
        (e.validated = true → e.large = false → large = true → exec (.rmpadjust asz) s = answer s.start 6) ∧
        (e.validated = true → (large = true → e.large = true) →
          (mask &&& ~~~rmpPerm e s.svm.vmpl.toNat ≠ 0 → exec (.rmpadjust asz) s = answer s.start 2) ∧
          (mask &&& ~~~rmpPerm e s.svm.vmpl.toNat = 0 → s.start.rmpPut entry { e with
              vmsa := if s.svm.vmpl = 0 then s.gpr.rdx.getLsbD 16 else e.vmsa
              perms := rmpSetPerm e.perms target mask } = .ok t →
            exec (.rmpadjust asz) s = answer t 0)))) ∧
    (s.mode64 = false ∨ s.cfg.snpEn = false →
      exec (.psmash asz) s = s.raise { name := .ud } ∧ exec (.rmpupdate seg asz) s = s.raise { name := .ud })

/-- LLWPCB, SLWPCB, LWPINS and LWPVAL (R456, R589, R459, R460) with the facility available: what they do while it is disabled, and,
over the answers of the host's facility, while it is enabled: the memory and the internal state (R81) that it leaves, LWP_CBADDR, and
the #PF of a flush, which leaves LWP as it was, and of a load, which leaves it disabled as its #GP does. The layout of the internal state, and that a
facility that raises an exception changes none of it, are the model's choices (log 19). -/
def Obligations.LightweightProfiling : Prop :=
  ∀ (s : State) (w : Width) (r : Gpr) (rm : RM) (flags code : BitVec 32) (cells load : List Host.Cell)
    (i j : Config.LwpInternal) (cf cf' : Bool) (v a : Quad),
    s.flags.tf = false → s.feat.lwp = true → s.protMode = true → s.xcr0.getLsbD 62 = true →
    let ctx (i : Config.LwpInternal) : Config.LwpCtx := {
      cfg := s.lwp.cfg, cbAddr := s.lwp.cbAddr, internal := i, dsBase := if s.mode64 then 0 else s.seg.ds.base
      dsLimit := s.seg.ds.limit, wide := decide (w = .w64), count := s.freeCount }
    let here := ctx s.lwp.internal;
    let present (l : List Host.Cell) : Prop := ∀ x ∈ l, x.1 < 2 ^ s.cfg.physAddrBits;
    let written (m l : List Host.Cell) : List Host.Cell := l.foldl (fun m c => Memory.write m c.1 c.2) m
    let address := BitVec.ofNat 64 (uns w (s.reg r));
    let lin := s.start.linear .ds address;
    let fault : Exn := { name := .pf, code := some code, cr2 := some a };
    (s.lwp.cbAddr = 0 →
      (address = 0 → exec (.llwpcb w r) s = .next { s.start with lwp := { s.lwp with cbAddr := 0 } }) ∧
      (address ≠ 0 → Config.lwpLoad s.mem here lin = some (.done load i cf) → present load →
        exec (.llwpcb w r) s = .next { s.start with
          mem := written s.mem load, lwp := { s.lwp with cbAddr := lin, internal := i } }) ∧
      (address ≠ 0 → Config.lwpLoad s.mem here lin = some (.pageFault code a) →
        exec (.llwpcb w r) s = ({ s with lwp := { s.lwp with cbAddr := 0 } } : State).raise fault) ∧
      (address ≠ 0 → Config.lwpLoad s.mem here lin = none →
        exec (.llwpcb w r) s = ({ s with lwp := { s.lwp with cbAddr := 0 } } : State).raise { name := .gp, code := some 0 }) ∧
      exec (.slwpcb w r) s = .next (s.start.writeGpr w r 0) ∧
      exec (.lwpins w r rm flags) s = .next (s.start.setFlags { s.start.flags with cf := false }) ∧
      exec (.lwpval w r rm flags) s = .next s.start) ∧
    (s.lwp.cbAddr ≠ 0 → Config.lwpStore s.mem here = .done cells i cf → present cells →
      let flushed := { s.start with mem := written s.mem cells, lwp := { s.lwp with internal := i } };
      (address = 0 → exec (.llwpcb w r) s = .next { flushed with lwp := { flushed.lwp with cbAddr := 0 } }) ∧
      (address ≠ 0 → Config.lwpLoad flushed.mem (ctx i) lin = some (.done load j cf') → present load →
        exec (.llwpcb w r) s = .next { flushed with
          mem := written flushed.mem load, lwp := { s.lwp with cbAddr := lin, internal := j } }) ∧
      exec (.slwpcb w r) s = .next (flushed.writeGpr w r (wrap w (s.lwp.cbAddr.toNat - (ctx i).dsBase.toNat)))) ∧
    (s.lwp.cbAddr ≠ 0 → Config.lwpStore s.mem here = .pageFault code a →
      exec (.llwpcb w r) s = s.raise fault ∧ exec (.slwpcb w r) s = s.raise fault) ∧
    (s.lwp.cbAddr ≠ 0 → s.start.readRM .w32 rm = .ok v →
      (Config.lwpInsert s.mem here address (v.extractLsb' 0 32) (flags.extractLsb' 0 16) = .done cells i cf → present cells →
        exec (.lwpins w r rm flags) s = .next { s.start with
          mem := written s.mem cells, lwp := { s.lwp with internal := i }, flags := { s.start.flags with cf := cf } }) ∧
      (Config.lwpValueDue s.mem here = true →
        Config.lwpValue s.mem here (some (address, v.extractLsb' 0 32, flags.extractLsb' 0 16)) = .done cells i cf → present cells →
        exec (.lwpval w r rm flags) s = .next { s.start with
          mem := written s.mem cells, lwp := { s.lwp with internal := i } })) ∧
    (s.lwp.cbAddr ≠ 0 → Config.lwpValueDue s.mem here = false → Config.lwpValue s.mem here none = .done cells i cf →
      present cells →
      exec (.lwpval w r rm flags) s = .next { s.start with
        mem := written s.mem cells, lwp := { s.lwp with internal := i } })

/-- The code points that raise an exception, delivered at once: fifteen prefix bytes have #GP(0) (R161); UD0, UD1, UD2 (R634), the
reserved code points (R242, R247, D48) and those of other volumes whose feature is absent have #UD (D49); with the feature present
the last end in the refusal `otherVolume`. The model's choice (log 31): which feature stands for each map, and `hasEscape`. -/
def Obligations.ReservedCodePoints : Prop :=
  ∀ (s t : State) (map : BitVec 5) (op modrm : Byte) (k : BitVec 3) (w : Width),
    let feature := s.feat;
    let media : Bool := feature.mmx || feature.sse || feature.sse2
    let foreign : List (Instr × Bool) := [(.prefixVex3 map op, feature.avx), (.prefixVex2 op, feature.avx),
      (.prefixXop map op, feature.xop), (.escape0F op modrm, s.hasEscape op modrm), (.escape0F38 op modrm, media),
      (.escape0F3A op modrm, media), (.x87 k modrm, feature.fpu), (.wait, feature.fpu), (.threeDNow op modrm, feature.threeDNow)]
    (s.deliverOnce (s.excEvent { name := .gp, code := some 0 }) = .ok t →
      ∀ i ∈ [Instr.prefixOpSize, .prefixAddrSize, .prefixCs, .prefixDs, .prefixEs, .prefixFs, .prefixGs, .prefixSs, .prefixLock,
        .prefixRep, .prefixRepne, .prefixRex], exec i s = .next t) ∧
    (s.deliverOnce (s.excEvent { name := .ud }) = .ok t →
      (∀ i ∈ [Instr.ud0, .ud1, .ud2, .reservedD6, .reservedGroup3 w], exec i s = .next t) ∧
      (∀ x ∈ foreign, x.2 = false → exec x.1 s = .next t)) ∧
    (∀ x ∈ foreign, x.2 = true → exec x.1 s = .refused .otherVolume)
end

