-- ==== Sys2Proof/Laws/Encoding.lean ====
section
/-! SUPPORT. Reading back what the encoder writes: prefixes, little-endian fields, and ModRM with SIB and displacement. -/

namespace Sys2Proof

/-! ### Fields -/

@[simp] theorem ofNum_num (r : Gpr) : Gpr.ofNum r.num = r := by cases r <;> rfl

/-- A register number is its extension bit and its low three bits. -/
@[simp] theorem extend_low3 (r : Gpr) : extend (WellFormed.ext r) (low3 r) = r.num := by cases r <;> decide

/-- The encoding number 4 is rSP (10_state.md R41). -/
theorem num_ne_four {r : Gpr} (h : r ≠ .rsp) : r.num ≠ 4 := by cases r <;> simp_all [Gpr.num]

/-- A value is its two halves. -/
theorem append_halves {n : Nat} (v : BitVec (n + n)) : v.extractLsb' n n ++ v.extractLsb' 0 n = v := by
  apply BitVec.eq_of_getLsbD_eq
  intro i hi
  simp only [BitVec.getLsbD_append, BitVec.getLsbD_extractLsb']
  by_cases hl : i < n
  · simp [hl]
  · simp only [hl, if_false, decide_false, Bool.false_and]
    rw [show n + (i - n) = i by omega]
    simp; omega

@[simp] theorem word_bytes16 (v : BitVec 16) (rest : List Byte) : Parser.word (bytes16 v ++ rest) = .ok (v, rest) := by
  have h := append_halves (n := 8) v
  simp [Parser.word, Parser.byte, Parser.andThen, Parser.ret, bytes16, h]

@[simp] theorem dword_bytes32 (v : BitVec 32) (rest : List Byte) : Parser.dword (bytes32 v ++ rest) = .ok (v, rest) := by
  have h := append_halves (n := 16) v
  simp [Parser.dword, Parser.andThen, Parser.ret, bytes32, List.append_assoc, h]

@[simp] theorem qword_bytes64 (v : BitVec 64) (rest : List Byte) : Parser.qword (bytes64 v ++ rest) = .ok (v, rest) := by
  have h := append_halves (n := 32) v
  simp [Parser.qword, Parser.andThen, Parser.ret, bytes64, List.append_assoc, h]

/-- A displacement of two bytes. -/
theorem disp16_bytes16 {d : BitVec 64} (h : d = (d.setWidth 16).signExtend 64) (rest : List Byte) :
    disp16 (bytes16 (d.setWidth 16) ++ rest) = .ok (d, rest) := by
  simp [disp16, Parser.map, Parser.andThen, Parser.ret, ← h]

/-- A displacement of four bytes. -/
theorem disp32_bytes32 {d : BitVec 64} (h : d = (d.setWidth 32).signExtend 64) (rest : List Byte) :
    disp32 (bytes32 (d.setWidth 32) ++ rest) = .ok (d, rest) := by
  simp [disp32, Parser.map, Parser.andThen, Parser.ret, ← h]

@[simp] theorem modField_modrmByte (m : BitVec 2) (reg f : BitVec 3) : modField (modrmByte m reg f) = m := by
  revert m reg f; decide

@[simp] theorem regField_modrmByte (m : BitVec 2) (reg f : BitVec 3) : regField (modrmByte m reg f) = reg := by
  revert m reg f; decide

@[simp] theorem rmField_modrmByte (m : BitVec 2) (reg f : BitVec 3) : rmField (modrmByte m reg f) = f := by
  revert m reg f; decide

/-! ### Prefixes -/

/-- A prefix does not change the context. -/
@[simp] theorem addPrefix_c (e : Env) (b : Byte) : (e.addPrefix b).c = e.c := by
  unfold Env.addPrefix Env.withSeg Env.noRex
  repeat' split
  all_goals rfl

/-- Prefix bytes are read one after another (30_encoding.md R162). -/
theorem readPrefixes_append (ps rest : List Byte) (e : Env) (h : ∀ b ∈ ps, (prefixInstr e.c b).isSome = true) :
    readPrefixes e (ps ++ rest) = readPrefixes (ps.foldl Env.addPrefix e) rest := by
  induction ps generalizing e with
  | nil => rfl
  | cons b ps ih =>
    simp only [List.cons_append, readPrefixes, h b (by simp), if_true, List.foldl_cons]
    exact ih _ fun x hx => by rw [addPrefix_c]; exact h x (by simp [hx])

/-- The opcode ends the prefixes. -/
theorem readPrefixes_opcode {b : Byte} {e : Env} (h : prefixInstr e.c b = none) (rest : List Byte) :
    readPrefixes e (b :: rest) = (e, b :: rest) := by
  simp [readPrefixes, h]

/-! ### ModRM -/

/-- A register operand (30_encoding.md R179). -/
theorem modrm_register (e : Env) (reg f : BitVec 3) (rest : List Byte) :
    e.modrm (modrmByte 3 reg f :: rest) = .ok ((extend e.r reg, .reg (extend e.b f)), rest) := by
  simp [Env.modrm, Env.rmOf, Parser.byte, Parser.andThen, Parser.map, Parser.ret]

/-- The prefixes name the address size, the segment and the extension bits of a memory operand (30_encoding.md R171, R178,
20_memory.md R104). -/
def Env.names (e : Env) (m : Mem) : Prop :=
  e.asize = m.asz ∧ e.segOr (WellFormed.defaultSeg m.base) = m.seg ∧ (e.x, e.b) = extBits (.mem m)

/-- A SIB byte with a displacement of four bytes: a base register after mod 10, no base after mod 00 (30_encoding.md R180). -/
theorem sib_bytes {e : Env} {scale : BitVec 2} {idx b : BitVec 3} {d : BitVec 64} {mod : BitVec 2}
    (h : mod = 2 ∨ mod = 0 ∧ b = 5) (hd : d = (d.setWidth 32).signExtend 64) (rest : List Byte) :
    e.sib mod (modrmByte scale idx b :: (bytes32 (d.setWidth 32) ++ rest)) =
      .ok (e.mkMem (if mod = 0 then .none else .reg (.ofNum (extend e.b b)))
        (if extend e.x idx = 4 then none else some ⟨.ofNum (extend e.x idx), scale⟩) d, rest) := by
  have h2 := disp32_bytes32 hd rest
  obtain rfl | ⟨rfl, rfl⟩ := h <;>
    simp [Env.sib, Parser.byte, Parser.andThen, Parser.map, Parser.ret, dispMod, h2]

/-- Base and index of a 16-bit form (30_encoding.md R181). -/
theorem base16_form16 {b : Base} {i : Option Index} {f : BitVec 3} (h : WellFormed.form16 b i = some f) :
    base16 f = (b, i) := by
  unfold WellFormed.form16 at h
  split at h <;> cases h <;> rfl

/-- A memory operand with 16-bit addressing. -/
theorem modrm_memory16 {e : Env} {m : Mem} (h : WellFormed.mem e.c m = true) (hn : e.names m) (h16 : m.asz = .a16)
    (reg : BitVec 3) (rest : List Byte) : e.modrm (encMem reg m ++ rest) = .ok ((extend e.r reg, .mem m), rest) := by
  obtain ⟨seg, base, index, disp, asz⟩ := m
  obtain ⟨ha, hs, -⟩ := hn
  simp only at h16 ha hs
  subst h16
  simp only [WellFormed.mem, Bool.and_eq_true, beq_iff_eq] at h
  obtain ⟨-, hd, hf⟩ := h
  have h2 := disp16_bytes16 hd rest
  simp only [encMem]
  split
  · rename_i f h3
    simp [Env.modrm, Env.rmOf, Parser.byte, Parser.andThen, Parser.map, Parser.ret, ha, Env.mem16, base16_form16 h3, h2,
      Env.mkMem, hs]
  · rename_i h3
    obtain ⟨rfl, rfl⟩ : base = .none ∧ index = none := by simpa [h3] using hf
    simp [Env.modrm, Env.rmOf, Parser.byte, Parser.andThen, Parser.map, Parser.ret, ha, Env.mem16, h2, Env.mkMem, hs]

/-- The bytes of a memory operand with 32-bit or 64-bit addressing, by its base. -/
theorem encMem32 {seg : SegName} {base : Base} {index : Option Index} {d : BitVec 64} {asz : ASize} (h : asz ≠ .a16)
    (reg : BitVec 3) : encMem reg ⟨seg, base, index, d, asz⟩ =
      (match base with
        | .rip => modrmByte 0 reg 5 :: bytes32 (d.setWidth 32)
        | .none => modrmByte 0 reg 4 :: modrmByte ((index.map (·.scale)).getD 0) ((index.map (low3 ·.r)).getD 4) 5 ::
            bytes32 (d.setWidth 32)
        | .reg r => modrmByte 2 reg 4 :: modrmByte ((index.map (·.scale)).getD 0) ((index.map (low3 ·.r)).getD 4) (low3 r) ::
            bytes32 (d.setWidth 32)) := by
  cases asz
  · exact absurd rfl h
  all_goals cases index <;> rfl

/-- A memory operand with 32-bit or 64-bit addressing. -/
theorem modrm_memory32 {e : Env} {m : Mem} (h : WellFormed.mem e.c m = true) (hn : e.names m) (h16 : m.asz ≠ .a16)
    (reg : BitVec 3) (rest : List Byte) : e.modrm (encMem reg m ++ rest) = .ok ((extend e.r reg, .mem m), rest) := by
  obtain ⟨seg, base, index, disp, asz⟩ := m
  obtain ⟨ha, hs, hx⟩ := hn
  simp only [extBits, Prod.mk.injEq] at h16 ha hs hx
  obtain ⟨hx, hb⟩ := hx
  have hw : disp = (disp.setWidth 32).signExtend 64 ∧ (base = .rip → e.c.mode64 = true ∧ index = none) ∧
      ∀ i, index = some i → i.r ≠ .rsp := by
    clear hx hb hs ha
    simp only [WellFormed.mem, Bool.and_eq_true] at h
    obtain ⟨-, h⟩ := h
    cases asz
    · exact absurd rfl h16
    all_goals
      simp only [beq_iff_eq] at h
      obtain ⟨⟨hd, hb⟩, hi⟩ := h
      refine ⟨hd, ?_, ?_⟩
      · rintro rfl
        simpa using hb
      · rintro i rfl
        simp only [Bool.and_eq_true, bne_iff_ne] at hi
        exact hi.2
  obtain ⟨hd, hrip, hrsp⟩ := hw
  have hidx : ∀ i, index = some i → extend e.x (low3 i.r) ≠ 4 ∧ Gpr.ofNum (extend e.x (low3 i.r)) = i.r := by
    rintro i rfl
    simp only [hx, extend_low3, ofNum_num, and_true]
    exact num_ne_four (hrsp i rfl)
  have hi : (if extend e.x ((index.map (low3 ·.r)).getD 4#3) = 4 then none
      else some ⟨.ofNum (extend e.x ((index.map (low3 ·.r)).getD 4#3)), (index.map (·.scale)).getD 0#2⟩) = index := by
    cases index with
    | none => simp at hx; simp [hx, extend, bit]
    | some i =>
      have := (hidx i rfl).1
      simp [(hidx i rfl).2, show ¬extend e.x (low3 i.r) = 4#4 from this]
  rw [encMem32 h16]
  cases base with
  | rip =>
    obtain ⟨h64, rfl⟩ := hrip rfl
    have h2 := disp32_bytes32 hd rest
    simp [Env.modrm, Env.rmOf, Parser.byte, Parser.andThen, Parser.map, Parser.ret, h16, Env.mem32, h2, Env.mkMem, h64, hs, ha]
  | none =>
    have h2 := sib_bytes (e := e) (scale := (index.map (·.scale)).getD 0#2) (idx := (index.map (low3 ·.r)).getD 4#3) (b := 5#3)
      (mod := 0#2) (by simp) hd rest
    rw [hi] at h2
    simp [Env.modrm, Env.rmOf, Parser.byte, Parser.andThen, Parser.map, Parser.ret, h16, Env.mem32, h2, Env.mkMem, hs, ha]
  | reg r =>
    have h2 := sib_bytes (e := e) (scale := (index.map (·.scale)).getD 0#2) (idx := (index.map (low3 ·.r)).getD 4#3) (b := low3 r)
      (mod := 2#2) (by simp) hd rest
    rw [hi] at h2
    simp [Env.modrm, Env.rmOf, Parser.byte, Parser.andThen, Parser.map, Parser.ret, h16, Env.mem32, h2, Env.mkMem, hs, ha, hb]

/-- A memory operand, after prefixes that name its parts (30_encoding.md R180, R181). -/
theorem modrm_memory {e : Env} {m : Mem} (h : WellFormed.mem e.c m = true) (hn : e.names m) (reg : BitVec 3) (rest : List Byte) :
    e.modrm (encMem reg m ++ rest) = .ok ((extend e.r reg, .mem m), rest) := by
  by_cases h16 : m.asz = .a16
  · exact modrm_memory16 h hn h16 reg rest
  · exact modrm_memory32 h hn h16 reg rest

/-- A rejecting parser answers nothing: the error of what it reads, or its own. -/
theorem reject_eq {α β : Type} (e : DecodeError) (p : Parser α) (bs : List Byte) :
    (Parser.reject e p : Parser β) bs = .error (match p bs with | .ok _ => e | .error x => x) := by
  unfold Parser.reject Parser.andThen Parser.fail
  cases p bs <;> rfl

end Sys2Proof
end

