-- ==== Sys2Proof/Laws/Exec.lean ====
section
/-! SUPPORT. Which meaning `exec` gives each instruction, one lemma for each constructor. -/

namespace Sys2Proof.Machine

@[simp] theorem exec_add (w : Width) (f : AluForm) (lock : Bool) (s : State) :
    exec (.add w f lock) s = execAdd w f lock s := rfl
@[simp] theorem exec_or (w : Width) (f : AluForm) (lock : Bool) (s : State) :
    exec (.or w f lock) s = execOr w f lock s := rfl
@[simp] theorem exec_adc (w : Width) (f : AluForm) (lock : Bool) (s : State) :
    exec (.adc w f lock) s = execAdc w f lock s := rfl
@[simp] theorem exec_sbb (w : Width) (f : AluForm) (lock : Bool) (s : State) :
    exec (.sbb w f lock) s = execSbb w f lock s := rfl
@[simp] theorem exec_and (w : Width) (f : AluForm) (lock : Bool) (s : State) :
    exec (.and w f lock) s = execAnd w f lock s := rfl
@[simp] theorem exec_sub (w : Width) (f : AluForm) (lock : Bool) (s : State) :
    exec (.sub w f lock) s = execSub w f lock s := rfl
@[simp] theorem exec_xor (w : Width) (f : AluForm) (lock : Bool) (s : State) :
    exec (.xor w f lock) s = execXor w f lock s := rfl
@[simp] theorem exec_cmp (w : Width) (f : AluForm) (s : State) : exec (.cmp w f) s = execCmp w f s := rfl
@[simp] theorem exec_aad (base : Byte) (s : State) : exec (.aad base) s = execAad base s := rfl
@[simp] theorem exec_aam (base : Byte) (s : State) : exec (.aam base) s = execAam base s := rfl
@[simp] theorem exec_adcx (w : Width) (dst : Gpr) (src : RM) (s : State) :
    exec (.adcx w dst src) s = execAdcx w dst src s := rfl
@[simp] theorem exec_adox (w : Width) (dst : Gpr) (src : RM) (s : State) :
    exec (.adox w dst src) s = execAdox w dst src s := rfl
@[simp] theorem exec_andn (w : Width) (dst : Gpr) (src1 : Gpr) (src2 : RM) (s : State) :
    exec (.andn w dst src1 src2) s = execAndn w dst src1 src2 s := rfl
@[simp] theorem exec_bextr (w : Width) (dst : Gpr) (src : RM) (ctl : BextrCtl) (s : State) :
    exec (.bextr w dst src ctl) s = execBextr w dst src ctl s := rfl
@[simp] theorem exec_blcfill (w : Width) (dst : Gpr) (src : RM) (s : State) :
    exec (.blcfill w dst src) s = execBlcfill w dst src s := rfl
@[simp] theorem exec_blci (w : Width) (dst : Gpr) (src : RM) (s : State) :
    exec (.blci w dst src) s = execBlci w dst src s := rfl
@[simp] theorem exec_blcic (w : Width) (dst : Gpr) (src : RM) (s : State) :
    exec (.blcic w dst src) s = execBlcic w dst src s := rfl
@[simp] theorem exec_blcmsk (w : Width) (dst : Gpr) (src : RM) (s : State) :
    exec (.blcmsk w dst src) s = execBlcmsk w dst src s := rfl
@[simp] theorem exec_blcs (w : Width) (dst : Gpr) (src : RM) (s : State) :
    exec (.blcs w dst src) s = execBlcs w dst src s := rfl
@[simp] theorem exec_blsfill (w : Width) (dst : Gpr) (src : RM) (s : State) :
    exec (.blsfill w dst src) s = execBlsfill w dst src s := rfl
@[simp] theorem exec_blsic (w : Width) (dst : Gpr) (src : RM) (s : State) :
    exec (.blsic w dst src) s = execBlsic w dst src s := rfl
@[simp] theorem exec_blsi (w : Width) (dst : Gpr) (src : RM) (s : State) :
    exec (.blsi w dst src) s = execBlsi w dst src s := rfl
@[simp] theorem exec_blsmsk (w : Width) (dst : Gpr) (src : RM) (s : State) :
    exec (.blsmsk w dst src) s = execBlsmsk w dst src s := rfl
@[simp] theorem exec_blsr (w : Width) (dst : Gpr) (src : RM) (s : State) :
    exec (.blsr w dst src) s = execBlsr w dst src s := rfl
@[simp] theorem exec_bound (w : Width) (idx : Gpr) (m : Mem) (s : State) :
    exec (.bound w idx m) s = execBound w idx m s := rfl
@[simp] theorem exec_bsf (w : Width) (dst : Gpr) (src : RM) (s : State) :
    exec (.bsf w dst src) s = execBsf w dst src s := rfl
@[simp] theorem exec_bsr (w : Width) (dst : Gpr) (src : RM) (s : State) :
    exec (.bsr w dst src) s = execBsr w dst src s := rfl
@[simp] theorem exec_bswap (w : Width) (r : Gpr) (s : State) : exec (.bswap w r) s = execBswap w r s := rfl
@[simp] theorem exec_bt (w : Width) (rm : RM) (off : BitOff) (s : State) :
    exec (.bt w rm off) s = execBt w rm off s := rfl
@[simp] theorem exec_btc (w : Width) (rm : RM) (off : BitOff) (lock : Bool) (s : State) :
    exec (.btc w rm off lock) s = execBtc w rm off lock s := rfl
@[simp] theorem exec_btr (w : Width) (rm : RM) (off : BitOff) (lock : Bool) (s : State) :
    exec (.btr w rm off lock) s = execBtr w rm off lock s := rfl
@[simp] theorem exec_bts (w : Width) (rm : RM) (off : BitOff) (lock : Bool) (s : State) :
    exec (.bts w rm off lock) s = execBts w rm off lock s := rfl
@[simp] theorem exec_bzhi (w : Width) (dst : Gpr) (src : RM) (idx : Gpr) (s : State) :
    exec (.bzhi w dst src idx) s = execBzhi w dst src idx s := rfl
@[simp] theorem exec_call (w : Width) (t : NearTarget) (s : State) : exec (.call w t) s = execCall w t s := rfl
@[simp] theorem exec_callFar (w : Width) (t : FarTarget) (s : State) : exec (.callFar w t) s = execCallFar w t s := rfl
@[simp] theorem exec_clflush (m : Mem) (s : State) : exec (.clflush m) s = execClflush m s := rfl
@[simp] theorem exec_clflushopt (m : Mem) (s : State) : exec (.clflushopt m) s = execClflushopt m s := rfl
@[simp] theorem exec_clwb (m : Mem) (s : State) : exec (.clwb m) s = execClwb m s := rfl
@[simp] theorem exec_clzero (seg : SegName) (asz : ASize) (s : State) :
    exec (.clzero seg asz) s = execClzero seg asz s := rfl
@[simp] theorem exec_cmovo (w : Width) (dst : Gpr) (src : RM) (s : State) :
    exec (.cmovo w dst src) s = execCmovo w dst src s := rfl
@[simp] theorem exec_cmovno (w : Width) (dst : Gpr) (src : RM) (s : State) :
    exec (.cmovno w dst src) s = execCmovno w dst src s := rfl
@[simp] theorem exec_cmovb (w : Width) (dst : Gpr) (src : RM) (s : State) :
    exec (.cmovb w dst src) s = execCmovb w dst src s := rfl
@[simp] theorem exec_cmovnb (w : Width) (dst : Gpr) (src : RM) (s : State) :
    exec (.cmovnb w dst src) s = execCmovnb w dst src s := rfl
@[simp] theorem exec_cmovz (w : Width) (dst : Gpr) (src : RM) (s : State) :
    exec (.cmovz w dst src) s = execCmovz w dst src s := rfl
@[simp] theorem exec_cmovnz (w : Width) (dst : Gpr) (src : RM) (s : State) :
    exec (.cmovnz w dst src) s = execCmovnz w dst src s := rfl
@[simp] theorem exec_cmovbe (w : Width) (dst : Gpr) (src : RM) (s : State) :
    exec (.cmovbe w dst src) s = execCmovbe w dst src s := rfl
@[simp] theorem exec_cmovnbe (w : Width) (dst : Gpr) (src : RM) (s : State) :
    exec (.cmovnbe w dst src) s = execCmovnbe w dst src s := rfl
@[simp] theorem exec_cmovs (w : Width) (dst : Gpr) (src : RM) (s : State) :
    exec (.cmovs w dst src) s = execCmovs w dst src s := rfl
@[simp] theorem exec_cmovns (w : Width) (dst : Gpr) (src : RM) (s : State) :
    exec (.cmovns w dst src) s = execCmovns w dst src s := rfl
@[simp] theorem exec_cmovp (w : Width) (dst : Gpr) (src : RM) (s : State) :
    exec (.cmovp w dst src) s = execCmovp w dst src s := rfl
@[simp] theorem exec_cmovnp (w : Width) (dst : Gpr) (src : RM) (s : State) :
    exec (.cmovnp w dst src) s = execCmovnp w dst src s := rfl
@[simp] theorem exec_cmovl (w : Width) (dst : Gpr) (src : RM) (s : State) :
    exec (.cmovl w dst src) s = execCmovl w dst src s := rfl
@[simp] theorem exec_cmovnl (w : Width) (dst : Gpr) (src : RM) (s : State) :
    exec (.cmovnl w dst src) s = execCmovnl w dst src s := rfl
@[simp] theorem exec_cmovle (w : Width) (dst : Gpr) (src : RM) (s : State) :
    exec (.cmovle w dst src) s = execCmovle w dst src s := rfl
@[simp] theorem exec_cmovnle (w : Width) (dst : Gpr) (src : RM) (s : State) :
    exec (.cmovnle w dst src) s = execCmovnle w dst src s := rfl
@[simp] theorem exec_cmpsb (seg : SegName) (asz : ASize) (rep : Rep) (s : State) :
    exec (.cmpsb seg asz rep) s = execCmpsb seg asz rep s := rfl
@[simp] theorem exec_cmpsv (w : Width) (seg : SegName) (asz : ASize) (rep : Rep) (s : State) :
    exec (.cmpsv w seg asz rep) s = execCmpsv w seg asz rep s := rfl
@[simp] theorem exec_cmpxchg (w : Width) (rm : RM) (r : GReg) (lock : Bool) (s : State) :
    exec (.cmpxchg w rm r lock) s = execCmpxchg w rm r lock s := rfl
@[simp] theorem exec_cmpxchg8b (m : Mem) (lock : Bool) (s : State) :
    exec (.cmpxchg8b m lock) s = execCmpxchg8b m lock s := rfl
@[simp] theorem exec_cmpxchg16b (m : Mem) (lock : Bool) (s : State) :
    exec (.cmpxchg16b m lock) s = execCmpxchg16b m lock s := rfl
@[simp] theorem exec_crc32 (w : Width) (wide : Bool) (dst : Gpr) (src : RM) (s : State) :
    exec (.crc32 w wide dst src) s = execCrc32 w wide dst src s := rfl
@[simp] theorem exec_dec (w : Width) (rm : RM) (lock : Bool) (s : State) :
    exec (.dec w rm lock) s = execDec w rm lock s := rfl
@[simp] theorem exec_div (w : Width) (rm : RM) (s : State) : exec (.div w rm) s = execDiv w rm s := rfl
@[simp] theorem exec_enter (w : Width) (size : BitVec 16) (level : Byte) (s : State) :
    exec (.enter w size level) s = execEnter w size level s := rfl
@[simp] theorem exec_idiv (w : Width) (rm : RM) (s : State) : exec (.idiv w rm) s = execIdiv w rm s := rfl
@[simp] theorem exec_imul (w : Width) (f : ImulForm) (s : State) : exec (.imul w f) s = execImul w f s := rfl
@[simp] theorem exec_inp (w : Width) (port : Port) (s : State) : exec (.inp w port) s = execInp w port s := rfl
@[simp] theorem exec_inc (w : Width) (rm : RM) (lock : Bool) (s : State) :
    exec (.inc w rm lock) s = execInc w rm lock s := rfl
@[simp] theorem exec_insb (asz : ASize) (rep : Rep) (s : State) : exec (.insb asz rep) s = execInsb asz rep s := rfl
@[simp] theorem exec_insw (asz : ASize) (rep : Rep) (s : State) : exec (.insw asz rep) s = execInsw asz rep s := rfl
@[simp] theorem exec_insd (asz : ASize) (rep : Rep) (s : State) : exec (.insd asz rep) s = execInsd asz rep s := rfl
@[simp] theorem exec_int (vector : Byte) (s : State) : exec (.int vector) s = execInt vector s := rfl
@[simp] theorem exec_jo (w : Width) (rel : BitVec 64) (s : State) : exec (.jo w rel) s = execJo w rel s := rfl
@[simp] theorem exec_jno (w : Width) (rel : BitVec 64) (s : State) : exec (.jno w rel) s = execJno w rel s := rfl
@[simp] theorem exec_jb (w : Width) (rel : BitVec 64) (s : State) : exec (.jb w rel) s = execJb w rel s := rfl
@[simp] theorem exec_jnb (w : Width) (rel : BitVec 64) (s : State) : exec (.jnb w rel) s = execJnb w rel s := rfl
@[simp] theorem exec_jz (w : Width) (rel : BitVec 64) (s : State) : exec (.jz w rel) s = execJz w rel s := rfl
@[simp] theorem exec_jnz (w : Width) (rel : BitVec 64) (s : State) : exec (.jnz w rel) s = execJnz w rel s := rfl
@[simp] theorem exec_jbe (w : Width) (rel : BitVec 64) (s : State) : exec (.jbe w rel) s = execJbe w rel s := rfl
@[simp] theorem exec_jnbe (w : Width) (rel : BitVec 64) (s : State) : exec (.jnbe w rel) s = execJnbe w rel s := rfl
@[simp] theorem exec_js (w : Width) (rel : BitVec 64) (s : State) : exec (.js w rel) s = execJs w rel s := rfl
@[simp] theorem exec_jns (w : Width) (rel : BitVec 64) (s : State) : exec (.jns w rel) s = execJns w rel s := rfl
@[simp] theorem exec_jp (w : Width) (rel : BitVec 64) (s : State) : exec (.jp w rel) s = execJp w rel s := rfl
@[simp] theorem exec_jnp (w : Width) (rel : BitVec 64) (s : State) : exec (.jnp w rel) s = execJnp w rel s := rfl
@[simp] theorem exec_jl (w : Width) (rel : BitVec 64) (s : State) : exec (.jl w rel) s = execJl w rel s := rfl
@[simp] theorem exec_jnl (w : Width) (rel : BitVec 64) (s : State) : exec (.jnl w rel) s = execJnl w rel s := rfl
@[simp] theorem exec_jle (w : Width) (rel : BitVec 64) (s : State) : exec (.jle w rel) s = execJle w rel s := rfl
@[simp] theorem exec_jnle (w : Width) (rel : BitVec 64) (s : State) : exec (.jnle w rel) s = execJnle w rel s := rfl
@[simp] theorem exec_jcxz (w : Width) (rel : BitVec 64) (s : State) : exec (.jcxz w rel) s = execJcxz w rel s := rfl
@[simp] theorem exec_jecxz (w : Width) (rel : BitVec 64) (s : State) : exec (.jecxz w rel) s = execJecxz w rel s := rfl
@[simp] theorem exec_jrcxz (w : Width) (rel : BitVec 64) (s : State) : exec (.jrcxz w rel) s = execJrcxz w rel s := rfl
@[simp] theorem exec_jmp (w : Width) (t : NearTarget) (s : State) : exec (.jmp w t) s = execJmp w t s := rfl
@[simp] theorem exec_jmpFar (w : Width) (t : FarTarget) (s : State) : exec (.jmpFar w t) s = execJmpFar w t s := rfl
@[simp] theorem exec_lds (w : Width) (dst : Gpr) (m : Mem) (s : State) :
    exec (.lds w dst m) s = execLds w dst m s := rfl
@[simp] theorem exec_les (w : Width) (dst : Gpr) (m : Mem) (s : State) :
    exec (.les w dst m) s = execLes w dst m s := rfl
@[simp] theorem exec_lfs (w : Width) (dst : Gpr) (m : Mem) (s : State) :
    exec (.lfs w dst m) s = execLfs w dst m s := rfl
@[simp] theorem exec_lgs (w : Width) (dst : Gpr) (m : Mem) (s : State) :
    exec (.lgs w dst m) s = execLgs w dst m s := rfl
@[simp] theorem exec_lss (w : Width) (dst : Gpr) (m : Mem) (s : State) :
    exec (.lss w dst m) s = execLss w dst m s := rfl
@[simp] theorem exec_lea (w : Width) (dst : Gpr) (m : Mem) (s : State) :
    exec (.lea w dst m) s = execLea w dst m s := rfl
@[simp] theorem exec_leave (w : Width) (s : State) : exec (.leave w) s = execLeave w s := rfl
@[simp] theorem exec_llwpcb (w : Width) (r : Gpr) (s : State) : exec (.llwpcb w r) s = execLlwpcb w r s := rfl
@[simp] theorem exec_lodsb (seg : SegName) (asz : ASize) (rep : Rep) (s : State) :
    exec (.lodsb seg asz rep) s = execLodsb seg asz rep s := rfl
@[simp] theorem exec_lodsv (w : Width) (seg : SegName) (asz : ASize) (rep : Rep) (s : State) :
    exec (.lodsv w seg asz rep) s = execLodsv w seg asz rep s := rfl
@[simp] theorem exec_loop (w : Width) (asz : ASize) (rel : BitVec 64) (s : State) :
    exec (.loop w asz rel) s = execLoop w asz rel s := rfl
@[simp] theorem exec_loope (w : Width) (asz : ASize) (rel : BitVec 64) (s : State) :
    exec (.loope w asz rel) s = execLoope w asz rel s := rfl
@[simp] theorem exec_loopne (w : Width) (asz : ASize) (rel : BitVec 64) (s : State) :
    exec (.loopne w asz rel) s = execLoopne w asz rel s := rfl
@[simp] theorem exec_lwpins (w : Width) (src1 : Gpr) (src2 : RM) (flags : BitVec 32) (s : State) :
    exec (.lwpins w src1 src2 flags) s = execLwpins w src1 src2 flags s := rfl
@[simp] theorem exec_lwpval (w : Width) (src1 : Gpr) (src2 : RM) (flags : BitVec 32) (s : State) :
    exec (.lwpval w src1 src2 flags) s = execLwpval w src1 src2 flags s := rfl
@[simp] theorem exec_lzcnt (w : Width) (dst : Gpr) (src : RM) (s : State) :
    exec (.lzcnt w dst src) s = execLzcnt w dst src s := rfl
@[simp] theorem exec_monitorx (seg : SegName) (asz : ASize) (s : State) :
    exec (.monitorx seg asz) s = execMonitorx seg asz s := rfl
@[simp] theorem exec_mov (f : MovForm) (s : State) : exec (.mov f) s = execMov f s := rfl
@[simp] theorem exec_movbe (w : Width) (f : MovbeForm) (s : State) : exec (.movbe w f) s = execMovbe w f s := rfl
@[simp] theorem exec_movd (wide : Bool) (f : MovdForm) (s : State) : exec (.movd wide f) s = execMovd wide f s := rfl
@[simp] theorem exec_movmskpd (dst : Gpr) (x : XmmNum) (s : State) :
    exec (.movmskpd dst x) s = execMovmskpd dst x s := rfl
@[simp] theorem exec_movmskps (dst : Gpr) (x : XmmNum) (s : State) :
    exec (.movmskps dst x) s = execMovmskps dst x s := rfl
@[simp] theorem exec_movnti (w : Width) (m : Mem) (r : Gpr) (s : State) :
    exec (.movnti w m r) s = execMovnti w m r s := rfl
@[simp] theorem exec_movsb (seg : SegName) (asz : ASize) (rep : Rep) (s : State) :
    exec (.movsb seg asz rep) s = execMovsb seg asz rep s := rfl
@[simp] theorem exec_movsv (w : Width) (seg : SegName) (asz : ASize) (rep : Rep) (s : State) :
    exec (.movsv w seg asz rep) s = execMovsv w seg asz rep s := rfl
@[simp] theorem exec_movsx (w : Width) (sw : Width) (dst : Gpr) (src : RM) (s : State) :
    exec (.movsx w sw dst src) s = execMovsx w sw dst src s := rfl
@[simp] theorem exec_movsxd (w : Width) (dst : Gpr) (src : RM) (s : State) :
    exec (.movsxd w dst src) s = execMovsxd w dst src s := rfl
@[simp] theorem exec_movzx (w : Width) (sw : Width) (dst : Gpr) (src : RM) (s : State) :
    exec (.movzx w sw dst src) s = execMovzx w sw dst src s := rfl
@[simp] theorem exec_mul (w : Width) (rm : RM) (s : State) : exec (.mul w rm) s = execMul w rm s := rfl
@[simp] theorem exec_mulx (w : Width) (hi : Gpr) (lo : Gpr) (src : RM) (s : State) :
    exec (.mulx w hi lo src) s = execMulx w hi lo src s := rfl
@[simp] theorem exec_neg (w : Width) (rm : RM) (lock : Bool) (s : State) :
    exec (.neg w rm lock) s = execNeg w rm lock s := rfl
@[simp] theorem exec_nop (rm : Option RM) (s : State) : exec (.nop rm) s = execNop rm s := rfl
@[simp] theorem exec_not (w : Width) (rm : RM) (lock : Bool) (s : State) :
    exec (.not w rm lock) s = execNot w rm lock s := rfl
@[simp] theorem exec_out (w : Width) (port : Port) (s : State) : exec (.out w port) s = execOut w port s := rfl
@[simp] theorem exec_outsb (seg : SegName) (asz : ASize) (rep : Rep) (s : State) :
    exec (.outsb seg asz rep) s = execOutsb seg asz rep s := rfl
@[simp] theorem exec_outsw (seg : SegName) (asz : ASize) (rep : Rep) (s : State) :
    exec (.outsw seg asz rep) s = execOutsw seg asz rep s := rfl
@[simp] theorem exec_outsd (seg : SegName) (asz : ASize) (rep : Rep) (s : State) :
    exec (.outsd seg asz rep) s = execOutsd seg asz rep s := rfl
@[simp] theorem exec_pdep (w : Width) (dst : Gpr) (src : Gpr) (mask : RM) (s : State) :
    exec (.pdep w dst src mask) s = execPdep w dst src mask s := rfl
@[simp] theorem exec_pext (w : Width) (dst : Gpr) (src : Gpr) (mask : RM) (s : State) :
    exec (.pext w dst src mask) s = execPext w dst src mask s := rfl
@[simp] theorem exec_pop (w : Width) (f : PopForm) (s : State) : exec (.pop w f) s = execPop w f s := rfl
@[simp] theorem exec_popcnt (w : Width) (dst : Gpr) (src : RM) (s : State) :
    exec (.popcnt w dst src) s = execPopcnt w dst src s := rfl
@[simp] theorem exec_prefetch (m : Mem) (s : State) : exec (.prefetch m) s = execPrefetch m s := rfl
@[simp] theorem exec_prefetchw (m : Mem) (s : State) : exec (.prefetchw m) s = execPrefetchw m s := rfl
@[simp] theorem exec_prefetchnta (m : Mem) (s : State) : exec (.prefetchnta m) s = execPrefetchnta m s := rfl
@[simp] theorem exec_prefetcht0 (m : Mem) (s : State) : exec (.prefetcht0 m) s = execPrefetcht0 m s := rfl
@[simp] theorem exec_prefetcht1 (m : Mem) (s : State) : exec (.prefetcht1 m) s = execPrefetcht1 m s := rfl
@[simp] theorem exec_prefetcht2 (m : Mem) (s : State) : exec (.prefetcht2 m) s = execPrefetcht2 m s := rfl
@[simp] theorem exec_push (w : Width) (f : PushForm) (s : State) : exec (.push w f) s = execPush w f s := rfl
@[simp] theorem exec_rol (w : Width) (rm : RM) (cnt : ShiftCount) (s : State) :
    exec (.rol w rm cnt) s = execRol w rm cnt s := rfl
@[simp] theorem exec_ror (w : Width) (rm : RM) (cnt : ShiftCount) (s : State) :
    exec (.ror w rm cnt) s = execRor w rm cnt s := rfl
@[simp] theorem exec_rcl (w : Width) (rm : RM) (cnt : ShiftCount) (s : State) :
    exec (.rcl w rm cnt) s = execRcl w rm cnt s := rfl
@[simp] theorem exec_rcr (w : Width) (rm : RM) (cnt : ShiftCount) (s : State) :
    exec (.rcr w rm cnt) s = execRcr w rm cnt s := rfl
@[simp] theorem exec_shl (w : Width) (rm : RM) (cnt : ShiftCount) (s : State) :
    exec (.shl w rm cnt) s = execShl w rm cnt s := rfl
@[simp] theorem exec_shr (w : Width) (rm : RM) (cnt : ShiftCount) (s : State) :
    exec (.shr w rm cnt) s = execShr w rm cnt s := rfl
@[simp] theorem exec_sar (w : Width) (rm : RM) (cnt : ShiftCount) (s : State) :
    exec (.sar w rm cnt) s = execSar w rm cnt s := rfl
@[simp] theorem exec_rdfsbase (w : Width) (r : Gpr) (s : State) : exec (.rdfsbase w r) s = execRdfsbase w r s := rfl
@[simp] theorem exec_rdgsbase (w : Width) (r : Gpr) (s : State) : exec (.rdgsbase w r) s = execRdgsbase w r s := rfl
@[simp] theorem exec_rdpid (r : Gpr) (s : State) : exec (.rdpid r) s = execRdpid r s := rfl
@[simp] theorem exec_rdrand (w : Width) (r : Gpr) (s : State) : exec (.rdrand w r) s = execRdrand w r s := rfl
@[simp] theorem exec_rdseed (w : Width) (r : Gpr) (s : State) : exec (.rdseed w r) s = execRdseed w r s := rfl
@[simp] theorem exec_ret (w : Width) (imm : BitVec 16) (s : State) : exec (.ret w imm) s = execRet w imm s := rfl
@[simp] theorem exec_retf (w : Width) (imm : BitVec 16) (s : State) : exec (.retf w imm) s = execRetf w imm s := rfl
@[simp] theorem exec_rorx (w : Width) (dst : Gpr) (src : RM) (imm : Byte) (s : State) :
    exec (.rorx w dst src imm) s = execRorx w dst src imm s := rfl
@[simp] theorem exec_sarx (w : Width) (dst : Gpr) (src : RM) (cnt : Gpr) (s : State) :
    exec (.sarx w dst src cnt) s = execSarx w dst src cnt s := rfl
@[simp] theorem exec_scasb (asz : ASize) (rep : Rep) (s : State) : exec (.scasb asz rep) s = execScasb asz rep s := rfl
@[simp] theorem exec_scasv (w : Width) (asz : ASize) (rep : Rep) (s : State) :
    exec (.scasv w asz rep) s = execScasv w asz rep s := rfl
@[simp] theorem exec_seto (rm : RM) (s : State) : exec (.seto rm) s = execSeto rm s := rfl
@[simp] theorem exec_setno (rm : RM) (s : State) : exec (.setno rm) s = execSetno rm s := rfl
@[simp] theorem exec_setb (rm : RM) (s : State) : exec (.setb rm) s = execSetb rm s := rfl
@[simp] theorem exec_setnb (rm : RM) (s : State) : exec (.setnb rm) s = execSetnb rm s := rfl
@[simp] theorem exec_setz (rm : RM) (s : State) : exec (.setz rm) s = execSetz rm s := rfl
@[simp] theorem exec_setnz (rm : RM) (s : State) : exec (.setnz rm) s = execSetnz rm s := rfl
@[simp] theorem exec_setbe (rm : RM) (s : State) : exec (.setbe rm) s = execSetbe rm s := rfl
@[simp] theorem exec_setnbe (rm : RM) (s : State) : exec (.setnbe rm) s = execSetnbe rm s := rfl
@[simp] theorem exec_sets (rm : RM) (s : State) : exec (.sets rm) s = execSets rm s := rfl
@[simp] theorem exec_setns (rm : RM) (s : State) : exec (.setns rm) s = execSetns rm s := rfl
@[simp] theorem exec_setp (rm : RM) (s : State) : exec (.setp rm) s = execSetp rm s := rfl
@[simp] theorem exec_setnp (rm : RM) (s : State) : exec (.setnp rm) s = execSetnp rm s := rfl
@[simp] theorem exec_setl (rm : RM) (s : State) : exec (.setl rm) s = execSetl rm s := rfl
@[simp] theorem exec_setnl (rm : RM) (s : State) : exec (.setnl rm) s = execSetnl rm s := rfl
@[simp] theorem exec_setle (rm : RM) (s : State) : exec (.setle rm) s = execSetle rm s := rfl
@[simp] theorem exec_setnle (rm : RM) (s : State) : exec (.setnle rm) s = execSetnle rm s := rfl
@[simp] theorem exec_shld (w : Width) (rm : RM) (r : Gpr) (cnt : ShiftCount) (s : State) :
    exec (.shld w rm r cnt) s = execShld w rm r cnt s := rfl
@[simp] theorem exec_shlx (w : Width) (dst : Gpr) (src : RM) (cnt : Gpr) (s : State) :
    exec (.shlx w dst src cnt) s = execShlx w dst src cnt s := rfl
@[simp] theorem exec_shrd (w : Width) (rm : RM) (r : Gpr) (cnt : ShiftCount) (s : State) :
    exec (.shrd w rm r cnt) s = execShrd w rm r cnt s := rfl
@[simp] theorem exec_shrx (w : Width) (dst : Gpr) (src : RM) (cnt : Gpr) (s : State) :
    exec (.shrx w dst src cnt) s = execShrx w dst src cnt s := rfl
@[simp] theorem exec_slwpcb (w : Width) (r : Gpr) (s : State) : exec (.slwpcb w r) s = execSlwpcb w r s := rfl
@[simp] theorem exec_stosb (asz : ASize) (rep : Rep) (s : State) : exec (.stosb asz rep) s = execStosb asz rep s := rfl
@[simp] theorem exec_stosv (w : Width) (asz : ASize) (rep : Rep) (s : State) :
    exec (.stosv w asz rep) s = execStosv w asz rep s := rfl
@[simp] theorem exec_t1mskc (w : Width) (dst : Gpr) (src : RM) (s : State) :
    exec (.t1mskc w dst src) s = execT1mskc w dst src s := rfl
@[simp] theorem exec_test (w : Width) (rm : RM) (src : RegImm) (s : State) :
    exec (.test w rm src) s = execTest w rm src s := rfl
@[simp] theorem exec_tzcnt (w : Width) (dst : Gpr) (src : RM) (s : State) :
    exec (.tzcnt w dst src) s = execTzcnt w dst src s := rfl
@[simp] theorem exec_tzmsk (w : Width) (dst : Gpr) (src : RM) (s : State) :
    exec (.tzmsk w dst src) s = execTzmsk w dst src s := rfl
@[simp] theorem exec_wrfsbase (w : Width) (r : Gpr) (s : State) : exec (.wrfsbase w r) s = execWrfsbase w r s := rfl
@[simp] theorem exec_wrgsbase (w : Width) (r : Gpr) (s : State) : exec (.wrgsbase w r) s = execWrgsbase w r s := rfl
@[simp] theorem exec_xadd (w : Width) (rm : RM) (r : GReg) (lock : Bool) (s : State) :
    exec (.xadd w rm r lock) s = execXadd w rm r lock s := rfl
@[simp] theorem exec_xchg (w : Width) (rm : RM) (r : GReg) (lock : Bool) (s : State) :
    exec (.xchg w rm r lock) s = execXchg w rm r lock s := rfl
@[simp] theorem exec_xlat (seg : SegName) (asz : ASize) (s : State) : exec (.xlat seg asz) s = execXlat seg asz s := rfl
@[simp] theorem exec_arpl (rm : RM) (r : Gpr) (s : State) : exec (.arpl rm r) s = execArpl rm r s := rfl
@[simp] theorem exec_clrssbsy (m : Mem) (s : State) : exec (.clrssbsy m) s = execClrssbsy m s := rfl
@[simp] theorem exec_incsspd (r : Gpr) (s : State) : exec (.incsspd r) s = execIncsspd r s := rfl
@[simp] theorem exec_incsspq (r : Gpr) (s : State) : exec (.incsspq r) s = execIncsspq r s := rfl
@[simp] theorem exec_invlpg (m : Mem) (s : State) : exec (.invlpg m) s = execInvlpg m s := rfl
@[simp] theorem exec_invlpga (seg : SegName) (asz : ASize) (s : State) :
    exec (.invlpga seg asz) s = execInvlpga seg asz s := rfl
@[simp] theorem exec_invlpgb (seg : SegName) (asz : ASize) (s : State) :
    exec (.invlpgb seg asz) s = execInvlpgb seg asz s := rfl
@[simp] theorem exec_invpcid (r : Gpr) (m : Mem) (s : State) : exec (.invpcid r m) s = execInvpcid r m s := rfl
@[simp] theorem exec_lar (w : Width) (dst : Gpr) (src : RM) (s : State) :
    exec (.lar w dst src) s = execLar w dst src s := rfl
@[simp] theorem exec_lgdt (w : Width) (m : Mem) (s : State) : exec (.lgdt w m) s = execLgdt w m s := rfl
@[simp] theorem exec_lidt (w : Width) (m : Mem) (s : State) : exec (.lidt w m) s = execLidt w m s := rfl
@[simp] theorem exec_lldt (rm : RM) (s : State) : exec (.lldt rm) s = execLldt rm s := rfl
@[simp] theorem exec_lmsw (rm : RM) (s : State) : exec (.lmsw rm) s = execLmsw rm s := rfl
@[simp] theorem exec_lsl (w : Width) (dst : Gpr) (src : RM) (s : State) :
    exec (.lsl w dst src) s = execLsl w dst src s := rfl
@[simp] theorem exec_ltr (rm : RM) (s : State) : exec (.ltr rm) s = execLtr rm s := rfl
@[simp] theorem exec_monitor (seg : SegName) (asz : ASize) (s : State) :
    exec (.monitor seg asz) s = execMonitor seg asz s := rfl
@[simp] theorem exec_psmash (asz : ASize) (s : State) : exec (.psmash asz) s = execPsmash asz s := rfl
@[simp] theorem exec_pvalidate (asz : ASize) (s : State) : exec (.pvalidate asz) s = execPvalidate asz s := rfl
@[simp] theorem exec_rdsspd (r : Gpr) (s : State) : exec (.rdsspd r) s = execRdsspd r s := rfl
@[simp] theorem exec_rdsspq (r : Gpr) (s : State) : exec (.rdsspq r) s = execRdsspq r s := rfl
@[simp] theorem exec_rmpadjust (asz : ASize) (s : State) : exec (.rmpadjust asz) s = execRmpadjust asz s := rfl
@[simp] theorem exec_rmpupdate (seg : SegName) (asz : ASize) (s : State) :
    exec (.rmpupdate seg asz) s = execRmpupdate seg asz s := rfl
@[simp] theorem exec_rstorssp (m : Mem) (s : State) : exec (.rstorssp m) s = execRstorssp m s := rfl
@[simp] theorem exec_sgdt (m : Mem) (s : State) : exec (.sgdt m) s = execSgdt m s := rfl
@[simp] theorem exec_sidt (m : Mem) (s : State) : exec (.sidt m) s = execSidt m s := rfl
@[simp] theorem exec_sldt (w : Width) (rm : RM) (s : State) : exec (.sldt w rm) s = execSldt w rm s := rfl
@[simp] theorem exec_smsw (w : Width) (rm : RM) (s : State) : exec (.smsw w rm) s = execSmsw w rm s := rfl
@[simp] theorem exec_str (w : Width) (rm : RM) (s : State) : exec (.str w rm) s = execStr w rm s := rfl
@[simp] theorem exec_sysret (w : Width) (s : State) : exec (.sysret w) s = execSysret w s := rfl
@[simp] theorem exec_verr (rm : RM) (s : State) : exec (.verr rm) s = execVerr rm s := rfl
@[simp] theorem exec_verw (rm : RM) (s : State) : exec (.verw rm) s = execVerw rm s := rfl
@[simp] theorem exec_vmload (asz : ASize) (s : State) : exec (.vmload asz) s = execVmload asz s := rfl
@[simp] theorem exec_vmrun (asz : ASize) (s : State) : exec (.vmrun asz) s = execVmrun asz s := rfl
@[simp] theorem exec_vmsave (asz : ASize) (s : State) : exec (.vmsave asz) s = execVmsave asz s := rfl
@[simp] theorem exec_wrssd (m : Mem) (r : Gpr) (s : State) : exec (.wrssd m r) s = execWrssd m r s := rfl
@[simp] theorem exec_wrssq (m : Mem) (r : Gpr) (s : State) : exec (.wrssq m r) s = execWrssq m r s := rfl
@[simp] theorem exec_wrussd (m : Mem) (r : Gpr) (s : State) : exec (.wrussd m r) s = execWrussd m r s := rfl
@[simp] theorem exec_wrussq (m : Mem) (r : Gpr) (s : State) : exec (.wrussq m r) s = execWrussq m r s := rfl
@[simp] theorem exec_prefixVex3 (map : BitVec 5) (op : Byte) (s : State) :
    exec (.prefixVex3 map op) s = execPrefixVex3 map op s := rfl
@[simp] theorem exec_prefixVex2 (op : Byte) (s : State) : exec (.prefixVex2 op) s = execPrefixVex2 op s := rfl
@[simp] theorem exec_prefixXop (map : BitVec 5) (op : Byte) (s : State) :
    exec (.prefixXop map op) s = execPrefixXop map op s := rfl
@[simp] theorem exec_escape0F (op : Byte) (modrm : Byte) (s : State) :
    exec (.escape0F op modrm) s = execEscape0F op modrm s := rfl
@[simp] theorem exec_escape0F38 (op : Byte) (modrm : Byte) (s : State) :
    exec (.escape0F38 op modrm) s = execEscape0F38 op modrm s := rfl
@[simp] theorem exec_escape0F3A (op : Byte) (modrm : Byte) (s : State) :
    exec (.escape0F3A op modrm) s = execEscape0F3A op modrm s := rfl
@[simp] theorem exec_x87 (op : BitVec 3) (modrm : Byte) (s : State) : exec (.x87 op modrm) s = execX87 op modrm s := rfl
@[simp] theorem exec_threeDNow (op : Byte) (modrm : Byte) (s : State) :
    exec (.threeDNow op modrm) s = execThreeDNow op modrm s := rfl
@[simp] theorem exec_reservedGroup3 (w : Width) (s : State) : exec (.reservedGroup3 w) s = execReservedGroup3 w s := rfl
@[simp] theorem exec_aaa (s : State) : exec .aaa s = execAaa s := rfl
@[simp] theorem exec_aas (s : State) : exec .aas s = execAas s := rfl
@[simp] theorem exec_cbw (s : State) : exec .cbw s = execCbw s := rfl
@[simp] theorem exec_cwde (s : State) : exec .cwde s = execCwde s := rfl
@[simp] theorem exec_cdqe (s : State) : exec .cdqe s = execCdqe s := rfl
@[simp] theorem exec_cwd (s : State) : exec .cwd s = execCwd s := rfl
@[simp] theorem exec_cdq (s : State) : exec .cdq s = execCdq s := rfl
@[simp] theorem exec_cqo (s : State) : exec .cqo s = execCqo s := rfl
@[simp] theorem exec_clc (s : State) : exec .clc s = execClc s := rfl
@[simp] theorem exec_cld (s : State) : exec .cld s = execCld s := rfl
@[simp] theorem exec_cmc (s : State) : exec .cmc s = execCmc s := rfl
@[simp] theorem exec_cpuid (s : State) : exec .cpuid s = execCpuid s := rfl
@[simp] theorem exec_daa (s : State) : exec .daa s = execDaa s := rfl
@[simp] theorem exec_das (s : State) : exec .das s = execDas s := rfl
@[simp] theorem exec_into (s : State) : exec .into s = execInto s := rfl
@[simp] theorem exec_lahf (s : State) : exec .lahf s = execLahf s := rfl
@[simp] theorem exec_lfence (s : State) : exec .lfence s = execLfence s := rfl
@[simp] theorem exec_mcommit (s : State) : exec .mcommit s = execMcommit s := rfl
@[simp] theorem exec_mfence (s : State) : exec .mfence s = execMfence s := rfl
@[simp] theorem exec_mwaitx (s : State) : exec .mwaitx s = execMwaitx s := rfl
@[simp] theorem exec_pause (s : State) : exec .pause s = execPause s := rfl
@[simp] theorem exec_popa (s : State) : exec .popa s = execPopa s := rfl
@[simp] theorem exec_popad (s : State) : exec .popad s = execPopad s := rfl
@[simp] theorem exec_popf (s : State) : exec .popf s = execPopf s := rfl
@[simp] theorem exec_popfd (s : State) : exec .popfd s = execPopfd s := rfl
@[simp] theorem exec_popfq (s : State) : exec .popfq s = execPopfq s := rfl
@[simp] theorem exec_pusha (s : State) : exec .pusha s = execPusha s := rfl
@[simp] theorem exec_pushad (s : State) : exec .pushad s = execPushad s := rfl
@[simp] theorem exec_pushf (s : State) : exec .pushf s = execPushf s := rfl
@[simp] theorem exec_pushfd (s : State) : exec .pushfd s = execPushfd s := rfl
@[simp] theorem exec_pushfq (s : State) : exec .pushfq s = execPushfq s := rfl
@[simp] theorem exec_rdpru (s : State) : exec .rdpru s = execRdpru s := rfl
@[simp] theorem exec_sahf (s : State) : exec .sahf s = execSahf s := rfl
@[simp] theorem exec_sfence (s : State) : exec .sfence s = execSfence s := rfl
@[simp] theorem exec_stc (s : State) : exec .stc s = execStc s := rfl
@[simp] theorem exec_std (s : State) : exec .std s = execStd s := rfl
@[simp] theorem exec_ud0 (s : State) : exec .ud0 s = execUd0 s := rfl
@[simp] theorem exec_ud1 (s : State) : exec .ud1 s = execUd1 s := rfl
@[simp] theorem exec_ud2 (s : State) : exec .ud2 s = execUd2 s := rfl
@[simp] theorem exec_clac (s : State) : exec .clac s = execClac s := rfl
@[simp] theorem exec_clgi (s : State) : exec .clgi s = execClgi s := rfl
@[simp] theorem exec_cli (s : State) : exec .cli s = execCli s := rfl
@[simp] theorem exec_clts (s : State) : exec .clts s = execClts s := rfl
@[simp] theorem exec_hlt (s : State) : exec .hlt s = execHlt s := rfl
@[simp] theorem exec_int3 (s : State) : exec .int3 s = execInt3 s := rfl
@[simp] theorem exec_invd (s : State) : exec .invd s = execInvd s := rfl
@[simp] theorem exec_iret (s : State) : exec .iret s = execIret s := rfl
@[simp] theorem exec_iretd (s : State) : exec .iretd s = execIretd s := rfl
@[simp] theorem exec_iretq (s : State) : exec .iretq s = execIretq s := rfl
@[simp] theorem exec_mwait (s : State) : exec .mwait s = execMwait s := rfl
@[simp] theorem exec_rdmsr (s : State) : exec .rdmsr s = execRdmsr s := rfl
@[simp] theorem exec_rdpkru (s : State) : exec .rdpkru s = execRdpkru s := rfl
@[simp] theorem exec_rdpmc (s : State) : exec .rdpmc s = execRdpmc s := rfl
@[simp] theorem exec_rdtsc (s : State) : exec .rdtsc s = execRdtsc s := rfl
@[simp] theorem exec_rdtscp (s : State) : exec .rdtscp s = execRdtscp s := rfl
@[simp] theorem exec_rsm (s : State) : exec .rsm s = execRsm s := rfl
@[simp] theorem exec_saveprevssp (s : State) : exec .saveprevssp s = execSaveprevssp s := rfl
@[simp] theorem exec_setssbsy (s : State) : exec .setssbsy s = execSetssbsy s := rfl
@[simp] theorem exec_skinit (s : State) : exec .skinit s = execSkinit s := rfl
@[simp] theorem exec_stac (s : State) : exec .stac s = execStac s := rfl
@[simp] theorem exec_sti (s : State) : exec .sti s = execSti s := rfl
@[simp] theorem exec_stgi (s : State) : exec .stgi s = execStgi s := rfl
@[simp] theorem exec_swapgs (s : State) : exec .swapgs s = execSwapgs s := rfl
@[simp] theorem exec_syscall (s : State) : exec .syscall s = execSyscall s := rfl
@[simp] theorem exec_sysenter (s : State) : exec .sysenter s = execSysenter s := rfl
@[simp] theorem exec_sysexit (s : State) : exec .sysexit s = execSysexit s := rfl
@[simp] theorem exec_tlbsync (s : State) : exec .tlbsync s = execTlbsync s := rfl
@[simp] theorem exec_vmmcall (s : State) : exec .vmmcall s = execVmmcall s := rfl
@[simp] theorem exec_vmgexit (s : State) : exec .vmgexit s = execVmgexit s := rfl
@[simp] theorem exec_wbinvd (s : State) : exec .wbinvd s = execWbinvd s := rfl
@[simp] theorem exec_wbnoinvd (s : State) : exec .wbnoinvd s = execWbnoinvd s := rfl
@[simp] theorem exec_wrmsr (s : State) : exec .wrmsr s = execWrmsr s := rfl
@[simp] theorem exec_wrpkru (s : State) : exec .wrpkru s = execWrpkru s := rfl
@[simp] theorem exec_prefixOpSize (s : State) : exec .prefixOpSize s = execPrefixOpSize s := rfl
@[simp] theorem exec_prefixAddrSize (s : State) : exec .prefixAddrSize s = execPrefixAddrSize s := rfl
@[simp] theorem exec_prefixCs (s : State) : exec .prefixCs s = execPrefixCs s := rfl
@[simp] theorem exec_prefixDs (s : State) : exec .prefixDs s = execPrefixDs s := rfl
@[simp] theorem exec_prefixEs (s : State) : exec .prefixEs s = execPrefixEs s := rfl
@[simp] theorem exec_prefixFs (s : State) : exec .prefixFs s = execPrefixFs s := rfl
@[simp] theorem exec_prefixGs (s : State) : exec .prefixGs s = execPrefixGs s := rfl
@[simp] theorem exec_prefixSs (s : State) : exec .prefixSs s = execPrefixSs s := rfl
@[simp] theorem exec_prefixLock (s : State) : exec .prefixLock s = execPrefixLock s := rfl
@[simp] theorem exec_prefixRep (s : State) : exec .prefixRep s = execPrefixRep s := rfl
@[simp] theorem exec_prefixRepne (s : State) : exec .prefixRepne s = execPrefixRepne s := rfl
@[simp] theorem exec_prefixRex (s : State) : exec .prefixRex s = execPrefixRex s := rfl
@[simp] theorem exec_wait (s : State) : exec .wait s = execWait s := rfl
@[simp] theorem exec_int1 (s : State) : exec .int1 s = execInt1 s := rfl
@[simp] theorem exec_reservedD6 (s : State) : exec .reservedD6 s = execReservedD6 s := rfl

/-- A host without TF goes on after a #VMEXIT. -/
theorem resumeHost_next {w : State} (h : w.flags.tf = false) : w.resumeHost = .next w := by simp [State.resumeHost, h]

/-- A running host with TF set takes the single-step trap. -/
theorem resumeHost_trap {w : State} (h : w.flags.tf = true) (r : w.exec.activity = .running) : w.resumeHost = w.singleStep := by
  simp [State.resumeHost, h, r]

end Sys2Proof.Machine
end

