-- ==== Sys2Proof/Laws/Memory.lean ====
section
/-! SUPPORT. Laws of memory: a read after a write, what a write leaves alone, and that every operation keeps the canonical
form (20_memory.md R100). -/

namespace Sys2Proof.Machine

/-- A write leaves every other address alone, in any list. -/
theorem Memory.read_write_other (m : List Host.Cell) (a b : Nat) (v : Byte) (h : b ≠ a) :
    Memory.read (Memory.write m a v) b = Memory.read m b := by
  induction m with
  | nil =>
    simp only [Memory.write]
    split <;> simp [Memory.read, h]
  | cons c m ih =>
    obtain ⟨x, u⟩ := c
    simp only [Memory.write]
    split
    · split <;> simp [Memory.read, h]
    · split
      · rename_i hx
        subst hx
        split <;> simp [Memory.read, h]
      · simp only [Memory.read, ih]

/-- An address below every listed one reads as unlisted. -/
theorem Memory.read_below (m : List Host.Cell) (a : Nat) (h : ∀ c ∈ m, a < c.1) :
    Memory.read m a = Memory.unlisted := by
  induction m with
  | nil => rfl
  | cons c m ih =>
    obtain ⟨x, u⟩ := c
    have hx : a < x := h (x, u) (by simp)
    simp only [Memory.read, if_neg (by omega : ¬ a = x)]
    exact ih fun d hd => h d (by simp [hd])

/-- A read after a write to the same place gives the value written. -/
theorem Memory.read_write_same (m : List Host.Cell) (a : Nat) (v : Byte) (hm : Memory.wf m) :
    Memory.read (Memory.write m a v) a = v := by
  induction m with
  | nil =>
    simp only [Memory.write]
    split <;> simp_all [Memory.read]
  | cons c m ih =>
    obtain ⟨x, u⟩ := c
    obtain ⟨hp, hn⟩ := hm
    rw [List.pairwise_cons] at hp
    simp only [Memory.write]
    split
    · rename_i hlt
      split
      · rename_i hv
        rw [hv]
        exact Memory.read_below _ _ fun d hd => by
          rcases List.mem_cons.mp hd with rfl | hd
          · exact hlt
          · exact Nat.lt_trans hlt (hp.1 d hd)
      · simp [Memory.read]
    · split
      · rename_i hx
        subst hx
        split
        · rename_i hv
          rw [hv]
          exact Memory.read_below _ _ fun d hd => hp.1 d hd
        · simp [Memory.read]
      · rename_i hx
        simp only [Memory.read, if_neg hx]
        exact ih ⟨hp.2, fun d hd => hn d (by simp [hd])⟩

/-- The entries of a written memory are old ones or the new one. -/
theorem Memory.mem_write (m : List Host.Cell) (a : Nat) (v : Byte) (c : Host.Cell) (h : c ∈ Memory.write m a v) :
    c ∈ m ∨ (c = (a, v) ∧ v ≠ Memory.unlisted) := by
  induction m with
  | nil =>
    simp only [Memory.write] at h
    split at h <;> simp_all
  | cons d m ih =>
    obtain ⟨x, u⟩ := d
    simp only [Memory.write] at h
    split at h
    · split at h
      · exact .inl h
      · rename_i hv
        rcases List.mem_cons.mp h with rfl | h
        · exact .inr ⟨rfl, hv⟩
        · exact .inl h
    · split at h
      · split at h
        · exact .inl (by simp [h])
        · rename_i hv
          rcases List.mem_cons.mp h with rfl | h
          · exact .inr ⟨rfl, hv⟩
          · exact .inl (by simp [h])
      · rcases List.mem_cons.mp h with rfl | h
        · exact .inl (by simp)
        · rcases ih h with h | h
          · exact .inl (by simp [h])
          · exact .inr h

/-- A write keeps the canonical form. -/
theorem Memory.write_wf (m : List Host.Cell) (a : Nat) (v : Byte) (hm : Memory.wf m) :
    Memory.wf (Memory.write m a v) := by
  refine ⟨?_, fun c hc => ?_⟩
  · induction m with
    | nil =>
      simp only [Memory.write]
      split <;> simp
    | cons c m ih =>
      obtain ⟨x, u⟩ := c
      obtain ⟨hp, hn⟩ := hm
      have hp' := List.pairwise_cons.mp hp
      simp only [Memory.write]
      split
      · rename_i hlt
        split
        · exact hp
        · refine List.pairwise_cons.mpr ⟨fun d hd => ?_, hp⟩
          rcases List.mem_cons.mp hd with rfl | hd
          · exact hlt
          · exact Nat.lt_trans hlt (hp'.1 d hd)
      · split
        · rename_i hx
          subst hx
          split
          · exact hp'.2
          · exact List.pairwise_cons.mpr ⟨hp'.1, hp'.2⟩
        · rename_i hlt hx
          refine List.pairwise_cons.mpr ⟨fun d hd => ?_, ih ⟨hp'.2, fun d hd => hn d (by simp [hd])⟩⟩
          rcases Memory.mem_write m a v d hd with hd | ⟨rfl, -⟩
          · exact hp'.1 d hd
          · show x < a
            omega
  · rcases Memory.mem_write m a v c hc with hc | ⟨rfl, hv⟩
    · exact hm.2 c hc
    · exact hv

/-- A store keeps the canonical form. -/
theorem Memory.store_wf (m : List Host.Cell) (ps : List Nat) (v : Nat) (hm : Memory.wf m) :
    Memory.wf (Memory.store m ps v) := by
  induction ps generalizing m v with
  | nil => exact hm
  | cons a as ih => exact ih _ _ (Memory.write_wf m a _ hm)

/-- A store leaves every address outside its list alone. -/
theorem Memory.read_store_other (m : List Host.Cell) (ps : List Nat) (v b : Nat) (h : b ∉ ps) :
    Memory.read (Memory.store m ps v) b = Memory.read m b := by
  induction ps generalizing m v with
  | nil => rfl
  | cons a as ih =>
    simp only [List.mem_cons, not_or] at h
    simp only [Memory.store]
    rw [ih _ _ h.2, Memory.read_write_other _ _ _ _ h.1]

/-- Memory with nothing listed reads 0. -/
theorem Memory.load_nil (ps : List Nat) : Memory.load [] ps = 0 := by
  induction ps with
  | nil => rfl
  | cons p ps ih => rw [Memory.load, ih]; rfl

/-- A value read depends on the bytes read alone. -/
theorem Memory.load_congr (m k : List Host.Cell) (ps : List Nat) (h : ∀ p ∈ ps, Memory.read m p = Memory.read k p) :
    Memory.load m ps = Memory.load k ps := by
  induction ps with
  | nil => rfl
  | cons p ps ih =>
    rw [Memory.load, Memory.load, h p (by simp), ih fun q hq => h q (by simp [hq])]

/-- A load is not changed by a store outside its list. -/
theorem Memory.load_store_other (m : List Host.Cell) (ps qs : List Nat) (v : Nat) (h : ∀ q ∈ qs, q ∉ ps) :
    Memory.load (Memory.store m ps v) qs = Memory.load m qs := by
  induction qs with
  | nil => rfl
  | cons q qs ih =>
    simp only [Memory.load]
    rw [Memory.read_store_other _ _ _ _ (h q (by simp)), ih fun r hr => h r (by simp [hr])]

/-- A load after a store at the same distinct addresses gives the value stored, at the width of the list. -/
theorem Memory.load_store_same (m : List Host.Cell) (ps : List Nat) (v : Nat) (hm : Memory.wf m) (hd : ps.Nodup) :
    Memory.load (Memory.store m ps v) ps = v % 256 ^ ps.length := by
  induction ps generalizing m v with
  | nil => simp [Memory.load, Nat.mod_one]
  | cons a as ih =>
    have hd' := List.nodup_cons.mp hd
    simp only [Memory.store, Memory.load, List.length_cons]
    rw [Memory.read_store_other _ _ _ _ hd'.1, Memory.read_write_same _ _ _ hm,
      ih _ _ (Memory.write_wf m a _ hm) hd'.2]
    have h256 : 256 ^ (as.length + 1) = 256 * 256 ^ as.length := by rw [pow_succ, Nat.mul_comm]
    rw [h256, Nat.mod_mul, BitVec.toNat_ofNat]

/-- A loaded value fits the width of its list. -/
theorem Memory.load_lt (m : List Host.Cell) (ps : List Nat) : Memory.load m ps < 256 ^ ps.length := by
  induction ps with
  | nil => simp [Memory.load]
  | cons a as ih =>
    simp only [Memory.load, List.length_cons, pow_succ]
    have := (Memory.read m a).isLt
    omega

/-- Memory after reset has its canonical form. -/
theorem Memory.wf_nil : Memory.wf [] := ⟨.nil, fun _ h => nomatch h⟩

end Sys2Proof.Machine
end

