-- ==== Sys2Proof/Laws/State.lean ====
section
/-! SUPPORT. One lemma for each field of each update of the state, so that no proof unfolds a record update. -/

namespace Sys2Proof.Machine

@[simp] theorem State.setReg_gpr (s : State) (r : Gpr) (v : Quad) : (s.setReg r v).gpr = s.gpr.set r v := rfl
@[simp] theorem State.setReg_rip (s : State) (r : Gpr) (v : Quad) : (s.setReg r v).rip = s.rip := rfl
@[simp] theorem State.setReg_nextRip (s : State) (r : Gpr) (v : Quad) : (s.setReg r v).nextRip = s.nextRip := rfl
@[simp] theorem State.setReg_flags (s : State) (r : Gpr) (v : Quad) : (s.setReg r v).flags = s.flags := rfl
@[simp] theorem State.setReg_seg (s : State) (r : Gpr) (v : Quad) : (s.setReg r v).seg = s.seg := rfl
@[simp] theorem State.setReg_cpl (s : State) (r : Gpr) (v : Quad) : (s.setReg r v).cpl = s.cpl := rfl
@[simp] theorem State.setReg_gdtr (s : State) (r : Gpr) (v : Quad) : (s.setReg r v).gdtr = s.gdtr := rfl
@[simp] theorem State.setReg_idtr (s : State) (r : Gpr) (v : Quad) : (s.setReg r v).idtr = s.idtr := rfl
@[simp] theorem State.setReg_ldtr (s : State) (r : Gpr) (v : Quad) : (s.setReg r v).ldtr = s.ldtr := rfl
@[simp] theorem State.setReg_tr (s : State) (r : Gpr) (v : Quad) : (s.setReg r v).tr = s.tr := rfl
@[simp] theorem State.setReg_ctl (s : State) (r : Gpr) (v : Quad) : (s.setReg r v).ctl = s.ctl := rfl
@[simp] theorem State.setReg_dbg (s : State) (r : Gpr) (v : Quad) : (s.setReg r v).dbg = s.dbg := rfl
@[simp] theorem State.setReg_msr (s : State) (r : Gpr) (v : Quad) : (s.setReg r v).msr = s.msr := rfl
@[simp] theorem State.setReg_cet (s : State) (r : Gpr) (v : Quad) : (s.setReg r v).cet = s.cet := rfl
@[simp] theorem State.setReg_pkru (s : State) (r : Gpr) (v : Quad) : (s.setReg r v).pkru = s.pkru := rfl
@[simp] theorem State.setReg_xcr0 (s : State) (r : Gpr) (v : Quad) : (s.setReg r v).xcr0 = s.xcr0 := rfl
@[simp] theorem State.setReg_svm (s : State) (r : Gpr) (v : Quad) : (s.setReg r v).svm = s.svm := rfl
@[simp] theorem State.setReg_lwp (s : State) (r : Gpr) (v : Quad) : (s.setReg r v).lwp = s.lwp := rfl
@[simp] theorem State.setReg_exec (s : State) (r : Gpr) (v : Quad) : (s.setReg r v).exec = s.exec := rfl
@[simp] theorem State.setReg_media (s : State) (r : Gpr) (v : Quad) : (s.setReg r v).media = s.media := rfl
@[simp] theorem State.setReg_pins (s : State) (r : Gpr) (v : Quad) : (s.setReg r v).pins = s.pins := rfl
@[simp] theorem State.setReg_devices (s : State) (r : Gpr) (v : Quad) : (s.setReg r v).devices = s.devices := rfl
@[simp] theorem State.setReg_mem (s : State) (r : Gpr) (v : Quad) : (s.setReg r v).mem = s.mem := rfl
@[simp] theorem State.setReg_freeCount (s : State) (r : Gpr) (v : Quad) : (s.setReg r v).freeCount = s.freeCount := rfl
@[simp] theorem State.setReg_cfg (s : State) (r : Gpr) (v : Quad) : (s.setReg r v).cfg = s.cfg := rfl

@[simp] theorem State.setRsp_gpr (s : State) (v : Quad) : (s.setRsp v).gpr = s.gpr.set .rsp v := rfl
@[simp] theorem State.setRsp_rip (s : State) (v : Quad) : (s.setRsp v).rip = s.rip := rfl
@[simp] theorem State.setRsp_nextRip (s : State) (v : Quad) : (s.setRsp v).nextRip = s.nextRip := rfl
@[simp] theorem State.setRsp_flags (s : State) (v : Quad) : (s.setRsp v).flags = s.flags := rfl
@[simp] theorem State.setRsp_seg (s : State) (v : Quad) : (s.setRsp v).seg = s.seg := rfl
@[simp] theorem State.setRsp_cpl (s : State) (v : Quad) : (s.setRsp v).cpl = s.cpl := rfl
@[simp] theorem State.setRsp_gdtr (s : State) (v : Quad) : (s.setRsp v).gdtr = s.gdtr := rfl
@[simp] theorem State.setRsp_idtr (s : State) (v : Quad) : (s.setRsp v).idtr = s.idtr := rfl
@[simp] theorem State.setRsp_ldtr (s : State) (v : Quad) : (s.setRsp v).ldtr = s.ldtr := rfl
@[simp] theorem State.setRsp_tr (s : State) (v : Quad) : (s.setRsp v).tr = s.tr := rfl
@[simp] theorem State.setRsp_ctl (s : State) (v : Quad) : (s.setRsp v).ctl = s.ctl := rfl
@[simp] theorem State.setRsp_dbg (s : State) (v : Quad) : (s.setRsp v).dbg = s.dbg := rfl
@[simp] theorem State.setRsp_msr (s : State) (v : Quad) : (s.setRsp v).msr = s.msr := rfl
@[simp] theorem State.setRsp_cet (s : State) (v : Quad) : (s.setRsp v).cet = s.cet := rfl
@[simp] theorem State.setRsp_pkru (s : State) (v : Quad) : (s.setRsp v).pkru = s.pkru := rfl
@[simp] theorem State.setRsp_xcr0 (s : State) (v : Quad) : (s.setRsp v).xcr0 = s.xcr0 := rfl
@[simp] theorem State.setRsp_svm (s : State) (v : Quad) : (s.setRsp v).svm = s.svm := rfl
@[simp] theorem State.setRsp_lwp (s : State) (v : Quad) : (s.setRsp v).lwp = s.lwp := rfl
@[simp] theorem State.setRsp_exec (s : State) (v : Quad) : (s.setRsp v).exec = s.exec := rfl
@[simp] theorem State.setRsp_media (s : State) (v : Quad) : (s.setRsp v).media = s.media := rfl
@[simp] theorem State.setRsp_pins (s : State) (v : Quad) : (s.setRsp v).pins = s.pins := rfl
@[simp] theorem State.setRsp_devices (s : State) (v : Quad) : (s.setRsp v).devices = s.devices := rfl
@[simp] theorem State.setRsp_mem (s : State) (v : Quad) : (s.setRsp v).mem = s.mem := rfl
@[simp] theorem State.setRsp_freeCount (s : State) (v : Quad) : (s.setRsp v).freeCount = s.freeCount := rfl
@[simp] theorem State.setRsp_cfg (s : State) (v : Quad) : (s.setRsp v).cfg = s.cfg := rfl

@[simp] theorem State.writeGpr_gpr (s : State) (w : Width) (r : Gpr) (v : Quad) : (s.writeGpr w r v).gpr = s.gpr.set r (mergeReg w (s.reg r) v) := rfl
@[simp] theorem State.writeGpr_rip (s : State) (w : Width) (r : Gpr) (v : Quad) : (s.writeGpr w r v).rip = s.rip := rfl
@[simp] theorem State.writeGpr_nextRip (s : State) (w : Width) (r : Gpr) (v : Quad) : (s.writeGpr w r v).nextRip = s.nextRip := rfl
@[simp] theorem State.writeGpr_flags (s : State) (w : Width) (r : Gpr) (v : Quad) : (s.writeGpr w r v).flags = s.flags := rfl
@[simp] theorem State.writeGpr_seg (s : State) (w : Width) (r : Gpr) (v : Quad) : (s.writeGpr w r v).seg = s.seg := rfl
@[simp] theorem State.writeGpr_cpl (s : State) (w : Width) (r : Gpr) (v : Quad) : (s.writeGpr w r v).cpl = s.cpl := rfl
@[simp] theorem State.writeGpr_gdtr (s : State) (w : Width) (r : Gpr) (v : Quad) : (s.writeGpr w r v).gdtr = s.gdtr := rfl
@[simp] theorem State.writeGpr_idtr (s : State) (w : Width) (r : Gpr) (v : Quad) : (s.writeGpr w r v).idtr = s.idtr := rfl
@[simp] theorem State.writeGpr_ldtr (s : State) (w : Width) (r : Gpr) (v : Quad) : (s.writeGpr w r v).ldtr = s.ldtr := rfl
@[simp] theorem State.writeGpr_tr (s : State) (w : Width) (r : Gpr) (v : Quad) : (s.writeGpr w r v).tr = s.tr := rfl
@[simp] theorem State.writeGpr_ctl (s : State) (w : Width) (r : Gpr) (v : Quad) : (s.writeGpr w r v).ctl = s.ctl := rfl
@[simp] theorem State.writeGpr_dbg (s : State) (w : Width) (r : Gpr) (v : Quad) : (s.writeGpr w r v).dbg = s.dbg := rfl
@[simp] theorem State.writeGpr_msr (s : State) (w : Width) (r : Gpr) (v : Quad) : (s.writeGpr w r v).msr = s.msr := rfl
@[simp] theorem State.writeGpr_cet (s : State) (w : Width) (r : Gpr) (v : Quad) : (s.writeGpr w r v).cet = s.cet := rfl
@[simp] theorem State.writeGpr_pkru (s : State) (w : Width) (r : Gpr) (v : Quad) : (s.writeGpr w r v).pkru = s.pkru := rfl
@[simp] theorem State.writeGpr_xcr0 (s : State) (w : Width) (r : Gpr) (v : Quad) : (s.writeGpr w r v).xcr0 = s.xcr0 := rfl
@[simp] theorem State.writeGpr_svm (s : State) (w : Width) (r : Gpr) (v : Quad) : (s.writeGpr w r v).svm = s.svm := rfl
@[simp] theorem State.writeGpr_lwp (s : State) (w : Width) (r : Gpr) (v : Quad) : (s.writeGpr w r v).lwp = s.lwp := rfl
@[simp] theorem State.writeGpr_exec (s : State) (w : Width) (r : Gpr) (v : Quad) : (s.writeGpr w r v).exec = s.exec := rfl
@[simp] theorem State.writeGpr_media (s : State) (w : Width) (r : Gpr) (v : Quad) : (s.writeGpr w r v).media = s.media := rfl
@[simp] theorem State.writeGpr_pins (s : State) (w : Width) (r : Gpr) (v : Quad) : (s.writeGpr w r v).pins = s.pins := rfl
@[simp] theorem State.writeGpr_devices (s : State) (w : Width) (r : Gpr) (v : Quad) : (s.writeGpr w r v).devices = s.devices := rfl
@[simp] theorem State.writeGpr_mem (s : State) (w : Width) (r : Gpr) (v : Quad) : (s.writeGpr w r v).mem = s.mem := rfl
@[simp] theorem State.writeGpr_freeCount (s : State) (w : Width) (r : Gpr) (v : Quad) : (s.writeGpr w r v).freeCount = s.freeCount := rfl
@[simp] theorem State.writeGpr_cfg (s : State) (w : Width) (r : Gpr) (v : Quad) : (s.writeGpr w r v).cfg = s.cfg := rfl

@[simp] theorem State.setFlags_gpr (s : State) (f : Flags) : (s.setFlags f).gpr = s.gpr := rfl
@[simp] theorem State.setFlags_rip (s : State) (f : Flags) : (s.setFlags f).rip = s.rip := rfl
@[simp] theorem State.setFlags_nextRip (s : State) (f : Flags) : (s.setFlags f).nextRip = s.nextRip := rfl
@[simp] theorem State.setFlags_flags (s : State) (f : Flags) : (s.setFlags f).flags = f := rfl
@[simp] theorem State.setFlags_seg (s : State) (f : Flags) : (s.setFlags f).seg = s.seg := rfl
@[simp] theorem State.setFlags_cpl (s : State) (f : Flags) : (s.setFlags f).cpl = s.cpl := rfl
@[simp] theorem State.setFlags_gdtr (s : State) (f : Flags) : (s.setFlags f).gdtr = s.gdtr := rfl
@[simp] theorem State.setFlags_idtr (s : State) (f : Flags) : (s.setFlags f).idtr = s.idtr := rfl
@[simp] theorem State.setFlags_ldtr (s : State) (f : Flags) : (s.setFlags f).ldtr = s.ldtr := rfl
@[simp] theorem State.setFlags_tr (s : State) (f : Flags) : (s.setFlags f).tr = s.tr := rfl
@[simp] theorem State.setFlags_ctl (s : State) (f : Flags) : (s.setFlags f).ctl = s.ctl := rfl
@[simp] theorem State.setFlags_dbg (s : State) (f : Flags) : (s.setFlags f).dbg = s.dbg := rfl
@[simp] theorem State.setFlags_msr (s : State) (f : Flags) : (s.setFlags f).msr = s.msr := rfl
@[simp] theorem State.setFlags_cet (s : State) (f : Flags) : (s.setFlags f).cet = s.cet := rfl
@[simp] theorem State.setFlags_pkru (s : State) (f : Flags) : (s.setFlags f).pkru = s.pkru := rfl
@[simp] theorem State.setFlags_xcr0 (s : State) (f : Flags) : (s.setFlags f).xcr0 = s.xcr0 := rfl
@[simp] theorem State.setFlags_svm (s : State) (f : Flags) : (s.setFlags f).svm = s.svm := rfl
@[simp] theorem State.setFlags_lwp (s : State) (f : Flags) : (s.setFlags f).lwp = s.lwp := rfl
@[simp] theorem State.setFlags_exec (s : State) (f : Flags) : (s.setFlags f).exec = s.exec := rfl
@[simp] theorem State.setFlags_media (s : State) (f : Flags) : (s.setFlags f).media = s.media := rfl
@[simp] theorem State.setFlags_pins (s : State) (f : Flags) : (s.setFlags f).pins = s.pins := rfl
@[simp] theorem State.setFlags_devices (s : State) (f : Flags) : (s.setFlags f).devices = s.devices := rfl
@[simp] theorem State.setFlags_mem (s : State) (f : Flags) : (s.setFlags f).mem = s.mem := rfl
@[simp] theorem State.setFlags_freeCount (s : State) (f : Flags) : (s.setFlags f).freeCount = s.freeCount := rfl
@[simp] theorem State.setFlags_cfg (s : State) (f : Flags) : (s.setFlags f).cfg = s.cfg := rfl

@[simp] theorem State.setRip_gpr (s : State) (a : Quad) : (s.setRip a).gpr = s.gpr := rfl
@[simp] theorem State.setRip_rip (s : State) (a : Quad) : (s.setRip a).rip = a := rfl
@[simp] theorem State.setRip_nextRip (s : State) (a : Quad) : (s.setRip a).nextRip = s.nextRip := rfl
@[simp] theorem State.setRip_flags (s : State) (a : Quad) : (s.setRip a).flags = s.flags := rfl
@[simp] theorem State.setRip_seg (s : State) (a : Quad) : (s.setRip a).seg = s.seg := rfl
@[simp] theorem State.setRip_cpl (s : State) (a : Quad) : (s.setRip a).cpl = s.cpl := rfl
@[simp] theorem State.setRip_gdtr (s : State) (a : Quad) : (s.setRip a).gdtr = s.gdtr := rfl
@[simp] theorem State.setRip_idtr (s : State) (a : Quad) : (s.setRip a).idtr = s.idtr := rfl
@[simp] theorem State.setRip_ldtr (s : State) (a : Quad) : (s.setRip a).ldtr = s.ldtr := rfl
@[simp] theorem State.setRip_tr (s : State) (a : Quad) : (s.setRip a).tr = s.tr := rfl
@[simp] theorem State.setRip_ctl (s : State) (a : Quad) : (s.setRip a).ctl = s.ctl := rfl
@[simp] theorem State.setRip_dbg (s : State) (a : Quad) : (s.setRip a).dbg = s.dbg := rfl
@[simp] theorem State.setRip_msr (s : State) (a : Quad) : (s.setRip a).msr = s.msr := rfl
@[simp] theorem State.setRip_cet (s : State) (a : Quad) : (s.setRip a).cet = s.cet := rfl
@[simp] theorem State.setRip_pkru (s : State) (a : Quad) : (s.setRip a).pkru = s.pkru := rfl
@[simp] theorem State.setRip_xcr0 (s : State) (a : Quad) : (s.setRip a).xcr0 = s.xcr0 := rfl
@[simp] theorem State.setRip_svm (s : State) (a : Quad) : (s.setRip a).svm = s.svm := rfl
@[simp] theorem State.setRip_lwp (s : State) (a : Quad) : (s.setRip a).lwp = s.lwp := rfl
@[simp] theorem State.setRip_exec (s : State) (a : Quad) : (s.setRip a).exec = s.exec := rfl
@[simp] theorem State.setRip_media (s : State) (a : Quad) : (s.setRip a).media = s.media := rfl
@[simp] theorem State.setRip_pins (s : State) (a : Quad) : (s.setRip a).pins = s.pins := rfl
@[simp] theorem State.setRip_devices (s : State) (a : Quad) : (s.setRip a).devices = s.devices := rfl
@[simp] theorem State.setRip_mem (s : State) (a : Quad) : (s.setRip a).mem = s.mem := rfl
@[simp] theorem State.setRip_freeCount (s : State) (a : Quad) : (s.setRip a).freeCount = s.freeCount := rfl
@[simp] theorem State.setRip_cfg (s : State) (a : Quad) : (s.setRip a).cfg = s.cfg := rfl

@[simp] theorem State.setSsp_gpr (s : State) (v : Quad) : (s.setSsp v).gpr = s.gpr := rfl
@[simp] theorem State.setSsp_rip (s : State) (v : Quad) : (s.setSsp v).rip = s.rip := rfl
@[simp] theorem State.setSsp_nextRip (s : State) (v : Quad) : (s.setSsp v).nextRip = s.nextRip := rfl
@[simp] theorem State.setSsp_flags (s : State) (v : Quad) : (s.setSsp v).flags = s.flags := rfl
@[simp] theorem State.setSsp_seg (s : State) (v : Quad) : (s.setSsp v).seg = s.seg := rfl
@[simp] theorem State.setSsp_cpl (s : State) (v : Quad) : (s.setSsp v).cpl = s.cpl := rfl
@[simp] theorem State.setSsp_gdtr (s : State) (v : Quad) : (s.setSsp v).gdtr = s.gdtr := rfl
@[simp] theorem State.setSsp_idtr (s : State) (v : Quad) : (s.setSsp v).idtr = s.idtr := rfl
@[simp] theorem State.setSsp_ldtr (s : State) (v : Quad) : (s.setSsp v).ldtr = s.ldtr := rfl
@[simp] theorem State.setSsp_tr (s : State) (v : Quad) : (s.setSsp v).tr = s.tr := rfl
@[simp] theorem State.setSsp_ctl (s : State) (v : Quad) : (s.setSsp v).ctl = s.ctl := rfl
@[simp] theorem State.setSsp_dbg (s : State) (v : Quad) : (s.setSsp v).dbg = s.dbg := rfl
@[simp] theorem State.setSsp_msr (s : State) (v : Quad) : (s.setSsp v).msr = s.msr := rfl
@[simp] theorem State.setSsp_cet (s : State) (v : Quad) : (s.setSsp v).cet = { s.cet with ssp := v } := rfl
@[simp] theorem State.setSsp_pkru (s : State) (v : Quad) : (s.setSsp v).pkru = s.pkru := rfl
@[simp] theorem State.setSsp_xcr0 (s : State) (v : Quad) : (s.setSsp v).xcr0 = s.xcr0 := rfl
@[simp] theorem State.setSsp_svm (s : State) (v : Quad) : (s.setSsp v).svm = s.svm := rfl
@[simp] theorem State.setSsp_lwp (s : State) (v : Quad) : (s.setSsp v).lwp = s.lwp := rfl
@[simp] theorem State.setSsp_exec (s : State) (v : Quad) : (s.setSsp v).exec = s.exec := rfl
@[simp] theorem State.setSsp_media (s : State) (v : Quad) : (s.setSsp v).media = s.media := rfl
@[simp] theorem State.setSsp_pins (s : State) (v : Quad) : (s.setSsp v).pins = s.pins := rfl
@[simp] theorem State.setSsp_devices (s : State) (v : Quad) : (s.setSsp v).devices = s.devices := rfl
@[simp] theorem State.setSsp_mem (s : State) (v : Quad) : (s.setSsp v).mem = s.mem := rfl
@[simp] theorem State.setSsp_freeCount (s : State) (v : Quad) : (s.setSsp v).freeCount = s.freeCount := rfl
@[simp] theorem State.setSsp_cfg (s : State) (v : Quad) : (s.setSsp v).cfg = s.cfg := rfl

@[simp] theorem State.setSreg_gpr (s : State) (n : SegName) (r : SegReg) : (s.setSreg n r).gpr = s.gpr := rfl
@[simp] theorem State.setSreg_rip (s : State) (n : SegName) (r : SegReg) : (s.setSreg n r).rip = s.rip := rfl
@[simp] theorem State.setSreg_nextRip (s : State) (n : SegName) (r : SegReg) : (s.setSreg n r).nextRip = s.nextRip := rfl
@[simp] theorem State.setSreg_flags (s : State) (n : SegName) (r : SegReg) : (s.setSreg n r).flags = s.flags := rfl
@[simp] theorem State.setSreg_seg (s : State) (n : SegName) (r : SegReg) : (s.setSreg n r).seg = s.seg.set n r := rfl
@[simp] theorem State.setSreg_cpl (s : State) (n : SegName) (r : SegReg) : (s.setSreg n r).cpl = s.cpl := rfl
@[simp] theorem State.setSreg_gdtr (s : State) (n : SegName) (r : SegReg) : (s.setSreg n r).gdtr = s.gdtr := rfl
@[simp] theorem State.setSreg_idtr (s : State) (n : SegName) (r : SegReg) : (s.setSreg n r).idtr = s.idtr := rfl
@[simp] theorem State.setSreg_ldtr (s : State) (n : SegName) (r : SegReg) : (s.setSreg n r).ldtr = s.ldtr := rfl
@[simp] theorem State.setSreg_tr (s : State) (n : SegName) (r : SegReg) : (s.setSreg n r).tr = s.tr := rfl
@[simp] theorem State.setSreg_ctl (s : State) (n : SegName) (r : SegReg) : (s.setSreg n r).ctl = s.ctl := rfl
@[simp] theorem State.setSreg_dbg (s : State) (n : SegName) (r : SegReg) : (s.setSreg n r).dbg = s.dbg := rfl
@[simp] theorem State.setSreg_msr (s : State) (n : SegName) (r : SegReg) : (s.setSreg n r).msr = s.msr := rfl
@[simp] theorem State.setSreg_cet (s : State) (n : SegName) (r : SegReg) : (s.setSreg n r).cet = s.cet := rfl
@[simp] theorem State.setSreg_pkru (s : State) (n : SegName) (r : SegReg) : (s.setSreg n r).pkru = s.pkru := rfl
@[simp] theorem State.setSreg_xcr0 (s : State) (n : SegName) (r : SegReg) : (s.setSreg n r).xcr0 = s.xcr0 := rfl
@[simp] theorem State.setSreg_svm (s : State) (n : SegName) (r : SegReg) : (s.setSreg n r).svm = s.svm := rfl
@[simp] theorem State.setSreg_lwp (s : State) (n : SegName) (r : SegReg) : (s.setSreg n r).lwp = s.lwp := rfl
@[simp] theorem State.setSreg_exec (s : State) (n : SegName) (r : SegReg) : (s.setSreg n r).exec = s.exec := rfl
@[simp] theorem State.setSreg_media (s : State) (n : SegName) (r : SegReg) : (s.setSreg n r).media = s.media := rfl
@[simp] theorem State.setSreg_pins (s : State) (n : SegName) (r : SegReg) : (s.setSreg n r).pins = s.pins := rfl
@[simp] theorem State.setSreg_devices (s : State) (n : SegName) (r : SegReg) : (s.setSreg n r).devices = s.devices := rfl
@[simp] theorem State.setSreg_mem (s : State) (n : SegName) (r : SegReg) : (s.setSreg n r).mem = s.mem := rfl
@[simp] theorem State.setSreg_freeCount (s : State) (n : SegName) (r : SegReg) : (s.setSreg n r).freeCount = s.freeCount := rfl
@[simp] theorem State.setSreg_cfg (s : State) (n : SegName) (r : SegReg) : (s.setSreg n r).cfg = s.cfg := rfl

@[simp] theorem State.storeAt_gpr (s : State) (ps : List Nat) (v : Nat) : (s.storeAt ps v).gpr = s.gpr := rfl
@[simp] theorem State.storeAt_rip (s : State) (ps : List Nat) (v : Nat) : (s.storeAt ps v).rip = s.rip := rfl
@[simp] theorem State.storeAt_nextRip (s : State) (ps : List Nat) (v : Nat) : (s.storeAt ps v).nextRip = s.nextRip := rfl
@[simp] theorem State.storeAt_flags (s : State) (ps : List Nat) (v : Nat) : (s.storeAt ps v).flags = s.flags := rfl
@[simp] theorem State.storeAt_seg (s : State) (ps : List Nat) (v : Nat) : (s.storeAt ps v).seg = s.seg := rfl
@[simp] theorem State.storeAt_cpl (s : State) (ps : List Nat) (v : Nat) : (s.storeAt ps v).cpl = s.cpl := rfl
@[simp] theorem State.storeAt_gdtr (s : State) (ps : List Nat) (v : Nat) : (s.storeAt ps v).gdtr = s.gdtr := rfl
@[simp] theorem State.storeAt_idtr (s : State) (ps : List Nat) (v : Nat) : (s.storeAt ps v).idtr = s.idtr := rfl
@[simp] theorem State.storeAt_ldtr (s : State) (ps : List Nat) (v : Nat) : (s.storeAt ps v).ldtr = s.ldtr := rfl
@[simp] theorem State.storeAt_tr (s : State) (ps : List Nat) (v : Nat) : (s.storeAt ps v).tr = s.tr := rfl
@[simp] theorem State.storeAt_ctl (s : State) (ps : List Nat) (v : Nat) : (s.storeAt ps v).ctl = s.ctl := rfl
@[simp] theorem State.storeAt_dbg (s : State) (ps : List Nat) (v : Nat) : (s.storeAt ps v).dbg = s.dbg := rfl
@[simp] theorem State.storeAt_msr (s : State) (ps : List Nat) (v : Nat) : (s.storeAt ps v).msr = s.msr := rfl
@[simp] theorem State.storeAt_cet (s : State) (ps : List Nat) (v : Nat) : (s.storeAt ps v).cet = s.cet := rfl
@[simp] theorem State.storeAt_pkru (s : State) (ps : List Nat) (v : Nat) : (s.storeAt ps v).pkru = s.pkru := rfl
@[simp] theorem State.storeAt_xcr0 (s : State) (ps : List Nat) (v : Nat) : (s.storeAt ps v).xcr0 = s.xcr0 := rfl
@[simp] theorem State.storeAt_svm (s : State) (ps : List Nat) (v : Nat) : (s.storeAt ps v).svm = s.svm := rfl
@[simp] theorem State.storeAt_lwp (s : State) (ps : List Nat) (v : Nat) : (s.storeAt ps v).lwp = s.lwp := rfl
@[simp] theorem State.storeAt_exec (s : State) (ps : List Nat) (v : Nat) : (s.storeAt ps v).exec = s.exec := rfl
@[simp] theorem State.storeAt_media (s : State) (ps : List Nat) (v : Nat) : (s.storeAt ps v).media = s.media := rfl
@[simp] theorem State.storeAt_pins (s : State) (ps : List Nat) (v : Nat) : (s.storeAt ps v).pins = s.pins := rfl
@[simp] theorem State.storeAt_devices (s : State) (ps : List Nat) (v : Nat) : (s.storeAt ps v).devices = s.devices := rfl
@[simp] theorem State.storeAt_mem (s : State) (ps : List Nat) (v : Nat) : (s.storeAt ps v).mem = Memory.store s.mem ps v := rfl
@[simp] theorem State.storeAt_freeCount (s : State) (ps : List Nat) (v : Nat) : (s.storeAt ps v).freeCount = s.freeCount := rfl
@[simp] theorem State.storeAt_cfg (s : State) (ps : List Nat) (v : Nat) : (s.storeAt ps v).cfg = s.cfg := rfl

@[simp] theorem State.disarm_gpr (s : State) : (s.disarm).gpr = s.gpr := rfl
@[simp] theorem State.disarm_rip (s : State) : (s.disarm).rip = s.rip := rfl
@[simp] theorem State.disarm_nextRip (s : State) : (s.disarm).nextRip = s.nextRip := rfl
@[simp] theorem State.disarm_flags (s : State) : (s.disarm).flags = s.flags := rfl
@[simp] theorem State.disarm_seg (s : State) : (s.disarm).seg = s.seg := rfl
@[simp] theorem State.disarm_cpl (s : State) : (s.disarm).cpl = s.cpl := rfl
@[simp] theorem State.disarm_gdtr (s : State) : (s.disarm).gdtr = s.gdtr := rfl
@[simp] theorem State.disarm_idtr (s : State) : (s.disarm).idtr = s.idtr := rfl
@[simp] theorem State.disarm_ldtr (s : State) : (s.disarm).ldtr = s.ldtr := rfl
@[simp] theorem State.disarm_tr (s : State) : (s.disarm).tr = s.tr := rfl
@[simp] theorem State.disarm_ctl (s : State) : (s.disarm).ctl = s.ctl := rfl
@[simp] theorem State.disarm_dbg (s : State) : (s.disarm).dbg = s.dbg := rfl
@[simp] theorem State.disarm_msr (s : State) : (s.disarm).msr = s.msr := rfl
@[simp] theorem State.disarm_cet (s : State) : (s.disarm).cet = s.cet := rfl
@[simp] theorem State.disarm_pkru (s : State) : (s.disarm).pkru = s.pkru := rfl
@[simp] theorem State.disarm_xcr0 (s : State) : (s.disarm).xcr0 = s.xcr0 := rfl
@[simp] theorem State.disarm_svm (s : State) : (s.disarm).svm = s.svm := rfl
@[simp] theorem State.disarm_lwp (s : State) : (s.disarm).lwp = s.lwp := rfl
@[simp] theorem State.disarm_exec (s : State) : (s.disarm).exec = { s.exec with monitor := { s.exec.monitor with armed := false } } := rfl
@[simp] theorem State.disarm_media (s : State) : (s.disarm).media = s.media := rfl
@[simp] theorem State.disarm_pins (s : State) : (s.disarm).pins = s.pins := rfl
@[simp] theorem State.disarm_devices (s : State) : (s.disarm).devices = s.devices := rfl
@[simp] theorem State.disarm_mem (s : State) : (s.disarm).mem = s.mem := rfl
@[simp] theorem State.disarm_freeCount (s : State) : (s.disarm).freeCount = s.freeCount := rfl
@[simp] theorem State.disarm_cfg (s : State) : (s.disarm).cfg = s.cfg := rfl

@[simp] theorem State.shutdown_gpr (s : State) : (s.shutdown).gpr = s.gpr := rfl
@[simp] theorem State.shutdown_rip (s : State) : (s.shutdown).rip = s.rip := rfl
@[simp] theorem State.shutdown_nextRip (s : State) : (s.shutdown).nextRip = s.nextRip := rfl
@[simp] theorem State.shutdown_flags (s : State) : (s.shutdown).flags = s.flags := rfl
@[simp] theorem State.shutdown_seg (s : State) : (s.shutdown).seg = s.seg := rfl
@[simp] theorem State.shutdown_cpl (s : State) : (s.shutdown).cpl = s.cpl := rfl
@[simp] theorem State.shutdown_gdtr (s : State) : (s.shutdown).gdtr = s.gdtr := rfl
@[simp] theorem State.shutdown_idtr (s : State) : (s.shutdown).idtr = s.idtr := rfl
@[simp] theorem State.shutdown_ldtr (s : State) : (s.shutdown).ldtr = s.ldtr := rfl
@[simp] theorem State.shutdown_tr (s : State) : (s.shutdown).tr = s.tr := rfl
@[simp] theorem State.shutdown_ctl (s : State) : (s.shutdown).ctl = s.ctl := rfl
@[simp] theorem State.shutdown_dbg (s : State) : (s.shutdown).dbg = s.dbg := rfl
@[simp] theorem State.shutdown_msr (s : State) : (s.shutdown).msr = s.msr := rfl
@[simp] theorem State.shutdown_cet (s : State) : (s.shutdown).cet = s.cet := rfl
@[simp] theorem State.shutdown_pkru (s : State) : (s.shutdown).pkru = s.pkru := rfl
@[simp] theorem State.shutdown_xcr0 (s : State) : (s.shutdown).xcr0 = s.xcr0 := rfl
@[simp] theorem State.shutdown_svm (s : State) : (s.shutdown).svm = s.svm := rfl
@[simp] theorem State.shutdown_lwp (s : State) : (s.shutdown).lwp = s.lwp := rfl
@[simp] theorem State.shutdown_exec (s : State) : (s.shutdown).exec = { s.exec with activity := .shutdown } := rfl
@[simp] theorem State.shutdown_media (s : State) : (s.shutdown).media = s.media := rfl
@[simp] theorem State.shutdown_pins (s : State) : (s.shutdown).pins = s.pins := rfl
@[simp] theorem State.shutdown_devices (s : State) : (s.shutdown).devices = s.devices := rfl
@[simp] theorem State.shutdown_mem (s : State) : (s.shutdown).mem = s.mem := rfl
@[simp] theorem State.shutdown_freeCount (s : State) : (s.shutdown).freeCount = s.freeCount := rfl
@[simp] theorem State.shutdown_cfg (s : State) : (s.shutdown).cfg = s.cfg := rfl

@[simp] theorem State.start_gpr (s : State) : (s.start).gpr = s.gpr := rfl
@[simp] theorem State.start_rip (s : State) : (s.start).rip = s.nextRip := rfl
@[simp] theorem State.start_nextRip (s : State) : (s.start).nextRip = s.nextRip := rfl
@[simp] theorem State.start_flags (s : State) : (s.start).flags = { s.flags with rf := false } := rfl
@[simp] theorem State.start_seg (s : State) : (s.start).seg = s.seg := rfl
@[simp] theorem State.start_cpl (s : State) : (s.start).cpl = s.cpl := rfl
@[simp] theorem State.start_gdtr (s : State) : (s.start).gdtr = s.gdtr := rfl
@[simp] theorem State.start_idtr (s : State) : (s.start).idtr = s.idtr := rfl
@[simp] theorem State.start_ldtr (s : State) : (s.start).ldtr = s.ldtr := rfl
@[simp] theorem State.start_tr (s : State) : (s.start).tr = s.tr := rfl
@[simp] theorem State.start_ctl (s : State) : (s.start).ctl = s.ctl := rfl
@[simp] theorem State.start_dbg (s : State) : (s.start).dbg = s.dbg := rfl
@[simp] theorem State.start_msr (s : State) : (s.start).msr = s.msr := rfl
@[simp] theorem State.start_cet (s : State) : (s.start).cet = s.cet := rfl
@[simp] theorem State.start_pkru (s : State) : (s.start).pkru = s.pkru := rfl
@[simp] theorem State.start_xcr0 (s : State) : (s.start).xcr0 = s.xcr0 := rfl
@[simp] theorem State.start_svm (s : State) : (s.start).svm = s.svm := rfl
@[simp] theorem State.start_lwp (s : State) : (s.start).lwp = s.lwp := rfl
@[simp] theorem State.start_exec (s : State) : (s.start).exec = { s.exec with shadow := .none, latch := [] } := rfl
@[simp] theorem State.start_media (s : State) : (s.start).media = s.media := rfl
@[simp] theorem State.start_pins (s : State) : (s.start).pins = s.pins := rfl
@[simp] theorem State.start_devices (s : State) : (s.start).devices = s.devices := rfl
@[simp] theorem State.start_mem (s : State) : (s.start).mem = s.mem := rfl
@[simp] theorem State.start_freeCount (s : State) : (s.start).freeCount = s.freeCount := rfl
@[simp] theorem State.start_cfg (s : State) : (s.start).cfg = s.cfg := rfl

@[simp] theorem State.withNext_gpr (s : State) (n : Nat) : (s.withNext n).gpr = s.gpr := rfl
@[simp] theorem State.withNext_rip (s : State) (n : Nat) : (s.withNext n).rip = s.rip := rfl
@[simp] theorem State.withNext_nextRip (s : State) (n : Nat) : (s.withNext n).nextRip = s.afterLen n := rfl
@[simp] theorem State.withNext_flags (s : State) (n : Nat) : (s.withNext n).flags = s.flags := rfl
@[simp] theorem State.withNext_seg (s : State) (n : Nat) : (s.withNext n).seg = s.seg := rfl
@[simp] theorem State.withNext_cpl (s : State) (n : Nat) : (s.withNext n).cpl = s.cpl := rfl
@[simp] theorem State.withNext_gdtr (s : State) (n : Nat) : (s.withNext n).gdtr = s.gdtr := rfl
@[simp] theorem State.withNext_idtr (s : State) (n : Nat) : (s.withNext n).idtr = s.idtr := rfl
@[simp] theorem State.withNext_ldtr (s : State) (n : Nat) : (s.withNext n).ldtr = s.ldtr := rfl
@[simp] theorem State.withNext_tr (s : State) (n : Nat) : (s.withNext n).tr = s.tr := rfl
@[simp] theorem State.withNext_ctl (s : State) (n : Nat) : (s.withNext n).ctl = s.ctl := rfl
@[simp] theorem State.withNext_dbg (s : State) (n : Nat) : (s.withNext n).dbg = s.dbg := rfl
@[simp] theorem State.withNext_msr (s : State) (n : Nat) : (s.withNext n).msr = s.msr := rfl
@[simp] theorem State.withNext_cet (s : State) (n : Nat) : (s.withNext n).cet = s.cet := rfl
@[simp] theorem State.withNext_pkru (s : State) (n : Nat) : (s.withNext n).pkru = s.pkru := rfl
@[simp] theorem State.withNext_xcr0 (s : State) (n : Nat) : (s.withNext n).xcr0 = s.xcr0 := rfl
@[simp] theorem State.withNext_svm (s : State) (n : Nat) : (s.withNext n).svm = s.svm := rfl
@[simp] theorem State.withNext_lwp (s : State) (n : Nat) : (s.withNext n).lwp = s.lwp := rfl
@[simp] theorem State.withNext_exec (s : State) (n : Nat) : (s.withNext n).exec = { s.exec with latch := s.codeBytes.1.take n } := rfl
@[simp] theorem State.withNext_media (s : State) (n : Nat) : (s.withNext n).media = s.media := rfl
@[simp] theorem State.withNext_pins (s : State) (n : Nat) : (s.withNext n).pins = s.pins := rfl
@[simp] theorem State.withNext_devices (s : State) (n : Nat) : (s.withNext n).devices = s.devices := rfl
@[simp] theorem State.withNext_mem (s : State) (n : Nat) : (s.withNext n).mem = s.mem := rfl
@[simp] theorem State.withNext_freeCount (s : State) (n : Nat) : (s.withNext n).freeCount = s.freeCount := rfl
@[simp] theorem State.withNext_cfg (s : State) (n : Nat) : (s.withNext n).cfg = s.cfg := rfl

@[simp] theorem State.loadCsReal_gpr (s : State) (sel : BitVec 16) : (s.loadCsReal sel).gpr = s.gpr := rfl
@[simp] theorem State.loadCsReal_rip (s : State) (sel : BitVec 16) : (s.loadCsReal sel).rip = s.rip := rfl
@[simp] theorem State.loadCsReal_nextRip (s : State) (sel : BitVec 16) : (s.loadCsReal sel).nextRip = s.nextRip := rfl
@[simp] theorem State.loadCsReal_flags (s : State) (sel : BitVec 16) : (s.loadCsReal sel).flags = s.flags := rfl
@[simp] theorem State.loadCsReal_seg (s : State) (sel : BitVec 16) : (s.loadCsReal sel).seg = { s.seg with cs := s.seg.cs.loadReal sel } := rfl
@[simp] theorem State.loadCsReal_cpl (s : State) (sel : BitVec 16) : (s.loadCsReal sel).cpl = s.cpl := rfl
@[simp] theorem State.loadCsReal_gdtr (s : State) (sel : BitVec 16) : (s.loadCsReal sel).gdtr = s.gdtr := rfl
@[simp] theorem State.loadCsReal_idtr (s : State) (sel : BitVec 16) : (s.loadCsReal sel).idtr = s.idtr := rfl
@[simp] theorem State.loadCsReal_ldtr (s : State) (sel : BitVec 16) : (s.loadCsReal sel).ldtr = s.ldtr := rfl
@[simp] theorem State.loadCsReal_tr (s : State) (sel : BitVec 16) : (s.loadCsReal sel).tr = s.tr := rfl
@[simp] theorem State.loadCsReal_ctl (s : State) (sel : BitVec 16) : (s.loadCsReal sel).ctl = s.ctl := rfl
@[simp] theorem State.loadCsReal_dbg (s : State) (sel : BitVec 16) : (s.loadCsReal sel).dbg = s.dbg := rfl
@[simp] theorem State.loadCsReal_msr (s : State) (sel : BitVec 16) : (s.loadCsReal sel).msr = s.msr := rfl
@[simp] theorem State.loadCsReal_cet (s : State) (sel : BitVec 16) : (s.loadCsReal sel).cet = s.cet := rfl
@[simp] theorem State.loadCsReal_pkru (s : State) (sel : BitVec 16) : (s.loadCsReal sel).pkru = s.pkru := rfl
@[simp] theorem State.loadCsReal_xcr0 (s : State) (sel : BitVec 16) : (s.loadCsReal sel).xcr0 = s.xcr0 := rfl
@[simp] theorem State.loadCsReal_svm (s : State) (sel : BitVec 16) : (s.loadCsReal sel).svm = s.svm := rfl
@[simp] theorem State.loadCsReal_lwp (s : State) (sel : BitVec 16) : (s.loadCsReal sel).lwp = s.lwp := rfl
@[simp] theorem State.loadCsReal_exec (s : State) (sel : BitVec 16) : (s.loadCsReal sel).exec = { s.exec with monitor := { s.exec.monitor with armed := false } } := rfl
@[simp] theorem State.loadCsReal_media (s : State) (sel : BitVec 16) : (s.loadCsReal sel).media = s.media := rfl
@[simp] theorem State.loadCsReal_pins (s : State) (sel : BitVec 16) : (s.loadCsReal sel).pins = s.pins := rfl
@[simp] theorem State.loadCsReal_devices (s : State) (sel : BitVec 16) : (s.loadCsReal sel).devices = s.devices := rfl
@[simp] theorem State.loadCsReal_mem (s : State) (sel : BitVec 16) : (s.loadCsReal sel).mem = s.mem := rfl
@[simp] theorem State.loadCsReal_freeCount (s : State) (sel : BitVec 16) : (s.loadCsReal sel).freeCount = s.freeCount := rfl
@[simp] theorem State.loadCsReal_cfg (s : State) (sel : BitVec 16) : (s.loadCsReal sel).cfg = s.cfg := rfl

@[simp] theorem State.setLwpcb_gpr (s : State) (a : Quad) : (s.setLwpcb a).gpr = s.gpr := rfl
@[simp] theorem State.setLwpcb_rip (s : State) (a : Quad) : (s.setLwpcb a).rip = s.rip := rfl
@[simp] theorem State.setLwpcb_nextRip (s : State) (a : Quad) : (s.setLwpcb a).nextRip = s.nextRip := rfl
@[simp] theorem State.setLwpcb_flags (s : State) (a : Quad) : (s.setLwpcb a).flags = s.flags := rfl
@[simp] theorem State.setLwpcb_seg (s : State) (a : Quad) : (s.setLwpcb a).seg = s.seg := rfl
@[simp] theorem State.setLwpcb_cpl (s : State) (a : Quad) : (s.setLwpcb a).cpl = s.cpl := rfl
@[simp] theorem State.setLwpcb_gdtr (s : State) (a : Quad) : (s.setLwpcb a).gdtr = s.gdtr := rfl
@[simp] theorem State.setLwpcb_idtr (s : State) (a : Quad) : (s.setLwpcb a).idtr = s.idtr := rfl
@[simp] theorem State.setLwpcb_ldtr (s : State) (a : Quad) : (s.setLwpcb a).ldtr = s.ldtr := rfl
@[simp] theorem State.setLwpcb_tr (s : State) (a : Quad) : (s.setLwpcb a).tr = s.tr := rfl
@[simp] theorem State.setLwpcb_ctl (s : State) (a : Quad) : (s.setLwpcb a).ctl = s.ctl := rfl
@[simp] theorem State.setLwpcb_dbg (s : State) (a : Quad) : (s.setLwpcb a).dbg = s.dbg := rfl
@[simp] theorem State.setLwpcb_msr (s : State) (a : Quad) : (s.setLwpcb a).msr = s.msr := rfl
@[simp] theorem State.setLwpcb_cet (s : State) (a : Quad) : (s.setLwpcb a).cet = s.cet := rfl
@[simp] theorem State.setLwpcb_pkru (s : State) (a : Quad) : (s.setLwpcb a).pkru = s.pkru := rfl
@[simp] theorem State.setLwpcb_xcr0 (s : State) (a : Quad) : (s.setLwpcb a).xcr0 = s.xcr0 := rfl
@[simp] theorem State.setLwpcb_svm (s : State) (a : Quad) : (s.setLwpcb a).svm = s.svm := rfl
@[simp] theorem State.setLwpcb_lwp (s : State) (a : Quad) : (s.setLwpcb a).lwp = { s.lwp with cbAddr := a } := rfl
@[simp] theorem State.setLwpcb_exec (s : State) (a : Quad) : (s.setLwpcb a).exec = s.exec := rfl
@[simp] theorem State.setLwpcb_media (s : State) (a : Quad) : (s.setLwpcb a).media = s.media := rfl
@[simp] theorem State.setLwpcb_pins (s : State) (a : Quad) : (s.setLwpcb a).pins = s.pins := rfl
@[simp] theorem State.setLwpcb_devices (s : State) (a : Quad) : (s.setLwpcb a).devices = s.devices := rfl
@[simp] theorem State.setLwpcb_mem (s : State) (a : Quad) : (s.setLwpcb a).mem = s.mem := rfl
@[simp] theorem State.setLwpcb_freeCount (s : State) (a : Quad) : (s.setLwpcb a).freeCount = s.freeCount := rfl
@[simp] theorem State.setLwpcb_cfg (s : State) (a : Quad) : (s.setLwpcb a).cfg = s.cfg := rfl

@[simp] theorem State.setLwpInternal_gpr (s : State) (i : Config.LwpInternal) : (s.setLwpInternal i).gpr = s.gpr := rfl
@[simp] theorem State.setLwpInternal_rip (s : State) (i : Config.LwpInternal) : (s.setLwpInternal i).rip = s.rip := rfl
@[simp] theorem State.setLwpInternal_nextRip (s : State) (i : Config.LwpInternal) : (s.setLwpInternal i).nextRip = s.nextRip := rfl
@[simp] theorem State.setLwpInternal_flags (s : State) (i : Config.LwpInternal) : (s.setLwpInternal i).flags = s.flags := rfl
@[simp] theorem State.setLwpInternal_seg (s : State) (i : Config.LwpInternal) : (s.setLwpInternal i).seg = s.seg := rfl
@[simp] theorem State.setLwpInternal_cpl (s : State) (i : Config.LwpInternal) : (s.setLwpInternal i).cpl = s.cpl := rfl
@[simp] theorem State.setLwpInternal_gdtr (s : State) (i : Config.LwpInternal) : (s.setLwpInternal i).gdtr = s.gdtr := rfl
@[simp] theorem State.setLwpInternal_idtr (s : State) (i : Config.LwpInternal) : (s.setLwpInternal i).idtr = s.idtr := rfl
@[simp] theorem State.setLwpInternal_ldtr (s : State) (i : Config.LwpInternal) : (s.setLwpInternal i).ldtr = s.ldtr := rfl
@[simp] theorem State.setLwpInternal_tr (s : State) (i : Config.LwpInternal) : (s.setLwpInternal i).tr = s.tr := rfl
@[simp] theorem State.setLwpInternal_ctl (s : State) (i : Config.LwpInternal) : (s.setLwpInternal i).ctl = s.ctl := rfl
@[simp] theorem State.setLwpInternal_dbg (s : State) (i : Config.LwpInternal) : (s.setLwpInternal i).dbg = s.dbg := rfl
@[simp] theorem State.setLwpInternal_msr (s : State) (i : Config.LwpInternal) : (s.setLwpInternal i).msr = s.msr := rfl
@[simp] theorem State.setLwpInternal_cet (s : State) (i : Config.LwpInternal) : (s.setLwpInternal i).cet = s.cet := rfl
@[simp] theorem State.setLwpInternal_pkru (s : State) (i : Config.LwpInternal) : (s.setLwpInternal i).pkru = s.pkru := rfl
@[simp] theorem State.setLwpInternal_xcr0 (s : State) (i : Config.LwpInternal) : (s.setLwpInternal i).xcr0 = s.xcr0 := rfl
@[simp] theorem State.setLwpInternal_svm (s : State) (i : Config.LwpInternal) : (s.setLwpInternal i).svm = s.svm := rfl
@[simp] theorem State.setLwpInternal_lwp (s : State) (i : Config.LwpInternal) : (s.setLwpInternal i).lwp = { s.lwp with internal := i } := rfl
@[simp] theorem State.setLwpInternal_exec (s : State) (i : Config.LwpInternal) : (s.setLwpInternal i).exec = s.exec := rfl
@[simp] theorem State.setLwpInternal_media (s : State) (i : Config.LwpInternal) : (s.setLwpInternal i).media = s.media := rfl
@[simp] theorem State.setLwpInternal_pins (s : State) (i : Config.LwpInternal) : (s.setLwpInternal i).pins = s.pins := rfl
@[simp] theorem State.setLwpInternal_devices (s : State) (i : Config.LwpInternal) : (s.setLwpInternal i).devices = s.devices := rfl
@[simp] theorem State.setLwpInternal_mem (s : State) (i : Config.LwpInternal) : (s.setLwpInternal i).mem = s.mem := rfl
@[simp] theorem State.setLwpInternal_freeCount (s : State) (i : Config.LwpInternal) : (s.setLwpInternal i).freeCount = s.freeCount := rfl
@[simp] theorem State.setLwpInternal_cfg (s : State) (i : Config.LwpInternal) : (s.setLwpInternal i).cfg = s.cfg := rfl

@[simp] theorem State.writeGReg_rip (s : State) (w : Width) (g : GReg) (v : Quad) : (s.writeGReg w g v).rip = s.rip := by
  unfold State.writeGReg; split <;> rfl
@[simp] theorem State.writeGReg_nextRip (s : State) (w : Width) (g : GReg) (v : Quad) : (s.writeGReg w g v).nextRip = s.nextRip := by
  unfold State.writeGReg; split <;> rfl
@[simp] theorem State.writeGReg_flags (s : State) (w : Width) (g : GReg) (v : Quad) : (s.writeGReg w g v).flags = s.flags := by
  unfold State.writeGReg; split <;> rfl
@[simp] theorem State.writeGReg_seg (s : State) (w : Width) (g : GReg) (v : Quad) : (s.writeGReg w g v).seg = s.seg := by
  unfold State.writeGReg; split <;> rfl
@[simp] theorem State.writeGReg_cpl (s : State) (w : Width) (g : GReg) (v : Quad) : (s.writeGReg w g v).cpl = s.cpl := by
  unfold State.writeGReg; split <;> rfl
@[simp] theorem State.writeGReg_gdtr (s : State) (w : Width) (g : GReg) (v : Quad) : (s.writeGReg w g v).gdtr = s.gdtr := by
  unfold State.writeGReg; split <;> rfl
@[simp] theorem State.writeGReg_idtr (s : State) (w : Width) (g : GReg) (v : Quad) : (s.writeGReg w g v).idtr = s.idtr := by
  unfold State.writeGReg; split <;> rfl
@[simp] theorem State.writeGReg_ldtr (s : State) (w : Width) (g : GReg) (v : Quad) : (s.writeGReg w g v).ldtr = s.ldtr := by
  unfold State.writeGReg; split <;> rfl
@[simp] theorem State.writeGReg_tr (s : State) (w : Width) (g : GReg) (v : Quad) : (s.writeGReg w g v).tr = s.tr := by
  unfold State.writeGReg; split <;> rfl
@[simp] theorem State.writeGReg_ctl (s : State) (w : Width) (g : GReg) (v : Quad) : (s.writeGReg w g v).ctl = s.ctl := by
  unfold State.writeGReg; split <;> rfl
@[simp] theorem State.writeGReg_dbg (s : State) (w : Width) (g : GReg) (v : Quad) : (s.writeGReg w g v).dbg = s.dbg := by
  unfold State.writeGReg; split <;> rfl
@[simp] theorem State.writeGReg_msr (s : State) (w : Width) (g : GReg) (v : Quad) : (s.writeGReg w g v).msr = s.msr := by
  unfold State.writeGReg; split <;> rfl
@[simp] theorem State.writeGReg_cet (s : State) (w : Width) (g : GReg) (v : Quad) : (s.writeGReg w g v).cet = s.cet := by
  unfold State.writeGReg; split <;> rfl
@[simp] theorem State.writeGReg_pkru (s : State) (w : Width) (g : GReg) (v : Quad) : (s.writeGReg w g v).pkru = s.pkru := by
  unfold State.writeGReg; split <;> rfl
@[simp] theorem State.writeGReg_xcr0 (s : State) (w : Width) (g : GReg) (v : Quad) : (s.writeGReg w g v).xcr0 = s.xcr0 := by
  unfold State.writeGReg; split <;> rfl
@[simp] theorem State.writeGReg_svm (s : State) (w : Width) (g : GReg) (v : Quad) : (s.writeGReg w g v).svm = s.svm := by
  unfold State.writeGReg; split <;> rfl
@[simp] theorem State.writeGReg_lwp (s : State) (w : Width) (g : GReg) (v : Quad) : (s.writeGReg w g v).lwp = s.lwp := by
  unfold State.writeGReg; split <;> rfl
@[simp] theorem State.writeGReg_exec (s : State) (w : Width) (g : GReg) (v : Quad) : (s.writeGReg w g v).exec = s.exec := by
  unfold State.writeGReg; split <;> rfl
@[simp] theorem State.writeGReg_media (s : State) (w : Width) (g : GReg) (v : Quad) : (s.writeGReg w g v).media = s.media := by
  unfold State.writeGReg; split <;> rfl
@[simp] theorem State.writeGReg_pins (s : State) (w : Width) (g : GReg) (v : Quad) : (s.writeGReg w g v).pins = s.pins := by
  unfold State.writeGReg; split <;> rfl
@[simp] theorem State.writeGReg_devices (s : State) (w : Width) (g : GReg) (v : Quad) : (s.writeGReg w g v).devices = s.devices := by
  unfold State.writeGReg; split <;> rfl
@[simp] theorem State.writeGReg_mem (s : State) (w : Width) (g : GReg) (v : Quad) : (s.writeGReg w g v).mem = s.mem := by
  unfold State.writeGReg; split <;> rfl
@[simp] theorem State.writeGReg_freeCount (s : State) (w : Width) (g : GReg) (v : Quad) : (s.writeGReg w g v).freeCount = s.freeCount := by
  unfold State.writeGReg; split <;> rfl
@[simp] theorem State.writeGReg_cfg (s : State) (w : Width) (g : GReg) (v : Quad) : (s.writeGReg w g v).cfg = s.cfg := by
  unfold State.writeGReg; split <;> rfl

@[simp] theorem State.putAt_rip (s : State) (w : Width) (p : Place) (v : Quad) : (s.putAt w p v).rip = s.rip := by
  cases p <;> simp [State.putAt]
@[simp] theorem State.putAt_nextRip (s : State) (w : Width) (p : Place) (v : Quad) : (s.putAt w p v).nextRip = s.nextRip := by
  cases p <;> simp [State.putAt]
@[simp] theorem State.putAt_flags (s : State) (w : Width) (p : Place) (v : Quad) : (s.putAt w p v).flags = s.flags := by
  cases p <;> simp [State.putAt]
@[simp] theorem State.putAt_seg (s : State) (w : Width) (p : Place) (v : Quad) : (s.putAt w p v).seg = s.seg := by
  cases p <;> simp [State.putAt]
@[simp] theorem State.putAt_cpl (s : State) (w : Width) (p : Place) (v : Quad) : (s.putAt w p v).cpl = s.cpl := by
  cases p <;> simp [State.putAt]
@[simp] theorem State.putAt_gdtr (s : State) (w : Width) (p : Place) (v : Quad) : (s.putAt w p v).gdtr = s.gdtr := by
  cases p <;> simp [State.putAt]
@[simp] theorem State.putAt_idtr (s : State) (w : Width) (p : Place) (v : Quad) : (s.putAt w p v).idtr = s.idtr := by
  cases p <;> simp [State.putAt]
@[simp] theorem State.putAt_ldtr (s : State) (w : Width) (p : Place) (v : Quad) : (s.putAt w p v).ldtr = s.ldtr := by
  cases p <;> simp [State.putAt]
@[simp] theorem State.putAt_tr (s : State) (w : Width) (p : Place) (v : Quad) : (s.putAt w p v).tr = s.tr := by
  cases p <;> simp [State.putAt]
@[simp] theorem State.putAt_ctl (s : State) (w : Width) (p : Place) (v : Quad) : (s.putAt w p v).ctl = s.ctl := by
  cases p <;> simp [State.putAt]
@[simp] theorem State.putAt_dbg (s : State) (w : Width) (p : Place) (v : Quad) : (s.putAt w p v).dbg = s.dbg := by
  cases p <;> simp [State.putAt]
@[simp] theorem State.putAt_msr (s : State) (w : Width) (p : Place) (v : Quad) : (s.putAt w p v).msr = s.msr := by
  cases p <;> simp [State.putAt]
@[simp] theorem State.putAt_cet (s : State) (w : Width) (p : Place) (v : Quad) : (s.putAt w p v).cet = s.cet := by
  cases p <;> simp [State.putAt]
@[simp] theorem State.putAt_pkru (s : State) (w : Width) (p : Place) (v : Quad) : (s.putAt w p v).pkru = s.pkru := by
  cases p <;> simp [State.putAt]
@[simp] theorem State.putAt_xcr0 (s : State) (w : Width) (p : Place) (v : Quad) : (s.putAt w p v).xcr0 = s.xcr0 := by
  cases p <;> simp [State.putAt]
@[simp] theorem State.putAt_svm (s : State) (w : Width) (p : Place) (v : Quad) : (s.putAt w p v).svm = s.svm := by
  cases p <;> simp [State.putAt]
@[simp] theorem State.putAt_lwp (s : State) (w : Width) (p : Place) (v : Quad) : (s.putAt w p v).lwp = s.lwp := by
  cases p <;> simp [State.putAt]
@[simp] theorem State.putAt_exec (s : State) (w : Width) (p : Place) (v : Quad) : (s.putAt w p v).exec = s.exec := by
  cases p <;> simp [State.putAt]
@[simp] theorem State.putAt_media (s : State) (w : Width) (p : Place) (v : Quad) : (s.putAt w p v).media = s.media := by
  cases p <;> simp [State.putAt]
@[simp] theorem State.putAt_pins (s : State) (w : Width) (p : Place) (v : Quad) : (s.putAt w p v).pins = s.pins := by
  cases p <;> simp [State.putAt]
@[simp] theorem State.putAt_devices (s : State) (w : Width) (p : Place) (v : Quad) : (s.putAt w p v).devices = s.devices := by
  cases p <;> simp [State.putAt]
@[simp] theorem State.putAt_freeCount (s : State) (w : Width) (p : Place) (v : Quad) : (s.putAt w p v).freeCount = s.freeCount := by
  cases p <;> simp [State.putAt]
@[simp] theorem State.putAt_cfg (s : State) (w : Width) (p : Place) (v : Quad) : (s.putAt w p v).cfg = s.cfg := by
  cases p <;> simp [State.putAt]

@[simp] theorem State.enterMode_rip (s t : State) : (s.enterMode t).rip = t.rip := by
  unfold State.enterMode; split <;> rfl
@[simp] theorem State.enterMode_nextRip (s t : State) : (s.enterMode t).nextRip = t.nextRip := by
  unfold State.enterMode; split <;> rfl
@[simp] theorem State.enterMode_flags (s t : State) : (s.enterMode t).flags = t.flags := by
  unfold State.enterMode; split <;> rfl
@[simp] theorem State.enterMode_seg (s t : State) : (s.enterMode t).seg = t.seg := by
  unfold State.enterMode; split <;> rfl
@[simp] theorem State.enterMode_cpl (s t : State) : (s.enterMode t).cpl = t.cpl := by
  unfold State.enterMode; split <;> rfl
@[simp] theorem State.enterMode_gdtr (s t : State) : (s.enterMode t).gdtr = t.gdtr := by
  unfold State.enterMode; split <;> rfl
@[simp] theorem State.enterMode_idtr (s t : State) : (s.enterMode t).idtr = t.idtr := by
  unfold State.enterMode; split <;> rfl
@[simp] theorem State.enterMode_ldtr (s t : State) : (s.enterMode t).ldtr = t.ldtr := by
  unfold State.enterMode; split <;> rfl
@[simp] theorem State.enterMode_tr (s t : State) : (s.enterMode t).tr = t.tr := by
  unfold State.enterMode; split <;> rfl
@[simp] theorem State.enterMode_ctl (s t : State) : (s.enterMode t).ctl = t.ctl := by
  unfold State.enterMode; split <;> rfl
@[simp] theorem State.enterMode_dbg (s t : State) : (s.enterMode t).dbg = t.dbg := by
  unfold State.enterMode; split <;> rfl
@[simp] theorem State.enterMode_msr (s t : State) : (s.enterMode t).msr = t.msr := by
  unfold State.enterMode; split <;> rfl
@[simp] theorem State.enterMode_cet (s t : State) : (s.enterMode t).cet = t.cet := by
  unfold State.enterMode; split <;> rfl
@[simp] theorem State.enterMode_pkru (s t : State) : (s.enterMode t).pkru = t.pkru := by
  unfold State.enterMode; split <;> rfl
@[simp] theorem State.enterMode_xcr0 (s t : State) : (s.enterMode t).xcr0 = t.xcr0 := by
  unfold State.enterMode; split <;> rfl
@[simp] theorem State.enterMode_svm (s t : State) : (s.enterMode t).svm = t.svm := by
  unfold State.enterMode; split <;> rfl
@[simp] theorem State.enterMode_lwp (s t : State) : (s.enterMode t).lwp = t.lwp := by
  unfold State.enterMode; split <;> rfl
@[simp] theorem State.enterMode_exec (s t : State) : (s.enterMode t).exec = t.exec := by
  unfold State.enterMode; split <;> rfl
@[simp] theorem State.enterMode_media (s t : State) : (s.enterMode t).media = t.media := by
  unfold State.enterMode; split <;> rfl
@[simp] theorem State.enterMode_pins (s t : State) : (s.enterMode t).pins = t.pins := by
  unfold State.enterMode; split <;> rfl
@[simp] theorem State.enterMode_devices (s t : State) : (s.enterMode t).devices = t.devices := by
  unfold State.enterMode; split <;> rfl
@[simp] theorem State.enterMode_mem (s t : State) : (s.enterMode t).mem = t.mem := by
  unfold State.enterMode; split <;> rfl
@[simp] theorem State.enterMode_freeCount (s t : State) : (s.enterMode t).freeCount = t.freeCount := by
  unfold State.enterMode; split <;> rfl
@[simp] theorem State.enterMode_cfg (s t : State) : (s.enterMode t).cfg = t.cfg := by
  unfold State.enterMode; split <;> rfl

@[simp] theorem State.setCs_rip (s : State) (cs : SegReg) (cpl : BitVec 2) : (s.setCs cs cpl).rip = s.rip := by
  simp [State.setCs]
@[simp] theorem State.setCs_nextRip (s : State) (cs : SegReg) (cpl : BitVec 2) : (s.setCs cs cpl).nextRip = s.nextRip := by
  simp [State.setCs]
@[simp] theorem State.setCs_flags (s : State) (cs : SegReg) (cpl : BitVec 2) : (s.setCs cs cpl).flags = s.flags := by
  simp [State.setCs]
@[simp] theorem State.setCs_seg (s : State) (cs : SegReg) (cpl : BitVec 2) : (s.setCs cs cpl).seg = { s.seg with cs := cs } := by
  simp [State.setCs]
@[simp] theorem State.setCs_cpl (s : State) (cs : SegReg) (cpl : BitVec 2) : (s.setCs cs cpl).cpl = cpl := by
  simp [State.setCs]
@[simp] theorem State.setCs_gdtr (s : State) (cs : SegReg) (cpl : BitVec 2) : (s.setCs cs cpl).gdtr = s.gdtr := by
  simp [State.setCs]
@[simp] theorem State.setCs_idtr (s : State) (cs : SegReg) (cpl : BitVec 2) : (s.setCs cs cpl).idtr = s.idtr := by
  simp [State.setCs]
@[simp] theorem State.setCs_ldtr (s : State) (cs : SegReg) (cpl : BitVec 2) : (s.setCs cs cpl).ldtr = s.ldtr := by
  simp [State.setCs]
@[simp] theorem State.setCs_tr (s : State) (cs : SegReg) (cpl : BitVec 2) : (s.setCs cs cpl).tr = s.tr := by
  simp [State.setCs]
@[simp] theorem State.setCs_ctl (s : State) (cs : SegReg) (cpl : BitVec 2) : (s.setCs cs cpl).ctl = s.ctl := by
  simp [State.setCs]
@[simp] theorem State.setCs_dbg (s : State) (cs : SegReg) (cpl : BitVec 2) : (s.setCs cs cpl).dbg = s.dbg := by
  simp [State.setCs]
@[simp] theorem State.setCs_msr (s : State) (cs : SegReg) (cpl : BitVec 2) : (s.setCs cs cpl).msr = s.msr := by
  simp [State.setCs]
@[simp] theorem State.setCs_cet (s : State) (cs : SegReg) (cpl : BitVec 2) : (s.setCs cs cpl).cet = s.cet := by
  simp [State.setCs]
@[simp] theorem State.setCs_pkru (s : State) (cs : SegReg) (cpl : BitVec 2) : (s.setCs cs cpl).pkru = s.pkru := by
  simp [State.setCs]
@[simp] theorem State.setCs_xcr0 (s : State) (cs : SegReg) (cpl : BitVec 2) : (s.setCs cs cpl).xcr0 = s.xcr0 := by
  simp [State.setCs]
@[simp] theorem State.setCs_svm (s : State) (cs : SegReg) (cpl : BitVec 2) : (s.setCs cs cpl).svm = s.svm := by
  simp [State.setCs]
@[simp] theorem State.setCs_lwp (s : State) (cs : SegReg) (cpl : BitVec 2) : (s.setCs cs cpl).lwp = s.lwp := by
  simp [State.setCs]
@[simp] theorem State.setCs_exec (s : State) (cs : SegReg) (cpl : BitVec 2) : (s.setCs cs cpl).exec = s.disarm.exec := by
  simp [State.setCs]
@[simp] theorem State.setCs_media (s : State) (cs : SegReg) (cpl : BitVec 2) : (s.setCs cs cpl).media = s.media := by
  simp [State.setCs]
@[simp] theorem State.setCs_pins (s : State) (cs : SegReg) (cpl : BitVec 2) : (s.setCs cs cpl).pins = s.pins := by
  simp [State.setCs]
@[simp] theorem State.setCs_devices (s : State) (cs : SegReg) (cpl : BitVec 2) : (s.setCs cs cpl).devices = s.devices := by
  simp [State.setCs]
@[simp] theorem State.setCs_mem (s : State) (cs : SegReg) (cpl : BitVec 2) : (s.setCs cs cpl).mem = s.mem := by
  simp [State.setCs]
@[simp] theorem State.setCs_freeCount (s : State) (cs : SegReg) (cpl : BitVec 2) : (s.setCs cs cpl).freeCount = s.freeCount := by
  simp [State.setCs]
@[simp] theorem State.setCs_cfg (s : State) (cs : SegReg) (cpl : BitVec 2) : (s.setCs cs cpl).cfg = s.cfg := by
  simp [State.setCs]

@[simp] theorem State.setCsSame_rip (s : State) (cs : SegReg) : (s.setCsSame cs).rip = s.rip := by
  simp [State.setCsSame]
@[simp] theorem State.setCsSame_nextRip (s : State) (cs : SegReg) : (s.setCsSame cs).nextRip = s.nextRip := by
  simp [State.setCsSame]
@[simp] theorem State.setCsSame_flags (s : State) (cs : SegReg) : (s.setCsSame cs).flags = s.flags := by
  simp [State.setCsSame]
@[simp] theorem State.setCsSame_seg (s : State) (cs : SegReg) : (s.setCsSame cs).seg = { s.seg with cs := cs } := by
  simp [State.setCsSame]
@[simp] theorem State.setCsSame_cpl (s : State) (cs : SegReg) : (s.setCsSame cs).cpl = s.cpl := by
  simp [State.setCsSame]
@[simp] theorem State.setCsSame_gdtr (s : State) (cs : SegReg) : (s.setCsSame cs).gdtr = s.gdtr := by
  simp [State.setCsSame]
@[simp] theorem State.setCsSame_idtr (s : State) (cs : SegReg) : (s.setCsSame cs).idtr = s.idtr := by
  simp [State.setCsSame]
@[simp] theorem State.setCsSame_ldtr (s : State) (cs : SegReg) : (s.setCsSame cs).ldtr = s.ldtr := by
  simp [State.setCsSame]
@[simp] theorem State.setCsSame_tr (s : State) (cs : SegReg) : (s.setCsSame cs).tr = s.tr := by
  simp [State.setCsSame]
@[simp] theorem State.setCsSame_ctl (s : State) (cs : SegReg) : (s.setCsSame cs).ctl = s.ctl := by
  simp [State.setCsSame]
@[simp] theorem State.setCsSame_dbg (s : State) (cs : SegReg) : (s.setCsSame cs).dbg = s.dbg := by
  simp [State.setCsSame]
@[simp] theorem State.setCsSame_msr (s : State) (cs : SegReg) : (s.setCsSame cs).msr = s.msr := by
  simp [State.setCsSame]
@[simp] theorem State.setCsSame_cet (s : State) (cs : SegReg) : (s.setCsSame cs).cet = s.cet := by
  simp [State.setCsSame]
@[simp] theorem State.setCsSame_pkru (s : State) (cs : SegReg) : (s.setCsSame cs).pkru = s.pkru := by
  simp [State.setCsSame]
@[simp] theorem State.setCsSame_xcr0 (s : State) (cs : SegReg) : (s.setCsSame cs).xcr0 = s.xcr0 := by
  simp [State.setCsSame]
@[simp] theorem State.setCsSame_svm (s : State) (cs : SegReg) : (s.setCsSame cs).svm = s.svm := by
  simp [State.setCsSame]
@[simp] theorem State.setCsSame_lwp (s : State) (cs : SegReg) : (s.setCsSame cs).lwp = s.lwp := by
  simp [State.setCsSame]
@[simp] theorem State.setCsSame_exec (s : State) (cs : SegReg) : (s.setCsSame cs).exec = s.disarm.exec := by
  simp [State.setCsSame]
@[simp] theorem State.setCsSame_media (s : State) (cs : SegReg) : (s.setCsSame cs).media = s.media := by
  simp [State.setCsSame]
@[simp] theorem State.setCsSame_pins (s : State) (cs : SegReg) : (s.setCsSame cs).pins = s.pins := by
  simp [State.setCsSame]
@[simp] theorem State.setCsSame_devices (s : State) (cs : SegReg) : (s.setCsSame cs).devices = s.devices := by
  simp [State.setCsSame]
@[simp] theorem State.setCsSame_mem (s : State) (cs : SegReg) : (s.setCsSame cs).mem = s.mem := by
  simp [State.setCsSame]
@[simp] theorem State.setCsSame_freeCount (s : State) (cs : SegReg) : (s.setCsSame cs).freeCount = s.freeCount := by
  simp [State.setCsSame]
@[simp] theorem State.setCsSame_cfg (s : State) (cs : SegReg) : (s.setCsSame cs).cfg = s.cfg := by
  simp [State.setCsSame]

@[simp] theorem State.setCsSame_rsp (s : State) (cs : SegReg) : (s.setCsSame cs).gpr.rsp = s.gpr.rsp := by
  simp [State.setCsSame, Gprs.set]

@[simp] theorem State.again_gpr (u s : State) : (u.again s).gpr = u.gpr := rfl
@[simp] theorem State.again_nextRip (u s : State) : (u.again s).nextRip = u.nextRip := rfl
@[simp] theorem State.again_flags (u s : State) : (u.again s).flags = u.flags := rfl
@[simp] theorem State.again_seg (u s : State) : (u.again s).seg = u.seg := rfl
@[simp] theorem State.again_cpl (u s : State) : (u.again s).cpl = u.cpl := rfl
@[simp] theorem State.again_gdtr (u s : State) : (u.again s).gdtr = u.gdtr := rfl
@[simp] theorem State.again_idtr (u s : State) : (u.again s).idtr = u.idtr := rfl
@[simp] theorem State.again_ldtr (u s : State) : (u.again s).ldtr = u.ldtr := rfl
@[simp] theorem State.again_tr (u s : State) : (u.again s).tr = u.tr := rfl
@[simp] theorem State.again_ctl (u s : State) : (u.again s).ctl = u.ctl := rfl
@[simp] theorem State.again_dbg (u s : State) : (u.again s).dbg = u.dbg := rfl
@[simp] theorem State.again_msr (u s : State) : (u.again s).msr = u.msr := rfl
@[simp] theorem State.again_cet (u s : State) : (u.again s).cet = u.cet := rfl
@[simp] theorem State.again_pkru (u s : State) : (u.again s).pkru = u.pkru := rfl
@[simp] theorem State.again_xcr0 (u s : State) : (u.again s).xcr0 = u.xcr0 := rfl
@[simp] theorem State.again_svm (u s : State) : (u.again s).svm = u.svm := rfl
@[simp] theorem State.again_lwp (u s : State) : (u.again s).lwp = u.lwp := rfl
@[simp] theorem State.again_media (u s : State) : (u.again s).media = u.media := rfl
@[simp] theorem State.again_pins (u s : State) : (u.again s).pins = u.pins := rfl
@[simp] theorem State.again_devices (u s : State) : (u.again s).devices = u.devices := rfl
@[simp] theorem State.again_mem (u s : State) : (u.again s).mem = u.mem := rfl
@[simp] theorem State.again_freeCount (u s : State) : (u.again s).freeCount = u.freeCount := rfl
@[simp] theorem State.again_cfg (u s : State) : (u.again s).cfg = u.cfg := rfl
@[simp] theorem State.again_rip (u s : State) : (u.again s).rip = s.rip := rfl
@[simp] theorem State.again_exec (u s : State) : (u.again s).exec = { u.exec with shadow := s.exec.shadow, latch := s.exec.latch } := rfl

@[simp] theorem State.noteFault_gpr (s : State) (x : Exn) : (s.noteFault x).gpr = s.gpr := by
  unfold State.noteFault; split <;> rfl
@[simp] theorem State.noteFault_rip (s : State) (x : Exn) : (s.noteFault x).rip = s.rip := by
  unfold State.noteFault; split <;> rfl
@[simp] theorem State.noteFault_nextRip (s : State) (x : Exn) : (s.noteFault x).nextRip = s.nextRip := by
  unfold State.noteFault; split <;> rfl
@[simp] theorem State.noteFault_flags (s : State) (x : Exn) : (s.noteFault x).flags = s.flags := by
  unfold State.noteFault; split <;> rfl
@[simp] theorem State.noteFault_seg (s : State) (x : Exn) : (s.noteFault x).seg = s.seg := by
  unfold State.noteFault; split <;> rfl
@[simp] theorem State.noteFault_cpl (s : State) (x : Exn) : (s.noteFault x).cpl = s.cpl := by
  unfold State.noteFault; split <;> rfl
@[simp] theorem State.noteFault_gdtr (s : State) (x : Exn) : (s.noteFault x).gdtr = s.gdtr := by
  unfold State.noteFault; split <;> rfl
@[simp] theorem State.noteFault_idtr (s : State) (x : Exn) : (s.noteFault x).idtr = s.idtr := by
  unfold State.noteFault; split <;> rfl
@[simp] theorem State.noteFault_ldtr (s : State) (x : Exn) : (s.noteFault x).ldtr = s.ldtr := by
  unfold State.noteFault; split <;> rfl
@[simp] theorem State.noteFault_tr (s : State) (x : Exn) : (s.noteFault x).tr = s.tr := by
  unfold State.noteFault; split <;> rfl
@[simp] theorem State.noteFault_dbg (s : State) (x : Exn) : (s.noteFault x).dbg = s.dbg := by
  unfold State.noteFault; split <;> rfl
@[simp] theorem State.noteFault_msr (s : State) (x : Exn) : (s.noteFault x).msr = s.msr := by
  unfold State.noteFault; split <;> rfl
@[simp] theorem State.noteFault_cet (s : State) (x : Exn) : (s.noteFault x).cet = s.cet := by
  unfold State.noteFault; split <;> rfl
@[simp] theorem State.noteFault_pkru (s : State) (x : Exn) : (s.noteFault x).pkru = s.pkru := by
  unfold State.noteFault; split <;> rfl
@[simp] theorem State.noteFault_xcr0 (s : State) (x : Exn) : (s.noteFault x).xcr0 = s.xcr0 := by
  unfold State.noteFault; split <;> rfl
@[simp] theorem State.noteFault_svm (s : State) (x : Exn) : (s.noteFault x).svm = s.svm := by
  unfold State.noteFault; split <;> rfl
@[simp] theorem State.noteFault_lwp (s : State) (x : Exn) : (s.noteFault x).lwp = s.lwp := by
  unfold State.noteFault; split <;> rfl
@[simp] theorem State.noteFault_exec (s : State) (x : Exn) : (s.noteFault x).exec = s.exec := by
  unfold State.noteFault; split <;> rfl
@[simp] theorem State.noteFault_media (s : State) (x : Exn) : (s.noteFault x).media = s.media := by
  unfold State.noteFault; split <;> rfl
@[simp] theorem State.noteFault_pins (s : State) (x : Exn) : (s.noteFault x).pins = s.pins := by
  unfold State.noteFault; split <;> rfl
@[simp] theorem State.noteFault_devices (s : State) (x : Exn) : (s.noteFault x).devices = s.devices := by
  unfold State.noteFault; split <;> rfl
@[simp] theorem State.noteFault_mem (s : State) (x : Exn) : (s.noteFault x).mem = s.mem := by
  unfold State.noteFault; split <;> rfl
@[simp] theorem State.noteFault_freeCount (s : State) (x : Exn) : (s.noteFault x).freeCount = s.freeCount := by
  unfold State.noteFault; split <;> rfl
@[simp] theorem State.noteFault_cfg (s : State) (x : Exn) : (s.noteFault x).cfg = s.cfg := by
  unfold State.noteFault; split <;> rfl

@[simp] theorem State.clipRip_gpr (s : State) : s.clipRip.gpr = s.gpr := by
  unfold State.clipRip; split <;> rfl
@[simp] theorem State.clipRip_rip (s : State) : s.clipRip.rip = if s.mode64 then s.rip else trunc .w32 s.rip := by
  unfold State.clipRip; split <;> rfl
@[simp] theorem State.clipRip_nextRip (s : State) : s.clipRip.nextRip = s.nextRip := by
  unfold State.clipRip; split <;> rfl
@[simp] theorem State.clipRip_flags (s : State) : s.clipRip.flags = s.flags := by
  unfold State.clipRip; split <;> rfl
@[simp] theorem State.clipRip_seg (s : State) : s.clipRip.seg = s.seg := by
  unfold State.clipRip; split <;> rfl
@[simp] theorem State.clipRip_cpl (s : State) : s.clipRip.cpl = s.cpl := by
  unfold State.clipRip; split <;> rfl
@[simp] theorem State.clipRip_gdtr (s : State) : s.clipRip.gdtr = s.gdtr := by
  unfold State.clipRip; split <;> rfl
@[simp] theorem State.clipRip_idtr (s : State) : s.clipRip.idtr = s.idtr := by
  unfold State.clipRip; split <;> rfl
@[simp] theorem State.clipRip_ldtr (s : State) : s.clipRip.ldtr = s.ldtr := by
  unfold State.clipRip; split <;> rfl
@[simp] theorem State.clipRip_tr (s : State) : s.clipRip.tr = s.tr := by
  unfold State.clipRip; split <;> rfl
@[simp] theorem State.clipRip_ctl (s : State) : s.clipRip.ctl = s.ctl := by
  unfold State.clipRip; split <;> rfl
@[simp] theorem State.clipRip_dbg (s : State) : s.clipRip.dbg = s.dbg := by
  unfold State.clipRip; split <;> rfl
@[simp] theorem State.clipRip_msr (s : State) : s.clipRip.msr = s.msr := by
  unfold State.clipRip; split <;> rfl
@[simp] theorem State.clipRip_cet (s : State) : s.clipRip.cet = s.cet := by
  unfold State.clipRip; split <;> rfl
@[simp] theorem State.clipRip_pkru (s : State) : s.clipRip.pkru = s.pkru := by
  unfold State.clipRip; split <;> rfl
@[simp] theorem State.clipRip_xcr0 (s : State) : s.clipRip.xcr0 = s.xcr0 := by
  unfold State.clipRip; split <;> rfl
@[simp] theorem State.clipRip_svm (s : State) : s.clipRip.svm = s.svm := by
  unfold State.clipRip; split <;> rfl
@[simp] theorem State.clipRip_lwp (s : State) : s.clipRip.lwp = s.lwp := by
  unfold State.clipRip; split <;> rfl
@[simp] theorem State.clipRip_exec (s : State) : s.clipRip.exec = s.exec := by
  unfold State.clipRip; split <;> rfl
@[simp] theorem State.clipRip_media (s : State) : s.clipRip.media = s.media := by
  unfold State.clipRip; split <;> rfl
@[simp] theorem State.clipRip_pins (s : State) : s.clipRip.pins = s.pins := by
  unfold State.clipRip; split <;> rfl
@[simp] theorem State.clipRip_devices (s : State) : s.clipRip.devices = s.devices := by
  unfold State.clipRip; split <;> rfl
@[simp] theorem State.clipRip_mem (s : State) : s.clipRip.mem = s.mem := by
  unfold State.clipRip; split <;> rfl
@[simp] theorem State.clipRip_freeCount (s : State) : s.clipRip.freeCount = s.freeCount := by
  unfold State.clipRip; split <;> rfl
@[simp] theorem State.clipRip_cfg (s : State) : s.clipRip.cfg = s.cfg := by
  unfold State.clipRip; split <;> rfl

end Sys2Proof.Machine
end

