-- ==== Sys2Proof/Laws/Run.lean ====
section
/-! SUPPORT. How an instruction runs: the outcomes of `run`, of the checks and of the parts of a body, and what the state in
which a body starts keeps of the state before. -/

namespace Sys2Proof.Machine

/-! ### The parts of a body -/

@[simp] theorem ok_bind {α β : Type} (a : α) (f : α → Res β) : ((.ok a : Res α) >>= f) = f a := rfl

@[simp] theorem error_bind {α β : Type} (e : Trap) (f : α → Res β) : ((.error e : Res α) >>= f) = .error e := rfl

/-- A sequence of two parts answers when both do. -/
theorem bind_ok {α β : Type} {x : Res α} {f : α → Res β} {b : β} :
    (x >>= f) = .ok b ↔ ∃ a, x = .ok a ∧ f a = .ok b := by
  cases x <;> simp

@[simp] theorem require_true (t : Trap) : require true t = .ok () := rfl

@[simp] theorem require_false (t : Trap) : require false t = .error t := rfl

/-- A check passes when its condition holds. -/
theorem require_ok {c : Bool} {t : Trap} {u : Unit} : require c t = .ok u ↔ c = true := by
  cases c <;> simp

/-- LOCK is legal. -/
theorem checkLock_ok {lock : Bool} {r : RM} (h : lock = true → RM.isMem r = true) : checkLock lock r = .ok () := by
  cases lock <;> simp_all [checkLock]

/-- LOCK is legal for an arithmetic-logic form. -/
theorem lock_ok {lock : Bool} {f : AluForm} (h : lock = true → formWritesMem f = true) :
    require (!lock || formWritesMem f) ud = .ok () := by
  cases lock <;> simp_all

/-! ### The outcome of an instruction -/

/-- An instruction whose body answers completes, when TF = 0. -/
theorem run_ok {s t : State} {body : State → Res State} (tf : s.flags.tf = false) (h : body s.start = .ok t) :
    run s body = .next t := by
  simp [run, h, State.complete, tf]

/-- An instruction whose body raises an exception delivers it from the state before the instruction. -/
theorem run_exc {s : State} {body : State → Res State} {x : Exn} (h : body s.start = .error (.exc x)) :
    run s body = s.raise x := by
  simp [run, h]

/-- An instruction whose body faults does. -/
theorem run_fault {s : State} {body : State → Res State} {f : Fault} (h : body s.start = .error (.fault f)) :
    run s body = .fault f := by
  simp [run, h]

/-- An instruction whose body refuses does. -/
theorem run_refuse {s : State} {body : State → Res State} {r : Refusal} (h : body s.start = .error (.refuse r)) :
    run s body = .refused r := by
  simp [run, h]

/-- The same for an instruction of the virtual-machine family. -/
theorem runVm_done {s t : State} {body : State → Res VmEnd} (tf : s.flags.tf = false)
    (h : body s.start = .ok (.done t)) : runVm s body = .next t := by
  simp [runVm, h, State.complete, tf]

/-- The same for an instruction of lightweight profiling. -/
theorem runLwp_done {s t : State} {body : State → Res LwpEnd} (tf : s.flags.tf = false)
    (h : body s.start = .ok (.done t)) : runLwp s body = .next t := by
  simp [runLwp, h, State.complete, tf]

/-- What a completed instruction can answer: the state its body gives, or the delivery of its single-step trap, or that of
the exception it raises. -/
theorem run_next {s t : State} {body : State → Res State} (h : run s body = .next t) :
    (∃ u, body s.start = .ok u ∧ s.complete u = .next t) ∨ ∃ x, body s.start = .error (.exc x) ∧ s.raise x = .next t := by
  unfold run at h
  split at h <;> simp_all

/-- Without a single-step trap an instruction completes in the state its body gives. -/
theorem complete_next {s u : State} (tf : s.flags.tf = false) : s.complete u = .next u := by
  simp [State.complete, tf]

/-- Delivery that succeeds at once. -/
theorem take_ok {s t : State} {e : Event} (h : s.deliverOnce e = .ok t) : s.take e = .next t := by
  simp [State.take, State.deliverLoop, h]

/-- An exception whose delivery succeeds at once. -/
theorem raise_ok {s t : State} {x : Exn} (h : (s.noteFault x).deliverOnce (s.excEvent x) = .ok t) :
    s.raise x = .next t := take_ok h

/-! ### What the body's first state keeps -/

@[simp] theorem start_mode64 (s : State) : s.start.mode64 = s.mode64 := rfl
@[simp] theorem start_protMode (s : State) : s.start.protMode = s.protMode := rfl
@[simp] theorem start_virtMode (s : State) : s.start.virtMode = s.virtMode := rfl
@[simp] theorem start_realMode (s : State) : s.start.realMode = s.realMode := rfl
@[simp] theorem start_longMode (s : State) : s.start.longMode = s.longMode := rfl
@[simp] theorem start_pe (s : State) : s.start.pe = s.pe := rfl
@[simp] theorem start_pg (s : State) : s.start.pg = s.pg := rfl
@[simp] theorem start_feat (s : State) : s.start.feat = s.feat := rfl
@[simp] theorem start_reg (s : State) (r : Gpr) : s.start.reg r = s.reg r := rfl
@[simp] theorem start_readGpr (s : State) (w : Width) (r : Gpr) : s.start.readGpr w r = s.readGpr w r := rfl
@[simp] theorem start_readGReg (s : State) (w : Width) (g : GReg) : s.start.readGReg w g = s.readGReg w g := rfl
@[simp] theorem start_sreg (s : State) (n : SegName) : s.start.sreg n = s.sreg n := rfl
@[simp] theorem start_loadAt (s : State) (ps : List Nat) : s.start.loadAt ps = s.loadAt ps := rfl
@[simp] theorem start_stackWidth (s : State) : s.start.stackWidth = s.stackWidth := rfl
@[simp] theorem start_canonical (s : State) (a : Quad) : s.start.canonical a = s.canonical a := rfl
@[simp] theorem start_cr4Bit (s : State) (n : Nat) : s.start.cr4Bit n = s.cr4Bit n := rfl
@[simp] theorem start_eferBit (s : State) (n : Nat) : s.start.eferBit n = s.eferBit n := rfl
@[simp] theorem start_shadowEnabled (s : State) (l : BitVec 2) : s.start.shadowEnabled l = s.shadowEnabled l := rfl
@[simp] theorem start_ymm (s : State) (x : XmmNum) : s.start.ymm x = s.ymm x := rfl
@[simp] theorem start_checkTarget (s : State) (v : Quad) : s.start.checkTarget v = s.checkTarget v := rfl

end Sys2Proof.Machine
end

