-- ==== Sys2Proof/Laws/Ops.lean ====
section
/-! SUPPORT. What each shared operation can do: if it answers, then which addresses it checked and which state it gives. The provers
cite these instead of unfolding an operation. -/

namespace Sys2Proof.Machine

/-- A part whose answer is only rearranged. -/
theorem bind_map_ok {α β : Type} {x : Res α} {f : α → β} {b : β} :
    (x >>= fun a => (.ok (f a) : Res β)) = .ok b ↔ ∃ a, x = .ok a ∧ b = f a := by
  cases x <;> simp [eq_comm]

/-! ### Translation and memory -/

/-- Translation without the host's paging is the identity (20_memory.md R106). -/
theorem translate_identity {s : State} (h : s.cfg.paging = .identity) (acc : Config.Access) (lin : Quad) :
    s.translate acc lin = .ok lin.toNat := by
  simp [State.translate, h]

/-- Addresses are absent when one of them has no memory behind it. -/
theorem absent_none {s : State} {ps : List Nat} : s.absent ps = none ↔ ∀ p ∈ ps, p < 2 ^ s.cfg.physAddrBits := by
  simp [State.absent, List.find?_eq_none]

/-- A span that answers gives as many addresses as the access has bytes, all with memory behind them. -/
theorem span_ok {s : State} {acc : Config.Access} {w : Bool} {lin : Quad} {ps : List Nat} (h : s.span acc w lin = .ok ps) :
    s.physAddrs acc w acc.size lin = .ok ps ∧ ∀ p ∈ ps, p < 2 ^ s.cfg.physAddrBits := by
  unfold State.span at h
  split at h
  · cases h
  · split at h
    · cases h
    · rename_i h1 _ h2
      cases h
      exact ⟨h1, absent_none.mp h2⟩

/-- A segment access that answers has passed its three checks (20_memory.md R105, R107, R108). -/
theorem accessParts_ok {s : State} {bad : Trap} {seg : SegName} {off : Quad} {n part : Nat} {write : Bool} {ps : List Nat} :
    s.accessParts bad seg off n part write = .ok ps ↔
      s.segCheck bad seg off n write = .ok () ∧ s.alignCheck (s.linear seg off) part = .ok () ∧
      s.span (s.dataAccess (if write then .write else .read) n) s.wrap32 (s.linear seg off) = .ok ps := by
  unfold State.accessParts
  constructor
  · intro h
    obtain ⟨⟨⟩, h1, h⟩ := bind_ok.mp h
    obtain ⟨⟨⟩, h2, h⟩ := bind_ok.mp h
    exact ⟨h1, h2, h⟩
  · rintro ⟨h1, h2, h3⟩
    simp [h1, h2, h3]

/-- The same for an operand of one part. -/
theorem accessE_ok {s : State} {bad : Trap} {seg : SegName} {off : Quad} {n : Nat} {write : Bool} {ps : List Nat} :
    s.accessE bad seg off n write = .ok ps ↔
      s.segCheck bad seg off n write = .ok () ∧ s.alignCheck (s.linear seg off) n = .ok () ∧
      s.span (s.dataAccess (if write then .write else .read) n) s.wrap32 (s.linear seg off) = .ok ps := accessParts_ok

/-- A store keeps memory in its canonical form (20_memory.md R100). -/
theorem storeAt_memOk {s : State} (h : s.memOk) (ps : List Nat) (v : Nat) : (s.storeAt ps v).memOk :=
  Memory.store_wf _ ps v h

/-- A store changes memory only. -/
theorem storeAt_frame (s : State) (ps : List Nat) (v : Nat) : s.storeAt ps v = { s with mem := Memory.store s.mem ps v } := rfl

/-- A store changes no byte outside its addresses. -/
theorem storeAt_other (s : State) (ps : List Nat) (v b : Nat) (h : b ∉ ps) :
    Memory.read (s.storeAt ps v).mem b = Memory.read s.mem b := Memory.read_store_other _ _ _ _ h

/-- READ_MEM answers the value at the addresses of its access and changes nothing (20_memory.md R105). -/
theorem readMem_ok {s : State} {seg : SegName} {off : Quad} {n : Nat} {v : Quad} :
    s.readMem seg off n = .ok v ↔ ∃ ps, s.access seg off n false = .ok ps ∧ v = BitVec.ofNat 64 (s.loadAt ps) :=
  bind_map_ok

/-- WRITE_MEM stores at the addresses of its access (20_memory.md R107). -/
theorem writeMem_ok {s t : State} {seg : SegName} {off : Quad} {n : Nat} {v : Quad} :
    s.writeMem seg off n v = .ok t ↔ ∃ ps, s.access seg off n true = .ok ps ∧ t = s.storeAt ps v.toNat :=
  bind_map_ok

/-- An implicit read answers the value at the addresses of its span (20_memory.md R106). -/
theorem sysReadLin_ok {s : State} {lin v : Quad} {n : Nat} :
    s.sysReadLin lin n = .ok v ↔ ∃ ps, s.sysSpan .read lin n = .ok ps ∧ v = BitVec.ofNat 64 (s.loadAt ps) :=
  bind_map_ok

/-- A read through a table answers inside its limit (20_memory.md R112). -/
theorem tableRead_ok {s : State} {bad : Trap} {base v : Quad} {limit : BitVec 32} {off n : Nat} :
    s.tableRead bad base limit off n = .ok v ↔
      off + n - 1 ≤ limit.toNat ∧ s.sysReadLin (base + BitVec.ofNat 64 off) n = .ok v := by
  simp [State.tableRead, bind_ok, require_ok]

/-- READ_MEM_PA answers the value of memory that exists (20_memory.md R126). -/
theorem readPa_ok {s : State} {pa n v : Nat} :
    s.readPa pa n = .ok v ↔ (∀ p ∈ physRange pa n, p < 2 ^ s.cfg.physAddrBits) ∧ v = s.loadAt (physRange pa n) := by
  unfold State.readPa
  split
  · rename_i p h
    simp only [reduceCtorEq, false_iff, not_and]
    intro hp
    rw [absent_none.mpr hp] at h
    cases h
  · rename_i h
    exact ⟨fun he => ⟨absent_none.mp h, by cases he; rfl⟩, fun he => by rw [he.2]⟩

/-- WRITE_MEM_PA stores to memory that exists (20_memory.md R126). -/
theorem writePa_ok {s t : State} {pa n v : Nat} :
    s.writePa pa n v = .ok t ↔ (∀ p ∈ physRange pa n, p < 2 ^ s.cfg.physAddrBits) ∧ t = s.storeAt (physRange pa n) v := by
  unfold State.writePa
  split
  · rename_i p h
    simp only [reduceCtorEq, false_iff, not_and]
    intro hp
    rw [absent_none.mpr hp] at h
    cases h
  · rename_i h
    exact ⟨fun he => ⟨absent_none.mp h, by cases he; rfl⟩, fun he => by rw [he.2]⟩

/-! ### The stack -/

/-- PUSH stores below rSP and moves it (20_memory.md R110). -/
theorem pushE_ok {s t : State} {bad : Trap} {n : Nat} {v : Quad} :
    s.pushE bad n v = .ok t ↔
      ∃ ps, s.accessE bad .ss (trunc s.stackWidth (s.gpr.rsp - BitVec.ofNat 64 n)) n true = .ok ps ∧
        t = (s.storeAt ps v.toNat).writeGpr s.stackWidth .rsp (trunc s.stackWidth (s.gpr.rsp - BitVec.ofNat 64 n)) :=
  bind_map_ok

/-- What holds of a state and is kept by every push is kept by pushing a list. -/
theorem pushAllE_induction {P : State → Prop} {bad : Trap} {n : Nat}
    (step : ∀ s t v, P s → s.pushE bad n v = .ok t → P t) :
    ∀ (vs : List Quad) (s t : State), P s → s.pushAllE bad n vs = .ok t → P t
  | [], s, t, hs, h => by
    cases h
    exact hs
  | v :: vs, s, t, hs, h => by
    obtain ⟨u, hu, h⟩ := bind_ok.mp h
    exact pushAllE_induction step vs u t (step s u v hs hu) h

/-- A push changes the memory and rSP only. -/
theorem pushE_frame {s t : State} {bad : Trap} {n : Nat} {v : Quad} (h : s.pushE bad n v = .ok t) :
    t = { s with mem := t.mem, gpr := { s.gpr with rsp := t.gpr.rsp } } := by
  obtain ⟨ps, -, rfl⟩ := pushE_ok.mp h
  rfl

/-- Pushing a list changes the memory and rSP only. -/
theorem pushAllE_frame {s t : State} {bad : Trap} {n : Nat} {vs : List Quad} (h : s.pushAllE bad n vs = .ok t) :
    t = { s with mem := t.mem, gpr := { s.gpr with rsp := t.gpr.rsp } } := by
  refine pushAllE_induction (P := fun t => t = { s with mem := t.mem, gpr := { s.gpr with rsp := t.gpr.rsp } })
    (fun u w x hu hw => ?_) vs s t rfl h
  have := pushE_frame hw
  rw [this, hu]

/-- POP answers the value at rSP and moves rSP (20_memory.md R110). -/
theorem pop_ok {s t : State} {n : Nat} {v : Quad} :
    s.pop n = .ok (v, t) ↔
      s.readMem .ss (trunc s.stackWidth s.gpr.rsp) n = .ok v ∧
        t = s.writeGpr s.stackWidth .rsp (s.gpr.rsp + BitVec.ofNat 64 n) := by
  constructor
  · intro h
    obtain ⟨w, hw, h⟩ := bind_ok.mp h
    cases h
    exact ⟨hw, rfl⟩
  · rintro ⟨h, rfl⟩
    simp [State.pop, h]

/-! ### The shadow stack -/

/-- A write to the shadow stack stores at the addresses of its span (20_memory.md R118). -/
theorem sstkWrite_ok {s t : State} {lin v : Quad} {n : Nat} :
    s.sstkWrite lin n v = .ok t ↔ ∃ ps, s.sstkSpan (s.cpl == 3) true lin n = .ok ps ∧ t = s.storeAt ps v.toNat :=
  bind_map_ok

/-- A token set busy changes memory only (20_memory.md R117). -/
theorem setTokenBusy_frame {s t : State} {ssp : Quad} (h : s.setTokenBusy ssp = .ok t) : ∃ ps v, t = s.storeAt ps v := by
  simp only [State.setTokenBusy, bind_ok, Except.ok.injEq] at h
  obtain ⟨_, -, _, -, u, hu, _, -, rfl⟩ := h
  obtain ⟨ps, -, rfl⟩ := sstkWrite_ok.mp hu
  exact ⟨ps, _, rfl⟩

/-- A token checked and released changes memory only (45_gp_r_s.md R571). -/
theorem clearToken_frame {s t : State} {ssp : Quad} {keep : Bool} (h : s.clearToken ssp keep = .ok t) : ∃ ps v, t = s.storeAt ps v := by
  simp only [State.clearToken, bind_ok] at h
  obtain ⟨_, -, h⟩ := h
  obtain ⟨ps, -, rfl⟩ := sstkWrite_ok.mp h
  exact ⟨ps, _, rfl⟩

/-- Aligning SSP changes memory and SSP only (41_gp_c.md R353). -/
theorem alignSsp_frame {s t : State} (h : s.alignSsp = .ok t) : t = { s with mem := t.mem, cet := { s.cet with ssp := t.cet.ssp } } := by
  unfold State.alignSsp at h
  split at h
  · obtain ⟨u, hu, h⟩ := bind_ok.mp h
    cases h
    obtain ⟨ps, -, rfl⟩ := sstkWrite_ok.mp hu
    rfl
  · cases h
    rfl

/-- The frame of a far transfer changes memory and SSP only (41_gp_c.md R353). -/
theorem pushSsFrame_frame {s t : State} {cs : BitVec 16} {lip old : Quad} (h : s.pushSsFrame cs lip old = .ok t) :
    t = { s with mem := t.mem, cet := { s.cet with ssp := t.cet.ssp } } := by
  simp only [State.pushSsFrame, bind_ok, Except.ok.injEq] at h
  obtain ⟨a, ha, b, hb, c, hc, rfl⟩ := h
  obtain ⟨ps, -, rfl⟩ := sstkWrite_ok.mp ha
  obtain ⟨qs, -, rfl⟩ := sstkWrite_ok.mp hb
  obtain ⟨rs, -, rfl⟩ := sstkWrite_ok.mp hc
  rfl

/-! ### Operands -/

/-- A place answers a register, or the addresses of an access (20_memory.md R120, R121). -/
theorem place_ok {s : State} {w : Width} {write : Bool} {r : RM} {p : Place} :
    s.place w write r = .ok p ↔
      (∃ g, r = .reg g ∧ p = .reg g) ∨ ∃ m ps, r = .mem m ∧ s.access m.seg (s.ea m) w.bytes write = .ok ps ∧ p = .mem ps := by
  cases r with
  | reg g => simp [State.place, eq_comm]
  | mem m =>
    refine bind_map_ok.trans ?_
    simp

/-- A source operand is the value at its place. -/
theorem readRM_ok {s : State} {w : Width} {r : RM} {v : Quad} :
    s.readRM w r = .ok v ↔ ∃ p, s.place w false r = .ok p ∧ v = s.getAt w p :=
  bind_map_ok

/-- A destination operand is written at its place. -/
theorem writeRM_ok {s t : State} {w : Width} {r : RM} {v : Quad} :
    s.writeRM w r v = .ok t ↔ ∃ p, s.place w true r = .ok p ∧ t = s.putAt w p v :=
  bind_map_ok

/-- A register written changes the general registers only. -/
theorem writeGReg_frame (s : State) (w : Width) (g : GReg) (v : Quad) :
    s.writeGReg w g v = { s with gpr := (s.writeGReg w g v).gpr } := by
  unfold State.writeGReg
  split <;> rfl

/-- A value put at a place changes one general register or memory. -/
theorem putAt_frame (s : State) (w : Width) (p : Place) (v : Quad) :
    s.putAt w p v = { s with gpr := (s.putAt w p v).gpr, mem := (s.putAt w p v).mem } := by
  cases p with
  | reg g =>
    simp only [State.putAt]
    unfold State.writeGReg
    split <;> rfl
  | mem ps => rfl

/-- A value put at a place keeps memory in its canonical form. -/
theorem putAt_memOk {s : State} (h : s.memOk) (w : Width) (p : Place) (v : Quad) : (s.putAt w p v).memOk := by
  cases p with
  | reg g =>
    show (s.writeGReg w g v).memOk
    rw [writeGReg_frame]
    exact h
  | mem ps => exact storeAt_memOk h ps _

/-! ### Control transfers and events -/

/-- The check of a target passes where the target lies in the code segment (20_memory.md R125). -/
theorem checkTarget_ok {s : State} {rip : Quad} : s.checkTarget rip = .ok () ↔ s.targetOk rip = true := by
  simp [State.checkTarget, State.targetOk, require_ok]

/-- The stack of an interrupt at an unchanged level: an IST entry changes RSP and SSP, and no IST entry changes nothing
(42_gp_d_j.md R412). -/
theorem sameStack_frame {s t : State} {ist : Nat} (h : s.sameStack ist = .ok t) :
    t = { s with gpr := { s.gpr with rsp := t.gpr.rsp }, cet := { s.cet with ssp := t.cet.ssp } } := by
  unfold State.sameStack at h
  split at h
  · cases h
    rfl
  · obtain ⟨sp, -, h⟩ := bind_ok.mp h
    dsimp only at h
    split at h
    · obtain ⟨_, -, h⟩ := bind_ok.mp h
      obtain ⟨_, -, h⟩ := bind_ok.mp h
      cases h
      rfl
    · cases h
      rfl

/-- INT1 completes with the entry that its #DB makes (31_opcode_maps.md R244). -/
theorem execInt1_ok {s t : State} (tf : s.flags.tf = false) (h : s.deliverOnce (s.excEvent int1Trap) = .ok t) :
    execInt1 s = .next t := by
  simp [execInt1, h, State.complete, tf]

/-- CR2 is all that noting a fault changes (60_exceptions.md R910). -/
theorem noteFault_frame (s : State) (x : Exn) :
    s.noteFault x = { s with ctl := { s.ctl with cr2 := (s.noteFault x).ctl.cr2 } } := by
  unfold State.noteFault
  split <;> rfl

/-- What delivery keeps is kept by taking an event, whatever exceptions come second (60_exceptions.md R925). -/
theorem deliverLoop_induction {P : State → Prop} (once : ∀ s t e, P s → s.deliverOnce e = .ok t → P t)
    (note : ∀ s x, P s → P (s.noteFault x)) (down : ∀ s, P s → P s.shutdown) :
    ∀ (n : Nat) (s t : State) (e : Event), P s → State.deliverLoop n s e = .next t → P t
  | 0, s, t, e, hs, h => by
    cases h
    exact down s hs
  | n + 1, s, t, e, hs, h => by
    simp only [State.deliverLoop] at h
    split at h
    · rename_i hd
      cases h
      exact once s _ e hs hd
    · split at h
      · cases h
        exact down _ (note s _ hs)
      · exact deliverLoop_induction once note down n _ t _ (note s _ hs) h
    · cases h
    · cases h

/-- What delivery keeps is kept by raising an exception (60_exceptions.md R906). -/
theorem raise_induction {P : State → Prop} (once : ∀ s t e, P s → s.deliverOnce e = .ok t → P t)
    (note : ∀ s x, P s → P (s.noteFault x)) (down : ∀ s, P s → P s.shutdown) {s t : State} {x : Exn} (hs : P s)
    (h : s.raise x = .next t) : P t :=
  deliverLoop_induction once note down 8 _ t _ (note s x hs) h

/-- What the start, the body, the single-step bit and delivery keep is kept by an instruction (60_exceptions.md R906, R926). -/
theorem run_induction {P : State → Prop} (once : ∀ s t e, P s → s.deliverOnce e = .ok t → P t)
    (note : ∀ s x, P s → P (s.noteFault x)) (down : ∀ s, P s → P s.shutdown)
    (bs : ∀ s : State, P s → P { s with dbg := { s.dbg with dr6 := s.dbg.dr6 ||| 0x4000 } })
    {s t : State} {body : State → Res State} (hs : P s) (hb : ∀ u, body s.start = .ok u → P u) (h : run s body = .next t) : P t := by
  rcases run_next h with ⟨u, hu, hc⟩ | ⟨x, -, hr⟩
  · unfold State.complete at hc
    split at hc
    · exact deliverLoop_induction once note down 8 _ t _ (bs u (hb u hu)) hc
    · cases hc
      exact hb _ hu
  · exact raise_induction once note down hs hr

/-- The code segment a gate names is read when its privilege rule, its type and its presence hold. -/
theorem readGateCs_ok {s : State} {sel : BitVec 16} {priv : SegAttr → Bool} {d : Quad} :
    s.readGateCs sel priv = .ok d ↔ s.readDesc (gpSel sel) sel = .ok d ∧ priv (descAttr d) = true ∧
      s.gateCode (descAttr d) = true ∧ (descAttr d).p = true := by
  unfold State.readGateCs
  simp only [bind_ok, require_ok, exists_const, Except.ok.injEq]
  constructor
  · rintro ⟨c, hc, h1, h2, h3, rfl⟩
    exact ⟨hc, h1, h2, h3⟩
  · rintro ⟨hc, h1, h2, h3⟩
    exact ⟨d, hc, h1, h2, h3, rfl⟩

/-- A task gate never completes: it ends in an exception or in the refusal of a task switch. -/
theorem taskGate_not_ok (s t : State) (gate : Quad) : s.taskGate gate ≠ .ok t := by
  simp [State.taskGate, bind_ok]

/-- A task gate that names a present, available TSS of the GDT asks for a task switch. -/
theorem taskGate_refuse {s : State} {gate d : Quad} (read : s.readDesc (gpSel (gateSel gate)) (gateSel gate) = .ok d)
    (gdt : (gateSel gate).getLsbD 2 = false) (sys : (descAttr d).s = false)
    (type : (descAttr d).type = 1 ∨ (descAttr d).type = 9) (present : (descAttr d).p = true) :
    s.taskGate gate = .error (.refuse .taskSwitch) := by
  have h : (!(gateSel gate).getLsbD 2 && !(descAttr d).s && ((descAttr d).type == 1 || (descAttr d).type == 9)) = true := by
    simp only [gdt, sys, Bool.not_false, Bool.true_and, Bool.or_eq_true, beq_iff_eq, type]
  simp only [State.taskGate, read, ok_bind, h, present, require_true]

/-! ### Ports -/

/-- IO_READ changes nothing but what the devices hold. -/
theorem ioRead_frame (s : State) (port : BitVec 16) (w : Width) :
    (s.ioRead port w).2 = { s with devices := (s.ioRead port w).2.devices } := by
  unfold State.ioRead; split <;> rfl

/-- IO_WRITE changes nothing but what the devices hold. -/
theorem ioWrite_frame (s : State) (port : BitVec 16) (w : Width) (v : Quad) :
    s.ioWrite port w v = { s with devices := (s.ioWrite port w v).devices } := by
  unfold State.ioWrite; split <;> rfl

/-- IO_READ by default. -/
theorem ioRead_default {s : State} (h : s.cfg.io = .default) (port : BitVec 16) (w : Width) :
    s.ioRead port w = (trunc w (BitVec.allOnes 64), s) := by
  simp [State.ioRead, h]

/-- IO_WRITE by default. -/
theorem ioWrite_default {s : State} (h : s.cfg.io = .default) (port : BitVec 16) (w : Width) (v : Quad) :
    s.ioWrite port w v = s := by
  simp [State.ioWrite, h]

/-! ### CPUID -/

/-- A row of `cpuid_table` changes no bit that is decided otherwise. -/
theorem CpuidWord.fill_fixed {c : CpuidWord} {n : Nat} (r : Option (BitVec 32)) (h : c.fixed.getLsbD n = true) :
    (c.fill r).getLsbD n = c.value.getLsbD n := by
  cases r <;> simp [CpuidWord.fill, h]

/-- A register that no row changes. -/
@[simp] theorem CpuidWord.fill_all (v : BitVec 32) (r : Option (BitVec 32)) : (CpuidWord.all v).fill r = v := by
  cases r with
  | none => rfl
  | some r =>
    apply BitVec.eq_of_getLsbD_eq
    intro i h
    simp only [CpuidWord.fill, CpuidWord.all, BitVec.getLsbD_or, BitVec.getLsbD_and, BitVec.getLsbD_not, BitVec.getLsbD_allOnes, h,
      decide_true, Bool.and_true, Bool.not_true, Bool.and_false, Bool.or_false]

/-- Four registers that no row changes. -/
@[simp] theorem CpuidFields.fill_all (v : CpuidRegs) (r : Option Config.CpuidRow) : (CpuidFields.all v).fill r = v := by
  simp [CpuidFields.fill, CpuidFields.all]

/-! ### The guest page walk -/

/-- Without paging the walk is that of the nested table, from the linear address. -/
theorem guestWalk_unpaged {s : State} (h : s.pg = false) (va : Quad) :
    s.guestWalk va = .nested ∨ ∃ system large, s.guestWalk va = .page system va.toNat large := by
  simp only [State.guestWalk, h, Bool.false_eq_true, if_false]
  split
  · exact .inr ⟨_, _, rfl⟩
  · exact .inl rfl

end Sys2Proof.Machine
end

