-- ==== Sys2Proof/Laws/Values.lean ====
section
/-! SUPPORT. The bit patterns and flags of the model as integers: `trunc`, `signed` and `ofInt` by `uns`, `sgn` and `wrap`,
and the flag functions of 10_state.md R55. -/

namespace Sys2Proof.Machine

theorem bits_pos (w : Width) : 0 < w.bits := by cases w <;> decide

theorem bits_le (w : Width) : w.bits ≤ 64 := by cases w <;> decide

theorem bits_ge (w : Width) : 8 ≤ w.bits := by cases w <;> decide

theorem uns_lt (w : Width) (v : Quad) : uns w v < 2 ^ w.bits := Nat.mod_lt _ (Nat.two_pow_pos _)

theorem pow_bits_le (w : Width) : 2 ^ w.bits ≤ 2 ^ 64 := Nat.pow_le_pow_right (by decide) (bits_le w)

/-- Truncation is reduction modulo 2^w. -/
@[simp] theorem trunc_toNat (w : Width) (v : Quad) : (trunc w v).toNat = uns w v := by
  have h : uns w v < 2 ^ 64 := Nat.lt_of_lt_of_le (uns_lt w v) (pow_bits_le w)
  simp only [trunc, BitVec.toNat_setWidth]
  exact Nat.mod_eq_of_lt h

theorem wrap_toNat (w : Width) (n : Int) : ((wrap w n).toNat : Int) = n % 2 ^ w.bits := by
  have h0 : (0 : Int) ≤ n % 2 ^ w.bits := Int.emod_nonneg _ (by positivity)
  have h1 : n % 2 ^ w.bits < 2 ^ w.bits := Int.emod_lt_of_pos _ (by positivity)
  have h2 : (2 : Int) ^ w.bits ≤ 2 ^ 64 := by exact_mod_cast pow_bits_le w
  simp only [wrap, BitVec.toNat_ofInt]
  rw [Int.emod_eq_of_lt h0 (by push_cast; omega), Int.toNat_of_nonneg h0]

theorem wrap_nat (w : Width) (n : Nat) : (wrap w n).toNat = n % 2 ^ w.bits := by
  have := wrap_toNat w n
  exact_mod_cast this

/-- A truncated number is its residue. -/
theorem trunc_ofNat (w : Width) (n : Nat) : trunc w (BitVec.ofNat 64 n) = wrap w n := by
  apply BitVec.eq_of_toNat_eq
  rw [wrap_nat, trunc_toNat, uns, BitVec.toNat_ofNat]
  exact Nat.mod_mod_of_dvd _ (Nat.pow_dvd_pow 2 (bits_le w))

theorem trunc_eq_wrap (w : Width) (v : Quad) : trunc w v = wrap w (uns w v) := by
  apply BitVec.eq_of_toNat_eq
  rw [wrap_nat, trunc_toNat, uns, Nat.mod_mod]

@[simp] theorem uns_wrap (w : Width) (n : Nat) : uns w (wrap w n) = n % 2 ^ w.bits := by
  simp [uns, wrap_nat]

theorem uns_trunc (w : Width) (v : Quad) : uns w (trunc w v) = uns w v := by
  simp [uns]

/-- `ofInt` is the residue. -/
theorem ofInt_eq (w : Width) (n : Int) : ofInt w n = wrap w n := by
  apply BitVec.eq_of_toNat_eq
  have h0 : (0 : Int) ≤ n % 2 ^ w.bits := Int.emod_nonneg _ (by positivity)
  have h1 : n % 2 ^ w.bits < 2 ^ w.bits := Int.emod_lt_of_pos _ (by positivity)
  have h2 : (2 : Int) ^ w.bits ≤ 2 ^ 64 := by exact_mod_cast pow_bits_le w
  have h3 := wrap_toNat w n
  simp only [ofInt, BitVec.toNat_setWidth, BitVec.toNat_ofInt]
  push_cast
  rw [Nat.mod_eq_of_lt (by omega)]
  omega

theorem pow_half (w : Width) : 2 ^ w.bits = 2 * 2 ^ (w.bits - 1) := by cases w <;> rfl

/-- `signed` is the signed value. -/
theorem signed_eq (w : Width) (v : Quad) : signed w v = sgn w v := by
  have h := pow_half w
  simp only [signed, sgn, BitVec.toInt, BitVec.toNat_setWidth]
  change (if 2 * uns w v < 2 ^ w.bits then _ else _) = _
  by_cases hv : uns w v < 2 ^ (w.bits - 1)
  · rw [if_pos (by omega), if_pos hv]
    rfl
  · rw [if_neg (by omega), if_neg hv]
    push_cast
    rfl

theorem testBit_uns (w : Width) (v : Quad) (i : Nat) (h : i < w.bits) : (uns w v).testBit i = v.getLsbD i := by
  simp [uns, Nat.testBit_mod_two_pow, h, BitVec.getLsbD]

theorem msbOf_eq (w : Width) (v : Quad) : msbOf w v = decide (2 ^ (w.bits - 1) ≤ uns w v) := by
  have hp := bits_pos w
  rw [msbOf, ← testBit_uns w v _ (by omega)]
  have h := uns_lt w v
  have h2 := pow_half w
  rw [Nat.testBit_eq_decide_div_mod_eq]
  congr 1
  have hq : uns w v / 2 ^ (w.bits - 1) < 2 := by
    apply Nat.div_lt_of_lt_mul
    omega
  rw [eq_iff_iff]
  constructor
  · intro hm
    by_contra hc
    rw [Nat.div_eq_of_lt (by omega)] at hm
    simp at hm
  · intro hm
    have : 1 ≤ uns w v / 2 ^ (w.bits - 1) := (Nat.one_le_div_iff (Nat.two_pow_pos _)).mpr hm
    omega

theorem parity_eq (w : Width) (v : Quad) : parity v = evenOnes (uns w v) := by
  have h := bits_ge w
  have e : ∀ i, i < 8 → (uns w v).testBit i = v.getLsbD i := fun i hi => testBit_uns w v i (by omega)
  have hr : List.range 8 = [0, 1, 2, 3, 4, 5, 6, 7] := rfl
  simp only [evenOnes, hr, List.countP_cons, List.countP_nil, e 0 (by decide), e 1 (by decide), e 2 (by decide),
    e 3 (by decide), e 4 (by decide), e 5 (by decide), e 6 (by decide), e 7 (by decide), parity]
  generalize v.getLsbD 0 = b0, v.getLsbD 1 = b1, v.getLsbD 2 = b2, v.getLsbD 3 = b3, v.getLsbD 4 = b4,
    v.getLsbD 5 = b5, v.getLsbD 6 = b6, v.getLsbD 7 = b7
  revert b0 b1 b2 b3 b4 b5 b6 b7
  decide

/-- The result flags by integers. -/
theorem result_eq (f : Flags) (w : Width) (r : Quad) : f.result w r = valueFlags f w r := by
  have h : (trunc w r == 0) = (uns w r == 0) := by
    rw [Bool.eq_iff_iff]
    simp only [beq_iff_eq]
    rw [← BitVec.toNat_inj, trunc_toNat]
    rfl
  simp only [Flags.result, valueFlags, msbOf_eq, h, parity_eq w]

theorem nibble_eq (w : Width) (v : Quad) : (v.extractLsb' 0 4).toNat = uns w v % 16 := by
  simp only [BitVec.extractLsb'_toNat, Nat.shiftRight_zero, uns]
  cases w <;> simp only [Width.bits] <;> omega

/-- Signed overflow of a sum by the sign bits and by integers. -/
theorem add_overflow (w : Width) (A B : Nat) (c : Bool) (ha : A < 2 ^ w.bits) (hb : B < 2 ^ w.bits) :
    ((decide (2 ^ (w.bits - 1) ≤ A) == decide (2 ^ (w.bits - 1) ≤ B)) &&
      (decide (2 ^ (w.bits - 1) ≤ (A + B + c.toNat) % 2 ^ w.bits) != decide (2 ^ (w.bits - 1) ≤ A))) =
    !fits w ((if A < 2 ^ (w.bits - 1) then (A : Int) else A - 2 ^ w.bits) +
      (if B < 2 ^ (w.bits - 1) then (B : Int) else B - 2 ^ w.bits) + c.toNat) := by
  have hM := pow_half w
  have hMi : (2 : Int) ^ w.bits = 2 * 2 ^ (w.bits - 1) := by exact_mod_cast hM
  have hcast : ((2 ^ (w.bits - 1) : Nat) : Int) = 2 ^ (w.bits - 1) := by push_cast; rfl
  have hc : c.toNat ≤ 1 := Bool.toNat_le c
  simp only [fits, hMi]
  rw [← hcast]
  have hmod : (A + B + c.toNat) % 2 ^ w.bits = A + B + c.toNat ∧ A + B + c.toNat < 2 ^ w.bits ∨
      (A + B + c.toNat) % 2 ^ w.bits + 2 ^ w.bits = A + B + c.toNat := by
    by_cases h : A + B + c.toNat < 2 ^ w.bits
    · exact .inl ⟨Nat.mod_eq_of_lt h, h⟩
    · right
      rw [Nat.mod_eq_sub_mod (by omega), Nat.mod_eq_of_lt (by omega)]
      omega
  generalize (A + B + c.toNat) % 2 ^ w.bits = R at *
  generalize 2 ^ (w.bits - 1) = M at *
  rw [Bool.eq_iff_iff]
  by_cases h1 : A < M <;> by_cases h2 : B < M <;> by_cases h3 : M ≤ R <;>
    simp [h1, h2, h3, Nat.not_le.mpr, Nat.not_lt.mp] <;> omega

/-- Signed overflow of a difference by the sign bits and by integers. -/
theorem sub_overflow (w : Width) (A B R : Nat) (c : Bool) (ha : A < 2 ^ w.bits) (hb : B < 2 ^ w.bits)
    (hr : (R : Int) = ((A : Int) - B - c.toNat) % 2 ^ w.bits) :
    ((decide (2 ^ (w.bits - 1) ≤ A) != decide (2 ^ (w.bits - 1) ≤ B)) &&
      (decide (2 ^ (w.bits - 1) ≤ R) != decide (2 ^ (w.bits - 1) ≤ A))) =
    !fits w ((if A < 2 ^ (w.bits - 1) then (A : Int) else A - 2 ^ w.bits) -
      (if B < 2 ^ (w.bits - 1) then (B : Int) else B - 2 ^ w.bits) - c.toNat) := by
  have hM := pow_half w
  have hMi : (2 : Int) ^ w.bits = 2 * 2 ^ (w.bits - 1) := by exact_mod_cast hM
  have hcast : ((2 ^ (w.bits - 1) : Nat) : Int) = 2 ^ (w.bits - 1) := by push_cast; rfl
  have hc : c.toNat ≤ 1 := Bool.toNat_le c
  simp only [fits]
  rw [hMi] at hr ⊢
  rw [← hcast] at hr ⊢
  rw [hM] at ha hb
  generalize 2 ^ (w.bits - 1) = M at *
  have hmod : (R : Int) = (A : Int) - B - c.toNat ∨ (R : Int) = (A : Int) - B - c.toNat + 2 * M := by
    by_cases h : (0 : Int) ≤ (A : Int) - B - c.toNat
    · left
      rw [hr, Int.emod_eq_of_lt h (by omega)]
    · right
      rw [hr, ← Int.add_emod_right, Int.emod_eq_of_lt (by omega) (by omega)]
  have h0 : (R : Int) < 2 * M := by
    rw [hr]
    exact Int.emod_lt_of_pos _ (by omega)
  clear hr
  rw [Bool.eq_iff_iff]
  by_cases h1 : A < M <;> by_cases h2 : B < M <;> by_cases h3 : M ≤ R <;>
    simp [h1, h2, h3, Nat.not_le.mpr, Nat.not_lt.mp] <;> omega

/-- `flags_add` by integers (10_state.md R55). -/
theorem addFlags_eq (f : Flags) (w : Width) (a b : Quad) (c : Bool) :
    addFlags f w a b c = (wrap w (uns w a + uns w b + c.toNat), sumFlags f w a b c) := by
  have hr : trunc w (BitVec.ofNat 64 (uns w a + uns w b + c.toNat)) = wrap w (uns w a + uns w b + c.toNat) := by
    rw [trunc_ofNat]
    push_cast
    rfl
  have hu : uns w (wrap w (uns w a + uns w b + c.toNat)) = (uns w a + uns w b + c.toNat) % 2 ^ w.bits := by
    rw [show ((uns w a : Int) + uns w b + c.toNat) = ((uns w a + uns w b + c.toNat : Nat) : Int) by push_cast; rfl, uns_wrap]
  have ha := uns_lt w a
  have hb := uns_lt w b
  simp only [addFlags, trunc_toNat, hr, sumFlags, result_eq, nibble_eq w, msbOf_eq, hu, sgn]
  rw [add_overflow w _ _ c ha hb]

/-- `flags_sub` by integers (10_state.md R55). -/
theorem subFlags_eq (f : Flags) (w : Width) (a b : Quad) (c : Bool) :
    subFlags f w a b c = (wrap w (uns w a - uns w b - c.toNat), diffFlags f w a b c) := by
  have ha := uns_lt w a
  have hb := uns_lt w b
  have hr : trunc w (a - b - bit c) = wrap w (uns w a - uns w b - c.toNat) := by
    apply BitVec.eq_of_toNat_eq
    have := wrap_toNat w (uns w a - uns w b - c.toNat)
    rw [trunc_toNat]
    simp only [uns, BitVec.toNat_sub, bit] at *
    have h1 := a.isLt
    have h2 := b.isLt
    cases w <;> cases c <;> simp only [Width.bits] at * <;> simp at * <;> omega
  have hu : (uns w (wrap w (uns w a - uns w b - c.toNat)) : Int) = (uns w a - uns w b - c.toNat) % 2 ^ w.bits := by
    have h := wrap_toNat w (uns w a - uns w b - c.toNat)
    rw [uns, Int.natCast_emod, h]
    push_cast
    exact Int.emod_emod_of_dvd _ (dvd_refl _)
  simp only [subFlags, trunc_toNat, hr, diffFlags, result_eq, nibble_eq w, msbOf_eq, sgn]
  rw [sub_overflow w _ _ _ c ha hb hu]

end Sys2Proof.Machine
end

