-- ==== Sys2Proof/Tests/Slice0.lean ====
section
/-! SUPPORT. Tests: words of the spec decode, ill-formed terms are refused, single steps from the spec's worked examples, and for
every statement with hypotheses a state that meets them. -/

namespace Sys2Proof.Tests

open Sys2Proof Sys2Proof.Machine

set_option Elab.async false

/-! ### States -/

/-- A value that is no exception. -/
def good {α : Type} (r : Res α) : Bool :=
  match r with
  | .ok _ => true
  | .error _ => false

/-- A value that is no exception, and what holds of it. -/
def goodAnd {α : Type} (r : Res α) (p : α → Bool) : Bool :=
  match r with
  | .ok a => p a
  | .error _ => false

/-- A next state, and what holds of it. -/
def nexts (o : Host.Outcome State Fault Refusal) (p : State → Bool) : Bool :=
  match o with
  | .next t => p t
  | _ => false

/-- Memory from addresses, numbers of bytes and values. -/
def memOf (l : List (Nat × Nat × Nat)) : List Host.Cell :=
  l.foldl (fun m x => Memory.store m (physRange x.1 x.2.1) x.2.2) []

/-- Attributes of a code segment. -/
def codeAttr (l d : Bool) (dpl : BitVec 2) : SegAttr :=
  { type := 0xB, s := true, dpl := dpl, p := true, avl := false, l := l, db := d, g := true }

/-- Attributes of a data segment. -/
def dataAttr (dpl : BitVec 2) : SegAttr :=
  { type := 0x3, s := true, dpl := dpl, p := true, avl := false, l := false, db := true, g := true }

/-- A flat segment. -/
def flat (sel : BitVec 16) (a : SegAttr) : SegReg := { sel := sel, base := 0, limit := 0xFFFFFFFF, attr := a }

/-- General registers for the tests; rSP at 3000h, rBX at 2000h. -/
def gprs : Gprs :=
  { Gprs.reset 0 with rax := 0x1122334455667788, rcx := 0x3, rdx := 0x7F, rbx := 0x2000, rsp := 0x3000, rbp := 0x3000, rsi := 0x2100, rdi := 0x2200 }

/-- Real mode: code at 1000h, data and stack at 0, the interrupt table at 0 with a handler at 300h:500h for every vector of
the tests. -/
def real : State :=
  { State.reset with
    gpr := gprs, rip := 0x100, nextRip := 0x102
    seg := { Segs.reset with cs := { sel := 0x100, base := 0x1000, limit := 0xFFFF, attr := .resetCode } }
    mem := memOf ([0, 1, 3, 4, 5, 6, 8, 13, 0x21].map fun v => (4 * v, 4, 0x03000500)) }

/-- Virtual-8086 mode at IOPL 3. -/
def virt : State :=
  { real with
    ctl := { real.ctl with cr0 := 0x11 }
    flags := { real.flags with vm := true, iopl := 3 }
    cpl := 3 }

/-- The descriptors of the tests at 5000h: code and data of levels 0 and 3, an LDT, a TSS, a call gate, and a task gate in
legacy mode; the interrupt table at 6000h with an interrupt gate of level 3 for every vector of the tests; the TSS at 7000h
with a stack for level 0. -/
def tables (long : Bool) : List Host.Cell :=
  let code : Nat := if long then 0x00AF00000000FFFF else 0x00CF00000000FFFF
  memOf ([(0x5008, 8, code + 0x9B0000000000), (0x5010, 8, 0x00CF93000000FFFF), (0x5018, 8, code + 0xFB0000000000),
    (0x5020, 8, 0x00CFF3000000FFFF), (0x5028, 8, 0x000082005800007F), (0x5038, 8, 0x0000890070002100),
    (0x5048, 8, 0x0000EC0000084400), (0x7004, 8, if long then 0x3800 else 0x1000003800)] ++
    (if long then [] else [(0x5058, 8, 0x0000E50000380000)]) ++
    [0, 1, 3, 4, 5, 6, 13, 0x80].map (fun v => (0x6000 + (if long then 16 else 8) * v, 8, 0x0000EE0000084800)))

/-- Protected mode with flat segments at level `cpl`: 64-bit mode, or 32-bit legacy mode. -/
def flatMode (long : Bool) (cpl : BitVec 2) : State :=
  let d := flat (if cpl = 0 then 0x10 else 0x23) (dataAttr cpl)
  { State.reset with
    gpr := gprs, rip := 0x1000, nextRip := 0x1003
    seg := { es := d, cs := flat (if cpl = 0 then 8 else 0x1B) (codeAttr long (!long) cpl), ss := d, ds := d, fs := d, gs := d }
    cpl := cpl
    gdtr := { base := 0x5000, limit := 0x7F }
    idtr := { base := 0x6000, limit := 0xFFF }
    tr := { sel := 0x38, base := 0x7000, limit := 0x2100, attr := .resetSystem 0xB }
    ctl := { cr0 := if long then 0x80000011 else 0x11, cr2 := 0, cr3 := 0, cr4 := 0x20, cr8 := 0, efer := if long then 0x501 else 1 }
    mem := tables long }

/-- 64-bit mode at level 0. -/
def long0 : State := flatMode true 0

/-- 64-bit mode at level 3. -/
def long3 : State := flatMode true 3

/-- 32-bit legacy protected mode at level 0. -/
def prot0 : State := flatMode false 0

/-- 32-bit legacy protected mode at level 3. -/
def prot3 : State := flatMode false 3

/-- A memory operand at rBX. -/
def atRbx : Mem := ⟨.ds, .reg .rbx, none, 0, .a64⟩

/-- A memory operand at EBX. -/
def atEbx : Mem := ⟨.ds, .reg .rbx, none, 0, .a32⟩

/-- A memory operand at BX. -/
def atBx : Mem := ⟨.ds, .reg .rbx, none, 0, .a16⟩

/-- The accumulator as a register operand. -/
def acc : GReg := ⟨.rax, false⟩

/-- rCX as a register operand. -/
def cxr : GReg := ⟨.rcx, false⟩

/-! ### Decoding -/

/-- The bytes are exactly the instruction. -/
def decodesTo (c : Ctx) (bs : List Byte) (i : Instr) : Bool :=
  match decode c bs with
  | .ok (j, n) => i == j && n == bs.length
  | .error _ => false

/-- The bytes are rejected for this reason. -/
def rejects (c : Ctx) (bs : List Byte) (e : DecodeError) : Bool :=
  match decode c bs with
  | .ok _ => false
  | .error x => x == e

/-- All bytes of an entry come before its #UD (30_encoding.md R162): opcode 82 in 64-bit mode, Group 8 /0, RORX with L = 1, BEXTR of
the XOP map with pp = 01, MOVMSKPS of a memory operand (60_exceptions.md R905); but a REX prefix before C4 rejects at once. -/
theorem test_reject_after_bytes :
    rejects .long64 [0x82, 0xC0] .truncated = true ∧ rejects .long64 [0x82, 0xC0, 0] .reserved = true ∧
    rejects .long64 [0x0F, 0xBA, 0x43, 0] .truncated = true ∧ rejects .long64 [0x0F, 0xBA, 0x43, 0, 0] .reserved = true ∧
    rejects .long64 [0xC4, 0xE3, 0x7F, 0xF0, 0xC1] .truncated = true ∧
    rejects .long64 [0xC4, 0xE3, 0x7F, 0xF0, 0xC1, 0] .badExtendedPrefix = true ∧
    rejects .long64 [0x8F, 0xEA, 0x79, 0x10, 0xC1, 0, 0, 0] .truncated = true ∧
    rejects .long64 [0x8F, 0xEA, 0x79, 0x10, 0xC1, 0, 0, 0, 0] .badExtendedPrefix = true ∧
    rejects .long64 [0x0F, 0x50, 0x03] .reserved = true ∧ rejects .long64 [0x66, 0x0F, 0x50, 0x43] .truncated = true ∧
    rejects .long64 [0x48, 0xC4] .truncated = true ∧ rejects .long64 [0x48, 0xC4, 0xE3] .badExtendedPrefix = true := by
  decide +kernel

/-- Every row's bytes are exactly its instruction. -/
def decodesAll (c : Ctx) (rows : List (List Byte × Instr)) : Bool := rows.all fun x => decodesTo c x.1 x.2

/-- Words of 64-bit mode, from the encodings of the opcode maps (31_opcode_maps.md R233 to R262). -/
theorem test_decode_long_1 : decodesAll .long64
    [([0x48, 0x01, 0xD8], .add .w64 (.rmReg (.reg ⟨.rax, false⟩) ⟨.rbx, false⟩) false),
     ([0x0B, 0x03], .or .w32 (.regRm ⟨.rax, false⟩ (.mem atRbx)) false),
     ([0x83, 0xD1, 0xFF], .adc .w32 (.rmImm (.reg ⟨.rcx, false⟩) (-1)) false),
     ([0x66, 0x81, 0xD9, 0x34, 0x12], .sbb .w16 (.rmImm (.reg ⟨.rcx, false⟩) 0x1234) false),
     ([0xF0, 0x20, 0x03], .and .w8 (.rmReg (.mem atRbx) ⟨.rax, false⟩) true),
     ([0x2C, 0x7F], .sub .w8 (.rmImm (.reg ⟨.rax, false⟩) 0x7F) false),
     ([0x48, 0x35, 0xFF, 0xFF, 0xFF, 0xFF], .xor .w64 (.rmImm (.reg ⟨.rax, false⟩) (-1)) false),
     ([0x38, 0xE5], .cmp .w8 (.rmReg (.reg ⟨.rcx, true⟩) ⟨.rax, true⟩)),
     ([0x66, 0x48, 0x0F, 0x38, 0xF6, 0xC1], .adcx .w64 .rax (.reg ⟨.rcx, false⟩)),
     ([0xF3, 0x0F, 0x38, 0xF6, 0xC1], .adox .w32 .rax (.reg ⟨.rcx, false⟩)),
     ([0xC4, 0xE2, 0x60, 0xF2, 0xC1], .andn .w32 .rax .rbx (.reg ⟨.rcx, false⟩)),
     ([0xC4, 0xE2, 0x60, 0xF7, 0xC1], .bextr .w32 .rax (.reg ⟨.rcx, false⟩) (.reg .rbx)),
     ([0x8F, 0xEA, 0x78, 0x10, 0xC1, 0x08, 0x04, 0x00, 0x00], .bextr .w32 .rax (.reg ⟨.rcx, false⟩) (.imm 0x408)),
     ([0x8F, 0xE9, 0x60, 0x01, 0xC9], .blcfill .w32 .rbx (.reg ⟨.rcx, false⟩)),
     ([0x8F, 0xE9, 0x60, 0x01, 0xD1], .blsfill .w32 .rbx (.reg ⟨.rcx, false⟩)),
     ([0x8F, 0xE9, 0x60, 0x01, 0xD9], .blcs .w32 .rbx (.reg ⟨.rcx, false⟩)),
     ([0x8F, 0xE9, 0x60, 0x01, 0xE1], .tzmsk .w32 .rbx (.reg ⟨.rcx, false⟩)),
     ([0x8F, 0xE9, 0x60, 0x01, 0xE9], .blcic .w32 .rbx (.reg ⟨.rcx, false⟩)),
     ([0x8F, 0xE9, 0x60, 0x01, 0xF1], .blsic .w32 .rbx (.reg ⟨.rcx, false⟩)),
     ([0x8F, 0xE9, 0x60, 0x01, 0xF9], .t1mskc .w32 .rbx (.reg ⟨.rcx, false⟩)),
     ([0x8F, 0xE9, 0x60, 0x02, 0xC9], .blcmsk .w32 .rbx (.reg ⟨.rcx, false⟩)),
     ([0x8F, 0xE9, 0x60, 0x02, 0xF1], .blci .w32 .rbx (.reg ⟨.rcx, false⟩)),
     ([0xC4, 0xE2, 0xE0, 0xF3, 0xC9], .blsr .w64 .rbx (.reg ⟨.rcx, false⟩)),
     ([0xC4, 0xE2, 0xE0, 0xF3, 0xD1], .blsmsk .w64 .rbx (.reg ⟨.rcx, false⟩)),
     ([0xC4, 0xE2, 0xE0, 0xF3, 0xD9], .blsi .w64 .rbx (.reg ⟨.rcx, false⟩)),
     ([0x0F, 0xBC, 0xC1], .bsf .w32 .rax (.reg ⟨.rcx, false⟩)), ([0x0F, 0xBD, 0xC1], .bsr .w32 .rax (.reg ⟨.rcx, false⟩)),
     ([0x48, 0x0F, 0xC9], .bswap .w64 .rcx), ([0x0F, 0xA3, 0xC1], .bt .w32 (.reg ⟨.rcx, false⟩) (.reg .rax)),
     ([0x0F, 0xBA, 0xF9, 0x05], .btc .w32 (.reg ⟨.rcx, false⟩) (.imm 5) false),
     ([0xF0, 0x0F, 0xB3, 0x03], .btr .w32 (.mem atRbx) (.reg .rax) true),
     ([0x48, 0x0F, 0xAB, 0xC1], .bts .w64 (.reg ⟨.rcx, false⟩) (.reg .rax) false),
     ([0xC4, 0xE2, 0x60, 0xF5, 0xC1], .bzhi .w32 .rax (.reg ⟨.rcx, false⟩) .rbx),
     ([0xE8, 0xFB, 0xFF, 0xFF, 0xFF], .call .w64 (.rel (-5))), ([0xFF, 0xD0], .call .w64 (.rm (.reg ⟨.rax, false⟩))),
     ([0xFF, 0x1B], .callFar .w32 (.mem atRbx)), ([0x0F, 0xAE, 0x3B], .clflush atRbx),
     ([0x66, 0x0F, 0xAE, 0x3B], .clflushopt atRbx), ([0x66, 0x0F, 0xAE, 0x33], .clwb atRbx),
     ([0x0F, 0x01, 0xFC], .clzero .ds .a64)] = true := by
  decide +kernel

/-- Words of 64-bit mode, from the encodings of the opcode maps (31_opcode_maps.md R233 to R262). -/
theorem test_decode_long_2 : decodesAll .long64
    [([0x0F, 0x40, 0xC1], .cmovo .w32 .rax (.reg ⟨.rcx, false⟩)),
     ([0x0F, 0x41, 0xC1], .cmovno .w32 .rax (.reg ⟨.rcx, false⟩)),
     ([0x0F, 0x42, 0xC1], .cmovb .w32 .rax (.reg ⟨.rcx, false⟩)),
     ([0x0F, 0x43, 0xC1], .cmovnb .w32 .rax (.reg ⟨.rcx, false⟩)),
     ([0x0F, 0x44, 0xC1], .cmovz .w32 .rax (.reg ⟨.rcx, false⟩)),
     ([0x0F, 0x45, 0xC1], .cmovnz .w32 .rax (.reg ⟨.rcx, false⟩)),
     ([0x0F, 0x46, 0xC1], .cmovbe .w32 .rax (.reg ⟨.rcx, false⟩)),
     ([0x0F, 0x47, 0xC1], .cmovnbe .w32 .rax (.reg ⟨.rcx, false⟩)),
     ([0x0F, 0x48, 0xC1], .cmovs .w32 .rax (.reg ⟨.rcx, false⟩)),
     ([0x0F, 0x49, 0xC1], .cmovns .w32 .rax (.reg ⟨.rcx, false⟩)),
     ([0x0F, 0x4A, 0xC1], .cmovp .w32 .rax (.reg ⟨.rcx, false⟩)),
     ([0x0F, 0x4B, 0xC1], .cmovnp .w32 .rax (.reg ⟨.rcx, false⟩)),
     ([0x0F, 0x4C, 0xC1], .cmovl .w32 .rax (.reg ⟨.rcx, false⟩)),
     ([0x0F, 0x4D, 0xC1], .cmovnl .w32 .rax (.reg ⟨.rcx, false⟩)),
     ([0x0F, 0x4E, 0xC1], .cmovle .w32 .rax (.reg ⟨.rcx, false⟩)),
     ([0x0F, 0x4F, 0xC1], .cmovnle .w32 .rax (.reg ⟨.rcx, false⟩)), ([0xF3, 0xA6], .cmpsb .ds .a64 .repe),
     ([0x48, 0xA7], .cmpsv .w64 .ds .a64 .none),
     ([0x0F, 0xB1, 0xD9], .cmpxchg .w32 (.reg ⟨.rcx, false⟩) ⟨.rbx, false⟩ false),
     ([0x0F, 0xC7, 0x0B], .cmpxchg8b atRbx false), ([0xF0, 0x48, 0x0F, 0xC7, 0x0B], .cmpxchg16b atRbx true),
     ([0xF2, 0x0F, 0x38, 0xF1, 0xC1], .crc32 .w32 false .rax (.reg ⟨.rcx, false⟩)),
     ([0xFE, 0xC9], .dec .w8 (.reg ⟨.rcx, false⟩) false), ([0xF7, 0xF1], .div .w32 (.reg ⟨.rcx, false⟩)),
     ([0xC8, 0x10, 0x00, 0x01], .enter .w64 0x10 1), ([0xF7, 0xF9], .idiv .w32 (.reg ⟨.rcx, false⟩)),
     ([0xF7, 0xE9], .imul .w32 (.acc (.reg ⟨.rcx, false⟩))),
     ([0x0F, 0xAF, 0xC1], .imul .w32 (.regRm .rax (.reg ⟨.rcx, false⟩))),
     ([0x6B, 0xC1, 0xFE], .imul .w32 (.regRmImm .rax (.reg ⟨.rcx, false⟩) (-2))), ([0xE4, 0x60], .inp .w8 (.imm 0x60)),
     ([0xED], .inp .w32 .dx), ([0xFF, 0xC1], .inc .w32 (.reg ⟨.rcx, false⟩) false), ([0x6C], .insb .a64 .none),
     ([0x66, 0x6D], .insw .a64 .none), ([0x6D], .insd .a64 .none), ([0xCD, 0x80], .int 0x80), ([0x70, 0xFE], .jo .w64 (-2)),
     ([0x71, 0xFE], .jno .w64 (-2)), ([0x72, 0xFE], .jb .w64 (-2)), ([0x73, 0xFE], .jnb .w64 (-2))] = true := by
  decide +kernel

/-- Words of 64-bit mode, from the encodings of the opcode maps (31_opcode_maps.md R233 to R262). -/
theorem test_decode_long_3 : decodesAll .long64
    [([0x74, 0xFE], .jz .w64 (-2)), ([0x75, 0xFE], .jnz .w64 (-2)), ([0x76, 0xFE], .jbe .w64 (-2)),
     ([0x77, 0xFE], .jnbe .w64 (-2)), ([0x78, 0xFE], .js .w64 (-2)), ([0x79, 0xFE], .jns .w64 (-2)),
     ([0x7A, 0xFE], .jp .w64 (-2)), ([0x7B, 0xFE], .jnp .w64 (-2)), ([0x7C, 0xFE], .jl .w64 (-2)),
     ([0x7D, 0xFE], .jnl .w64 (-2)), ([0x7E, 0xFE], .jle .w64 (-2)), ([0x7F, 0xFE], .jnle .w64 (-2)),
     ([0xE3, 0xFE], .jrcxz .w64 (-2)), ([0xEB, 0xFE], .jmp .w64 (.rel (-2))), ([0xFF, 0x2B], .jmpFar .w32 (.mem atRbx)),
     ([0x0F, 0xB4, 0x03], .lfs .w32 .rax atRbx), ([0x0F, 0xB5, 0x03], .lgs .w32 .rax atRbx),
     ([0x0F, 0xB2, 0x03], .lss .w32 .rax atRbx),
     ([0x48, 0x8D, 0x44, 0x8B, 0x08], .lea .w64 .rax ⟨.ds, .reg .rbx, some ⟨.rcx, 2⟩, 8, .a64⟩), ([0xC9], .leave .w64),
     ([0x8F, 0xE9, 0x78, 0x12, 0xC1], .llwpcb .w32 .rcx), ([0x8F, 0xE9, 0x78, 0x12, 0xC9], .slwpcb .w32 .rcx),
     ([0xAC], .lodsb .ds .a64 .none), ([0x64, 0x48, 0xAD], .lodsv .w64 .fs .a64 .none),
     ([0xE2, 0xFE], .loop .w64 .a64 (-2)), ([0xE1, 0xFE], .loope .w64 .a64 (-2)),
     ([0x67, 0xE0, 0xFE], .loopne .w64 .a32 (-2)),
     ([0x8F, 0xEA, 0x60, 0x12, 0xC1, 0x78, 0x56, 0x34, 0x12], .lwpins .w32 .rbx (.reg ⟨.rcx, false⟩) 0x12345678),
     ([0x8F, 0xEA, 0x60, 0x12, 0xC9, 0x78, 0x56, 0x34, 0x12], .lwpval .w32 .rbx (.reg ⟨.rcx, false⟩) 0x12345678),
     ([0xF3, 0x0F, 0xBD, 0xC1], .lzcnt .w32 .rax (.reg ⟨.rcx, false⟩)),
     ([0xF3, 0x0F, 0xBC, 0xC1], .tzcnt .w32 .rax (.reg ⟨.rcx, false⟩)),
     ([0xF3, 0x0F, 0xB8, 0xC1], .popcnt .w32 .rax (.reg ⟨.rcx, false⟩)), ([0x0F, 0x01, 0xFA], .monitorx .ds .a64),
     ([0x0F, 0x01, 0xFB], .mwaitx), ([0x88, 0xC1], .mov (.rmReg .w8 (.reg ⟨.rcx, false⟩) ⟨.rax, false⟩)),
     ([0x8B, 0x03], .mov (.regRm .w32 ⟨.rax, false⟩ (.mem atRbx))),
     ([0xC6, 0x03, 0x7F], .mov (.rmImm .w8 (.mem atRbx) 0x7F)),
     ([0x48, 0xC7, 0xC1, 0xFF, 0xFF, 0xFF, 0xFF], .mov (.rmImm .w64 (.reg ⟨.rcx, false⟩) (-1))),
     ([0x49, 0xB8, 0x88, 0x77, 0x66, 0x55, 0x44, 0x33, 0x22, 0x11], .mov (.rmImm .w64 (.reg ⟨.r8, false⟩) 0x1122334455667788)),
     ([0xA0, 0x88, 0x77, 0x66, 0x55, 0x44, 0x33, 0x22, 0x11], .mov (.load .w8 .ds .a64 0x1122334455667788))] = true := by
  decide +kernel

/-- Words of 64-bit mode, from the encodings of the opcode maps (31_opcode_maps.md R233 to R262). -/
theorem test_decode_long_4 : decodesAll .long64
    [([0xA3, 0x88, 0x77, 0x66, 0x55, 0x44, 0x33, 0x22, 0x11], .mov (.store .w32 .ds .a64 0x1122334455667788)),
     ([0x8C, 0xD9], .mov (.fromSeg .w32 (.reg ⟨.rcx, false⟩) .ds)), ([0x8E, 0xD1], .mov (.toSeg .ss (.reg ⟨.rcx, false⟩))),
     ([0x0F, 0x20, 0xD9], .mov (.fromCr false 3 .rcx)), ([0x44, 0x0F, 0x22, 0xC1], .mov (.toCr false 8 .rcx)),
     ([0x0F, 0x21, 0xF9], .mov (.fromDr 7 .rcx)), ([0x0F, 0x23, 0xF9], .mov (.toDr 7 .rcx)),
     ([0x0F, 0x38, 0xF0, 0x03], .movbe .w32 (.load .rax atRbx)),
     ([0x0F, 0x38, 0xF1, 0x03], .movbe .w32 (.store atRbx .rax)),
     ([0x66, 0x0F, 0x6E, 0xC1], .movd false (.toXmm 0 (.reg ⟨.rcx, false⟩))),
     ([0x66, 0x48, 0x0F, 0x7E, 0xC1], .movd true (.fromXmm (.reg ⟨.rcx, false⟩) 0)),
     ([0x0F, 0x6E, 0xC1], .movd false (.toMmx 0 (.reg ⟨.rcx, false⟩))),
     ([0x0F, 0x7E, 0xC1], .movd false (.fromMmx (.reg ⟨.rcx, false⟩) 0)), ([0x66, 0x0F, 0x50, 0xC1], .movmskpd .rax 1),
     ([0x0F, 0x50, 0xC1], .movmskps .rax 1), ([0x0F, 0xC3, 0x03], .movnti .w32 atRbx .rax),
     ([0xF3, 0xA4], .movsb .ds .a64 .repe), ([0xA5], .movsv .w32 .ds .a64 .none),
     ([0x0F, 0xBE, 0xC1], .movsx .w32 .w8 .rax (.reg ⟨.rcx, false⟩)),
     ([0x48, 0x63, 0xC1], .movsxd .w64 .rax (.reg ⟨.rcx, false⟩)),
     ([0x0F, 0xB7, 0xC1], .movzx .w32 .w16 .rax (.reg ⟨.rcx, false⟩)), ([0xF7, 0xE1], .mul .w32 (.reg ⟨.rcx, false⟩)),
     ([0xC4, 0xE2, 0x63, 0xF6, 0xC1], .mulx .w32 .rax .rbx (.reg ⟨.rcx, false⟩)),
     ([0xF7, 0xD9], .neg .w32 (.reg ⟨.rcx, false⟩) false), ([0x90], .nop none),
     ([0x0F, 0x1F, 0x03], .nop (some (.mem atRbx))), ([0xF7, 0xD1], .not .w32 (.reg ⟨.rcx, false⟩) false),
     ([0xE6, 0x60], .out .w8 (.imm 0x60)), ([0x66, 0xEF], .out .w16 .dx), ([0x6E], .outsb .ds .a64 .none),
     ([0x66, 0x6F], .outsw .ds .a64 .none), ([0xF3, 0x6F], .outsd .ds .a64 .repe),
     ([0xC4, 0xE2, 0x63, 0xF5, 0xC1], .pdep .w32 .rax .rbx (.reg ⟨.rcx, false⟩)),
     ([0xC4, 0xE2, 0x62, 0xF5, 0xC1], .pext .w32 .rax .rbx (.reg ⟨.rcx, false⟩)),
     ([0x59], .pop .w64 (.rm (.reg ⟨.rcx, false⟩))), ([0x0F, 0xA1], .pop .w64 (.seg .fs)),
     ([0x0F, 0x0D, 0x03], .prefetch atRbx), ([0x0F, 0x0D, 0x0B], .prefetchw atRbx),
     ([0x0F, 0x18, 0x03], .prefetchnta atRbx), ([0x0F, 0x18, 0x0B], .prefetcht0 atRbx)] = true := by
  decide +kernel

/-- Words of 64-bit mode, from the encodings of the opcode maps (31_opcode_maps.md R233 to R262). -/
theorem test_decode_long_5 : decodesAll .long64
    [([0x0F, 0x18, 0x13], .prefetcht1 atRbx), ([0x0F, 0x18, 0x1B], .prefetcht2 atRbx),
     ([0x51], .push .w64 (.rm (.reg ⟨.rcx, false⟩))), ([0x6A, 0xFF], .push .w64 (.imm (-1))),
     ([0x0F, 0xA8], .push .w64 (.seg .gs)), ([0xC1, 0xC1, 0x03], .rol .w32 (.reg ⟨.rcx, false⟩) (.imm 3)),
     ([0xD1, 0xC9], .ror .w32 (.reg ⟨.rcx, false⟩) .one), ([0xD3, 0xD1], .rcl .w32 (.reg ⟨.rcx, false⟩) .cl),
     ([0xC0, 0xD9, 0x01], .rcr .w8 (.reg ⟨.rcx, false⟩) (.imm 1)), ([0xD0, 0xE1], .shl .w8 (.reg ⟨.rcx, false⟩) .one),
     ([0x66, 0xC1, 0xE9, 0x04], .shr .w16 (.reg ⟨.rcx, false⟩) (.imm 4)),
     ([0x48, 0xD3, 0xF9], .sar .w64 (.reg ⟨.rcx, false⟩) .cl), ([0xF3, 0x0F, 0xAE, 0xC1], .rdfsbase .w32 .rcx),
     ([0xF3, 0x0F, 0xAE, 0xC9], .rdgsbase .w32 .rcx), ([0xF3, 0x0F, 0xAE, 0xD1], .wrfsbase .w32 .rcx),
     ([0xF3, 0x48, 0x0F, 0xAE, 0xD9], .wrgsbase .w64 .rcx), ([0xF3, 0x0F, 0xC7, 0xF9], .rdpid .rcx),
     ([0x0F, 0xC7, 0xF1], .rdrand .w32 .rcx), ([0x48, 0x0F, 0xC7, 0xF9], .rdseed .w64 .rcx), ([0xC3], .ret .w64 0),
     ([0xC2, 0x08, 0x00], .ret .w64 8), ([0xCB], .retf .w32 0), ([0x48, 0xCA, 0x08, 0x00], .retf .w64 8),
     ([0xC4, 0xE3, 0x7B, 0xF0, 0xC1, 0x05], .rorx .w32 .rax (.reg ⟨.rcx, false⟩) 5),
     ([0xC4, 0xE2, 0x62, 0xF7, 0xC1], .sarx .w32 .rax (.reg ⟨.rcx, false⟩) .rbx),
     ([0xC4, 0xE2, 0x61, 0xF7, 0xC1], .shlx .w32 .rax (.reg ⟨.rcx, false⟩) .rbx),
     ([0xC4, 0xE2, 0x63, 0xF7, 0xC1], .shrx .w32 .rax (.reg ⟨.rcx, false⟩) .rbx), ([0xF2, 0xAE], .scasb .a64 .repne),
     ([0xAF], .scasv .w32 .a64 .none), ([0x0F, 0x90, 0xC1], .seto (.reg ⟨.rcx, false⟩)),
     ([0x0F, 0x91, 0xC1], .setno (.reg ⟨.rcx, false⟩)), ([0x0F, 0x92, 0xC1], .setb (.reg ⟨.rcx, false⟩)),
     ([0x0F, 0x93, 0xC1], .setnb (.reg ⟨.rcx, false⟩)), ([0x0F, 0x94, 0xC1], .setz (.reg ⟨.rcx, false⟩)),
     ([0x0F, 0x95, 0xC1], .setnz (.reg ⟨.rcx, false⟩)), ([0x0F, 0x96, 0xC1], .setbe (.reg ⟨.rcx, false⟩)),
     ([0x0F, 0x97, 0xC1], .setnbe (.reg ⟨.rcx, false⟩)), ([0x0F, 0x98, 0xC1], .sets (.reg ⟨.rcx, false⟩)),
     ([0x0F, 0x99, 0xC1], .setns (.reg ⟨.rcx, false⟩)), ([0x0F, 0x9A, 0xC1], .setp (.reg ⟨.rcx, false⟩))] = true := by
  decide +kernel

/-- Words of 64-bit mode, from the encodings of the opcode maps (31_opcode_maps.md R233 to R262). -/
theorem test_decode_long_6 : decodesAll .long64
    [([0x0F, 0x9B, 0xC1], .setnp (.reg ⟨.rcx, false⟩)), ([0x0F, 0x9C, 0xC1], .setl (.reg ⟨.rcx, false⟩)),
     ([0x0F, 0x9D, 0xC1], .setnl (.reg ⟨.rcx, false⟩)), ([0x0F, 0x9E, 0xC1], .setle (.reg ⟨.rcx, false⟩)),
     ([0x0F, 0x9F, 0xC1], .setnle (.reg ⟨.rcx, false⟩)),
     ([0x0F, 0xA4, 0xC1, 0x05], .shld .w32 (.reg ⟨.rcx, false⟩) .rax (.imm 5)),
     ([0x0F, 0xAD, 0xC1], .shrd .w32 (.reg ⟨.rcx, false⟩) .rax .cl), ([0xF3, 0xAA], .stosb .a64 .repe),
     ([0x48, 0xAB], .stosv .w64 .a64 .none), ([0x85, 0xC1], .test .w32 (.reg ⟨.rcx, false⟩) (.reg ⟨.rax, false⟩)),
     ([0xA8, 0x01], .test .w8 (.reg ⟨.rax, false⟩) (.imm 1)),
     ([0x0F, 0xC1, 0xC1], .xadd .w32 (.reg ⟨.rcx, false⟩) ⟨.rax, false⟩ false),
     ([0x87, 0xC1], .xchg .w32 (.reg ⟨.rcx, false⟩) ⟨.rax, false⟩ false), ([0xD7], .xlat .ds .a64),
     ([0xF3, 0x0F, 0xAE, 0x33], .clrssbsy atRbx), ([0xF3, 0x0F, 0xAE, 0xE9], .incsspd .rcx),
     ([0xF3, 0x48, 0x0F, 0xAE, 0xE9], .incsspq .rcx), ([0x0F, 0x01, 0x3B], .invlpg atRbx),
     ([0x0F, 0x01, 0xDF], .invlpga .ds .a64), ([0x0F, 0x01, 0xFE], .invlpgb .ds .a64),
     ([0x66, 0x0F, 0x38, 0x82, 0x03], .invpcid .rax atRbx), ([0x0F, 0x02, 0xC1], .lar .w32 .rax (.reg ⟨.rcx, false⟩)),
     ([0x0F, 0x01, 0x13], .lgdt .w64 atRbx), ([0x0F, 0x01, 0x1B], .lidt .w64 atRbx),
     ([0x0F, 0x00, 0xD1], .lldt (.reg ⟨.rcx, false⟩)), ([0x0F, 0x01, 0xF1], .lmsw (.reg ⟨.rcx, false⟩)),
     ([0x0F, 0x03, 0xC1], .lsl .w32 .rax (.reg ⟨.rcx, false⟩)), ([0x0F, 0x00, 0xD9], .ltr (.reg ⟨.rcx, false⟩)),
     ([0x0F, 0x01, 0xC8], .monitor .ds .a64), ([0xF3, 0x0F, 0x01, 0xFF], .psmash .a64),
     ([0xF2, 0x0F, 0x01, 0xFF], .pvalidate .a64), ([0xF3, 0x0F, 0x1E, 0xC9], .rdsspd .rcx),
     ([0xF3, 0x48, 0x0F, 0x1E, 0xC9], .rdsspq .rcx), ([0xF3, 0x0F, 0x01, 0xFE], .rmpadjust .a64),
     ([0xF2, 0x0F, 0x01, 0xFE], .rmpupdate .ds .a64), ([0xF3, 0x0F, 0x01, 0x2B], .rstorssp atRbx),
     ([0x0F, 0x01, 0x03], .sgdt atRbx), ([0x0F, 0x01, 0x0B], .sidt atRbx),
     ([0x0F, 0x00, 0xC1], .sldt .w32 (.reg ⟨.rcx, false⟩)), ([0x0F, 0x01, 0xE1], .smsw .w32 (.reg ⟨.rcx, false⟩))] = true := by
  decide +kernel

/-- Words of 64-bit mode, from the encodings of the opcode maps (31_opcode_maps.md R233 to R262). -/
theorem test_decode_long_7 : decodesAll .long64
    [([0x0F, 0x00, 0xC9], .str .w32 (.reg ⟨.rcx, false⟩)), ([0x48, 0x0F, 0x07], .sysret .w64),
     ([0x0F, 0x00, 0xE1], .verr (.reg ⟨.rcx, false⟩)), ([0x0F, 0x00, 0xE9], .verw (.reg ⟨.rcx, false⟩)),
     ([0x0F, 0x01, 0xDA], .vmload .a64), ([0x0F, 0x01, 0xD8], .vmrun .a64), ([0x0F, 0x01, 0xDB], .vmsave .a64),
     ([0x0F, 0x38, 0xF6, 0x03], .wrssd atRbx .rax), ([0x48, 0x0F, 0x38, 0xF6, 0x03], .wrssq atRbx .rax),
     ([0x66, 0x0F, 0x38, 0xF5, 0x03], .wrussd atRbx .rax), ([0x66, 0x48, 0x0F, 0x38, 0xF5, 0x03], .wrussq atRbx .rax),
     ([0xC4, 0xE1, 0x78, 0x58], .prefixVex3 1 0x58), ([0xC5, 0xF8, 0x58], .prefixVex2 0x58),
     ([0x8F, 0xE8, 0x78, 0xA2], .prefixXop 8 0xA2), ([0x0F, 0x58, 0xC1], .escape0F 0x58 0xC1),
     ([0x0F, 0x38, 0x00, 0xC1], .escape0F38 0 0xC1), ([0x0F, 0x3A, 0x0F, 0xC1, 0x01], .escape0F3A 0x0F 0xC1),
     ([0xD8, 0xC1], .x87 0 0xC1), ([0x0F, 0x0F, 0xC1, 0x9E], .threeDNow 0x9E 0xC1), ([0xF7, 0xC9], .reservedGroup3 .w32),
     ([0x66, 0x98], .cbw), ([0x98], .cwde), ([0x48, 0x98], .cdqe), ([0x66, 0x99], .cwd), ([0x99], .cdq),
     ([0x48, 0x99], .cqo), ([0xF8], .clc), ([0xFC], .cld), ([0xF5], .cmc), ([0x0F, 0xA2], .cpuid), ([0x9F], .lahf),
     ([0x0F, 0xAE, 0xE8], .lfence), ([0xF3, 0x0F, 0x01, 0xFA], .mcommit), ([0x0F, 0xAE, 0xF0], .mfence),
     ([0xF3, 0x90], .pause), ([0x66, 0x9D], .popf), ([0x9D], .popfq), ([0x66, 0x9C], .pushf), ([0x9C], .pushfq),
     ([0x0F, 0x01, 0xFD], .rdpru)] = true := by
  decide +kernel

/-- Words of 64-bit mode, from the encodings of the opcode maps (31_opcode_maps.md R233 to R262). -/
theorem test_decode_long_8 : decodesAll .long64
    [([0x9E], .sahf), ([0x0F, 0xAE, 0xF8], .sfence), ([0xF9], .stc), ([0xFD], .std), ([0x0F, 0xFF], .ud0),
     ([0x0F, 0xB9], .ud1), ([0x0F, 0x0B], .ud2), ([0x0F, 0x01, 0xCA], .clac), ([0x0F, 0x01, 0xDD], .clgi), ([0xFA], .cli),
     ([0x0F, 0x06], .clts), ([0xF4], .hlt), ([0xCC], .int3), ([0x0F, 0x08], .invd), ([0x66, 0xCF], .iret), ([0xCF], .iretd),
     ([0x48, 0xCF], .iretq), ([0x0F, 0x01, 0xC9], .mwait), ([0x0F, 0x32], .rdmsr), ([0x0F, 0x01, 0xEE], .rdpkru),
     ([0x0F, 0x33], .rdpmc), ([0x0F, 0x31], .rdtsc), ([0x0F, 0x01, 0xF9], .rdtscp), ([0x0F, 0xAA], .rsm),
     ([0xF3, 0x0F, 0x01, 0xEA], .saveprevssp), ([0xF3, 0x0F, 0x01, 0xE8], .setssbsy), ([0x0F, 0x01, 0xDE], .skinit),
     ([0x0F, 0x01, 0xCB], .stac), ([0xFB], .sti), ([0x0F, 0x01, 0xDC], .stgi), ([0x0F, 0x01, 0xF8], .swapgs),
     ([0x0F, 0x05], .syscall), ([0x0F, 0x34], .sysenter), ([0x0F, 0x35], .sysexit), ([0x0F, 0x01, 0xFF], .tlbsync),
     ([0x0F, 0x01, 0xD9], .vmmcall), ([0xF3, 0x0F, 0x01, 0xD9], .vmgexit), ([0x0F, 0x09], .wbinvd),
     ([0xF3, 0x0F, 0x09], .wbnoinvd), ([0x0F, 0x30], .wrmsr)] = true := by
  decide +kernel

/-- Words of 64-bit mode, from the encodings of the opcode maps (31_opcode_maps.md R233 to R262). -/
theorem test_decode_long_9 : decodesAll .long64
    [([0x0F, 0x01, 0xEF], .wrpkru), ([0x9B], .wait), ([0xF1], .int1), ([0xD6], .reservedD6),
     (List.replicate 15 0x66, .prefixOpSize), (List.replicate 15 0x67, .prefixAddrSize),
     (List.replicate 15 0x2E, .prefixCs), (List.replicate 15 0x3E, .prefixDs), (List.replicate 15 0x26, .prefixEs),
     (List.replicate 15 0x64, .prefixFs), (List.replicate 15 0x65, .prefixGs), (List.replicate 15 0x36, .prefixSs),
     (List.replicate 15 0xF0, .prefixLock), (List.replicate 15 0xF3, .prefixRep), (List.replicate 15 0xF2, .prefixRepne),
     (List.replicate 15 0x48, .prefixRex)] = true := by
  decide +kernel

/-- Words of 32-bit protected mode that 64-bit mode does not have (31_opcode_maps.md R272). -/
theorem test_decode_legacy : decodesAll .prot32
    [([0xD5, 0x0A], .aad 10), ([0xD4, 0x0A], .aam 10), ([0x62, 0x03], .bound .w32 .rax atEbx),
     ([0x9A, 0x78, 0x56, 0x34, 0x12, 0x08, 0x00], .callFar .w32 (.ptr 8 0x12345678)), ([0x67, 0xE3, 0xFE], .jcxz .w32 (-2)),
     ([0xE3, 0xFE], .jecxz .w32 (-2)), ([0xEA, 0x78, 0x56, 0x34, 0x12, 0x08, 0x00], .jmpFar .w32 (.ptr 8 0x12345678)),
     ([0xC5, 0x03], .lds .w32 .rax atEbx), ([0xC4, 0x03], .les .w32 .rax atEbx),
     ([0x63, 0xC1], .arpl (.reg ⟨.rcx, false⟩) .rax), ([0x37], .aaa), ([0x3F], .aas), ([0x27], .daa), ([0x2F], .das),
     ([0xCE], .into), ([0x66, 0x61], .popa), ([0x61], .popad), ([0x66, 0x60], .pusha), ([0x60], .pushad), ([0x9D], .popfd),
     ([0x9C], .pushfd)] = true := by
  decide +kernel

/-! ### Well-formedness: one ill-formed term for each check -/

/-- AH, CH, DH and BH are bytes, and stand beside no REX prefix; R8 and SPL need 64-bit mode (30_encoding.md R176, R178). -/
theorem test_refuses_registers :
    wellFormed .long64 (.inc .w16 (.reg ⟨.rax, true⟩) false) = false ∧
    wellFormed .long64 (.inc .w8 (.reg ⟨.rsi, true⟩) false) = false ∧
    wellFormed .long64 (.mov (.rmReg .w8 (.reg ⟨.r8, false⟩) ⟨.rax, true⟩)) = false ∧
    wellFormed .prot32 (.bswap .w32 .r8) = false ∧
    wellFormed .prot32 (.inc .w8 (.reg ⟨.rsp, false⟩) false) = false ∧
    wellFormed .long64 (.bt .w32 (.reg ⟨.rax, true⟩) (.imm 0)) = false ∧
    wellFormed .prot32 (.bt .w32 (.reg cxr) (.reg .r9)) = false ∧
    wellFormed .prot32 (.movd false (.toXmm 8 (.reg acc))) = false ∧
    wellFormed .prot32 (.mov (.fromCr false 8 .rax)) = false := by
  decide +kernel

/-- Address sizes, segments, displacements and the forms of an effective address (30_encoding.md R171, R180, R181). -/
theorem test_refuses_addresses :
    wellFormed .long64 (.invlpg atBx) = false ∧ wellFormed .prot32 (.invlpg atRbx) = false ∧
    wellFormed .long64 (.invlpg { atRbx with seg := .es }) = false ∧
    wellFormed .long64 (.invlpg { atRbx with disp := 0x80000000 }) = false ∧
    wellFormed .prot32 (.invlpg { atBx with disp := 0x8000 }) = false ∧
    wellFormed .long64 (.invlpg { atRbx with index := some ⟨.rsp, 0⟩ }) = false ∧
    wellFormed .long64 (.invlpg ⟨.ds, .rip, some ⟨.rax, 0⟩, 0, .a64⟩) = false ∧
    wellFormed .prot32 (.invlpg ⟨.ds, .rip, none, 0, .a32⟩) = false ∧
    wellFormed .prot32 (.invlpg { atBx with base := .reg .rax }) = false ∧
    wellFormed .prot32 (.invlpg { atEbx with base := .reg .r8 }) = false ∧
    wellFormed .prot32 (.mov (.load .w8 .ds .a32 0x100000000)) = false ∧
    wellFormed .long64 (.xlat .ss .a64) = false := by
  decide +kernel

/-- Operand sizes (30_encoding.md R170, 31_opcode_maps.md R232, R270). -/
theorem test_refuses_sizes :
    wellFormed .prot32 (.bsf .w64 .rax (.reg cxr)) = false ∧ wellFormed .long64 (.bsf .w8 .rax (.reg cxr)) = false ∧
    wellFormed .long64 (.adcx .w16 .rax (.reg cxr)) = false ∧ wellFormed .long64 (.leave .w32) = false ∧
    wellFormed .prot32 (.leave .w64) = false ∧ wellFormed .long64 (.inp .w64 .dx) = false ∧
    wellFormed .long64 (.lgdt .w32 atRbx) = false ∧ wellFormed .long64 (.sldt .w32 (.mem atRbx)) = false ∧
    wellFormed .long64 (.mov (.fromSeg .w32 (.mem atRbx) .ds)) = false ∧ wellFormed .long64 (.sysret .w16) = false ∧
    wellFormed .long64 (.movsx .w32 .w32 .rax (.reg cxr)) = false ∧
    wellFormed .long64 (.crc32 .w64 false .rax (.reg cxr)) = false := by
  decide +kernel

/-- Immediates and displacements are sign-extended from their encoded width (30_encoding.md R190). -/
theorem test_refuses_immediates :
    wellFormed .long64 (.add .w64 (.rmImm (.reg acc) 0x80000000) false) = false ∧
    wellFormed .long64 (.add .w8 (.rmImm (.reg acc) 0x80) false) = false ∧
    wellFormed .long64 (.add .w16 (.rmImm (.reg acc) 0x8000) false) = false ∧
    wellFormed .prot32 (.jmp .w16 (.rel 0x8000)) = false ∧ wellFormed .long64 (.jmp .w64 (.rel 0x80000000)) = false ∧
    wellFormed .long64 (.loop .w64 .a64 0x80) = false ∧
    wellFormed .prot32 (.jmpFar .w16 (.ptr 8 0x10000)) = false := by
  decide +kernel

/-- Instructions of one mode, of the VEX encodings, and without an encoding (20_memory.md R122, 31_opcode_maps.md R272). -/
theorem test_refuses_modes :
    wellFormed .long64 .aaa = false ∧ wellFormed .prot32 .cdqe = false ∧ wellFormed .prot32 (.cmpxchg16b atEbx false) = false ∧
    wellFormed .long64 (.jcxz .w64 0) = false ∧ wellFormed .prot32 (.jrcxz .w32 0) = false ∧
    wellFormed .real16 (.andn .w32 .rax .rbx (.reg cxr)) = false ∧ wellFormed .long64 (.jmpFar .w32 (.ptr 8 0)) = false ∧
    wellFormed .prot32 (.pop .w32 (.seg .cs)) = false ∧ wellFormed .long64 (.push .w64 (.seg .es)) = false ∧
    wellFormed .long64 (.shld .w32 (.reg cxr) .rax .one) = false ∧ wellFormed .long64 .prefixLock = false := by
  decide +kernel

/-! ### Witnesses: the hypotheses of the statements are met -/

/-- `StepKeepsMemory`, `StepKeepsLegalMode`: the state after reset, whose step has a next state. -/
theorem witness_invariants :
    State.reset.memOk ∧ State.reset.etOk ∧ State.reset.LegalMode ∧ nexts (step State.reset) (fun _ => true) = true := by
  refine ⟨by unfold State.memOk; decide, by unfold State.etOk; decide, ?_, by decide +kernel⟩
  constructor <;> decide

/-- `AluDecodeEncode` and `InstrDecodeEncode`: well-formed terms with extreme operands, of each map. -/
theorem witness_decode_encode :
    (∀ i ∈ [Instr.add .w64 (.rmImm (.mem ⟨.gs, .reg .r15, some ⟨.r12, 3⟩, -0x80000000, .a64⟩) 0x7FFFFFFF) true,
      .cmp .w8 (.regRm ⟨.rbx, true⟩ (.reg ⟨.rax, true⟩)), .call .w64 (.rel (-0x80000000)), .jnle .w64 0x7FFFFFFF,
      .loop .w16 .a32 (-0x80), .sar .w64 (.mem atRbx) .cl, .cmovs .w16 .r15 (.mem atRbx), .andn .w64 .r9 .r15 (.mem atRbx),
      .movsv .w64 .gs .a32 .repe, .lwpins .w64 .r8 (.mem atRbx) 0x80000000, .rmpadjust .a32], wellFormed .long64 i = true) ∧
    wellFormed .prot32 (.xor .w16 (.rmReg (.mem ⟨.es, .reg .rbp, some ⟨.rdi, 0⟩, -0x8000, .a16⟩) ⟨.rdi, false⟩) false) = true ∧
    wellFormed .real16 (.jcxz .w16 0x7F) = true := by
  decide +kernel

/-- INC AX at rIP. -/
def atInc : State := { real with mem := memOf [(0x1100, 2, 0xC0FF)] }

/-- `StepRunsDecodedInstruction`. -/
theorem witness_StepRunsDecodedInstruction :
    atInc.tick.pending = .none ∧ atInc.exec.activity = .running ∧
    (match decode atInc.tick.ctx (atInc.tick.fetchBytes 15 atInc.rip).1 with
      | .ok (i, n) => i == .inc .w16 (.reg acc) false && n == 2
      | .error _ => false) = true ∧
    nexts (step atInc) (fun t => t.gpr.rax == 0x1122334455667789 && t.rip == 0x102) = true ∧
    (let kept : State := { real with exec := { real.exec with latch := [0x40] } };
      kept.tick.pending = .none ∧ kept.exec.activity = .running ∧
      (match decode kept.tick.ctx [0x40] with
        | .ok (i, n) => i == .inc .w16 (.reg acc) false && n == 1
        | .error _ => false) = true) := by
  decide +kernel

/-- Real mode with interrupts enabled and these inputs. -/
def pinned (reset init nmi : Bool) (intr : Option Byte) : State :=
  { real with pins := { reset := reset, init := init, smi := false, nmi := nmi, intr := intr }, flags := { real.flags with fi := true } }

/-- LOCK NOP at rIP. -/
def atLockNop : State := { real with mem := memOf [(0x1100, 2, 0x90F0)] }

/-- An NMI or an interrupt with this vector, as a step takes it. -/
def outside (s : State) (v : Byte) : Event := { vector := v, kind := .external, savedRip := s.rip, oldRip := s.rip }

/-- `StepOtherwise`: one state for each of its events, deliverable; the lowest vector above the task priority and the highest one not
above it; a shutdown with an NMI, a halt; and bytes that are no instruction (LOCK NOP). -/
theorem witness_StepOtherwise :
    let nmi := pinned false false true none
    let intr := pinned false false false (some 0x20)
    let low : State := { intr with ctl := { intr.ctl with cr8 := 1 } }
    let down : State := { nmi with exec := { real.exec with activity := .shutdown } }
    (pinned true true true (some 255)).pins.reset = true ∧
    ((pinned false true true none).pins.init = true ∧ real.svm.gif = true) ∧
    ({ (pinned false false true none).pins with smi := true } : Pins).smi = true ∧
    (nmi.pins.nmi = true ∧ nmi.exec.nmiBlocked = false ∧ nmi.exec.shadow ≠ .ss ∧ nmi.exec.activity ≠ .shutdown ∧
      good (({ nmi.tick with mem := memOf [(8, 4, 0x03000500)] } : State).deliverOnce (outside nmi 2)) = true) ∧
    (intr.pins.intr = some 0x20 ∧ intr.flags.fi = true ∧ intr.exec.shadow = .none ∧
      low.ctl.cr8.toNat % 16 < (0x20 : Byte).toNat / 16 ∧ ¬low.ctl.cr8.toNat % 16 < (0x1F : Byte).toNat / 16 ∧
      good (({ low.tick with mem := memOf [(0x80, 4, 0x03000500)] } : State).deliverOnce (outside low 0x20)) = true) ∧
    (down.tick.pending = .none ∧ down.pins.intr = none) ∧
    ({ real with exec := { real.exec with activity := .halted } } : State).tick.pending = .none ∧
    (atLockNop.tick.pending = .none ∧ atLockNop.exec.activity = .running ∧ atLockNop.exec.latch = []) ∧
    (match decode atLockNop.tick.ctx (atLockNop.tick.fetchBytes 15 atLockNop.rip).1 with
      | .error why => why != .truncated
      | .ok _ => false) = true := by
  decide +kernel

/-- `MemoryIsLittleEndian`. -/
theorem witness_MemoryIsLittleEndian : real.memOk ∧ Memory.read (real.storeAt (physRange 0xFFFFFFFFFFFF 2) 0x1234).mem 0x1000000000000 = 0x12 := by
  refine ⟨by unfold State.memOk; decide +kernel, by decide +kernel⟩

/-- `OperandAddress`: the last access inside a limit and the first one beyond it, a canonical and a non-canonical address, a null
selector and a segment of the wrong kind. -/
theorem witness_OperandAddress :
    long0.cfg.paging = .identity ∧ long0.acEnabled = false ∧ prot3.acEnabled = false ∧
    (long0.mode64 = true ∧ long0.canonical 0x7FFFFFFFFFF8 = true ∧ long0.canonical (0x7FFFFFFFFFF8 + 7) = true ∧
      (long0.linear .ds 0x7FFFFFFFFFF8).toNat + 8 ≤ 2 ^ 48) ∧
    long0.canonical 0x800000000000 = false ∧
    (real.mode64 = false ∧ (real.sreg .ds).inLimit 0xFFFE 2 = true ∧ (real.sreg .ds).inLimit 0xFFFF 2 = false) ∧
    (prot3.protMode = true ∧ isNull (prot3.sreg .ss).sel = false ∧ (prot3.sreg .ss).attr.writable = true ∧
      (prot3.sreg .ss).inLimit 0xFFFFFFFC 4 = true ∧ (prot3.sreg .cs).attr.writable = false) ∧
    isNull ({ prot3.sreg .ds with sel := 3 } : SegReg).sel = true := by
  decide +kernel

/-! The hypotheses that the operands can be accessed: registers and memory, the last word of a segment among them. -/

/-- DS:[BX] with BX = FFFEh. -/
def atEnd : State := { real with gpr := { gprs with rbx := 0xFFFE } }

/-- `AddResult`, `SubSbbCmpResult`, `BitwiseResult`, `IncDecNegNotResult` and `ExchangeResult`. -/
theorem witness_destinations :
    real.flags.tf = false ∧ long0.flags.tf = false ∧ formWritesMem (.rmReg (.mem atBx) acc) = true ∧
    good (atEnd.start.aluOperands .w16 true (.rmReg (.mem atBx) acc)) = true ∧
    good (long0.start.aluOperands .w64 true (.regRm acc (.mem atRbx))) = true ∧
    good (long0.start.aluOperands .w8 false (.rmImm (.reg ⟨.rax, true⟩) (-1))) = true ∧
    good (atEnd.start.place .w16 true (.mem atBx)) = true ∧ good (long0.start.place .w32 true (.reg acc)) = true ∧
    RM.isMem (.mem atBx) = true ∧ good (long0.start.readRM .w64 (.reg cxr)) = true ∧
    long0.feat.adx = true := by
  decide +kernel

/-- `ExchangeResult`, the double-width comparisons: an aligned operand and one that is not. -/
theorem witness_compare_pair :
    long0.feat.cmpxchg8b = true ∧ good (long0.start.accessParts gp0 .ds (long0.start.ea atRbx) 8 4 true) = true ∧
    long0.feat.cmpxchg16b = true ∧ (long0.start.linear .ds (long0.start.ea atRbx)).toNat % 16 = 0 ∧
    good (long0.start.access .ds (long0.start.ea atRbx) 16 true) = true ∧
    (long0.start.linear .ds (long0.start.ea { atRbx with disp := 15 })).toNat % 16 ≠ 0 := by
  decide +kernel

/-- `MultiplyResult`, `DivideResult`, `BitScanAndCrcResult`, `BitManipulationResult`, `BitTestResult`, `RotateResult`,
`ShiftResult`: sources, the features, and their absence; a quotient that fits and divisors that trap. -/
theorem witness_sources :
    good (long0.start.readRM .w32 (.mem atRbx)) = true ∧ good (atEnd.start.readRM .w16 (.mem atBx)) = true ∧
    long0.protMode = true ∧ long0.feat.bmi1 = true ∧ long0.feat.bmi2 = true ∧ long0.feat.tbm = true ∧ long0.feat.abm = true ∧
    long0.feat.popcnt = true ∧ long0.feat.sse42 = true ∧
    ({ long0.feat with abm := false } : Config.Features).abm = false ∧ ({ long0.feat with bmi1 := false } : Config.Features).bmi1 = false ∧
    (2 ^ 8 ≤ real.unsDividend .w8 / uns .w8 0x77 ∧ real.unsDividend .w8 / uns .w8 0x78 < 2 ^ 8) ∧ uns .w8 0x100 = 0 ∧
    (∀ x ∈ bitOps .w32, (if x.2.1 then long0.feat.bmi1 else long0.feat.tbm) = true) ∧
    good (long0.start.access .ds (long0.start.ea atRbx + BitVec.ofInt 64 (-1 / 64 * 8)) 8 true) = true := by
  decide +kernel

/-- `SignExtendAccumulator`, `AsciiAdjustDivide` and `DecimalAdjust`: a mode of each kind, and a base of 0 and one that is not. -/
theorem witness_adjust : real.flags.tf = false ∧ real.mode64 = false ∧ long0.mode64 = true ∧ (10 : Byte) ≠ 0 ∧
    Ctx.real16.mode64 = false ∧ Ctx.long64.mode64 = true := by
  decide

/-- 64-bit mode at level 0 with rAX and rCX. -/
def long0With (rax rcx : Quad) : State := { long0 with gpr := { gprs with rax := rax, rcx := rcx } }

/-- `MoveResult`: each kind of operand, and the features. -/
theorem witness_MoveResult :
    good (long0.start.readRM .w16 (.mem atRbx)) = true ∧ good (long0.start.place .w64 true (.mem atRbx)) = true ∧
    good (long0.start.access .ds (wrap (addrWidth .a64) ((0x7FFFFFFFFFFF : Quad).toNat)) 1 false) = true ∧
    good (real.start.access .ds (wrap (addrWidth .a16) ((0xFFFE : Quad).toNat)) 2 true) = true ∧
    good (long0.start.access .ds (long0.start.ea atRbx) 2 true) = true ∧
    good (long0.start.access .ds (long0.start.ea atRbx) 8 false) = true ∧
    good (long0.start.access .ds (wrap (addrWidth .a64) (long0.gpr.rbx.toNat + long0.gpr.rax.toNat % 256 : Nat)) 1 false) = true ∧
    long0.feat.movbe = true ∧ long0.feat.sse2 = true := by
  decide +kernel

/-- `SegmentRegisterLoads`: real mode; a null selector where SS takes one and where it does not; a legal, an illegal and an absent
descriptor; MOV, POP and the far-pointer loads. -/
theorem witness_SegmentRegisterLoads :
    real.protMode = false ∧ (long0.protMode = true ∧ (3 : BitVec 16).toNat < 4 ∧ long0.mode64 = true ∧ long0.cpl ≠ 3) ∧
    (prot0.protMode = true ∧ prot0.mode64 = false) ∧ (long3.protMode = true ∧ long3.cpl = 3) ∧
    goodAnd (prot0.readDesc (gpSel 0x10) 0x10) (fun d => (descAttr d).writable && (descAttr d).p && (descAttr d).dpl == prot0.cpl) = true ∧
    goodAnd (prot3.readDesc (gpSel 0x10) 0x10) (fun d => !(descAttr d).conforming && (descAttr d).dpl == 0) = true ∧
    goodAnd (({ prot0 with mem := memOf [(0x5010, 8, 0x00CF13000000FFFF)] } : State).readDesc (gpSel 0x10) 0x10)
      (fun d => (descAttr d).writable && !(descAttr d).p) = true ∧
    goodAnd (long0.start.readRM .w16 (.reg cxr)) (fun v => good (long0.start.loadSegReg .fs (v.setWidth 16))) = true ∧
    goodAnd (prot0.start.pop 4) (fun x => good (x.2.loadSegReg .ds (x.1.setWidth 16))) = true ∧
    good (prot0.start.access .ds (prot0.start.ea atEbx) 4 false) = true ∧
    good (prot0.start.access .ds (prot0.start.ea atEbx + 4) 2 false) = true ∧ good (prot0.start.loadSegReg .ds 0) = true := by
  decide +kernel

/-- `ControlRegisterMoves`: values that each register takes, with paging going on and off, a value DR6 refuses in 64-bit mode, and the
states that trap. -/
theorem witness_ControlRegisterMoves :
    let v (n : Nat) : Quad := BitVec.ofNat 64 (uns .w64 (BitVec.ofNat 64 n))
    long0.cfg.paging = .identity ∧ long0.feat.altMovCr8 = true ∧ long0.cpl = 0 ∧ long3.cpl ≠ 0 ∧
    (v 0x80000011 &&& long0.cfg.cr0Reserved = 0 ∧ (v 0x80000011).getLsbD 31 = true ∧ (v 0x80000011).getLsbD 0 = true ∧
      (v 0x80000011).getLsbD 29 = false ∧ long0.pg = true ∧ long0.eferBit 8 = true ∧ long0.cr4Bit 5 = true) ∧
    (v 0x60000010 &&& prot0.cfg.cr0Reserved = 0 ∧ (v 0x60000010).getLsbD 31 = false ∧ (v 0x60000010).getLsbD 29 = true ∧
      (v 0x60000010).getLsbD 30 = true ∧ prot0.cr4Bit 17 = false) ∧
    (long0.longMode = true ∧ (v 0xFFFFFFFFFFFF).toNat < 2 ^ long0.cfg.physAddrBits) ∧
    (v 0x20020 &&& long0.cfg.cr4Reserved = 0 ∧ (v 0x20020).getLsbD 5 = true ∧ (v 0x20020).getLsbD 17 = true ∧
      long0.cr4Bit 17 = false ∧ long0.ctl.cr3.toNat % 4096 = 0) ∧
    v 0xF &&& long0.cfg.cr8Reserved = 0 ∧ 9 ∉ [0, 2, 3, 4, 8] ∧
    (long0.cr4Bit 3 = false ∧ (7 : BitVec 4).toNat < 8 ∧ long0.dbg.dr7.getLsbD 13 = false ∧
      ({ long0.dbg with dr7 := 0x2400 } : Debug).dr7.getLsbD 13 = true ∧ 2 ^ 32 ≤ (v 0x100000000).toNat) ∧
    ({ long0 with ctl := { long0.ctl with cr4 := 0x28 } } : State).cr4Bit 3 = true ∧ 8 ≤ (8 : BitVec 4).toNat ∧
    ({ long0.feat with altMovCr8 := false } : Config.Features).altMovCr8 = false ∧
    (v 0x80000000).getLsbD 0 = false ∧ v 0x10 &&& long0.cfg.cr8Reserved ≠ 0 ∧ (v 0).getLsbD 5 = false ∧
    v 0x1000000000000 &&& long0.cfg.cr3Reserved ≠ 0 := by
  decide +kernel

/-- 64-bit mode left by clearing CR0.PG in a 64-bit code segment: rIP keeps 32 bits. -/
theorem test_leave_clips_rip :
    nexts (exec (.mov (.toCr false 0 .rcx)) { long0With 0 0x11 with nextRip := 0x123400001003 })
      (fun t => t.rip == 0x1003 && !t.longMode) = true := by
  decide +kernel

/-- Bits of CR4 and EFER that no feature uses are reserved: all of D2 with every flag of its list set, and LME and LMA without LM. -/
theorem test_reserved_bits :
    ({} : Config.Params).cr4Reserved = 0xFFFFFFFFFF0CF800 ∧ ({} : Config.Params).eferReserved = 0xFFFFFFFFFFFD52FE ∧
    ({ features := { lm := false } } : Config.Params).eferReserved = 0xFFFFFFFFFFFD57FE ∧
    ({ features := { pku := false } } : Config.Params).cr4Reserved = 0xFFFFFFFFFF4CF800 := by
  decide +kernel

/-- `ConditionalMoveAndSet`. -/
theorem witness_ConditionalMoveAndSet :
    long0.feat.cmov = true ∧ good (long0.start.readRM .w32 (.mem atRbx)) = true ∧ good (long0.start.place .w8 true (.mem atRbx)) = true ∧
    condHolds long0.flags 15 = true ∧ condHolds long0.flags 4 = false := by
  decide +kernel

/-- `StatusFlagInstructions` and `SystemFlagInstructions`: LAHF available and not; SMAP, the levels, and the virtual interrupts with
and without a pending one. -/
theorem witness_flag_instructions :
    real.flags.tf = false ∧ real.mode64 = false ∧ (long0.mode64 = true ∧ long0.feat.lahfSahf = true) ∧
    ({ long0.feat with lahfSahf := false } : Config.Features).lahfSahf = false ∧
    (long0.feat.smap = true ∧ long0.virtMode = false ∧ long0.cpl = 0) ∧ virt.virtMode = true ∧ long3.cpl = 3 ∧
    (long0.cpl ≤ long0.flags.iopl) ∧ ¬long3.cpl ≤ long3.flags.iopl ∧
    (let vme : State := { long3 with ctl := { long3.ctl with cr4 := 0x22 }, flags := { long3.flags with vip := true } };
      vme.protMode = true ∧ vme.cr4Bit 1 = true ∧ vme.cpl = 3 ∧ vme.flags.vip = true) ∧
    (long3.virtMode = false ∧ long3.cr4Bit 1 = false) := by
  decide +kernel

/-- `MediaMoveResult`: with OSFXSR. -/
theorem witness_MediaMoveResult :
    let s : State := { long0 with ctl := { long0.ctl with cr4 := 0x220 } }
    s.ctl.cr0.getLsbD 2 = false ∧ s.ctl.cr0.getLsbD 3 = false ∧ s.feat.sse2 = true ∧ s.cr4Bit 9 = true ∧ s.feat.mmx = true ∧
    s.media.fsw.getLsbD 7 = false ∧ good (s.start.readRM .w64 (.mem atRbx)) = true ∧
    good (s.start.place .w32 true (.mem atRbx)) = true := by
  decide +kernel

/-- `ProcessorRegisterReads`: the enables, a canonical and a non-canonical base, CPUID functions in and out of range. -/
theorem witness_ProcessorRegisterReads :
    let s : State := { long0 with ctl := { long0.ctl with cr4 := 0x10020, efer := 0x20501 } }
    s.mode64 = true ∧ s.feat.fsgsbase = true ∧ s.cr4Bit 16 = true ∧ s.canonical 0x7FFFFFFFFFFF = true ∧
    s.canonical 0x800000000000 = false ∧ s.feat.rdpid = true ∧ s.feat.rdpru = true ∧ s.cpl = 0 ∧ s.cfg.perf = .default ∧
    (long3.cpl ≠ 0 ∧ long3.cr4Bit 2 = false) ∧ s.feat.rdrand = true ∧ s.feat.rdseed = true ∧ s.feat.mcommit = true ∧
    s.eferBit 17 = true ∧ s.cfg.mcommitError = .default ∧ ¬s.cfg.maxRdpruId.toNat < uns .w32 (long0With 0 0).gpr.rcx ∧
    s.cfg.maxRdpruId.toNat < uns .w32 s.gpr.rcx ∧
    (let t : State := { s with cfg := { s.cfg with lFuncStd := 0xD, features := { s.feat with xsave := true } } };
      0xD ≤ t.cfg.lFuncStd.toNat ∧ t.feat.xsave = true) ∧
    (7 ≤ s.cfg.lFuncStd.toNat ∧ 0x80000008 ≤ s.cfg.lFuncExt.toNat ∧
      ¬0x7FFFFFFF ≤ s.cfg.lFuncStd.toNat ∧ ¬0xFFFFFFFF ≤ s.cfg.lFuncExt.toNat) := by
  decide +kernel

/-- Rows of `cpuid_table` (53_cpuid.md R1004, R1007, R1010, R1014): a row gives two logical processors and the smallest and largest
monitor line, but not OSXSAVE and OSPKE, which follow CR4, nor the size formula of Fn0000_000D sub-function 1. -/
theorem test_cpuid_rows :
    let s : State := { long0 with cfg := { long0.cfg with
      lFuncStd := 0xD
      features := { long0.feat with xsave := true }
      cpuidRows := [⟨1, 0, 0, 0x20000, 0xFFFFFFFF, 0x10000000⟩, ⟨5, 0, 64, 128, 0, 0⟩, ⟨7, 0, 3, 0, 0xFFFFFFFF, 0⟩,
        ⟨0xD, 1, 0xF, 0xFFFFFFFF, 0, 0⟩] } }
    (s.cpuidTable 1 0).ebx = 0x20800 ∧ (s.cpuidTable 1 0).ecx.getLsbD 27 = false ∧ (s.cpuidTable 1 0).edx.getLsbD 28 = true ∧
    (s.cpuidTable 1 0).edx.getLsbD 15 = true ∧ s.cpuidTable 5 0 = { eax := 64, ebx := 128, ecx := 0, edx := 0 } ∧
    (s.cpuidTable 7 0).eax = 3 ∧ (s.cpuidTable 7 0).ecx.getLsbD 4 = false ∧
    s.cpuidTable 0xD 1 = { eax := 0xF, ebx := 0x240, ecx := 0x1800, edx := 0 } ∧ s.cpuidTable 0xD 63 = .zero := by
  decide +kernel

/-- `HintsAndWaits`: the features, the operands, the monitor with ECX = 0, and INVPCID of each type that its clauses name. -/
theorem witness_HintsAndWaits :
    let s : State := { long0With 0x2000 0 with
      ctl := { long0.ctl with efer := 0x1501 }, cfg := { long0.cfg with features := { long0.feat with svm := true } } }
    (s.feat.prefetch || s.feat.lm || s.feat.threeDNow) = true ∧ s.feat.sse2 = true ∧ (s.feat.sse || s.feat.mmxExt) = true ∧
    good (s.start.access .ds (s.start.ea atRbx) 1 false) = true ∧ s.feat.clfsh = true ∧ s.feat.clflushopt = true ∧ s.feat.clwb = true ∧
    s.feat.clzero = true ∧ good (s.start.access .ds (BitVec.ofNat 64 (uns .w64 s.gpr.rax / 64 * 64)) 64 true) = true ∧
    uns .w32 s.gpr.rcx = 0 ∧ s.feat.monitorx = true ∧ s.feat.monitor = true ∧ s.cpl = 0 ∧
    s.feat.svm = true ∧ s.protMode = true ∧ s.eferBit 12 = true ∧
    s.feat.invpcid = true ∧ good (s.start.access .ds (s.start.ea atRbx) 16 false) = true ∧
    (uns .w64 (s.reg .rcx) = 0 ∧
      goodAnd (s.start.access .ds (s.start.ea atRbx) 16 false) (fun ps => s.loadAt ps % 2 ^ 64 == 0 &&
        s.canonical (BitVec.ofNat 64 (s.loadAt ps / 2 ^ 64))) = true ∧ s.cr4Bit 17 = false) ∧
    uns .w64 (long0.reg .rcx) = 3 ∧ long3.cpl ≠ 0 := by
  decide +kernel

/-! ### Witnesses: control transfers, events, strings, system instructions -/

/-- A word of the stack of a real-mode state. -/
def realWith (l : List (Nat × Nat × Nat)) : State := { real with mem := memOf (l ++ [(0x84, 4, 0x03000500), (0x10, 4, 0x03000500)]) }

/-- Shadow stacks enabled at level `cpl` of 64-bit mode, SSP at 2808h, with shadow-stack memory. -/
def shadow (cpl : BitVec 2) (l : List (Nat × Nat × Nat)) : State :=
  { flatMode true cpl with
    ctl := { long0.ctl with cr0 := 0x80010011, cr4 := 0x800020 }
    cet := { Cet.reset with ssp := 0x2808, sCet := 3, uCet := 3, pl0Ssp := 0x2900 }
    mem := l.foldl (fun m x => Memory.store m (physRange x.1 x.2.1) x.2.2) long0.mem }

/-- `NearTransfers`: a push and a pop, an operand, the last target inside a limit and the first outside it, and the shadow stack. -/
theorem witness_NearTransfers :
    good (long0.start.push 8 long0.nextRip) = true ∧ long0.shadowEnabled long0.cpl = false ∧
    good (long0.start.readRM .w64 (.mem atRbx)) = true ∧ good (long0.start.pop 8) = true ∧
    real.targetOk 0xFFFF = true ∧ real.targetOk 0x10000 = false ∧ long0.targetOk 0x800000000000 = false ∧
    (let s := shadow 3 []; s.shadowEnabled s.cpl = true ∧
      goodAnd (s.start.push 8 s.nextRip) (fun t => good (t.sstkSpan (s.cpl == 3) true (s.cet.ssp - BitVec.ofNat 64 8) 8)) = true ∧
      good (s.start.readRM .w64 (.reg cxr)) = true ∧
      goodAnd (s.start.pop 8) (fun x => s.targetOk x.1) = true ∧ good (s.start.sstkSpan (s.cpl == 3) false s.cet.ssp 8) = true) := by
  decide +kernel

/-- `FarTransfersReal`: both forms of target, the pushes and the pops, in real mode; and 64-bit mode. -/
theorem witness_FarTransfersReal :
    real.mode64 = false ∧ long0.mode64 = true ∧ real.protMode = false ∧
    good (real.start.access .ds (real.start.ea atBx) 2 false) = true ∧ good (real.start.access .ds (real.start.ea atBx + 2) 2 false) = true ∧
    good (real.start.farTarget .w16 (.ptr 0x300 0x500)) = true ∧
    good (real.start.pushAllE ss0 2 [real.seg.cs.sel.setWidth 64, real.nextRip]) = true ∧
    goodAnd (real.start.pop 2) (fun x => good (x.2.pop 2)) = true := by
  decide +kernel

/-- A call gate outside long mode gives a rIP of its size (41_gp_c.md R351): types 12 and 4. -/
theorem test_call_gate_size :
    goodAnd (prot3.callGateTarget 0x48 0x0001EC0000080044) (fun rip => rip == 0x10044) = true ∧
    goodAnd (prot3.callGateTarget 0x48 0x0001E40000080044) (fun rip => rip == 0x44) = true := by
  decide +kernel

/-- A far JMP through a gate to a code segment of another level that is not present: the privilege rule comes first (42_gp_d_j.md
R424); and a null SS whose RPL is not the level returned to (50_sys_a_l.md R721). -/
theorem test_order_and_null_ss :
    (let s : State := { prot3 with mem := Memory.store prot3.mem (physRange 0x5008 8) 0x00CF1B000000FFFF };
      match s.readJumpCs 8 with
      | .error (.exc x) => x.name.vector == 13 && x.code == some 8
      | _ => false) = true ∧
    (match long0.returnSs 3 0 with
      | .error (.exc x) => x.name.vector == 13
      | _ => false) = true ∧ good (long0.returnSs 0 0) = true := by
  decide +kernel

/-- The vector and the code of an exception. -/
def raises (r : Res State) (v : Byte) (code : BitVec 32) : Bool :=
  match r with
  | .error (.exc x) => x.name.vector == v && x.code == some code
  | _ => false

/-- A task gate (41_gp_c.md R355): a TSS that is available is the task switch; #GP when the gate names null, a code segment or the LDT,
#NP when its TSS is not present. And a long-mode gate with bit 40 of its second quadword set: #GP(vector * 8 + 2)
(20_memory.md R111, 93_implementation_defined.md A.3). -/
theorem test_gates :
    (match prot0.taskGate 0x0000E50000380000 with
      | .error (.refuse .taskSwitch) => true
      | _ => false) = true ∧
    raises (prot0.taskGate 0x0000E50000000000) 13 0 = true ∧ raises (prot0.taskGate 0x0000E50000080000) 13 8 = true ∧
    raises (prot0.taskGate 0x0000E500003C0000) 13 0x3C = true ∧
    raises ({ prot0 with mem := Memory.store prot0.mem (physRange 0x5038 8) 0x0000090070002100 }.taskGate 0x0000E50000380000) 11 0x38
      = true ∧
    raises ({ long0 with mem := Memory.store long0.mem (physRange 0x6808 8) 0x10000000000 }.deliverOnce
      { vector := 0x80, kind := .software, savedRip := 0x1003, oldRip := 0x1000, intN := true }) 13 0x402 = true := by
  decide +kernel

/-- `FarTransfersProtected`: a code segment at the same level and one of another level; a call gate to the same and to the inner
level; a task gate and a TSS; a return to the same and to the outer level. -/
theorem witness_FarTransfersProtected :
    (prot0.protMode = true ∧ prot0.sstkEnabled = false ∧ goodAnd (prot0.start.farTarget .w32 (.ptr 8 0x100)) (fun x => x == (0x100, 8)) = true ∧
      goodAnd (prot0.start.readDesc (gpSel 8) 8) (fun d => (descAttr d).isCode && !(descAttr d).conforming && (descAttr d).dpl == 0 &&
        (descAttr d).p) = true ∧
      goodAnd (prot0.start.readDesc (gpSel 8) 8) (fun d =>
        good (((prot0.start.setCs (descSeg 8 d) 0).setRsp prot0.gpr.rsp).pushAllE ss0 4
          [prot0.seg.cs.sel.setWidth 64, prot0.nextRip])) = true) ∧
    goodAnd (prot3.start.readDesc (gpSel 8) 8) (fun d => (descAttr d).isCode && (descAttr d).dpl != prot3.cpl) = true ∧
    goodAnd (long0.start.readDesc (gpSel 0x48) 0x48) (fun g => (descAttr g).type == 0xC && !(descAttr g).s && (descAttr g).p &&
      (descAttr g).dpl == 3 && good (long0.start.callGateTarget 0x48 g) &&
      goodAnd (long0.start.readIntCs (gateSel g)) (fun c => (descAttr c).dpl == long0.cpl &&
        good (((long0.start.setCs (descSeg (withRpl (gateSel g) 0) c) 0).setRsp long0.gpr.rsp).pushAllE ss0 8
          [long0.seg.cs.sel.setWidth 64, long0.nextRip]))) = true ∧
    goodAnd (prot3.start.readDesc (gpSel 0x48) 0x48) (fun g => gateParams g == 0 &&
      goodAnd (prot3.start.callGateTarget 0x48 g) (fun rip =>
      goodAnd (prot3.start.readIntCs (gateSel g)) (fun c => (descAttr c).dpl != prot3.cpl &&
        goodAnd ((prot3.start.setCs (descSeg (withRpl (gateSel g) (descAttr c).dpl) c) (descAttr c).dpl).innerStack
          (descAttr c).dpl 0) (fun x =>
          let q := prot3.start.enterInner (descSeg (withRpl (gateSel g) (descAttr c).dpl) c) (descAttr c).dpl x.1 x.2
          q.targetOk rip && good (q.pushAllE (excSel .ss x.1.sel) 4
            [prot3.seg.ss.sel.setWidth 64, prot3.oldRsp, prot3.seg.cs.sel.setWidth 64, prot3.nextRip]))))) = true ∧
    goodAnd (prot0.start.readDesc (gpSel 0x58) 0x58) (fun g => (descAttr g).type == 5 && (descAttr g).p && !(descAttr g).s) = true ∧
    goodAnd (prot0.start.readDesc (gpSel 0x38) 0x38) (fun g => (descAttr g).type == 9 && (descAttr g).p) = true ∧
    (∀ x ∈ [0x0000E50000000000, 0x0000E50000080000],
      let s : State := { prot0 with mem := Memory.store prot0.mem (physRange 0x5058 8) x };
      goodAnd (s.start.readDesc (gpSel 0x58) 0x58) (fun g => (descAttr g).type == 5 && (descAttr g).p &&
        (isNull (gateSel g) || goodAnd (s.start.readDesc (gpSel 8) 8) (fun d => (descAttr d).s && gateSel g == 8))) = true) ∧
    (let s : State := { prot0 with mem := Memory.store prot0.mem (physRange 0x3000 8) 0x800000100 };
      goodAnd (s.start.pop 4) (fun x => goodAnd (x.2.pop 4) (fun y => rpl (BitVec.ofNat 16 y.1.toNat) == s.cpl &&
        good (y.2.readIretCs (BitVec.ofNat 16 y.1.toNat)))) = true) ∧
    (let s : State := { prot0 with mem := Memory.store prot0.mem (physRange 0x3000 16) 0x23000030000000001B00000100 };
      goodAnd (s.start.pop 4) (fun x => x.1 == 0x100 && goodAnd (x.2.pop 4) (fun y => y.1 == 0x1B &&
        goodAnd (y.2.pop 4) (fun sp => goodAnd (sp.2.pop 4) (fun ss => goodAnd (ss.2.readIretCs 0x1B) (fun d =>
          let z := ss.2.setCs (descSeg 0x1B d) 3
          z.targetOk 0x100 && good (z.returnSs (BitVec.ofNat 16 ss.1.toNat) 3)))))) = true) := by
  decide +kernel

/-- The event of an interrupt instruction. -/
def software (s : State) (v : Byte) : Event := { vector := v, kind := .software, savedRip := s.nextRip, oldRip := s.rip, intN := true }

/-- `SoftwareInterrupts`, `RealModeEntry` and `IretUndoesInterrupt`: INT 21H in real mode, its frame and its entry in the table. -/
theorem witness_real_interrupts :
    good (real.start.deliverOnce (software real 0x21)) = true ∧ good (real.start.deliverOnce { software real 3 with intN := false }) = true ∧
    real.mode64 = false ∧ ({ real.flags with of := true } : Flags).of = true ∧ long0.mode64 = true ∧
    good (({ real with flags := { real.flags with of := true } } : State).start.deliverOnce { software real 4 with intN := false }) = true ∧
    good (real.deliverOnce { vector := 1, kind := .exception, savedRip := real.nextRip, oldRip := real.nextRip }) = true ∧
    good (real.start.access .ds (real.start.ea atBx) 2 false) = true ∧ good (real.start.access .ds (real.start.ea atBx + 2) 2 false) = true ∧
    (real.realMode = true ∧ real.pg = false ∧ real.longMode = false ∧ 32 ≤ real.cfg.physAddrBits ∧
      real.idtr.base.toNat + 4 * 0x21 + 4 ≤ 2 ^ 32 ∧ 4 * 255 + 3 ≤ real.idtr.limit.toNat ∧
      real.loadAt (physRange 0x84 2) ≤ real.seg.cs.limit.toNat ∧
      good (real.pushAllE ss0 2 [real.flags.toBits, real.seg.cs.sel.setWidth 64, real.nextRip]) = true) ∧
    (real.cfg.paging = .identity ∧ real.seg.ss.attr.db = false ∧
      real.seg.cs.base = BitVec.ofNat 64 (real.seg.cs.sel.toNat * 16) ∧ real.nextRip.toNat < 2 ^ 16 ∧
      real.nextRip.toNat ≤ real.seg.cs.limit.toNat ∧ 6 ≤ uns .w16 real.gpr.rsp) := by
  decide +kernel

/-- `ProtectedModeEntry`: an interrupt gate to the same level and one to the inner level, in 64-bit and in legacy mode. -/
theorem witness_ProtectedModeEntry :
    (∀ s ∈ [long0, prot0], s.protMode = true ∧ s.sstkEnabled = false ∧
      goodAnd (s.readIdt (software s 0x80)) (fun g => (descAttr g).type != 5 && gateIst g == 0 &&
        goodAnd (s.gateTarget (software s 0x80) g) (fun rip => goodAnd (s.readIntCs (gateSel g)) (fun d => (descAttr d).dpl == s.cpl &&
          s.targetOk rip && good (((s.setCs (descSeg (withRpl (gateSel g) s.cpl) d) s.cpl).setRsp s.gpr.rsp).pushAllE ss0
            (if s.longMode then 8 else 4) [0x10, s.oldRsp, 2, 8, s.nextRip])))) = true) ∧
    (∀ s ∈ [long3, prot3], goodAnd (s.readIdt (software s 0x80)) (fun g =>
      goodAnd (s.readIntCs (gateSel g)) (fun d => (descAttr d).dpl == 0 && goodAnd ((s.setCs (descSeg (withRpl (gateSel g) 0) d) 0).innerStack 0 0) (fun x =>
        let q := s.enterInner (descSeg (withRpl (gateSel g) 0) d) 0 x.1 (if s.longMode then x.2 &&& ~~~(0xF : Quad) else x.2)
        q.targetOk 0x4800 && good (q.pushAllE (excSel .ss x.1.sel) (if s.longMode then 8 else 4)
          [s.seg.ss.sel.setWidth 64, s.oldRsp, 2, s.seg.cs.sel.setWidth 64, s.nextRip])))) = true) := by
  decide +kernel

/-- `ProtectedModeEntry`: a long-mode gate with bit 40 of its second quadword set, and a task gate that names a TSS. -/
theorem witness_ProtectedModeEntry_gates :
    (let s : State := { long0 with mem := Memory.store long0.mem (physRange 0x6808 8) 0x10000000000 };
      s.longMode = true ∧ good (s.readIdt (software s 0x80)) = true ∧
      goodAnd (s.sysReadLin (s.idtr.base + BitVec.ofNat 64 (0x80 * 16 + 8)) 8) (fun d => d.toNat / 2 ^ 40 % 32 != 0) = true) ∧
    (let s : State := { prot0 with mem := Memory.store prot0.mem (physRange 0x6400 8) 0x0000E50000380000 };
      goodAnd (s.readIdt (software s 0x80)) (fun g => (descAttr g).type == 5 && gateSel g == 0x38 &&
        goodAnd (s.readDesc (gpSel 0x38) 0x38) (fun d => !(descAttr d).s && (descAttr d).type == 9 && (descAttr d).p)) = true) := by
  decide +kernel

/-- An event delivered through a gate: its gate, its target and its code segment, and what holds of them. -/
def entry (s : State) (v : Byte) (k : Quad → Quad → Quad → Res Bool) : Bool :=
  goodAnd (do
    let g ← s.readIdt (software s v)
    let rip ← s.gateTarget (software s v) g
    let d ← s.readIntCs (gateSel g)
    k g rip d) id

/-- A frame of five words. -/
def frame5 (s : State) : List Quad := [s.seg.ss.sel.setWidth 64, s.oldRsp, 2, s.seg.cs.sel.setWidth 64, s.nextRip]

/-- 64-bit mode with the gate of vector 81h on stack 1, whose shadow stack begins at `ssp`. -/
def onIst (cpl : BitVec 2) (ssp : Nat) : State :=
  let s := shadow cpl [(0x6810, 8, 0x0000EE0100084800), (0x7024, 8, 0x3907), (0x7108, 8, ssp), (0x2900, 8, 0x2900)]
  { s with cet := { s.cet with isstAddr := 0x7100 } }

/-- `ProtectedModeEntry`: an IST stack; shadow stacks at the same level, on an IST stack (aligned and not) and at the inner level. -/
theorem witness_ProtectedModeEntry_stacks :
    (∀ s ∈ [onIst 0 0x2900, { onIst 0 0x2900 with ctl := long0.ctl }], entry s 0x81 (fun g rip d => do
      let current := s.setCs (descSeg (withRpl (gateSel g) 0) d) 0
      let sp ← current.tssRead 36 8
      let u ← (current.setRsp (sp &&& ~~~(0xF : Quad))).pushAllE (excSel .ss s.seg.ss.sel) 8 (frame5 s)
      .ok (gateIst g == 1 && (descAttr d).dpl == s.cpl && u.targetOk rip)) = true) ∧
    (∀ x ∈ [0x2900, 0x2904], entry (onIst 0 x) 0x81 (fun g rip d => do
      let s := onIst 0 x
      let moved := (s.setCs (descSeg (withRpl (gateSel g) 0) d) 0).setRsp 0x3900
      let ssp ← moved.isstSsp 1
      let u ← (moved.setSsp ssp).pushAllE (excSel .ss s.seg.ss.sel) 8 (frame5 s)
      let v ← u.setTokenBusy 0x2900
      let y ← v.pushSsFrame s.seg.cs.sel (s.seg.cs.base + s.rip) s.cet.ssp
      .ok (ssp.toNat == x && y.targetOk rip && s.shadowEnabled s.cpl)) = true) ∧
    (let s := shadow 0 []
     entry s 0x80 (fun g rip d => do
      let u ← ((s.setCs (descSeg (withRpl (gateSel g) 0) d) 0).setRsp s.gpr.rsp).pushAllE ss0 8 (frame5 s)
      let x ← u.alignSsp
      let y ← x.pushSsFrame s.seg.cs.sel (s.seg.cs.base + s.rip) s.cet.ssp
      .ok (y.targetOk rip)) = true) ∧
    (∀ cpl ∈ [(3 : BitVec 2), 1], ∀ v ∈ [(0x80 : Byte), 0x81], entry (onIst cpl 0x2900) v (fun g rip d => do
      let s := onIst cpl 0x2900
      let cs := descSeg (withRpl (gateSel g) 0) d
      let x ← (s.setCs cs 0).innerStack 0 (gateIst g)
      let stack := s.enterInner cs 0 x.1 (x.2 &&& ~~~(0xF : Quad))
      let ssp ← if gateIst g = 0 then .ok (s.cet.plSsp 0) else stack.isstSsp (gateIst g)
      let u ← stack.pushAllE (excSel .ss x.1.sel) 8 (frame5 s)
      let w ← (u.setSsp ssp).setTokenBusy ssp
      let y ← w.pushSsFrame s.seg.cs.sel (s.seg.cs.base + s.rip) s.cet.ssp
      .ok (s.shadowEnabled 0 && s.shadowEnabled s.cpl && (descAttr d).dpl != s.cpl && y.targetOk rip)) = true) := by
  decide +kernel

/-- Virtual-8086 mode in legacy protected mode, with the redirection bitmap at 71E0h. -/
def virtual (iopl : BitVec 2) (vme : Bool) (bit : Nat) : State :=
  { prot0 with
    flags := { Flags.reset with vm := true, iopl := iopl, fi := true, vif := true }
    cpl := 3
    seg := { Segs.reset with cs := { sel := 0x100, base := 0x1000, limit := 0xFFFF, attr := .resetCode } }
    ctl := { prot0.ctl with cr4 := if vme then 1 else 0 }
    mem := [(0x7066, 2, 0x200), (0x71F0, 1, bit), (0x200, 4, 0x01230456), (0x2900, 8, 0x2900)].foldl
      (fun m x => Memory.store m (physRange x.1 x.2.1) x.2.2) (tables false) }

/-- `ProtectedModeEntry`: from virtual-8086 mode, through a gate, with and without shadow stacks; and INT 80H by its bit of the
redirection bitmap, set and clear, at IOPL 3 and below. -/
theorem witness_ProtectedModeEntry_virtual :
    (∀ s ∈ [virtual 3 false 0, virtual 3 true 1, { virtual 3 false 0 with
        ctl := { prot0.ctl with cr0 := 0x10011, cr4 := 0x800000 }, cet := { Cet.reset with sCet := 1, pl0Ssp := 0x2900 } }],
      entry s 0x80 (fun g rip d => do
        let cs := descSeg (withRpl (gateSel g) 0) d
        let cleared : State := { s with flags := { s.flags with vm := false } }
        let x ← (cleared.setCs cs 0).innerStack 0 0
        let u ← (cleared.enterInner cs 0 x.1 x.2).pushAllE (excSel .ss x.1.sel) 4 ([0, 0, 0, 0] ++ frame5 s)
        let y ← (u.setSsp 0x2900).setTokenBusy 0x2900
        .ok (s.virtMode && !s.longMode && (descAttr d).dpl == 0 && !(descAttr d).conforming && u.targetOk rip && y.targetOk rip)) = true) ∧
    (∀ x ∈ [(3, 0), (3, 1), (0, 0), (0, 1)], goodAnd (do
      let s := virtual (BitVec.ofNat 2 x.1) true x.2
      let io ← s.tableRead gp0 s.tr.base s.tr.limit 102 2
      let b ← s.tssBit (io - 32).toNat 0x80
      let rip ← s.sysReadLin 0x200 2
      let cs ← s.sysReadLin 0x202 2
      let _ ← s.pushAllE ss0 2 [0x3202, 0x100, s.nextRip]
      .ok (s.cr4Bit 0 && b == (x.2 == 1) && rip == 0x456 && cs == 0x123)) id = true) ∧
    ((virtual 0 false 0).cr4Bit 0 = false ∧ (virtual 0 false 0).flags.iopl ≠ 3) := by
  decide +kernel

/-- Three pops, and what holds of the values and of the state after them. -/
def pops (s : State) (n : Nat) (p : Quad → Quad → Quad → State → Bool) : Bool :=
  goodAnd (s.start.pop n) fun a => goodAnd (a.2.pop n) fun b => goodAnd (b.2.pop n) fun c => p a.1 b.1 c.1 c.2

/-- `IretResult`: real mode, virtual-8086 mode, a return to the same and to the outer level, and NT. -/
theorem witness_IretResult :
    (real.realMode = true ∧ real.sstkEnabled = false ∧ pops real 2 (fun rip _ _ c => c.targetOk rip) = true) ∧
    (virt.virtMode = true ∧ virt.flags.iopl = 3 ∧ virt.sstkEnabled = false ∧ pops virt 2 (fun rip _ _ c => c.targetOk rip) = true) ∧
    (let s : State := { prot0 with mem := Memory.store prot0.mem (physRange 0x3000 12) 0x000000020000000800000100 };
      s.protMode = true ∧ s.flags.nt = false ∧ s.mode64 = false ∧
      pops s 4 (fun rip cs image c => !image.getLsbD 17 && rpl (BitVec.ofNat 16 cs.toNat) == s.cpl &&
        goodAnd (c.readIretCs (BitVec.ofNat 16 cs.toNat)) (fun d => (c.setCs (descSeg 8 d) s.cpl).targetOk rip)) = true) ∧
    (∀ x ∈ [(0x1B, 0x23), (8, 0x10)],
      let frame : Nat := 0x100 + 2 ^ 64 * x.1 + 2 ^ 128 * 2 + 2 ^ 192 * 0x2F00 + 2 ^ 256 * x.2;
      let s : State := { long0 with mem := Memory.store long0.mem (physRange 0x3000 40) frame };
      pops s 8 (fun rip cs _ c => cs.toNat == x.1 && goodAnd (c.pop 8) (fun y => goodAnd (y.2.pop 8) (fun z =>
        goodAnd (z.2.readIretCs (BitVec.ofNat 16 x.1)) (fun d =>
          let t := z.2.setCs (descSeg (BitVec.ofNat 16 x.1) d) (rpl (BitVec.ofNat 16 x.1))
          t.targetOk rip && good (t.returnSs (BitVec.ofNat 16 z.1.toNat) (rpl (BitVec.ofNat 16 x.1))))))) = true) ∧
    ({ long0.flags with nt := true } : Flags).nt = true := by
  decide +kernel

/-- 64-bit mode with a frame for IRETQ to `cs`, and on the shadow stack a frame whose SSP is `prev` below a token that is busy. -/
def returning (cs ss prev : Nat) : State :=
  let s := shadow 0 [(0x3000, 40, 0x100 + 2 ^ 64 * cs + 2 ^ 128 * 2 + 2 ^ 192 * 0x2F00 + 2 ^ 256 * ss), (0x2800, 8, prev), (0x2808, 8, 0x100),
    (0x2810, 8, cs), (0x2818, 8, 0x2819), (0x5060, 8, 0x00AFBB000000FFFF), (0x5068, 8, 0x00CFB3000000FFFF)]
  { s with cet := { s.cet with ssp := 0x2800, pl3Ssp := 0x2700 } }

/-- `IretResult`: shadow stacks, at the same level with and without a switch of shadow stacks, to level 1 and to level 3; in
virtual-8086 mode, with CR4.VME; and to virtual-8086 mode. -/
theorem witness_IretResult_stacks :
    (∀ x ∈ [(8, 0x10, 0x2818), (8, 0x10, 0x2700), (0x61, 0x69, 0x2818), (0x1B, 0x23, 0)],
      let s := returning x.1 x.2.1 x.2.2
      let sel := BitVec.ofNat 16 x.1
      goodAnd (do
        let a ← s.start.pop 8
        let b ← a.2.pop 8
        let c ← b.2.pop 8
        let y ← c.2.pop 8
        let z ← y.2.pop 8
        let d ← z.2.readIretCs sel
        let t := z.2.setCs (descSeg sel d) (rpl sel)
        let st ← t.returnSs (BitVec.ofNat 16 z.1.toNat) (rpl sel)
        let q := ({ t with seg := { t.seg with ss := st } } : State).writeRsp y.1
        let f ← if rpl sel = 3 then .ok (0, z.2) else (if rpl sel = 0 then q else z.2).popSsFrame sel (q.seg.cs.base + a.1) s.cpl
        let new := if rpl sel = 3 then s.cet.pl3Ssp else f.1
        let g ← if rpl sel = 0 then f.2.clearToken f.2.cet.ssp (f.1 == f.2.cet.ssp)
          else ({ q.setSsp new with cpl := s.cpl } : State).clearToken f.2.cet.ssp false
        .ok (t.targetOk a.1 && s.shadowEnabled s.cpl && s.cet.ssp.toNat % 8 == 0 && !g.compatMode)) id = true) ∧
    (∀ image ∈ [0x202, 0x302, 0x200], let s : State := { virtual 0 true 0 with mem := memOf [(0x3000, 6, 0x10000100 + 2 ^ 32 * image)] };
      s.virtMode = true ∧ s.flags.iopl ≠ 3 ∧ s.cr4Bit 0 = true ∧ pops s 2 (fun rip _ f c => f.toNat == image && c.targetOk rip) = true) ∧
    (let s : State := { prot0 with mem := Memory.store prot0.mem (physRange 0x3000 12) 0x000232020000A12300041000 }
     goodAnd (do
        let a ← s.start.pop 4
        let b ← a.2.pop 4
        let c ← b.2.pop 4
        let t ← List.foldlM (fun (t : State) _ => do let x ← t.pop 4; .ok x.2) c.2 (List.range 6)
        let u ← ({ t with cet := { t.cet with ssp := 0x3000 } } : State).clearToken 0x3000 false
        .ok (c.1.getLsbD 17 && u.cpl == 0 && !s.longMode && !s.flags.nt)) id = true) := by
  decide +kernel

/-- A state whose interrupt table is too short for every vector but 0 to 8. -/
def shortIdt : State := { prot0 with idtr := { base := 0x6000, limit := 0x47 } }

/-- `DoubleFaults`: the exception of a delivery that fails, its class, and what is delivered then. -/
theorem witness_DoubleFaults :
    let gp : Event := { vector := 13, kind := .exception, code := some 0, savedRip := 0, oldRip := 0 }
    let df (v : Byte) : Event := { vector := v, kind := .exception, code := some 0, savedRip := 0, oldRip := 0, rf := true }
    (match shortIdt.deliverOnce gp with
      | .error (.exc x) => x.name.vector == 13
      | _ => false) = true ∧
    good (({ prot0 with mem := Memory.store prot0.mem (physRange 0x6040 8) 0x0000EE0000084800 } : State).deliverOnce (df 8)) = true ∧
    (match prot0.deliverOnce (df 8) with
      | .error (.exc x) => x.name.vector == 11 || x.name.vector == 13
      | _ => false) = true ∧
    (match shortIdt.deliverOnce (software shortIdt 0x21) with
      | .error (.exc x) => x.name.vector == 13
      | _ => false) = true ∧ good (prot0.deliverOnce (df 13)) = true := by
  decide +kernel

/-- `SingleStepTrap`: TF set, with the trap and a fault delivered, and the shadow of SS. -/
theorem witness_SingleStepTrap :
    let s : State := { real with flags := { real.flags with tf := true } }
    let stepped : State := { s.start with dbg := { s.dbg with dr6 := s.dbg.dr6 ||| 0x4000 } }
    s.flags.tf = true ∧ good (stepped.deliverOnce { vector := 1, kind := .exception, savedRip := s.start.rip, oldRip := s.start.rip }) = true ∧
    s.start.exec.shadow ≠ .ss ∧ good (s.start.loadSegReg .ss 0) = true ∧
    goodAnd (s.deliverOnce { vector := 1, kind := .exception, savedRip := s.nextRip, oldRip := s.nextRip })
      (fun t => t.exec.shadow != .ss) = true ∧
    good (s.deliverOnce { vector := 13, kind := .exception, code := some 0, savedRip := s.rip, oldRip := s.rip, rf := true }) = true := by
  decide +kernel

/-- `UserModeKeepsSystemState`: level 3 outside a guest, an instruction that completes and one that enters the kernel. -/
theorem witness_UserModeKeepsSystemState :
    long3.cpl = 3 ∧ long3.svm.guest = false ∧ nexts (exec (.nop none) long3) (fun _ => true) = true ∧
    nexts (exec .syscall long3) (fun t => t.cpl == 0) = true ∧ nexts (exec (.int 0x80) long3) (fun t => t.cpl == 0) = true := by
  decide +kernel

/-- `StringIteration` and `StringRepeat`: the operands, the ports that the level allows and those that the bitmap decides, and a
count of 0 and of others. -/
theorem witness_strings :
    good (long0.start.access .ds (BitVec.ofNat 64 (uns .w64 long0.gpr.rsi)) 8 false) = true ∧
    good (long0.start.access .es (BitVec.ofNat 64 (uns .w64 long0.gpr.rdi)) 8 true) = true ∧
    good (long0.start.access .es (BitVec.ofNat 64 (uns .w64 long0.gpr.rdi)) 8 false) = true ∧
    good (long0.start.ioCheck 0x7F 4) = true ∧ long0.virtMode = false ∧
    (long0.protMode = true ∧ long0.cpl ≤ long0.flags.iopl) ∧
    (let s : State := { long3 with mem := Memory.store long0.mem (physRange 0x7066 2) 0x68 };
      s.protMode = true ∧ s.flags.iopl < s.cpl ∧ s.tr.attr.type ≠ 1 ∧ s.tr.attr.type ≠ 3 ∧
      goodAnd (s.tableRead gp0 s.tr.base s.tr.limit 102 2) (fun b => b == 0x68 &&
        (List.range 4).all fun i => goodAnd (s.tssBit 0x68 (0x7F + i)) (fun x => !x)) = true) ∧
    (let s : State := { long3 with mem := Memory.store (Memory.store long0.mem (physRange 0x7066 2) 0x68) (physRange 0x7077 1) 0x80 };
      goodAnd (s.tssBit 0x68 0x7F) id = true) ∧
    uns .w64 long0.gpr.rcx ≠ 0 ∧ uns .w64 (long0With 0 0).gpr.rcx = 0 ∧
    (∀ x ∈ stringForms .w32 .ds .a64, good (x.2.2 long0.start) = true) ∧
    (match long0.start.lods .w8 .ds .a64 with | .ok _ => true | .error _ => false) = true ∧
    (match ({ long0 with gpr := { gprs with rsi := 0x800000000000 } } : State).start.lods .w8 .ds .a64 with
      | .error (.exc _) => true
      | _ => false) = true := by
  decide +kernel

/-- `StackResult`: a push and a pop of each size, PUSHA and POPA, PUSHF and POPF in virtual-8086 mode with IOPL 3 and with the
virtual-mode extensions, ENTER with and without levels, LEAVE. -/
theorem witness_StackResult :
    let vme : State := { virt with flags := { virt.flags with iopl := 0 }, ctl := { virt.ctl with cr4 := 1 } }
    good (long0.start.access .ss (wrap .w64 (uns .w64 long0.gpr.rsp - 8)) 8 true) = true ∧
    good (real.start.access .ss (wrap .w16 (uns .w16 real.gpr.rsp - 2)) 2 true) = true ∧
    good (long0.start.readRM .w64 (.mem atRbx)) = true ∧
    good (long0.start.access .ss (wrap .w64 (uns .w64 long0.gpr.rsp)) 8 false) = true ∧
    good (long0.start.place .w64 true (.mem atRbx)) = true ∧
    good (real.start.pushAllE ss0 2 ([Gpr.rax, .rcx, .rdx, .rbx, .rsp, .rbp, .rsi, .rdi].map (real.readGpr .w16))) = true ∧
    (∀ i < 8, good (real.start.access .ss (wrap .w16 (uns .w16 real.gpr.rsp + i * 2 : Nat)) 2 false) = true) ∧
    (long0.virtMode = false ∧ good (long0.start.push 8 2) = true ∧ good (long0.start.pop 8) = true) ∧
    (virt.virtMode = true ∧ virt.flags.iopl = 3 ∧ good (virt.start.pop 2) = true) ∧
    (vme.virtMode = true ∧ vme.flags.iopl ≠ 3 ∧ vme.cr4Bit 0 = true ∧ good (vme.start.push 2 0x3002) = true ∧ good (vme.start.pop 2) = true) ∧
    ({ vme with ctl := virt.ctl } : State).cr4Bit 0 = false ∧
    goodAnd (long0.start.push 8 long0.gpr.rbp) (fun t => goodAnd (t.copyDisplay 8 long0.gpr.rbp 30 1) (fun z =>
      goodAnd (z.push 8 t.gpr.rsp) (fun y =>
        good (y.access .ss (wrap .w64 (uns .w64 (y.gpr.rsp - 16))) 8 true)))) = true ∧
    good (long0.start.access .ss (wrap .w64 (uns .w64 long0.gpr.rbp)) 8 false) = true := by
  decide +kernel

/-- 64-bit mode at level 0 with these features. -/
def featured (f : Config.Features → Config.Features) (efer : Quad) : State :=
  { long0 with ctl := { long0.ctl with efer := efer }, cfg := { long0.cfg with features := f long0.feat } }

/-- `DescriptorInstructions`: a visible selector with the last byte of its descriptor at the limit, and one past it; a query of code,
of a gate and of a 16-byte descriptor; the loads of LDTR and TR; the tables; LMSW; level 3 and real mode. -/
theorem witness_DescriptorInstructions :
    long0.protMode = true ∧ good (long0.start.place .w16 true (.reg cxr)) = true ∧ good (long0.start.readRM .w16 (.reg cxr)) = true ∧
    (0x78 + 7 ≤ long0.gdtr.limit.toNat ∧ ¬0x80 + 7 ≤ long0.gdtr.limit.toNat) ∧
    goodAnd (prot3.start.sysReadLin (prot3.gdtr.base + 0x18) 8) (fun d => (descAttr d).readable && (descAttr d).dpl == 3) = true ∧
    goodAnd (prot3.start.sysReadLin (prot3.gdtr.base + 8) 8) (fun d => (descAttr d).dpl != 3 && !(descAttr d).conforming) = true ∧
    goodAnd (long0.start.sysReadLin (long0.gdtr.base + 0x38) 8) (fun d => !(descAttr d).s && (descAttr d).type == 9) = true ∧
    goodAnd (long0.start.sysReadLin (long0.gdtr.base + 0x40) 8) (fun d => d.extractLsb' 40 5 == 0) = true ∧
    (0x38 + 15 ≤ long0.gdtr.limit.toNat ∧ long0.gdtr.limit.toNat < 0x78 + 15) ∧
    (long0.cpl = 0 ∧ goodAnd (long0.start.sysReadLin (long0.gdtr.base + 0x28) 8) (fun d => (descAttr d).type == 2 && (descAttr d).p &&
      !(descAttr d).s && long0.canonical (descBase d)) = true ∧
      good (long0.start.sysSpan .write (long0.gdtr.base + 0x38 + 5) 1) = true) ∧
    (good (long0.start.access .ds (long0.start.ea atRbx) 2 true) = true ∧ good (long0.start.access .ds (long0.start.ea atRbx) 2 false) = true ∧
      goodAnd (long0.start.access .ds (long0.start.ea atRbx + 2) 8 false) (fun qs =>
        long0.canonical (BitVec.ofNat 64 (long0.loadAt qs))) = true ∧
      goodAnd (long0.start.access .ds (long0.start.ea atRbx) 2 true) (fun ps =>
        good ((long0.start.storeAt ps long0.gdtr.limit.toNat).access .ds (long0.start.ea atRbx + 2) 8 true)) = true) ∧
    long0.longMode = (long0.eferBit 8 && long0.pg) ∧ long3.cpl ≠ 0 ∧ real.protMode = false := by
  decide +kernel

/-- `FastSystemCalls`: the enables in long mode and in legacy mode, and the states that trap. -/
theorem witness_FastSystemCalls :
    let legacy : State := { prot0 with msr := { prot0.msr with sysenterCs := 8 } }
    (long0.cr4Bit 23 = false ∧ long0.feat.sysCallSysRet = true ∧ long0.eferBit 0 = true ∧ long0.longMode = true) ∧
    (long0.protMode = true ∧ long0.cpl = 0 ∧ long0.mode64 = true) ∧
    (prot0.longMode = false ∧ prot0.eferBit 0 = true ∧ prot0.protMode = true ∧ prot0.mode64 = false) ∧ long3.cpl ≠ 0 ∧
    real.eferBit 0 = false ∧
    (legacy.feat.sysEnterSysExit = true ∧ legacy.longMode = false ∧ legacy.msr.sysenterCs.extractLsb' 0 16 &&& 0xFFFC ≠ 0 ∧
      legacy.pe = true) ∧ real.pe = false ∧ virt.protMode = false := by
  decide +kernel

/-- `ModelSpecificRegisters`: a number that exists, one that does not; a canonical and a non-canonical value; the counters at the
edges of their groups; the time-stamp counter and the key register allowed and not. -/
theorem witness_ModelSpecificRegisters :
    long0.cfg.perf = .default ∧ long0.feat.msr = true ∧ long0.cpl = 0 ∧ long3.cpl ≠ 0 ∧
    (0xC0000082 : BitVec 32) ∈ long0.cfg.msrs ∧ (0xC0000104 : BitVec 32) ∉ long0.cfg.msrs ∧
    ((msrTable long0.start).any fun x => x.1 == 0xC0000082) = true ∧
    (long0.canonical 0x7FFFFFFFFFFF = true ∧ long0.canonical 0x800000000000 = false) ∧
    (long0.feat.perfCtrExtCore = true ∧ long0.feat.perfCtrExtNb = true ∧ long0.feat.perfCtrExtL2i = true ∧
      long0.start.msr.perf.size = 14 ∧ long3.cr4Bit 8 = false) ∧
    (long0.feat.tsc = true ∧ long0.feat.rdtscp = true ∧ ({ long3 with ctl := { long3.ctl with cr4 := 0x24 } } : State).cr4Bit 2 = true) ∧
    ({ long0 with ctl := { long0.ctl with cr4 := 0x400020 } } : State).cr4Bit 22 = true ∧ long0.cr4Bit 22 = false ∧
    uns .w32 gprs.rdx ≠ 0 ∧ uns .w32 (long0With 0 0).gpr.rcx = 0 ∧ long0.gpr.rcx.extractLsb' 0 32 ≠ (0 : BitVec 32) ∧
    good (long0.deliverOnce (long0.excEvent { name := .ud })) = true := by
  decide +kernel

/-- `ShadowStackResult`: each token where its instruction looks for it, and a token that is not valid; shadow stacks disabled. -/
theorem witness_ShadowStackResult :
    let span (s : State) (write : Bool) (a : Quad) (n : Nat) : Bool := good (s.start.sstkSpan (s.cpl == 3) write a n)
    let busy := shadow 0 [(0x2000, 8, 0x2001), (0x2900, 8, 0x2900)]
    let restore := shadow 3 [(0x2000, 8, 0x2009), (0x2808, 8, 0x2903)]
    (busy.protMode = true ∧ busy.cr4Bit 23 = true ∧ busy.cet.sCet.getLsbD 0 = true ∧ busy.cpl = 0 ∧ busy.feat.cetSs = true ∧
      goodAnd (busy.start.sstkOperand atRbx 8) (fun lin => lin == 0x2000) = true ∧ span busy false 0x2000 8 = true ∧
      span busy true 0x2000 8 = true ∧ busy.loadAt (physRange 0x2000 8) = 0x2000 + 1 ∧
      busy.cet.pl0Ssp.toNat % 8 = 0 ∧ span busy false 0x2900 8 = true ∧ span busy true 0x2900 8 = true ∧
      busy.loadAt (physRange 0x2900 8) = 0x2900) ∧
    (restore.shadowEnabled restore.cpl = true ∧ span restore false 0x2808 8 = true ∧
      span restore false (0x2808 + BitVec.ofNat 64 ((max 255 1 - 1) * 8)) 8 = true ∧
      goodAnd (restore.start.sstkOperand atRbx 8) (fun lin => lin == 0x2000) = true ∧ restore.mode64 = true ∧
      (restore.loadAt (physRange 0x2000 8) % 4 = restore.mode64.toNat ∧
        (restore.loadAt (physRange 0x2000 8) + 2 ^ 64 - 1 - 8) % 2 ^ 64 / 8 * 8 = 0x2000) ∧
      (restore.cet.ssp.toNat % 8 = 0 ∧ restore.loadAt (physRange 0x2808 8) % 4 = 2 + restore.mode64.toNat ∧ restore.flags.cf = false ∧
        span restore true (0x2900 - 4) 4 = true ∧
        goodAnd (restore.start.sstkSpan true true (0x2900 - 4) 4) (fun qs =>
          good ((restore.start.storeAt qs 0).sstkSpan true true (0x2900 - 8) 8)) = true) ∧
      restore.cet.uCet.getLsbD 1 = true ∧ span restore true 0x2000 8 = true) ∧
    (let hole : State := { shadow 3 [(0x2808, 8, 0x2902)] with
        seg := prot3.seg, ctl := { prot3.ctl with cr0 := 0x10011, cr4 := 0x800020 }, flags := { prot3.flags with cf := true } };
      hole.mode64 = false ∧ span hole false (0x2808 + 8) 4 = true ∧ hole.loadAt (physRange 0x2810 4) = 0 ∧
      hole.loadAt (physRange 0x2808 8) % 4 = 2 + hole.mode64.toNat ∧ hole.shadowEnabled hole.cpl = true) ∧
    long3.shadowEnabled long3.cpl = false ∧ good (busy.start.sstkSpan true true 0x2000 8)  = true := by
  decide +kernel

/-- `ShadowStackResult`, the shared operations: a token that is free and one that is busy, SSP aligned and not, and a frame. -/
theorem witness_ShadowStackResult_frames :
    let span (s : State) (write : Bool) (a : Quad) (n : Nat) : Bool := good (s.sstkSpan (s.cpl == 3) write a n)
    let busy := shadow 0 [(0x2000, 8, 0x2001), (0x2900, 8, 0x2900)]
    (span busy false 0x2900 8 = true ∧ span busy true 0x2900 8 = true ∧ busy.loadAt (physRange 0x2900 8) = 0x2900 ∧ busy.loadAt (physRange 0x2000 8) = 0x2000 + 1 ∧
      busy.loadAt (physRange 0x2808 8) ≠ 0x2808) ∧
    ((0x2804 : Quad).toNat / 4 % 2 = 1 ∧ (0x2808 : Quad).toNat / 4 % 2 = 0 ∧ span busy true (0x2804 - 4) 4 = true) ∧
    (span busy true 0x2800 8 = true ∧ span busy true 0x27F8 8 = true ∧ span busy true 0x27F0 8 = true) ∧
    (span busy false 0x2808 8 = true ∧ span busy false 0x2810 8 = true ∧ span busy false 0x2818 8 = true) ∧
    (let frame := shadow 0 [(0x2808, 8, 0x2900), (0x2810, 8, 0x1000), (0x2818, 8, 8)]
     goodAnd (frame.popSsFrame 8 0x1000 0) (fun x => x.1 == 0x2900) = true ∧ good (frame.popSsFrame 8 0x1001 0) = false) := by
  decide +kernel

/-- `VirtualMachineInstructions`: the enables, addresses at the edges, and INVLPGB legal and not; the clauses over the VMCB rest on its
layout, which is a parameter: see `witness_vmcb` and `witness_vmrun`. -/
theorem witness_VirtualMachineInstructions :
    let s : State := { featured (fun f => { f with svm := true, sevEs := true, invlpgb := true, skinit := true }) 0x1501 with
      gpr := { gprs with rax := 0xFFFFFFFFF000, rdx := 0, rcx := 0 } }
    (s.protMode = true ∧ s.cpl = 0 ∧ s.feat.svm = true ∧ s.eferBit 12 = true) ∧
    (uns (addrWidth .a64) s.gpr.rax < 2 ^ s.cfg.physAddrBits ∧ uns (addrWidth .a64) s.gpr.rax % 4096 = 0) ∧
    2 ^ s.cfg.physAddrBits ≤ uns (addrWidth .a64) 0x1000000000000 ∧ s.svm.guest = false ∧
    (s.feat.sevEs = true ∧ ({ s.svm with guest := true, sevEs := true } : Svm).sevEs = true) ∧
    (long0.feat.svm = false ∧ long0.eferBit 12 = false ∧ (long0.eferBit 12 || long0.feat.svmLock || long0.feat.skinit) = false) ∧
    (let slb := BitVec.ofNat 64 (s.gpr.rax.toNat % 2 ^ 32 / 2 ^ 16 * 2 ^ 16); slb.toNat + 4 ≤ 2 ^ s.cfg.physAddrBits) ∧
    (s.feat.invlpgb = true ∧ s.gpr.rcx.toNat % 2 ^ 16 ≤ s.cfg.invlpgbCountMax ∧ (0x2000 : Quad).toNat / 64 % 64 = 0 ∧
      (0x2040 : Quad).toNat / 64 % 64 ≠ 0) := by
  decide +kernel

/-- Memory below 2^PHYS_ADDR_BITS can be read. -/
theorem readPa_good (t : State) (pa n : Nat) (h : pa + n ≤ 2 ^ t.cfg.physAddrBits) : t.readPa pa n = .ok (t.loadAt (physRange pa n)) := by
  have : t.absent (physRange pa n) = none := by
    unfold State.absent physRange
    rw [List.find?_eq_none]
    intro x hx
    simp only [List.mem_map, List.mem_range] at hx
    obtain ⟨i, hi, rfl⟩ := hx
    simp only [decide_eq_true_eq]
    omega
  simp [State.readPa, this]

/-- Memory below 2^PHYS_ADDR_BITS can be written. -/
theorem writePa_good (t : State) (pa n v : Nat) (h : pa + n ≤ 2 ^ t.cfg.physAddrBits) :
    t.writePa pa n v = .ok (t.storeAt (physRange pa n) v) := by
  have : t.absent (physRange pa n) = none := by
    unfold State.absent physRange
    rw [List.find?_eq_none]
    intro x hx
    simp only [List.mem_map, List.mem_range] at hx
    obtain ⟨i, hi, rfl⟩ := hx
    simp only [decide_eq_true_eq]
    omega
  simp [State.writePa, this]

/-- A field of an area that lies in one page of memory can be read. -/
theorem getField_good (t : State) (a : Area) (h : ∀ f, a.offset f + 8 ≤ 4096) (hp : a.pa + 4096 ≤ 2 ^ t.cfg.physAddrBits)
    (f : Config.VmcbField) :
    t.getField a f = .ok (BitVec.ofNat 64 (t.loadAt (physRange (a.pa + a.offset f) (vmcbBytes f)))) := by
  have b : vmcbBytes f ≤ 8 := by
    unfold vmcbBytes
    split <;> decide
  have := h f
  unfold State.getField
  rw [readPa_good _ _ _ (by omega)]
  rfl

/-- So can its fields be written, and no byte outside the page changes. -/
theorem putFields_good (a : Area) (h : ∀ f, a.offset f + 8 ≤ 4096) (l : List (Config.VmcbField × Quad)) : ∀ (t : State),
    a.pa + 4096 ≤ 2 ^ t.cfg.physAddrBits → ∃ m, t.putFields a l = .ok { t with mem := m } ∧
      ∀ b, a.pa + 4096 ≤ b → Memory.read m b = Memory.read t.mem b := by
  induction l with
  | nil => exact fun t _ => ⟨t.mem, rfl, fun _ _ => rfl⟩
  | cons x l ih =>
    intro t hp
    have w : vmcbBytes x.1 ≤ 8 := by
      unfold vmcbBytes
      split <;> decide
    have e := h x.1
    obtain ⟨m, hm, hr⟩ := ih (t.storeAt (physRange (a.pa + a.offset x.1) (vmcbBytes x.1)) x.2.toNat) hp
    refine ⟨m, ?_, fun b hb => (hr b hb).trans (Memory.read_store_other _ _ _ _ ?_)⟩
    · simp only [State.putFields]
      rw [writePa_good _ _ _ _ (by omega)]
      exact hm
    · simp only [physRange, List.mem_map, List.mem_range, not_exists, not_and]
      intro i hi
      omega

/-- `VirtualMachineInstructions` and `VmexitResult`, the fields of a VMCB, for every layout that fits one page. -/
theorem witness_vmcb (h : ∀ f, Config.vmcbOffset f + 8 ≤ 4096) :
    (∃ val : Config.VmcbField → Quad, ∀ f, long0.start.getField (vmcbAt 0x2000) f = .ok (val f)) ∧
    (∃ t, long0.start.putFields (vmcbAt 0x2000) [(.rip, 1), (.seg .fs .base, 2)] = .ok t) := by
  obtain ⟨_, hm, -⟩ := putFields_good (vmcbAt 0x2000) h [(.rip, 1), (.seg .fs .base, 2)] long0.start
    (by show 0x2000 + 4096 ≤ 2 ^ 48; decide)
  exact ⟨⟨_, getField_good long0.start (vmcbAt 0x2000) h (by show 0x2000 + 4096 ≤ 2 ^ 48; decide)⟩, _, hm⟩

/-- SVM enabled without LBR virtualization; the host area at 4000h, the VMCB at 2000h. -/
def vmHost (mem : List Host.Cell) : State :=
  { featured (fun f => { f with svm := true, lbrVirt := false }) 0x1501 with
    svm := { long0.svm with vmHsavePa := 0x4000, vmcb := 0x2000 }
    mem := mem }

/-- `VirtualMachineInstructions`, VMRUN: the host can be saved and every field read; the guest is entered where it is valid. -/
theorem witness_vmrun (h : ∀ f, Config.vmcbOffset f + 8 ≤ 4096) (h' : ∀ f, Config.hostSaveOffset f + 8 ≤ 4096) (v : List Host.Cell) :
    ∃ u, (vmHost v).start.saveHost = .ok u ∧ (∃ val : Config.VmcbField → Quad, ∀ f, u.getField (vmcbAt 0x2000) f = .ok (val f)) ∧
    ((∀ g, Config.guestInvalid g = false) → ∃ t, (vmHost v).start.vmrun 0x2000 = .ok (.enter t)) := by
  have h0 (f : Config.VmcbField) : (vmcbAt 0x2000).offset f + 8 ≤ 4096 := h f
  have h1 (f : Config.VmcbField) : (vmHost v).start.hostArea.offset f + 8 ≤ 4096 := h' f
  obtain ⟨m, hm, -⟩ := putFields_good (vmHost v).start.hostArea h1 ([(.seg .es .sel, (vmHost v).start.seg.es.sel.setWidth 64),
    (.seg .cs .sel, (vmHost v).start.seg.cs.sel.setWidth 64), (.seg .ss .sel, (vmHost v).start.seg.ss.sel.setWidth 64),
    (.seg .ds .sel, (vmHost v).start.seg.ds.sel.setWidth 64)] ++ (vmHost v).start.coreFields) (vmHost v).start (by show 0x4000 + 4096 ≤ 2 ^ 48; decide)
  have read (t : State) (hc : t.cfg = (vmHost v).cfg) := getField_good t (vmcbAt 0x2000) h0 (by rw [hc]; show 0x2000 + 4096 ≤ 2 ^ 48; decide)
  refine ⟨_, hm, ⟨_, read _ rfl⟩, fun ok => ?_⟩
  have segs (t : State) (hc : t.cfg = (vmHost v).cfg) (r) : ∃ g, t.getSeg (vmcbAt 0x2000) r = .ok g := by
    unfold State.getSeg
    simp only [read t hc, bind, Except.bind]
    exact ⟨_, rfl⟩
  have control (t : State) (hc : t.cfg = (vmHost v).cfg) : ∃ w, t.loadControl 0x2000 = .ok { t with svm := w } := by
    unfold State.loadControl
    simp only [read t hc, bind, Except.bind]
    exact ⟨_, rfl⟩
  have guest (t : State) (hc : t.cfg = (vmHost v).cfg) : ∃ u, t.loadGuest 0x2000 = .ok u ∧ u.cfg = (vmHost v).cfg := by
    obtain ⟨_, e1⟩ := segs t hc .es
    obtain ⟨_, e2⟩ := segs t hc .cs
    obtain ⟨_, e3⟩ := segs t hc .ss
    obtain ⟨_, e4⟩ := segs t hc .ds
    unfold State.loadGuest State.loadCore
    simp only [e1, e2, e3, e4, read t hc, bind, Except.bind]
    exact ⟨_, rfl, by simp [State.switchWorld, hc]⟩
  obtain ⟨w, hw⟩ := control { (vmHost v).start with mem := m } rfl
  obtain ⟨u, hu, hc⟩ := guest { (vmHost v).start with mem := m, svm := w } rfl
  have swap (a b c) : u.swapLbr a b c = .ok u := by
    unfold State.swapLbr
    rw [State.feat, hc]
    rfl
  have long : u.needsLongMode = false := by
    unfold State.needsLongMode
    rw [State.feat, hc]
    rfl
  have saved : ({ (vmHost v).start with svm := { (vmHost v).start.svm with vmcb := 0x2000 } } : State).saveHost = _ := hm
  refine ⟨{ u with svm := { u.svm with gif := true } }, ?_⟩
  unfold State.vmrun
  rw [saved]
  simp only [bind, Except.bind]
  rw [hw]
  simp only []
  rw [hu]
  simp only [swap, ok, long, Bool.or_self, Bool.false_eq_true, if_false]

/-- The guest can be saved, and then every field of the host area at 4000h read as it stands in memory. -/
theorem host_fields (h : ∀ f, Config.vmcbOffset f + 8 ≤ 4096) (h' : ∀ f, Config.hostSaveOffset f + 8 ≤ 4096) (mem : List Host.Cell) :
    ∃ u, ({ vmHost mem with svm := { (vmHost mem).svm with gif := false } } : State).saveGuest .vmmcall = .ok u ∧
      ∀ f, u.getField { pa := 0x4000, host := true } f =
        .ok (BitVec.ofNat 64 (Memory.load mem (physRange (0x4000 + Config.hostSaveOffset f) (vmcbBytes f)))) := by
  have h0 (f : Config.VmcbField) : (vmcbAt 0x2000).offset f + 8 ≤ 4096 := h f
  have h1 (f : Config.VmcbField) : ({ pa := 0x4000, host := true } : Area).offset f + 8 ≤ 4096 := h' f
  unfold State.saveGuest
  obtain ⟨m, hm, hr⟩ := putFields_good (vmcbAt 0x2000) h0 _
    { vmHost mem with svm := { (vmHost mem).svm with gif := false } } (by show 0x2000 + 4096 ≤ 2 ^ 48; decide)
  refine ⟨_, hm, fun f => (getField_good _ _ h1 (by show 0x4000 + 4096 ≤ 2 ^ 48; decide) f).trans ?_⟩
  refine congrArg (fun n => Except.ok (BitVec.ofNat 64 n)) (Memory.load_congr m mem _ fun p hp => hr p ?_)
  obtain ⟨i, -, rfl⟩ := List.mem_map.mp hp
  show 0x2000 + 4096 ≤ 0x4000 + Config.hostSaveOffset f + i
  omega

/-- `VmexitResult`: the guest can be saved and every field of the host read; selectors of the host that are null, and one outside
the limit of its table. -/
theorem witness_VmexitResult (h : ∀ f, Config.vmcbOffset f + 8 ≤ 4096) (h' : ∀ f, Config.hostSaveOffset f + 8 ≤ 4096) :
    (∃ u, ({ vmHost [] with svm := { (vmHost []).svm with gif := false } } : State).saveGuest .vmmcall = .ok u ∧
      ∀ f, u.getField { pa := 0x4000, host := true } f = .ok 0) ∧
    isNull 0 = true ∧ isNull 0x101 = false ∧
    (∀ (t : State) (base : Quad), good (t.tableRead (gpSel 0x101) base 0x101 (0x101 / 8 * 8) 8) = false) := by
  refine ⟨?_, by decide, by decide, fun _ _ => rfl⟩
  obtain ⟨u, hu, hf⟩ := host_fields h h' []
  refine ⟨u, hu, fun f => (hf f).trans ?_⟩
  rw [Memory.load_nil]
  rfl

/-- `VmexitResult`, the trap: TF of the host's rFLAGS set, in a host area whose other fields are clear. -/
theorem witness_VmexitTrap (h : ∀ f, Config.vmcbOffset f + 8 ≤ 4096) (h' : ∀ f, Config.hostSaveOffset f + 8 ≤ 4096)
    (hd : ∀ f, f ≠ .rflags →
      Config.hostSaveOffset f + 8 ≤ Config.hostSaveOffset .rflags ∨ Config.hostSaveOffset .rflags + 8 ≤ Config.hostSaveOffset f) :
    let host := vmHost [(0x4000 + Config.hostSaveOffset .rflags + 1, 1)];
    ∃ u, ({ host with svm := { host.svm with gif := false } } : State).saveGuest .vmmcall = .ok u ∧
      ∀ f, u.getField { pa := 0x4000, host := true } f = .ok (if f = .rflags then 0x100 else 0) := by
  intro host
  obtain ⟨u, hu, hf⟩ := host_fields h h' [(0x4000 + Config.hostSaveOffset .rflags + 1, 1)]
  refine ⟨u, hu, fun f => (hf f).trans ?_⟩
  by_cases e : f = .rflags
  · subst e
    simp [vmcbBytes, physRange, List.range, List.range.loop, Memory.load, Memory.read, Memory.unlisted]
  · rw [if_neg e, Memory.load_congr _ [] _ fun p hp => ?_, Memory.load_nil]
    · rfl
    · obtain ⟨i, hi, rfl⟩ := List.mem_map.mp hp
      have w : vmcbBytes f ≤ 8 := by
        unfold vmcbBytes
        split <;> decide
      have := hd f e
      have := List.mem_range.mp hi
      simp only [Memory.read]
      rw [if_neg (by omega)]

/-- `ReverseMapInstructions`: the enables, the table at 10000h, an entry that exists and one past the end, the operand of RMPUPDATE;
the fields of an entry are parameters. -/
theorem witness_ReverseMapInstructions :
    let s : State := { featured (fun f => { f with snp := true }) 0x501 with
      gpr := { gprs with rax := 0x200000, rcx := 0x2000 }
      cfg := { long0.cfg with features := { long0.feat with snp := true }, snpEn := true, rmpBase := 0x10000, rmpEnd := 0x20000 } }
    (s.feat.snp = true ∧ s.cpl = 0 ∧ s.mode64 = true ∧ s.cfg.snpEn = true ∧ s.svm.asid = 0) ∧
    (0x10000 + 0x4000 + 0x200000 / 4096 * 16 ≤ s.cfg.rmpEnd.toNat ∧ s.cfg.rmpEnd.toNat < 0x10000 + 0x4000 + 0xC01000 / 4096 * 16) ∧
    good (s.start.rmpGet 0x16000) = true ∧ good (s.start.rmpPut 0x16000 (rmpBlank false)) = true ∧
    good (s.start.access .ds (BitVec.ofNat 64 (uns (addrWidth .a64) s.gpr.rcx)) 16 false) = true ∧
    (s.svm.snpActive = false ∧ ({ s.svm with snpActive := true, vmpl := 1 } : Svm).vmpl ≠ 0) ∧
    (0 < 1 ∧ 1 < s.cfg.numVmpl ∧ s.cfg.numVmpl ≤ 4) ∧ real.mode64 = false ∧
    (prot0.pg = false ∧ raises (do
      let _ ← (real.start.guestEntry 0x10000 false)
      .ok real) 13 0 = true ∧ real.pg = false) := by
  decide +kernel

/-- `LightweightProfiling`: the facility available, disabled and enabled; what the host answers are parameters. -/
theorem witness_LightweightProfiling :
    let s : State := { featured (fun f => { f with lwp := true }) 0x501 with xcr0 := 0x4000000000000001 }
    s.feat.lwp = true ∧ s.protMode = true ∧ s.xcr0.getLsbD 62 = true ∧ s.lwp.cbAddr = 0 ∧
    ({ s.lwp with cbAddr := 0x4000 } : Lwp).cbAddr ≠ 0 ∧ good (s.start.readRM .w32 (.reg cxr)) = true := by
  decide +kernel

/-- `ReservedCodePoints`: the exceptions are delivered; a feature of another volume absent and present. -/
theorem witness_ReservedCodePoints :
    good (prot0.deliverOnce (prot0.excEvent { name := .gp, code := some 0 })) = true ∧
    good (prot0.deliverOnce (prot0.excEvent { name := .ud })) = true ∧ prot0.feat.avx = false ∧ prot0.feat.fpu = false ∧
    (prot0.feat.mmx || prot0.feat.sse || prot0.feat.sse2) = true := by
  decide +kernel


/-! ### Single steps: worked examples of the spec, by the rule that gives each -/

/-- One step of the bytes at rIP, and what holds after it. -/
def after (s : State) (code : List Byte) (p : State → Bool) : Bool :=
  let n : Nat := (code.zipIdx.map fun x => x.1.toNat * 256 ^ x.2).sum
  nexts (step { s with mem := Memory.store s.mem (physRange (s.seg.cs.base + s.rip).toNat code.length) n }) p

/-- 64-bit mode at level 0 with rAX, rBX, rCX and flags. -/
def regs (rax rbx rcx : Quad) (f : Flags := .reset) : State :=
  { long0 with gpr := { gprs with rax := rax, rbx := rbx, rcx := rcx }, flags := f }

/-- Carry set. -/
def carry : Flags := { Flags.reset with cf := true }

/-- 40_gp_a_b.md R303: AX = 0205h, AAD: 0019h. -/
theorem test_aad : after { real with gpr := { gprs with rax := 0x205 } } [0xD5, 0x0A]
    (fun t => t.gpr.rax == 0x19 && !t.flags.zf && !t.flags.sf && t.rip == 0x102) = true := by
  decide +kernel

/-- 40_gp_a_b.md R306: FFh + 00h + 1. -/
theorem test_adc : after (regs 0xFF 0 0 carry) [0x14, 0x00]
    (fun t => t.gpr.rax == 0 && t.flags.cf && t.flags.zf && t.flags.af && !t.flags.of) = true := by
  decide +kernel

/-- 40_gp_a_b.md R308: EAX = 7FFF_FFFFh plus 1. -/
theorem test_add : after (regs 0xAAAAAAAA7FFFFFFF 0 0) [0x83, 0xC0, 0x01]
    (fun t => t.gpr.rax == 0x80000000 && t.flags.of && t.flags.sf && !t.flags.cf) = true := by
  decide +kernel

/-- 45_gp_r_s.md R580: 0 - FFh - 1. -/
theorem test_sbb : after (regs 0 0 0 carry) [0x1C, 0xFF]
    (fun t => t.gpr.rax == 0 && t.flags.cf && t.flags.zf && t.flags.af && !t.flags.of) = true := by
  decide +kernel

/-- 41_gp_c.md R367: 05h with 07h. -/
theorem test_cmp : after (regs 5 0 0) [0x3C, 0x07]
    (fun t => t.gpr.rax == 5 && t.flags.cf && t.flags.sf && !t.flags.zf && !t.flags.of) = true := by
  decide +kernel

/-- 44_gp_n_p.md R513: an immediate of 32 bits is sign-extended. -/
theorem test_or : after (regs 0 0 0) [0x48, 0x0D, 0, 0, 0, 0x80]
    (fun t => t.gpr.rax == 0xFFFFFFFF80000000 && t.flags.sf) = true := by
  decide +kernel

/-- 44_gp_n_p.md R510: NEG of 01h. -/
theorem test_neg : after (regs 1 0 0) [0xF6, 0xD8]
    (fun t => t.gpr.rax == 0xFF && t.flags.cf && t.flags.sf && t.flags.af && t.flags.pf && !t.flags.of) = true := by
  decide +kernel

/-- 43_gp_l_m.md R480: FFFF_FFFFh times 2. -/
theorem test_mul : after (regs 0xFFFFFFFF 0 2) [0xF7, 0xE1]
    (fun t => t.gpr.rax == 0xFFFFFFFE && t.gpr.rdx == 1 && t.flags.cf && t.flags.of) = true := by
  decide +kernel

/-- 42_gp_d_j.md R405: -7 by 2 is -3 with -1; a quotient of 128 raises #DE, whose saved rIP is that of the instruction. -/
theorem test_idiv : after (regs 0xFFF9 2 0) [0xF6, 0xFB] (fun t => t.gpr.rax == 0xFFFD) = true ∧
    after { real with gpr := { gprs with rax := 0x8000, rbx := 0xFF } } [0xF6, 0xFB]
      (fun t => t.rip == 0x500 && t.seg.cs.sel == 0x300 && t.gpr.rsp == 0x2FFA && t.loadAt (physRange 0x2FFA 2) == 0x100) = true := by
  decide +kernel

/-- 42_gp_d_j.md R400: DAA of AEh. -/
theorem test_daa : after { real with gpr := { gprs with rax := 0xAE } } [0x27]
    (fun t => t.gpr.rax == 0x14 && t.flags.af && t.flags.cf && !t.flags.sf && !t.flags.zf && t.flags.pf) = true := by
  decide +kernel

/-- 46_gp_t_x.md R636: XADD of bytes. -/
theorem test_xadd : after (regs 1 0xFF 0) [0x0F, 0xC0, 0xD8]
    (fun t => t.gpr.rax == 0 && t.gpr.rbx == 1 && t.flags.cf && t.flags.zf && t.flags.af && t.flags.pf) = true := by
  decide +kernel

/-- 40_gp_a_b.md R326 and R327: the lowest and the highest one of 0A00h. -/
theorem test_scans : after (regs 0 0xA00 0) [0x0F, 0xBC, 0xC3] (fun t => t.gpr.rax == 9 && !t.flags.zf) = true ∧
    after (regs 0 0xA00 0) [0x0F, 0xBD, 0xC3] (fun t => t.gpr.rax == 11) = true := by
  decide +kernel

/-- 40_gp_a_b.md R333: BTS with an offset of 35 reaches the next doubleword. -/
theorem test_bts : after (regs 0 0x2000 35) [0x0F, 0xAB, 0x0B]
    (fun t => t.loadAt (physRange 0x2000 8) == 0x800000000 && !t.flags.cf) = true := by
  decide +kernel

/-- 44_gp_n_p.md R517 and R518. -/
theorem test_pdep_pext : after (regs 0 5 0xF0) [0xC4, 0xE2, 0x63, 0xF5, 0xC1] (fun t => t.gpr.rax == 0x50) = true ∧
    after (regs 0 0xA5 0xF0) [0xC4, 0xE2, 0x62, 0xF5, 0xC1] (fun t => t.gpr.rax == 0xA) = true := by
  decide +kernel

/-- 46_gp_t_x.md R630: T1MSKC of A7h. -/
theorem test_t1mskc : after (regs 0 0xA7 0) [0x8F, 0xE9, 0x78, 0x01, 0xFB]
    (fun t => t.gpr.rax == 0xFFFFFFF8 && !t.flags.cf && t.flags.sf && !t.flags.zf) = true := by
  decide +kernel

/-- 45_gp_r_s.md R573, R577, R578 and R584. -/
theorem test_shifts : after (regs 0x81 0 0) [0xD0, 0xC0] (fun t => t.gpr.rax == 3 && t.flags.cf && t.flags.of) = true ∧
    after (regs 0xC0 0 0) [0xD0, 0xE0] (fun t => t.gpr.rax == 0x80 && t.flags.cf && !t.flags.of && t.flags.sf) = true ∧
    after (regs 0xFFFFFFF5 0 0) [0xC1, 0xF8, 0x02] (fun t => t.gpr.rax == 0xFFFFFFFD && !t.flags.cf) = true ∧
    after (regs 0x12345678 0x9ABCDEF0 0) [0x0F, 0xA4, 0xD8, 0x08] (fun t => t.gpr.rax == 0x3456789A && !t.flags.cf) = true := by
  decide +kernel

/-- 41_gp_c.md R366: a condition that fails clears the upper half. -/
theorem test_cmov : after (regs 0xFFFFFFFF00000001 7 0) [0x0F, 0x44, 0xC3] (fun t => t.gpr.rax == 1) = true := by
  decide +kernel

/-- 43_gp_l_m.md R471 and R478. -/
theorem test_moves : after { regs 0 0x2000 0 with mem := memOf [(0x2000, 4, 0x44332211)] } [0x0F, 0x38, 0xF0, 0x03]
      (fun t => t.gpr.rax == 0x11223344) = true ∧
    after (regs 0 0x80000000 0) [0x48, 0x63, 0xC3] (fun t => t.gpr.rax == 0xFFFFFFFF80000000) = true := by
  decide +kernel

/-- 44_gp_n_p.md R523: POP ES in real mode wraps SP. -/
theorem test_pop_es : after { real with gpr := { gprs with rsp := 0xFFFE }, mem := memOf [(0xFFFE, 2, 0xB800)] } [0x07]
    (fun t => t.seg.es.sel == 0xB800 && t.seg.es.base == 0xB8000 && t.gpr.rsp == 0) = true := by
  decide +kernel

/-- 42_gp_d_j.md R404 and 43_gp_l_m.md R454. -/
theorem test_enter_leave :
    after { long0 with gpr := { gprs with rsp := 0x2000, rbp := 0x2200 } } [0xC8, 0x10, 0, 0]
      (fun t => t.loadAt (physRange 0x1FF8 8) == 0x2200 && t.gpr.rbp == 0x1FF8 && t.gpr.rsp == 0x1FE8) = true ∧
    after { long0 with gpr := { gprs with rsp := 0x1FE8, rbp := 0x1FF8 }, mem := memOf [(0x1FF8, 8, 0x2200)] } [0xC9]
      (fun t => t.gpr.rsp == 0x2000 && t.gpr.rbp == 0x2200) = true := by
  decide +kernel

/-- 41_gp_c.md R350: the return address and the target of a CALL. -/
theorem test_call : after long0 [0xE8, 0xFB, 0x0F, 0, 0]
    (fun t => t.rip == 0x2000 && t.gpr.rsp == 0x2FF8 && t.loadAt (physRange 0x2FF8 8) == 0x1005) = true := by
  decide +kernel

/-- 43_gp_l_m.md R458: LOOP with ECX = 1 falls through, with 2 it jumps to itself. -/
theorem test_loop : after (regs 0 0 1) [0xE2, 0xFE] (fun t => t.gpr.rcx == 0 && t.rip == 0x1002) = true ∧
    after (regs 0 0 2) [0xE2, 0xFE] (fun t => t.gpr.rcx == 1 && t.rip == 0x1000) = true := by
  decide +kernel

/-- 42_gp_d_j.md R411 and 50_sys_a_l.md R715: INT 21H and the IRET that undoes it. -/
theorem test_int_iret :
    after { real with
        gpr := { gprs with rsp := 0x100 }, rip := 0x10, flags := { Flags.reset with fi := true }
        seg := { real.seg with cs := { real.seg.cs with sel := 0x1000, base := 0x10000 } }
        mem := memOf [(0x84, 4, 0xF0001234)] } [0xCD, 0x21]
      (fun t => t.rip == 0x1234 && t.seg.cs.sel == 0xF000 && t.seg.cs.base == 0xF0000 && t.gpr.rsp == 0xFA && !t.flags.fi &&
        t.loadAt (physRange 0xFA 6) == 0x020210000012) = true ∧
    after { real with gpr := { gprs with rsp := 0xFA }, mem := memOf [(0xFA, 6, 0x020210000012)] } [0xCF]
      (fun t => t.rip == 0x12 && t.seg.cs.sel == 0x1000 && t.seg.cs.base == 0x10000 && t.gpr.rsp == 0x100 && t.flags.fi) = true := by
  decide +kernel

/-- 42_gp_d_j.md R413: an interrupt from level 3 of 64-bit mode pushes five quadwords on the stack of level 0. -/
theorem test_int_inner : after long3 [0xCD, 0x80]
    (fun t => t.cpl == 0 && t.rip == 0x4800 && t.gpr.rsp == 0x37D8 && t.loadAt (physRange 0x37D8 8) == 0x1002 &&
      t.loadAt (physRange 0x37E0 8) == 0x1B && t.loadAt (physRange 0x37F0 8) == 0x3000 && t.loadAt (physRange 0x37F8 8) == 0x23) = true := by
  decide +kernel

/-- 45_gp_r_s.md R592: one iteration of REP STOSQ stays at the instruction; 45_gp_r_s.md R581: SCASB that finds ends REPNE. -/
theorem test_strings : after { long0 with gpr := { gprs with rax := 0x41 } } [0xF3, 0x48, 0xAB]
      (fun t => t.gpr.rdi == 0x2208 && t.gpr.rcx == 2 && t.rip == 0x1000 && t.loadAt (physRange 0x2200 8) == 0x41) = true ∧
    after { long0 with gpr := { gprs with rax := 0 } } [0xF2, 0xAE]
      (fun t => t.gpr.rdi == 0x2201 && t.gpr.rcx == 2 && t.rip == 0x1002 && t.flags.zf) = true := by
  decide +kernel

/-- 50_sys_a_l.md R700 and R702. -/
theorem test_arpl_clac : after { prot0 with gpr := { gprs with rax := 8, rbx := 0x23 } } [0x63, 0xD8]
      (fun t => t.gpr.rax == 0xB && t.flags.zf) = true ∧
    after { long0 with flags := { Flags.reset with ac := true, fi := true } } [0x0F, 0x01, 0xCA]
      (fun t => t.flags == { Flags.reset with fi := true }) = true := by
  decide +kernel

/-- 50_sys_a_l.md R707: HLT at level 3 raises #GP(0), which enters level 0 with its error code on the stack. -/
theorem test_hlt_user : after long3 [0xF4]
    (fun t => t.cpl == 0 && t.rip == 0x4800 && t.gpr.rsp == 0x37D0 && t.loadAt (physRange 0x37D0 8) == 0 &&
      t.loadAt (physRange 0x37D8 8) == 0x1000) = true := by
  decide +kernel

/-- 52_sys_s_w.md R832: SYSCALL in 64-bit mode. -/
theorem test_syscall : after { long3 with msr := { long3.msr with lstar := 0x1234, star := 0x0008000000000000 >>> 16 } } [0x0F, 0x05]
    (fun t => t.cpl == 0 && t.rip == 0x1234 && t.gpr.rcx == 0x1002 && t.gpr.r11 == 2 && t.seg.cs.sel == 8 && t.seg.ss.sel == 0x10) = true := by
  decide +kernel

/-- 50_sys_a_l.md R708: INCSSPQ counts by the low byte. -/
theorem test_incssp : after { shadow 3 [] with gpr := { gprs with rax := 0x103 } } [0xF3, 0x48, 0x0F, 0xAE, 0xE8]
    (fun t => t.cet.ssp == 0x2820) = true := by
  decide +kernel

/-- 20_memory.md R145: REP MOVSB that writes over its own first byte goes on with the bytes it was fetched with. -/
theorem test_rep_overwrites_itself :
    nexts (step ((regs 0 0 2).putCode [0xF3, 0xA4])) (fun t => t.exec.latch == [0xF3, 0xA4] &&
      nexts (step { t with mem := Memory.store t.mem (physRange 0x1000 2) 0x9090 }) (fun u =>
        u.gpr.rcx == 0 && u.rip == 0x1002 && u.exec.latch == [])) = true := by
  decide +kernel

/-- 20_memory.md R108: CMPXCHG8B at 4 modulo 8 with alignment checks enabled has no #AC: its parts are doublewords. -/
theorem test_cmpxchg8b_parts :
    let s : State := { long3 with ctl := { long3.ctl with cr0 := 0x80040011 }, flags := { Flags.reset with ac := true } }
    s.acEnabled = true ∧ after { s with gpr := { gprs with rbx := 0x2004 } } [0x0F, 0xC7, 0x0B]
      (fun t => t.rip == 0x1003 && t.gpr.rax == 0) = true := by
  decide +kernel

/-- 52_sys_s_w.md R842, 60_exceptions.md R926: a host reloaded with TF set takes the single-step trap, whose frame holds its rIP. -/
theorem test_vmexit_trap : nexts ({ real with flags := { Flags.reset with tf := true } } : State).resumeHost
    (fun t => t.dbg.dr6.getLsbD 14 && t.rip == 0x500 && t.loadAt (physRange 0x2FFA 2) == 0x100) = true ∧
    nexts real.resumeHost (fun t => t.rip == 0x100) = true := by
  decide +kernel

/-- 31_opcode_maps.md R244, 60_exceptions.md R926: INT1 with TF set is followed by the single-step trap, whose frame lies below its
own. -/
theorem test_int1_trap : after { real with flags := { Flags.reset with tf := true } } [0xF1]
    (fun t => t.gpr.rsp == 0x2FF4 && t.dbg.dr6.getLsbD 14 && t.rip == 0x500) = true := by
  decide +kernel

end Sys2Proof.Tests
end

