-- ==== Sys2Proof/Proofs/AsciiAdjust.lean ====
section
/-! PROOFS. AAD in the decoder (30_encoding.md R162, 31_opcode_maps.md R242, R271), and the statement about AAD and AAM. -/

namespace Sys2Proof.Machine

/-- The opcode byte of AAD is no prefix in any mode. -/
theorem prefixInstr_aad (c : Ctx) : prefixInstr c 0xD5#8 = none := by
  simp [prefixInstr, isRex]

/-- The opcode byte of AAD begins no VEX or XOP prefix, whatever byte follows. -/
theorem isExtendedPrefix_aad (c : Ctx) (b : Byte) : isExtendedPrefix c 0xD5#8 b = false := by
  simp [isExtendedPrefix]

/-- Behind any prefixes, the row `D5` of the primary map is AAD with its base byte; the row does not ask for the mode. -/
theorem decodeOpcode_aad (e : Env) (base : Byte) (rest : List Byte) :
    decodeOpcode e (0xD5#8 :: base :: rest) = .ok (.aad base, rest) := by
  have primary : decodePrimary e 0xD5#8 = Parser.byte.map .aad := rfl
  simp [decodeOpcode, isExtendedPrefix_aad, primary, Parser.byte, Parser.map, Parser.andThen, Parser.ret]

/-- `D5 ib` decodes to AAD in every mode, 64-bit mode included. -/
theorem decode_aad (c : Ctx) (base : Byte) : decode c [0xD5#8, base] = .ok (.aad base, 2) := by
  have prefixes : readPrefixes { c } [0xD5#8, base] = ({ c }, [0xD5#8, base]) := readPrefixes_opcode (prefixInstr_aad c) _
  simp [decode, prefixes, decodeOpcode_aad]

/-- Refutes O22: its last clause says that no bytes decode to AAD in 64-bit mode, but the decoder answers AAD for `D5 0A` there and
leaves the #UD to the instruction's meaning. -/
theorem not_asciiAdjustDivide : ¬ Obligations.AsciiAdjustDivide := by
  unfold Obligations.AsciiAdjustDivide
  intro h
  obtain ⟨-, -, -, noBytes⟩ := h State.reset 0x0A rfl
  obtain ⟨notAad, -⟩ := noBytes .long64 2 rfl
  exact notAad (decode_aad .long64 0x0A)

end Sys2Proof.Machine
end

