-- ==== Sys2Proof/Proofs/Opcodes.lean ====
section
/-! PROOFS. The decoder on the bytes of an instruction without prefixes: which bytes are no prefix, and which map the opcode byte
names (30_encoding.md R162, R163, R200). -/

namespace Sys2Proof

/-- 64-bit mode has all the prefixes of the other modes, REX besides: a byte that is none there is none anywhere. -/
theorem prefixInstr_none_of_long64 {b : Byte} (c : Ctx) (h : prefixInstr .long64 b = none) : prefixInstr c b = none := by
  unfold prefixInstr at h ⊢
  split at h <;> simp_all [isRex, Ctx.long64]

/-- Only `8F`, `C4` and `C5` begin a VEX or XOP prefix (30_encoding.md R200). -/
theorem isExtendedPrefix_of_ne {op : Byte} (c : Ctx) (b : Byte) (h : op ≠ 0x8F#8 ∧ op ≠ 0xC4#8 ∧ op ≠ 0xC5#8) :
    isExtendedPrefix c op b = false := by
  obtain ⟨xop, vex3, vex2⟩ := h
  simp [isExtendedPrefix, xop, vex3, vex2]

/-- A byte that names an instruction of the primary map by itself, whatever follows it. -/
def isPrimaryOpcode (op : Byte) : Bool :=
  (prefixInstr .long64 op).isNone && op != 0x0F && op != 0x8F && op != 0xC4 && op != 0xC5

theorem isPrimaryOpcode_iff {op : Byte} : isPrimaryOpcode op = true ↔
    prefixInstr .long64 op = none ∧ op ≠ 0x0F#8 ∧ op ≠ 0x8F#8 ∧ op ≠ 0xC4#8 ∧ op ≠ 0xC5#8 := by
  simp [isPrimaryOpcode, and_assoc]

theorem decodeOpcode_primary {op : Byte} (e : Env) (rest : List Byte) (h : isPrimaryOpcode op = true) :
    decodeOpcode e (op :: rest) = decodePrimary e op rest := by
  obtain ⟨-, escape, extended⟩ := isPrimaryOpcode_iff.mp h
  cases rest with
  | nil => simp [decodeOpcode, Parser.byte, Parser.andThen, escape, extended]
  | cons b rest => simp [decodeOpcode, Parser.byte, Parser.andThen, escape, isExtendedPrefix_of_ne e.c b extended]

theorem decodeOpcode_secondary (e : Env) (op : Byte) (rest : List Byte) :
    decodeOpcode e (0x0F#8 :: op :: rest) = decodeSecondary e op rest := by
  simp [decodeOpcode, Parser.byte, Parser.andThen, isExtendedPrefix_of_ne e.c op (op := 0x0F#8) (by decide)]

/-- Bytes that begin with their opcode are decoded by the opcode maps alone, and the length counts what these consume. -/
theorem decode_of_decodeOpcode {c : Ctx} {b : Byte} {bs rest : List Byte} {i : Instr} (short : (b :: bs).length < 15)
    (opcode : prefixInstr .long64 b = none) (h : decodeOpcode { c } (b :: bs) = .ok (i, rest)) :
    decode c (b :: bs) = .ok (i, (b :: bs).length - rest.length) := by
  have prefixes : readPrefixes { c } (b :: bs) = ({ c }, b :: bs) :=
    readPrefixes_opcode (prefixInstr_none_of_long64 c opcode) bs
  have noRun : (b :: bs).length ≠ 15 := by omega
  simp only [decode, if_neg noRun, prefixes, h, Bool.false_and, Bool.false_eq_true, if_false]

/-- An instruction of the primary map, in all its bytes. -/
theorem decode_primary {c : Ctx} {op : Byte} {bs : List Byte} {i : Instr} (short : bs.length < 14)
    (opcode : isPrimaryOpcode op = true) (h : decodePrimary { c } op bs = .ok (i, [])) :
    decode c (op :: bs) = .ok (i, bs.length + 1) :=
  decode_of_decodeOpcode (Nat.add_lt_add_right short 1) (isPrimaryOpcode_iff.mp opcode).1 ((decodeOpcode_primary _ bs opcode).trans h)

/-- An instruction of the secondary map, in all its bytes. -/
theorem decode_secondary {c : Ctx} {op : Byte} {bs : List Byte} {i : Instr} (short : bs.length < 13)
    (h : decodeSecondary { c } op bs = .ok (i, [])) : decode c (0x0F#8 :: op :: bs) = .ok (i, bs.length + 2) :=
  decode_of_decodeOpcode (bs := op :: bs) (Nat.add_lt_add_right short 2) rfl ((decodeOpcode_secondary _ op bs).trans h)

end Sys2Proof
end

