-- ==== Sys2Proof/Proofs/ConditionCodes.lean ====
section
/-! PROOFS. The statement about the condition codes (41_gp_c.md R365): the tables of the conditions and of their instructions by
number, and the opcodes that hold the number in their low four bits. -/

namespace Sys2Proof.Machine

/-! ### The tables by number -/

/-- The conditions in encoding order are those of the numbers 0 to 15: an odd number is the opposite of the even one before. -/
theorem conds_eq_condHolds (f : Flags) :
    [Cond.o, .no, .b, .nb, .z, .nz, .be, .nbe, .s, .ns, .p, .np, .l, .nl, .le, .nle].map f.cond =
      (List.range 16).map (condHolds f) := by
  have range : List.range 16 = [0, 1, 2, 3, 4, 5, 6, 7, 8, 9, 10, 11, 12, 13, 14, 15] := rfl
  simp [range, Flags.cond, condHolds, bne]

theorem jccs_eq : jccs = (List.range 16).map fun n => (n, jccInstr n) := rfl

theorem setccs_eq : setccs = (List.range 16).map fun n => (n, setccInstr n) := rfl

theorem cmovccs_eq : cmovccs = (List.range 16).map fun n => (n, cmovInstr n) := rfl

/-! ### The opcodes -/

/-- An opcode byte in a row of sixteen: the row is its high half, the number its low half. -/
theorem rowOpcode_halves {row n : Nat} (hrow : row < 16) (h : n < 16) :
    ((BitVec.ofNat 8 (16 * row + n)).extractLsb' 4 4).toNat = row ∧ lowNibble (BitVec.ofNat 8 (16 * row + n)) = n := by
  simp only [lowNibble, BitVec.extractLsb'_toNat, BitVec.toNat_setWidth, BitVec.toNat_ofNat, Nat.shiftRight_eq_div_pow]
  omega

theorem isPrimaryOpcode_row7 {n : Nat} (h : n < 16) : isPrimaryOpcode (BitVec.ofNat 8 (0x70 + n)) = true := by
  revert n; decide

/-- Row 7 of the primary map is Jcc with a displacement of one byte (31_opcode_maps.md R236). -/
theorem decodePrimary_row7 (e : Env) {n : Nat} (h : n < 16) :
    decodePrimary e (BitVec.ofNat 8 (0x70 + n)) = disp8.map fun d => jccInstr n (e.opsize true) d := by
  obtain ⟨row, number⟩ := rowOpcode_halves (row := 7) (by decide) h
  simp [decodePrimary, row, number]

/-- An opcode of a row of the secondary map is none of the two escapes to the further maps. -/
theorem rowOpcode_ne_escape {row n : Nat} (hrow : 4 ≤ row ∧ row < 16) (h : n < 16) :
    BitVec.ofNat 8 (16 * row + n) ≠ 0x38#8 ∧ BitVec.ofNat 8 (16 * row + n) ≠ 0x3A#8 := by
  constructor <;> bv_omega

/-- Row 4 of the secondary map is CMOVcc (31_opcode_maps.md R255). -/
theorem decodeSecondary_row4 (e : Env) {n : Nat} (h : n < 16) :
    decodeSecondary e (BitVec.ofNat 8 (0x40 + n)) = e.rE (e.opsize false) fun g r => cmovInstr n (e.opsize false) g r := by
  obtain ⟨row, number⟩ := rowOpcode_halves (row := 4) (by decide) h
  obtain ⟨not38, not3A⟩ := rowOpcode_ne_escape (row := 4) (by decide) h
  simp [decodeSecondary, not38, not3A, row, number]

/-- Row 9 of the secondary map is SETcc (31_opcode_maps.md R255). -/
theorem decodeSecondary_row9 (e : Env) {n : Nat} (h : n < 16) :
    decodeSecondary e (BitVec.ofNat 8 (0x90 + n)) = e.modrm.map fun (_, r) => setccInstr n (e.rm .w8 r) := by
  obtain ⟨row, number⟩ := rowOpcode_halves (row := 9) (by decide) h
  obtain ⟨not38, not3A⟩ := rowOpcode_ne_escape (row := 9) (by decide) h
  simp [decodeSecondary, not38, not3A, row, number]

/-! ### The operand sizes -/

/-- Without prefixes, in a row that defaults to 64 bits in 64-bit mode. -/
theorem opsize_noPrefix_d64 (c : Ctx) :
    ({ c } : Env).opsize true = if c.mode64 then .w64 else if c.d32 then .w32 else .w16 := by
  cases hm : c.mode64 <;> cases hd : c.d32 <;> simp [Env.opsize, hm, hd]

/-- Without prefixes, in any other row. -/
theorem opsize_noPrefix (c : Ctx) : ({ c } : Env).opsize false = if c.mode64 || c.d32 then .w32 else .w16 := by
  cases hm : c.mode64 <;> cases hd : c.d32 <;> simp [Env.opsize, hm, hd]

/-! ### One form of each family -/

/-- `70`+cc `FE`: the displacement is -2. -/
theorem decode_jcc (c : Ctx) {n : Nat} (h : n < 16) : decode c [BitVec.ofNat 8 (0x70 + n), 0xFE] =
    .ok (jccInstr n (if c.mode64 then .w64 else if c.d32 then .w32 else .w16) (-2), 2) := by
  apply decode_primary (by simp) (isPrimaryOpcode_row7 h)
  rw [decodePrimary_row7 _ h, opsize_noPrefix_d64]
  rfl

/-- `0F 90`+cc `C0`: the destination is AL. -/
theorem decode_setcc (c : Ctx) {n : Nat} (h : n < 16) : decode c [0x0F, BitVec.ofNat 8 (0x90 + n), 0xC0] =
    .ok (setccInstr n (.reg ⟨.rax, false⟩), 3) := by
  have modrm := modrm_register { c } 0 0 []
  apply decode_secondary (by simp)
  rw [decodeSecondary_row9 _ h, show (0xC0 : Byte) = modrmByte 3 0 0 from rfl]
  simp only [Parser.map, Parser.andThen, Parser.ret, modrm]
  rfl

/-- `0F 40`+cc `C1`: from rCX to rAX. -/
theorem decode_cmovcc (c : Ctx) {n : Nat} (h : n < 16) : decode c [0x0F, BitVec.ofNat 8 (0x40 + n), 0xC1] =
    .ok (cmovInstr n (if c.mode64 || c.d32 then .w32 else .w16) .rax (.reg ⟨.rcx, false⟩), 3) := by
  have modrm := modrm_register { c } 0 1 []
  apply decode_secondary (by simp)
  rw [decodeSecondary_row4 _ h, opsize_noPrefix, show (0xC1 : Byte) = modrmByte 3 0 1 from rfl]
  simp only [Env.rE, Parser.map, Parser.andThen, Parser.ret, modrm]
  cases c.mode64 || c.d32 <;> rfl

/-- Settles O13: the tables go over to the numbers below 16, and the opcodes are those of three rows of the opcode maps. -/
theorem conditionCodes : Obligations.ConditionCodes := by
  unfold Obligations.ConditionCodes
  refine ⟨conds_eq_condHolds, fun c => ?_⟩
  simp only [jccs_eq, setccs_eq, cmovccs_eq, List.forall_mem_map, List.mem_range]
  exact ⟨fun _ => decode_jcc c, fun _ => decode_setcc c, fun _ => decode_cmovcc c⟩

end Sys2Proof.Machine
end

