-- ==== Sys2Proof/Proofs/StatusFlags.lean ====
section
/-! PROOFS. The statement about CLC, STC, CMC, CLD, STD, LAHF and SAHF (41_gp_c.md R358, R359, R364, 43_gp_l_m.md R450,
45_gp_r_s.md R576, R590, R591): the low byte of rFLAGS as a number, AH as a register operand, and the one-byte opcodes. -/

namespace Sys2Proof.Machine

/-! ### The low byte of rFLAGS and AH -/

/-- A value shifted past bit 7 leaves the low byte clear. -/
theorem shiftLeft_low_byte (v : Quad) {n : Nat} (h : 8 ≤ n) : (v <<< n).setWidth 8 = 0#8 := by
  apply BitVec.eq_of_getLsbD_eq
  intro i hi
  have below : i < n := by omega
  simp [below]

/-- A flag above bit 7 is not in the low byte. -/
theorem flagBit_low_byte (b : Bool) {n : Nat} (h : 8 ≤ n) : (flagBit b n).setWidth 8 = 0#8 := shiftLeft_low_byte _ h

/-- The low byte of rFLAGS is SF, ZF, AF, PF and CF at their places, with 1 at bit 1 (43_gp_l_m.md R450). -/
theorem toBits_low_byte (f : Flags) : f.toBits.setWidth 8 =
    BitVec.ofNat 8 (128 * f.sf.toNat + 64 * f.zf.toNat + 16 * f.af.toNat + 4 * f.pf.toNat + 2 + f.cf.toNat) := by
  simp only [Flags.toBits, BitVec.setWidth_or, flagBit_low_byte, shiftLeft_low_byte, Nat.reduceLeDiff, BitVec.or_zero]
  generalize f.cf = cf, f.pf = pf, f.af = af, f.zf = zf, f.sf = sf
  revert cf pf af zf sf
  decide

/-- A byte register takes the low byte of what is written to it (10_state.md R45). -/
theorem writeGReg_byte_congr (s : State) (g : GReg) {u v : Quad} (h : u.setWidth 8 = v.setWidth 8) :
    s.writeGReg .w8 g u = s.writeGReg .w8 g v := by
  have low : trunc .w8 u = trunc .w8 v := congrArg (BitVec.setWidth 64) h
  simp only [State.writeGReg, State.writeGpr, mergeReg, low]

/-- AH read as an operand is bits 15:8 of rAX (10_state.md R42). -/
theorem readGReg_ah (s : State) : s.readGReg .w8 ahReg = (s.gpr.rax.extractLsb' 8 8).setWidth 64 := rfl

/-! ### The meanings -/

/-- A flag instruction without operands completes with the flags it computes, and changes nothing else. -/
theorem run_setFlags {s : State} (tf : s.flags.tf = false) (f : Flags → Flags) :
    run s (fun t => .ok (t.setFlags (f t.flags))) = .next (s.start.setFlags (f s.start.flags)) :=
  run_ok tf rfl

/-- LAHF and SAHF are available outside 64-bit mode, and there with their feature (43_gp_l_m.md R450, 45_gp_r_s.md R576). -/
theorem lahfSahf_check (s : State) :
    (!s.start.mode64 || s.start.feat.lahfSahf) = true ↔ s.mode64 = false ∨ s.feat.lahfSahf = true := by
  simp

/-- LAHF writes the low byte of rFLAGS. -/
theorem exec_lahf_available {s : State} (tf : s.flags.tf = false) (h : s.mode64 = false ∨ s.feat.lahfSahf = true) :
    exec .lahf s = .next (s.start.writeGReg .w8 ⟨.rax, true⟩ (BitVec.ofNat 64 (128 * s.flags.sf.toNat +
      64 * s.flags.zf.toNat + 16 * s.flags.af.toNat + 4 * s.flags.pf.toNat + 2 + s.flags.cf.toNat))) := by
  rw [exec_lahf, execLahf]
  apply run_ok tf
  rw [(lahfSahf_check s).mpr h, require_true, ok_bind]
  refine congrArg Except.ok (writeGReg_byte_congr _ _ ?_)
  rw [toBits_low_byte, BitVec.setWidth_ofNat_of_le (by decide)]
  rfl

/-- SAHF loads the five status flags that AH holds. -/
theorem exec_sahf_available {s : State} (tf : s.flags.tf = false) (h : s.mode64 = false ∨ s.feat.lahfSahf = true) :
    let ah := s.gpr.rax.extractLsb' 8 8
    exec .sahf s = .next (s.start.setFlags { s.start.flags with
      sf := ah.getLsbD 7, zf := ah.getLsbD 6, af := ah.getLsbD 4, pf := ah.getLsbD 2, cf := ah.getLsbD 0 }) := by
  rw [exec_sahf, execSahf]
  apply run_ok tf
  rw [(lahfSahf_check s).mpr h, require_true, ok_bind, start_readGReg, readGReg_ah]
  simp [Flags.ofBits]

/-- LAHF and SAHF raise #UD where they are not available. -/
theorem exec_lahf_sahf_unavailable {s : State} (h : ¬(s.mode64 = false ∨ s.feat.lahfSahf = true)) :
    exec .lahf s = s.raise { name := .ud } ∧ exec .sahf s = s.raise { name := .ud } := by
  have check : (!s.start.mode64 || s.start.feat.lahfSahf) = false :=
    Bool.eq_false_iff.mpr ((lahfSahf_check s).not.mpr h)
  rw [exec_lahf, execLahf, exec_sahf, execSahf]
  constructor <;> exact run_exc (by rw [check, require_false, error_bind]; rfl)

/-! ### The encodings -/

/-- An instruction that is its opcode byte alone. -/
theorem decode_oneByte {c : Ctx} {op : Byte} {i : Instr} (opcode : isPrimaryOpcode op = true)
    (h : decodePrimary { c } op = Parser.ret i) : decode c [op] = .ok (i, 1) :=
  decode_primary (by simp) opcode (congrFun h [])

/-- The seven instructions are one byte long in every mode (31_opcode_maps.md R237, R244). -/
theorem decode_statusFlagInstructions (c : Ctx) : ∀ x ∈ [((0xF8 : Byte), Instr.clc), (0xF9, .stc), (0xF5, .cmc), (0xFC, .cld),
    (0xFD, .std), (0x9F, .lahf), (0x9E, .sahf)], decode c [x.1] = .ok (x.2, 1) := by
  simp only [List.forall_mem_cons, List.not_mem_nil, false_implies, implies_true, and_true]
  exact ⟨decode_oneByte rfl rfl, decode_oneByte rfl rfl, decode_oneByte rfl rfl, decode_oneByte rfl rfl, decode_oneByte rfl rfl,
    decode_oneByte rfl rfl, decode_oneByte rfl rfl⟩

/-- Settles O33: CLC to STD by the rule of an instruction that only sets flags, LAHF and SAHF by whether they are available, and
the encodings. -/
theorem statusFlagInstructions : Obligations.StatusFlagInstructions := by
  unfold Obligations.StatusFlagInstructions
  refine ⟨fun s tf => ⟨?clc, ?stc, ?cmc, ?cld, ?std, exec_lahf_available tf, exec_sahf_available tf, exec_lahf_sahf_unavailable⟩,
    decode_statusFlagInstructions⟩
  case clc => exact run_setFlags tf fun f => { f with cf := false }
  case stc => exact run_setFlags tf fun f => { f with cf := true }
  case cmc => exact run_setFlags tf fun f => { f with cf := !f.cf }
  case cld => exact run_setFlags tf fun f => { f with df := false }
  case std => exact run_setFlags tf fun f => { f with df := true }

end Sys2Proof.Machine
end

