-- ==== Sys2Proof/Proofs/SystemFlags.lean ====
section
/-! PROOFS. The statement about CLAC, STAC, CLTS, CLI and STI (50_sys_a_l.md R702, R704, R705, 52_sys_s_w.md R827, R828): the checks
of each as propositions, the three cases of an instruction on the interrupt flag, and the encodings with and without LOCK. -/

namespace Sys2Proof

/-- F0 before an opcode with no other prefix, of an instruction that cannot be locked (20_memory.md R123). -/
theorem decode_lock {c : Ctx} {b : Byte} {bs rest : List Byte} {i : Instr} (short : (b :: bs).length < 14)
    (opcode : prefixInstr .long64 b = none) (h : decodeOpcode { c, lock := true } (b :: bs) = .ok (i, rest))
    (unlockable : lockable i = false) : decode c (0xF0#8 :: b :: bs) = .error .lockNotAllowed := by
  have prefixes : readPrefixes { c } (0xF0#8 :: b :: bs) = ({ c, lock := true }, b :: bs) :=
    readPrefixes_opcode (e := { c, lock := true }) (prefixInstr_none_of_long64 c opcode) bs
  have noRun : (0xF0#8 :: b :: bs).length ≠ 15 := by simp only [List.length_cons] at short ⊢; omega
  simp only [decode, if_neg noRun, prefixes, h, unlockable, Bool.not_false, Bool.and_true, if_true]

/-- The same for an instruction of the secondary map. -/
theorem decode_lock_secondary {c : Ctx} {op : Byte} {bs rest : List Byte} {i : Instr} (short : bs.length < 12)
    (h : decodeSecondary { c, lock := true } op bs = .ok (i, rest)) (unlockable : lockable i = false) :
    decode c (0xF0#8 :: 0x0F#8 :: op :: bs) = .error .lockNotAllowed :=
  decode_lock (Nat.add_lt_add_right short 2) rfl ((decodeOpcode_secondary _ op bs).trans h) unlockable

/-- The extension bit of a register number is not part of an opcode extension /n (31_opcode_maps.md R232). -/
theorem slash_extend (x : Bool) (reg : BitVec 3) : slash (extend x reg) = reg.toNat := by
  revert x reg
  decide

/-- A register form of Group 7 other than SMSW and LMSW is named by its whole ModRM byte (31_opcode_maps.md R261). -/
theorem decodeGroup7_register {e : Env} {reg f : BitVec 3} {i : Instr} (form : reg.toNat ≠ 4 ∧ reg.toNat ≠ 6)
    (h : decode0F01 e (modrmByte 3#2 reg f) = some i) : decodeGroup7 e [modrmByte 3#2 reg f] = .ok (i, []) := by
  have modrm : e.modrm [modrmByte 3#2 reg f] = _ := modrm_register e reg f []
  obtain ⟨notSmsw, notLmsw⟩ := form
  simp [decodeGroup7, Parser.andThen, Parser.peek, modrm, slash_extend, h, Parser.ret]

end Sys2Proof

namespace Sys2Proof.Machine

/-! ### The level and SMAP -/

/-- A privileged instruction at level 0 runs the rest of its body. -/
theorem run_needCpl0 {s : State} (body : State → Res State) (h : s.cpl = 0) :
    run s (fun t => do t.needCpl0; body t) = run s body := by
  have check : (s.start.cpl == 0) = true := beq_iff_eq.mpr h
  simp only [run, State.needCpl0, check, require_true, ok_bind]

/-- A privileged instruction at another level raises #GP(0). -/
theorem run_needCpl0_fails {s : State} (body : State → Res State) (h : s.cpl ≠ 0) :
    run s (fun t => do t.needCpl0; body t) = s.raise { name := .gp, code := some 0 } := by
  have check : (s.start.cpl == 0) = false := beq_eq_false_iff_ne.mpr h
  exact run_exc (by rw [State.needCpl0, check, require_false, error_bind]; rfl)

/-- The check of CLAC and STAC is the feature, the mode and the level (50_sys_a_l.md R702, 52_sys_s_w.md R827). -/
theorem smap_check (s : State) : (s.start.feat.smap && !s.start.virtMode && s.start.cpl == 0) = true ↔
    s.feat.smap = true ∧ s.virtMode = false ∧ s.cpl = 0 := by
  simp [and_assoc]

/-- CLAC and STAC where they are allowed set their flag. -/
theorem run_needSmap_setFlags {s : State} (tf : s.flags.tf = false) (f : Flags → Flags)
    (h : s.feat.smap = true ∧ s.virtMode = false ∧ s.cpl = 0) :
    run s (fun t => do t.needSmap; .ok (t.setFlags (f t.flags))) = .next (s.start.setFlags (f s.start.flags)) :=
  run_ok tf (by rw [State.needSmap, (smap_check s).mpr h, require_true, ok_bind])

/-- CLAC and STAC raise #UD where they are not allowed. -/
theorem run_needSmap_fails {s : State} (body : State → Res State)
    (h : ¬(s.feat.smap = true ∧ s.virtMode = false ∧ s.cpl = 0)) :
    run s (fun t => do t.needSmap; body t) = s.raise { name := .ud } := by
  have check := Bool.eq_false_iff.mpr ((smap_check s).not.mpr h)
  exact run_exc (by rw [State.needSmap, check, require_false, error_bind]; rfl)

/-- CLAC and STAC where they are allowed. -/
theorem exec_clac_stac_allowed {s : State} (tf : s.flags.tf = false)
    (h : s.feat.smap = true ∧ s.virtMode = false ∧ s.cpl = 0) :
    exec .clac s = .next (s.start.setFlags { s.start.flags with ac := false }) ∧
    exec .stac s = .next (s.start.setFlags { s.start.flags with ac := true }) :=
  ⟨run_needSmap_setFlags tf (fun f => { f with ac := false }) h, run_needSmap_setFlags tf (fun f => { f with ac := true }) h⟩

/-- CLAC and STAC where they are not. -/
theorem exec_clac_stac_denied {s : State} (h : ¬(s.feat.smap = true ∧ s.virtMode = false ∧ s.cpl = 0)) :
    exec .clac s = s.raise { name := .ud } ∧ exec .stac s = s.raise { name := .ud } := by
  rw [exec_clac, execClac, exec_stac, execStac]
  exact ⟨run_needSmap_fails _ h, run_needSmap_fails _ h⟩

/-- CLTS clears bit 3 of CR0, at level 0 only (50_sys_a_l.md R705). -/
theorem exec_clts_eq {s : State} (tf : s.flags.tf = false) : exec .clts s =
    if s.cpl = 0 then .next { s.start with ctl := { s.ctl with cr0 := s.ctl.cr0 &&& ~~~(1#64 <<< 3) } }
    else s.raise { name := .gp, code := some 0 } := by
  rw [exec_clts, execClts]
  split
  next level => exact (run_needCpl0 _ level).trans (run_ok tf rfl)
  next level => exact run_needCpl0_fails _ level

/-! ### The interrupt flag and its virtual copy -/

/-- An instruction on the interrupt flag: `onIf` where the level reaches IOPL, else `onVif` where virtual interrupts are enabled,
else #GP(0) (50_sys_a_l.md R704, 52_sys_s_w.md R828). -/
def ifOrVif (onIf onVif : State → Res State) (t : State) : Res State :=
  if t.cpl ≤ t.flags.iopl then onIf t else if t.virtIf then onVif t else .error gp0

theorem exec_cli_eq_ifOrVif (s : State) : exec .cli s = run s (ifOrVif (fun t => .ok (t.setFlags { t.flags with fi := false }))
    (fun t => .ok (t.setFlags { t.flags with vif := false }))) := rfl

theorem exec_sti_eq_ifOrVif (s : State) :
    exec .sti s = run s (ifOrVif (fun t => .ok ((t.setFlags { t.flags with fi := true }).stiShadow s))
      (fun t => do require (!t.flags.vip) gp0; .ok (t.setFlags { t.flags with vif := true }))) := rfl

/-- Virtual interrupts are enabled by VME in virtual-8086 mode, and by PVI at level 3 of protected mode (50_sys_a_l.md R704). -/
theorem virtIf_iff (s : State) : s.virtIf = true ↔
    s.virtMode = true ∧ s.cr4Bit 0 = true ∨ s.protMode = true ∧ s.cr4Bit 1 = true ∧ s.cpl = 3 := by
  simp [State.virtIf, and_assoc]

section
variable {s : State} {onIf onVif : State → Res State}

theorem run_ifOrVif_iopl (level : s.cpl ≤ s.flags.iopl) : run s (ifOrVif onIf onVif) = run s onIf := by
  have level' : s.start.cpl ≤ s.start.flags.iopl := level
  simp only [run, ifOrVif, if_pos level']

theorem run_ifOrVif_virtual (level : ¬s.cpl ≤ s.flags.iopl) (virt : s.virtIf = true) :
    run s (ifOrVif onIf onVif) = run s onVif := by
  have level' : ¬s.start.cpl ≤ s.start.flags.iopl := level
  have virt' : s.start.virtIf = true := virt
  simp only [run, ifOrVif, if_neg level', virt', if_true]

theorem run_ifOrVif_fails (level : ¬s.cpl ≤ s.flags.iopl) (virt : s.virtIf ≠ true) :
    run s (ifOrVif onIf onVif) = s.raise { name := .gp, code := some 0 } := by
  have level' : ¬s.start.cpl ≤ s.start.flags.iopl := level
  have virt' : ¬s.start.virtIf = true := virt
  exact run_exc (by rw [ifOrVif, if_neg level', if_neg virt']; rfl)

end

/-- The body of an instruction begins without an interrupt shadow, so the shadow after STI is the one it opens itself
(52_sys_s_w.md R828). -/
theorem stiShadow_start (s : State) (f : Flags) : (s.start.setFlags f).stiShadow s = { s.start with
    flags := f
    exec := { s.start.exec with shadow := if s.flags.fi = false ∧ s.exec.shadow = .none then .sti else .none } } := by
  by_cases opens : s.flags.fi = false ∧ s.exec.shadow = .none
  · have opens' : (!s.flags.fi && s.exec.shadow == .none) = true := by simpa using opens
    rw [State.stiShadow, if_pos opens', if_pos opens]
    rfl
  · have opens' : ¬(!s.flags.fi && s.exec.shadow == .none) = true := by simpa using opens
    rw [State.stiShadow, if_neg opens', if_neg opens]
    rfl

/-- STI on the virtual flag raises #GP(0) while a virtual interrupt is pending (52_sys_s_w.md R828). -/
theorem run_needVipClear_setFlags {s : State} (tf : s.flags.tf = false) (f : Flags → Flags) :
    run s (fun t => do require (!t.flags.vip) gp0; .ok (t.setFlags (f t.flags))) =
      if s.flags.vip then s.raise { name := .gp, code := some 0 } else .next (s.start.setFlags (f s.start.flags)) := by
  have vip : s.start.flags.vip = s.flags.vip := rfl
  split
  next pending => exact run_exc (by rw [vip, pending]; rfl)
  next pending => exact run_ok tf (by rw [vip, Bool.eq_false_iff.mpr pending]; rfl)

/-- CLI and STI on the interrupt flag. -/
theorem exec_cli_sti_iopl {s : State} (tf : s.flags.tf = false) (level : s.cpl ≤ s.flags.iopl) :
    exec .cli s = .next (s.start.setFlags { s.start.flags with fi := false }) ∧
    exec .sti s = .next { s.start with
      flags := { s.start.flags with fi := true }
      exec := { s.start.exec with shadow := if s.flags.fi = false ∧ s.exec.shadow = .none then .sti else .none } } := by
  rw [exec_cli_eq_ifOrVif, exec_sti_eq_ifOrVif, run_ifOrVif_iopl level, run_ifOrVif_iopl level]
  exact ⟨run_setFlags tf fun f => { f with fi := false }, run_ok tf (congrArg Except.ok (stiShadow_start s _))⟩

/-- CLI and STI on the virtual interrupt flag. -/
theorem exec_cli_sti_virtual {s : State} (tf : s.flags.tf = false) (level : ¬s.cpl ≤ s.flags.iopl) (virt : s.virtIf = true) :
    exec .cli s = .next (s.start.setFlags { s.start.flags with vif := false }) ∧
    exec .sti s = if s.flags.vip then s.raise { name := .gp, code := some 0 }
      else .next (s.start.setFlags { s.start.flags with vif := true }) := by
  rw [exec_cli_eq_ifOrVif, exec_sti_eq_ifOrVif, run_ifOrVif_virtual level virt, run_ifOrVif_virtual level virt]
  exact ⟨run_setFlags tf fun f => { f with vif := false }, run_needVipClear_setFlags tf fun f => { f with vif := true }⟩

/-- CLI and STI where neither flag is theirs to change. -/
theorem exec_cli_sti_denied {s : State} (level : ¬s.cpl ≤ s.flags.iopl) (virt : s.virtIf ≠ true) :
    exec .cli s = s.raise { name := .gp, code := some 0 } ∧ exec .sti s = s.raise { name := .gp, code := some 0 } := by
  rw [exec_cli_eq_ifOrVif, exec_sti_eq_ifOrVif]
  exact ⟨run_ifOrVif_fails level virt, run_ifOrVif_fails level virt⟩

/-! ### The encodings -/

theorem decodeSecondary_clac (e : Env) : decodeSecondary e 0x01 [0xCA] = .ok (.clac, []) :=
  decodeGroup7_register (reg := 1) (f := 2) (by decide) rfl

theorem decodeSecondary_stac (e : Env) : decodeSecondary e 0x01 [0xCB] = .ok (.stac, []) :=
  decodeGroup7_register (reg := 1) (f := 3) (by decide) rfl

theorem decodeSecondary_clts (e : Env) : decodeSecondary e 0x06 [] = .ok (.clts, []) := rfl

/-- CLAC, STAC and CLTS have the same bytes in every mode, and LOCK makes the first two undefined (31_opcode_maps.md R252, R261,
20_memory.md R123). -/
theorem decode_systemFlagInstructions (c : Ctx) :
    decode c [0x0F, 0x01, 0xCA] = .ok (.clac, 3) ∧ decode c [0x0F, 0x01, 0xCB] = .ok (.stac, 3) ∧
    decode c [0x0F, 0x06] = .ok (.clts, 2) ∧ decode c [0xF0, 0x0F, 0x01, 0xCA] = .error .lockNotAllowed ∧
    decode c [0xF0, 0x0F, 0x01, 0xCB] = .error .lockNotAllowed :=
  ⟨decode_secondary (by simp) (decodeSecondary_clac _), decode_secondary (by simp) (decodeSecondary_stac _),
    decode_secondary (by simp) (decodeSecondary_clts _), decode_lock_secondary (by simp) (decodeSecondary_clac _) rfl,
    decode_lock_secondary (by simp) (decodeSecondary_stac _) rfl⟩

/-- Settles O34: CLAC and STAC by their one check, CLTS by the level, CLI and STI by the three cases of an instruction on the
interrupt flag, and the encodings. -/
theorem systemFlagInstructions : Obligations.SystemFlagInstructions := by
  unfold Obligations.SystemFlagInstructions
  refine ⟨fun s tf => ⟨⟨exec_clac_stac_allowed tf, exec_clac_stac_denied⟩, exec_clts_eq tf, exec_cli_sti_iopl tf,
    fun level virt => ?onVif, fun level virt => ?denied⟩, decode_systemFlagInstructions⟩
  case onVif => exact exec_cli_sti_virtual tf level ((virtIf_iff s).mpr virt)
  case denied => exact exec_cli_sti_denied level ((virtIf_iff s).not.mpr virt)

end Sys2Proof.Machine
end

