-- ==== Sys2Proof/Proofs/Frames.lean ====
section
/-! PROOFS. What an instruction may change: the relations `Plain` (no system register, level or mode bit), `Moves` (the level
besides) and `Kept` (a legal change of level and mode), and that the shared operations stay inside them. -/

namespace Sys2Proof.Machine

/-! ### The relations -/

/-- The state that only a privileged instruction or an event may change (60_exceptions.md R928); CR2 and DR6, which an exception
writes, are not in it. -/
structure SysState where
  gdtr : TableReg
  idtr : TableReg
  ldtr : SegReg
  tr : SegReg
  cr0 : Quad
  cr3 : Quad
  cr4 : Quad
  cr8 : Quad
  efer : Quad
  dr0 : Quad
  dr1 : Quad
  dr2 : Quad
  dr3 : Quad
  dr7 : Quad
  svm : Svm
  cfg : Config.Params
  pins : Pins

/-- The system state of a state. -/
def State.sys (s : State) : SysState :=
  { gdtr := s.gdtr, idtr := s.idtr, ldtr := s.ldtr, tr := s.tr, cr0 := s.ctl.cr0, cr3 := s.ctl.cr3, cr4 := s.ctl.cr4,
    cr8 := s.ctl.cr8, efer := s.ctl.efer, dr0 := s.dbg.dr0, dr1 := s.dbg.dr1, dr2 := s.dbg.dr2, dr3 := s.dbg.dr3,
    dr7 := s.dbg.dr7, svm := s.svm, cfg := s.cfg, pins := s.pins }

/-- From `s` to `t` no system register and no VM flag changes, and memory stays canonical; the level may change. -/
def Moves (s t : State) : Prop := (t.sys, t.flags.vm) = (s.sys, s.flags.vm) ∧ (s.memOk → t.memOk)

/-- The level does not change either. -/
def Plain (s t : State) : Prop := ((t.sys, t.flags.vm), t.cpl) = ((s.sys, s.flags.vm), s.cpl) ∧ (s.memOk → t.memOk)

/-- The level and the VM flag are legal together with the mode (10_state.md R57, 00_scope.md R20). -/
structure State.PrivOk (s : State) : Prop where
  realCpl : s.pe = false → s.cpl = 0
  realVm : s.pe = false → s.flags.vm = false
  virtCpl : s.flags.vm = true → s.cpl = 3
  longVm : s.longMode = true → s.flags.vm = false

/-- From `s` to `t` no system register changes, memory stays canonical, and the level and the VM flag stay legal. -/
structure Kept (s t : State) : Prop where
  sys : t.sys = s.sys
  mem : s.memOk → t.memOk
  priv : s.PrivOk → t.PrivOk

theorem Plain.refl (s : State) : Plain s s := ⟨rfl, id⟩

theorem Plain.trans {s t u : State} (h : Plain s t) (k : Plain t u) : Plain s u :=
  ⟨k.1.trans h.1, fun m => k.2 (h.2 m)⟩

theorem Moves.refl (s : State) : Moves s s := ⟨rfl, id⟩

theorem Moves.trans {s t u : State} (h : Moves s t) (k : Moves t u) : Moves s u :=
  ⟨k.1.trans h.1, fun m => k.2 (h.2 m)⟩

theorem Plain.moves {s t : State} (h : Plain s t) : Moves s t := ⟨congrArg Prod.fst h.1, h.2⟩

theorem Kept.refl (s : State) : Kept s s := ⟨rfl, id, id⟩

theorem Kept.trans {s t u : State} (h : Kept s t) (k : Kept t u) : Kept s u :=
  ⟨k.sys.trans h.sys, fun m => k.mem (h.mem m), fun p => k.priv (h.priv p)⟩

theorem pe_of_sys {s t : State} (h : t.sys = s.sys) : t.pe = s.pe := by
  rw [State.pe, State.pe, show t.ctl.cr0 = s.ctl.cr0 from congrArg SysState.cr0 h]

theorem longMode_of_sys {s t : State} (h : t.sys = s.sys) : t.longMode = s.longMode := by
  rw [State.longMode, State.longMode, show t.ctl.efer = s.ctl.efer from congrArg SysState.efer h]

/-- A change that touches neither the level nor the mode keeps them legal. -/
theorem Plain.kept {s t : State} (h : Plain s t) : Kept s t := by
  obtain ⟨h, mem⟩ := h
  have sys : t.sys = s.sys := congrArg (·.1.1) h
  have vm : t.flags.vm = s.flags.vm := congrArg (·.1.2) h
  have cpl : t.cpl = s.cpl := congrArg Prod.snd h
  refine ⟨sys, mem, fun ⟨realCpl, realVm, virtCpl, longVm⟩ => ⟨?_, ?_, ?_, ?_⟩⟩ <;>
    simpa only [pe_of_sys sys, longMode_of_sys sys, vm, cpl]

/-- In protected mode any level is legal while VM stays clear. -/
theorem Kept.of_protected {s t : State} (sys : t.sys = s.sys) (mem : s.memOk → t.memOk) (pe : s.pe = true)
    (vm : t.flags.vm = false) : Kept s t := by
  refine ⟨sys, mem, fun _ => ⟨?_, ?_, ?_, ?_⟩⟩ <;> simp [pe_of_sys sys, pe, vm]

/-- Level 0 with VM clear is legal in every mode. -/
theorem Kept.of_level0 {s t : State} (sys : t.sys = s.sys) (mem : s.memOk → t.memOk) (cpl : t.cpl = 0)
    (vm : t.flags.vm = false) : Kept s t := by
  refine ⟨sys, mem, fun _ => ⟨?_, ?_, ?_, ?_⟩⟩ <;> simp [cpl, vm]

theorem Moves.sys {s t : State} (h : Moves s t) : t.sys = s.sys := congrArg Prod.fst h.1

theorem Moves.vm {s t : State} (h : Moves s t) : t.flags.vm = s.flags.vm := congrArg Prod.snd h.1

theorem protMode_pe {s : State} (h : s.protMode = true) : s.pe = true := by
  simp only [State.protMode, Bool.and_eq_true] at h
  exact h.1

theorem protMode_vm {s : State} (h : s.protMode = true) : s.flags.vm = false := by
  simp only [State.protMode, Bool.and_eq_true, Bool.not_eq_true'] at h
  exact h.2

/-- A transfer of protected mode may change the level. -/
theorem Moves.kept {s t : State} (h : Moves s t) (prot : s.protMode = true) : Kept s t :=
  Kept.of_protected h.sys h.2 (protMode_pe prot) (h.vm.trans (protMode_vm prot))

/-! ### Parts of a body -/

/-- Whatever state a part of an instruction answers has the property. -/
def Ends (R : State → Prop) (x : Res State) : Prop := ∀ t, x = .ok t → R t

section
variable {R : State → Prop} {α : Type}

theorem ends_ok {t : State} (h : R t) : Ends R (.ok t) := fun _ e => by cases e; exact h

theorem ends_error {e : Trap} : Ends R (.error e) := fun _ h => nomatch h

theorem ends_bind {x : Res α} {f : α → Res State} (h : ∀ a, x = .ok a → Ends R (f a)) : Ends R (x >>= f) := fun _ e => by
  obtain ⟨a, ha, e⟩ := bind_ok.mp e
  exact h a ha _ e

theorem ends_ite {c : Prop} [Decidable c] {x y : Res State} (hx : c → Ends R x) (hy : ¬c → Ends R y) :
    Ends R (if c then x else y) := by
  split
  · exact hx ‹_›
  · exact hy ‹_›

theorem ends_mono {S : State → Prop} {x : Res State} (h : Ends S x) (k : ∀ t, S t → R t) : Ends R x := fun t e => k t (h t e)

end

/-! ### Registers and memory -/

theorem setReg_plain (s : State) (r : Gpr) (v : Quad) : Plain s (s.setReg r v) := ⟨rfl, id⟩

theorem writeGpr_plain (s : State) (w : Width) (r : Gpr) (v : Quad) : Plain s (s.writeGpr w r v) := ⟨rfl, id⟩

theorem writeGReg_plain (s : State) (w : Width) (g : GReg) (v : Quad) : Plain s (s.writeGReg w g v) := by
  rw [writeGReg_frame]
  exact ⟨rfl, id⟩

theorem setSreg_plain (s : State) (n : SegName) (r : SegReg) : Plain s (s.setSreg n r) := ⟨rfl, id⟩

/-- New flags with the old VM. -/
theorem setFlags_plain {s : State} {f : Flags} (h : f.vm = s.flags.vm) : Plain s (s.setFlags f) :=
  ⟨by rw [show (s.setFlags f).flags.vm = s.flags.vm from h]; rfl, id⟩

theorem storeAt_plain (s : State) (ps : List Nat) (v : Nat) : Plain s (s.storeAt ps v) :=
  ⟨rfl, fun m => storeAt_memOk m ps v⟩

theorem putAt_plain (s : State) (w : Width) (p : Place) (v : Quad) : Plain s (s.putAt w p v) := by
  cases p with
  | reg g => exact writeGReg_plain s w g v
  | mem ps => exact storeAt_plain s ps _

@[simp] theorem undefine_vm (f : Flags) (n : Nat) (l : List Config.FlagName) : (f.undefine n l).vm = f.vm := by
  induction l generalizing f with
  | nil => rfl
  | cons x l ih => cases x <;> exact ih _

theorem finish_plain {s : State} {f : Flags} (w : Width) (r : Gpr) (v : Quad) (h : f.vm = s.flags.vm) :
    Plain s (s.finish w r v f) := (writeGpr_plain s w r v).trans (setFlags_plain h)

theorem writeMem_plain {s t : State} {seg : SegName} {off v : Quad} {n : Nat} (h : s.writeMem seg off n v = .ok t) :
    Plain s t := by
  obtain ⟨ps, -, rfl⟩ := writeMem_ok.mp h
  exact storeAt_plain _ _ _

theorem writeM_plain {s t : State} {m : Mem} {n : Nat} {v : Quad} (h : s.writeM m n v = .ok t) : Plain s t := writeMem_plain h

theorem writeRM_plain {s t : State} {w : Width} {r : RM} {v : Quad} (h : s.writeRM w r v = .ok t) : Plain s t := by
  obtain ⟨p, -, rfl⟩ := writeRM_ok.mp h
  exact putAt_plain _ _ _ _

theorem writePa_plain {s t : State} {pa n v : Nat} (h : s.writePa pa n v = .ok t) : Plain s t := by
  obtain ⟨-, rfl⟩ := writePa_ok.mp h
  exact storeAt_plain _ _ _

/-! ### The stacks -/

theorem pushE_plain {s t : State} {bad : Trap} {n : Nat} {v : Quad} (h : s.pushE bad n v = .ok t) : Plain s t := by
  obtain ⟨ps, -, rfl⟩ := pushE_ok.mp h
  exact (storeAt_plain s ps _).trans (writeGpr_plain _ _ _ _)

theorem push_plain {s t : State} {n : Nat} {v : Quad} (h : s.push n v = .ok t) : Plain s t := pushE_plain h

theorem pushAllE_plain {s t : State} {bad : Trap} {n : Nat} {vs : List Quad} (h : s.pushAllE bad n vs = .ok t) : Plain s t :=
  pushAllE_induction (P := Plain s) (fun _ _ _ hu hw => hu.trans (pushE_plain hw)) vs s t (.refl s) h

theorem pop_plain {s t : State} {n : Nat} {v : Quad} (h : s.pop n = .ok (v, t)) : Plain s t := by
  obtain ⟨-, rfl⟩ := pop_ok.mp h
  exact writeGpr_plain _ _ _ _

theorem setSsp_plain (s : State) (v : Quad) : Plain s (s.setSsp v) := ⟨rfl, id⟩

theorem sstkWrite_plain {s t : State} {lin v : Quad} {n : Nat} (h : s.sstkWrite lin n v = .ok t) : Plain s t := by
  obtain ⟨ps, -, rfl⟩ := sstkWrite_ok.mp h
  exact storeAt_plain _ _ _

theorem setTokenBusy_plain {s t : State} {ssp : Quad} (h : s.setTokenBusy ssp = .ok t) : Plain s t := by
  obtain ⟨ps, v, rfl⟩ := setTokenBusy_frame h
  exact storeAt_plain _ _ _

theorem clearToken_plain {s t : State} {ssp : Quad} {keep : Bool} (h : s.clearToken ssp keep = .ok t) : Plain s t := by
  obtain ⟨ps, v, rfl⟩ := clearToken_frame h
  exact storeAt_plain _ _ _

theorem alignSsp_plain {s t : State} (h : s.alignSsp = .ok t) : Plain s t := by
  unfold State.alignSsp at h
  split at h
  · obtain ⟨u, hu, h⟩ := bind_ok.mp h
    cases h
    exact (sstkWrite_plain hu).trans (setSsp_plain _ _)
  · cases h
    exact .refl s

theorem pushSsFrame_plain {s t : State} {cs : BitVec 16} {lip old : Quad} (h : s.pushSsFrame cs lip old = .ok t) : Plain s t := by
  simp only [State.pushSsFrame, bind_ok, Except.ok.injEq] at h
  obtain ⟨a, ha, b, hb, c, hc, rfl⟩ := h
  exact (sstkWrite_plain ha).trans <| (sstkWrite_plain hb).trans <| (sstkWrite_plain hc).trans (setSsp_plain _ _)

theorem popSsFrame_plain {s t : State} {cs : BitVec 16} {lip prev : Quad} {cpl : BitVec 2}
    (h : s.popSsFrame cs lip cpl = .ok (prev, t)) : Plain s t := by
  simp only [State.popSsFrame, bind_ok, Except.ok.injEq, Prod.mk.injEq] at h
  obtain ⟨_, -, _, -, _, -, _, -, _, -, _, -, -, rfl⟩ := h
  exact setSsp_plain _ _

/-! ### Control transfers -/

theorem setRip_plain (s : State) (a : Quad) : Plain s (s.setRip a) := ⟨rfl, id⟩

theorem disarm_plain (s : State) : Plain s s.disarm := ⟨rfl, id⟩

theorem loadCsReal_plain (s : State) (sel : BitVec 16) : Plain s (s.loadCsReal sel) := ⟨rfl, id⟩

/-- Entering 64-bit mode frees the upper halves of the general registers and nothing else. -/
theorem enterMode_frame (s t : State) : s.enterMode t = { t with gpr := (s.enterMode t).gpr } := by
  unfold State.enterMode
  split <;> rfl

theorem enterMode_plain (s t : State) : Plain t (s.enterMode t) := by
  rw [enterMode_frame]
  exact ⟨rfl, id⟩

theorem setCs_moves (s : State) (cs : SegReg) (cpl : BitVec 2) : Moves s (s.setCs cs cpl) :=
  Moves.trans ⟨rfl, id⟩ (enterMode_plain s _).moves

/-- A code segment loaded at the same level. -/
theorem setCs_plain (s : State) (cs : SegReg) : Plain s (s.setCs cs s.cpl) :=
  Plain.trans ⟨rfl, id⟩ (enterMode_plain s _)

theorem setCsSame_plain (s : State) (cs : SegReg) : Plain s (s.setCsSame cs) :=
  (setCs_plain s cs).trans (setReg_plain _ _ _)

theorem enterInner_moves (s : State) (cs ss : SegReg) (cpl : BitVec 2) (sp : Quad) : Moves s (s.enterInner cs cpl ss sp) :=
  (setCs_moves s cs cpl).trans ⟨rfl, id⟩

end Sys2Proof.Machine
end

