-- ==== Sys2Proof/Proofs/Events.lean ====
section
/-! PROOFS. Delivering an event and returning from it keep the system registers, memory in its canonical form, and the level and
mode legal (60_exceptions.md R920, R925, 50_sys_a_l.md R715 to R721). -/

namespace Sys2Proof.Machine

/-! ### Delivery -/

/-- The flags loaded by a gate have VM clear (42_gp_d_j.md R412). -/
theorem enterGate_vm (f : Flags) (g : Bool) : (f.enterGate g).vm = false := rfl

/-- The end of a delivery through a gate: flags and rIP. -/
theorem kept_enterGate {s t : State} (h : t.sys = s.sys) (mem : s.memOk → t.memOk) (pe : s.pe = true) (g : Bool) (rip : Quad) :
    Kept s ((t.setFlags (t.flags.enterGate g)).setRip rip) :=
  Kept.of_protected h mem pe rfl

theorem deliverReal_plain {s t : State} {e : Event} (h : s.deliverReal e = .ok t) : Plain s t := by
  simp only [State.deliverReal, bind_ok, Except.ok.injEq] at h
  obtain ⟨_, -, _, -, u, hu, _, -, rfl⟩ := h
  exact (pushAllE_plain hu).trans <| (loadCsReal_plain _ _).trans <| Plain.trans (setFlags_plain rfl) (setRip_plain _ _)

theorem sameStack_plain {s t : State} {ist : Nat} (h : s.sameStack ist = .ok t) : Plain s t := by
  rw [sameStack_frame h]
  exact ⟨rfl, id⟩

theorem deliverSame_kept {s : State} {e : Event} {gate rip : Quad} {cs : SegReg} (pe : s.pe = true) :
    Ends (Kept s) (s.deliverSame e gate rip cs) := by
  unfold State.deliverSame
  extract_lets ist frame bad finish withFrame
  have hfinish (v : State) (hv : Plain s v) : Ends (Kept s) (finish v) :=
    ends_bind fun _ _ => ends_ok (kept_enterGate hv.moves.sys hv.2 pe _ _)
  have hframe (v : State) (hv : Plain s v) : Ends (Kept s) (withFrame v) :=
    ends_bind fun _ ha => ends_bind fun b hb => hfinish b (hv.trans <| (alignSsp_plain ha).trans (pushSsFrame_plain hb))
  refine ends_bind fun stack hstack => ends_bind fun u hu => ?_
  have pushed : Plain s u := (setCsSame_plain s cs).trans <| (sameStack_plain hstack).trans (pushAllE_plain hu)
  refine ends_ite (fun _ => ends_ite (fun _ => hframe u pushed) fun _ => ?_) fun _ => hfinish u pushed
  exact ends_bind fun v hv => hframe v (pushed.trans (setTokenBusy_plain hv))

theorem deliverInner_kept {s : State} {e : Event} {gate rip : Quad} {cs : SegReg} {cpl : BitVec 2} (pe : s.pe = true) :
    Ends (Kept s) (s.deliverInner e gate rip cs cpl) := by
  unfold State.deliverInner
  extract_lets ist shadow frame finish
  have hfinish (v : State) (hv : Moves s v) : Ends (Kept s) (finish v) :=
    ends_bind fun _ _ => ends_ok (kept_enterGate hv.sys hv.2 pe _ _)
  refine ends_bind fun ⟨ss, sp⟩ _ => ?_
  dsimp -zeta only
  extract_lets stack withStack withSsp
  have hstack (ssp : Quad) : Ends (Kept s) (withStack ssp) := by
    refine ends_bind fun u hu => ?_
    extract_lets cet saved withToken
    have pushed : Moves s u := (enterInner_moves _ _ _ _ _).trans (pushAllE_plain hu).moves
    have hsaved : Moves s withToken := by
      refine Moves.trans (t := saved) ?_ (setSsp_plain _ _).moves
      unfold saved
      split <;> exact pushed.trans ⟨rfl, id⟩
    refine ends_ite (fun _ => ends_bind fun a ha => ?_) fun _ => hfinish _ hsaved
    have busy := hsaved.trans (setTokenBusy_plain ha).moves
    exact ends_ite (fun _ => ends_bind fun b hb => hfinish b (busy.trans (pushSsFrame_plain hb).moves)) fun _ => hfinish a busy
  have hssp (v : Quad) : Ends (Kept s) (withSsp v) := ends_bind fun _ _ => hstack _
  exact ends_ite (fun _ => ends_ite (fun _ => ends_bind fun _ _ => hssp _) fun _ => hssp _) fun _ => hstack _

theorem deliverProtected_kept {s t : State} {e : Event} (pe : s.pe = true) (h : s.deliverProtected e = .ok t) : Kept s t := by
  obtain ⟨gate, -, h⟩ := bind_ok.mp h
  split at h
  · exact absurd h (taskGate_not_ok _ _ _)
  · simp only [bind_ok] at h
    obtain ⟨rip, -, d, -, h⟩ := h
    split at h
    · exact deliverSame_kept pe t h
    · exact deliverInner_kept pe t h

theorem deliverFromVirtual_kept {s t : State} {e : Event} (pe : s.pe = true) (h : s.deliverFromVirtual e = .ok t) : Kept s t := by
  obtain ⟨gate, -, h⟩ := bind_ok.mp h
  split at h
  · exact absurd h (taskGate_not_ok _ _ _)
  · simp only [bind_ok, Prod.exists] at h
    obtain ⟨d, -, _, -, ss, sp, -, u, hu, _, -, h⟩ := h
    have cleared : ({ s with flags := { s.flags with vm := false } } : State).sys = s.sys := rfl
    have pushed : Moves _ u := (enterInner_moves { s with flags := { s.flags with vm := false } } _ _ _ _).trans
      (pushAllE_plain hu).moves
    have entered := kept_enterGate (t := { u with seg := u.seg.nullifyData }) (pushed.sys.trans cleared) pushed.2 pe
      (isIntGate (descAttr gate).type) (gateOffset gate)
    split at h
    · exact entered.trans ((setSsp_plain _ _).trans (setTokenBusy_plain h)).kept
    · cases h
      exact entered

theorem deliverVirtual_kept {s t : State} {e : Event} (pe : s.pe = true) (h : s.deliverVirtual e = .ok t) : Kept s t := by
  have toProtected : ∀ {t}, (do require (s.flags.iopl == 3) gp0; s.deliverFromVirtual e : Res State) = .ok t → Kept s t := by
    intro t h
    obtain ⟨_, -, h⟩ := bind_ok.mp h
    exact deliverFromVirtual_kept pe h
  unfold State.deliverVirtual at h
  dsimp only at h
  split at h
  · exact toProtected h
  · simp only [bind_ok] at h
    obtain ⟨base, -, redirect, -, h⟩ := h
    split at h
    · exact toProtected h
    · simp only [bind_ok, Except.ok.injEq] at h
      obtain ⟨ip, -, cs, -, u, hu, rfl⟩ := h
      refine ((pushAllE_plain hu).trans <| (loadCsReal_plain _ _).trans <| Plain.trans (setFlags_plain ?_) (setRip_plain _ _)).kept
      split <;> rfl

/-- Delivery keeps the system registers and a legal level (60_exceptions.md R920). -/
theorem deliverOnce_kept {s t : State} {e : Event} (h : s.deliverOnce e = .ok t) : Kept s t := by
  revert t
  change Ends (Kept s) _
  unfold State.deliverOnce
  extract_lets exec s₀ finish
  have begun : Kept s s₀ := Plain.kept ⟨rfl, id⟩
  have hfinish (u : State) (hu : Kept s₀ u) : Ends (Kept s) (finish u) := by
    refine ends_ok (begun.trans (hu.trans ?_))
    split
    · exact Plain.kept ⟨rfl, id⟩
    · exact .refl u
  refine ends_ite (fun _ => ends_bind fun u hu => hfinish u (deliverReal_plain hu).kept) fun real => ?_
  have pe : s₀.pe = true := by simpa [State.realMode] using real
  refine ends_ite (fun _ => ends_bind fun u hu => hfinish u (deliverProtected_kept pe hu)) fun _ => ?_
  exact ends_ite (fun _ => ends_bind fun u hu => hfinish u (deliverVirtual_kept pe hu)) fun _ =>
    ends_bind fun u hu => hfinish u (deliverFromVirtual_kept pe hu)

theorem noteFault_plain (s : State) (x : Exn) : Plain s (s.noteFault x) := by
  rw [noteFault_frame]
  exact ⟨rfl, id⟩

theorem shutdown_plain (s : State) : Plain s s.shutdown := ⟨rfl, id⟩

theorem take_kept {s t : State} {e : Event} (h : s.take e = .next t) : Kept s t :=
  deliverLoop_induction (P := Kept s) (fun _ _ _ hu h => hu.trans (deliverOnce_kept h))
    (fun u x hu => hu.trans (noteFault_plain u x).kept) (fun u hu => hu.trans (shutdown_plain u).kept) 8 s t e (.refl s) h

theorem raise_kept {s t : State} {x : Exn} (h : s.raise x = .next t) : Kept s t :=
  (noteFault_plain s x).kept.trans (take_kept h)

theorem setDbg_plain (s : State) (v : Quad) : Plain s { s with dbg := { s.dbg with dr6 := v } } := ⟨rfl, id⟩

theorem singleStep_kept {s t : State} (h : s.singleStep = .next t) : Kept s t :=
  (setDbg_plain s (s.dbg.dr6 ||| 0x4000)).kept.trans (take_kept h)

theorem complete_kept {s t u : State} (h : s.complete t = .next u) : Kept t u := by
  unfold State.complete at h
  split at h
  · exact singleStep_kept h
  · cases h
    exact .refl t

/-! ### Return -/

/-- Flags loaded at 16 bits keep VM. -/
theorem load16_vm (f : Flags) (v : Quad) : (f.load .w16 v).vm = f.vm := rfl

theorem iretReal_plain {s t : State} {w : Width} (h : s.iretReal w = .ok t) : Plain s t := by
  simp only [State.iretReal, bind_ok, Except.ok.injEq, Prod.exists] at h
  obtain ⟨rip, a, ha, cs, b, hb, image, c, hc, _, -, rfl⟩ := h
  have popped := (pop_plain ha).trans <| (pop_plain hb).trans (pop_plain hc)
  exact popped.trans <| (loadCsReal_plain _ _).trans <| Plain.trans (setFlags_plain rfl) (setRip_plain _ _)

theorem iretVirtual_plain {s t : State} {w : Width} (h : s.iretVirtual w = .ok t) : Plain s t := by
  simp only [State.iretVirtual, bind_ok, Prod.exists] at h
  obtain ⟨_, -, rip, a, ha, cs, b, hb, image, c, hc, _, -, h⟩ := h
  have popped := (pop_plain ha).trans <| (pop_plain hb).trans (pop_plain hc)
  refine popped.trans ?_
  split at h
  · cases h
    exact (loadCsReal_plain _ _).trans <| Plain.trans (setFlags_plain rfl) (setRip_plain _ _)
  · obtain ⟨_, -, h⟩ := bind_ok.mp h
    cases h
    exact (loadCsReal_plain _ _).trans <| Plain.trans (setFlags_plain rfl) (setRip_plain _ _)

theorem ends_pop {R : State → Prop} {s : State} {n : Nat} {f : Quad × State → Res State}
    (h : ∀ v u, Plain s u → Ends R (f (v, u))) : Ends R (s.pop n >>= f) :=
  ends_bind fun ⟨v, u⟩ hu => h v u (pop_plain hu)

/-- The state that a return to virtual-8086 mode leaves is legal outside long mode (50_sys_a_l.md R720). -/
theorem kept_toVirtual {s t : State} (sys : t.sys = s.sys) (mem : s.memOk → t.memOk) (pe : s.pe = true)
    (long : s.longMode = false) (cpl : t.cpl = 3) : Kept s t := by
  refine ⟨sys, mem, fun _ => ⟨?_, ?_, fun _ => cpl, ?_⟩⟩
  · simp [pe_of_sys sys, pe]
  · simp [pe_of_sys sys, pe]
  · simp [longMode_of_sys sys, long]

theorem iretToVirtual_kept {s : State} {rip cs image : Quad} (pe : s.pe = true) (long : s.longMode = false) :
    Ends (Kept s) (s.iretToVirtual rip cs image) := by
  unfold State.iretToVirtual
  refine ends_pop fun rsp a ha => ends_pop fun ss b hb => ends_pop fun es c hc => ?_
  refine ends_pop fun ds d hd => ends_pop fun fs e he => ends_pop fun gs f hf => ?_
  have popped : Plain s f := ha.trans <| hb.trans <| hc.trans <| hd.trans <| he.trans hf
  dsimp -zeta only
  extract_lets shadow seg finish
  have hfinish (u : State) (hu : Plain s u) : Ends (Kept s) (finish u) :=
    ends_ok (kept_toVirtual hu.moves.sys hu.2 pe long rfl)
  exact ends_ite (fun _ => ends_bind fun u hu => hfinish u (popped.trans (clearToken_plain hu))) fun _ => hfinish f popped

theorem writeRsp_plain (s : State) (v : Quad) : Plain s (s.writeRsp v) := writeGpr_plain _ _ _ _

theorem iretFlagsProt_vm (f : Flags) (cpl : BitVec 2) (w : Width) (image : Quad) : (iretFlagsProt f cpl w image).vm = f.vm := rfl

/-- The end of a return: flags with the VM of the state before, and rIP. -/
theorem Moves.finish {s t : State} {f : Flags} (h : Moves s t) (vm : f.vm = s.flags.vm) (rip : Quad) :
    Moves s ((t.setFlags f).setRip rip) := ⟨Prod.ext h.sys vm, h.2⟩

theorem iretOuter_moves (s : State) (w : Width) (rip cs image rsp ss d : Quad) :
    Ends (Moves s) (s.iretOuter w rip cs image rsp ss d) := by
  unfold State.iretOuter
  extract_lets sel cpl t segs old finish
  have hfinish (x : State) (hx : Moves s x) : Ends (Moves s) (finish x) := by
    have left : Moves x { x with seg := x.seg.leaveLevel cpl } := ⟨rfl, id⟩
    exact ends_ok ((hx.trans left).finish rfl rip)
  refine ends_bind fun _ _ => ends_bind fun ssReg _ => ?_
  extract_lets u withFrame checked
  have loaded : Moves t { t with seg := { segs with ss := ssReg } } := ⟨rfl, id⟩
  have hu : Moves s u := (setCs_moves s _ _).trans (loaded.trans (writeRsp_plain _ _).moves)
  have hframe (p : Quad × State) : Ends (Moves s) (withFrame p) := by
    obtain ⟨prev, s'⟩ := p
    dsimp -zeta only [withFrame]
    extract_lets oldSsp withSsp v
    have hssp (x : State) (hx : Moves s x) : Ends (Moves s) (withSsp x) := by
      refine ends_ite (fun _ => ends_bind fun y hy => hfinish _ ?_) fun _ => hfinish x hx
      have level : Moves x { x with cpl := s.cpl } := ⟨rfl, id⟩
      have back : Moves y { y with cpl } := ⟨rfl, id⟩
      exact hx.trans <| level.trans <| (clearToken_plain hy).moves.trans back
    exact ends_ite (fun _ => ends_bind fun _ _ => hssp _ (hu.trans (setSsp_plain _ _).moves)) fun _ =>
      hssp _ (hu.trans (setSsp_plain _ _).moves)
  have hchecked (c : Unit) : Ends (Moves s) (checked c) :=
    ends_ite (fun _ => ends_bind fun p _ => hframe p) fun _ => hframe (s.cet.ssp, s)
  exact ends_ite (fun _ => ends_bind fun c _ => hchecked c) fun _ => hchecked ()

theorem iretSame_plain (s : State) (w : Width) (rip cs image : Quad) (popped : Option (Quad × Quad)) (d : Quad) :
    Ends (Plain s) (s.iretSame w rip cs image popped d) := by
  unfold State.iretSame
  extract_lets sel t finish withStack segs
  have hfinish (u : State) (hu : Plain s u) : Ends (Plain s) (finish u) :=
    ends_ok (hu.trans <| Plain.trans (setFlags_plain (congrArg (·.1.2) hu.1).symm) (setRip_plain _ _))
  have hstack (u : State) (hu : Plain s u) : Ends (Plain s) (withStack u) := by
    refine ends_ite (fun _ => ends_bind fun _ _ => ends_bind fun ⟨prev, v⟩ hv => ?_) fun _ => hfinish u hu
    have framed : Plain s v := hu.trans (popSsFrame_plain hv)
    refine ends_bind fun _ _ => ends_ite (fun _ => ends_bind fun x hx => hfinish _ ?_) fun _ => hfinish _ ?_
    · exact framed.trans <| (clearToken_plain hx).trans (setSsp_plain _ _)
    · exact framed.trans (setSsp_plain _ _)
  have ht : Plain s t := setCsSame_plain s _
  refine ends_bind fun _ _ => ?_
  cases popped with
  | none => exact hstack t ht
  | some p =>
    refine ends_bind fun ssReg _ => hstack _ ?_
    have loaded : Plain t { t with seg := { segs with ss := ssReg } } := ⟨rfl, id⟩
    exact ht.trans (loaded.trans (writeRsp_plain _ _))

theorem iretProtected_kept {s : State} {w : Width} (prot : s.protMode = true) : Ends (Kept s) (s.iretProtected w) := by
  unfold State.iretProtected
  refine ends_ite (fun _ => ends_ite (fun _ => ends_error) fun _ => ends_error) fun _ => ?_
  refine ends_pop fun rip a ha => ends_pop fun cs b hb => ends_pop fun image c hc => ?_
  have popped : Plain s c := ha.trans <| hb.trans hc
  have pe : c.pe = true := (pe_of_sys popped.moves.sys).trans (protMode_pe prot)
  dsimp -zeta only
  refine ends_ite (fun virt => ?_) fun _ => ?_
  · have long : c.longMode = false := by
      rw [longMode_of_sys popped.moves.sys]
      simp only [Bool.and_eq_true, Bool.not_eq_true'] at virt
      exact virt.2
    exact fun t h => popped.kept.trans (iretToVirtual_kept pe long t h)
  extract_lets sel outer
  have houter (x : State) (hx : Plain s x) {rsp ss d : Quad} : Ends (Kept s) (x.iretOuter w rip cs image rsp ss d) :=
    ends_mono (iretOuter_moves _ _ _ _ _ _ _ _) fun t ht => (hx.moves.trans ht).kept prot
  have hsame (x : State) (hx : Plain s x) {p : Option (Quad × Quad)} {d : Quad} :
      Ends (Kept s) (x.iretSame w rip cs image p d) :=
    ends_mono (iretSame_plain _ _ _ _ _ _ _) fun t ht => (hx.trans ht).kept
  refine ends_bind fun _ _ => ends_ite (fun _ => ?_) fun _ => ends_bind fun _ _ => hsame c popped
  refine ends_pop fun rsp d hd => ends_pop fun ss e he => ends_bind fun _ _ => ?_
  have popped' : Plain s e := popped.trans (hd.trans he)
  exact ends_ite (fun _ => houter e popped') fun _ => hsame e popped'

/-- IRET keeps the system registers and a legal level (50_sys_a_l.md R715). -/
theorem iret_kept (s : State) (w : Width) : Ends (Kept s) (s.iret w) := by
  unfold State.iret
  extract_lets finish
  have hfinish (u : State) (hu : Kept s u) : Ends (Kept s) (finish u) := ends_ok (hu.trans (Plain.kept ⟨rfl, id⟩))
  refine ends_ite (fun _ => ends_bind fun u hu => hfinish u (iretReal_plain hu).kept) fun _ => ?_
  refine ends_ite (fun prot => ends_bind fun u hu => hfinish u (iretProtected_kept prot u hu)) fun _ => ?_
  exact ends_bind fun u hu => hfinish u (iretVirtual_plain hu).kept

end Sys2Proof.Machine
end

