-- ==== Sys2Proof/Proofs/Bodies.lean ====
section
/-! PROOFS. The bodies of the instructions that no level may be denied: each changes no system register, and each but the far
transfers keeps the level and the mode (60_exceptions.md R928). -/

namespace Sys2Proof.Machine

/-! ### Arithmetic and logic -/

/-- A value put at a place, with flags that have the old VM. -/
theorem putAt_setFlags_plain (t : State) (w : Width) (p : Place) (v : Quad) {f : Flags} (vm : f.vm = t.flags.vm) :
    Plain t ((t.putAt w p v).setFlags f) :=
  (putAt_plain t w p v).trans (setFlags_plain (by rw [putAt_frame]; exact vm))

theorem alu_plain (t : State) (w : Width) (f : AluForm) (lock : Bool) {op : AluOp} (vm : ∀ f n a b, (op f n a b).2.vm = f.vm) :
    Ends (Plain t) (t.alu w f lock op) :=
  ends_bind fun _ _ => ends_bind fun ⟨p, _, _⟩ _ => ends_ok (putAt_setFlags_plain t w p _ (vm _ _ _ _))

theorem aluTest_plain (t : State) (w : Width) (f : AluForm) {op : AluOp} (vm : ∀ f n a b, (op f n a b).2.vm = f.vm) :
    Ends (Plain t) (t.aluTest w f op) :=
  ends_bind fun _ _ => ends_ok (setFlags_plain (vm _ _ _ _))

theorem unary_plain (t : State) (w : Width) (rm : RM) (lock : Bool) {op : Flags → Quad → Quad × Flags}
    (vm : ∀ f a, (op f a).2.vm = f.vm) : Ends (Plain t) (t.unary w rm lock op) :=
  ends_bind fun _ _ => ends_bind fun p _ => ends_ok (putAt_setFlags_plain t w p _ (vm _ _))

theorem setProduct_plain (t : State) (w : Width) (p : Nat) : Plain t (t.setProduct w p) := by
  cases w <;> exact ⟨rfl, id⟩

theorem setQuotient_plain (t : State) (w : Width) (q r : Quad) : Plain t (t.setQuotient w q r) := by
  cases w <;> exact ⟨rfl, id⟩

theorem setProduct_flags (t : State) (w : Width) (p : Nat) : (t.setProduct w p).flags = t.flags := by
  cases w <;> rfl

theorem setQuotient_flags (t : State) (w : Width) (q r : Quad) : (t.setQuotient w q r).flags = t.flags := by
  cases w <;> rfl

theorem cmpxchgPair_plain (t : State) (h : Width) (m : Mem) : Ends (Plain t) (t.cmpxchgPair h m) := by
  refine ends_bind fun ps _ => ends_ite (fun _ => ends_ok ?_) fun _ => ends_ok ?_
  · exact (storeAt_plain t ps _).trans (setFlags_plain rfl)
  · exact (storeAt_plain t ps _).trans <| (writeGpr_plain _ _ _ _).trans <| (writeGpr_plain _ _ _ _).trans (setFlags_plain rfl)

theorem asciiAdjust_plain (t : State) (dh dl : Quad) : Ends (Plain t) (t.asciiAdjust dh dl) :=
  ends_bind fun _ _ => ends_ite (fun _ => ends_ok ⟨rfl, id⟩) fun _ => ends_ok ⟨rfl, id⟩

theorem decimalAdjust_plain (t : State) (low high : Quad) : Ends (Plain t) (t.decimalAdjust low high) :=
  ends_bind fun _ _ => ends_ok ⟨rfl, id⟩

/-! ### Bits and shifts -/

theorem vexOp_plain (t : State) (feature : Bool) (w : Width) (dst : Gpr) (src : RM) {op : Quad → Quad × Flags}
    (vm : ∀ v, (op v).2.vm = t.flags.vm) : Ends (Plain t) (t.vexOp feature w dst src op) :=
  ends_bind fun _ _ => ends_bind fun _ _ => ends_ok (finish_plain _ _ _ (vm _))

theorem bitOp_plain (t : State) (feature : Bool) (w : Width) (dst : Gpr) (src : RM) (g : Quad → Quad) (carry : Quad → Bool) :
    Ends (Plain t) (t.bitOp feature w dst src g carry) :=
  vexOp_plain t feature w dst src fun _ => rfl

theorem bitScan_plain (t : State) (w : Width) (dst : Gpr) (src : RM) (index : Quad → Nat) :
    Ends (Plain t) (t.bitScan w dst src index) := by
  refine ends_bind fun v _ => ends_ok ?_
  split
  · exact setFlags_plain rfl
  · exact finish_plain _ _ _ rfl

theorem zeroCount_plain (t : State) (w : Width) (dst : Gpr) (src : RM) (count : Quad → Nat) :
    Ends (Plain t) (t.zeroCount w dst src count) :=
  ends_bind fun _ _ => ends_ok (finish_plain _ _ _ rfl)

theorem bitChange_plain (t : State) (w : Width) (rm : RM) (off : BitOff) (lock : Bool) (g : Quad → Quad → Quad) :
    Ends (Plain t) (t.bitChange w rm off lock g) :=
  ends_bind fun _ _ => ends_bind fun ⟨p, _⟩ _ => ends_ok (putAt_setFlags_plain t w p _ rfl)

theorem shift_plain (t : State) (w : Width) (rm : RM) (cnt : ShiftCount) {op : Nat → Quad → Quad × Flags}
    (vm : ∀ c v, (op c v).2.vm = t.flags.vm) : Ends (Plain t) (t.shift w rm cnt op) :=
  ends_bind fun p _ => ends_ite (fun _ => ends_ok (putAt_plain t w p _)) fun _ => ends_ok (putAt_setFlags_plain t w p _ (vm _ _))

theorem rotateFlags_vm (f : Flags) (count c : Nat) (cf of : Bool) : (rotateFlags f count c cf of).vm = f.vm := by
  unfold rotateFlags
  split <;> rfl

theorem shiftFlags_vm (f : Flags) (count c : Nat) (w : Width) (r : Quad) (cf of : Bool) :
    (shiftFlags f count c w r cf of).vm = f.vm := by
  rw [shiftFlags, undefine_vm, rotateFlags_vm]
  rfl

theorem shiftDouble_plain (t : State) (w : Width) (rm : RM) (cnt : ShiftCount) (op : Nat → Quad → Quad) (carry : Nat → Quad → Bool) :
    Ends (Plain t) (t.shiftDouble w rm cnt op carry) := by
  refine shift_plain t w rm cnt fun c v => ?_
  split
  · exact undefine_vm _ _ _
  · exact shiftFlags_vm _ _ _ _ _ _ _

/-! ### Moves -/

theorem loadSegReg_plain (t : State) (n : SegName) (sel : BitVec 16) : Ends (Plain t) (t.loadSegReg n sel) := by
  refine ends_ite (fun _ => ends_ok (setSreg_plain _ _ _)) fun _ => ends_ite (fun _ => ends_ite (fun _ => ?_) fun _ => ?_) fun _ => ?_
  · exact ends_bind fun _ _ => ends_ok (setSreg_plain _ _ _)
  · exact ends_bind fun _ _ => ends_ok (setSreg_plain _ _ _)
  · exact ends_ite (fun _ => ends_ok (setSreg_plain _ _ _)) fun _ => ends_bind fun _ _ => ends_ok (setSreg_plain _ _ _)

theorem openShadow_plain (t s : State) (n : SegName) : Plain t (t.openShadow s n) := by
  unfold State.openShadow
  split
  · exact ⟨rfl, id⟩
  · exact .refl t

theorem movFromSeg_plain (t : State) (w : Width) (rm : RM) (n : SegName) : Ends (Plain t) (t.movFromSeg w rm n) := by
  cases rm with
  | reg g => exact ends_ok (writeGReg_plain _ _ _ _)
  | mem m => exact fun u h => writeM_plain h

theorem movToSeg_plain (t s : State) (n : SegName) (rm : RM) : Ends (Plain t) (t.movToSeg s n rm) :=
  ends_bind fun _ _ => ends_bind fun _ _ => ends_bind fun u hu =>
    ends_ok ((loadSegReg_plain t n _ u hu).trans (openShadow_plain _ _ _))

theorem loadFar_plain (t : State) (w : Width) (n : SegName) (dst : Gpr) (m : Mem) : Ends (Plain t) (t.loadFar w n dst m) :=
  ends_bind fun ⟨_, sel⟩ _ => ends_bind fun u hu => ends_ok ((loadSegReg_plain t n sel u hu).trans (writeGpr_plain _ _ _ _))

theorem cmov_plain (t : State) (c : Cond) (w : Width) (dst : Gpr) (src : RM) : Ends (Plain t) (t.cmov c w dst src) := by
  refine ends_bind fun _ _ => ends_bind fun _ _ => ends_ok ?_
  split
  · exact writeGpr_plain _ _ _ _
  · split
    · exact writeGpr_plain _ _ _ _
    · exact .refl t

theorem setcc_plain (t : State) (c : Cond) (rm : RM) : Ends (Plain t) (t.setcc c rm) := fun _ h => writeRM_plain h

theorem writeBase_plain (t : State) (w : Width) (n : SegName) (r : Gpr) : Ends (Plain t) (t.writeBase w n r) :=
  ends_bind fun _ _ => ends_bind fun _ _ => ends_ok (setSreg_plain _ _ _)

theorem randomInto_plain (t : State) (w : Width) (r : Gpr) (fail : Quad) : Plain t (t.randomInto w r fail) := by
  unfold State.randomInto
  dsimp only
  split <;> exact finish_plain _ _ _ rfl

theorem armMonitor_plain (t : State) (seg : SegName) (asz : ASize) : Ends (Plain t) (t.armMonitor seg asz) :=
  ends_bind fun _ _ => ends_ok ⟨rfl, id⟩

/-! ### The stack -/

theorem ends_push {R : State → Prop} {s : State} {n : Nat} {v : Quad} {f : State → Res State}
    (h : ∀ u, Plain s u → Ends R (f u)) : Ends R (s.push n v >>= f) :=
  ends_bind fun u hu => h u (push_plain hu)

theorem popRM_plain (t : State) (w : Width) (d : RM) : Ends (Plain t) (t.popRM w d) :=
  ends_pop fun _ _ hu _ h => hu.trans (writeRM_plain h)

theorem popSeg_plain (t s : State) (w : Width) (n : SegName) : Ends (Plain t) (t.popSeg s w n) :=
  ends_bind fun _ _ => ends_pop fun _ u hu => ends_bind fun x hx =>
    ends_ok (hu.trans <| (loadSegReg_plain u n _ x hx).trans (openShadow_plain _ _ _))

theorem pushRegs_plain (t : State) (w : Width) : Ends (Plain t) (t.pushRegs w) :=
  ends_bind fun _ _ _ h => pushAllE_plain h

theorem popList_plain (w : Width) (rs : List (Option Gpr)) : ∀ t : State, Ends (Plain t) (t.popList w rs) := by
  induction rs with
  | nil => exact fun t => ends_ok (.refl t)
  | cons r rs ih =>
    refine fun t => ends_pop fun v u hu x hx => ?_
    cases r with
    | none => exact hu.trans (ih _ x hx)
    | some g => exact hu.trans ((writeGpr_plain _ _ _ _).trans (ih _ x hx))

theorem popRegs_plain (t : State) (w : Width) : Ends (Plain t) (t.popRegs w) :=
  ends_bind fun _ _ => popList_plain w _ t

theorem pushFlags_plain (t : State) (w : Width) : Ends (Plain t) (t.pushFlags w) :=
  ends_ite (fun _ _ h => push_plain h) fun _ => ends_bind fun _ _ _ h => push_plain h

/-- The flags of POPF, put into a state that a pop has left. -/
theorem popfFlags_plain {s t : State} (h : Plain s t) {f : Flags} (vm : f.vm = s.flags.vm) : Plain s (t.setFlags f) :=
  h.trans (setFlags_plain (vm.trans h.moves.vm.symm))

theorem popFlags_plain (t : State) (w : Width) : Ends (Plain t) (t.popFlags w) := by
  refine ends_ite (fun _ => ends_pop fun _ _ hu => ends_ok (popfFlags_plain hu rfl)) fun _ => ?_
  refine ends_ite (fun _ => ends_pop fun _ _ hu => ends_ok (popfFlags_plain hu rfl)) fun _ => ?_
  exact ends_bind fun _ _ => ends_pop fun _ _ hu => ends_bind fun _ _ => ends_ok (popfFlags_plain hu rfl)

theorem copyDisplay_plain (n : Nat) (bp : Quad) (k : Nat) : ∀ (t : State) (i : Nat), Ends (Plain t) (t.copyDisplay n bp k i) := by
  induction k with
  | zero => exact fun t _ => ends_ok (.refl t)
  | succ k ih => exact fun t i => ends_bind fun _ _ => ends_push fun u hu x hx => hu.trans (ih u _ x hx)

theorem enterDisplay_plain (t : State) (n level : Nat) (bp frame : Quad) : Ends (Plain t) (t.enterDisplay n level bp frame) :=
  ends_ite (fun _ => ends_ok (.refl t)) fun _ => ends_bind fun u hu _ h => (copyDisplay_plain n bp _ t _ u hu).trans (push_plain h)

/-! ### Near transfers -/

theorem jumpTo_plain (t : State) (target : Quad) : Ends (Plain t) (t.jumpTo target) :=
  ends_bind fun _ _ => ends_ok (setRip_plain _ _)

theorem jumpIf_plain (t : State) (c : Bool) (w : Width) (rel : Quad) : Ends (Plain t) (t.jumpIf c w rel) :=
  ends_ite (fun _ => jumpTo_plain t _) fun _ => ends_ok (.refl t)

theorem loopIf_plain (t : State) (c : Bool) (w : Width) (asz : ASize) (rel : Quad) : Ends (Plain t) (t.loopIf c w asz rel) :=
  fun u h => (writeGpr_plain _ _ _ _).trans (jumpIf_plain _ _ _ _ u h)

theorem callShadow_plain (t : State) (w : Width) (target : NearTarget) (ret : Quad) : Ends (Plain t) (t.callShadow w target ret) :=
  ends_ite (fun _ => ends_bind fun _ hu => ends_ok ((sstkWrite_plain hu).trans (setSsp_plain _ _))) fun _ => ends_ok (.refl t)

theorem retShadow_plain (t : State) (w : Width) (rip : Quad) : Ends (Plain t) (t.retShadow w rip) :=
  ends_ite (fun _ => ends_bind fun _ _ => ends_bind fun _ _ => ends_ok (setSsp_plain _ _)) fun _ => ends_ok (.refl t)

theorem dropStack_plain (t : State) (imm : BitVec 16) : Plain t (t.dropStack imm) := writeGpr_plain _ _ _ _

/-! ### Far transfers -/

theorem callFrame_plain (u t : State) (v : Nat) : Ends (Plain u) (u.callFrame t v) :=
  ends_ite (fun _ => ends_bind fun _ _ => ends_bind fun _ hx _ h => (alignSsp_plain hx).trans (pushSsFrame_plain h))
    fun _ => ends_ok (.refl u)

theorem callSame_plain (t : State) (v : Nat) (cs : SegReg) (rip : Quad) : Ends (Plain t) (t.callSame v cs rip) :=
  ends_bind fun u hu => ends_bind fun _ _ => ends_bind fun x hx =>
    ends_ok ((setCsSame_plain t cs).trans <| (pushAllE_plain hu).trans <| (callFrame_plain u t v x hx).trans (setRip_plain _ _))

theorem copyParams_plain (t : State) (v n : Nat) : ∀ u : State, Ends (Plain u) (u.copyParams t v n) := by
  induction n with
  | zero => exact fun u => ends_ok (.refl u)
  | succ n ih => exact fun u => ends_bind fun _ _ => ends_bind fun x hx y hy => (pushE_plain hx).trans (ih x y hy)

theorem callInnerShadow_plain (u t : State) (v : Nat) : Ends (Plain u) (u.callInnerShadow t v) := by
  unfold State.callInnerShadow
  extract_lets cet u' ssp
  have hu' : Plain u u' := by
    unfold u'
    split
    · exact ⟨rfl, id⟩
    · exact .refl u
  refine ends_ite (fun _ => ends_bind fun x hx => ?_) fun _ => ends_ok hu'
  have busy : Plain u x := hu'.trans <| (setSsp_plain _ _).trans (setTokenBusy_plain hx)
  exact ends_ite (fun _ _ h => busy.trans (pushSsFrame_plain h)) fun _ => ends_ok busy

theorem callInner_moves (t : State) (v params : Nat) (cs : SegReg) (cpl : BitVec 2) (rip : Quad) :
    Ends (Moves t) (t.callInner v params cs cpl rip) := by
  refine ends_bind fun ⟨ss, sp⟩ _ => ends_bind fun a ha => ends_bind fun b hb => ends_bind fun c hc => ends_bind fun d hd => ends_ok ?_
  have pushed : Plain _ d := (pushAllE_plain ha).trans <| (copyParams_plain t v params a b hb).trans <|
    (pushAllE_plain hc).trans (callInnerShadow_plain c t v d hd)
  exact (enterInner_moves _ _ _ _ _).trans (pushed.trans (setRip_plain _ _)).moves

theorem callGate_moves (t : State) (sel : BitVec 16) (d : Quad) : Ends (Moves t) (t.callGate sel d) := by
  refine ends_bind fun rip _ => ends_bind fun c _ => ?_
  refine ends_bind fun _ _ => ends_ite (fun _ => ?_) fun _ => callInner_moves _ _ _ _ _ _
  exact ends_mono (callSame_plain _ _ _ _) fun _ h => h.moves

theorem callProtected_moves (t : State) (w : Width) (sel : BitVec 16) (off : Quad) : Ends (Moves t) (t.callProtected w sel off) := by
  refine ends_bind fun ⟨k, d⟩ _ => ?_
  cases k with
  | tss => exact ends_error
  | taskGate => exact fun u h => absurd h (taskGate_not_ok _ _ _)
  | callGate => exact callGate_moves _ _ _
  | code => exact ends_mono (callSame_plain _ _ _ _) fun _ h => h.moves

theorem callReal_plain (t : State) (w : Width) (sel : BitVec 16) (off : Quad) : Ends (Plain t) (t.callReal w sel off) :=
  ends_bind fun _ hu => ends_bind fun _ _ => ends_ok ((pushAllE_plain hu).trans <| (loadCsReal_plain _ _).trans (setRip_plain _ _))

theorem jumpSame_plain (t : State) (cs : SegReg) (rip : Quad) : Ends (Plain t) (t.jumpSame cs rip) :=
  ends_bind fun _ _ => ends_ok ((setCs_plain t cs).trans (setRip_plain _ _))

theorem jmpProtected_plain (t : State) (sel : BitVec 16) (off : Quad) : Ends (Plain t) (t.jmpProtected sel off) := by
  refine ends_bind fun ⟨k, d⟩ _ => ?_
  cases k with
  | tss => exact ends_error
  | taskGate => exact fun u h => absurd h (taskGate_not_ok _ _ _)
  | callGate => exact ends_bind fun _ _ => ends_bind fun _ _ => jumpSame_plain _ _ _
  | code => exact jumpSame_plain _ _ _

theorem jmpReal_plain (t : State) (sel : BitVec 16) (off : Quad) : Ends (Plain t) (t.jmpReal sel off) :=
  ends_bind fun _ _ => ends_ok ((loadCsReal_plain _ _).trans (setRip_plain _ _))

theorem retfReal_plain (t : State) (imm : BitVec 16) (rip cs : Quad) : Ends (Plain t) (t.retfReal imm rip cs) :=
  ends_bind fun _ _ => ends_ok ((loadCsReal_plain _ _).trans <| (dropStack_plain _ _).trans (setRip_plain _ _))

theorem retfSameShadow_plain (t : State) (sel : BitVec 16) (rip : Quad) : Ends (Plain t) (t.retfSameShadow sel rip) := by
  refine ends_ite (fun _ => ends_bind fun _ _ => ends_bind fun ⟨prev, u⟩ hu => ?_) fun _ => ends_ok (.refl t)
  exact ends_bind fun _ _ => ends_ok ((popSsFrame_plain hu).trans (setSsp_plain _ _))

theorem retfSame_plain (t : State) (imm sel : BitVec 16) (rip : Quad) : Ends (Plain t) (t.retfSame imm sel rip) :=
  ends_bind fun _ _ => ends_bind fun _ _ => ends_bind fun x hx => ends_ok <|
    (setCsSame_plain t _).trans <| (dropStack_plain _ _).trans <| (retfSameShadow_plain _ sel rip x hx).trans (setRip_plain _ _)

/-- The frame that a return to an outer level reads from the shadow stack leaves the system registers alone. -/
theorem retfOuterFrame_plain {u t x : State} {sel : BitVec 16} {rip prev : Quad}
    (h : u.retfOuterFrame t sel rip = .ok (prev, x)) : Plain u x := by
  unfold State.retfOuterFrame at h
  split at h
  · simp only [bind_ok, Prod.exists, Except.ok.injEq, Prod.mk.injEq] at h
    obtain ⟨_, -, _, _, hx, _, -, -, rfl⟩ := h
    exact popSsFrame_plain hx
  · cases h
    exact .refl u

theorem retfOuterShadow_moves (u t : State) (sel : BitVec 16) (rip : Quad) : Ends (Moves u) (u.retfOuterShadow t sel rip) := by
  unfold State.retfOuterShadow
  refine ends_bind fun ⟨prev, x⟩ hx => ?_
  dsimp -zeta only
  extract_lets oldSsp finish v
  have framed : Moves u x := (retfOuterFrame_plain hx).moves
  have hfinish (y : State) (hy : Moves u y) : Ends (Moves u) (finish y) := by
    refine ends_ite (fun _ => ends_bind fun z hz => ends_ok ?_) fun _ => ends_ok hy
    have level : Moves y { y with cpl := t.cpl } := ⟨rfl, id⟩
    exact hy.trans <| level.trans <| (clearToken_plain hz).moves.trans ⟨rfl, id⟩
  exact ends_ite (fun _ => ends_bind fun _ _ => hfinish _ (framed.trans (setSsp_plain x v).moves)) fun _ => hfinish x framed

theorem retfOuter_moves (t : State) (w : Width) (imm sel : BitVec 16) (rip : Quad) : Ends (Moves t) (t.retfOuter w imm sel rip) := by
  refine ends_pop fun rsp a ha => ends_pop fun ss b hb => ends_bind fun d _ => ends_bind fun _ _ => ends_bind fun ssReg _ => ?_
  refine ends_bind fun x hx => ends_ok ?_
  have popped : Plain t b := (dropStack_plain t imm).trans (ha.trans hb)
  have loaded : Moves b (b.setCs (descSeg sel d) (rpl sel)) := setCs_moves _ _ _
  have stack : Moves (b.setCs (descSeg sel d) (rpl sel)) _ := ⟨rfl, id⟩
  exact popped.moves.trans <| loaded.trans <| stack.trans <| (retfOuterShadow_moves _ t sel rip x hx).trans ⟨rfl, id⟩

/-! ### Strings and ports -/

theorem advance_plain (t : State) (asz : ASize) (r : Gpr) (n : Nat) : Plain t (t.advance asz r n) := writeGpr_plain _ _ _ _

theorem again_plain (u s : State) : Plain u (u.again s) := ⟨rfl, id⟩

theorem iterate_plain {body : State → Res State} (h : ∀ t, Ends (Plain t) (body t)) (t s : State) (asz : ASize) (rep : Rep)
    (zfTest : Bool) : Ends (Plain t) (t.iterate s asz rep zfTest body) := by
  refine ends_ite (fun _ => h t) fun _ => ends_ite (fun _ => ends_ok (.refl t)) fun _ => ends_bind fun u hu => ends_ok ?_
  refine (h t u hu).trans ?_
  split
  · exact writeGpr_plain _ _ _ _
  · exact (writeGpr_plain _ _ _ _).trans (again_plain _ _)

theorem cmps_plain (w : Width) (seg : SegName) (asz : ASize) (t : State) : Ends (Plain t) (t.cmps w seg asz) :=
  ends_bind fun a _ => ends_bind fun b _ => ends_ok <|
    (setFlags_plain (f := (subFlags t.flags w a b false).2) rfl).trans <| (advance_plain _ _ _ _).trans (advance_plain _ _ _ _)

theorem lods_plain (w : Width) (seg : SegName) (asz : ASize) (t : State) : Ends (Plain t) (t.lods w seg asz) :=
  ends_bind fun _ _ => ends_ok ((writeGpr_plain _ _ _ _).trans (advance_plain _ _ _ _))

theorem movs_plain (w : Width) (seg : SegName) (asz : ASize) (t : State) : Ends (Plain t) (t.movs w seg asz) :=
  ends_bind fun _ _ => ends_bind fun _ hu => ends_ok <|
    (writeMem_plain hu).trans <| (advance_plain _ _ _ _).trans (advance_plain _ _ _ _)

theorem scas_plain (w : Width) (asz : ASize) (t : State) : Ends (Plain t) (t.scas w asz) :=
  ends_bind fun m _ => ends_ok <|
    (setFlags_plain (f := (subFlags t.flags w (t.readGpr w .rax) m false).2) rfl).trans (advance_plain _ _ _ _)

theorem stos_plain (w : Width) (asz : ASize) (t : State) : Ends (Plain t) (t.stos w asz) :=
  ends_bind fun _ hu => ends_ok ((writeMem_plain hu).trans (advance_plain _ _ _ _))

theorem ioRead_plain (t : State) (port : BitVec 16) (w : Width) : Plain t (t.ioRead port w).2 := by
  rw [ioRead_frame]
  exact ⟨rfl, id⟩

theorem ioWrite_plain (t : State) (port : BitVec 16) (w : Width) (v : Quad) : Plain t (t.ioWrite port w v) := by
  rw [ioWrite_frame]
  exact ⟨rfl, id⟩

theorem ins_plain (w : Width) (asz : ASize) (t : State) : Ends (Plain t) (t.ins w asz) :=
  ends_bind fun _ _ => ends_bind fun _ _ => ends_ok <|
    (ioRead_plain t t.dxPort w).trans <| (storeAt_plain _ _ _).trans (advance_plain _ _ _ _)

theorem outs_plain (w : Width) (seg : SegName) (asz : ASize) (t : State) : Ends (Plain t) (t.outs w seg asz) :=
  ends_bind fun _ _ => ends_bind fun _ _ => ends_ok ((ioWrite_plain _ _ _ _).trans (advance_plain _ _ _ _))

end Sys2Proof.Machine
end

