-- ==== Sys2Proof/Proofs/Privileged.lean ====
section
/-! PROOFS. What a whole instruction keeps: memory canonical with CR0.ET set, a legal mode, and at CPL 3 outside a guest the system
registers; and that the instructions which write a control, debug, table or model-specific register keep it. -/

namespace Sys2Proof.Machine

/-! ### The relation of an instruction -/

/-- From `s` to `t` the two invariants of every step are kept. -/
structure Sound (s t : State) : Prop where
  mem : s.memOk ∧ s.etOk → t.memOk ∧ t.etOk
  legal : s.LegalMode → t.LegalMode

/-- The system registers are kept too, at CPL 3 outside a guest. -/
structure Safe (s t : State) : Prop extends Sound s t where
  user : s.cpl = 3 → s.svm.guest = false → t.sys = s.sys

theorem Sound.trans {s t u : State} (h : Sound s t) (k : Sound t u) : Sound s u :=
  ⟨fun x => k.mem (h.mem x), fun x => k.legal (h.legal x)⟩

/-- A legal mode is legal registers and a legal level. -/
theorem LegalMode.priv {s : State} (h : s.LegalMode) : s.PrivOk := ⟨h.realCpl, h.realVm, h.virtCpl, h.longVm⟩

theorem pg_of_sys {s t : State} (h : t.sys = s.sys) : t.pg = s.pg := by
  rw [State.pg, State.pg, show t.ctl.cr0 = s.ctl.cr0 from congrArg SysState.cr0 h]

theorem cr4Bit_of_sys {s t : State} (h : t.sys = s.sys) (n : Nat) : t.cr4Bit n = s.cr4Bit n := by
  rw [State.cr4Bit, State.cr4Bit, show t.ctl.cr4 = s.ctl.cr4 from congrArg SysState.cr4 h]

theorem eferBit_of_sys {s t : State} (h : t.sys = s.sys) (n : Nat) : t.eferBit n = s.eferBit n := by
  rw [State.eferBit, State.eferBit, show t.ctl.efer = s.ctl.efer from congrArg SysState.efer h]

theorem legalMode_of_sys {s t : State} (h : t.sys = s.sys) (priv : t.PrivOk) (k : s.LegalMode) : t.LegalMode where
  noSvm := (congrArg (fun x => x.cfg.features.svm) h).trans k.noSvm
  noGuest := (congrArg (fun x => x.svm.guest) h).trans k.noGuest
  noSnp := (congrArg (fun x => x.svm.snpActive) h).trans k.noSnp
  paging := by rw [pg_of_sys h, pe_of_sys h]; exact k.paging
  caching := by rw [show t.ctl.cr0 = s.ctl.cr0 from congrArg SysState.cr0 h]; exact k.caching
  lma := by rw [longMode_of_sys h, eferBit_of_sys h, pg_of_sys h]; exact k.lma
  pae := by rw [longMode_of_sys h, cr4Bit_of_sys h]; exact k.pae
  pcid := by rw [longMode_of_sys h, cr4Bit_of_sys h]; exact k.pcid
  realCpl := priv.realCpl
  realVm := priv.realVm
  virtCpl := priv.virtCpl
  longVm := priv.longVm

theorem etOk_of_sys {s t : State} (h : t.sys = s.sys) (k : s.etOk) : t.etOk := by
  rw [State.etOk, show t.ctl.cr0 = s.ctl.cr0 from congrArg SysState.cr0 h]
  exact k

theorem Kept.safe {s t : State} (h : Kept s t) : Safe s t where
  mem := fun ⟨m, e⟩ => ⟨h.mem m, etOk_of_sys h.sys e⟩
  legal := fun l => legalMode_of_sys h.sys (h.priv (LegalMode.priv l)) l
  user := fun _ _ => h.sys

/-- A safe change, after one that keeps the level, and before any that keeps the system registers. -/
theorem Safe.of_start {s t : State} (h : Safe s.start t) : Safe s t := ⟨⟨h.mem, fun l => h.legal ((Plain.kept ⟨rfl, id⟩ :
  Kept s s.start).safe.legal l)⟩, h.user⟩

theorem Safe.kept {s t u : State} (h : Safe s t) (k : Kept t u) : Safe s u :=
  ⟨h.toSound.trans k.safe.toSound, fun cpl guest => k.sys.trans (h.user cpl guest)⟩

/-- What an instruction keeps, by what its body keeps (60_exceptions.md R906, R926). -/
theorem run_safe {s t : State} {body : State → Res State} (h : Ends (Safe s.start) (body s.start)) (e : run s body = .next t) :
    Safe s t := by
  rcases run_next e with ⟨u, hu, hc⟩ | ⟨x, -, hr⟩
  · exact (h u hu).of_start.kept (complete_kept hc)
  · exact (raise_kept hr).safe

theorem run_kept {s t : State} {body : State → Res State} (h : ∀ t, Ends (Kept t) (body t)) (e : run s body = .next t) : Safe s t :=
  run_safe (ends_mono (h _) fun _ k => k.safe) e

theorem run_plain {s t : State} {body : State → Res State} (h : ∀ t, Ends (Plain t) (body t)) (e : run s body = .next t) : Safe s t :=
  run_kept (fun t => ends_mono (h t) fun _ k => k.kept) e

/-! ### Privileged changes -/

/-- The mode is decided by these registers alone. -/
theorem legalMode_congr {s t : State}
    (h : (t.cfg, t.svm.guest, t.svm.snpActive, t.ctl.cr0, t.ctl.cr4, t.ctl.efer, t.cpl, t.flags.vm) =
      (s.cfg, s.svm.guest, s.svm.snpActive, s.ctl.cr0, s.ctl.cr4, s.ctl.efer, s.cpl, s.flags.vm)) (k : s.LegalMode) : t.LegalMode := by
  simp only [Prod.mk.injEq] at h
  obtain ⟨cfg, guest, snp, cr0, cr4, efer, cpl, vm⟩ := h
  obtain ⟨h1, h2, h3, h4, h5, h6, h7, h8, h9, h10, h11, h12⟩ := k
  constructor <;> simpa only [State.pg, State.pe, State.longMode, State.eferBit, State.cr4Bit, cfg, guest, snp, cr0, cr4, efer, cpl, vm]

/-- A change at level 0 of registers that neither invariant speaks of. -/
theorem safe_of_level0 {s t : State} (level : s.cpl = 0) (mem : s.memOk → t.memOk) (h : (t.cfg, t.svm.guest, t.svm.snpActive,
      t.ctl.cr0, t.ctl.cr4, t.ctl.efer, t.cpl, t.flags.vm) =
    (s.cfg, s.svm.guest, s.svm.snpActive, s.ctl.cr0, s.ctl.cr4, s.ctl.efer, s.cpl, s.flags.vm)) : Safe s t where
  mem := fun ⟨m, e⟩ => ⟨mem m, by
    rw [State.etOk, show t.ctl.cr0 = s.ctl.cr0 from congrArg (fun x => x.2.2.2.1) h]
    exact e⟩
  legal := legalMode_congr h
  user := fun cpl => absurd (level.symm.trans cpl) (by decide)

theorem needCpl0_ok {s : State} {u : Unit} (h : s.needCpl0 = .ok u) : s.cpl = 0 := by
  simpa using require_ok.mp h

/-- The rest of a privileged body runs at level 0. -/
theorem ends_needCpl0 {R : State → Prop} {s : State} {f : Unit → Res State} (h : s.cpl = 0 → Ends R (f ())) :
    Ends R (s.needCpl0 >>= f) := ends_bind fun _ hu => h (needCpl0_ok hu)

theorem lgdt_safe (t : State) (w : Width) (m : Mem) :
    Ends (Safe t) (do let r ← t.readPseudo w m; .ok { t with gdtr := r }) := by
  refine ends_bind fun r hr => ends_ok ?_
  obtain ⟨_, level, -⟩ := bind_ok.mp hr
  exact safe_of_level0 (needCpl0_ok level) id rfl

theorem lidt_safe (t : State) (w : Width) (m : Mem) :
    Ends (Safe t) (do let r ← t.readPseudo w m; .ok { t with idtr := r }) := by
  refine ends_bind fun r hr => ends_ok ?_
  obtain ⟨_, level, -⟩ := bind_ok.mp hr
  exact safe_of_level0 (needCpl0_ok level) id rfl

theorem setBusy_plain {t u : State} {sel : BitVec 16} (h : t.setBusy sel = .ok u) : Plain t u := by
  simp only [State.setBusy, bind_ok, Except.ok.injEq] at h
  obtain ⟨ps, -, rfl⟩ := h
  exact storeAt_plain _ _ _

/-! ### Control registers -/

/-- LMA follows PG and LME when CR0 is written (10_state.md R62). -/
theorem activate_lma (efer cr0 : Quad) : (activate efer cr0).getLsbD 10 = (cr0.getLsbD 31 && efer.getLsbD 8) := by
  unfold activate
  split
  next h => rw [h, BitVec.getLsbD_or, show (0x400 : Quad).getLsbD 10 = true from rfl, Bool.or_true]
  next h =>
    rw [Bool.eq_false_iff.mpr h, BitVec.getLsbD_and, show (~~~(0x400 : Quad)).getLsbD 10 = false from rfl, Bool.and_false]

theorem activate_lme (efer cr0 : Quad) : (activate efer cr0).getLsbD 8 = efer.getLsbD 8 := by
  unfold activate
  split <;> simp

/-- A write of CR0 changes CR0 and LMA; the general registers and rIP follow the mode. -/
theorem setCr0_moves (t : State) (v : Quad) :
    Plain { t with ctl := { t.ctl.setCr 0 v with efer := activate t.ctl.efer v } } (t.setCr0 v) := by
  unfold State.setCr0
  refine (enterMode_plain t _).trans ?_
  unfold State.clipRip
  split
  · exact .refl _
  · exact setRip_plain _ _

/-- A legal value of CR0 keeps the mode legal (51_sys_m_r.md R761). -/
theorem legalMode_setCr0 {t : State} {v : Quad} (h : t.LegalMode) (level : t.cpl = 0) (pe : v.getLsbD 31 = true → v.getLsbD 0 = true)
    (nw : v.getLsbD 29 = true → v.getLsbD 30 = true)
    (pae : v.getLsbD 31 = true → t.pg = false → t.eferBit 8 = true → t.cr4Bit 5 = true)
    (pcid : v.getLsbD 31 = false → t.cr4Bit 17 = false) : (t.setCr0 v).LegalMode := by
  have vm : t.flags.vm = false := by
    by_contra c
    simpa [level] using h.virtCpl (by simpa using c)
  refine ((setCr0_moves t v).kept.safe).legal ?_
  have lme : (activate t.ctl.efer v).getLsbD 8 = t.eferBit 8 := activate_lme _ _
  have lma : (activate t.ctl.efer v).getLsbD 10 = (v.getLsbD 31 && t.eferBit 8) := activate_lma _ _
  have cr0 (n : Nat) (other : (0x10 : Quad).getLsbD n = false) : (v ||| 0x10).getLsbD n = v.getLsbD n := by
    rw [BitVec.getLsbD_or, other, Bool.or_false]
  have bit0 := cr0 0 rfl
  have bit29 := cr0 29 rfl
  have bit30 := cr0 30 rfl
  have bit31 := cr0 31 rfl
  have long : ∀ b, (v.getLsbD 31 && t.eferBit 8) = true → b = t.cr4Bit 5 → b = true := by
    rintro b hl rfl
    obtain ⟨pg, lme⟩ := Bool.and_eq_true_iff.mp hl
    cases old : t.pg with
    | false => exact pae pg old lme
    | true => exact h.pae (by rw [h.lma, lme, old]; rfl)
  constructor
  · exact h.noSvm
  · exact h.noGuest
  · exact h.noSnp
  · intro k
    simp only [State.pg, State.pe, Control.setCr, bit31, bit0] at k ⊢
    exact pe k
  · intro k
    simp only [Control.setCr, bit29, bit30] at k ⊢
    exact nw k
  · simp only [State.longMode, State.eferBit, State.pg, Control.setCr, bit31, lma, lme]
    rw [Bool.and_comm]
  · intro k
    simp only [State.longMode, lma] at k
    exact long _ k rfl
  · intro k
    have old := h.pcid k
    rw [h.lma] at old
    obtain ⟨lme8, -⟩ := Bool.and_eq_true_iff.mp old
    have pg : v.getLsbD 31 = true := by
      by_contra c
      have := pcid (by simpa using c)
      exact absurd (k.symm.trans this) (by decide)
    simp only [State.longMode, lma, pg, lme8, Bool.and_self]
  · intro _
    exact level
  · intro _
    exact vm
  · intro k
    exact absurd (vm.symm.trans k) (by decide)
  · intro _
    exact vm

theorem setCr0_mem {t : State} {v : Quad} (h : t.memOk) : (t.setCr0 v).memOk ∧ (t.setCr0 v).etOk := by
  refine ((setCr0_moves t v).kept.safe).mem ⟨h, ?_⟩
  simp [State.etOk, Control.setCr]

/-- A legal value of CR0 written at level 0. -/
theorem setCr0_safe {t : State} {v : Quad} (level : t.cpl = 0) (legal : t.LegalMode → (t.setCr0 v).LegalMode) :
    Safe t (t.setCr0 v) where
  mem := fun ⟨m, _⟩ => setCr0_mem m
  legal := legal
  user := fun cpl => absurd (level.symm.trans cpl) (by decide)

/-- The checks of a value of CR0 that passes (51_sys_m_r.md R761). -/
theorem checkCr0_ok {t : State} {v : Quad} {u : Unit} (h : t.checkCr0 v = .ok u) :
    (v.getLsbD 31 = true → v.getLsbD 0 = true) ∧ (v.getLsbD 29 = true → v.getLsbD 30 = true) ∧
    (v.getLsbD 31 = true → t.pg = false → t.eferBit 8 = true → t.cr4Bit 5 = true) ∧
    (v.getLsbD 31 = false → t.cr4Bit 17 = false) := by
  simp only [State.checkCr0, bind_ok, require_ok, Bool.not_eq_true', Bool.and_eq_false_iff, Bool.not_eq_false'] at h
  obtain ⟨_, -, _, paging, _, caching, _, pae, pcid⟩ := h
  refine ⟨?_, ?_, ?_, ?_⟩ <;> grind

/-- The checks of a value of CR4 that passes (51_sys_m_r.md R761). -/
theorem checkCr4_ok {t : State} {v : Quad} {u : Unit} (h : t.checkCr4 v = .ok u) :
    (t.longMode = true → v.getLsbD 5 = true) ∧ (v.getLsbD 17 = true → t.cr4Bit 17 = false → t.longMode = true) := by
  simp only [State.checkCr4, bind_ok, require_ok, Bool.not_eq_true', Bool.and_eq_false_iff, Bool.or_eq_false_iff,
    Bool.not_eq_false'] at h
  obtain ⟨_, -, _, pae, pcid⟩ := h
  refine ⟨?_, ?_⟩ <;> grind

theorem legalMode_setCr4 {t : State} {v : Quad} (h : t.LegalMode) (pae : t.longMode = true → v.getLsbD 5 = true)
    (pcid : v.getLsbD 17 = true → t.cr4Bit 17 = false → t.longMode = true) :
    ({ t with ctl := { t.ctl with cr4 := v } } : State).LegalMode :=
  { h with
    pae := pae
    pcid := fun k => by
      cases old : t.cr4Bit 17 with
      | true => exact h.pcid old
      | false => exact pcid k old }

theorem writeCr_safe {t : State} {n : Nat} {v : Quad} (level : t.cpl = 0) : Ends (Safe t) (t.writeCr n v) := by
  unfold State.writeCr
  refine ends_bind fun _ check => ends_bind fun _ _ => ends_ok ?_
  split
  next zero =>
    subst zero
    obtain ⟨pe, nw, pae, pcid⟩ := checkCr0_ok check
    exact setCr0_safe level fun h => legalMode_setCr0 h level pe nw pae pcid
  next nonzero =>
    match n, nonzero, check with
    | 2, _, _ => exact safe_of_level0 level id rfl
    | 3, _, _ => exact safe_of_level0 level id rfl
    | 4, _, check =>
      obtain ⟨pae, pcid⟩ := checkCr4_ok check
      exact ⟨⟨id, fun h => legalMode_setCr4 h pae pcid⟩, fun cpl => absurd (level.symm.trans cpl) (by decide)⟩
    | 1, _, _ => exact safe_of_level0 level id rfl
    | k + 5, _, _ => exact safe_of_level0 level id rfl

theorem movToCr_safe (t : State) (lock : Bool) (n : BitVec 4) (r : Gpr) : Ends (Safe t) (t.movToCr lock n r) :=
  ends_bind fun _ _ => ends_bind fun _ h => writeCr_safe (needCpl0_ok h)

theorem movFromCr_plain (t : State) (lock : Bool) (n : BitVec 4) (r : Gpr) : Ends (Plain t) (t.movFromCr lock n r) :=
  ends_bind fun _ _ => ends_bind fun _ _ => ends_ok (writeGpr_plain _ _ _ _)

/-- A debug register is reached at level 0 only (51_sys_m_r.md R762). -/
theorem drNumber_level {t : State} {n : BitVec 4} {k : Nat} (h : t.drNumber n = .ok k) : t.cpl = 0 := by
  simp only [State.drNumber, bind_ok] at h
  obtain ⟨_, -, _, -, _, level, -⟩ := h
  exact needCpl0_ok level

theorem movFromDr_plain (t : State) (n : BitVec 4) (r : Gpr) : Ends (Plain t) (t.movFromDr n r) :=
  ends_bind fun _ _ => ends_ok (writeGpr_plain _ _ _ _)

theorem movToDr_safe (t : State) (n : BitVec 4) (r : Gpr) : Ends (Safe t) (t.movToDr n r) :=
  ends_bind fun _ hk => ends_bind fun _ _ => ends_ok (safe_of_level0 (drNumber_level hk) id rfl)

/-- LMSW sets PE and does not clear it, and leaves the paging and caching bits alone (50_sys_a_l.md R726). -/
theorem lmsw_safe {t : State} (level : t.cpl = 0) (v : Quad) : Safe t (t.setCr0 (mswCr0 t.ctl.cr0 v)) := by
  have high (n : Nat) (mask : (~~~(0xE : Quad)).getLsbD n = true) (low : (0xF : Quad).getLsbD n = false) :
      (mswCr0 t.ctl.cr0 v).getLsbD n = t.ctl.cr0.getLsbD n := by
    simp only [mswCr0, BitVec.getLsbD_or, BitVec.getLsbD_and, mask, low, Bool.and_true, Bool.and_false, Bool.or_false]
  have pe : t.ctl.cr0.getLsbD 0 = true → (mswCr0 t.ctl.cr0 v).getLsbD 0 = true := fun h => by
    rw [mswCr0, BitVec.getLsbD_or, BitVec.getLsbD_and, h, show (~~~(0xE : Quad)).getLsbD 0 = true from rfl, Bool.and_self, Bool.true_or]
  refine setCr0_safe level fun h => legalMode_setCr0 h level ?_ ?_ ?_ ?_
  · rw [high 31 rfl rfl]
    exact fun pg => pe (h.paging pg)
  · rw [high 29 rfl rfl, high 30 rfl rfl]
    exact h.caching
  · rw [high 31 rfl rfl]
    exact fun on off => absurd (on.symm.trans off) (by decide)
  · rw [high 31 rfl rfl]
    intro off
    by_contra c
    have long := h.pcid (by simpa using c)
    rw [h.lma, State.pg, off, Bool.and_false] at long
    exact absurd long (by decide)

/-- CLTS leaves every bit of CR0 but TS alone (50_sys_a_l.md R705). -/
theorem clts_safe {t : State} (level : t.cpl = 0) :
    Safe t { t with ctl := { t.ctl with cr0 := t.ctl.cr0 &&& ~~~(8 : Quad) } } := by
  have other (n : Nat) (mask : (~~~(8 : Quad)).getLsbD n = true) : (t.ctl.cr0 &&& ~~~(8 : Quad)).getLsbD n = t.ctl.cr0.getLsbD n := by
    rw [BitVec.getLsbD_and, mask, Bool.and_true]
  have bit0 := other 0 rfl
  have bit4 := other 4 rfl
  have bit29 := other 29 rfl
  have bit30 := other 30 rfl
  have bit31 := other 31 rfl
  refine ⟨⟨fun ⟨m, e⟩ => ⟨m, bit4.trans e⟩, fun h => ?_⟩, fun cpl => absurd (level.symm.trans cpl) (by decide)⟩
  obtain ⟨noSvm, noGuest, noSnp, paging, caching, lma, pae, pcid, realCpl, realVm, virtCpl, longVm⟩ := h
  constructor <;> simpa only [State.pg, State.pe, State.longMode, State.eferBit, State.cr4Bit, bit0, bit29, bit30, bit31]

/-! ### Model-specific registers -/

/-- WRMSR of EFER keeps LMA, and keeps LME while paging is on (51_sys_m_r.md R772, 10_state.md R66). -/
theorem legalMode_setEfer {t : State} {v : Quad} (h : t.LegalMode) (lme : t.pg = true → (v ^^^ t.ctl.efer).getLsbD 8 = false) :
    ({ t with ctl := { t.ctl with efer := newEfer t.ctl.efer v } } : State).LegalMode := by
  have lma : (newEfer t.ctl.efer v).getLsbD 10 = t.longMode := by
    simp [newEfer, State.longMode]
  have lme' : (newEfer t.ctl.efer v).getLsbD 8 = v.getLsbD 8 := by
    simp [newEfer]
  have long : t.longMode = (v.getLsbD 8 && t.pg) := by
    rw [h.lma]
    cases pg : t.pg with
    | false => simp
    | true =>
      have same := lme pg
      rw [BitVec.getLsbD_xor] at same
      rw [State.eferBit, Bool.and_true, Bool.and_true]
      exact (bne_eq_false_iff_eq.mp same).symm
  obtain ⟨noSvm, noGuest, noSnp, paging, caching, -, pae, pcid, realCpl, realVm, virtCpl, longVm⟩ := h
  refine ⟨noSvm, noGuest, noSnp, paging, caching, ?_, ?_, ?_, realCpl, realVm, virtCpl, ?_⟩
  · exact lma.trans (long.trans (by rw [State.eferBit, lme']; rfl))
  · exact fun k => pae (lma.symm.trans k)
  · exact fun k => lma.trans (pcid k)
  · exact fun k => longVm (lma.symm.trans k)

theorem checkMsr_efer {t : State} {v : Quad} {u : Unit} (h : t.checkMsr 0xC0000080 v = .ok u) :
    t.pg = true → (v ^^^ t.ctl.efer).getLsbD 8 = false := by
  simp only [State.checkMsr, bind_ok, require_ok, beq_self_eq_true, Bool.true_and, Bool.not_eq_true', Bool.and_eq_false_iff] at h
  obtain ⟨_, -, _, -, off | same⟩ := h
  · exact fun on => absurd (on.symm.trans off) (by decide)
  · exact fun _ => same

theorem setMsr_safe {t : State} {n : BitVec 32} {v : Quad} {u : Unit} (level : t.cpl = 0) (check : t.checkMsr n v = .ok u) :
    Safe t (t.setMsr n v) := by
  by_cases efer : n = 0xC0000080
  · subst efer
    exact ⟨⟨id, fun h => legalMode_setEfer h (checkMsr_efer check)⟩, fun cpl => absurd (level.symm.trans cpl) (by decide)⟩
  · have number : n.toNat ≠ 0xC0000080 := fun h => efer (BitVec.eq_of_toNat_eq h)
    unfold State.setMsr
    split
    case h_14 h => exact absurd h number
    all_goals exact safe_of_level0 level id rfl

theorem wrmsr_safe (t : State) (n : BitVec 32) (v : Quad) :
    Ends (Safe t) (do t.needMsr n; t.checkMsr n v; .ok (t.setMsr n v)) := by
  refine ends_bind fun _ need => ends_bind fun _ check => ends_ok (setMsr_safe ?_ check)
  simp only [State.needMsr, bind_ok] at need
  obtain ⟨_, -, _, level, -⟩ := need
  exact needCpl0_ok level

end Sys2Proof.Machine
end

