-- ==== Sys2Proof/Proofs/Virtual.lean ====
section
/-! PROOFS. The virtual-machine instructions keep memory canonical with CR0.ET set; without SVM, and at CPL 3 outside a guest, none of
them completes (52_sys_s_w.md R841, R842). -/

namespace Sys2Proof.Machine

/-- Memory is canonical and CR0.ET is set: the invariant of every step. -/
def State.memEt (s : State) : Prop := s.memOk ∧ s.etOk

theorem Plain.memEt {s t : State} (h : Plain s t) (k : s.memEt) : t.memEt := h.kept.safe.mem k

/-- A change that touches neither memory nor CR0. -/
theorem memEt_congr {s t : State} (h : (t.mem, t.ctl.cr0) = (s.mem, s.ctl.cr0)) (k : s.memEt) : t.memEt := by
  simp only [Prod.mk.injEq] at h
  simpa only [State.memEt, State.memOk, State.etOk, h] using k

theorem putFields_plain (a : Area) (l : List (Config.VmcbField × Quad)) : ∀ t : State, Ends (Plain t) (t.putFields a l) := by
  induction l with
  | nil => exact fun t => ends_ok (.refl t)
  | cons x l ih => exact fun t => ends_bind fun u hu v hv => (writePa_plain hu).trans (ih u v hv)

theorem loadLbr_memEt {t : State} (h : t.memEt) (a : Area) : Ends State.memEt (t.loadLbr a) :=
  ends_bind fun _ _ => ends_bind fun _ _ => ends_bind fun _ _ => ends_bind fun _ _ => ends_bind fun _ _ => ends_ok h

theorem swapLbr_memEt {t : State} (h : t.memEt) (vmcb store load : Area) : Ends State.memEt (t.swapLbr vmcb store load) :=
  ends_ite (fun _ => ends_bind fun _ _ => ends_ite
      (fun _ => ends_bind fun u hu => loadLbr_memEt ((putFields_plain _ _ t u hu).memEt h) load) fun _ => ends_ok h)
    fun _ => ends_ok h

/-- CR0.ET of a loaded CR0 is 1 (log 17). -/
theorem loadCore_memEt {t : State} (h : t.memEt) (a : Area) : Ends State.memEt (t.loadCore a) := by
  refine ends_bind fun _ _ => ends_bind fun _ _ => ends_bind fun _ _ => ends_bind fun _ _ => ends_bind fun _ _ => ?_
  refine ends_bind fun cr0 _ => ends_bind fun _ _ => ends_bind fun _ _ => ends_bind fun _ _ => ends_bind fun _ _ => ?_
  refine ends_bind fun _ _ => ends_bind fun _ _ => ends_ok ⟨h.1, ?_⟩
  simp [State.etOk]

/-- A world switch changes general registers, rIP and the monitor besides what it is given. -/
theorem switchWorld_plain (t u : State) : Plain u (t.switchWorld u) := by
  unfold State.switchWorld State.clipRip
  have entered : Plain u (t.enterMode u) := enterMode_plain t u
  extract_lets v gprs
  have restored : Plain v { v with gpr := { gprs with rsp := u.gpr.rsp, rax := u.gpr.rax } } := ⟨rfl, id⟩
  split
  · exact entered.trans <| restored.trans (disarm_plain _)
  · exact entered.trans <| restored.trans <| (setRip_plain _ _).trans (disarm_plain _)

theorem loadHost_memEt {t : State} (h : t.memEt) : Ends State.memEt t.loadHost := by
  refine ends_bind fun u hu => ?_
  have loaded : u.memEt := loadCore_memEt h _ u hu
  extract_lets ctl dbg v
  have entered : v.memEt := ⟨loaded.1, by simp only [State.etOk, v, BitVec.getLsbD_or, Bool.or_eq_true]; exact .inl loaded.2⟩
  refine ends_bind fun _ _ => ends_bind fun _ _ => ends_bind fun _ _ => ends_bind fun _ _ => ends_ok ?_
  exact (switchWorld_plain t _).memEt (memEt_congr rfl entered)

theorem returnToHost_memEt {t : State} (h : t.memEt) : Ends State.memEt t.returnToHost := by
  refine ends_bind fun v hv => ends_bind fun w hw => ends_ok ?_
  have swapped := swapLbr_memEt (loadHost_memEt h v hv) _ _ _ w hw
  split
  · exact (shutdown_plain w).memEt swapped
  · exact swapped

theorem resumeHost_memEt {t u : State} (h : t.memEt) (e : t.resumeHost = .next u) : u.memEt := by
  unfold State.resumeHost at e
  split at e
  · exact (singleStep_kept e).safe.mem h
  · cases e
    exact h

theorem vmexit_memEt {t u : State} {x : Config.ExitName} (h : t.memEt) (e : t.vmexit x = .next u) : u.memEt := by
  unfold State.vmexit at e
  split at e
  next v saved =>
    have left : ({ v with svm := v.svm.leaveGuest } : State).memEt :=
      memEt_congr rfl ((putFields_plain _ _ { t with svm := { t.svm with gif := false } } v saved).memEt h)
    dsimp only at e
    split at e
    next w host => exact resumeHost_memEt (returnToHost_memEt left w host) e
    next =>
      cases e
      exact left
    all_goals cases e
  next =>
    cases e
    exact h
  all_goals cases e

/-! ### The end of an instruction of the family -/

theorem enterGuest_memEt {t u : State} (h : t.memEt) (e : t.enterGuest = .next u) : u.memEt := by
  unfold State.enterGuest at e
  split at e
  · split at e
    · exact (take_kept e).safe.mem h
    · cases e
      exact h
  · exact (raise_kept e).safe.mem h
  all_goals cases e

/-- No legal mode, and not CPL 3 outside a guest: where alone the machine leaves for a guest or a host. -/
structure Beyond (s : State) : Prop where
  legal : ¬s.LegalMode
  user : s.cpl = 3 → s.svm.guest = true

theorem Beyond.safe {s t : State} (h : Beyond s) (mem : s.memEt → t.memEt) : Safe s t :=
  ⟨⟨mem, fun l => absurd l h.legal⟩, fun cpl guest => absurd ((h.user cpl).symm.trans guest) (by decide)⟩

/-- What a body of the family may answer. -/
inductive VmEnd.Fine (s : State) : VmEnd → Prop where
  | done {t : State} (h : Safe s t) : VmEnd.Fine s (.done t)
  | exit {t : State} {x : Config.ExitName} (h : s.memEt → t.memEt) (k : Beyond s) : VmEnd.Fine s (.exit t x)
  | enter {t : State} (h : s.memEt → t.memEt) (k : Beyond s) : VmEnd.Fine s (.enter t)

theorem runVm_safe {s t : State} {body : State → Res VmEnd} (h : ∀ e, body s.start = .ok e → e.Fine s.start)
    (e : runVm s body = .next t) : Safe s t := by
  unfold runVm at e
  split at e
  next u hu =>
    cases h _ hu with
    | done k => exact k.of_start.kept (complete_kept e)
  next u x hu =>
    cases h _ hu with
    | exit k b => exact (b.safe fun m => vmexit_memEt (k m) e).of_start
  next u hu =>
    cases h _ hu with
    | enter k b => exact (b.safe fun m => enterGuest_memEt (k m) e).of_start
  next => exact (raise_kept e).safe
  all_goals cases e

/-! ### VMRUN -/

theorem vmcbAddr_ok {t : State} {asz : ASize} {pa : Quad} (h : t.vmcbAddr asz = .ok pa) : t.feat.svm = true ∧ t.cpl = 0 := by
  simp only [State.vmcbAddr, bind_ok, require_ok, Bool.and_eq_true] at h
  obtain ⟨_, ⟨⟨svm, -⟩, -⟩, _, level, -⟩ := h
  exact ⟨svm, needCpl0_ok level⟩

/-- An instruction that needs SVM and level 0. -/
theorem Beyond.of_svm {s : State} (svm : s.feat.svm = true) (level : s.cpl = 0) : Beyond s :=
  ⟨fun l => absurd (l.noSvm.symm.trans svm) (by decide), fun cpl => absurd (level.symm.trans cpl) (by decide)⟩

theorem loadControl_memEt {t : State} (h : t.memEt) (pa : Quad) : Ends State.memEt (t.loadControl pa) := by
  refine ends_bind fun _ _ => ends_bind fun _ _ => ends_bind fun _ _ => ends_bind fun _ _ => ends_bind fun _ _ => ?_
  exact ends_bind fun _ _ => ends_bind fun _ _ => ends_bind fun _ _ => ends_bind fun _ _ => ends_bind fun _ _ => ends_ok h

theorem loadGuest_memEt {t : State} (h : t.memEt) (pa : Quad) : Ends State.memEt (t.loadGuest pa) := by
  refine ends_bind fun _ _ => ends_bind fun _ _ => ends_bind fun _ _ => ends_bind fun _ _ => ends_bind fun _ _ => ?_
  refine ends_bind fun _ _ => ends_bind fun _ _ => ends_bind fun _ _ => ends_bind fun _ _ => ends_bind fun _ _ => ?_
  exact ends_bind fun u hu => ends_ok ((switchWorld_plain t _).memEt (memEt_congr rfl (loadCore_memEt h _ u hu)))

theorem vmrun_fine {t : State} {pa : Quad} {e : VmEnd} (k : Beyond t) (h : t.vmrun pa = .ok e) : e.Fine t := by
  simp only [State.vmrun, bind_ok] at h
  obtain ⟨a, ha, b, hb, c, hc, d, hd, h⟩ := h
  have mem (m : t.memEt) : d.memEt := by
    have saved : a.memEt := (putFields_plain _ _ { t with svm := { t.svm with vmcb := pa } } a ha).memEt m
    exact swapLbr_memEt (loadGuest_memEt (loadControl_memEt saved pa b hb) pa c hc) _ _ _ d hd
  split at h
  · cases h
    exact .exit mem k
  · cases h
    exact .enter mem k

theorem execVmrun_safe {s t : State} {asz : ASize} (e : execVmrun asz s = .next t) : Safe s t := by
  refine runVm_safe (fun e h => ?_) e
  obtain ⟨pa, hpa, h⟩ := bind_ok.mp h
  obtain ⟨svm, level⟩ := vmcbAddr_ok hpa
  have beyond := Beyond.of_svm svm level
  split at h
  · cases h
    exact .exit id beyond
  · exact vmrun_fine beyond h

/-! ### The other instructions of the family -/

/-- An intercepted instruction runs in a guest. -/
theorem intercepts_guest {t : State} {i : Config.Intercept} (h : t.intercepts i = true) : t.svm.guest = true :=
  (Bool.and_eq_true_iff.mp h).1

theorem Beyond.of_guest {s : State} (guest : s.svm.guest = true) : Beyond s :=
  ⟨fun l => absurd (l.noGuest.symm.trans guest) (by decide), fun _ => guest⟩

theorem vmmcall_fine {t s : State} {e : VmEnd} (mem : t.memEt → s.memEt) (h : t.vmmcall s = .ok e) : e.Fine t := by
  unfold State.vmmcall at h
  split at h
  next guest =>
    cases h
    exact .exit mem (Beyond.of_guest (intercepts_guest guest))
  next => cases h

theorem execVmmcall_safe {s t : State} (e : execVmmcall s = .next t) : Safe s t := by
  refine runVm_safe (fun e h => ?_) e
  obtain ⟨_, -, h⟩ := bind_ok.mp h
  exact vmmcall_fine (s := s) id h

theorem execVmgexit_safe {s t : State} (e : execVmgexit s = .next t) : Safe s t := by
  refine runVm_safe (fun e h => ?_) e
  obtain ⟨_, -, h⟩ := bind_ok.mp h
  split at h
  next guest =>
    cases h
    simp only [Bool.and_eq_true] at guest
    exact .exit id (Beyond.of_guest guest.1.2)
  next => exact vmmcall_fine (s := s) id h

theorem execInvlpgb_safe {s t : State} {seg : SegName} {asz : ASize} (e : execInvlpgb seg asz s = .next t) : Safe s t := by
  refine runVm_safe (fun e h => ?_) e
  obtain ⟨_, -, h⟩ := bind_ok.mp h
  split at h
  next exits =>
    cases h
    refine .exit id (Beyond.of_guest ?_)
    simp only [Bool.or_eq_true, Bool.and_eq_true] at exits
    obtain exits | ⟨-, exits⟩ := exits <;> exact intercepts_guest exits
  next =>
    obtain ⟨_, -, h⟩ := bind_ok.mp h
    cases h
    exact .done (Kept.refl _).safe

theorem needSvm_ok {t : State} {u : Unit} (h : t.needSvm = .ok u) : t.feat.svm = true ∧ t.cpl = 0 := by
  simp only [State.needSvm, bind_ok, require_ok] at h
  obtain ⟨_, svm, _, -, _, -, level⟩ := h
  exact ⟨svm, needCpl0_ok level⟩

theorem needLoader_ok {t : State} {u : Unit} (h : t.needLoader = .ok u) : t.cpl = 0 := by
  simp only [State.needLoader, bind_ok, require_ok] at h
  obtain ⟨_, -, _, -, level⟩ := h
  exact needCpl0_ok level

theorem clgi_safe (t : State) : Ends (Safe t) (do t.needSvm; .ok { t with svm := { t.svm with gif := false } }) :=
  ends_bind fun _ h => ends_ok (safe_of_level0 (needSvm_ok h).2 id rfl)

theorem stgi_safe (t : State) : Ends (Safe t) (do t.needLoader; .ok { t with svm := { t.svm with gif := true } }) :=
  ends_bind fun _ h => ends_ok (safe_of_level0 (needLoader_ok h) id rfl)

/-- Every bit of CR0 that an INIT leaves: NW and CD kept, ET set, the others clear (70_reset_and_hazards.md R960). -/
theorem initCr0_bits (v : Quad) : ((v &&& 0x60000000) ||| 0x10).getLsbD 0 = false ∧ ((v &&& 0x60000000) ||| 0x10).getLsbD 4 = true ∧
    ((v &&& 0x60000000) ||| 0x10).getLsbD 29 = v.getLsbD 29 ∧ ((v &&& 0x60000000) ||| 0x10).getLsbD 30 = v.getLsbD 30 ∧
    ((v &&& 0x60000000) ||| 0x10).getLsbD 31 = false := by
  simp only [BitVec.getLsbD_or, BitVec.getLsbD_and]
  refine ⟨?_, ?_, ?_, ?_, ?_⟩ <;> simp

/-- INIT and SKINIT leave real or protected mode at level 0 with paging, long mode and VM clear. -/
theorem sound_of_init {s t : State} (mem : t.mem = s.mem) (cr0 : ∀ n, n ≠ 0 → t.ctl.cr0.getLsbD n = s.initState.ctl.cr0.getLsbD n)
    (h : (t.cfg, t.svm.guest, t.svm.snpActive, t.ctl.cr4, t.ctl.efer, t.cpl, t.flags.vm) =
      (s.cfg, s.svm.guest, s.svm.snpActive, (0 : Quad), (0 : Quad), (0 : BitVec 2), false)) : Sound s t := by
  simp only [Prod.mk.injEq] at h
  obtain ⟨cfg, guest, snp, cr4, efer, cpl, vm⟩ := h
  obtain ⟨-, et, nw, cd, pg⟩ := initCr0_bits s.ctl.cr0
  have long : t.longMode = false := by
    rw [State.longMode, efer]
    rfl
  have noPg : t.pg = false := (cr0 31 (by decide)).trans pg
  refine ⟨fun ⟨m, _⟩ => ⟨?_, (cr0 4 (by decide)).trans et⟩, fun l => ?_⟩
  · rw [State.memOk, mem]
    exact m
  · refine ⟨?_, guest.trans l.noGuest, snp.trans l.noSnp, ?_, ?_, ?_, ?_, ?_, fun _ => cpl, fun _ => vm, ?_, fun _ => vm⟩
    · rw [cfg]
      exact l.noSvm
    · exact fun k => absurd (noPg.symm.trans k) (by decide)
    · rw [cr0 29 (by decide), cr0 30 (by decide)]
      exact fun k => cd.trans (l.caching (nw.symm.trans k))
    · rw [long, noPg, Bool.and_false]
    · exact fun k => absurd (long.symm.trans k) (by decide)
    · intro k
      rw [State.cr4Bit, cr4] at k
      exact absurd k (by decide)
    · exact fun k => absurd (vm.symm.trans k) (by decide)

theorem skinit_safe (t : State) : Ends (Safe t) (do
    t.needLoader
    let slb := t.gpr.rax &&& 0xFFFF0000
    let _ ← t.readPa (slb.toNat + 2) 2
    let entry ← t.readPa slb.toNat 2
    .ok ((t.loaderState slb).setRip (trunc .w32 (slb + BitVec.ofNat 64 entry)))) := by
  refine ends_bind fun _ h => ends_bind fun _ _ => ends_bind fun _ _ => ends_ok ?_
  have level := needLoader_ok h
  refine ⟨sound_of_init rfl (fun n h0 => ?_) rfl, fun cpl => absurd (level.symm.trans cpl) (by decide)⟩
  have bit : (1 : Quad).getLsbD n = false := by
    rw [show (1 : Quad) = BitVec.twoPow 64 0 from rfl, BitVec.getLsbD_twoPow]
    simp [Ne.symm h0]
  show ((_ : Quad) ||| 1).getLsbD n = _
  rw [BitVec.getLsbD_or, bit, Bool.or_false]

end Sys2Proof.Machine
end

