-- ==== Sys2Proof/Proofs/DataSafe.lean ====
section
/-! PROOFS. The instructions on data, one by one: each changes only general registers, flags, memory, segments, the media registers
or its own part of the state. -/

namespace Sys2Proof.Machine

variable {s t : State}

/-! ### Arithmetic -/

theorem execTest_safe {w : Width} {rm : RM} {src : RegImm} (e : execTest w rm src s = .next t) : Safe s t := by
  refine run_plain (fun _ => ends_bind fun _ _ => ends_ok (setFlags_plain ?_)) e
  rfl

theorem execMul_safe {w : Width} {rm : RM} (e : execMul w rm s = .next t) : Safe s t :=
  run_plain (fun _ => ends_bind fun _ _ => ends_ok <|
    (setProduct_plain _ _ _).trans (setFlags_plain (by rw [setProduct_flags]; rfl))) e

theorem execImul_safe {w : Width} {f : ImulForm} (e : execImul w f s = .next t) : Safe s t := by
  refine run_plain (fun u => ?_) e
  cases f with
  | acc rm =>
    exact ends_bind fun _ _ => ends_ok <| (setProduct_plain _ _ _).trans (setFlags_plain (by rw [setProduct_flags]; rfl))
  | regRm dst rm => exact ends_bind fun _ _ => ends_ok (finish_plain _ _ _ rfl)
  | regRmImm dst rm imm => exact ends_bind fun _ _ => ends_ok (finish_plain _ _ _ rfl)

theorem execDiv_safe {w : Width} {rm : RM} (e : execDiv w rm s = .next t) : Safe s t :=
  run_plain (fun _ => ends_bind fun _ _ => ends_bind fun _ _ => ends_bind fun _ _ => ends_ok <|
    (setQuotient_plain _ _ _ _).trans (setFlags_plain (by rw [setQuotient_flags]; rfl))) e

theorem execIdiv_safe {w : Width} {rm : RM} (e : execIdiv w rm s = .next t) : Safe s t :=
  run_plain (fun _ => ends_bind fun _ _ => ends_bind fun _ _ => ends_bind fun _ _ => ends_ok <|
    (setQuotient_plain _ _ _ _).trans (setFlags_plain (by rw [setQuotient_flags]; rfl))) e

theorem execMulx_safe {w : Width} {hi lo : Gpr} {src : RM} (e : execMulx w hi lo src s = .next t) : Safe s t :=
  run_plain (fun _ => ends_bind fun _ _ => ends_bind fun _ _ => ends_ok ((writeGpr_plain _ _ _ _).trans (writeGpr_plain _ _ _ _))) e

theorem execAdcx_safe {w : Width} {dst : Gpr} {src : RM} (e : execAdcx w dst src s = .next t) : Safe s t := by
  refine run_plain (fun _ => ends_bind fun _ _ => ends_bind fun _ _ => ends_ok (finish_plain _ _ _ ?_)) e
  rfl

theorem execAdox_safe {w : Width} {dst : Gpr} {src : RM} (e : execAdox w dst src s = .next t) : Safe s t := by
  refine run_plain (fun _ => ends_bind fun _ _ => ends_bind fun _ _ => ends_ok (finish_plain _ _ _ ?_)) e
  rfl

theorem writeGReg_flags (t : State) (w : Width) (g : GReg) (v : Quad) : (t.writeGReg w g v).flags = t.flags := by
  unfold State.writeGReg
  split <;> rfl

theorem execXadd_safe {w : Width} {rm : RM} {r : GReg} {lock : Bool} (e : execXadd w rm r lock s = .next t) : Safe s t := by
  refine run_plain (fun u => ends_bind fun _ _ => ends_bind fun p _ => ends_ok ?_) e
  exact (writeGReg_plain _ _ _ _).trans (putAt_setFlags_plain _ _ _ _ (by rw [writeGReg_flags]; rfl))

theorem execCmpxchg_safe {w : Width} {rm : RM} {r : GReg} {lock : Bool} (e : execCmpxchg w rm r lock s = .next t) : Safe s t := by
  refine run_plain (fun u => ends_bind fun _ _ => ends_bind fun p _ => ends_ok ?_) e
  split
  · exact putAt_setFlags_plain _ _ _ _ rfl
  · cases p with
    | mem ps => exact (putAt_plain u w (.mem ps) _).trans <| (writeGpr_plain _ _ _ _).trans (setFlags_plain rfl)
    | reg g => exact (writeGpr_plain _ _ _ _).trans (setFlags_plain rfl)

theorem execCrc32_safe {w : Width} {wide : Bool} {dst : Gpr} {src : RM} (e : execCrc32 w wide dst src s = .next t) : Safe s t :=
  run_plain (fun _ => ends_bind fun _ _ => ends_bind fun _ _ => ends_ok (writeGpr_plain _ _ _ _)) e

theorem execAad_safe {base : Byte} (e : execAad base s = .next t) : Safe s t := by
  refine run_plain (fun _ => ends_bind fun _ _ => ends_ok ((writeGpr_plain _ _ _ _).trans (setFlags_plain ?_))) e
  rfl

theorem execAam_safe {base : Byte} (e : execAam base s = .next t) : Safe s t := by
  refine run_plain (fun _ => ends_bind fun _ _ => ends_bind fun _ _ => ends_ok ((writeGpr_plain _ _ _ _).trans (setFlags_plain ?_))) e
  rfl

/-! ### Bits -/

theorem execBextr_safe {w : Width} {dst : Gpr} {src : RM} {ctl : BextrCtl} (e : execBextr w dst src ctl s = .next t) : Safe s t :=
  run_plain (fun _ => vexOp_plain _ _ _ _ _ fun _ => rfl) e

theorem execAndn_safe {w : Width} {dst src1 : Gpr} {src2 : RM} (e : execAndn w dst src1 src2 s = .next t) : Safe s t :=
  run_plain (fun _ => vexOp_plain _ _ _ _ _ fun _ => rfl) e

theorem execBzhi_safe {w : Width} {dst : Gpr} {src : RM} {idx : Gpr} (e : execBzhi w dst src idx s = .next t) : Safe s t :=
  run_plain (fun _ => vexOp_plain _ _ _ _ _ fun _ => rfl) e

theorem execPdep_safe {w : Width} {dst src : Gpr} {mask : RM} (e : execPdep w dst src mask s = .next t) : Safe s t :=
  run_plain (fun _ => vexOp_plain _ _ _ _ _ fun _ => rfl) e

theorem execPext_safe {w : Width} {dst src : Gpr} {mask : RM} (e : execPext w dst src mask s = .next t) : Safe s t :=
  run_plain (fun _ => vexOp_plain _ _ _ _ _ fun _ => rfl) e

theorem execRorx_safe {w : Width} {dst : Gpr} {src : RM} {imm : Byte} (e : execRorx w dst src imm s = .next t) : Safe s t :=
  run_plain (fun _ => vexOp_plain _ _ _ _ _ fun _ => rfl) e

theorem execSarx_safe {w : Width} {dst : Gpr} {src : RM} {cnt : Gpr} (e : execSarx w dst src cnt s = .next t) : Safe s t :=
  run_plain (fun _ => vexOp_plain _ _ _ _ _ fun _ => rfl) e

theorem execShlx_safe {w : Width} {dst : Gpr} {src : RM} {cnt : Gpr} (e : execShlx w dst src cnt s = .next t) : Safe s t :=
  run_plain (fun _ => vexOp_plain _ _ _ _ _ fun _ => rfl) e

theorem execShrx_safe {w : Width} {dst : Gpr} {src : RM} {cnt : Gpr} (e : execShrx w dst src cnt s = .next t) : Safe s t :=
  run_plain (fun _ => vexOp_plain _ _ _ _ _ fun _ => rfl) e

theorem execLzcnt_safe {w : Width} {dst : Gpr} {src : RM} (e : execLzcnt w dst src s = .next t) : Safe s t :=
  run_plain (fun _ => ends_ite (fun _ => zeroCount_plain _ _ _ _ _) fun _ => bitScan_plain _ _ _ _ _) e

theorem execTzcnt_safe {w : Width} {dst : Gpr} {src : RM} (e : execTzcnt w dst src s = .next t) : Safe s t :=
  run_plain (fun _ => ends_ite (fun _ => zeroCount_plain _ _ _ _ _) fun _ => bitScan_plain _ _ _ _ _) e

theorem execPopcnt_safe {w : Width} {dst : Gpr} {src : RM} (e : execPopcnt w dst src s = .next t) : Safe s t := by
  refine run_plain (fun _ => ends_bind fun _ _ => ends_bind fun _ _ => ends_ok (finish_plain _ _ _ ?_)) e
  rfl

theorem execBswap_safe {w : Width} {r : Gpr} (e : execBswap w r s = .next t) : Safe s t := by
  refine run_plain (fun u => ?_) e
  cases w <;> exact ends_ok (writeGpr_plain _ _ _ _)

theorem execBt_safe {w : Width} {rm : RM} {off : BitOff} (e : execBt w rm off s = .next t) : Safe s t := by
  refine run_plain (fun _ => ends_bind fun _ _ => ends_ok (setFlags_plain ?_)) e
  rfl

theorem rotate_plain {w : Width} {rm : RM} {cnt : ShiftCount} {u : State} (r : Nat → Quad → Quad) (cf of : Nat → Quad → Bool) :
    Ends (Plain u) (u.shift w rm cnt fun c v => (r c v, rotateFlags u.flags u.freeCount c (cf c v) (of c v))) :=
  shift_plain _ _ _ _ fun _ _ => rotateFlags_vm _ _ _ _ _

theorem shiftBy_plain {w : Width} {rm : RM} {cnt : ShiftCount} {u : State} (r : Nat → Quad → Quad) (cf of : Nat → Quad → Bool) :
    Ends (Plain u) (u.shift w rm cnt fun c v => (r c v, shiftFlags u.flags u.freeCount c w (r c v) (cf c v) (of c v))) :=
  shift_plain _ _ _ _ fun _ _ => shiftFlags_vm _ _ _ _ _ _ _

/-! ### Moves -/

theorem execMov_safe {f : MovForm} (e : execMov f s = .next t) : Safe s t := by
  refine run_safe ?_ e
  have plain {x : Res State} (h : Ends (Plain s.start) x) : Ends (Safe s.start) x := ends_mono h fun _ k => k.kept.safe
  cases f with
  | rmReg w rm r => exact plain fun _ h => writeRM_plain h
  | regRm w r rm => exact plain (ends_bind fun _ _ => ends_ok (writeGReg_plain _ _ _ _))
  | rmImm w rm imm => exact plain fun _ h => writeRM_plain h
  | load w seg asz off => exact plain (ends_bind fun _ _ => ends_ok (writeGpr_plain _ _ _ _))
  | store w seg asz off => exact plain fun _ h => writeMem_plain h
  | fromSeg w rm n => exact plain (movFromSeg_plain _ _ _ _)
  | toSeg n rm => exact plain (movToSeg_plain _ _ _ _)
  | fromCr lock n r => exact plain (movFromCr_plain _ _ _ _)
  | toCr lock n r => exact movToCr_safe _ _ _ _
  | fromDr n r => exact plain (movFromDr_plain _ _ _)
  | toDr n r => exact movToDr_safe _ _ _

theorem execMovbe_safe {w : Width} {f : MovbeForm} (e : execMovbe w f s = .next t) : Safe s t := by
  refine run_plain (fun u => ends_bind fun _ _ => ?_) e
  cases f with
  | load dst m => exact ends_bind fun _ _ => ends_ok (writeGpr_plain _ _ _ _)
  | store m src => exact fun _ h => writeM_plain h

theorem execMovnti_safe {w : Width} {m : Mem} {r : Gpr} (e : execMovnti w m r s = .next t) : Safe s t :=
  run_plain (fun _ => ends_bind fun _ _ _ h => writeM_plain h) e

theorem execXchg_safe {w : Width} {rm : RM} {r : GReg} {lock : Bool} (e : execXchg w rm r lock s = .next t) : Safe s t :=
  run_plain (fun _ => ends_bind fun _ _ => ends_bind fun _ _ => ends_ok ((putAt_plain _ _ _ _).trans (writeGReg_plain _ _ _ _))) e

/-- A body that reads one value and writes it to a general register. -/
theorem readWrite_plain {u : State} {α : Type} (x : Res α) (f : α → Width) (g : α → Gpr) (v : α → Quad) :
    Ends (Plain u) (do let a ← x; .ok (u.writeGpr (f a) (g a) (v a))) :=
  ends_bind fun _ _ => ends_ok (writeGpr_plain _ _ _ _)

theorem touchTags_plain (u : State) : Plain u u.touchTags := ⟨rfl, id⟩

theorem execMovd_safe {wide : Bool} {f : MovdForm} (e : execMovd wide f s = .next t) : Safe s t := by
  refine run_plain (fun u => ?_) e
  cases f with
  | toXmm x src => exact ends_bind fun _ _ => ends_bind fun _ _ => ends_ok ⟨rfl, id⟩
  | fromXmm dst x => exact ends_bind fun _ _ _ h => writeRM_plain h
  | toMmx x src => exact ends_bind fun _ _ => ends_bind fun _ _ => ends_ok ((touchTags_plain _).trans ⟨rfl, id⟩)
  | fromMmx dst x => exact ends_bind fun _ _ _ h => (touchTags_plain _).trans (writeRM_plain h)

theorem execRdpru_safe (e : execRdpru s = .next t) : Safe s t := by
  refine run_plain (fun _ => ends_bind fun _ _ => ends_bind fun _ _ => ends_ok ?_) e
  exact ⟨rfl, id⟩

theorem execRdrand_safe {w : Width} {r : Gpr} (e : execRdrand w r s = .next t) : Safe s t :=
  run_plain (fun _ => ends_bind fun _ _ => ends_ok (randomInto_plain _ _ _ _)) e

theorem execRdseed_safe {w : Width} {r : Gpr} (e : execRdseed w r s = .next t) : Safe s t :=
  run_plain (fun _ => ends_bind fun _ _ => ends_ok (randomInto_plain _ _ _ _)) e

/-- A body that checks something and then changes nothing. -/
theorem check_plain {u : State} {α : Type} (x : Res α) : Ends (Plain u) (do let _ ← x; .ok u) :=
  ends_bind fun _ _ => ends_ok (.refl u)

theorem check2_plain {u : State} {α β : Type} (x : Res α) (y : Res β) : Ends (Plain u) (do let _ ← x; let _ ← y; .ok u) :=
  ends_bind fun _ _ => check_plain y

theorem execClzero_safe {seg : SegName} {asz : ASize} (e : execClzero seg asz s = .next t) : Safe s t :=
  run_plain (fun _ => ends_bind fun _ _ => ends_bind fun _ _ => ends_ok (storeAt_plain _ _ _)) e

theorem execMonitorx_safe {seg : SegName} {asz : ASize} (e : execMonitorx seg asz s = .next t) : Safe s t :=
  run_plain (fun _ => ends_bind fun _ _ => ends_bind fun _ _ => armMonitor_plain _ _ _) e

theorem execMwaitx_safe (e : execMwaitx s = .next t) : Safe s t :=
  run_plain (fun _ => ends_bind fun _ _ => ends_bind fun _ _ => ends_ok (disarm_plain _)) e

/-! ### The stack -/

theorem execPush_safe {w : Width} {f : PushForm} (e : execPush w f s = .next t) : Safe s t := by
  refine run_plain (fun u => ?_) e
  cases f with
  | rm v => exact ends_bind fun _ _ _ h => push_plain h
  | seg n => exact ends_bind fun _ _ _ h => push_plain h
  | imm v => exact fun _ h => push_plain h

theorem execPop_safe {w : Width} {f : PopForm} (e : execPop w f s = .next t) : Safe s t := by
  refine run_plain (fun u => ?_) e
  cases f with
  | rm d => exact popRM_plain _ _ _
  | seg n => exact popSeg_plain _ _ _ _

theorem execEnter_safe {w : Width} {size : BitVec 16} {level : Byte} (e : execEnter w size level s = .next t) : Safe s t := by
  refine run_plain (fun u => ends_push fun a ha => ends_bind fun b hb => ends_bind fun _ _ => ends_ok ?_) e
  exact ha.trans <| (enterDisplay_plain _ _ _ _ _ b hb).trans <| (writeGpr_plain _ _ _ _).trans (writeGpr_plain _ _ _ _)

theorem execLeave_safe {w : Width} (e : execLeave w s = .next t) : Safe s t :=
  run_plain (fun _ => ends_pop fun _ _ ha => ends_ok ((writeGpr_plain _ _ _ _).trans <| ha.trans (writeGpr_plain _ _ _ _))) e

theorem execInp_safe {w : Width} {port : Port} (e : execInp w port s = .next t) : Safe s t :=
  run_plain (fun u => ends_bind fun _ _ => ends_ok ((ioRead_plain u _ _).trans (writeGpr_plain _ _ _ _))) e

theorem execOut_safe {w : Width} {port : Port} (e : execOut w port s = .next t) : Safe s t :=
  run_plain (fun u => ends_bind fun _ _ => ends_ok (ioWrite_plain u _ _ _)) e

/-! ### Control transfers -/

theorem execCall_safe {w : Width} {target : NearTarget} (e : execCall w target s = .next t) : Safe s t :=
  run_plain (fun _ => ends_bind fun _ _ => ends_push fun _ hu => ends_bind fun _ _ => ends_bind fun v hv => ends_ok <|
    hu.trans <| (callShadow_plain _ _ _ _ v hv).trans (setRip_plain _ _)) e

theorem execJmp_safe {w : Width} {target : NearTarget} (e : execJmp w target s = .next t) : Safe s t :=
  run_plain (fun _ => ends_bind fun _ _ => jumpTo_plain _ _) e

theorem execRet_safe {w : Width} {imm : BitVec 16} (e : execRet w imm s = .next t) : Safe s t :=
  run_plain (fun _ => ends_pop fun _ _ hu => ends_bind fun _ _ => ends_bind fun v hv => ends_ok <|
    hu.trans <| (retShadow_plain _ _ _ v hv).trans <| (dropStack_plain _ _).trans (setRip_plain _ _)) e

theorem execCallFar_safe {w : Width} {target : FarTarget} (e : execCallFar w target s = .next t) : Safe s t := by
  refine run_kept (fun u => ends_bind fun ⟨off, sel⟩ _ => ends_ite (fun prot => ?_) fun _ => ?_) e
  · exact ends_mono (callProtected_moves _ _ _ _) fun _ h => h.kept prot
  · exact ends_mono (callReal_plain _ _ _ _) fun _ h => h.kept

theorem execJmpFar_safe {w : Width} {target : FarTarget} (e : execJmpFar w target s = .next t) : Safe s t :=
  run_plain (fun _ => ends_bind fun ⟨_, _⟩ _ => ends_ite (fun _ => jmpProtected_plain _ _ _) fun _ => jmpReal_plain _ _ _) e

/-- Whether the mode is protected is decided by registers that a plain change keeps. -/
theorem Plain.protMode {s t : State} (h : Plain s t) : t.protMode = s.protMode := by
  rw [State.protMode, State.protMode, pe_of_sys (congrArg (·.1.1) h.1), show t.flags.vm = s.flags.vm from congrArg (·.1.2) h.1]

theorem execRetf_safe {w : Width} {imm : BitVec 16} (e : execRetf w imm s = .next t) : Safe s t := by
  refine run_kept (fun u => ends_pop fun rip a ha => ends_pop fun cs b hb => ?_) e
  have popped := ha.trans hb
  refine ends_ite (fun _ => ?_) fun prot => ends_ite (fun _ => ?_) fun _ => ?_
  · exact ends_mono (retfReal_plain _ _ _ _) fun _ h => (popped.trans h).kept
  · exact ends_mono (retfSame_plain _ _ _ _) fun _ h => (popped.trans h).kept
  · refine ends_mono (retfOuter_moves _ _ _ _ _) fun _ h => popped.kept.trans (h.kept ?_)
    rw [popped.protMode]
    simpa using prot

theorem softInt_kept (u s : State) (vector : Byte) (intN : Bool) : Ends (Kept u) (u.softInt s vector intN) :=
  fun _ h => deliverOnce_kept h

theorem execInto_safe (e : execInto s = .next t) : Safe s t :=
  run_kept (fun u => ends_bind fun _ _ => ends_ite (fun _ => softInt_kept _ _ _ _) fun _ => ends_ok (.refl u)) e

theorem execInt1_safe (e : execInt1 s = .next t) : Safe s t := by
  unfold execInt1 at e
  split at e
  next u hu => exact ((deliverOnce_kept hu).trans (complete_kept e)).safe
  next => exact (raise_kept e).safe

theorem execBound_safe {w : Width} {idx : Gpr} {m : Mem} (e : execBound w idx m s = .next t) : Safe s t :=
  run_plain (fun _ => ends_bind fun _ _ => ends_bind fun _ _ => ends_bind fun _ _ => check_plain _) e

/-! ### Instructions that only raise an exception -/

theorem error_safe {x : Trap} (e : (run s fun _ => .error x) = .next t) : Safe s t := run_plain (fun _ => ends_error) e

theorem otherVolume_safe {b : Bool} (e : otherVolume b s = .next t) : Safe s t := error_safe e

end Sys2Proof.Machine
end

