-- ==== Sys2Proof/Proofs/SystemSafe.lean ====
section
/-! PROOFS. The system instructions, one by one: which of them change a system register, and that these run at level 0. -/

namespace Sys2Proof.Machine

variable {s t : State}

/-! ### Descriptors -/

theorem execArpl_safe {rm : RM} {r : Gpr} (e : execArpl rm r s = .next t) : Safe s t := by
  refine run_plain (fun u => ends_bind fun _ _ => ends_bind fun p _ => ends_ite (fun _ => ends_ok ?_) fun _ => ends_ok ?_) e
  · exact putAt_setFlags_plain _ _ _ _ rfl
  · exact setFlags_plain rfl

theorem answer_plain (u : State) (ok : Bool) : Plain u (u.answer ok) := setFlags_plain rfl

theorem execLar_safe {w : Width} {dst : Gpr} {src : RM} (e : execLar w dst src s = .next t) : Safe s t := by
  refine run_plain (fun u => ends_bind fun _ _ => ends_bind fun _ _ => ends_bind fun d _ => ?_) e
  cases d with
  | none => exact ends_ok (answer_plain _ _)
  | some d => exact ends_ok ((writeGpr_plain _ _ _ _).trans (answer_plain _ _))

theorem execLsl_safe {w : Width} {dst : Gpr} {src : RM} (e : execLsl w dst src s = .next t) : Safe s t := by
  refine run_plain (fun u => ends_bind fun _ _ => ends_bind fun _ _ => ends_bind fun d _ => ?_) e
  cases d with
  | none => exact ends_ok (answer_plain _ _)
  | some d => exact ends_ok ((writeGpr_plain _ _ _ _).trans (answer_plain _ _))

theorem execVerr_safe {rm : RM} (e : execVerr rm s = .next t) : Safe s t :=
  run_plain (fun _ => ends_bind fun _ _ => ends_bind fun _ _ => ends_bind fun _ _ => ends_ok (answer_plain _ _)) e

theorem execVerw_safe {rm : RM} (e : execVerw rm s = .next t) : Safe s t :=
  run_plain (fun _ => ends_bind fun _ _ => ends_bind fun _ _ => ends_bind fun _ _ => ends_ok (answer_plain _ _)) e

theorem storePseudo_plain (u : State) (r : TableReg) (m : Mem) : Ends (Plain u) (u.storePseudo r m) :=
  ends_bind fun _ ha _ hb => (writeM_plain ha).trans (writeMem_plain hb)

theorem execLldt_safe {rm : RM} (e : execLldt rm s = .next t) : Safe s t := by
  refine run_safe (ends_bind fun _ _ => ends_needCpl0 fun level => ends_bind fun v _ => ?_) e
  refine ends_ite (fun _ => ends_ok ?_) fun _ => ends_bind fun _ _ => ends_bind fun _ _ => ends_ok ?_
  all_goals exact safe_of_level0 level id rfl

theorem execLtr_safe {rm : RM} (e : execLtr rm s = .next t) : Safe s t := by
  refine run_safe (ends_bind fun _ _ => ends_needCpl0 fun level => ends_bind fun v _ => ?_) e
  refine ends_bind fun _ _ => ends_bind fun _ _ => ends_bind fun _ _ => ends_bind fun u hu => ends_ok ?_
  have busy := setBusy_plain hu
  refine ⟨(busy.kept.safe.toSound).trans ⟨id, legalMode_congr rfl⟩, fun cpl => absurd (level.symm.trans cpl) (by decide)⟩

theorem storeWord_plain (u : State) (w : Width) (rm : RM) (v : Quad) : Ends (Plain u) (u.storeWord w rm v) := by
  cases rm with
  | reg g => exact ends_ok (writeGReg_plain _ _ _ _)
  | mem m => exact fun _ h => writeM_plain h

theorem execLmsw_safe {rm : RM} (e : execLmsw rm s = .next t) : Safe s t :=
  run_safe (ends_needCpl0 fun level => ends_bind fun _ _ => ends_ok (lmsw_safe level _)) e

theorem execLgdt_safe {w : Width} {m : Mem} (e : execLgdt w m s = .next t) : Safe s t := run_safe (lgdt_safe _ _ _) e

theorem execLidt_safe {w : Width} {m : Mem} (e : execLidt w m s = .next t) : Safe s t := run_safe (lidt_safe _ _ _) e

/-! ### The shadow stack -/

theorem execClrssbsy_safe {m : Mem} (e : execClrssbsy m s = .next t) : Safe s t := by
  refine run_plain (fun u => ends_bind fun _ _ => ends_bind fun _ _ => ends_bind fun _ _ => ends_bind fun a ha => ends_ok ?_) e
  have cleared := clearToken_plain ha
  have flags (b : Bool) : Plain a (a.setFlags (u.flags.token b)) := setFlags_plain (congrArg (·.1.2) cleared.1).symm
  split
  · exact cleared.trans <| (flags _).trans (setSsp_plain _ _)
  · exact cleared.trans (flags _)

theorem execSetssbsy_safe (e : execSetssbsy s = .next t) : Safe s t :=
  run_plain (fun _ => ends_bind fun _ _ => ends_bind fun _ _ => ends_bind fun _ _ => ends_bind fun _ hu => ends_bind fun _ _ =>
    ends_ok ((sstkWrite_plain hu).trans (setSsp_plain _ _))) e

theorem incSsp_plain (u : State) (n : Nat) (r : Gpr) : Ends (Plain u) (u.incSsp n r) :=
  ends_bind fun _ _ => ends_bind fun _ _ => ends_bind fun _ _ => ends_ok (setSsp_plain _ _)

theorem readSsp_plain (u : State) (w : Width) (r : Gpr) :
    Plain u (if u.shadowEnabled u.cpl then u.writeGpr w r u.cet.ssp else u) := by
  split
  · exact writeGpr_plain _ _ _ _
  · exact .refl _

theorem execRstorssp_safe {m : Mem} (e : execRstorssp m s = .next t) : Safe s t := by
  refine run_plain (fun u => ends_bind fun _ _ => ends_bind fun _ _ => ends_bind fun _ _ => ends_bind fun a ha =>
    ends_bind fun _ _ => ends_ok ?_) e
  have written := sstkWrite_plain ha
  exact written.trans <| (setSsp_plain _ _).trans (setFlags_plain (congrArg (·.1.2) written.1).symm)

theorem execSaveprevssp_safe (e : execSaveprevssp s = .next t) : Safe s t := by
  refine run_plain (fun u => ends_bind fun _ _ => ends_bind fun _ _ => ends_bind fun _ _ => ends_bind fun _ _ => ?_) e
  refine ends_bind fun _ _ => ends_bind fun _ _ => ends_bind fun _ _ => ends_bind fun _ ha => ends_bind fun _ hb => ends_ok ?_
  exact (sstkWrite_plain ha).trans <| (sstkWrite_plain hb).trans (setSsp_plain _ _)

theorem wrss_plain (u : State) (n : Nat) (m : Mem) (r : Gpr) : Ends (Plain u) (u.wrss n m r) :=
  ends_bind fun _ _ => ends_bind fun _ _ _ h => sstkWrite_plain h

theorem wruss_plain (u : State) (n : Nat) (m : Mem) (r : Gpr) : Ends (Plain u) (u.wruss n m r) :=
  ends_bind fun _ _ => ends_bind fun _ _ => ends_bind fun _ _ => ends_bind fun _ _ => ends_ok (storeAt_plain _ _ _)

/-! ### Processor control -/

theorem execCli_safe (e : execCli s = .next t) : Safe s t := by
  refine run_plain (fun u => ends_ite (fun _ => ends_ok ?_) fun _ => ends_ite (fun _ => ends_ok ?_) fun _ => ends_error) e
  all_goals exact setFlags_plain rfl

theorem stiShadow_plain (u s : State) : Plain u (u.stiShadow s) := by
  unfold State.stiShadow
  split
  · exact ⟨rfl, id⟩
  · exact .refl u

theorem execSti_safe (e : execSti s = .next t) : Safe s t := by
  refine run_plain (fun u => ends_ite (fun _ => ends_ok ?_) fun _ => ends_ite (fun _ => ends_bind fun _ _ => ends_ok ?_) fun _ =>
    ends_error) e
  · exact Plain.trans (setFlags_plain rfl) (stiShadow_plain _ _)
  · exact setFlags_plain rfl

theorem execClts_safe (e : execClts s = .next t) : Safe s t :=
  run_safe (ends_needCpl0 fun level => ends_ok (clts_safe level)) e

theorem execInvpcid_safe {r : Gpr} {m : Mem} (e : execInvpcid r m s = .next t) : Safe s t :=
  run_plain (fun _ => ends_bind fun _ _ => ends_bind fun _ _ => ends_bind fun _ _ => ends_bind fun _ _ => check_plain _) e

theorem execMonitor_safe {seg : SegName} {asz : ASize} (e : execMonitor seg asz s = .next t) : Safe s t :=
  run_plain (fun _ => ends_bind fun _ _ => ends_bind fun _ _ => armMonitor_plain _ _ _) e

theorem execMwait_safe (e : execMwait s = .next t) : Safe s t :=
  run_plain (fun _ => ends_bind fun _ _ => ends_bind fun _ _ => ends_ok (disarm_plain _)) e

theorem setCs_cpl (u : State) (cs : SegReg) (cpl : BitVec 2) : (u.setCs cs cpl).cpl = cpl := by
  rw [State.setCs, enterMode_frame]

/-- The flat segments change CS, SS and the level. -/
theorem setFlat_moves (u : State) (cs ss : SegReg) (cpl : BitVec 2) : Moves u (u.setFlat cs ss cpl) :=
  (setCs_moves u cs cpl).trans ⟨rfl, id⟩

theorem setFlat_cpl (u : State) (cs ss : SegReg) (cpl : BitVec 2) : (u.setFlat cs ss cpl).cpl = cpl := setCs_cpl _ _ _

theorem flagBit_getElem (b : Bool) {n i : Nat} (h : i < 64) : (flagBit b n)[i] = (decide (i = n) && b) := by
  rw [← BitVec.getLsbD_eq_getElem]
  cases b <;> by_cases k : i < n <;> simp [flagBit, bit, h, k] <;> omega

/-- IOPL lies apart from every flag. -/
theorem flagBit_iopl (b : Bool) {n : Nat} (h : n < 12 ∨ 14 ≤ n) : (flagBit b n).extractLsb' 12 2 = 0#2 := by
  apply BitVec.eq_of_getLsbD_eq
  intro i hi
  rw [BitVec.getLsbD_extractLsb', BitVec.getLsbD_eq_getElem (by omega), flagBit_getElem]
  simp
  omega

/-- rFLAGS is read back from its image (10_state.md R50). -/
theorem ofBits_toBits (f : Flags) : Flags.ofBits f.toBits = f := by
  have iopl : (f.iopl.setWidth 64 <<< 12 : Quad).extractLsb' 12 2 = f.iopl := by
    apply BitVec.eq_of_getLsbD_eq
    intro i hi
    simp [hi, show 12 + i < 64 by omega]
  simp [Flags.ofBits, Flags.toBits, flagBit_getElem, BitVec.extractLsb'_or, flagBit_iopl, iopl]
/-- SFMASK only clears flags. -/
theorem maskedFlags_vm (f : Flags) (m : Quad) (h : f.vm = false) : (Flags.ofBits (f.toBits &&& m)).vm = false := by
  have image : f.toBits.getLsbD 17 = false := by
    have := congrArg Flags.vm (ofBits_toBits f)
    exact this.trans h
  change (f.toBits &&& m).getLsbD 17 = false
  rw [BitVec.getLsbD_and, image, Bool.false_and]

/-- After flat segments of level 0, the flags, with VM clear, and anything that keeps level and mode. -/
theorem kept_flat0 {u v : State} {cs ss : SegReg} {f : Flags} (vm : u.PrivOk → f.vm = false)
    (h : Plain ((u.setFlat cs ss 0).setFlags f) v) : Kept u v := by
  have moved := setFlat_moves u cs ss 0
  have entered (vm : f.vm = false) : Kept u ((u.setFlat cs ss 0).setFlags f) :=
    .of_level0 moved.sys moved.2 (setFlat_cpl u cs ss 0) vm
  exact ⟨h.kept.sys.trans moved.sys, fun m => h.2 (moved.2 m), fun p => ((entered (vm p)).trans h.kept).priv p⟩

/-- The same at any level, in protected mode. -/
theorem kept_flat {u v : State} {cs ss : SegReg} {cpl : BitVec 2} {f : Flags} (pe : u.pe = true) (vm : f.vm = false)
    (h : Plain ((u.setFlat cs ss cpl).setFlags f) v) : Kept u v := by
  have moved := setFlat_moves u cs ss cpl
  have entered : Kept u ((u.setFlat cs ss cpl).setFlags f) := .of_protected moved.sys moved.2 pe vm
  exact entered.trans h.kept

theorem syscallLong_kept (u : State) (long : u.longMode = true) : Kept u u.syscallLong := by
  unfold State.syscallLong
  extract_lets target f0 a f1 f b cet c
  have image (p : u.PrivOk) : f.vm = false := maskedFlags_vm _ _ (p.longVm long)
  have framed : Plain ((u.syscallSegs true).setFlags f) b := ⟨rfl, id⟩
  have saved : Plain b c := by
    unfold c
    split
    · exact ⟨rfl, id⟩
    · exact .refl b
  refine kept_flat0 image (framed.trans (saved.trans ?_))
  split
  · exact setSsp_plain _ _
  · exact .refl c

theorem syscallLegacy_kept (u : State) : Kept u u.syscallLegacy := by
  refine (writeGpr_plain u .w32 .rcx u.rip).kept.trans ?_
  exact kept_flat0 (f := { u.flags with vm := false, fi := false, rf := false }) (fun _ => rfl) (setRip_plain _ _)

theorem execSyscall_safe (e : execSyscall s = .next t) : Safe s t := by
  refine run_kept (fun u => ends_bind fun _ _ => ends_ok ?_) e
  split
  next long => exact syscallLong_kept u long
  next => exact syscallLegacy_kept u

theorem sysretSsp_plain (u : State) : Plain u u.sysretSsp := by
  unfold State.sysretSsp
  split
  · exact setSsp_plain _ _
  · exact .refl u

theorem sysretLong_kept (u : State) (w : Width) (prot : u.protMode = true) : Kept u (u.sysretLong w) :=
  kept_flat (f := { Flags.ofBits (trunc .w32 u.gpr.r11) with rf := false, vm := false }) (protMode_pe prot) rfl <|
    (setRip_plain _ _).trans (sysretSsp_plain _)

theorem sysretLegacy_kept (u : State) (prot : u.protMode = true) : Kept u u.sysretLegacy :=
  kept_flat (f := { u.flags with fi := true }) (protMode_pe prot) (protMode_vm prot) <|
    (setRip_plain _ _).trans (sysretSsp_plain _)

theorem execSysret_safe {w : Width} (e : execSysret w s = .next t) : Safe s t := by
  refine run_kept (fun u => ends_bind fun _ _ => ends_bind fun _ h => ends_ok ?_) e
  have prot : u.protMode = true := (Bool.and_eq_true_iff.mp (require_ok.mp h)).1
  split
  · exact sysretLong_kept u w prot
  · exact sysretLegacy_kept u prot

theorem execSysenter_safe (e : execSysenter s = .next t) : Safe s t := by
  refine run_kept (fun u => ends_bind fun _ _ => ends_ok ?_) e
  exact kept_flat0 (f := { u.flags with vm := false, rf := false, fi := false }) (fun _ => rfl) <|
    (writeGpr_plain _ _ _ _).trans (setRip_plain _ _)

theorem execSysexit_safe (e : execSysexit s = .next t) : Safe s t := by
  refine run_kept (fun u => ends_bind fun _ h => ends_ok ?_) e
  simp only [State.needSysenter, bind_ok, require_ok, Bool.and_eq_true] at h
  obtain ⟨_, -, _, ⟨prot, -⟩, -⟩ := h
  have moved := setFlat_moves u (flatCode ((u.sysenterSel + 16) ||| 3) 3 false) (flatStack ((u.sysenterSel + 24) ||| 3) 3) 3
  exact (moved.kept prot).trans ((writeGpr_plain _ _ _ _).trans (setRip_plain _ _)).kept

theorem execSwapgs_safe (e : execSwapgs s = .next t) : Safe s t := by
  refine run_plain (fun _ => ends_bind fun _ _ => ends_bind fun _ _ => ends_ok ?_) e
  exact ⟨rfl, id⟩

/-! ### Counters and registers of the model -/

theorem setEdxEax_plain (u : State) (v : Quad) : Plain u (u.setEdxEax v) := ⟨rfl, id⟩

theorem execRdtscp_safe (e : execRdtscp s = .next t) : Safe s t :=
  run_plain (fun _ => ends_bind fun _ _ => ends_bind fun _ _ => ends_ok ((setEdxEax_plain _ _).trans (writeGpr_plain _ _ _ _))) e

theorem execRdpkru_safe (e : execRdpkru s = .next t) : Safe s t := by
  refine run_plain (fun _ => ends_bind fun _ _ => ends_bind fun _ _ => ends_ok ?_) e
  exact ⟨rfl, id⟩

theorem execWrpkru_safe (e : execWrpkru s = .next t) : Safe s t := by
  refine run_plain (fun _ => ends_bind fun _ _ => ends_bind fun _ _ => ends_ok ?_) e
  exact ⟨rfl, id⟩

theorem execWrmsr_safe (e : execWrmsr s = .next t) : Safe s t := run_safe (wrmsr_safe _ _ _) e

theorem execClgi_safe (e : execClgi s = .next t) : Safe s t := run_safe (clgi_safe _) e

theorem execStgi_safe (e : execStgi s = .next t) : Safe s t := run_safe (stgi_safe _) e

theorem execSkinit_safe (e : execSkinit s = .next t) : Safe s t := run_safe (skinit_safe _) e

/-! ### VMLOAD and VMSAVE -/

theorem execVmload_safe {asz : ASize} (e : execVmload asz s = .next t) : Safe s t := by
  refine run_safe (ends_bind fun _ h => ?_) e
  have level := (vmcbAddr_ok h).2
  refine ends_bind fun _ _ => ends_bind fun _ _ => ends_bind fun _ _ => ends_bind fun _ _ => ends_bind fun _ _ => ?_
  refine ends_bind fun _ _ => ends_bind fun _ _ => ends_bind fun _ _ => ends_bind fun _ _ => ends_bind fun _ _ => ?_
  exact ends_bind fun _ _ => ends_bind fun _ _ => ends_ok (safe_of_level0 level id rfl)

theorem execVmsave_safe {asz : ASize} (e : execVmsave asz s = .next t) : Safe s t :=
  run_plain (fun u => ends_bind fun _ _ => putFields_plain _ _ u) e

/-! ### The reverse map table -/

theorem rmpReturn_plain (u : State) (c : RmpCode) : Plain u (u.rmpReturn c) :=
  (writeGpr_plain _ _ _ _).trans (setFlags_plain rfl)

theorem rmpPut_plain {u v : State} {entry : Nat} {x : Config.RmpEntry} (h : u.rmpPut entry x = .ok v) : Plain u v := writePa_plain h

theorem smashRest_plain (n : Nat) : ∀ (u : State) (entry : Nat) (x : Config.RmpEntry), Ends (Plain u) (u.smashRest n entry x) := by
  induction n with
  | zero => exact fun u _ _ => ends_ok (.refl u)
  | succ n ih => exact fun u entry x => ends_bind fun v hv a ha => (rmpPut_plain hv).trans (ih v _ _ a ha)

theorem execPsmash_safe {asz : ASize} (e : execPsmash asz s = .next t) : Safe s t := by
  refine run_plain (fun u => ends_bind fun _ _ => ?_) e
  refine ends_ite (fun _ => ends_ok (rmpReturn_plain _ _)) fun _ => ends_ite (fun _ => ends_ok (rmpReturn_plain _ _)) fun _ => ?_
  refine ends_bind fun _ _ => ends_ite (fun _ => ends_ok (rmpReturn_plain _ _)) fun _ => ends_bind fun v hv => ends_ok ?_
  exact (smashRest_plain _ _ _ _ v hv).trans (rmpReturn_plain _ _)

theorem validate_plain (u : State) (entry : Nat) (x : Config.RmpEntry) (large : Bool) : Ends (Plain u) (u.validate entry x large) := by
  refine ends_ite (fun _ => ends_ok (rmpReturn_plain _ _)) fun _ => ends_bind fun v hv => ends_ok ?_
  exact (rmpPut_plain hv).trans <| (rmpReturn_plain _ _).trans (setFlags_plain rfl)

/-- An instruction that a guest with SEV-SNP runs at level 0. -/
theorem Beyond.of_snp {s : State} (snp : s.svm.snpActive = true) (level : s.cpl = 0) : Beyond s :=
  ⟨fun l => absurd (l.noSnp.symm.trans snp) (by decide), fun cpl => absurd (level.symm.trans cpl) (by decide)⟩

theorem execPvalidate_safe {asz : ASize} (e : execPvalidate asz s = .next t) : Safe s t := by
  refine runVm_safe (fun e h => ?_) e
  obtain ⟨_, -, h⟩ := bind_ok.mp h
  obtain ⟨_, level, h⟩ := bind_ok.mp h
  split at h
  next =>
    cases h
    have flagged (u : State) (b : Bool) : Plain u (u.setCf b) := setFlags_plain rfl
    exact .done ((rmpReturn_plain _ _).trans (flagged _ _)).kept.safe
  next active =>
    have beyond : Beyond s.start := .of_snp (by simpa using active) (needCpl0_ok level)
    obtain ⟨_, -, h⟩ := bind_ok.mp h
    split at h
    · cases h
      exact .done (rmpReturn_plain _ _).kept.safe
    · obtain ⟨g, -, h⟩ := bind_ok.mp h
      cases g with
      | npf =>
        cases h
        exact .exit id beyond
      | found entry x =>
        obtain ⟨u, hu, h⟩ := bind_ok.mp h
        cases h
        exact .done (validate_plain _ _ _ _ u hu).kept.safe

theorem rmpAdjust_plain (u : State) (entry : Nat) (x : Config.RmpEntry) (large : Bool) (target : Nat) (mask : Byte) :
    Ends (Plain u) (u.rmpAdjust entry x large target mask) := by
  refine ends_bind fun _ _ => ends_ite (fun _ => ends_ok (rmpReturn_plain _ _)) fun _ => ?_
  refine ends_ite (fun _ => ends_ok (rmpReturn_plain _ _)) fun _ => ends_bind fun v hv => ends_ok ?_
  exact (rmpPut_plain hv).trans (rmpReturn_plain _ _)

theorem execRmpadjust_safe {asz : ASize} (e : execRmpadjust asz s = .next t) : Safe s t := by
  refine runVm_safe (fun e h => ?_) e
  obtain ⟨_, -, h⟩ := bind_ok.mp h
  obtain ⟨_, -, h⟩ := bind_ok.mp h
  obtain ⟨_, active, h⟩ := bind_ok.mp h
  obtain ⟨_, level, h⟩ := bind_ok.mp h
  have beyond : Beyond s.start := .of_snp (require_ok.mp active) (needCpl0_ok level)
  have answered {c : RmpCode} : (VmEnd.done (s.start.rmpReturn c)).Fine s.start := .done (rmpReturn_plain _ _).kept.safe
  dsimp only at h
  split at h
  · cases h
    exact answered
  split at h
  · cases h
    exact answered
  split at h
  · cases h
    exact answered
  obtain ⟨g, -, h⟩ := bind_ok.mp h
  cases g with
  | npf =>
    cases h
    exact .exit id beyond
  | found entry x =>
    obtain ⟨u, hu, h⟩ := bind_ok.mp h
    cases h
    exact .done (rmpAdjust_plain _ _ _ _ _ _ u hu).kept.safe

theorem rmpFill_plain (assigned : Bool) (n : Nat) : ∀ (u : State) (entry : Nat), Ends (Plain u) (u.rmpFill assigned n entry) := by
  induction n with
  | zero => exact fun u _ => ends_ok (.refl u)
  | succ n ih => exact fun u entry => ends_bind fun v hv a ha => (rmpPut_plain hv).trans (ih v _ a ha)

theorem rmpUpdate_plain (u : State) (pa : Quad) (new : NewRmp) : Ends (Plain u) (u.rmpUpdate pa new) := by
  unfold State.rmpUpdate
  extract_lets entry
  refine ends_ite (fun _ => ends_ok (rmpReturn_plain _ _)) fun _ => ends_bind fun old _ => ?_
  refine ends_ite (fun _ => ends_ok (rmpReturn_plain _ _)) fun _ => ends_ite (fun _ => ends_ok (rmpReturn_plain _ _)) fun _ => ?_
  extract_lets fill choose
  have hfill (v : State) (hv : Plain u v) : Ends (Plain u) (fill v) :=
    ends_bind fun x hx => ends_ok <| hv.trans <| (rmpPut_plain hx).trans (rmpReturn_plain _ _)
  have hchoose (b : Bool) : Ends (Plain u) (choose b) :=
    ends_ite (fun _ => ends_ok (rmpReturn_plain _ _)) fun _ =>
      ends_ite (fun _ => ends_bind fun v hv => hfill v (rmpFill_plain _ _ _ _ v hv)) fun _ => hfill u (.refl u)
  exact ends_ite (fun _ => ends_bind fun b _ => hchoose b) fun _ => hchoose false

theorem execRmpupdate_safe {seg : SegName} {asz : ASize} (e : execRmpupdate seg asz s = .next t) : Safe s t :=
  run_plain (fun _ => ends_bind fun _ _ => ends_ite (fun _ => ends_ok (rmpReturn_plain _ _)) fun _ =>
    ends_bind fun _ _ => rmpUpdate_plain _ _ _) e

end Sys2Proof.Machine
end

