-- ==== Sys2Proof/Proofs/ProfilingSafe.lean ====
section
/-! PROOFS. The lightweight-profiling instructions keep memory canonical and change no system register, whatever the facility of the
host answers (43_gp_l_m.md R456, R459, R460, 45_gp_r_s.md R589). -/

namespace Sys2Proof.Machine

variable {s t : State}

theorem writes_wf (cells : List Host.Cell) : ∀ m : List Host.Cell, Memory.wf m →
    Memory.wf (cells.foldl (fun m c => Memory.write m c.1 c.2) m) := by
  induction cells with
  | nil => exact fun _ h => h
  | cons c cells ih => exact fun m h => ih _ (Memory.write_wf m _ _ h)

theorem lwpWrites_plain (u : State) (cells : List Host.Cell) : Ends (Plain u) (u.lwpWrites cells) := by
  unfold State.lwpWrites
  split
  · exact ends_error
  · exact ends_ok ⟨rfl, fun m => writes_wf cells _ m⟩

theorem setLwpcb_plain (u : State) (a : Quad) : Plain u (u.setLwpcb a) := ⟨rfl, id⟩

/-- An answer of the facility that is no exception. -/
theorem lwpResult_plain {u v : State} {o : Config.LwpOutcome} {cf : Bool} (h : u.lwpResult o = .ok (.ok (v, cf))) : Plain u v := by
  cases o with
  | done cells internal c =>
    simp only [State.lwpResult, bind_ok, Except.ok.injEq, Prod.mk.injEq] at h
    obtain ⟨x, hx, rfl, -⟩ := h
    exact (lwpWrites_plain u cells x hx).trans ⟨rfl, id⟩
  | pageFault code addr => cases h

theorem lwpFlush_plain {u v : State} {w : Width} {cf : Bool} (h : u.lwpFlush w = .ok (.ok (v, cf))) : Plain u v := by
  unfold State.lwpFlush at h
  split at h
  · exact lwpResult_plain h
  · cases h
    exact .refl u

/-- What a body of the family may answer. -/
inductive LwpEnd.Fine (s : State) : LwpEnd → Prop where
  | done {t : State} (h : Plain s t) : LwpEnd.Fine s (.done t)
  | abort {t : State} {x : Exn} (h : Plain s t) : LwpEnd.Fine s (.abort t x)

theorem runLwp_safe {body : State → Res LwpEnd} (h : ∀ e, body s.start = .ok e → e.Fine s.start) (e : runLwp s body = .next t) :
    Safe s t := by
  unfold runLwp at e
  split at e
  next u hu =>
    cases h _ hu with
    | done k => exact (k.kept.safe).of_start.kept (complete_kept e)
  next u x hu =>
    cases h _ hu with
    | abort k =>
      have aborted : Plain s { s with mem := u.mem, lwp := u.lwp } := ⟨rfl, fun m => k.2 m⟩
      exact (aborted.kept.trans (raise_kept e)).safe
  next => exact (raise_kept e).safe
  all_goals cases e

theorem lwpStart_fine {v u : State} (h : Plain v u) {w : Width} {addr : Quad} {e : LwpEnd} (k : u.lwpStart w addr = .ok e) :
    e.Fine v := by
  unfold State.lwpStart at k
  split at k
  · cases k
    exact .done (h.trans (setLwpcb_plain _ _))
  · dsimp only at k
    split at k
    · cases k
      exact .abort (h.trans (setLwpcb_plain _ _))
    · obtain ⟨r, hr, k⟩ := bind_ok.mp k
      cases r with
      | error x =>
        cases k
        exact .abort (h.trans (setLwpcb_plain _ _))
      | ok p =>
        cases k
        exact .done (h.trans <| (lwpResult_plain hr).trans (setLwpcb_plain _ _))

theorem execLlwpcb_safe {w : Width} {r : Gpr} (e : execLlwpcb w r s = .next t) : Safe s t := by
  refine runLwp_safe (fun e h => ?_) e
  obtain ⟨_, -, h⟩ := bind_ok.mp h
  obtain ⟨r, hr, h⟩ := bind_ok.mp h
  cases r with
  | error x =>
    cases h
    exact .abort (.refl _)
  | ok p => exact lwpStart_fine (lwpFlush_plain hr) h

theorem execSlwpcb_safe {w : Width} {r : Gpr} (e : execSlwpcb w r s = .next t) : Safe s t := by
  refine runLwp_safe (fun e h => ?_) e
  obtain ⟨_, -, h⟩ := bind_ok.mp h
  split at h
  · obtain ⟨r, hr, h⟩ := bind_ok.mp h
    cases r with
    | error x =>
      cases h
      exact .abort (.refl _)
    | ok p =>
      cases h
      exact .done ((lwpFlush_plain hr).trans (writeGpr_plain _ _ _ _))
  · cases h
    exact .done (writeGpr_plain _ _ _ _)

theorem execLwpins_safe {w : Width} {src1 : Gpr} {src2 : RM} {flags : BitVec 32} (e : execLwpins w src1 src2 flags s = .next t) :
    Safe s t := by
  refine runLwp_safe (fun e h => ?_) e
  obtain ⟨_, -, h⟩ := bind_ok.mp h
  split at h
  · obtain ⟨_, -, h⟩ := bind_ok.mp h
    obtain ⟨r, hr, h⟩ := bind_ok.mp h
    cases r with
    | error x =>
      cases h
      exact .abort (.refl _)
    | ok p =>
      cases h
      exact .done ((lwpResult_plain hr).trans (setFlags_plain rfl))
  · cases h
    exact .done (setFlags_plain rfl)

/-- A body that ends with what the facility answers. -/
theorem lwpResult_fine {u : State} {o : Config.LwpOutcome} {f : Except Exn (State × Bool) → Res LwpEnd} {e : LwpEnd}
    (raised : ∀ x, f (.error x) = .ok (.abort u x)) (done : ∀ p, f (.ok p) = .ok (.done p.1)) (h : (u.lwpResult o >>= f) = .ok e) :
    e.Fine u := by
  obtain ⟨r, hr, h⟩ := bind_ok.mp h
  cases r with
  | error x =>
    cases (raised x).symm.trans h
    exact .abort (.refl _)
  | ok p =>
    cases (done p).symm.trans h
    exact .done (lwpResult_plain hr)

theorem execLwpval_safe {w : Width} {src1 : Gpr} {src2 : RM} {flags : BitVec 32} (e : execLwpval w src1 src2 flags s = .next t) :
    Safe s t := by
  refine runLwp_safe (fun e h => ?_) e
  obtain ⟨_, -, h⟩ := bind_ok.mp h
  split at h
  · dsimp only at h
    split at h
    · obtain ⟨_, -, h⟩ := bind_ok.mp h
      exact lwpResult_fine (fun _ => rfl) (fun _ => rfl) h
    · exact lwpResult_fine (fun _ => rfl) (fun _ => rfl) h
  · cases h
    exact .done (.refl _)

end Sys2Proof.Machine
end

