-- ==== Sys2Proof/Proofs/Reset.lean ====
section
/-! PROOFS. The statements about the state after RESET (70_reset_and_hazards.md R960, R962). -/

namespace Sys2Proof.Machine

theorem reset_memOk : State.reset.memOk := Memory.wf_nil

theorem reset_etOk : State.reset.etOk := by
  unfold State.etOk
  decide

theorem reset_legalMode : State.reset.LegalMode := by
  constructor <;> decide

/-- Settles O2: memory is empty, and the state is real mode at level 0. -/
theorem resetMeetsInvariants : Obligations.ResetMeetsInvariants := ⟨reset_memOk, reset_etOk, reset_legalMode⟩

theorem reset_reg (r : Gpr) (h : r ≠ .rdx) : State.reset.reg r = 0 := by
  cases r
  case rdx => exact absurd rfl h
  all_goals rfl

theorem reset_sreg (n : SegName) (h : n ≠ .cs) :
    State.reset.sreg n = { sel := 0, base := 0, limit := 0xFFFF, attr := .resetData } := by
  cases n
  case cs => exact absurd rfl h
  all_goals rfl

theorem reset_ymm (x : XmmNum) : State.reset.ymm x = 0 := by
  simp [State.ymm, State.reset, Media.reset]

/-- Settles O1: by the definition, register by register. -/
theorem resetValues : Obligations.ResetValues := by
  unfold Obligations.ResetValues
  refine ⟨rfl, reset_reg, rfl, rfl, by decide, rfl, reset_sreg, rfl, rfl, rfl, rfl, rfl, rfl, rfl, ?_, rfl, rfl, rfl, rfl, rfl, rfl, rfl,
    rfl, rfl, rfl, rfl, reset_ymm, rfl, by decide⟩
  exact ⟨rfl, by decide, by simp [State.reset, Msrs.reset]⟩

end Sys2Proof.Machine
end

