-- ==== Sys2Proof/Proofs/StepSafe.lean ====
section
/-! PROOFS. Every step keeps memory canonical with CR0.ET set, a legal mode, and at CPL 3 outside a guest the system registers: by the
instruction it executes, or by what happens when it executes none. -/

namespace Sys2Proof.Machine



theorem halt_plain (u : State) : Plain u { u with exec := { u.exec with activity := .halted } } := ⟨rfl, id⟩

/-- `run_plain` for the state at which the body runs. -/
theorem run_start {s t : State} {body : State → Res State} (h : Ends (Plain s.start) (body s.start)) (e : run s body = .next t) :
    Safe s t := run_safe (ends_mono h fun _ k => k.kept.safe) e

/-- `run_plain`, with the execution before what it keeps: the body is read off the execution. -/
theorem safe_of_plain {s t : State} {body : State → Res State} (e : run s body = .next t) (h : ∀ u, Ends (Plain u) (body u)) :
    Safe s t := run_plain h e

/-- What every instruction keeps. -/
theorem exec_safe (i : Instr) {s t : State} (e : exec i s = .next t) : Safe s t := by
  cases i
  -- Arithmetic and logic
  case add | or | adc | sbb | and | sub | xor =>
    refine run_plain (fun _ => alu_plain _ _ _ _ fun _ _ _ _ => ?_) e
    rfl
  case cmp =>
    refine run_plain (fun _ => aluTest_plain _ _ _ fun _ _ _ _ => ?_) e
    rfl
  case inc | dec | neg | not =>
    refine run_plain (fun _ => unary_plain _ _ _ _ fun _ _ => ?_) e
    rfl
  case test => exact execTest_safe e
  case mul => exact execMul_safe e
  case imul => exact execImul_safe e
  case div => exact execDiv_safe e
  case idiv => exact execIdiv_safe e
  case mulx => exact execMulx_safe e
  case adcx => exact execAdcx_safe e
  case adox => exact execAdox_safe e
  case xadd => exact execXadd_safe e
  case cmpxchg => exact execCmpxchg_safe e
  case crc32 => exact execCrc32_safe e
  case bextr => exact execBextr_safe e
  case lzcnt => exact execLzcnt_safe e
  case tzcnt => exact execTzcnt_safe e
  case popcnt => exact execPopcnt_safe e
  case bswap => exact execBswap_safe e
  case bt => exact execBt_safe e
  case aad => exact execAad_safe e
  case aam => exact execAam_safe e
  case andn => exact execAndn_safe e
  case bzhi => exact execBzhi_safe e
  case pdep => exact execPdep_safe e
  case pext => exact execPext_safe e
  case rorx => exact execRorx_safe e
  case sarx => exact execSarx_safe e
  case shlx => exact execShlx_safe e
  case shrx => exact execShrx_safe e
  case cmpxchg8b =>
    simp only [exec_cmpxchg8b, execCmpxchg8b] at e
    exact safe_of_plain e fun _ => ends_bind fun _ _ => cmpxchgPair_plain _ _ _
  case cmpxchg16b =>
    simp only [exec_cmpxchg16b, execCmpxchg16b] at e
    exact safe_of_plain e fun _ => ends_bind fun _ _ => ends_bind fun _ _ => cmpxchgPair_plain _ _ _
  case aaa | aas =>
    exact run_plain (fun _ => asciiAdjust_plain _ _ _) e
  case daa | das =>
    exact run_plain (fun _ => decimalAdjust_plain _ _ _) e
  case cbw | cwde | cdqe | cwd | cdq | cqo | lea =>
    simp only [exec_cbw, execCbw, exec_cwde, execCwde, exec_cdqe, execCdqe, exec_cwd, execCwd, exec_cdq, execCdq, exec_cqo,
      execCqo, exec_lea, execLea] at e
    exact safe_of_plain e fun _ => ends_ok (writeGpr_plain _ _ _ _)
  case blcfill | blci | blcic | blcmsk | blcs | blsfill | blsic | blsi | blsmsk | blsr | t1mskc | tzmsk =>
    exact run_plain (fun _ => bitOp_plain _ _ _ _ _ _ _) e
  case bsf | bsr =>
    exact run_plain (fun _ => bitScan_plain _ _ _ _ _) e
  case btc | btr | bts =>
    exact run_plain (fun _ => bitChange_plain _ _ _ _ _ _) e
  case rol | ror | rcl | rcr =>
    simp only [exec_rol, execRol, exec_ror, execRor, exec_rcl, execRcl, exec_rcr, execRcr] at e
    exact safe_of_plain e fun _ => rotate_plain _ _ _
  case shl | shr | sar =>
    simp only [exec_shl, execShl, exec_shr, execShr, exec_sar, execSar] at e
    exact safe_of_plain e fun _ => shiftBy_plain _ _ _
  case shld | shrd =>
    simp only [exec_shld, execShld, exec_shrd, execShrd] at e
    exact safe_of_plain e fun _ => shiftDouble_plain _ _ _ _ _ _
  -- Moves, flags and strings
  case mov => exact execMov_safe e
  case movbe => exact execMovbe_safe e
  case movnti => exact execMovnti_safe e
  case xchg => exact execXchg_safe e
  case movd => exact execMovd_safe e
  case rdpru => exact execRdpru_safe e
  case rdrand => exact execRdrand_safe e
  case rdseed => exact execRdseed_safe e
  case clzero => exact execClzero_safe e
  case monitorx => exact execMonitorx_safe e
  case mwaitx => exact execMwaitx_safe e
  case push => exact execPush_safe e
  case pop => exact execPop_safe e
  case enter => exact execEnter_safe e
  case leave => exact execLeave_safe e
  case inp => exact execInp_safe e
  case out => exact execOut_safe e
  case movsx | movsxd | movzx | xlat | rdfsbase | rdgsbase | rdpid | movmskpd | movmskps =>
    simp only [exec_movsx, execMovsx, exec_movsxd, execMovsxd, exec_movzx, execMovzx, exec_xlat, execXlat, exec_rdfsbase,
      execRdfsbase, exec_rdgsbase, execRdgsbase, exec_rdpid, execRdpid, exec_movmskpd, execMovmskpd, exec_movmskps,
      execMovmskps] at e
    exact safe_of_plain e fun _ => ends_bind fun _ _ => ends_ok (writeGpr_plain _ _ _ _)
  case lds | les =>
    exact run_plain (fun _ => ends_bind fun _ _ => loadFar_plain _ _ _ _ _) e
  case lfs | lgs | lss =>
    exact run_plain (fun _ => loadFar_plain _ _ _ _ _) e
  case cmovo | cmovno | cmovb | cmovnb | cmovz | cmovnz | cmovbe | cmovnbe | cmovs | cmovns | cmovp | cmovnp | cmovl |
      cmovnl | cmovle | cmovnle =>
    exact run_plain (fun _ => cmov_plain _ _ _ _ _) e
  case seto | setno | setb | setnb | setz | setnz | setbe | setnbe | sets | setns | setp | setnp | setl | setnl |
      setle | setnle =>
    exact run_plain (fun _ => setcc_plain _ _ _) e
  case clc | stc | cmc | cld | std =>
    simp only [exec_clc, execClc, exec_stc, execStc, exec_cmc, execCmc, exec_cld, execCld, exec_std, execStd] at e
    exact safe_of_plain e fun _ => ends_ok (setFlags_plain rfl)
  case lahf =>
    simp only [exec_lahf, execLahf] at e
    exact safe_of_plain e fun _ => ends_bind fun _ _ => ends_ok (writeGReg_plain _ _ _ _)
  case sahf | mcommit | clac | stac =>
    simp only [exec_sahf, execSahf, exec_mcommit, execMcommit, exec_clac, execClac, exec_stac, execStac] at e
    exact safe_of_plain e fun _ => ends_bind fun _ _ => ends_ok (setFlags_plain rfl)
  case wrfsbase | wrgsbase =>
    exact run_plain (fun _ => writeBase_plain _ _ _ _) e
  case cpuid =>
    simp only [exec_cpuid, execCpuid] at e
    exact safe_of_plain e fun _ => ends_ok ⟨rfl, id⟩
  case nop | pause | prefetchnta | prefetcht0 | prefetcht1 | prefetcht2 =>
    simp only [exec_nop, execNop, exec_pause, execPause, exec_prefetchnta, execPrefetchnta, exec_prefetcht0, execPrefetcht0,
      exec_prefetcht1, execPrefetcht1, exec_prefetcht2, execPrefetcht2] at e
    exact safe_of_plain e fun u => ends_ok (.refl u)
  case prefetch | prefetchw | lfence | mfence | sfence | invd | wbinvd | wbnoinvd | invlpg | invlpga | tlbsync =>
    simp only [exec_prefetch, execPrefetch, exec_prefetchw, execPrefetchw, exec_lfence, execLfence, exec_mfence, execMfence,
      exec_sfence, execSfence, exec_invd, execInvd, exec_wbinvd, execWbinvd, exec_wbnoinvd, execWbnoinvd, exec_invlpg,
      execInvlpg, exec_invlpga, execInvlpga, exec_tlbsync, execTlbsync] at e
    exact safe_of_plain e fun _ => check_plain _
  case clflush | clflushopt | clwb =>
    simp only [exec_clflush, execClflush, exec_clflushopt, execClflushopt, exec_clwb, execClwb] at e
    exact safe_of_plain e fun _ => check2_plain _ _
  case pusha | pushad =>
    exact run_plain (fun _ => pushRegs_plain _ _) e
  case popa | popad =>
    exact run_plain (fun _ => popRegs_plain _ _) e
  case pushf | pushfd | pushfq =>
    exact run_plain (fun _ => pushFlags_plain _ _) e
  case popf | popfd | popfq =>
    exact run_plain (fun _ => popFlags_plain _ _) e
  case cmpsb | cmpsv =>
    exact run_plain (fun _ => iterate_plain (cmps_plain _ _ _) _ _ _ _ _) e
  case lodsb | lodsv =>
    exact run_plain (fun _ => iterate_plain (lods_plain _ _ _) _ _ _ _ _) e
  case movsb | movsv =>
    exact run_plain (fun _ => iterate_plain (movs_plain _ _ _) _ _ _ _ _) e
  case scasb | scasv =>
    exact run_plain (fun _ => iterate_plain (scas_plain _ _) _ _ _ _ _) e
  case stosb | stosv =>
    exact run_plain (fun _ => iterate_plain (stos_plain _ _) _ _ _ _ _) e
  case insb | insw | insd =>
    exact run_plain (fun _ => iterate_plain (ins_plain _ _) _ _ _ _ _) e
  case outsb | outsw | outsd =>
    exact run_plain (fun _ => iterate_plain (outs_plain _ _ _) _ _ _ _ _) e
  -- Control transfers
  case jo | jno | jb | jnb | jz | jnz | jbe | jnbe | js | jns | jp | jnp | jl | jnl | jle | jnle | jcxz | jecxz |
      jrcxz =>
    exact run_plain (fun _ => jumpIf_plain _ _ _ _) e
  case loop | loope | loopne =>
    exact run_plain (fun _ => loopIf_plain _ _ _ _ _) e
  case call => exact execCall_safe e
  case jmp => exact execJmp_safe e
  case ret => exact execRet_safe e
  case callFar => exact execCallFar_safe e
  case jmpFar => exact execJmpFar_safe e
  case retf => exact execRetf_safe e
  case into => exact execInto_safe e
  case int1 => exact execInt1_safe e
  case bound => exact execBound_safe e
  case int | int3 =>
    exact run_kept (fun _ => softInt_kept _ _ _ _) e
  case iret | iretd | iretq =>
    exact run_kept (fun _ => iret_kept _ _) e
  -- System instructions
  case arpl => exact execArpl_safe e
  case lar => exact execLar_safe e
  case lsl => exact execLsl_safe e
  case verr => exact execVerr_safe e
  case verw => exact execVerw_safe e
  case lldt => exact execLldt_safe e
  case ltr => exact execLtr_safe e
  case lmsw => exact execLmsw_safe e
  case clrssbsy => exact execClrssbsy_safe e
  case setssbsy => exact execSetssbsy_safe e
  case rstorssp => exact execRstorssp_safe e
  case saveprevssp => exact execSaveprevssp_safe e
  case cli => exact execCli_safe e
  case sti => exact execSti_safe e
  case clts => exact execClts_safe e
  case invpcid => exact execInvpcid_safe e
  case monitor => exact execMonitor_safe e
  case mwait => exact execMwait_safe e
  case syscall => exact execSyscall_safe e
  case sysret => exact execSysret_safe e
  case sysenter => exact execSysenter_safe e
  case sysexit => exact execSysexit_safe e
  case swapgs => exact execSwapgs_safe e
  case rdtscp => exact execRdtscp_safe e
  case rdpkru => exact execRdpkru_safe e
  case wrpkru => exact execWrpkru_safe e
  case lgdt => exact execLgdt_safe e
  case lidt => exact execLidt_safe e
  case wrmsr => exact execWrmsr_safe e
  case clgi => exact execClgi_safe e
  case stgi => exact execStgi_safe e
  case skinit => exact execSkinit_safe e
  case sgdt | sidt =>
    exact run_plain (fun _ => storePseudo_plain _ _ _) e
  case sldt | str =>
    exact run_plain (fun _ => ends_bind fun _ _ => storeWord_plain _ _ _ _) e
  case smsw =>
    exact run_plain (fun _ => storeWord_plain _ _ _ _) e
  case incsspd | incsspq =>
    exact run_plain (fun _ => incSsp_plain _ _ _) e
  case rdsspd | rdsspq =>
    simp only [exec_rdsspd, execRdsspd, exec_rdsspq, execRdsspq] at e
    exact safe_of_plain e fun _ => ends_ok (readSsp_plain _ _ _)
  case wrssd | wrssq =>
    exact run_plain (fun _ => wrss_plain _ _ _ _) e
  case wrussd | wrussq =>
    exact run_plain (fun _ => wruss_plain _ _ _ _) e
  case hlt =>
    simp only [exec_hlt, execHlt] at e
    exact safe_of_plain e fun _ => ends_bind fun _ _ => ends_ok (halt_plain _)
  case rdmsr =>
    simp only [exec_rdmsr, execRdmsr] at e
    exact safe_of_plain e fun _ => ends_bind fun _ _ => ends_ok (setEdxEax_plain _ _)
  case rdtsc | rdpmc =>
    simp only [exec_rdtsc, execRdtsc, exec_rdpmc, execRdpmc] at e
    exact safe_of_plain e fun _ => ends_bind fun _ _ => ends_bind fun _ _ => ends_ok (setEdxEax_plain _ _)
  case vmload => exact execVmload_safe e
  case vmsave => exact execVmsave_safe e
  case vmrun => exact execVmrun_safe e
  case vmmcall => exact execVmmcall_safe e
  case vmgexit => exact execVmgexit_safe e
  case invlpgb seg asz => exact execInvlpgb_safe (seg := seg) (asz := asz) e
  case psmash asz => exact execPsmash_safe (asz := asz) e
  case pvalidate => exact execPvalidate_safe e
  case rmpadjust asz => exact execRmpadjust_safe (asz := asz) e
  case rmpupdate => exact execRmpupdate_safe e
  case llwpcb => exact execLlwpcb_safe e
  case slwpcb => exact execSlwpcb_safe e
  case lwpins => exact execLwpins_safe e
  case lwpval => exact execLwpval_safe e
  -- No instruction of this volume
  case ud0 | ud1 | ud2 | rsm | reservedD6 | reservedGroup3 =>
    exact error_safe (x := ud) e
  case prefixOpSize | prefixAddrSize | prefixCs | prefixDs | prefixEs | prefixFs | prefixGs | prefixSs | prefixLock |
      prefixRep | prefixRepne | prefixRex =>
    exact error_safe (x := gp0) e
  case prefixVex3 | prefixVex2 | prefixXop | escape0F | escape0F38 | escape0F3A | x87 | threeDNow | wait =>
    exact otherVolume_safe e

/-! ### A step -/

theorem tick_plain (s : State) : Plain s s.tick := ⟨rfl, id⟩

theorem withNext_plain (s : State) (len : Nat) : Plain s (s.withNext len) := ⟨rfl, id⟩

theorem runInstr_sound {s t : State} (e : runInstr s = .next t) : Sound s t := by
  unfold runInstr at e
  split at e
  next i len _ => exact (withNext_plain s len).kept.safe.toSound.trans (exec_safe i e).toSound
  next => exact (raise_kept e).safe.toSound
  all_goals cases e

/-- RESET leaves real mode at level 0 (70_reset_and_hazards.md R960). -/
theorem resetEvent_sound (s : State) : Sound s s.resetEvent where
  mem := fun ⟨m, _⟩ => ⟨m, reset_etOk⟩
  legal := fun l =>
    have ⟨_, noGuest, noSnp, paging, caching, lma, pae, pcid, realCpl, realVm, virtCpl, longVm⟩ := reset_legalMode
    ⟨l.noSvm, noGuest, noSnp, paging, caching, lma, pae, pcid, realCpl, realVm, virtCpl, longVm⟩

theorem initEvent_sound (s : State) : Sound s s.initEvent := sound_of_init rfl (fun _ _ => rfl) rfl

/-- A taken input leaves the pins, and the event is delivered. -/
theorem takePins_sound {s t : State} {p : Pins} {e : Event} (h : ({ s with pins := p } : State).disarm.take e = .next t) :
    Sound s t := by
  have unpinned : Sound s ({ s with pins := p } : State).disarm := ⟨memEt_congr rfl, legalMode_congr rfl⟩
  exact unpinned.trans (take_kept h).safe.toSound

theorem step_sound {s t : State} (e : step s = .next t) : Sound s t := by
  refine (tick_plain s).kept.safe.toSound.trans ?_
  unfold step at e
  split at e
  next =>
    cases e
    exact resetEvent_sound _
  next =>
    cases e
    exact initEvent_sound _
  next => cases e
  next => exact takePins_sound e
  next => exact takePins_sound e
  next =>
    split at e
    · exact runInstr_sound e
    · cases e
      exact (Kept.refl _).safe.toSound

/-- Settles O3: every step keeps memory canonical and CR0.ET set. -/
theorem stepKeepsMemory : Obligations.StepKeepsMemory :=
  fun _ _ mem et e => (step_sound e).mem ⟨mem, et⟩

/-- Settles O4: every step of a processor without SVM keeps the mode legal. -/
theorem stepKeepsLegalMode : Obligations.StepKeepsLegalMode :=
  fun _ _ legal e => (step_sound e).legal legal

/-- Settles O48: the system registers are kept together, and read off one by one. -/
theorem userModeKeepsSystemState : Obligations.UserModeKeepsSystemState := by
  intro i s t cpl guest e
  have kept : t.sys = s.sys := (exec_safe i e).user cpl guest
  simpa only [State.sys, SysState.mk.injEq, and_assoc] using kept

end Sys2Proof.Machine
end

