-- ==== Sys2Proof/Proofs/Steps.lean ====
section
/-! PROOFS. The statements about a step: the instruction it executes, and what it does without one (00_scope.md R18,
60_exceptions.md R905, R931, R932). -/

namespace Sys2Proof.Machine

/-! ### A step with an instruction -/

/-- The bytes at rIP: those fetched, or those of the instruction in progress. -/
theorem tick_codeBytes (s : State) :
    s.tick.codeBytes = if s.exec.latch = [] then s.tick.fetchBytes 15 s.rip else (s.exec.latch, none) := rfl

theorem fetch_decoded {s : State} {bs : List Byte} {e : Option Trap} {r : Instr × Nat} (h : s.codeBytes = (bs, e))
    (d : decode s.ctx bs = .ok r) : s.fetch = .ok r := by simp only [State.fetch, h, d]

theorem fetch_undecodable {s : State} {bs : List Byte} {e : Option Trap} {why : DecodeError} (h : s.codeBytes = (bs, e))
    (whole : why ≠ .truncated) (d : decode s.ctx bs = .error why) : s.fetch = .error ud := by
  cases why
  case truncated => exact absurd rfl whole
  all_goals simp only [State.fetch, h, d]

/-- A step whose next event is none. -/
theorem step_quiet {s : State} (h : s.tick.pending = .none) :
    step s = if s.exec.activity = .running then runInstr s.tick else .next s.tick := by rw [step, h]

/-- Settles O7. -/
theorem stepRunsDecodedInstruction : Obligations.StepRunsDecodedInstruction := by
  intro s bs e i len quiet running bytes decoded
  have fetched := fetch_decoded (s := s.tick) bytes decoded
  rw [step_quiet quiet, if_pos running, runInstr, fetched]
  simp only [State.withNext, tick_codeBytes, bytes]
  rfl

/-! ### A step without an instruction -/

/-- CR0 after INIT: bits 30:29 of the old one, and bit 4 (70_reset_and_hazards.md R960). -/
theorem initCr0_eq (v : Quad) : (v &&& 0x60000000) ||| 0x10 = BitVec.ofNat 64 (v.toNat / 2 ^ 29 % 4 * 2 ^ 29 + 16) := by
  apply BitVec.eq_of_getLsbD_eq
  intro i hi
  have kept : v.toNat / 2 ^ 29 % 4 * 2 ^ 29 + 16 = 2 ^ 29 * (v.toNat / 2 ^ 29 % 2 ^ 2) + 16 := by rw [Nat.mul_comm]; rfl
  rw [BitVec.getLsbD_or, BitVec.getLsbD_and, BitVec.getLsbD_ofNat, ← BitVec.testBit_toNat (0x60000000 : Quad),
    ← BitVec.testBit_toNat (0x10 : Quad), show (0x60000000 : Quad).toNat = 2 ^ 29 * 3 + 0 from rfl, show (0x10 : Quad).toNat = 16 from rfl, kept,
    Nat.testBit_two_pow_mul_add _ (by decide), Nat.testBit_two_pow_mul_add _ (by decide), ← BitVec.testBit_toNat,
    Nat.testBit_mod_two_pow, Nat.testBit_div_two_pow, show (3 : Nat) = 2 ^ 2 - 1 from rfl, Nat.testBit_two_pow_sub_one]
  by_cases low : i < 29
  · simp [low, hi]
  · have same : i - 29 + 29 = i := by omega
    have four : Nat.testBit 16 i = false := by
      rw [show 16 = 2 ^ 4 from rfl, Nat.testBit_two_pow]
      simp
      omega
    simp [low, hi, same, four, Bool.and_comm]

theorem step_reset {s : State} (h : s.pins.reset = true) : step s = .next s.tick.resetEvent := by
  have pending : s.tick.pending = .reset := if_pos h
  rw [step, pending]

theorem step_init {s : State} (noReset : ¬s.pins.reset = true) (h : s.pins.init = true ∧ s.svm.gif = true) :
    step s = .next s.tick.initEvent := by
  have pending : s.tick.pending = .init := by
    rw [show s.tick.pending = s.pending from rfl]
    simp [State.pending, noReset, h]
  rw [step, pending]

/-- The pins at which no RESET and no INIT is taken. -/
structure State.Awake (s : State) : Prop where
  reset : ¬s.pins.reset = true
  init : ¬(s.pins.init = true ∧ s.svm.gif = true)

/-- An SMI is taken. -/
def State.TakesSmi (s : State) : Prop := s.exec.activity ≠ .shutdown ∧ s.pins.smi = true ∧ s.svm.gif = true

/-- An NMI is taken. -/
def State.TakesNmi (s : State) : Prop :=
  s.exec.activity ≠ .shutdown ∧ s.pins.nmi = true ∧ s.svm.gif = true ∧ s.exec.nmiBlocked = false ∧ s.exec.shadow ≠ .ss

/-- An interrupt is taken, by its priority against CR8. -/
def State.TakesIntr (s : State) (v : Byte) : Prop :=
  s.exec.activity ≠ .shutdown ∧ s.pins.intr = some v ∧ s.svm.gif = true ∧ s.flags.fi = true ∧ s.exec.shadow = .none ∧
    s.ctl.cr8.toNat % 16 < v.toNat / 16

theorem priority_lt (cr8 : Quad) (v : Byte) : cr8.extractLsb' 0 4 < v.extractLsb' 4 4 ↔ cr8.toNat % 16 < v.toNat / 16 := by
  have small : v.toNat / 16 < 16 := by omega
  simp [BitVec.lt_def, BitVec.extractLsb'_toNat, Nat.shiftRight_eq_div_pow, Nat.mod_eq_of_lt small]

theorem takesSmi_iff (s : State) : (s.exec.activity != .shutdown && s.pins.smi && s.svm.gif) = true ↔ s.TakesSmi := by
  simp [State.TakesSmi, and_assoc]

theorem takesNmi_iff (s : State) : (s.exec.activity != .shutdown && s.pins.nmi && s.svm.gif && !s.exec.nmiBlocked &&
    s.exec.shadow != .ss) = true ↔ s.TakesNmi := by
  simp [State.TakesNmi, and_assoc]

theorem pending_smi {s : State} (h : s.Awake) (smi : s.TakesSmi) : s.pending = .smi := by
  have init : ¬(s.pins.init && s.svm.gif) = true := by simpa using h.init
  rw [State.pending, if_neg h.reset, if_neg init, if_pos ((takesSmi_iff s).mpr smi)]

theorem pending_nmi {s : State} (h : s.Awake) (noSmi : ¬s.TakesSmi) (nmi : s.TakesNmi) : s.pending = .nmi := by
  have init : ¬(s.pins.init && s.svm.gif) = true := by simpa using h.init
  rw [State.pending, if_neg h.reset, if_neg init, if_neg ((takesSmi_iff s).not.mpr noSmi), if_pos ((takesNmi_iff s).mpr nmi)]

theorem pending_intr {s : State} {v : Byte} (h : s.Awake) (noSmi : ¬s.TakesSmi) (noNmi : ¬s.TakesNmi) (intr : s.TakesIntr v) :
    s.pending = .intr v := by
  have init : ¬(s.pins.init && s.svm.gif) = true := by simpa using h.init
  obtain ⟨live, pin, gif, fi, shadow, priority⟩ := intr
  simp only [State.pending, if_neg h.reset, if_neg init, if_neg ((takesSmi_iff s).not.mpr noSmi),
    if_neg ((takesNmi_iff s).not.mpr noNmi), pin]
  simp [live, gif, fi, shadow, (priority_lt _ _).mpr priority]

theorem pending_none {s : State} (h : s.Awake) (noSmi : ¬s.TakesSmi) (noNmi : ¬s.TakesNmi) (noIntr : ∀ v, ¬s.TakesIntr v) :
    s.pending = .none := by
  have init : ¬(s.pins.init && s.svm.gif) = true := by simpa using h.init
  simp only [State.pending, if_neg h.reset, if_neg init, if_neg ((takesSmi_iff s).not.mpr noSmi),
    if_neg ((takesNmi_iff s).not.mpr noNmi)]
  split
  · rfl
  next v pin =>
    refine if_neg fun taken => noIntr v ?_
    simpa [State.TakesIntr, pin, and_assoc, priority_lt] using taken

/-- Settles O8: one clause for each value of the pending event, which the pins and the state decide in the order of R932. -/
theorem stepOtherwise : Obligations.StepOtherwise := by
  intro s t live reset init smi nmi intr quiet unarmed event noNmi noIntr
  have tick : s.tick.pending = s.pending := rfl
  have quietPending : quiet → s.tick.pending = .none := fun ⟨noReset, noInit, noSmi, noNmi', noIntr'⟩ =>
    pending_none (s := s) ⟨noReset, noInit⟩ noSmi noNmi' noIntr'
  refine ⟨step_reset, fun noReset h => ?_, fun noReset noInit h => ?_, fun noReset noInit noSmi h => ?_,
    fun v noReset noInit noSmi noNmi' h => ?_, quietPending, fun h idle => ?_, fun bs e h running bytes why whole decoded => ?_⟩
  · rw [step_init noReset h]
    simp only [State.initEvent, State.initState, initCr0_eq]
    rfl
  · rw [step, tick, pending_smi ⟨noReset, noInit⟩ h]
  · rw [step, tick, pending_nmi ⟨noReset, noInit⟩ noSmi h]
    exact ⟨rfl, take_ok⟩
  · rw [step, tick, pending_intr ⟨noReset, noInit⟩ noSmi noNmi' h]
    exact ⟨rfl, take_ok⟩
  · rw [step_quiet (quietPending h), if_neg idle]
  · rw [step_quiet (quietPending h), if_pos running, runInstr, fetch_undecodable (s := s.tick) bytes whole decoded]
    rfl

/-- Settles O9: by the decoder. -/
theorem wordsDecode : Obligations.WordsDecode := by
  unfold Obligations.WordsDecode
  decide

end Sys2Proof.Machine
end

