-- ==== Sys2Proof/Proofs/Operands.lean ====
section
/-! PROOFS. The statements about registers, memory and the addresses of operands (10_state.md R42, R45, 20_memory.md R100, R105, R107,
30_encoding.md R180, R181). -/

namespace Sys2Proof.Machine

/-! ### Registers -/

@[simp] theorem Gprs.get_set_same (g : Gprs) (r : Gpr) (v : Quad) : (g.set r v).get r = v := by cases r <;> rfl

theorem Gprs.get_set_other (g : Gprs) {r q : Gpr} (v : Quad) (h : r ≠ q) : (g.set r v).get q = g.get q := by
  cases r <;> cases q <;> first | rfl | exact absurd rfl h

@[simp] theorem reg_setReg_same (s : State) (r : Gpr) (v : Quad) : (s.setReg r v).reg r = v := Gprs.get_set_same _ _ _

theorem reg_setReg_other (s : State) {r q : Gpr} (v : Quad) (h : r ≠ q) : (s.setReg r v).reg q = s.reg q :=
  Gprs.get_set_other _ _ h

/-- The register that a write of a register operand leaves (10_state.md R45). -/
def mergeGReg (w : Width) (high : Bool) (old v : Quad) : Quad :=
  if high then (old &&& ~~~(0xFF00 : Quad)) ||| (trunc .w8 v <<< 8) else mergeReg w old v

theorem writeGReg_eq (s : State) (w : Width) (g : GReg) (v : Quad) :
    s.writeGReg w g v = s.setReg g.r (mergeGReg w g.high (s.reg g.r) v) := by
  unfold State.writeGReg mergeGReg
  split <;> rfl

theorem reg_writeGReg_same (s : State) (w : Width) (g : GReg) (v : Quad) :
    (s.writeGReg w g v).reg g.r = mergeGReg w g.high (s.reg g.r) v := by
  rw [writeGReg_eq, reg_setReg_same]

theorem trunc_getLsbD (w : Width) (v : Quad) (i : Nat) : (trunc w v).getLsbD i = (decide (i < w.bits) && v.getLsbD i) := by
  have le := bits_le w
  by_cases h : i < 64
  · simp [trunc, h]
  · rw [BitVec.getLsbD_of_ge _ _ (by omega)]
    simp [show ¬i < w.bits by omega]

theorem mergeGReg_w32 (old v : Quad) : mergeGReg .w32 false old v = (v.extractLsb' 0 32).setWidth 64 := rfl

/-- A mask of the low bits. -/
theorem mask_getLsbD (n i : Nat) (h : i < 64) : (BitVec.ofNat 64 (2 ^ n - 1)).getLsbD i = decide (i < n) := by
  rw [BitVec.getLsbD_ofNat, Nat.testBit_two_pow_sub_one]
  simp [h]

theorem mergeGReg_w16 (old v : Quad) : mergeGReg .w16 false old v = old.extractLsb' 16 48 ++ v.extractLsb' 0 16 := by
  apply BitVec.eq_of_getLsbD_eq
  intro i hi
  have mask : (0xFFFF : Quad).getLsbD i = decide (i < 16) := mask_getLsbD 16 i hi
  simp only [mergeGReg, mergeReg, BitVec.getLsbD_or, BitVec.getLsbD_and, BitVec.getLsbD_not, trunc_getLsbD, mask, Width.bits,
    BitVec.getLsbD_append, BitVec.getLsbD_extractLsb', Bool.false_eq_true, if_false]
  by_cases low : i < 16
  · simp [low]
  · simp [low, hi, show i - 16 < 48 by omega, show 16 + (i - 16) = i by omega]

theorem mergeGReg_w8 (old v : Quad) : mergeGReg .w8 false old v = old.extractLsb' 8 56 ++ v.extractLsb' 0 8 := by
  apply BitVec.eq_of_getLsbD_eq
  intro i hi
  have mask : (0xFF : Quad).getLsbD i = decide (i < 8) := mask_getLsbD 8 i hi
  simp only [mergeGReg, mergeReg, BitVec.getLsbD_or, BitVec.getLsbD_and, BitVec.getLsbD_not, trunc_getLsbD, mask, Width.bits,
    BitVec.getLsbD_append, BitVec.getLsbD_extractLsb', Bool.false_eq_true, if_false]
  by_cases low : i < 8
  · simp [low]
  · simp [low, hi, show i - 8 < 56 by omega, show 8 + (i - 8) = i by omega]

theorem mergeGReg_high (old v : Quad) :
    mergeGReg .w8 true old v = old.extractLsb' 16 48 ++ v.extractLsb' 0 8 ++ old.extractLsb' 0 8 := by
  apply BitVec.eq_of_getLsbD_eq
  intro i hi
  have mask : (0xFF00 : Quad).getLsbD i = decide (8 ≤ i ∧ i < 16) := by
    rw [show (0xFF00 : Quad) = BitVec.ofNat 64 (2 ^ 8 - 1) <<< 8 from rfl, BitVec.getLsbD_shiftLeft]
    by_cases low : i < 8
    · simp [low]
    · rw [mask_getLsbD 8 _ (by omega)]
      simp [hi, low, show i - 8 < 8 ↔ i < 16 by omega]
      omega
  simp only [mergeGReg, BitVec.getLsbD_or, BitVec.getLsbD_and, BitVec.getLsbD_not, BitVec.getLsbD_shiftLeft, trunc_getLsbD, mask,
    Width.bits, BitVec.getLsbD_append, BitVec.getLsbD_extractLsb', if_true]
  by_cases low : i < 8
  · simp [low, hi, show ¬8 ≤ i by omega]
  · by_cases mid : i < 16
    · simp [low, hi, mid, show i - 8 < 8 by omega, show 8 ≤ i by omega]
    · simp [low, hi, mid, show ¬i - 8 < 8 by omega, show i - 8 - 8 < 48 by omega, show 16 + (i - 8 - 8) = i by omega]

/-- Settles O10: the write of each width leaves its merged value in one register. -/
theorem registerWritesByWidth : Obligations.RegisterWritesByWidth := by
  intro s r q v
  refine ⟨reg_writeGReg_same _ _ _ _, ?_, ?_, ?_, ?_, fun w g h => ?_, fun w g => ⟨_, writeGReg_eq s w g v⟩, fun w => trunc_toNat w _, ?_⟩
  · rw [reg_writeGReg_same, mergeGReg_w32]
  · rw [reg_writeGReg_same, mergeGReg_w16]
  · rw [reg_writeGReg_same, mergeGReg_w8]
  · rw [reg_writeGReg_same, mergeGReg_high]
  · rw [writeGReg_eq, reg_setReg_other _ _ h]
  · apply BitVec.eq_of_getLsbD_eq
    intro i hi
    simp only [State.readGReg, if_true, trunc_getLsbD, Width.bits, BitVec.getLsbD_ushiftRight, BitVec.getLsbD_setWidth,
      BitVec.getLsbD_extractLsb', hi, decide_true, Bool.true_and]
    rfl

/-! ### Memory -/

/-- A store puts each byte of the value at its place. -/
theorem Memory.read_store_byte (ps : List Nat) : ∀ (m : List Host.Cell) (v : Nat), Memory.wf m → ps.Nodup →
    ∀ i (h : i < ps.length), Memory.read (Memory.store m ps v) ps[i] = BitVec.ofNat 8 (v / 256 ^ i) := by
  induction ps with
  | nil => exact fun _ _ _ _ i h => absurd h (Nat.not_lt_zero i)
  | cons a ps ih =>
    intro m v wf nodup i h
    obtain ⟨fresh, nodup⟩ := List.nodup_cons.mp nodup
    cases i with
    | zero => simp [Memory.store, Memory.read_store_other _ _ _ _ fresh, Memory.read_write_same _ _ _ wf]
    | succ i =>
      have rest := ih (Memory.write m a (BitVec.ofNat 8 v)) (v / 256) (Memory.write_wf _ _ _ wf) nodup i (Nat.lt_of_succ_lt_succ h)
      simpa only [Memory.store, List.getElem_cons_succ, Nat.div_div_eq_div_mul, ← Nat.pow_succ'] using rest

theorem physRange_nodup (a n : Nat) : (physRange a n).Nodup :=
  List.nodup_range.map (add_right_injective a)

theorem mem_physRange {a n b : Nat} : b ∈ physRange a n ↔ a ≤ b ∧ b < a + n := by
  simp only [physRange, List.mem_map, List.mem_range]
  constructor
  · rintro ⟨i, hi, rfl⟩
    omega
  · exact fun ⟨low, high⟩ => ⟨b - a, by omega, by omega⟩

@[simp] theorem physRange_length (a n : Nat) : (physRange a n).length = n := by simp [physRange]

/-- Settles O11. -/
theorem memoryIsLittleEndian : Obligations.MemoryIsLittleEndian := by
  intro s a n v wf
  refine ⟨fun i h => ?_, fun b h => storeAt_other _ _ _ _ ?_, ?_, storeAt_memOk wf _ _, rfl⟩
  · have byte := Memory.read_store_byte (physRange a n) s.mem v wf (physRange_nodup a n) i (by simpa using h)
    simpa [physRange] using byte
  · rw [mem_physRange]
    omega
  · have read := Memory.load_store_same s.mem (physRange a n) v wf (physRange_nodup a n)
    rwa [physRange_length] at read

/-! ### Segmented accesses -/

theorem alignCheck_ok {s : State} (ac : s.acEnabled = false) (lin : Quad) (n : Nat) : s.alignCheck lin n = .ok () := by
  simp [State.alignCheck, ac]

/-- The address of byte `i` of an access, without paging: consecutive, modulo 2^32 outside 64-bit mode (20_memory.md R105). -/
def byteAddr (wrap32 : Bool) (lin : Quad) (i : Nat) : Nat := (lin.toNat + i) % 2 ^ (if wrap32 then 32 else 64)

theorem byteAddr_zero {wrap32 : Bool} {lin : Quad} (h : wrap32 = true → lin.toNat < 2 ^ 32) : byteAddr wrap32 lin 0 = lin.toNat := by
  cases wrap32 with
  | true => exact Nat.mod_eq_of_lt (h rfl)
  | false => exact Nat.mod_eq_of_lt lin.isLt

theorem nextLin_toNat (wrap32 : Bool) (lin : Quad) : (nextLin wrap32 lin).toNat = byteAddr wrap32 lin 1 := by
  cases wrap32 with
  | true =>
    simp only [nextLin, if_true, trunc_toNat, uns, byteAddr, BitVec.toNat_add, Width.bits]
    exact Nat.mod_mod_of_dvd _ ⟨2 ^ 32, rfl⟩
  | false => exact BitVec.toNat_add _ _

theorem byteAddr_nextLin (wrap32 : Bool) (lin : Quad) (i : Nat) :
    byteAddr wrap32 (nextLin wrap32 lin) i = byteAddr wrap32 lin (i + 1) := by
  rw [byteAddr, nextLin_toNat, byteAddr, byteAddr, Nat.mod_add_mod, Nat.add_assoc, Nat.add_comm 1 i]

theorem physAddrs_identity {s : State} (paging : s.cfg.paging = .identity) (acc : Config.Access) (wrap32 : Bool) (n : Nat) :
    ∀ lin : Quad, (wrap32 = true → lin.toNat < 2 ^ 32) →
      s.physAddrs acc wrap32 n lin = .ok ((List.range n).map (byteAddr wrap32 lin)) := by
  induction n with
  | zero => exact fun _ _ => rfl
  | succ n ih =>
    intro lin small
    have next : wrap32 = true → (nextLin wrap32 lin).toNat < 2 ^ 32 := fun h => by
      rw [nextLin_toNat, h]
      exact Nat.mod_lt _ (by decide)
    rw [State.physAddrs, translate_identity paging, ih _ next, List.range_succ_eq_map, List.map_cons, List.map_map,
      byteAddr_zero small]
    rw [show byteAddr wrap32 (nextLin wrap32 lin) = byteAddr wrap32 lin ∘ Nat.succ from funext (byteAddr_nextLin wrap32 lin)]

/-- Addresses within the memory are the span of an access. -/
theorem span_of_physAddrs {s : State} {acc : Config.Access} {wrap32 : Bool} {lin : Quad} {ps : List Nat}
    (h : s.physAddrs acc wrap32 acc.size lin = .ok ps) (mem : ∀ p ∈ ps, p < 2 ^ s.cfg.physAddrBits) :
    s.span acc wrap32 lin = .ok ps := by
  simp only [State.span, h, absent_none.mpr mem]

theorem span_identity {s : State} (paging : s.cfg.paging = .identity) (acc : Config.Access) (wrap32 : Bool) (lin : Quad)
    (small : wrap32 = true → lin.toNat < 2 ^ 32) (mem : ∀ i < acc.size, byteAddr wrap32 lin i < 2 ^ s.cfg.physAddrBits) :
    s.span acc wrap32 lin = .ok ((List.range acc.size).map (byteAddr wrap32 lin)) := by
  refine span_of_physAddrs (physAddrs_identity paging acc wrap32 _ lin small) fun p hp => ?_
  obtain ⟨i, hi, rfl⟩ := List.mem_map.mp hp
  exact mem i (List.mem_range.mp hi)

theorem access_error {s : State} {seg : SegName} {off : Quad} {n : Nat} {write : Bool} {e : Trap}
    (h : s.segCheck (segFault seg) seg off n write = .error e) : s.access seg off n write = .error e := by
  rw [State.access, State.accessE, State.accessParts, h, error_bind]

/-- The checks of a segment outside 64-bit mode, in their order (20_memory.md R103, R107). -/
theorem segCheck_legacy {s : State} (legacy : s.mode64 = false) (bad : Trap) (seg : SegName) (off : Quad) (n : Nat) (write : Bool) :
    s.segCheck bad seg off n write = (do
      require (!(s.protMode && isNull (s.sreg seg).sel)) gp0
      require ((s.sreg seg).inLimit off n) bad
      require (!s.protMode || (if write then (s.sreg seg).attr.writable else (s.sreg seg).attr.readable)) gp0) := by
  simp [State.segCheck, legacy]

theorem linear_small {s : State} (legacy : s.mode64 = false) (seg : SegName) (off : Quad) : (s.linear seg off).toNat < 2 ^ 32 := by
  simp only [State.linear, legacy, Bool.false_eq_true, if_false, trunc_toNat]
  exact uns_lt .w32 _

/-- An access that passes its checks has the addresses of its bytes. -/
theorem access_identity {s : State} (paging : s.cfg.paging = .identity) (ac : s.acEnabled = false) {seg : SegName} {off : Quad}
    {n : Nat} {write : Bool} (check : s.segCheck (segFault seg) seg off n write = .ok ())
    (mem : ∀ i < n, byteAddr s.wrap32 (s.linear seg off) i < 2 ^ s.cfg.physAddrBits) :
    s.access seg off n write = .ok ((List.range n).map (byteAddr s.wrap32 (s.linear seg off))) := by
  refine accessE_ok.mpr ⟨check, alignCheck_ok ac _ _, span_identity paging _ _ _ (fun h => ?_) mem⟩
  exact linear_small (by simpa [State.wrap32] using h) seg off

/-! ### Effective addresses -/

/-- Arithmetic modulo a width may be done modulo 2^64 first. -/
theorem mod_width (w : Width) (n : Nat) : n % 2 ^ 64 % 2 ^ w.bits = n % 2 ^ w.bits :=
  Nat.mod_mod_of_dvd n (Nat.pow_dvd_pow 2 (bits_le w))

theorem uns_add (w : Width) (a b : Quad) : uns w (a + b) = (a.toNat + b.toNat) % 2 ^ w.bits := by
  rw [uns, BitVec.toNat_add, mod_width]

theorem uns_shiftLeft (w : Width) (v : Quad) (n : Nat) : uns w (v <<< n) = v.toNat * 2 ^ n % 2 ^ w.bits := by
  rw [uns, BitVec.toNat_shiftLeft, Nat.shiftLeft_eq, mod_width]

theorem addrWidth_bits (a : ASize) : (addrWidth a).bits = a.bits := by cases a <;> rfl

/-- The base of an address as a number. -/
def State.baseNat (s : State) : Base → Nat
  | .none => 0
  | .reg r => (s.reg r).toNat
  | .rip => s.rip.toNat

/-- The scaled index of an address as a number. -/
def State.indexNat (s : State) : Option Index → Nat
  | none => 0
  | some i => (s.reg i.r).toNat * 2 ^ i.scale.toNat

theorem baseValue_mod (s : State) (a : ASize) (b : Base) :
    (s.baseValue a b).toNat % 2 ^ (addrWidth a).bits = s.baseNat b % 2 ^ (addrWidth a).bits := by
  cases b with
  | none => rfl
  | reg r => rw [State.baseValue, State.readGpr, trunc_toNat, uns, Nat.mod_mod, State.baseNat]
  | rip => rfl

theorem indexValue_mod (s : State) (a : ASize) (i : Option Index) :
    (s.indexValue a i).toNat % 2 ^ (addrWidth a).bits = s.indexNat i % 2 ^ (addrWidth a).bits := by
  cases i with
  | none => rfl
  | some i =>
    change uns (addrWidth a) (_ <<< _) = _
    rw [uns_shiftLeft, State.readGpr, trunc_toNat, uns, Nat.mod_mul_mod, State.indexNat]

/-- The effective address as a number (30_encoding.md R180, R181). -/
theorem ea_toNat (s : State) (m : Mem) :
    (s.ea m).toNat = (s.baseNat m.base + s.indexNat m.index + m.disp.toNat) % 2 ^ m.asz.bits := by
  rw [State.ea, trunc_toNat, uns_add, BitVec.toNat_add, ← addrWidth_bits, Nat.add_mod, mod_width, Nat.add_mod (s.baseValue _ _).toNat,
    baseValue_mod, indexValue_mod, ← Nat.add_mod (s.baseNat _), ← Nat.add_mod]

/-- Settles O12: a passed access by the addresses of its bytes, a failed one by the first check that fails, and the effective address
as a number. -/
theorem operandAddress : Obligations.OperandAddress := by
  refine ⟨fun s seg off n write paging ac pos => ⟨fun m64 first last below mem => ?_, fun m64 first => ?_, fun legacy limit seg' mem => ?_,
    fun legacy limit null => ?_, fun legacy prot null => ?_, fun legacy prot null limit attr => ?_⟩, fun s m => ?_⟩
  · have addr (i : Nat) (h : i < n) : byteAddr s.wrap32 (s.linear seg off) i = (s.linear seg off).toNat + i := by
      simp only [byteAddr, State.wrap32, m64, Bool.not_true, Bool.false_eq_true, if_false]
      exact Nat.mod_eq_of_lt (by omega)
    rw [access_identity paging ac (by simp [State.segCheck, m64, first, last]) fun i h => by rw [addr i h]; exact mem i h]
    exact congrArg Except.ok (List.map_congr_left fun i h => addr i (List.mem_range.mp h))
  · exact access_error (by simp [State.segCheck, m64, first, segFault])
  · have addr (i : Nat) : byteAddr s.wrap32 (s.linear seg off) i = ((s.linear seg off).toNat + i) % 2 ^ 32 := by
      simp [byteAddr, State.wrap32, legacy]
    rw [access_identity paging ac ?_ fun i h => by rw [addr i]; exact mem i h]
    · exact congrArg Except.ok (List.map_congr_left fun i _ => addr i)
    · rw [segCheck_legacy legacy, limit]
      cases prot : s.protMode with
      | false => rfl
      | true =>
        obtain ⟨null, attr⟩ := seg' prot
        rw [null, attr]
        rfl
  · refine access_error ?_
    rw [segCheck_legacy legacy, limit]
    cases prot : s.protMode with
    | false => rfl
    | true =>
      rw [null prot]
      rfl
  · refine access_error ?_
    rw [segCheck_legacy legacy, prot, null]
    rfl
  · refine access_error ?_
    rw [segCheck_legacy legacy, prot, null, limit, attr]
    rfl
  · rw [ea_toNat]
    obtain ⟨_, base, index, _, _⟩ := m
    cases base <;> cases index <;> rfl

end Sys2Proof.Machine
end

