-- ==== Sys2Proof/Proofs/Widths.lean ====
section
/-! PROOFS. Values at a width: what is written depends on the low bits alone, and what is read has no others (10_state.md R42, R45,
20_memory.md R100). -/

namespace Sys2Proof.Machine

/-! ### The low bits decide what is written -/

theorem trunc_congr {w : Width} {u v : Quad} (h : uns w u = uns w v) : trunc w u = trunc w v :=
  BitVec.eq_of_toNat_eq (by rw [trunc_toNat, trunc_toNat, h])

theorem trunc_w64 (v : Quad) : trunc .w64 v = v := by simp [trunc, Width.bits]

theorem uns_w64 (v : Quad) : uns .w64 v = v.toNat := Nat.mod_eq_of_lt v.isLt

theorem mergeReg_congr {w : Width} {u v : Quad} (h : uns w u = uns w v) (old : Quad) : mergeReg w old u = mergeReg w old v := by
  have low := trunc_congr h
  cases w with
  | w8 => rw [mergeReg, mergeReg, low]
  | w16 => rw [mergeReg, mergeReg, low]
  | w32 => exact low
  | w64 => rwa [trunc_w64, trunc_w64] at low

theorem writeGpr_congr {w : Width} {u v : Quad} (h : uns w u = uns w v) (s : State) (r : Gpr) :
    s.writeGpr w r u = s.writeGpr w r v := by
  rw [State.writeGpr, State.writeGpr, mergeReg_congr h]

/-- A register operand is high only at 8 bits. -/
theorem writeGReg_congr {w : Width} {u v : Quad} (h : uns w u = uns w v) (s : State) (g : GReg) :
    s.writeGReg w g u = s.writeGReg w g v := by
  have byte : uns .w8 u = uns .w8 v := by
    have dvd : 2 ^ 8 ∣ 2 ^ w.bits := Nat.pow_dvd_pow 2 (bits_ge w)
    have mod : uns w u % 2 ^ 8 = uns w v % 2 ^ 8 := congrArg (· % 2 ^ 8) h
    rwa [uns, uns, Nat.mod_mod_of_dvd _ dvd, Nat.mod_mod_of_dvd _ dvd] at mod
  unfold State.writeGReg
  rw [trunc_congr byte, writeGpr_congr h]

theorem putAt_congr {w : Width} {u v : Quad} (h : uns w u = uns w v) (s : State) (p : Place) : s.putAt w p u = s.putAt w p v := by
  cases p with
  | reg g => exact writeGReg_congr h s g
  | mem ps => rw [State.putAt, State.putAt, trunc_congr h]

theorem writeGpr_trunc (s : State) (w : Width) (r : Gpr) (v : Quad) : s.writeGpr w r (trunc w v) = s.writeGpr w r v :=
  writeGpr_congr (uns_trunc w v) s r

theorem valueFlags_congr {w : Width} {u v : Quad} (h : uns w u = uns w v) (f : Flags) : valueFlags f w u = valueFlags f w v := by
  rw [valueFlags, valueFlags, h]

theorem sgn_congr {w : Width} {u v : Quad} (h : uns w u = uns w v) : sgn w u = sgn w v := by rw [sgn, sgn, h]

@[simp] theorem sgn_trunc (w : Width) (v : Quad) : sgn w (trunc w v) = sgn w v := sgn_congr (uns_trunc w v)

theorem sumFlags_congr {w : Width} {a a' b b' : Quad} (ha : uns w a = uns w a') (hb : uns w b = uns w b') (f : Flags) (c : Bool) :
    sumFlags f w a b c = sumFlags f w a' b' c := by
  rw [sumFlags, sumFlags, ha, hb, sgn_congr ha, sgn_congr hb]

theorem diffFlags_congr {w : Width} {a a' b b' : Quad} (ha : uns w a = uns w a') (hb : uns w b = uns w b') (f : Flags) (c : Bool) :
    diffFlags f w a b c = diffFlags f w a' b' c := by
  rw [diffFlags, diffFlags, ha, hb, sgn_congr ha, sgn_congr hb]

/-! ### Wrapped integers -/

theorem toNat_eq_uns {w : Width} {v : Quad} (h : v.toNat < 2 ^ w.bits) : v.toNat = uns w v := (Nat.mod_eq_of_lt h).symm

theorem uns_ofNat (w : Width) (n : Nat) : uns w (BitVec.ofNat 64 n) = n % 2 ^ w.bits := by
  rw [uns, BitVec.toNat_ofNat, mod_width]

theorem uns_wrap_int (w : Width) (n : Int) : (uns w (wrap w n) : Int) = n % 2 ^ w.bits := by
  rw [uns, Int.natCast_emod, wrap_toNat, Int.natCast_pow]
  exact Int.emod_emod _ _

/-- A value whose low bits are those of an integer is written as the wrapped integer. -/
theorem uns_eq_wrap {w : Width} {v : Quad} {n : Int} (h : (v.toNat : Int) % 2 ^ w.bits = n % 2 ^ w.bits) :
    uns w v = uns w (wrap w n) := by
  have := uns_wrap_int w n
  rw [← h] at this
  have cast : ((uns w v : Nat) : Int) = (v.toNat : Int) % 2 ^ w.bits := by
    rw [uns, Int.natCast_emod, Int.natCast_pow]
    rfl
  exact_mod_cast cast.trans this.symm

/-- A value with no bits above the width is the wrapped integer. -/
theorem eq_wrap {w : Width} {v : Quad} {n : Int} (small : v.toNat < 2 ^ w.bits) (h : (v.toNat : Int) % 2 ^ w.bits = n % 2 ^ w.bits) :
    v = wrap w n := by
  have low : uns w v = uns w (wrap w n) := uns_eq_wrap h
  have wrapped : (wrap w n).toNat < 2 ^ w.bits := by
    have := wrap_toNat w n
    have pos : (0 : Int) < 2 ^ w.bits := Int.pow_pos (by decide)
    have lt := Int.emod_lt_of_pos n pos
    rw [← this] at lt
    exact_mod_cast lt
  apply BitVec.eq_of_toNat_eq
  rw [toNat_eq_uns small, toNat_eq_uns wrapped, low]

theorem sgn_emod (w : Width) (v : Quad) : sgn w v % 2 ^ w.bits = (uns w v : Int) % 2 ^ w.bits := by
  unfold sgn
  split
  · rfl
  · exact Int.sub_emod_right _ _

/-! ### What is read has no bits above the width -/

theorem physAddrs_length {s : State} {acc : Config.Access} {wrap32 : Bool} (n : Nat) :
    ∀ {lin : Quad} {ps : List Nat}, s.physAddrs acc wrap32 n lin = .ok ps → ps.length = n := by
  induction n with
  | zero =>
    intro lin ps h
    cases h
    rfl
  | succ n ih =>
    intro lin ps h
    rw [State.physAddrs] at h
    split at h
    · cases h
    · split at h
      · cases h
      next qs hq =>
        cases h
        rw [List.length_cons, ih hq]

theorem accessParts_length {s : State} {bad : Trap} {seg : SegName} {off : Quad} {n part : Nat} {write : Bool} {ps : List Nat}
    (h : s.accessParts bad seg off n part write = .ok ps) : ps.length = n := by
  obtain ⟨-, -, span⟩ := accessParts_ok.mp h
  exact physAddrs_length _ (span_ok span).1

theorem access_length {s : State} {seg : SegName} {off : Quad} {n : Nat} {write : Bool} {ps : List Nat}
    (h : s.access seg off n write = .ok ps) : ps.length = n := accessParts_length h

theorem pow_bytes (w : Width) : 256 ^ w.bytes = 2 ^ w.bits := by cases w <;> rfl

theorem loadAt_lt {s u : State} {w : Width} {seg : SegName} {off : Quad} {write : Bool} {ps : List Nat}
    (h : s.access seg off w.bytes write = .ok ps) : u.loadAt ps < 2 ^ w.bits := by
  have small := Memory.load_lt u.mem ps
  rwa [access_length h, pow_bytes] at small

theorem loadAt_toNat {s u : State} {w : Width} {seg : SegName} {off : Quad} {write : Bool} {ps : List Nat}
    (h : s.access seg off w.bytes write = .ok ps) : (BitVec.ofNat 64 (u.loadAt ps)).toNat = u.loadAt ps := by
  rw [BitVec.toNat_ofNat]
  exact Nat.mod_eq_of_lt (Nat.lt_of_lt_of_le (loadAt_lt h) (pow_bits_le w))

theorem readGpr_lt (s : State) (w : Width) (r : Gpr) : (s.readGpr w r).toNat < 2 ^ w.bits := by
  rw [State.readGpr, trunc_toNat]
  exact uns_lt w _

@[simp] theorem uns_readGpr (s : State) (w : Width) (r : Gpr) : uns w (s.readGpr w r) = uns w (s.reg r) := uns_trunc w _

@[simp] theorem readGpr_toNat (s : State) (w : Width) (r : Gpr) : (s.readGpr w r).toNat = uns w (s.reg r) := trunc_toNat w _

@[simp] theorem sgn_readGpr (s : State) (w : Width) (r : Gpr) : sgn w (s.readGpr w r) = sgn w (s.reg r) := sgn_trunc w _

theorem readGReg_lt (s : State) (w : Width) (g : GReg) : (s.readGReg w g).toNat < 2 ^ w.bits := by
  unfold State.readGReg
  split
  · rw [trunc_toNat]
    exact Nat.lt_of_lt_of_le (uns_lt .w8 _) (Nat.pow_le_pow_right (by decide) (bits_ge w))
  · exact readGpr_lt s w g.r

theorem getAt_lt {s u : State} {w : Width} {write : Bool} {rm : RM} {p : Place} (h : s.place w write rm = .ok p) :
    (u.getAt w p).toNat < 2 ^ w.bits := by
  rcases place_ok.mp h with ⟨g, -, rfl⟩ | ⟨m, ps, -, hps, rfl⟩
  · exact readGReg_lt u w g
  · rw [State.getAt, loadAt_toNat (w := w) hps]
    exact loadAt_lt hps

theorem readRM_lt {s : State} {w : Width} {rm : RM} {v : Quad} (h : s.readRM w rm = .ok v) : v.toNat < 2 ^ w.bits := by
  obtain ⟨p, hp, rfl⟩ := readRM_ok.mp h
  exact getAt_lt hp

theorem readMem_lt {s : State} {w : Width} {seg : SegName} {off v : Quad} (h : s.readMem seg off w.bytes = .ok v) :
    v.toNat < 2 ^ w.bits := by
  obtain ⟨ps, hps, rfl⟩ := readMem_ok.mp h
  rw [loadAt_toNat (w := w) hps]
  exact loadAt_lt hps

end Sys2Proof.Machine
end

