-- ==== Sys2Proof/Proofs/Arithmetic.lean ====
section
/-! PROOFS. The statements about sums, differences, bitwise operations and exchanges (40_gp_a_b.md, 41_gp_c.md, 42_gp_d_j.md,
44_gp_n_p.md, 45_gp_r_s.md, 46_gp_t_x.md): each instruction by its operands, and each operation by integers. -/

namespace Sys2Proof.Machine

variable {s : State} {w : Width}

/-- An instruction that cannot raise an exception. -/
theorem run_total (tf : s.flags.tf = false) (f : State → State) : run s (fun t => .ok (f t)) = .next (f s.start) := run_ok tf rfl

/-! ### Two operands -/

/-- An instruction of the arithmetic-logic group whose operands can be accessed. -/
theorem run_alu {f : AluForm} {lock : Bool} {p : Place} {a b : Quad} (op : AluOp) (tf : s.flags.tf = false)
    (legal : lock = true → formWritesMem f = true) (operands : s.start.aluOperands w true f = .ok (p, a, b)) :
    run s (fun t => t.alu w f lock op) = .next ((s.start.putAt w p (op s.start.flags s.start.freeCount a b).1).setFlags
      (op s.start.flags s.start.freeCount a b).2) := by
  apply run_ok tf
  rw [State.alu, lock_ok legal, ok_bind, operands]
  rfl

theorem run_aluTest {f : AluForm} {p : Place} {a b : Quad} (op : AluOp) (tf : s.flags.tf = false)
    (operands : s.start.aluOperands w false f = .ok (p, a, b)) :
    run s (fun t => t.aluTest w f op) = .next (s.start.setFlags (op s.start.flags s.start.freeCount a b).2) := by
  apply run_ok tf
  rw [State.aluTest, operands]
  rfl

theorem addOp_eq (f : Flags) (n : Nat) (a b : Quad) :
    addOp w f n a b = (wrap w (uns w a + uns w b), sumFlags f w a b false) := by
  simp [addOp, addFlags_eq]

theorem adcOp_eq (f : Flags) (n : Nat) (a b : Quad) :
    adcOp w f n a b = (wrap w (uns w a + uns w b + f.cf.toNat), sumFlags f w a b f.cf) := addFlags_eq _ _ _ _ _

theorem subOp_eq (f : Flags) (n : Nat) (a b : Quad) :
    subOp w f n a b = (wrap w (uns w a - uns w b), diffFlags f w a b false) := by
  simp [subOp, subFlags_eq]

theorem sbbOp_eq (f : Flags) (n : Nat) (a b : Quad) :
    sbbOp w f n a b = (wrap w (uns w a - uns w b - f.cf.toNat), diffFlags f w a b f.cf) := subFlags_eq _ _ _ _ _

/-- Settles O14: ADD and ADC by their operation, ADCX and ADOX by the carry of the same sum. -/
theorem addResult : Obligations.AddResult := by
  refine ⟨fun s w f lock p a b tf legal operands => ⟨?_, ?_⟩, fun s w dst src b tf adx read => ⟨?_, ?_⟩⟩
  · rw [exec_add, execAdd, run_alu _ tf legal operands, addOp_eq]
  · rw [exec_adc, execAdc, run_alu _ tf legal operands, adcOp_eq]
    rfl
  · rw [exec_adcx, execAdcx]
    apply run_ok tf
    simp only [start_feat, adx, require_true, ok_bind, read, addFlags_eq, start_readGpr, uns_readGpr, State.finish, sumFlags]
    rfl
  · rw [exec_adox, execAdox]
    apply run_ok tf
    simp only [start_feat, adx, require_true, ok_bind, read, addFlags_eq, start_readGpr, uns_readGpr, State.finish, sumFlags]
    rfl

/-- Settles O15. -/
theorem subSbbCmpResult : Obligations.SubSbbCmpResult := by
  refine fun s w f lock p a b tf => ⟨fun legal operands => ⟨?_, ?_⟩, fun operands => ?_⟩
  · rw [exec_sub, execSub, run_alu _ tf legal operands, subOp_eq]
  · rw [exec_sbb, execSbb, run_alu _ tf legal operands, sbbOp_eq]
    rfl
  · rw [exec_cmp, execCmp, run_aluTest _ tf operands, subOp_eq]

/-! ### Bitwise operations -/

theorem uns_and (w : Width) (a b : Quad) : uns w (a &&& b) = uns w a &&& uns w b := by
  rw [uns, BitVec.toNat_and, Nat.and_mod_two_pow]
  rfl

theorem uns_or (w : Width) (a b : Quad) : uns w (a ||| b) = uns w a ||| uns w b := by
  rw [uns, BitVec.toNat_or, Nat.or_mod_two_pow]
  rfl

theorem uns_xor (w : Width) (a b : Quad) : uns w (a ^^^ b) = uns w a ^^^ uns w b := by
  rw [uns, BitVec.toNat_xor, Nat.xor_mod_two_pow]
  rfl

theorem logicFlags_eq (t : State) (w : Width) (r : Quad) : logicFlags t.flags t.freeCount w r = bitwiseFlags t w r := by
  rw [logicFlags, result_eq, bitwiseFlags]

theorem bitwiseFlags_congr {u v : Quad} (h : uns w u = uns w v) (t : State) : bitwiseFlags t w u = bitwiseFlags t w v := by
  rw [bitwiseFlags, bitwiseFlags, valueFlags_congr h]

theorem logicOp_eq {g : Quad → Quad → Quad} {k : Nat → Nat → Nat} (h : ∀ a b, uns w (g a b) = k (uns w a) (uns w b)) (t : State)
    (a b : Quad) : logicOp w g t.flags t.freeCount a b =
      (wrap w (k (uns w a) (uns w b) : Nat), bitwiseFlags t w (wrap w (k (uns w a) (uns w b) : Nat))) := by
  rw [logicOp, trunc_eq_wrap, h, logicFlags_eq]

/-- TEST only sets the flags of the AND. -/
theorem run_test {a : Quad} (b : State → Quad) (rm : RM) (tf : s.flags.tf = false) (read : s.start.readRM w rm = .ok a) :
    run s (fun t => do
      let a ← t.readRM w rm
      .ok (t.setFlags (logicFlags t.flags t.freeCount w (a &&& b t)))) =
    .next (s.start.setFlags (bitwiseFlags s.start w (wrap w (uns w a &&& uns w (b s.start) : Nat)))) := by
  apply run_ok tf
  rw [read, ok_bind, logicFlags_eq, ← uns_and]
  rw [bitwiseFlags_congr (u := a &&& b s.start) (v := wrap w (uns w (a &&& b s.start))) (by rw [← trunc_eq_wrap, uns_trunc])]

/-- Settles O16: the low bits of a bitwise operation are those of the operation on the low bits. -/
theorem bitwiseResult : Obligations.BitwiseResult := by
  refine ⟨fun s w f lock p a b tf legal operands => ⟨?_, ?_, ?_⟩, fun s w rm r imm a tf read => ⟨?_, ?_⟩⟩
  · rw [exec_and, execAnd, run_alu _ tf legal operands, logicOp_eq (uns_and w)]
  · rw [exec_or, execOr, run_alu _ tf legal operands, logicOp_eq (uns_or w)]
  · rw [exec_xor, execXor, run_alu _ tf legal operands, logicOp_eq (uns_xor w)]
  · exact run_test (fun t => t.readGReg w r) rm tf read
  · have test := run_test (fun _ => trunc w imm) rm tf read
    rwa [uns_trunc] at test

/-! ### One operand -/

theorem run_unary {rm : RM} {lock : Bool} {p : Place} (op : Flags → Quad → Quad × Flags) (tf : s.flags.tf = false)
    (legal : lock = true → RM.isMem rm = true) (place : s.start.place w true rm = .ok p) :
    run s (fun t => t.unary w rm lock op) = .next ((s.start.putAt w p (op s.start.flags (s.start.getAt w p)).1).setFlags
      (op s.start.flags (s.start.getAt w p)).2) := by
  apply run_ok tf
  rw [State.unary, checkLock_ok legal, ok_bind, place]
  rfl

theorem uns_one (w : Width) : uns w 1 = 1 := by cases w <;> rfl

theorem uns_zero (w : Width) : uns w 0 = 0 := Nat.zero_mod _

theorem trunc_not (w : Width) (v : Quad) : trunc w (~~~v) = wrap w (2 ^ w.bits - 1 - uns w v) := by
  refine eq_wrap (by rw [trunc_toNat]; exact uns_lt w _) ?_
  rw [trunc_toNat, uns, BitVec.toNat_not, Int.natCast_emod, Int.natCast_pow, uns, Int.natCast_emod, Int.natCast_pow]
  obtain ⟨k, hk⟩ : (2 : Int) ^ w.bits ∣ 2 ^ 64 := pow_dvd_pow 2 (bits_le w)
  have cast : ((2 ^ 64 - 1 - v.toNat : Nat) : Int) = 2 ^ w.bits * k - 1 - v.toNat := by
    have small := v.isLt
    omega
  have split := Int.emod_add_mul_ediv (v.toNat : Int) (2 ^ w.bits)
  have shifted : (2 : Int) ^ w.bits * k - 1 - v.toNat =
      2 ^ w.bits - 1 - (v.toNat : Int) % 2 ^ w.bits + 2 ^ w.bits * (k - 1 - v.toNat / 2 ^ w.bits) := by
    linear_combination split
  rw [cast, shifted]
  exact (Int.emod_emod _ _).trans (Int.add_mul_emod_self_left _ _ _)

/-- NEG sets CF unless the operand is 0 (44_gp_n_p.md R510). -/
theorem diffFlags_neg (f : Flags) (w : Width) (a : Quad) :
    diffFlags f w 0 a false = { diffFlags f w 0 a false with cf := uns w a != 0 } := by
  have cf : (diffFlags f w 0 a false).cf = (uns w a != 0) := by
    rw [Bool.eq_iff_iff]
    simp only [diffFlags, uns_zero, decide_eq_true_eq, bne_iff_ne, Bool.toNat_false]
    omega
  rw [← cf]

/-- Settles O17. -/
theorem incDecNegNotResult : Obligations.IncDecNegNotResult := by
  refine fun s w rm lock p tf legal place => ⟨?_, ?_, ?_, ?_⟩
  · rw [exec_inc, execInc, run_unary _ tf legal place]
    simp only [addFlags_eq, uns_one]
    simp
  · rw [exec_dec, execDec, run_unary _ tf legal place]
    simp only [subFlags_eq, uns_one]
    simp
  · rw [exec_neg, execNeg, run_unary _ tf legal place]
    simp only [subFlags_eq, uns_zero]
    rw [← diffFlags_neg]
    simp
  · rw [exec_not, execNot, run_unary _ tf legal place, trunc_not]

/-! ### Sign extension -/

theorem sext_toInt (w : Width) (v : Quad) : (sext w v).toInt = sgn w v := by
  rw [← signed_eq, sext, BitVec.toInt_signExtend_of_le (bits_le w), signed]

/-- The value of a quadword as a signed integer has the same low bits. -/
theorem uns_eq_wrap_toInt {w : Width} {v : Quad} {n : Int} (h : v.toInt = n) : uns w v = uns w (wrap w n) := by
  refine uns_eq_wrap ?_
  have dvd : (2 : Int) ^ w.bits ∣ (2 ^ 64 : Nat) := by
    exact_mod_cast Nat.pow_dvd_pow 2 (bits_le w)
  rw [← h, BitVec.toInt_eq_toNat_bmod, ← Int.emod_emod_of_dvd _ dvd, ← Int.emod_emod_of_dvd (Int.bmod _ _) dvd, Int.bmod_emod]

/-- A sign-extended value at a width that is not smaller. -/
theorem uns_sext (w u : Width) (v : Quad) : uns w (sext u v) = uns w (wrap w (sgn u v)) := uns_eq_wrap_toInt (sext_toInt u v)

theorem sgn_neg (w : Width) (v : Quad) : sgn w v < 0 ↔ msbOf w v = true := by
  have lt := uns_lt w v
  rw [msbOf_eq, decide_eq_true_iff, sgn]
  have cast : ((2 ^ w.bits : Nat) : Int) = 2 ^ w.bits := Int.natCast_pow 2 _
  split
  · omega
  · omega

/-- Settles O21. -/
theorem signExtendAccumulator : Obligations.SignExtendAccumulator := by
  intro s tf
  have dx (w : Width) : s.start.signToDx w = s.start.writeGpr w .rdx (wrap w (if sgn w s.gpr.rax < 0 then -1 else 0)) := by
    refine writeGpr_congr ?_ _ _
    simp only [sgn_neg, show s.start.gpr.rax = s.gpr.rax from rfl]
    split
    · exact uns_eq_wrap_toInt rfl
    · exact uns_eq_wrap_toInt rfl
  refine ⟨?_, ?_, ?_, ?_, ?_, ?_⟩
  · rw [exec_cbw, execCbw, run_total tf]
    exact congrArg _ (writeGpr_congr (uns_sext .w16 .w8 _) _ _)
  · rw [exec_cwde, execCwde, run_total tf]
    exact congrArg _ (writeGpr_congr (uns_sext .w32 .w16 _) _ _)
  · rw [exec_cdqe, execCdqe, run_total tf]
    exact congrArg _ (writeGpr_congr (uns_sext .w64 .w32 _) _ _)
  · rw [exec_cwd, execCwd, run_total tf, dx]
  · rw [exec_cdq, execCdq, run_total tf, dx]
  · rw [exec_cqo, execCqo, run_total tf, dx]

end Sys2Proof.Machine
end

