-- ==== Sys2Proof/Proofs/Products.lean ====
section
/-! PROOFS. The statements about products, quotients and exchanges (42_gp_d_j.md R403, R405, R406, 43_gp_l_m.md R480, R481,
41_gp_c.md R369, R370, 46_gp_t_x.md R636, R637). -/

namespace Sys2Proof.Machine

variable {s : State} {w : Width}

/-! ### Products -/

/-- A natural number is written as the wrapped integer. -/
theorem uns_ofNat_wrap (w : Width) (n : Nat) : uns w (BitVec.ofNat 64 n) = uns w (wrap w n) := by
  rw [uns_ofNat, uns_wrap]

/-- A product keeps its low double width only. -/
theorem putProduct_emod (t : State) (w : Width) (p : Int) : t.putProduct w (p % 2 ^ (2 * w.bits)) = t.putProduct w p := by
  have low : wrap w (p % 2 ^ (2 * w.bits)) = wrap w p := by
    have dvd : (2 : Int) ^ w.bits ∣ 2 ^ (2 * w.bits) := pow_dvd_pow 2 (by omega)
    rw [wrap, wrap, Int.emod_emod_of_dvd _ dvd]
  have high : wrap w (p % 2 ^ (2 * w.bits) / 2 ^ w.bits) = wrap w (p / 2 ^ w.bits) := by
    unfold wrap
    congr 1
    cases w <;> simp only [Width.bits] <;> omega
  have byte : wrap .w16 (p % 2 ^ (2 * 8)) = wrap .w16 p := by
    rw [wrap, wrap, Width.bits, Int.emod_emod_of_dvd _ (dvd_refl _)]
  cases w with
  | w8 => exact congrArg (fun v => t.writeGpr .w16 .rax v) byte
  | w16 | w32 | w64 => simp only [State.putProduct, low, high]

theorem setProduct_nat (t : State) (w : Width) (p : Nat) : t.setProduct w p = t.putProduct w p := by
  have high : uns w (BitVec.ofNat 64 (p >>> w.bits)) = uns w (wrap w ((p : Int) / 2 ^ w.bits)) := by
    rw [uns_ofNat_wrap, Nat.shiftRight_eq_div_pow, Int.natCast_ediv, Int.natCast_pow]
    rfl
  have byte : t.writeGpr .w16 .rax (BitVec.ofNat 64 p) = t.writeGpr .w16 .rax (wrap .w16 p) :=
    writeGpr_congr (uns_ofNat_wrap .w16 p) t .rax
  cases w with
  | w8 => exact byte
  | w16 | w32 | w64 =>
    simp only [State.setProduct, State.putProduct, writeGpr_trunc, writeGpr_congr (uns_ofNat_wrap _ p), writeGpr_congr high]

/-- The double-width product of integers. -/
theorem setProduct_int (t : State) (w : Width) (p : Int) : t.setProduct w (p % 2 ^ (2 * w.bits)).toNat = t.putProduct w p := by
  have nonneg : 0 ≤ p % 2 ^ (2 * w.bits) := Int.emod_nonneg _ (by positivity)
  rw [setProduct_nat, Int.toNat_of_nonneg nonneg, putProduct_emod]

/-- A signed integer survives its wrapping exactly when it fits. -/
theorem sgn_wrap_eq_iff (w : Width) (n : Int) : sgn w (wrap w n) = n ↔ fits w n = true := by
  have low := uns_wrap_int w n
  rw [sgn, fits, Bool.and_eq_true, decide_eq_true_iff, decide_eq_true_iff]
  generalize uns w (wrap w n) = u at low
  split <;> cases w <;> simp only [Width.bits] at * <;> omega

theorem imulOver_eq (w : Width) (p : Int) : imulOver w p = !fits w p := by
  rw [imulOver, ofInt_eq, signed_eq, Bool.eq_iff_iff, bne_iff_ne, Bool.not_eq_true', ← Bool.not_eq_true, ← sgn_wrap_eq_iff]
  exact not_congr eq_comm

theorem shiftRight_ne_zero (n k : Nat) : (n >>> k != 0) = decide (2 ^ k ≤ n) := by
  rw [Bool.eq_iff_iff, bne_iff_ne, decide_eq_true_iff, Nat.shiftRight_eq_div_pow, ne_eq, Nat.div_eq_zero_iff_lt (by positivity)]
  exact Nat.not_lt

theorem finish_eq (t : State) (w : Width) (dst : Gpr) (v : Quad) (f : Flags) :
    t.finish w dst v f = (t.writeGpr w dst v).setFlags f := rfl

/-- Settles O18: the product of the operands as integers, whose low and high halves are the wrapped product and quotient. -/
theorem multiplyResult : Obligations.MultiplyResult := by
  intro s w rm dst hi lo imm b tf read
  have small := toNat_eq_uns (readRM_lt read)
  refine ⟨?_, ?_, ?_, ?_, fun prot bmi2 => ?_⟩
  · rw [exec_mul, execMul]
    apply run_ok tf
    simp only [read, ok_bind, readGpr_toNat, small, shiftRight_ne_zero, setProduct_nat]
    norm_cast
  · rw [exec_imul, execImul]
    apply run_ok tf
    simp only [read, ok_bind, setProduct_int, imulOver_eq, signed_eq, sgn_readGpr]
    rfl
  · rw [exec_imul, execImul]
    apply run_ok tf
    simp only [read, ok_bind, finish_eq, ofInt_eq, imulOver_eq, signed_eq, sgn_readGpr]
    rfl
  · rw [exec_imul, execImul]
    apply run_ok tf
    simp only [read, ok_bind, finish_eq, ofInt_eq, imulOver_eq, signed_eq]
    rfl
  · have allowed : (s.start.protMode && s.start.feat.bmi2) = true := by
      rw [start_feat, bmi2, Bool.and_true]
      exact prot
    rw [exec_mulx, execMulx]
    apply run_ok tf
    simp only [allowed, require_true, read, ok_bind, readGpr_toNat, small, trunc_ofNat, Nat.shiftRight_eq_div_pow]
    norm_cast

/-! ### Quotients -/

theorem setGpr_setReg (t : State) (r : Gpr) (u v : Quad) : (t.setReg r u).setReg r v = t.setReg r v := by
  cases r <;> rfl

/-- AX written as its two halves, AL and AH. -/
theorem writeGpr_halves (t : State) (h l : Quad) :
    t.writeGpr .w16 .rax ((trunc .w8 h <<< 8) ||| trunc .w8 l) =
      (t.writeGReg .w8 ⟨.rax, false⟩ l).writeGReg .w8 ⟨.rax, true⟩ h := by
  rw [writeGReg_eq, writeGReg_eq, setGpr_setReg, reg_setReg_same, State.writeGpr, mergeGReg_high, mergeGReg_w8]
  refine congrArg (t.setReg .rax) ((mergeGReg_w16 _ _).trans (BitVec.eq_of_getLsbD_eq fun i hi => ?_))
  simp only [BitVec.getLsbD_append, BitVec.getLsbD_extractLsb', BitVec.getLsbD_or, BitVec.getLsbD_shiftLeft, trunc_getLsbD, Width.bits]
  by_cases low : i < 8
  · simp [low, show i < 16 by omega]
  · by_cases mid : i < 16
    · simp [low, mid, show i - 8 < 8 by omega]
      omega
    · simp [low, mid, hi, Nat.sub_sub, show 16 + (i - 16) = i by omega, show ¬i - 8 < 8 by omega, show i - 16 < 48 by omega,
        show i - 8 < 56 by omega, show 8 + (i - 8) = i by omega]

theorem setQuotient_eq (t : State) (w : Width) (q r : Quad) {m n : Int} (hq : uns w q = uns w (wrap w m))
    (hr : uns w r = uns w (wrap w n)) : t.setQuotient w q r = t.putQuotient w m n := by
  cases w with
  | w8 =>
    rw [State.setQuotient, State.putQuotient, writeGpr_halves, writeGReg_congr hq, writeGReg_congr hr]
  | w16 | w32 | w64 => simp only [State.setQuotient, State.putQuotient, writeGpr_congr hq, writeGpr_congr hr]

theorem dividend_eq (t : State) (w : Width) : t.dividend w = t.unsDividend w := by
  cases w <;> simp only [State.dividend, State.unsDividend, readGpr_toNat] <;> rfl

theorem signedDividend_eq (t : State) (w : Width) : t.signedDividend w = t.sgnDividend w := by
  have high := uns_lt w t.gpr.rdx
  have low := uns_lt w t.gpr.rax
  rw [State.signedDividend, dividend_eq]
  cases w <;> simp only [State.unsDividend, State.sgnDividend, sgn, Width.bits] at * <;> omega

theorem undefineAll_eq (t : State) : t.flags.undefineAll t.freeCount = t.freed t.flags [.of, .sf, .zf, .af, .pf, .cf] := rfl

/-- An instruction that makes two checks with the same exception, and then completes. -/
theorem run_two_checks {x : Exn} {a b : Bool} {P : Prop} [Decidable P] {u : State} {body : State → Res State}
    (tf : s.flags.tf = false) (fails : (a = false ∨ b = false) ↔ P)
    (h : body s.start = require a (.exc x) >>= fun _ => require b (.exc x) >>= fun _ => .ok u) :
    run s body = if P then s.raise x else .next u := by
  simp only [← fails]
  cases a with
  | false => exact run_exc h
  | true =>
    cases b with
    | false => exact run_exc h
    | true => exact run_ok tf h

/-- Settles O19: the two checks fail exactly for a divisor of 0 and for a quotient that does not fit. -/
theorem divideResult : Obligations.DivideResult := by
  intro s w rm d tf read
  have small := toNat_eq_uns (readRM_lt read)
  refine ⟨?_, ?_⟩
  · rw [exec_div, execDiv]
    refine run_two_checks (a := uns w d != 0) (b := decide (s.unsDividend w / uns w d < 2 ^ w.bits)) tf (by simp) ?_
    simp only [read, ok_bind, dividend_eq, small]
    rw [setQuotient_eq _ _ _ _ (uns_ofNat_wrap w _) (uns_ofNat_wrap w _)]
    rfl
  · rw [exec_idiv, execIdiv]
    refine run_two_checks (a := sgn w d != 0) (b := fits w ((s.sgnDividend w).tdiv (sgn w d))) tf (by simp) ?_
    simp only [read, ok_bind, signedDividend_eq, signed_eq]
    rw [setQuotient_eq _ _ _ _ (congrArg (uns w) (ofInt_eq w _)) (congrArg (uns w) (ofInt_eq w _))]
    simp only [fits, Int.le_sub_one_iff]
    rfl

/-! ### Exchanges -/

theorem readGpr_beq {w : Width} {v : Quad} (s : State) (r : Gpr) (small : v.toNat < 2 ^ w.bits) :
    (s.readGpr w r == v) = decide (uns w (s.reg r) = uns w v) := by
  rw [Bool.eq_iff_iff, beq_iff_eq, decide_eq_true_iff, ← BitVec.toNat_inj, readGpr_toNat, toNat_eq_uns small]

theorem cmpxchgPair_eq {t : State} {h : Width} {m : Mem} {ps : List Nat}
    (access : t.accessParts (segFault m.seg) m.seg (t.ea m) (2 * h.bytes) h.bytes true = .ok ps) :
    t.cmpxchgPair h m = .ok (if uns h t.gpr.rdx * 2 ^ h.bits + uns h t.gpr.rax = t.loadAt ps then
      (t.storeAt ps (uns h t.gpr.rcx * 2 ^ h.bits + uns h t.gpr.rbx)).setFlags { t.flags with zf := true }
    else
      (((t.storeAt ps (t.loadAt ps)).writeGpr h .rdx (wrap h (t.loadAt ps / 2 ^ h.bits : Nat))).writeGpr h .rax
        (wrap h (t.loadAt ps))).setFlags { t.flags with zf := false }) := by
  rw [State.cmpxchgPair, access, ok_bind]
  simp only [readGpr_toNat, beq_iff_eq, trunc_ofNat, writeGpr_congr (uns_ofNat_wrap _ _), Nat.shiftRight_eq_div_pow]
  exact (apply_ite Except.ok _ _ _).symm

/-- A linear address is a multiple of 16 by its low four bits. -/
theorem aligned16_iff (lin : Quad) : (lin.extractLsb' 0 4 == 0) = decide (lin.toNat % 16 = 0) := by
  rw [Bool.eq_iff_iff, beq_iff_eq, decide_eq_true_iff, ← BitVec.toNat_inj, BitVec.extractLsb'_toNat, Nat.shiftRight_zero]
  rfl

/-- A 16-byte access at a multiple of 16 passes the alignment check of its 8-byte parts. -/
theorem accessParts_of_aligned16 {t : State} {seg : SegName} {off : Quad} {ps : List Nat} {write : Bool}
    (aligned : (t.linear seg off).toNat % 16 = 0) (h : t.access seg off 16 write = .ok ps) :
    t.accessParts (segFault seg) seg off 16 8 write = .ok ps := by
  obtain ⟨check, -, span⟩ := accessParts_ok.mp h
  refine accessParts_ok.mpr ⟨check, require_ok.mpr ?_, span⟩
  simp [show (t.linear seg off).toNat % 8 = 0 by omega]

/-- Settles O20. -/
theorem exchangeResult : Obligations.ExchangeResult := by
  refine ⟨fun s w rm r lock p tf legal place => ⟨?_, ?_, ?_⟩, fun s m lock ps tf => ⟨fun feat access => ?_, fun feat aligned access => ?_,
    fun feat unaligned => ?_⟩⟩
  · rw [exec_xadd, execXadd]
    apply run_ok tf
    simp only [checkLock_ok legal, place, ok_bind, addFlags_eq]
    simp
  · rw [exec_xchg, execXchg]
    apply run_ok tf
    simp only [checkLock_ok legal, place, ok_bind]
  · have flags := diffFlags_congr (uns_readGpr s w .rax) (rfl : uns w (s.start.getAt w p) = _) s.start.flags false
    rw [exec_cmpxchg, execCmpxchg]
    apply run_ok tf
    simp only [checkLock_ok legal, place, ok_bind, subFlags_eq, start_readGpr, flags, readGpr_beq s .rax (getAt_lt place),
      decide_eq_true_iff]
    rfl
  · rw [exec_cmpxchg8b, execCmpxchg8b, ← apply_ite Host.Outcome.next]
    apply run_ok tf
    simp only [start_feat, feat, require_true, ok_bind]
    exact cmpxchgPair_eq access
  · rw [exec_cmpxchg16b, execCmpxchg16b, ← apply_ite Host.Outcome.next]
    apply run_ok tf
    simp only [start_feat, feat, require_true, ok_bind, aligned16_iff, aligned, decide_true]
    rw [cmpxchgPair_eq (h := .w64) (accessParts_of_aligned16 aligned access)]
    simp only [uns_w64]
    rfl
  · rw [exec_cmpxchg16b, execCmpxchg16b]
    apply run_exc
    simp only [start_feat, feat, require_true, ok_bind, aligned16_iff, unaligned, decide_false]
    rfl

end Sys2Proof.Machine
end

