-- ==== Sys2Proof/Proofs/Decimal.lean ====
section
/-! PROOFS. The statement about the decimal adjustments (40_gp_a_b.md R302, R305, 42_gp_d_j.md R400, R401). -/

namespace Sys2Proof.Machine

/-- AH as an integer. -/
def ahInt (s : State) : Int := s.gpr.rax.toNat / 256 % 256

/-- AL as an integer. -/
def alInt (s : State) : Int := s.gpr.rax.toNat % 256

/-- The low nibble is adjusted. -/
def adjustsLow (s : State) : Bool := decide (9 < alInt s % 16) || s.flags.af

/-- The high digit is adjusted. -/
def adjustsHigh (s : State) : Bool := decide (0x99 < alInt s) || s.flags.cf

theorem al_toNat (s : State) : (s.al.toNat : Int) = alInt s := congrArg Nat.cast (readGpr_toNat s .w8 .rax)

theorem ah_toNat (s : State) : (s.ah.toNat : Int) = ahInt s := by
  rw [State.ah, trunc_toNat, uns, BitVec.toNat_ushiftRight, Nat.shiftRight_eq_div_pow]
  rfl

theorem lowNibble_toNat (v : Quad) : (v &&& 0xF).toNat = v.toNat % 16 := by
  rw [BitVec.toNat_and]
  exact Nat.and_two_pow_sub_one_eq_mod v.toNat 4

theorem adjustLow_eq (s : State) : s.adjustLow = adjustsLow s := by
  have nibble : 9 < (s.al &&& 0xF) ↔ 9 < alInt s % 16 := by
    rw [BitVec.lt_def, lowNibble_toNat, ← al_toNat, show (9 : Quad).toNat = 9 from rfl]
    omega
  rw [State.adjustLow, adjustsLow, decide_eq_decide.mpr nibble]

theorem add_toNat_emod {m : Nat} (dvd : m ∣ 2 ^ 64) (u v : Quad) : ((u + v).toNat : Int) % m = (u.toNat + v.toNat : Int) % m := by
  rw [BitVec.toNat_add, Int.natCast_mod, Int.emod_emod_of_dvd _ (by exact_mod_cast dvd)]
  push_cast
  rfl

/-- Two bytes joined. -/
theorem joined_toNat (h l : Quad) : ((trunc .w8 h <<< 8) ||| trunc .w8 l).toNat = 256 * uns .w8 h + uns .w8 l := by
  have low := uns_lt .w8 l
  have high := uns_lt .w8 h
  rw [Width.bits] at low high
  rw [BitVec.toNat_or, BitVec.toNat_shiftLeft, trunc_toNat, trunc_toNat, Nat.shiftLeft_eq, Nat.mod_eq_of_lt (by omega), Nat.mul_comm]
  exact (Nat.two_pow_add_eq_or_of_lt low _).symm

/-- AX written as the numbers of its halves. -/
theorem setAx_eq (t : State) {h l : Quad} {m n : Int} (hh : (h.toNat : Int) % 256 = m % 256) (hl : (l.toNat : Int) = n) (small : n < 256) :
    t.setAx h l = t.writeGpr .w16 .rax (wrap .w16 (256 * (m % 256) + n)) := by
  refine writeGpr_congr (uns_eq_wrap ?_) t .rax
  rw [joined_toNat, uns, uns]
  simp only [Width.bits]
  omega

/-- The ASCII adjustments move AH by `d` and AL by `6 * d`. -/
theorem asciiAdjust_eq {t : State} {dh dl : Quad} {d : Int} (mode : t.mode64 = false) (hh : (dh.toNat : Int) % 256 = d % 256)
    (hl : (dl.toNat : Int) % 16 = 6 * d % 16) :
    t.asciiAdjust dh dl = .ok ((t.writeGpr .w16 .rax (wrap .w16
      (if adjustsLow t then 256 * ((ahInt t + d) % 256) + (alInt t + 6 * d) % 16
        else 256 * ahInt t + alInt t % 16))).setFlags
      (t.freed { t.flags with cf := adjustsLow t, af := adjustsLow t } [.of, .sf, .zf, .pf])) := by
  have high : ((t.ah + dh).toNat : Int) % 256 = (ahInt t + d) % 256 := by
    have := add_toNat_emod (m := 256) (by decide) t.ah dh
    rw [ah_toNat] at this
    omega
  have low : (((t.al + dl) &&& 0xF).toNat : Int) = (alInt t + 6 * d) % 16 := by
    have := add_toNat_emod (m := 16) (by decide) t.al dl
    rw [al_toNat] at this
    rw [lowNibble_toNat]
    omega
  have byte : 0 ≤ ahInt t ∧ ahInt t < 256 := ⟨Int.emod_nonneg _ (by decide), Int.emod_lt_of_pos _ (by decide)⟩
  simp only [State.asciiAdjust, mode, Bool.not_false, require_true, ok_bind, adjustLow_eq]
  cases adjustsLow t with
  | true =>
    rw [if_pos rfl, if_pos rfl, setAx_eq t high low (by omega)]
    rfl
  | false =>
    rw [if_neg Bool.false_ne_true, if_neg Bool.false_ne_true, setAx_eq t (m := ahInt t) (n := alInt t % 16) (by rw [ah_toNat])
      (by rw [lowNibble_toNat, ← al_toNat]; rfl) (by omega),
      Int.emod_eq_of_lt byte.1 byte.2]
    rfl

/-- The low bits of a sum of quadwords are those of the sum of the integers that they stand for. -/
theorem trunc_add_eq_wrap {w : Width} {u v : Quad} {m n : Int} (hu : (u.toNat : Int) % 2 ^ w.bits = m % 2 ^ w.bits)
    (hv : (v.toNat : Int) % 2 ^ w.bits = n % 2 ^ w.bits) : trunc w (u + v) = wrap w (m + n) := by
  have sum := add_toNat_emod (Nat.pow_dvd_pow 2 (bits_le w)) u v
  push_cast at sum
  refine eq_wrap (by rw [trunc_toNat]; exact uns_lt w _) ?_
  rw [trunc_toNat, uns]
  push_cast
  refine (Int.emod_emod _ _).trans (sum.trans ?_)
  rw [Int.add_emod, hu, hv, ← Int.add_emod]

/-- The packed adjustments move AL by `6 * d` and `0x60 * d`. -/
theorem decimalAdjust_eq {t : State} {low high : Quad} {d : Int} (mode : t.mode64 = false) (hl : (low.toNat : Int) % 256 = 6 * d % 256)
    (hh : (high.toNat : Int) % 256 = 0x60 * d % 256) :
    t.decimalAdjust low high =
      let r := wrap .w8 (alInt t + (if adjustsLow t then 6 * d else 0) + (if adjustsHigh t then 0x60 * d else 0))
      .ok ((t.writeGpr .w8 .rax r).setFlags
        (t.freed (valueFlags { t.flags with af := adjustsLow t, cf := adjustsHigh t } .w8 r) [.of])) := by
  have al : t.al = wrap .w8 (alInt t) := eq_wrap (readGpr_lt t .w8 .rax) (by rw [al_toNat])
  have wrapped (n : Int) : ((wrap .w8 n).toNat : Int) % 2 ^ Width.w8.bits = n % 2 ^ Width.w8.bits := by
    rw [wrap_toNat]
    exact Int.emod_emod _ _
  have carry : (decide (0x99 < t.al) || t.flags.cf) = adjustsHigh t := by
    have digits : 0x99 < t.al ↔ 0x99 < alInt t := by
      rw [BitVec.lt_def, ← al_toNat, show (0x99 : Quad).toNat = 0x99 from rfl]
      omega
    rw [adjustsHigh, decide_eq_decide.mpr digits]
  have af : (t.flags.af || adjustsLow t) = adjustsLow t := by
    rw [adjustsLow, Bool.or_comm, Bool.or_assoc, Bool.or_self]
  have cf : (t.flags.cf || adjustsHigh t) = adjustsHigh t := by
    rw [adjustsHigh, Bool.or_comm, Bool.or_assoc, Bool.or_self]
  have value : (if adjustsHigh t then trunc .w8 ((if adjustsLow t then trunc .w8 (t.al + low) else t.al) + high)
      else if adjustsLow t then trunc .w8 (t.al + low) else t.al) =
      wrap .w8 (alInt t + (if adjustsLow t then 6 * d else 0) + (if adjustsHigh t then 0x60 * d else 0)) := by
    rw [al]
    cases adjustsLow t <;> cases adjustsHigh t <;>
      simp only [Bool.false_eq_true, if_true, if_false, trunc_add_eq_wrap (wrapped _) hl, trunc_add_eq_wrap (wrapped _) hh, Int.add_zero]
  rw [State.decimalAdjust, mode, Bool.not_false, require_true, ok_bind, adjustLow_eq]
  simp only [carry, af, cf, value, result_eq]
  rfl

/-- Settles O23. -/
theorem decimalAdjust : Obligations.DecimalAdjust := by
  refine fun s tf => ⟨fun mode => ⟨?_, ?_, ?_, ?_⟩, fun mode i listed => ?_⟩
  · rw [exec_aaa, execAaa]
    exact run_ok tf (asciiAdjust_eq (d := 1) mode (by decide) (by decide))
  · rw [exec_aas, execAas]
    exact run_ok tf (asciiAdjust_eq (d := -1) mode (by decide) (by decide))
  · rw [exec_daa, execDaa]
    exact run_ok tf (decimalAdjust_eq (d := 1) mode (by decide) (by decide))
  · rw [exec_das, execDas]
    exact run_ok tf (decimalAdjust_eq (d := -1) mode (by decide) (by decide))
  · simp only [List.mem_cons, List.not_mem_nil, or_false] at listed
    have no {dh dl : Quad} : s.start.asciiAdjust dh dl = .error ud := by rw [State.asciiAdjust, start_mode64, mode]; rfl
    have no' {low high : Quad} : s.start.decimalAdjust low high = .error ud := by rw [State.decimalAdjust, start_mode64, mode]; rfl
    rcases listed with rfl | rfl | rfl | rfl
    · rw [exec_aaa, execAaa]
      exact run_exc no
    · rw [exec_aas, execAas]
      exact run_exc no
    · rw [exec_daa, execDaa]
      exact run_exc no'
    · rw [exec_das, execDas]
      exact run_exc no'

end Sys2Proof.Machine
end

