-- ==== Sys2Proof/Proofs/Scans.lean ====
section
/-! PROOFS. The statement about bit scans, bit counts and CRC32 (40_gp_a_b.md R326, R327, 43_gp_l_m.md R461, 44_gp_n_p.md R525,
46_gp_t_x.md R632, 41_gp_c.md R372). -/

namespace Sys2Proof.Machine

variable {s : State} {w : Width}

/-! ### The positions of the ones -/

/-- The positions of the ones among the lowest `n` bits. -/
def onesBelow (n : Nat) (v : Quad) : List Nat := (List.range n).filter fun i => v.getLsbD i

theorem onePositions_eq (w : Width) (v : Quad) : onePositions w v = onesBelow w.bits v := rfl

/-- The lowest bit, and the ones of the other bits. -/
theorem onesBelow_low (n : Nat) (v : Quad) :
    onesBelow (n + 1) v = (if v.getLsbD 0 then [0] else []) ++ (onesBelow n (v >>> 1)).map (· + 1) := by
  have shifted : (fun i => v.getLsbD i) ∘ Nat.succ = fun i => (v >>> 1).getLsbD i := by
    funext i
    simp [Nat.add_comm]
  rw [onesBelow, List.range_succ_eq_map, List.filter_cons, List.filter_map, shifted]
  split <;> rfl

/-- The highest bit, and the ones of the other bits. -/
theorem onesBelow_high (n : Nat) (v : Quad) : onesBelow (n + 1) v = onesBelow n v ++ if v.getLsbD n then [n] else [] := by
  rw [onesBelow, List.range_succ, List.filter_append]
  congr 1
  simp only [List.filter_cons, List.filter_nil]

theorem trailingZeros_eq (n : Nat) (v : Quad) : trailingZeros n v = (onesBelow n v).headD n := by
  induction n generalizing v with
  | zero => rfl
  | succ n ih =>
    rw [trailingZeros, onesBelow_low, ih]
    split
    · rfl
    · cases onesBelow n (v >>> 1) <;> rfl

theorem leadingZeros_eq (n : Nat) (v : Quad) : leadingZeros n v + ((onesBelow n v).reverse.map (· + 1)).headD 0 = n := by
  induction n with
  | zero => rfl
  | succ n ih =>
    rw [leadingZeros, onesBelow_high]
    split
    · simp
    · simp only [List.append_nil]
      omega

theorem onesCount_eq (n : Nat) (v : Quad) : onesCount n v = (onesBelow n v).length := by
  induction n with
  | zero => rfl
  | succ n ih =>
    rw [onesCount, onesBelow_high, List.length_append, ih]
    cases v.getLsbD n <;> rfl

/-- A value without bits above the width is 0 when it has no ones. -/
theorem onePositions_nil {v : Quad} (small : v.toNat < 2 ^ w.bits) : (v == 0) = (onePositions w v).isEmpty := by
  rw [Bool.eq_iff_iff, beq_iff_eq, List.isEmpty_iff, onePositions, List.filter_eq_nil_iff]
  constructor
  · rintro rfl i -
    simp
  · intro no
    refine BitVec.eq_of_getLsbD_eq fun i _ => ?_
    by_cases h : i < w.bits
    · simpa using no i (List.mem_range.mpr h)
    · rw [BitVec.getLsbD, Nat.testBit_lt_two_pow (Nat.lt_of_lt_of_le small (Nat.pow_le_pow_right (by decide) (by omega)))]
      simp

/-! ### Scans and counts -/

/-- What a scan leaves that goes through the ones in the order `l`. -/
def State.scanned (s : State) (w : Width) (dst : Gpr) (l : List Nat) : State :=
  match l with
  | [] => s.start.setFlags (s.start.freed { s.start.flags with zf := true } [.of, .sf, .af, .pf, .cf])
  | n :: _ => (s.start.writeGpr w dst (BitVec.ofNat 64 n)).setFlags
      (s.start.freed { s.start.flags with zf := false } [.of, .sf, .af, .pf, .cf])

theorem bitScan_eq {dst : Gpr} {src : RM} {v : Quad} {index : Quad → Nat} (l : List Nat) (read : s.start.readRM w src = .ok v)
    (zero : (v == 0) = l.isEmpty) (first : ∀ n m, l = n :: m → index v = n) :
    s.start.bitScan w dst src index = .ok (s.scanned w dst l) := by
  rw [State.bitScan, read, ok_bind, zero]
  cases l with
  | nil => rfl
  | cons n m =>
    rw [first n m rfl]
    rfl

theorem bitScan_low {dst : Gpr} {src : RM} {v : Quad} (read : s.start.readRM w src = .ok v) :
    s.start.bitScan w dst src (trailingZeros w.bits) = .ok (s.scanned w dst (onePositions w v)) := by
  refine bitScan_eq _ read (onePositions_nil (readRM_lt read)) fun n m h => ?_
  rw [trailingZeros_eq, ← onePositions_eq, h]
  rfl

theorem bitScan_high {dst : Gpr} {src : RM} {v : Quad} (read : s.start.readRM w src = .ok v) :
    s.start.bitScan w dst src (highestOne w) = .ok (s.scanned w dst (onePositions w v).reverse) := by
  refine bitScan_eq _ read ((onePositions_nil (readRM_lt read)).trans (by simp)) fun n m h => ?_
  have high := leadingZeros_eq w.bits v
  rw [← onePositions_eq, h] at high
  simp only [List.map_cons, List.headD_cons] at high
  rw [highestOne]
  omega

theorem zeroCount_eq {dst : Gpr} {src : RM} {v : Quad} {count : Quad → Nat} {n : Nat} (read : s.start.readRM w src = .ok v)
    (value : count v = n) (all : (v == 0) = (n == w.bits)) :
    s.start.zeroCount w dst src count = .ok ((s.start.writeGpr w dst (BitVec.ofNat 64 n)).setFlags
      (s.start.freed { s.start.flags with zf := n == 0, cf := n == w.bits } [.of, .sf, .af, .pf])) := by
  rw [State.zeroCount, read, ok_bind, all, value]
  rfl

theorem mem_onePositions {v : Quad} {i : Nat} (h : i ∈ onePositions w v) : i < w.bits :=
  List.mem_range.mp (List.mem_of_mem_filter h)

theorem headD_eq_bits {v : Quad} (small : v.toNat < 2 ^ w.bits) : (v == 0) = ((onePositions w v).headD w.bits == w.bits) := by
  rw [onePositions_nil small]
  cases h : onePositions w v with
  | nil => simp
  | cons n m =>
    have lt : n < w.bits := mem_onePositions (h ▸ List.mem_cons_self)
    simpa using Nat.ne_of_lt lt

theorem high_eq_bits {v : Quad} (small : v.toNat < 2 ^ w.bits) :
    (v == 0) = (w.bits - ((onePositions w v).reverse.map (· + 1)).headD 0 == w.bits) := by
  have pos := bits_pos w
  rw [onePositions_nil small, ← List.isEmpty_reverse]
  cases h : (onePositions w v).reverse with
  | nil => simp
  | cons n m =>
    simp
    omega

/-! ### CRC-32C -/

/-- One bit of the reflected checksum. -/
def crcFold (x : Nat) : Nat := if x % 2 = 1 then x / 2 ^^^ 0x82F63B78 else x / 2

/-- One bit of the remainder in the order of the polynomial. -/
def crcShift (a : Nat) (b : Bool) : Nat :=
  let c := (a <<< 1) ^^^ (b.toNat <<< 32)
  if c.testBit 32 then c ^^^ 0x11EDC6F41 else c

theorem reverseBits_lt (n v : Nat) : reverseBits n v < 2 ^ n := by
  induction n generalizing v with
  | zero => exact Nat.one_pos
  | succ n ih =>
    have rest := ih (v / 2)
    have bit : v % 2 * 2 ^ n ≤ 1 * 2 ^ n := Nat.mul_le_mul_right _ (by omega)
    rw [reverseBits, Nat.pow_succ]
    omega

theorem reverseBits_testBit (n v i : Nat) : (reverseBits n v).testBit i = (decide (i < n) && v.testBit (n - 1 - i)) := by
  induction n generalizing v i with
  | zero => simp [reverseBits]
  | succ n ih =>
    rw [reverseBits, Nat.mul_comm, Nat.testBit_two_pow_mul_add _ (reverseBits_lt n _)]
    split
    next low =>
      rw [ih, Nat.testBit_div_two]
      simp [low, show i < n + 1 by omega, show n - 1 - i + 1 = n - i by omega]
    next high =>
      by_cases top : i = n
      · simp [top]
      · obtain ⟨k, hk⟩ : ∃ k, i - n = k + 1 := ⟨i - n - 1, by omega⟩
        rw [hk, Nat.testBit_succ, show v % 2 / 2 = 0 by omega]
        simp [show ¬i < n + 1 by omega]

theorem reverseBits_succ (n v : Nat) : reverseBits (n + 1) v = ((v.testBit 0).toNat <<< n) ^^^ reverseBits n (v / 2) := by
  have low : (v.testBit 0).toNat = v % 2 := by
    rw [Nat.testBit_zero]
    rcases Nat.mod_two_eq_zero_or_one v with h | h <;> simp [h]
  rw [reverseBits, low, Nat.mul_comm, Nat.two_pow_add_eq_or_of_lt (reverseBits_lt n _), Nat.shiftLeft_eq, Nat.mul_comm (v % 2)]
  refine Nat.eq_of_testBit_eq fun i => ?_
  rw [Nat.testBit_or, Nat.testBit_xor, Nat.testBit_two_pow_mul, reverseBits_testBit]
  by_cases h : i < n
  · simp [h, Nat.not_le.mpr h]
  · simp [h]

theorem testBit_of_lt {n v i : Nat} (h : v < 2 ^ n) (le : n ≤ i) : v.testBit i = false :=
  Nat.testBit_lt_two_pow (Nat.lt_of_lt_of_le h (Nat.pow_le_pow_right (by decide) le))

theorem reverseBits_reverseBits {n v : Nat} (h : v < 2 ^ n) : reverseBits n (reverseBits n v) = v := by
  refine Nat.eq_of_testBit_eq fun i => ?_
  rw [reverseBits_testBit, reverseBits_testBit]
  by_cases low : i < n
  · simp [low, show n - 1 - i < n by omega, show n - 1 - (n - 1 - i) = i by omega]
  · simp [low, testBit_of_lt h (Nat.not_lt.mp low)]

/-- The bits of the two forms of the polynomial. -/
theorem poly_testBit (i : Nat) (h : i < 32) : (0x11EDC6F41).testBit i = (0x82F63B78).testBit (31 - i) := by
  revert i
  decide

theorem crcFold_testBit (x : Nat) (b : Bool) (i : Nat) :
    (crcFold (x ^^^ b.toNat)).testBit i = (x.testBit (i + 1) ^^ ((x.testBit 0 ^^ b) && (0x82F63B78).testBit i)) := by
  have low : decide ((x ^^^ b.toNat) % 2 = 1) = (x.testBit 0 ^^ b) := by
    rw [← Nat.testBit_zero, Nat.testBit_xor]
    cases b <;> simp
  have high : ((x ^^^ b.toNat) / 2).testBit i = x.testBit (i + 1) := by
    rw [Nat.testBit_div_two, Nat.testBit_xor]
    cases b <;> simp [Nat.testBit_succ]
  rw [crcFold, ← low]
  by_cases odd : (x ^^^ b.toNat) % 2 = 1
  · rw [if_pos odd, Nat.testBit_xor, high, decide_eq_true odd, Bool.true_and]
  · rw [if_neg odd, high, decide_eq_false odd, Bool.false_and, Bool.xor_false]

theorem crcShift_testBit (a : Nat) (b : Bool) (i : Nat) :
    (crcShift a b).testBit i = (((decide (1 ≤ i) && a.testBit (i - 1)) ^^ (decide (i = 32) && b)) ^^
      ((a.testBit 31 ^^ b) && (0x11EDC6F41).testBit i)) := by
  have bits (i : Nat) : ((a <<< 1) ^^^ (b.toNat <<< 32)).testBit i = ((decide (1 ≤ i) && a.testBit (i - 1)) ^^ (decide (i = 32) && b)) := by
    rw [Nat.testBit_xor, Nat.testBit_shiftLeft, Nat.testBit_shiftLeft]
    congr 1
    rcases Nat.lt_trichotomy i 32 with lt | rfl | gt
    · simp [Nat.not_le.mpr lt, Nat.ne_of_lt lt]
    · cases b <;> simp
    · obtain ⟨k, hk⟩ : ∃ k, i - 32 = k + 1 := ⟨i - 33, by omega⟩
      rw [hk, Nat.testBit_succ]
      cases b <;> simp [Nat.ne_of_gt gt]
  have top : ((a <<< 1) ^^^ (b.toNat <<< 32)).testBit 32 = (a.testBit 31 ^^ b) := (bits 32).trans (by simp)
  simp only [crcShift, top]
  cases (a.testBit 31 ^^ b) with
  | true => rw [if_pos rfl, Nat.testBit_xor, bits, Bool.true_and]
  | false => rw [if_neg Bool.false_ne_true, bits, Bool.false_and, Bool.xor_false]

/-- A bit of the checksum in either order. -/
theorem reverseBits_crcFold (x : Nat) (b : Bool) (h : x < 2 ^ 32) :
    reverseBits 32 (crcFold (x ^^^ b.toNat)) = crcShift (reverseBits 32 x) b := by
  refine Nat.eq_of_testBit_eq fun i => ?_
  rw [reverseBits_testBit, crcFold_testBit, crcShift_testBit, reverseBits_testBit, reverseBits_testBit]
  rcases Nat.lt_trichotomy i 32 with lt | rfl | gt
  · rw [poly_testBit i lt]
    by_cases low : i = 0
    · subst low
      simp [testBit_of_lt h (le_refl 32)]
    · simp [lt, Nat.ne_of_lt lt, show 1 ≤ i by omega, show i - 1 < 32 by omega, show 31 - i + 1 = 32 - i by omega,
        show 31 - (i - 1) = 32 - i by omega]
  · have high : (0x11EDC6F41).testBit 32 = true := by decide
    rw [high]
    cases x.testBit 0 <;> cases b <;> rfl
  · rw [testBit_of_lt (n := 33) (i := i) (by decide) gt]
    simp [Nat.ne_of_gt gt, show ¬i < 32 by omega, show ¬i - 1 < 32 by omega]

theorem crcFold_lt {x : Nat} (b : Bool) (h : x < 2 ^ 32) : crcFold (x ^^^ b.toNat) < 2 ^ 32 := by
  refine Nat.lt_pow_two_of_testBit _ fun i high => ?_
  rw [crcFold_testBit, testBit_of_lt h (by omega), testBit_of_lt (n := 32) (by decide) high]
  simp

/-- The remainder over the reversed bits is the reversed checksum. -/
theorem crcRem_eq (k x b : Nat) (h : x < 2 ^ 32) :
    crcRem k ((reverseBits 32 x <<< k) ^^^ (reverseBits k b <<< 32)) =
      reverseBits 32 ((List.range k).foldl (fun acc i => crcFold (acc ^^^ (b.testBit i).toNat)) x) ∧
    (List.range k).foldl (fun acc i => crcFold (acc ^^^ (b.testBit i).toNat)) x < 2 ^ 32 := by
  induction k generalizing x b with
  | zero => simpa [crcRem, reverseBits] using h
  | succ k ih =>
    have step : (reverseBits 32 x <<< (k + 1)) ^^^ (reverseBits (k + 1) b <<< 32) =
        ((reverseBits 32 x <<< 1 ^^^ ((b.testBit 0).toNat <<< 32)) <<< k) ^^^ (reverseBits k (b / 2) <<< 32) := by
      rw [reverseBits_succ k, Nat.shiftLeft_xor_distrib, Nat.shiftLeft_xor_distrib, ← Nat.shiftLeft_add, ← Nat.shiftLeft_add,
        ← Nat.shiftLeft_add, Nat.xor_assoc, Nat.add_comm k 1, Nat.add_comm k 32]
    have rest := ih (crcFold (x ^^^ (b.testBit 0).toNat)) (b / 2) (crcFold_lt _ h)
    rw [reverseBits_crcFold _ _ h, crcShift] at rest
    rw [List.range_succ_eq_map, List.foldl_cons, List.foldl_map, crcRem, step]
    have outside : ((reverseBits k (b / 2)) <<< 32).testBit (32 + k) = false := by
      rw [Nat.testBit_shiftLeft, testBit_of_lt (reverseBits_lt k _) (by omega), Bool.and_false]
    have inside (c : Nat) : (c <<< k).testBit (32 + k) = c.testBit 32 := by
      rw [Nat.testBit_shiftLeft, Nat.add_sub_cancel]
      simp
    rw [Nat.testBit_xor, outside, inside, Bool.xor_false]
    simp only [Nat.succ_eq_add_one, Nat.testBit_add_one b]
    split at rest
    next top =>
      rw [if_pos top, Nat.xor_right_comm, ← Nat.shiftLeft_xor_distrib]
      exact rest
    next low =>
      rw [if_neg low]
      exact rest

theorem crc32Step_eq {x : Nat} (k b : Nat) (h : x < 2 ^ 32) :
    crc32Step k x b = (List.range k).foldl (fun acc i => crcFold (acc ^^^ (b.testBit i).toNat)) x := by
  obtain ⟨rem, lt⟩ := crcRem_eq k x b h
  rw [crc32Step, rem, reverseBits_reverseBits lt]

/-- A 32-bit write of a value of 32 bits is a write of the register. -/
theorem writeGpr_w32_of_lt (t : State) (r : Gpr) {n : Nat} (h : n < 2 ^ 32) :
    t.writeGpr .w32 r (BitVec.ofNat 64 n) = t.writeGpr .w64 r (BitVec.ofNat 64 n) := by
  have whole : trunc .w32 (BitVec.ofNat 64 n) = BitVec.ofNat 64 n := by
    rw [trunc_ofNat]
    refine (eq_wrap ?_ ?_).symm
    · rw [BitVec.toNat_ofNat, Nat.mod_eq_of_lt (by omega)]
      exact h
    · rw [BitVec.toNat_ofNat, Nat.mod_eq_of_lt (by omega)]
  rw [State.writeGpr, State.writeGpr, mergeReg, mergeReg, whole]

/-- Settles O24. -/
theorem bitScanAndCrcResult : Obligations.BitScanAndCrcResult := by
  refine ⟨fun s w dst src v tf read => ?_, fun s w wide dst src b tf sse42 read => ?_⟩
  · have small := readRM_lt read
    refine ⟨?_, ?_, fun abm => ?_, fun abm => ?_, fun bmi1 => ?_, fun bmi1 => ?_, fun popcnt => ?_⟩
    · rw [exec_bsf, execBsf]
      refine (run_ok tf (bitScan_low read)).trans ?_
      cases onePositions w v <;> rfl
    · rw [exec_bsr, execBsr]
      refine (run_ok tf (bitScan_high read)).trans ?_
      cases (onePositions w v).reverse <;> rfl
    · rw [exec_lzcnt, execLzcnt]
      apply run_ok tf
      have value := leadingZeros_eq w.bits v
      rw [start_feat, abm, if_pos rfl]
      exact zeroCount_eq read (by rw [onePositions_eq]; omega) (high_eq_bits small)
    · rw [exec_lzcnt, execLzcnt]
      refine (run_ok (t := s.scanned w dst (onePositions w v).reverse) tf ?_).trans ?_
      · rw [start_feat, abm, if_neg Bool.false_ne_true, bitScan_high read]
      · cases (onePositions w v).reverse <;> rfl
    · rw [exec_tzcnt, execTzcnt]
      apply run_ok tf
      rw [start_feat, bmi1, if_pos rfl]
      exact zeroCount_eq read (trailingZeros_eq w.bits v) (headD_eq_bits small)
    · rw [exec_tzcnt, execTzcnt]
      refine (run_ok (t := s.scanned w dst (onePositions w v)) tf ?_).trans ?_
      · rw [start_feat, bmi1, if_neg Bool.false_ne_true, bitScan_low read]
      · cases onePositions w v <;> rfl
    · rw [exec_popcnt, execPopcnt]
      apply run_ok tf
      simp only [start_feat, popcnt, require_true, ok_bind, read, onesCount_eq, onePositions_nil small, finish_eq]
      rfl
  · have low : uns .w32 (s.reg dst) < 2 ^ 32 := uns_lt .w32 _
    have crc := crc32Step_eq w.bits b.toNat low
    have small := (crcRem_eq w.bits _ b.toNat low).2
    rw [← crc] at small
    rw [exec_crc32, execCrc32]
    apply run_ok tf
    simp only [start_feat, sse42, require_true, read, ok_bind, start_readGpr, readGpr_toNat]
    cases wide with
    | true =>
      rw [if_pos rfl, crc]
      rfl
    | false =>
      rw [if_neg Bool.false_ne_true, writeGpr_w32_of_lt _ _ small, crc]
      rfl

end Sys2Proof.Machine
end

