-- ==== Sys2Proof/Proofs/BitFields.lean ====
section
/-! PROOFS. Values by their bits, and the statement about bit tests (40_gp_a_b.md R329 to R333). -/

namespace Sys2Proof.Machine

variable {s : State} {w : Width}

/-! ### Values by their bits -/

/-- Values with the same bits below the width are written alike. -/
theorem uns_eq_of_bits {u v : Quad} (h : ∀ i < w.bits, u.getLsbD i = v.getLsbD i) : uns w u = uns w v := by
  refine Nat.eq_of_testBit_eq fun i => ?_
  rw [uns, uns, Nat.testBit_mod_two_pow, Nat.testBit_mod_two_pow]
  by_cases low : i < w.bits
  · rw [show u.toNat.testBit i = v.toNat.testBit i from h i low]
  · simp [low]

/-- A value with no bits above the width is determined by those below it. -/
theorem eq_of_bits {u v : Quad} (hu : u.toNat < 2 ^ w.bits) (hv : v.toNat < 2 ^ w.bits)
    (h : ∀ i < w.bits, u.getLsbD i = v.getLsbD i) : u = v :=
  BitVec.eq_of_toNat_eq (by rw [toNat_eq_uns hu, toNat_eq_uns hv, uns_eq_of_bits h])

theorem oneBit_getLsbD (n i : Nat) : ((1 : Quad) <<< n).getLsbD i = (decide (i < 64) && i == n) := by
  rw [BitVec.getLsbD_shiftLeft]
  rcases Nat.lt_trichotomy i n with lt | rfl | gt
  · simp [lt, Nat.ne_of_lt lt]
  · by_cases h : i < 64 <;> simp [h]
  · simp [Nat.ne_of_gt gt, show i - n ≠ 0 by omega]

theorem ofBits_foldl_getLsbD (p : Nat → Bool) (n i : Nat) (h : n ≤ 64) :
    ((List.range n).foldl (fun v k => if p k then v ||| ((1 : Quad) <<< k) else v) 0).getLsbD i = (decide (i < n) && p i) := by
  induction n with
  | zero => simp
  | succ n ih =>
    rw [List.range_succ, List.foldl_append, List.foldl_cons, List.foldl_nil]
    by_cases eq : i = n
    · subst eq
      cases hp : p i with
      | true => rw [if_pos rfl, BitVec.getLsbD_or, ih (by omega), oneBit_getLsbD]; simp; omega
      | false => rw [if_neg Bool.false_ne_true, ih (by omega)]; simp [hp]
    · have lt : decide (i < n + 1) = decide (i < n) := decide_eq_decide.mpr (by omega)
      rw [lt, ← ih (by omega)]
      split
      · rw [BitVec.getLsbD_or, oneBit_getLsbD, beq_false_of_ne eq, Bool.and_false, Bool.or_false]
      · rfl

theorem ofBits_getLsbD (w : Width) (p : Nat → Bool) (i : Nat) : (ofBits w p).getLsbD i = (decide (i < w.bits) && p i) :=
  ofBits_foldl_getLsbD p w.bits i (bits_le w)

theorem ofBits_lt (w : Width) (p : Nat → Bool) : (ofBits w p).toNat < 2 ^ w.bits := by
  refine Nat.lt_pow_two_of_testBit _ fun i high => ?_
  refine (ofBits_getLsbD w p i).trans ?_
  simp [Nat.not_lt.mpr high]

/-! ### Bit tests -/

/-- The bit of an operand that an offset selects. -/
def bitOffset (s : State) (w : Width) : BitOff → Int
  | .reg r => sgn w (s.reg r)
  | .imm v => v.toNat

/-- The place of the unit that a bit test reads. -/
def bitLocated (s : State) (w : Width) (write : Bool) (rm : RM) (off : BitOff) (p : Place) : Prop :=
  match rm, off with
  | .mem m, .reg r => ∃ ps, p = .mem ps ∧
      s.start.access m.seg (s.start.ea m + BitVec.ofInt 64 (bitOffset s w (.reg r) / w.bits * w.bytes)) w.bytes write = .ok ps
  | rm, _ => s.start.place w write rm = .ok p

theorem bits_dvd_pow (w : Width) : w.bits ∣ 2 ^ w.bits := by cases w <;> decide

/-- The position of a bit in its unit, of an unsigned or of a signed offset. -/
theorem sgn_emod_bits (w : Width) (v : Quad) : (sgn w v % w.bits).toNat = uns w v % w.bits := by
  have dvd : (w.bits : Int) ∣ 2 ^ w.bits := by exact_mod_cast bits_dvd_pow w
  rw [← Int.emod_emod_of_dvd _ dvd, sgn_emod, Int.emod_emod_of_dvd _ dvd]
  norm_cast

theorem bitPlace_eq {write : Bool} {rm : RM} {off : BitOff} {p : Place} (located : bitLocated s w write rm off p) :
    s.start.bitPlace w write rm off = .ok (p, (bitOffset s w off % w.bits).toNat) := by
  cases rm with
  | reg g =>
    cases off with
    | imm v =>
      cases located
      rfl
    | reg r =>
      cases located
      rw [bitOffset, sgn_emod_bits, State.bitPlace, readGpr_toNat]
      rfl
  | mem m =>
    cases off with
    | imm v =>
      rcases place_ok.mp located with ⟨g, no, -⟩ | ⟨m', ps, same, access, rfl⟩
      · cases no
      · cases same
        rw [State.bitPlace, access]
        rfl
    | reg r =>
      obtain ⟨ps, rfl, access⟩ := located
      simp only [State.bitPlace, signed_eq, start_readGpr, sgn_readGpr]
      rw [bitOffset] at access
      rw [access]
      rfl

theorem bitChange_eq {rm : RM} {off : BitOff} {lock : Bool} {p : Place} {g : Quad → Quad → Quad} {q : Nat → Bool}
    (legal : lock = true → RM.isMem rm = true) (located : bitLocated s w true rm off p)
    (bits : ∀ i < w.bits, (g (s.start.getAt w p) ((1 : Quad) <<< (bitOffset s w off % w.bits).toNat)).getLsbD i = q i) :
    s.start.bitChange w rm off lock g = .ok ((s.start.putAt w p (ofBits w q)).setFlags
      (s.start.bitFlags ((s.start.getAt w p).getLsbD (bitOffset s w off % w.bits).toNat))) := by
  have low : uns w (g (s.start.getAt w p) ((1 : Quad) <<< (bitOffset s w off % w.bits).toNat)) = uns w (ofBits w q) := by
    refine uns_eq_of_bits fun i h => ?_
    rw [bits i h, ofBits_getLsbD, decide_eq_true h, Bool.true_and]
  rw [State.bitChange, checkLock_ok legal, ok_bind, bitPlace_eq located, ok_bind]
  simp only [putAt_congr low]

/-- Settles O26. -/
theorem bitTestResult : Obligations.BitTestResult := by
  intro s w rm off lock p tf
  have bit (i n : Nat) (h : i < w.bits) : ((1 : Quad) <<< n).getLsbD i = (i == n) := by
    have le := bits_le w
    rw [oneBit_getLsbD, decide_eq_true (by omega), Bool.true_and]
  refine ⟨fun located => ?_, fun legal located => ?_⟩
  · have located : bitLocated s w false rm off p := by cases rm <;> cases off <;> exact located
    rw [exec_bt, execBt]
    apply run_ok tf
    rw [bitPlace_eq located]
    cases off <;> rfl
  · have located : bitLocated s w true rm off p := by cases rm <;> cases off <;> exact located
    refine ⟨?_, ?_, ?_⟩
    · rw [exec_btc, execBtc]
      refine run_ok tf ((bitChange_eq legal located fun i h => by rw [BitVec.getLsbD_xor, bit i _ h]).trans ?_)
      cases off <;> rfl
    · rw [exec_btr, execBtr]
      refine run_ok tf ((bitChange_eq (q := fun k => (s.start.getAt w p).getLsbD k && k != (bitOffset s w off % w.bits).toNat) legal located
        fun i h => ?_).trans ?_)
      · have le := bits_le w
        rw [BitVec.getLsbD_and, BitVec.getLsbD_not, bit i _ h, decide_eq_true (by omega), Bool.true_and]
        rfl
      · cases off <;> rfl
    · rw [exec_bts, execBts]
      refine run_ok tf ((bitChange_eq legal located fun i h => by rw [BitVec.getLsbD_or, bit i _ h]).trans ?_)
      cases off <;> rfl

end Sys2Proof.Machine
end

