-- ==== Sys2Proof/Proofs/Shifts.lean ====
section
/-! PROOFS. The statements about rotates and shifts (45_gp_r_s.md R560 to R562, R573, R574, R577, R578, R584, R586, R587). -/

namespace Sys2Proof.Machine

variable {s : State} {w : Width}

/-! ### One bit after the other -/

theorem times_succ {α : Type} (f : α → α) (n : Nat) (x : α) : times f (n + 1) x = f (times f n x) := by
  induction n generalizing x with
  | zero => rfl
  | succ n ih => exact ih (f x)

theorem wrap_lt (w : Width) (n : Int) : (wrap w n).toNat < 2 ^ w.bits := by
  have cast := wrap_toNat w n
  have lt : n % 2 ^ w.bits < 2 ^ w.bits := Int.emod_lt_of_pos _ (by positivity)
  rw [← cast] at lt
  exact_mod_cast lt

theorem topBit_eq (w : Width) (v : Quad) : topBit w v = msbOf w v := (msbOf_eq w v).symm

theorem topBit_congr {u v : Quad} (h : uns w u = uns w v) : topBit w u = topBit w v := by rw [topBit, topBit, h]

theorem uns_mod_two (w : Width) (v : Quad) (i : Nat) (h : i < w.bits) : decide (uns w v / 2 ^ i % 2 = 1) = v.getLsbD i := by
  rw [← testBit_uns w v i h, Nat.testBit_eq_decide_div_mod_eq]

theorem uns_odd (w : Width) (v : Quad) : decide (uns w v % 2 = 1) = v.getLsbD 0 := by
  have low := uns_mod_two w v 0 (bits_pos w)
  rwa [Nat.pow_zero, Nat.div_one] at low

/-! ### Two fields joined -/

/-- A value moved up, joined with one moved down into the bits that this leaves. -/
theorem trunc_join {u v : Quad} {m n : Nat} (h : u.toNat / 2 ^ m < 2 ^ n) :
    trunc w ((v <<< n) ||| (u >>> m)) = wrap w (v.toNat * 2 ^ n + u.toNat / 2 ^ m : Nat) := by
  apply BitVec.eq_of_toNat_eq
  rw [wrap_nat, trunc_toNat, uns, BitVec.toNat_or, BitVec.toNat_shiftLeft, BitVec.toNat_ushiftRight, Nat.shiftLeft_eq,
    Nat.shiftRight_eq_div_pow, Nat.or_mod_two_pow, mod_width, ← Nat.or_mod_two_pow, Nat.mul_comm, Nat.two_pow_add_eq_or_of_lt h]

theorem div_pow_lt {x n k : Nat} (h : x < 2 ^ n) (le : k ≤ n) : x / 2 ^ (n - k) < 2 ^ k :=
  Nat.div_lt_of_lt_mul (by rwa [← Nat.pow_add, Nat.sub_add_cancel le])

theorem div_pow_lt' {x n k : Nat} (h : x < 2 ^ n) (le : k ≤ n) : x / 2 ^ k < 2 ^ (n - k) :=
  Nat.div_lt_of_lt_mul (by rwa [← Nat.pow_add, Nat.add_sub_cancel' le])

theorem rotateLeft_eq {v : Quad} (small : v.toNat < 2 ^ w.bits) (c : Nat) : rotateLeft w v c =
    wrap w (uns w v * 2 ^ (c % w.bits) + uns w v / 2 ^ (w.bits - c % w.bits) : Nat) := by
  have le : c % w.bits ≤ w.bits := Nat.le_of_lt (Nat.mod_lt _ (bits_pos w))
  rw [rotateLeft, trunc_join (div_pow_lt small le), toNat_eq_uns small]

theorem rotateRight_eq {v : Quad} (small : v.toNat < 2 ^ w.bits) (c : Nat) : rotateRight w v c =
    wrap w (uns w v / 2 ^ (c % w.bits) + uns w v * 2 ^ (w.bits - c % w.bits) : Nat) := by
  have le : c % w.bits ≤ w.bits := Nat.le_of_lt (Nat.mod_lt _ (bits_pos w))
  rw [rotateRight, BitVec.or_comm, trunc_join (div_pow_lt' small le), toNat_eq_uns small, Nat.add_comm]

/-! ### Rotates through the carry -/

theorem rclStep_eq (w : Width) (v : Quad) (c : Bool) : rclStep w (v, c) = (trunc w (v <<< 1) ||| bit c, msbOf w v) := by
  refine Prod.ext (BitVec.eq_of_toNat_eq ?_) (msbOf_eq w v).symm
  have shifted : (trunc w (v <<< 1)).toNat = 2 ^ 1 * (uns w v % 2 ^ (w.bits - 1)) := by
    rw [trunc_toNat, uns, BitVec.toNat_shiftLeft, Nat.shiftLeft_eq, mod_width, uns]
    cases w <;> simp only [Width.bits] <;> omega
  have carry : (bit c : Quad).toNat = c.toNat := by cases c <;> rfl
  have lt : c.toNat < 2 ^ 1 := Bool.toNat_lt c
  have le := Bool.toNat_le c
  rw [BitVec.toNat_or, shifted, carry, ← Nat.two_pow_add_eq_or_of_lt lt]
  refine (wrap_nat w (2 * uns w v + c.toNat)).trans ?_
  cases w <;> simp only [Width.bits] <;> omega

theorem carryLeft_eq (w : Width) (n : Nat) (v : Quad) (c : Bool) : carryLeft w n v c = times (rclStep w) n (v, c) := by
  induction n generalizing v c with
  | zero => rfl
  | succ n ih => rw [carryLeft, ih, times, rclStep_eq]

theorem rcrStep_eq {v : Quad} (small : v.toNat < 2 ^ w.bits) (c : Bool) :
    rcrStep w (v, c) = ((v >>> 1) ||| (bit c <<< (w.bits - 1)), v.getLsbD 0) := by
  refine Prod.ext (BitVec.eq_of_toNat_eq ?_) (uns_odd w v)
  have half : v.toNat / 2 < 2 ^ (w.bits - 1) := by
    rw [pow_half] at small
    omega
  have le := Bool.toNat_le c
  have carry : ((bit c : Quad) <<< (w.bits - 1)).toNat = 2 ^ (w.bits - 1) * c.toNat := by
    cases w <;> cases c <;> rfl
  rw [BitVec.toNat_or, BitVec.toNat_ushiftRight, carry, Nat.or_comm, Nat.shiftRight_eq_div_pow, ← Nat.two_pow_add_eq_or_of_lt half]
  refine (wrap_nat w (uns w v / 2 + c.toNat * 2 ^ (w.bits - 1))).trans ?_
  rw [← toNat_eq_uns small, Nat.mod_eq_of_lt]
  · ring
  · have cpow : c.toNat * 2 ^ (w.bits - 1) ≤ 1 * 2 ^ (w.bits - 1) := Nat.mul_le_mul_right _ le
    rw [pow_half]
    omega

theorem carryRight_eq (w : Width) (n : Nat) {v : Quad} (c : Bool) (small : v.toNat < 2 ^ w.bits) :
    carryRight w n v c = times (rcrStep w) n (v, c) := by
  induction n generalizing v c with
  | zero => rfl
  | succ n ih =>
    have step := rcrStep_eq small c
    have next : ((v >>> 1) ||| (bit c <<< (w.bits - 1))).toNat < 2 ^ w.bits := by
      have first : (v >>> 1) ||| (bit c <<< (w.bits - 1)) = wrap w (uns w v / 2 + c.toNat * 2 ^ (w.bits - 1)) :=
        (congrArg Prod.fst step).symm
      rw [first]
      exact wrap_lt w _
    rw [carryRight, ih _ next, times, step]

/-! ### Shifts -/

theorem shl_times {v : Quad} (small : v.toNat < 2 ^ w.bits) (b : Bool) (n : Nat) :
    (times (shlStep w) n (v, b)).1 = trunc w (v <<< n) := by
  induction n with
  | zero =>
    apply BitVec.eq_of_toNat_eq
    rw [times, trunc_toNat, BitVec.shiftLeft_zero, toNat_eq_uns small]
  | succ n ih =>
    apply BitVec.eq_of_toNat_eq
    rw [times_succ, shlStep, ih, uns_trunc]
    refine (wrap_nat w (2 * uns w (v <<< n))).trans ?_
    rw [trunc_toNat, uns, uns, BitVec.toNat_shiftLeft, BitVec.toNat_shiftLeft, mod_width, mod_width, Nat.mul_mod_mod, Nat.shiftLeft_eq,
      Nat.shiftLeft_eq, Nat.pow_succ]
    congr 1
    ring

theorem shl_times_carry {v : Quad} (small : v.toNat < 2 ^ w.bits) (b : Bool) (n : Nat) :
    (times (shlStep w) (n + 1) (v, b)).2 = (decide (n + 1 ≤ w.bits) && v.getLsbD (w.bits - (n + 1))) := by
  have pos := bits_pos w
  rw [times_succ, shlStep, shl_times small, ← msbOf_eq, msbOf, trunc_getLsbD, BitVec.getLsbD_shiftLeft]
  have le := bits_le w
  have index : w.bits - 1 - n = w.bits - (n + 1) := by omega
  have enough : (!decide (w.bits - 1 < n)) = decide (n + 1 ≤ w.bits) := by
    rw [← decide_not]
    exact decide_eq_decide.mpr (by omega)
  rw [index, enough, decide_eq_true (show w.bits - 1 < w.bits by omega), decide_eq_true (show w.bits - 1 < 64 by omega), Bool.true_and,
    Bool.true_and]

theorem shr_times {v : Quad} (small : v.toNat < 2 ^ w.bits) (b : Bool) (n : Nat) :
    (times (shrStep w) n (v, b)).1 = v >>> n := by
  have shifted (n : Nat) : (v >>> n).toNat = v.toNat / 2 ^ n := by rw [BitVec.toNat_ushiftRight, Nat.shiftRight_eq_div_pow]
  induction n with
  | zero => exact (BitVec.ushiftRight_zero v).symm
  | succ n ih =>
    have lt : (v >>> n).toNat < 2 ^ w.bits := by
      rw [shifted]
      exact Nat.lt_of_le_of_lt (Nat.div_le_self _ _) small
    apply BitVec.eq_of_toNat_eq
    rw [times_succ, shrStep, ih]
    refine (wrap_nat w (uns w (v >>> n) / 2)).trans ?_
    rw [← toNat_eq_uns lt, Nat.mod_eq_of_lt (Nat.lt_of_le_of_lt (Nat.div_le_self _ _) lt), shifted, shifted, Nat.div_div_eq_div_mul,
      ← Nat.pow_succ]

theorem shr_times_carry {v : Quad} (small : v.toNat < 2 ^ w.bits) (b : Bool) (n : Nat) :
    (times (shrStep w) (n + 1) (v, b)).2 = v.getLsbD n := by
  rw [times_succ, shrStep, shr_times small, uns_odd]
  simp

/-- An arithmetic shift of the sign-extended value divides the signed value. -/
theorem trunc_sshiftRight (w : Width) (v : Quad) (n : Nat) : trunc w ((sext w v).sshiftRight n) = wrap w (sgn w v / 2 ^ n) := by
  have value : ((sext w v).sshiftRight n).toInt = sgn w v / 2 ^ n := by
    rw [BitVec.toInt_sshiftRight, sext_toInt, Int.shiftRight_eq_div_pow]
    norm_cast
  have low : uns w ((sext w v).sshiftRight n) = uns w (wrap w (sgn w v / 2 ^ n)) := uns_eq_wrap_toInt value
  apply BitVec.eq_of_toNat_eq
  rw [trunc_toNat, low, toNat_eq_uns (wrap_lt w _)]

theorem fits_sgn (w : Width) (v : Quad) : fits w (sgn w v) = true := by
  have lt := uns_lt w v
  rw [fits, sgn, Bool.and_eq_true, decide_eq_true_iff, decide_eq_true_iff]
  cases w <;> simp only [Width.bits] at * <;> omega

theorem fits_div {n : Int} (h : fits w n = true) (k : Nat) : fits w (n / 2 ^ k) = true := by
  rw [fits, Bool.and_eq_true, decide_eq_true_iff, decide_eq_true_iff] at h ⊢
  obtain ⟨low, high⟩ := h
  have one : (1 : Int) ≤ 2 ^ k := one_le_pow₀ (by decide)
  have half : (0 : Int) < 2 ^ (w.bits - 1) := by positivity
  exact ⟨Int.le_ediv_of_mul_le (by omega) (by nlinarith), Int.ediv_lt_of_lt_mul (by omega) (by nlinarith)⟩

theorem sar_times {v : Quad} (small : v.toNat < 2 ^ w.bits) (b : Bool) (n : Nat) :
    (times (sarStep w) n (v, b)).1 = wrap w (sgn w v / 2 ^ n) := by
  induction n with
  | zero =>
    refine eq_wrap small ?_
    rw [times, toNat_eq_uns small, pow_zero, Int.ediv_one, sgn_emod]
  | succ n ih =>
    rw [times_succ, sarStep, ih, (sgn_wrap_eq_iff w _).mpr (fits_div (fits_sgn w v) n), Int.ediv_ediv_of_nonneg (by positivity), ← pow_succ]

theorem sar_times_carry {v : Quad} (small : v.toNat < 2 ^ w.bits) (b : Bool) (n : Nat) (lt : n < 64) :
    (times (sarStep w) (n + 1) (v, b)).2 = (sext w v).getLsbD n := by
  rw [times_succ, sarStep, sar_times small, ← trunc_sshiftRight, uns_odd, trunc_getLsbD, decide_eq_true (bits_pos w), BitVec.getLsbD_sshiftRight]
  simp [lt]

/-! ### The instructions -/

theorem shiftCount_eq (s : State) (w : Width) (cnt : ShiftCount) : s.start.shiftCount w cnt = s.countOf w cnt := by
  cases cnt with
  | one => rfl
  | imm v => rfl
  | cl =>
    rw [State.shiftCount, maskCount, readGpr_toNat]
    rfl

theorem countOf_lt (s : State) (w : Width) (cnt : ShiftCount) : s.countOf w cnt < 64 := by
  have lt (n : Nat) : n % (if w = .w64 then 64 else 32) < 64 := by
    split <;> omega
  exact lt _

/-- A shift by the masked count. -/
theorem shift_eq {rm : RM} {cnt : ShiftCount} {p : Place} (op : Nat → Quad → Quad × Flags) (place : s.start.place w true rm = .ok p) :
    s.start.shift w rm cnt op = .ok (if s.countOf w cnt = 0 then s.start.putAt w p (s.start.getAt w p)
      else (s.start.putAt w p (op (s.countOf w cnt) (s.start.getAt w p)).1).setFlags (op (s.countOf w cnt) (s.start.getAt w p)).2) := by
  rw [State.shift, place, ok_bind, shiftCount_eq]
  exact (apply_ite Except.ok _ _ _).symm

theorem putAt_setFlags (t : State) (w : Width) (p : Place) (v : Quad) : (t.putAt w p v).setFlags t.flags = t.putAt w p v := by
  rw [State.setFlags, putAt_frame]

/-- The flags of a rotate. -/
def State.rotated (s : State) (c : Nat) (cf of : Bool) : Flags :=
  if c = 0 then s.start.flags
  else if c = 1 then { s.start.flags with cf := cf, of := of }
  else s.start.freed { s.start.flags with cf := cf } [.of]

/-- A rotate: its value is the operand for a count of 0. -/
theorem run_rotate {rm : RM} {cnt : ShiftCount} {p : Place} (op : State → Nat → Quad → Quad × Flags) {r : Quad} {cf of : Bool}
    (tf : s.flags.tf = false) (place : s.start.place w true rm = .ok p)
    (none : s.countOf w cnt = 0 → uns w r = uns w (s.start.getAt w p))
    (some : s.countOf w cnt ≠ 0 → op s.start (s.countOf w cnt) (s.start.getAt w p) =
      (r, rotateFlags s.start.flags s.start.freeCount (s.countOf w cnt) cf of)) :
    run s (fun t => t.shift w rm cnt (op t)) = .next ((s.start.putAt w p r).setFlags (s.rotated (s.countOf w cnt) cf of)) := by
  refine run_ok tf ((shift_eq (op s.start) place).trans ?_)
  by_cases zero : s.countOf w cnt = 0
  · rw [if_pos zero, State.rotated, if_pos zero, putAt_setFlags, putAt_congr (none zero)]
  · rw [if_neg zero, some zero, State.rotated, if_neg zero]
    rfl

/-- A rotate by 0 gives the operand. -/
theorem rotate_zero {a : Quad} :
    uns w (wrap w (uns w a * 2 ^ (0 % w.bits) + uns w a / 2 ^ (w.bits - 0 % w.bits) : Nat)) = uns w a := by
  have lt := uns_lt w a
  rw [uns_wrap, Nat.zero_mod, Nat.pow_zero, Nat.mul_one, Nat.sub_zero, Nat.div_eq_of_lt lt, Nat.add_zero, Nat.mod_eq_of_lt lt]

theorem rotate_zero' {a : Quad} :
    uns w (wrap w (uns w a / 2 ^ (0 % w.bits) + uns w a * 2 ^ (w.bits - 0 % w.bits) : Nat)) = uns w a := by
  rw [uns_wrap, Nat.zero_mod, Nat.pow_zero, Nat.div_one, Nat.sub_zero, Nat.add_mul_mod_self_right, Nat.mod_eq_of_lt (uns_lt w a)]

/-- Settles O27. -/
theorem rotateResult : Obligations.RotateResult := by
  intro s w rm cnt p tf place
  have small := getAt_lt place (u := s.start)
  refine ⟨?_, ?_, ?_, ?_⟩
  · rw [exec_rol, execRol]
    refine run_rotate _ tf place (fun zero => ?_) fun some => ?_
    · rw [zero]
      exact rotate_zero
    · simp only [rotateLeft_eq small, ← topBit_eq]
  · rw [exec_ror, execRor]
    refine run_rotate _ tf place (fun zero => ?_) fun some => ?_
    · rw [zero]
      exact rotate_zero'
    · simp only [rotateRight_eq small, ← topBit_eq]
      rfl
  · rw [exec_rcl, execRcl]
    refine run_rotate _ tf place (fun zero => ?_) fun some => ?_
    · rw [zero]
      rfl
    · simp only [carryLeft_eq, ← topBit_eq]
      rfl
  · rw [exec_rcr, execRcr]
    refine run_rotate _ tf place (fun zero => ?_) fun some => ?_
    · rw [zero]
      rfl
    · simp only [carryRight_eq w _ _ small, ← topBit_eq]
      rfl

/-- What a shift leaves. -/
def State.shifted (s : State) (w : Width) (p : Place) (c : Nat) (v : Quad) (cf of : Bool) :
    Host.Outcome State Fault Refusal :=
  if c = 0 then .next (s.start.putAt w p (s.start.getAt w p))
  else .next ((s.start.putAt w p v).setFlags (s.start.freed
    { valueFlags s.start.flags w v with cf := cf, of := of } (if c = 1 then [.af] else [.af, .of])))

theorem shiftFlags_eq (s : State) (w : Width) (c : Nat) (v : Quad) (cf of : Bool) : shiftFlags s.flags s.freeCount c w v cf of =
    s.freed { valueFlags s.flags w v with cf := cf, of := of } (if c = 1 then [.af] else [.af, .of]) := by
  rw [shiftFlags, rotateFlags, result_eq]
  split <;> rfl

/-- A shift by a count that is not 0 leaves the value and flags of its operation. -/
theorem run_shift {rm : RM} {cnt : ShiftCount} {p : Place} (op : State → Nat → Quad → Quad × Flags) {r : Quad} {cf of : Bool}
    (tf : s.flags.tf = false) (place : s.start.place w true rm = .ok p)
    (some : ∀ c, s.countOf w cnt = c + 1 → op s.start (c + 1) (s.start.getAt w p) =
      (r, shiftFlags s.start.flags s.start.freeCount (c + 1) w r cf of)) :
    run s (fun t => t.shift w rm cnt (op t)) = s.shifted w p (s.countOf w cnt) r cf of := by
  refine (run_ok tf (shift_eq (op s.start) place)).trans ?_
  rw [State.shifted]
  cases h : s.countOf w cnt with
  | zero => rfl
  | succ c =>
    rw [if_neg (Nat.succ_ne_zero c), if_neg (Nat.succ_ne_zero c), some c h, shiftFlags_eq]

/-- What a double shift leaves. -/
def State.doubleShifted (s : State) (w : Width) (p : Place) (c : Nat) (v : Quad) (cf : Bool) : Host.Outcome State Fault Refusal :=
  if w.bits < c then .next ((s.start.putAt w p s.start.freeResult).setFlags
    (s.start.freed s.start.flags [.of, .sf, .zf, .af, .pf, .cf]))
  else s.shifted w p c v cf (topBit w v != topBit w (s.start.getAt w p))

theorem run_shiftDouble {rm : RM} {cnt : ShiftCount} {p : Place} (op : State → Nat → Quad → Quad) (carry : Nat → Quad → Bool) {r : Quad}
    {cf : Bool} (tf : s.flags.tf = false) (place : s.start.place w true rm = .ok p)
    (value : s.countOf w cnt ≤ w.bits → trunc w (op s.start (s.countOf w cnt) (s.start.getAt w p)) = r)
    (last : ∀ c, s.countOf w cnt = c + 1 → c + 1 ≤ w.bits → carry (c + 1) (s.start.getAt w p) = cf) :
    run s (fun t => t.shiftDouble w rm cnt (op t) carry) = s.doubleShifted w p (s.countOf w cnt) r cf := by
  rw [State.doubleShifted]
  split
  next large =>
    refine run_ok tf ((shift_eq _ place).trans ?_)
    rw [if_neg (by omega), if_pos large, putAt_congr (uns_trunc w _)]
    rfl
  next within =>
    refine run_shift (fun t c v => if w.bits < c then (trunc w t.freeResult, t.flags.undefine t.freeCount [.of, .sf, .zf, .af, .pf, .cf])
      else (trunc w (op t c v), shiftFlags t.flags t.freeCount c w (trunc w (op t c v)) (carry c v) (msbOf w (op t c v) ^^ msbOf w v)))
      tf place fun c count => ?_
    have whole := value (Nat.not_lt.mp within)
    rw [count] at within whole
    have sign : msbOf w (op s.start (c + 1) (s.start.getAt w p)) = topBit w r := by
      rw [← topBit_eq, ← whole, topBit_congr (uns_trunc w _)]
    rw [if_neg within, whole, last c count (Nat.not_lt.mp within), sign, ← topBit_eq]

/-- Settles O28. -/
theorem shiftResult : Obligations.ShiftResult := by
  intro s w rm r cnt p tf place
  have small := getAt_lt place (u := s.start)
  have reg := toNat_eq_uns (readGpr_lt s w r)
  have lt := countOf_lt s w cnt
  have bit (i : Nat) (h : i < w.bits) : (s.start.getAt w p).getLsbD i = (uns w (s.start.getAt w p) / 2 ^ i % 2 == 1) :=
    (uns_mod_two w _ i h).symm
  refine ⟨?_, ?_, ?_, ?_, ?_⟩
  · rw [exec_shl, execShl]
    refine run_shift _ tf place fun c count => ?_
    simp only [count, shl_times small, shl_times_carry small, topBit_eq]
  · rw [exec_shr, execShr]
    refine run_shift _ tf place fun c count => ?_
    simp only [count, shr_times small, shr_times_carry small, topBit_eq]
    rfl
  · rw [exec_sar, execSar]
    refine run_shift _ tf place fun c count => ?_
    simp only [count, sar_times small, sar_times_carry small false c (by omega), trunc_sshiftRight]
    rfl
  · rw [exec_shld, execShld]
    refine run_shiftDouble _ _ tf place (fun le => ?_) fun c count le => ?_
    · rw [start_readGpr, trunc_join (div_pow_lt (readGpr_lt s w r) le), readGpr_toNat, toNat_eq_uns small]
    · rw [bit _ (by omega), count]
  · rw [exec_shrd, execShrd]
    refine run_shiftDouble _ _ tf place (fun le => ?_) fun c count le => ?_
    · rw [BitVec.or_comm, start_readGpr, trunc_join (div_pow_lt' small le), readGpr_toNat, toNat_eq_uns small, Nat.add_comm]
    · rw [bit _ (by omega), count]

end Sys2Proof.Machine
end

