-- ==== Sys2Proof/Proofs/BitManipulation.lean ====
section
/-! PROOFS. The statement about BMI1, BMI2 and TBM (40_gp_a_b.md R311 to R324, R334, 44_gp_n_p.md R517, R518, 45_gp_r_s.md R575,
R579, R585, R588, 46_gp_t_x.md R630, R633). -/

namespace Sys2Proof.Machine

variable {s : State} {w : Width}

/-! ### The result and the flags -/

/-- What these instructions leave: the result, with its flags and the carry. -/
def State.manipulated (s : State) (w : Width) (dst : Gpr) (r : Quad) (cf : Bool) : State :=
  (s.start.writeGpr w dst r).setFlags (s.start.freed { valueFlags s.start.flags w r with of := false, cf := cf } [.af, .pf])

/-- An instruction with a VEX prefix, where it is allowed and its source can be read. -/
theorem run_vexOp {feature : State → Bool} {dst : Gpr} {src : RM} {v : Quad} (op : State → Quad → Quad × Flags)
    (tf : s.flags.tf = false) (prot : s.protMode = true) (feat : feature s.start = true) (read : s.start.readRM w src = .ok v) :
    run s (fun t => t.vexOp (feature t) w dst src (op t)) =
      .next ((s.start.writeGpr w dst (op s.start v).1).setFlags (op s.start v).2) := by
  apply run_ok tf
  simp only [State.vexOp, start_protMode, prot, feat, Bool.and_self, require_true, ok_bind, read, finish_eq]

theorem bmiFlags_eq (t : State) (w : Width) (r : Quad) (cf : Bool) : bmiFlags t.flags t.freeCount w r cf =
    t.freed { valueFlags t.flags w r with of := false, cf := cf } [.af, .pf] := by
  rw [bmiFlags, result_eq]
  rfl

/-! ### Operations that change the operand by 1 -/

/-- An operation of quadwords that is one of values of the width. -/
def actsOnWidth (w : Width) (g : Quad → Quad) (G : BitVec w.bits → BitVec w.bits) : Prop :=
  ∀ v, (g v).setWidth w.bits = G (v.setWidth w.bits)

theorem trunc_of_actsOnWidth {g : Quad → Quad} {G : BitVec w.bits → BitVec w.bits} (h : actsOnWidth w g G) (v : Quad) :
    trunc w (g v) = (G (v.setWidth w.bits)).setWidth 64 := by
  rw [← h v]
  rfl

theorem actsOnWidth_inc (w : Width) : actsOnWidth w (· + 1) (· + 1) := by
  intro v
  rw [BitVec.setWidth_add _ _ (bits_le w)]
  cases w <;> rfl

theorem actsOnWidth_dec (w : Width) : actsOnWidth w (· - 1) (· - 1) := by
  intro v
  change (v - 1).setWidth w.bits = v.setWidth w.bits - 1
  rw [BitVec.sub_eq_add_neg, BitVec.sub_eq_add_neg, BitVec.setWidth_add _ _ (bits_le w), BitVec.setWidth_neg_of_le (bits_le w)]
  cases w <;> rfl

section

variable {g h : Quad → Quad} {G H : BitVec w.bits → BitVec w.bits}

theorem actsOnWidth_id (w : Width) : actsOnWidth w (fun v => v) (fun v => v) := fun _ => rfl

theorem actsOnWidth_not (hg : actsOnWidth w g G) : actsOnWidth w (fun v => ~~~g v) (fun v => ~~~G v) := fun v => by
  rw [BitVec.setWidth_not (bits_le w), hg]

theorem actsOnWidth_and (hg : actsOnWidth w g G) (hh : actsOnWidth w h H) : actsOnWidth w (fun v => g v &&& h v) (fun v => G v &&& H v) :=
  fun v => by rw [BitVec.setWidth_and, hg, hh]

theorem actsOnWidth_or (hg : actsOnWidth w g G) (hh : actsOnWidth w h H) : actsOnWidth w (fun v => g v ||| h v) (fun v => G v ||| H v) :=
  fun v => by rw [BitVec.setWidth_or, hg, hh]

theorem actsOnWidth_xor (hg : actsOnWidth w g G) (hh : actsOnWidth w h H) : actsOnWidth w (fun v => g v ^^^ h v) (fun v => G v ^^^ H v) :=
  fun v => by rw [BitVec.setWidth_xor, hg, hh]

end

theorem actsOnWidth_neg (w : Width) : actsOnWidth w (0 - ·) (-·) := fun v => by
  change (0#64 - v).setWidth w.bits = -(v.setWidth w.bits)
  rw [BitVec.zero_sub, BitVec.setWidth_neg_of_le (bits_le w)]

theorem setWidth_toNat (w : Width) (v : Quad) : (v.setWidth w.bits).toNat = uns w v := BitVec.toNat_setWidth ..

/-- Adding 1 carries out of the width from all ones only. -/
theorem incCarry_eq (w : Width) (v : Quad) : incCarry w v = (v.setWidth w.bits == BitVec.allOnes _) := by
  have lt := uns_lt w v
  have one : uns w (v + 1) = (uns w v + 1) % 2 ^ w.bits := by
    rw [uns_add, uns, Nat.mod_add_mod]
    rfl
  rw [incCarry, Bool.eq_iff_iff, beq_iff_eq, beq_iff_eq, ← BitVec.toNat_inj, ← BitVec.toNat_inj, trunc_toNat, setWidth_toNat,
    BitVec.toNat_allOnes, one]
  change (uns w v + 1) % 2 ^ w.bits = 0 ↔ _
  cases w <;> simp only [Width.bits] at * <;> omega

theorem decBorrow_eq {v : Quad} (small : v.toNat < 2 ^ w.bits) : decBorrow v = (v.setWidth w.bits == 0) := by
  rw [decBorrow, Bool.eq_iff_iff, beq_iff_eq, beq_iff_eq, ← BitVec.toNat_inj, ← BitVec.toNat_inj, setWidth_toNat, toNat_eq_uns small]
  rfl

theorem run_bitOp {feature : State → Bool} {dst : Gpr} {src : RM} {v : Quad} {g : Quad → Quad} {carry : Quad → Bool}
    {G : BitVec w.bits → BitVec w.bits} {c : Bool} (acts : actsOnWidth w g G)
    (tf : s.flags.tf = false) (prot : s.protMode = true) (feat : feature s.start = true) (read : s.start.readRM w src = .ok v)
    (hc : carry v = c) :
    run s (fun t => t.bitOp (feature t) w dst src g carry) = .next (s.manipulated w dst ((G (v.setWidth w.bits)).setWidth 64) c) := by
  refine (run_vexOp (fun t v => (trunc w (g v), bmiFlags t.flags t.freeCount w (trunc w (g v)) (carry v))) tf prot feat read).trans ?_
  simp only [trunc_of_actsOnWidth acts, hc, bmiFlags_eq]
  rfl

/-! ### Deposits and extractions -/

theorem idxOf_map_succ (l : List Nat) (i : Nat) : (l.map (· + 1)).idxOf (i + 1) = l.idxOf i := by
  induction l with
  | nil => rfl
  | cons n l ih =>
    rw [List.map_cons, List.idxOf_cons, List.idxOf_cons, ih]
    simp only [beq_iff_eq, Nat.add_right_cancel_iff, cond_eq_ite]

theorem lowBit_getLsbD (v : Quad) (i : Nat) : (v &&& 1#64).getLsbD i = (i == 0 && v.getLsbD 0) := by
  have one := oneBit_getLsbD 0 i
  rw [BitVec.shiftLeft_zero] at one
  rw [BitVec.getLsbD_and]
  refine (congrArg (v.getLsbD i && ·) one).trans ?_
  cases i with
  | zero => simp
  | succ i => simp

theorem shifted_getLsbD (v : Quad) (i : Nat) (h : i + 1 < 64) : (v <<< 1).getLsbD (i + 1) = v.getLsbD i := by
  rw [BitVec.getLsbD_shiftLeft]
  simp [h]

theorem deposit_succ (n : Nat) (src mask : Quad) : deposit (n + 1) src mask =
    if mask.getLsbD 0 then (src &&& 1#64) ||| (deposit n (src >>> 1) (mask >>> 1) <<< 1) else deposit n src (mask >>> 1) <<< 1 := rfl

theorem extract_succ (n : Nat) (src mask : Quad) : extract (n + 1) src mask =
    if mask.getLsbD 0 then (src &&& 1#64) ||| (extract n (src >>> 1) (mask >>> 1) <<< 1) else extract n (src >>> 1) (mask >>> 1) := rfl

/-- A deposit puts the bits of the source at the ones of the mask, in order. -/
theorem deposit_getLsbD (n : Nat) (src mask : Quad) (i : Nat) (h : i < 64) :
    (deposit n src mask).getLsbD i = (decide (i < n) && (mask.getLsbD i && src.getLsbD ((onesBelow n mask).idxOf i))) := by
  induction n generalizing src mask i with
  | zero => simp [deposit]
  | succ n ih =>
    rw [deposit_succ, onesBelow_low]
    cases low : mask.getLsbD 0 with
    | true =>
      rw [if_pos rfl, if_pos rfl, BitVec.getLsbD_or, lowBit_getLsbD]
      cases i with
      | zero => simp [low]
      | succ i =>
        rw [shifted_getLsbD _ i h, ih _ _ i (by omega), List.singleton_append, List.idxOf_cons_ne _ (by omega), idxOf_map_succ]
        simp [Nat.add_comm]
    | false =>
      rw [if_neg Bool.false_ne_true, if_neg Bool.false_ne_true, List.nil_append]
      cases i with
      | zero => rw [low, Bool.false_and, Bool.and_false, BitVec.getLsbD_shiftLeft, decide_eq_true (by decide : 0 < 1), Bool.not_true,
          Bool.and_false, Bool.false_and]
      | succ i =>
        rw [shifted_getLsbD _ i h, ih _ _ i (by omega), idxOf_map_succ]
        simp [Nat.add_comm]

/-- An extraction collects the bits of the source at the ones of the mask, in order. -/
theorem extract_getLsbD (n : Nat) (src mask : Quad) (i : Nat) (h : i < 64) :
    (extract n src mask).getLsbD i = (onesBelow n mask)[i]?.any fun k => src.getLsbD k := by
  induction n generalizing src mask i with
  | zero => simp [extract, onesBelow]
  | succ n ih =>
    have shift (l : List Nat) (i : Nat) : ((l.map (· + 1))[i]?.any fun k => src.getLsbD k) = (l[i]?.any fun k => (src >>> 1).getLsbD k) := by
      rw [List.getElem?_map]
      cases l[i]? <;> simp [Nat.add_comm]
    rw [extract_succ, onesBelow_low]
    cases low : mask.getLsbD 0 with
    | true =>
      rw [if_pos rfl, if_pos rfl, BitVec.getLsbD_or, lowBit_getLsbD]
      cases i with
      | zero => simp
      | succ i =>
        rw [shifted_getLsbD _ i h, ih _ _ i (by omega), ← shift]
        simp
    | false =>
      rw [if_neg Bool.false_ne_true, if_neg Bool.false_ne_true, List.nil_append, shift, ih _ _ i h]

theorem onesBelow_length (n : Nat) (v : Quad) : (onesBelow n v).length ≤ n :=
  (List.length_filter_le _ _).trans (Nat.le_of_eq List.length_range)

theorem deposit_eq (w : Width) (s : State) (a : Gpr) (v : Quad) : deposit w.bits (s.readGpr w a) v =
    ofBits w fun i => v.getLsbD i && (s.reg a).getLsbD ((onePositions w v).idxOf i) := by
  refine BitVec.eq_of_getLsbD_eq fun i h => ?_
  rw [deposit_getLsbD _ _ _ _ h, ofBits_getLsbD]
  by_cases one : i < w.bits ∧ v.getLsbD i = true
  · have mem : i ∈ onePositions w v := List.mem_filter.mpr ⟨List.mem_range.mpr one.1, one.2⟩
    have lt : (onePositions w v).idxOf i < w.bits := Nat.lt_of_lt_of_le (List.idxOf_lt_length_iff.mpr mem) (onesBelow_length _ v)
    rw [State.readGpr, trunc_getLsbD, onePositions_eq] at *
    rw [decide_eq_true lt, Bool.true_and]
  · rw [not_and, Bool.not_eq_true] at one
    by_cases lt : i < w.bits
    · rw [one lt, Bool.false_and, Bool.false_and]
    · rw [decide_eq_false lt, Bool.false_and, Bool.false_and]

theorem extract_eq (w : Width) (s : State) (a : Gpr) (v : Quad) : extract w.bits (s.readGpr w a) v =
    ofBits w fun i => ((onePositions w v)[i]?).any fun n => (s.reg a).getLsbD n := by
  refine BitVec.eq_of_getLsbD_eq fun i h => ?_
  rw [extract_getLsbD _ _ _ _ h, ofBits_getLsbD, ← onePositions_eq]
  cases at_i : (onePositions w v)[i]? with
  | none => simp
  | some n =>
    obtain ⟨lt, rfl⟩ := List.getElem?_eq_some_iff.mp at_i
    have index : i < w.bits := Nat.lt_of_lt_of_le lt (onesBelow_length _ v)
    rw [Option.any_some, Option.any_some, State.readGpr, trunc_getLsbD, decide_eq_true (mem_onePositions (List.getElem_mem lt)),
      decide_eq_true index]

/-! ### Fields -/

theorem lowMask_toNat (v : Quad) {n : Nat} (h : n < 64) : (v &&& ((1#64 <<< n) - 1)).toNat = v.toNat % 2 ^ n := by
  have lt : 2 ^ n < 2 ^ 64 := Nat.pow_lt_pow_right (by decide) h
  have pos : 0 < 2 ^ n := by positivity
  have one : (1#64 <<< n).toNat = 2 ^ n := by
    rw [BitVec.toNat_shiftLeft, BitVec.toNat_ofNat, Nat.shiftLeft_eq, Nat.one_mod, Nat.one_mul, Nat.mod_eq_of_lt lt]
  have mask : ((1#64 <<< n) - 1).toNat = 2 ^ n - 1 := by
    rw [BitVec.toNat_sub_of_le, one]
    · rfl
    · rw [BitVec.le_def, one]
      exact pos
  rw [BitVec.toNat_and, mask, Nat.and_two_pow_sub_one_eq_mod]

theorem mod_pow_of_le {x m n : Nat} (h : x < 2 ^ m) (le : m ≤ n) : x % 2 ^ n = x :=
  Nat.mod_eq_of_lt (Nat.lt_of_lt_of_le h (Nat.pow_le_pow_right (by decide) le))

theorem bextrField_eq {v : Quad} (small : v.toNat < 2 ^ w.bits) (lsb len : Nat) :
    bextrField w v lsb len = BitVec.ofNat 64 (uns w v / 2 ^ lsb % 2 ^ len) := by
  have le := bits_le w
  have moved : (if lsb < w.bits then v >>> lsb else 0).toNat = uns w v / 2 ^ lsb := by
    split
    next => rw [BitVec.toNat_ushiftRight, Nat.shiftRight_eq_div_pow, toNat_eq_uns small]
    next out =>
      rw [Nat.div_eq_of_lt (Nat.lt_of_lt_of_le (uns_lt w v) (Nat.pow_le_pow_right (by decide) (Nat.not_lt.mp out)))]
      rfl
  have short : uns w v / 2 ^ lsb < 2 ^ w.bits := Nat.lt_of_le_of_lt (Nat.div_le_self _ _) (uns_lt w v)
  apply BitVec.eq_of_toNat_eq
  rw [BitVec.toNat_ofNat, Nat.mod_eq_of_lt (Nat.lt_of_le_of_lt (Nat.mod_le _ _) (Nat.lt_of_lt_of_le short (pow_bits_le w)))]
  simp only [bextrField]
  split
  next long => rw [moved, mod_pow_of_le short long]
  next => exact (lowMask_toNat _ (by omega)).trans (by rw [moved])

theorem bextr_start (c : Quad) : (c.extractLsb' 0 8).toNat = c.toNat % 256 := by
  rw [BitVec.extractLsb'_toNat, Nat.shiftRight_zero]

theorem bextr_length (c : Quad) : (c.extractLsb' 8 8).toNat = c.toNat / 256 % 256 := by
  rw [BitVec.extractLsb'_toNat, Nat.shiftRight_eq_div_pow]

/-- What BEXTR leaves with the control value `c`. -/
def State.bextracted (s : State) (w : Width) (dst : Gpr) (v : Quad) (c : Nat) : State :=
  (s.start.writeGpr w dst (BitVec.ofNat 64 (uns w v / 2 ^ (c % 256) % 2 ^ (c / 256 % 256)))).setFlags (s.start.freed
    { s.start.flags with of := false, cf := false, zf := uns w v / 2 ^ (c % 256) % 2 ^ (c / 256 % 256) == 0 } [.sf, .af, .pf])

theorem run_bextr {feature : State → Bool} {dst : Gpr} {src : RM} {v : Quad} (c : State → Quad) {n : Nat}
    (tf : s.flags.tf = false) (prot : s.protMode = true) (feat : feature s.start = true) (read : s.start.readRM w src = .ok v)
    (low : (c s.start).toNat % 256 = n % 256) (high : (c s.start).toNat / 256 % 256 = n / 256 % 256) :
    run s (fun t => t.vexOp (feature t) w dst src fun v =>
      let r := bextrField w v ((c t).extractLsb' 0 8).toNat ((c t).extractLsb' 8 8).toNat
      (r, { t.flags with of := false, cf := false, zf := r == 0 }.undefine t.freeCount [.sf, .af, .pf])) =
    .next (s.bextracted w dst v n) := by
  have lt : uns w v / 2 ^ (n % 256) % 2 ^ (n / 256 % 256) < 2 ^ 64 :=
    Nat.lt_of_le_of_lt ((Nat.mod_le _ _).trans (Nat.div_le_self _ _)) (Nat.lt_of_lt_of_le (uns_lt w v) (pow_bits_le w))
  have zero : (BitVec.ofNat 64 (uns w v / 2 ^ (n % 256) % 2 ^ (n / 256 % 256)) == 0) =
      (uns w v / 2 ^ (n % 256) % 2 ^ (n / 256 % 256) == 0) := by
    rw [Bool.eq_iff_iff, beq_iff_eq, beq_iff_eq, ← BitVec.toNat_inj, BitVec.toNat_ofNat, Nat.mod_eq_of_lt lt]
    rfl
  refine (run_vexOp _ tf prot feat read).trans ?_
  simp only [bextrField_eq (readRM_lt read), bextr_start, bextr_length, low, high, zero]
  rfl

theorem wide_bits (wide : w = .w32 ∨ w = .w64) : (if w = .w64 then 64 else 32) = w.bits := by
  rcases wide with rfl | rfl <;> rfl

/-- A count of a register or of an immediate byte. -/
theorem readGpr_mod_bits (wide : w = .w32 ∨ w = .w64) (s : State) (r : Gpr) :
    maskCount w (s.readGpr w r).toNat = (s.reg r).toNat % w.bits := by
  rw [maskCount, wide_bits wide, readGpr_toNat, uns, Nat.mod_mod_of_dvd _ (bits_dvd_pow w)]

theorem andn_eq (a : Quad) {v : Quad} (small : v.toNat < 2 ^ w.bits) :
    ~~~a &&& v = wrap w ((2 ^ w.bits - 1 - uns w a) &&& uns w v : Nat) := by
  refine eq_of_bits (w := w) ?_ (wrap_lt w _) fun i h => ?_
  · rw [BitVec.toNat_and]
    exact Nat.lt_of_le_of_lt Nat.and_le_right small
  · have le := bits_le w
    have bit : (wrap w ((2 ^ w.bits - 1 - uns w a) &&& uns w v : Nat)).getLsbD i =
        ((2 ^ w.bits - (uns w a + 1)) &&& uns w v).testBit i := by
      rw [BitVec.getLsbD, wrap_nat, Nat.testBit_mod_two_pow, decide_eq_true h, Bool.true_and, Nat.sub_sub, Nat.add_comm 1]
    rw [bit, Nat.testBit_and, Nat.testBit_two_pow_sub_succ (uns_lt w a), testBit_uns w a i h, testBit_uns w v i h, BitVec.getLsbD_and,
      BitVec.getLsbD_not, decide_eq_true (by omega), decide_eq_true h]

theorem bzhi_eq {v : Quad} (small : v.toNat < 2 ^ w.bits) (n : Nat) :
    (if w.bits ≤ n then v else v &&& ((1#64 <<< n) - 1)) = wrap w (uns w v % 2 ^ n : Nat) := by
  have le := bits_le w
  apply BitVec.eq_of_toNat_eq
  rw [wrap_nat, Nat.mod_eq_of_lt (Nat.lt_of_le_of_lt (Nat.mod_le _ _) (uns_lt w v)), ← toNat_eq_uns small]
  split
  next high => rw [mod_pow_of_le small high]
  next low => exact lowMask_toNat v (by omega)

/-- The twelve operations of one operand. -/
theorem run_bitOps {dst : Gpr} {src : RM} {v : Quad} (tf : s.flags.tf = false) (prot : s.protMode = true)
    (read : s.start.readRM w src = .ok v) : ∀ x ∈ bitOps w, (if x.2.1 then s.feat.bmi1 else s.feat.tbm) = true →
      exec (x.1 dst src) s = .next (s.manipulated w dst ((x.2.2.1 (v.setWidth w.bits)).setWidth 64) (x.2.2.2 (v.setWidth w.bits))) := by
  have inc := incCarry_eq w v
  have dec := decBorrow_eq (readRM_lt read)
  have plus := actsOnWidth_inc w
  have minus := actsOnWidth_dec w
  have same := actsOnWidth_id w
  have nonzero : (v != 0) = (v.setWidth w.bits != 0) := congrArg (! ·) dec
  simp only [bitOps, List.forall_mem_cons, List.not_mem_nil, false_implies, implies_true, and_true, if_true, Bool.false_eq_true,
    if_false]
  refine ⟨fun f => ?_, fun f => ?_, fun f => ?_, fun f => ?_, fun f => ?_, fun f => ?_, fun f => ?_, fun f => ?_, fun f => ?_, fun f => ?_,
    fun f => ?_, fun f => ?_⟩
  · rw [exec_blcfill, execBlcfill]
    exact (run_bitOp (feature := fun t => t.feat.tbm) (actsOnWidth_and plus same) tf prot f read inc :)
  · rw [exec_blci, execBlci]
    exact (run_bitOp (feature := fun t => t.feat.tbm) (actsOnWidth_or (actsOnWidth_not plus) same) tf prot f read inc :)
  · rw [exec_blcic, execBlcic]
    exact (run_bitOp (feature := fun t => t.feat.tbm) (actsOnWidth_and plus (actsOnWidth_not same)) tf prot f read inc :)
  · rw [exec_blcmsk, execBlcmsk]
    exact (run_bitOp (feature := fun t => t.feat.tbm) (actsOnWidth_xor plus same) tf prot f read inc :)
  · rw [exec_blcs, execBlcs]
    exact (run_bitOp (feature := fun t => t.feat.tbm) (actsOnWidth_or plus same) tf prot f read inc :)
  · rw [exec_blsfill, execBlsfill]
    exact (run_bitOp (feature := fun t => t.feat.tbm) (actsOnWidth_or minus same) tf prot f read dec :)
  · rw [exec_blsi, execBlsi]
    exact (run_bitOp (feature := fun t => t.feat.bmi1) (carry := fun v => v != 0) (actsOnWidth_and (actsOnWidth_neg w) same) tf prot f read nonzero :)
  · rw [exec_blsic, execBlsic]
    exact (run_bitOp (feature := fun t => t.feat.tbm) (actsOnWidth_or minus (actsOnWidth_not same)) tf prot f read dec :)
  · rw [exec_blsmsk, execBlsmsk]
    exact (run_bitOp (feature := fun t => t.feat.bmi1) (actsOnWidth_xor minus same) tf prot f read dec :)
  · rw [exec_blsr, execBlsr]
    exact (run_bitOp (feature := fun t => t.feat.bmi1) (actsOnWidth_and minus same) tf prot f read dec :)
  · rw [exec_t1mskc, execT1mskc]
    exact (run_bitOp (feature := fun t => t.feat.tbm) (actsOnWidth_or plus (actsOnWidth_not same)) tf prot f read inc :)
  · rw [exec_tzmsk, execTzmsk]
    exact (run_bitOp (feature := fun t => t.feat.tbm) (actsOnWidth_and minus (actsOnWidth_not same)) tf prot f read dec :)

/-- Settles O25. -/
theorem bitManipulationResult : Obligations.BitManipulationResult := by
  refine ⟨fun s w dst a src imm v tf prot wide read => ⟨?_, fun bmi1 => ?_, fun bmi1 => ?_, fun tbm => ?_, fun bmi2 => ⟨?_, ?_, ?_⟩⟩,
    fun s w dst cnt src imm v tf prot bmi2 wide read => ⟨?_, ?_, ?_, ?_⟩⟩
  · exact run_bitOps tf prot read
  · rw [exec_andn, execAndn]
    refine (run_vexOp (feature := fun t => t.feat.bmi1) _ tf prot bmi1 read).trans ?_
    simp only [bmiFlags_eq, andn_eq _ (readRM_lt read), start_readGpr, uns_readGpr]
  · have bits : w.bits = 32 ∨ w.bits = 64 := wide.imp (congrArg Width.bits) (congrArg Width.bits)
    rw [exec_bextr, execBextr]
    refine run_bextr (feature := fun t => t.feat.bmi1) (fun t => t.readGpr w a) tf prot bmi1 read ?_ ?_
    · rw [start_readGpr, readGpr_toNat, uns]
      rcases bits with h | h <;> rw [h] <;> omega
    · rw [start_readGpr, readGpr_toNat, uns]
      rcases bits with h | h <;> rw [h] <;> omega
  · rw [exec_bextr, execBextr]
    refine run_bextr (feature := fun t => t.feat.tbm) (fun t => imm.setWidth 64) tf prot tbm read ?_ ?_
    · rw [BitVec.toNat_setWidth_of_le (by decide)]
    · rw [BitVec.toNat_setWidth_of_le (by decide)]
  · have value := bzhi_eq (readRM_lt read) (s.readGpr .w8 a).toNat
    rw [exec_bzhi, execBzhi]
    refine (run_vexOp (feature := fun t => t.feat.bmi2) _ tf prot bmi2 read).trans ?_
    rw [readGpr_toNat] at value
    simp only [bmiFlags_eq, start_readGpr, readGpr_toNat]
    refine congrArg (fun r => Host.Outcome.next (s.manipulated w dst r (decide (w.bits ≤ uns .w8 (s.reg a))))) ?_
    exact value
  · rw [exec_pdep, execPdep]
    refine (run_vexOp (feature := fun t => t.feat.bmi2) _ tf prot bmi2 read).trans ?_
    rw [deposit_eq]
    rfl
  · rw [exec_pext, execPext]
    refine (run_vexOp (feature := fun t => t.feat.bmi2) _ tf prot bmi2 read).trans ?_
    rw [extract_eq]
    rfl
  · have count : maskCount w imm.toNat = imm.toNat % w.bits := by rw [maskCount, wide_bits wide]
    rw [exec_rorx, execRorx]
    refine (run_vexOp (feature := fun t => t.feat.bmi2) _ tf prot bmi2 read).trans ?_
    simp only [count, rotateRight_eq (readRM_lt read), Nat.mod_mod]
    rfl
  · rw [exec_sarx, execSarx]
    refine (run_vexOp (feature := fun t => t.feat.bmi2) _ tf prot bmi2 read).trans ?_
    simp only [start_readGpr, readGpr_mod_bits wide, trunc_sshiftRight]
    rfl
  · have value (k : Nat) : uns w (v <<< k) = uns w (wrap w (uns w v * 2 ^ k : Nat)) := by
      rw [uns_wrap, ← toNat_eq_uns (readRM_lt read), uns_shiftLeft]
    rw [exec_shlx, execShlx]
    refine (run_vexOp (feature := fun t => t.feat.bmi2) _ tf prot bmi2 read).trans ?_
    simp only [start_readGpr, readGpr_mod_bits wide]
    rw [writeGpr_trunc, writeGpr_congr (value _)]
    rfl
  · have value (k : Nat) : uns w (v >>> k) = uns w (wrap w (uns w v / 2 ^ k : Nat)) := by
      rw [uns_wrap, uns, BitVec.toNat_ushiftRight, Nat.shiftRight_eq_div_pow, toNat_eq_uns (readRM_lt read)]
    rw [exec_shrx, execShrx]
    refine (run_vexOp (feature := fun t => t.feat.bmi2) _ tf prot bmi2 read).trans ?_
    simp only [start_readGpr, readGpr_mod_bits wide]
    rw [writeGpr_congr (value _)]
    rfl

end Sys2Proof.Machine
end

