-- ==== Sys2Proof/Proofs/Translation.lean ====
section
/-! PROOFS. Accesses in states that differ in what an access does not read (20_memory.md R105 to R108). -/

namespace Sys2Proof.Machine

variable {s t : State}

theorem physAddrs_congr (translate : ∀ acc lin, s.translate acc lin = t.translate acc lin) (acc : Config.Access) (wrap32 : Bool) (n : Nat) :
    ∀ lin, s.physAddrs acc wrap32 n lin = t.physAddrs acc wrap32 n lin := by
  induction n with
  | zero => exact fun _ => rfl
  | succ n ih =>
    intro lin
    rw [State.physAddrs, State.physAddrs, translate, ih]

/-- An access to linear addresses reads the configuration and the translation. -/
theorem span_congr (cfg : s.cfg = t.cfg) (translate : ∀ acc lin, s.translate acc lin = t.translate acc lin) (acc : Config.Access)
    (wrap32 : Bool) (lin : Quad) : s.span acc wrap32 lin = t.span acc wrap32 lin := by
  have absent (ps : List Nat) : s.absent ps = t.absent ps := by rw [State.absent, State.absent, cfg]
  rw [State.span, State.span, physAddrs_congr translate]
  simp only [absent]

end Sys2Proof.Machine
end

