-- ==== Sys2Proof/Proofs/Moves.lean ====
section
/-! PROOFS. The statements about moves (43_gp_l_m.md R453, R470, R471, R475, R477 to R479, 40_gp_a_b.md R328, 46_gp_t_x.md R638) and
about conditional moves and sets (41_gp_c.md R365, R366, 45_gp_r_s.md R582). -/

namespace Sys2Proof.Machine

variable {s t : State} {w : Width}

/-! ### Operands -/

theorem wrap_toNat_eq_trunc (w : Width) (v : Quad) : wrap w v.toNat = trunc w v := by
  apply BitVec.eq_of_toNat_eq
  rw [trunc_toNat, wrap_nat, uns]

theorem readM_of_access {m : Mem} {n : Nat} {ps : List Nat} (h : t.access m.seg (t.ea m) n false = .ok ps) :
    t.readM m n = .ok (BitVec.ofNat 64 (t.loadAt ps)) := readMem_ok.mpr ⟨ps, h, rfl⟩

theorem writeM_of_access {m : Mem} {n : Nat} {ps : List Nat} {v : Quad} (h : t.access m.seg (t.ea m) n true = .ok ps) :
    t.writeM m n v = .ok (t.storeAt ps v.toNat) := writeMem_ok.mpr ⟨ps, h, rfl⟩

theorem writeRM_of_place {rm : RM} {v : Quad} {p : Place} (h : t.place w true rm = .ok p) : t.writeRM w rm v = .ok (t.putAt w p v) :=
  writeRM_ok.mpr ⟨p, h, rfl⟩

theorem ofInt_sgn (w : Width) (v : Quad) : BitVec.ofInt 64 (sgn w v) = sext w v := by
  rw [← sext_toInt, BitVec.ofInt_toInt]

theorem ofNat_uns {v : Quad} (small : v.toNat < 2 ^ w.bits) : BitVec.ofNat 64 (uns w v) = v := by
  rw [← toNat_eq_uns small, BitVec.ofNat_toNat, BitVec.setWidth_eq]

/-! ### The order of bytes -/

theorem append_byte_toNat {n : Nat} (x : BitVec n) (b : Byte) : (x ++ b).toNat = x.toNat * 256 + b.toNat := by
  rw [BitVec.toNat_append, ← Nat.shiftLeft_add_eq_or_of_lt b.isLt, Nat.shiftLeft_eq]

theorem byte_toNat (v : Quad) (i : Nat) : (v.extractLsb' (8 * i) 8).toNat = v.toNat / 256 ^ i % 256 := by
  rw [BitVec.extractLsb'_toNat, Nat.shiftRight_eq_div_pow, Nat.pow_mul]

theorem swapped_foldl_lt (v m n : Nat) (k : Nat) (h : m < 256 ^ k) :
    (List.range n).foldl (fun a i => a * 256 + v / 256 ^ i % 256) m < 256 ^ (k + n) := by
  induction n with
  | zero => exact h
  | succ n ih =>
    rw [List.range_succ, List.foldl_append, ← Nat.add_assoc, Nat.pow_succ]
    simp only [List.foldl_cons, List.foldl_nil]
    omega

theorem swapped_toNat (w : Width) (v : Quad) :
    (swapped w v).toNat = (List.range w.bytes).foldl (fun n i => n * 256 + v.toNat / 256 ^ i % 256) 0 := by
  have lt := swapped_foldl_lt v.toNat 0 w.bytes 0 Nat.one_pos
  rw [Nat.zero_add, pow_bytes] at lt
  rw [swapped, BitVec.toNat_ofNat, Nat.mod_eq_of_lt (Nat.lt_of_lt_of_le lt (pow_bits_le w))]

theorem byteSwap_eq (w : Width) (v : Quad) : byteSwap w v = swapped w v := by
  apply BitVec.eq_of_toNat_eq
  rw [swapped_toNat]
  cases w with
  | w8 => 
    rw [byteSwap, trunc_toNat, uns]
    simp [Width.bits, Width.bytes, List.range_succ]
  | w16 =>
    change ((v.extractLsb' (8 * 0) 8 ++ v.extractLsb' (8 * 1) 8 : BitVec 16).setWidth 64).toNat = _
    rw [BitVec.toNat_setWidth_of_le (by decide), append_byte_toNat, byte_toNat, byte_toNat]
    simp [Width.bytes, List.range_succ]
  | w32 =>
    change ((v.extractLsb' (8 * 0) 8 ++ v.extractLsb' (8 * 1) 8 ++ v.extractLsb' (8 * 2) 8 ++ v.extractLsb' (8 * 3) 8 :
      BitVec 32).setWidth 64).toNat = _
    rw [BitVec.toNat_setWidth_of_le (by decide), append_byte_toNat, append_byte_toNat, append_byte_toNat]
    simp only [byte_toNat]
    simp [Width.bytes, List.range_succ]
  | w64 =>
    change (v.extractLsb' (8 * 0) 8 ++ v.extractLsb' (8 * 1) 8 ++ v.extractLsb' (8 * 2) 8 ++ v.extractLsb' (8 * 3) 8 ++
      v.extractLsb' (8 * 4) 8 ++ v.extractLsb' (8 * 5) 8 ++ v.extractLsb' (8 * 6) 8 ++ v.extractLsb' (8 * 7) 8 : BitVec 64).toNat = _
    rw [append_byte_toNat, append_byte_toNat, append_byte_toNat, append_byte_toNat, append_byte_toNat, append_byte_toNat,
      append_byte_toNat]
    simp only [byte_toNat]
    simp [Width.bytes, List.range_succ]

theorem swapped_trunc (w : Width) (v : Quad) : swapped w (trunc w v) = swapped w v := by
  have byte (i : Nat) (h : i < w.bytes) : uns w v / 256 ^ i % 256 = v.toNat / 256 ^ i % 256 := by
    have bits : w.bits = 8 * w.bytes := by cases w <;> rfl
    rw [show (256 : Nat) = 2 ^ 8 from rfl, ← Nat.pow_mul]
    refine Nat.eq_of_testBit_eq fun j => ?_
    rw [Nat.testBit_mod_two_pow, Nat.testBit_mod_two_pow, Nat.testBit_div_two_pow, Nat.testBit_div_two_pow, uns, Nat.testBit_mod_two_pow]
    by_cases low : j < 8
    · rw [decide_eq_true (show j + 8 * i < w.bits by omega), Bool.true_and]
    · rw [decide_eq_false low, Bool.false_and, Bool.false_and]
  rw [← BitVec.toNat_inj, swapped_toNat, swapped_toNat, trunc_toNat]
  refine List.foldl_ext _ _ _ fun n i listed => ?_
  rw [byte i (List.mem_range.mp listed)]

/-! ### Conditions -/

theorem cond_nbe (f : Flags) : f.cond .nbe = condHolds f 7 := by
  simp [Flags.cond, condHolds]

theorem cond_nl (f : Flags) : f.cond .nl = condHolds f 13 := by
  simp [Flags.cond, condHolds, bne]

theorem cond_nle (f : Flags) : f.cond .nle = condHolds f 15 := by
  simp [Flags.cond, condHolds, bne]

/-- A conditional move by the number of its condition. -/
theorem cmovccs_exec : ∀ x ∈ cmovccs, ∃ c : Cond, (∀ f : Flags, f.cond c = condHolds f x.1) ∧
    ∀ (s : State) (w : Width) (dst : Gpr) (src : RM), exec (x.2 w dst src) s = run s fun t => t.cmov c w dst src := by
  simp only [cmovccs, List.forall_mem_cons, List.not_mem_nil, false_implies, implies_true, and_true]
  exact ⟨⟨.o, fun _ => rfl, fun _ _ _ _ => rfl⟩, ⟨.no, fun _ => rfl, fun _ _ _ _ => rfl⟩, ⟨.b, fun _ => rfl, fun _ _ _ _ => rfl⟩,
    ⟨.nb, fun _ => rfl, fun _ _ _ _ => rfl⟩, ⟨.z, fun _ => rfl, fun _ _ _ _ => rfl⟩, ⟨.nz, fun _ => rfl, fun _ _ _ _ => rfl⟩,
    ⟨.be, fun _ => rfl, fun _ _ _ _ => rfl⟩, ⟨.nbe, cond_nbe, fun _ _ _ _ => rfl⟩, ⟨.s, fun _ => rfl, fun _ _ _ _ => rfl⟩,
    ⟨.ns, fun _ => rfl, fun _ _ _ _ => rfl⟩, ⟨.p, fun _ => rfl, fun _ _ _ _ => rfl⟩, ⟨.np, fun _ => rfl, fun _ _ _ _ => rfl⟩,
    ⟨.l, fun _ => rfl, fun _ _ _ _ => rfl⟩, ⟨.nl, cond_nl, fun _ _ _ _ => rfl⟩, ⟨.le, fun _ => rfl, fun _ _ _ _ => rfl⟩,
    ⟨.nle, cond_nle, fun _ _ _ _ => rfl⟩⟩

/-- A conditional set by the number of its condition. -/
theorem setccs_exec : ∀ x ∈ setccs, ∃ c : Cond, (∀ f : Flags, f.cond c = condHolds f x.1) ∧
    ∀ (s : State) (rm : RM), exec (x.2 rm) s = run s fun t => t.setcc c rm := by
  simp only [setccs, List.forall_mem_cons, List.not_mem_nil, false_implies, implies_true, and_true]
  exact ⟨⟨.o, fun _ => rfl, fun _ _ => rfl⟩, ⟨.no, fun _ => rfl, fun _ _ => rfl⟩, ⟨.b, fun _ => rfl, fun _ _ => rfl⟩,
    ⟨.nb, fun _ => rfl, fun _ _ => rfl⟩, ⟨.z, fun _ => rfl, fun _ _ => rfl⟩, ⟨.nz, fun _ => rfl, fun _ _ => rfl⟩,
    ⟨.be, fun _ => rfl, fun _ _ => rfl⟩, ⟨.nbe, cond_nbe, fun _ _ => rfl⟩, ⟨.s, fun _ => rfl, fun _ _ => rfl⟩,
    ⟨.ns, fun _ => rfl, fun _ _ => rfl⟩, ⟨.p, fun _ => rfl, fun _ _ => rfl⟩, ⟨.np, fun _ => rfl, fun _ _ => rfl⟩,
    ⟨.l, fun _ => rfl, fun _ _ => rfl⟩, ⟨.nl, cond_nl, fun _ _ => rfl⟩, ⟨.le, fun _ => rfl, fun _ _ => rfl⟩,
    ⟨.nle, cond_nle, fun _ _ => rfl⟩⟩

/-- Settles O32. -/
theorem conditionalMoveAndSet : Obligations.ConditionalMoveAndSet := by
  refine fun s w dst src v p tf => ⟨fun cmov read x listed => ?_, fun place x listed => ?_⟩
  · obtain ⟨c, cond, exec_x⟩ := cmovccs_exec x listed
    rw [exec_x]
    apply run_ok tf
    have holds : s.start.flags.cond c = condHolds s.flags x.1 := cond s.flags
    have same : s.start.writeGpr .w32 dst (s.readGpr .w32 dst) = s.start.writeGpr .w32 dst (s.reg dst) := writeGpr_trunc _ _ _ _
    simp only [State.cmov, start_feat, cmov, require_true, read, ok_bind, holds, start_mode64, start_readGpr, same, Bool.and_eq_true,
      decide_eq_true_eq]
  · obtain ⟨c, cond, exec_x⟩ := setccs_exec x listed
    have holds : s.start.flags.cond c = condHolds s.flags x.1 := cond s.flags
    rw [exec_x]
    apply run_ok tf
    rw [State.setcc, writeRM_of_place place, holds]
    rfl

/-- Settles O29. -/
theorem moveResult : Obligations.MoveResult := by
  refine fun s w sw rm r d m seg n asz imm v p ps tf => ⟨fun read => ⟨?_, ?_, ?_, fun half => ?_⟩, fun place => ⟨?_, ?_⟩, fun access => ?_,
    fun access => ?_, ?_, fun access => ?_, fun access movbe => ?_, fun access => ⟨fun movbe => ?_, fun sse2 => ?_⟩, ?_, fun access => ?_,
    ?_, ?_, ?_⟩
  · rw [exec_mov, execMov]
    apply run_ok tf
    simp only [read, ok_bind]
  · rw [exec_movzx, execMovzx]
    apply run_ok tf
    simp only [read, ok_bind, ofNat_uns (readRM_lt read)]
  · rw [exec_movsx, execMovsx]
    apply run_ok tf
    simp only [read, ok_bind, ofInt_sgn]
  · have width : (if w = .w16 then Width.w16 else .w32) = sw := by
      split at half
      next short => exact (if_pos short).trans half.symm
      next long => exact (if_neg long).trans half.symm
    rw [exec_movsxd, execMovsxd]
    apply run_ok tf
    simp only [width, read, ok_bind, ofInt_sgn]
  · rw [exec_mov, execMov]
    exact run_ok tf (writeRM_of_place place)
  · rw [exec_mov, execMov]
    exact run_ok tf (writeRM_of_place place)
  · rw [wrap_toNat_eq_trunc] at access
    rw [exec_mov, execMov]
    apply run_ok tf
    simp only [readMem_ok.mpr ⟨ps, access, rfl⟩, ok_bind, start_loadAt]
  · rw [wrap_toNat_eq_trunc] at access
    rw [exec_mov, execMov]
    apply run_ok tf
    simp only [writeMem_ok.mpr ⟨ps, access, rfl⟩, start_readGpr, readGpr_toNat]
    rfl
  · rw [exec_mov, execMov]
    exact run_ok tf rfl
  · rw [exec_mov, execMov]
    apply run_ok tf
    refine (writeM_of_access access).trans ?_
    rw [BitVec.toNat_setWidth_of_le (by decide)]
    rfl
  · rw [exec_movbe, execMovbe]
    apply run_ok tf
    simp only [start_feat, movbe, require_true, ok_bind, readM_of_access access, byteSwap_eq, start_loadAt]
  · rw [exec_movbe, execMovbe]
    apply run_ok tf
    simp only [start_feat, movbe, require_true, ok_bind, writeM_of_access access, byteSwap_eq, start_readGpr]
    rw [State.readGpr, swapped_trunc]
  · rw [exec_movnti, execMovnti]
    apply run_ok tf
    simp only [start_feat, sse2, require_true, ok_bind, writeM_of_access access, start_readGpr, readGpr_toNat]
  · rw [exec_lea, execLea]
    exact run_ok tf rfl
  · have sum : trunc (addrWidth asz) (s.start.gpr.rbx + s.start.readGpr .w8 .rax) =
        wrap (addrWidth asz) (s.gpr.rbx.toNat + s.gpr.rax.toNat % 256 : Nat) := by
      apply BitVec.eq_of_toNat_eq
      rw [trunc_toNat, wrap_nat, uns_add, readGpr_toNat]
      rfl
    rw [exec_xlat, execXlat]
    apply run_ok tf
    simp only [sum, readMem_ok.mpr ⟨ps, access, rfl⟩, ok_bind, start_loadAt]
  · rw [exec_bswap, execBswap]
    refine run_ok tf (congrArg (fun v => Except.ok (s.start.writeGpr .w32 d v)) ?_)
    rw [byteSwap_eq, State.readGpr, swapped_trunc]
    rfl
  · rw [exec_bswap, execBswap]
    refine run_ok tf (congrArg (fun v => Except.ok (s.start.writeGpr .w64 d v)) ?_)
    rw [byteSwap_eq, State.readGpr, swapped_trunc]
    rfl
  · rw [exec_bswap, execBswap]
    exact run_ok tf rfl

end Sys2Proof.Machine
end

