-- ==== Sys2Proof/Proofs/SegmentLoads.lean ====
section
/-! PROOFS. The statement about loads of segment registers (43_gp_l_m.md R451, R452, R470, 44_gp_n_p.md R523, 60_exceptions.md
R930). -/

namespace Sys2Proof.Machine

variable {s t u : State}

theorem require_bind {α : Type} (c : Bool) (e : Trap) (f : Unit → Res α) : (require c e >>= f) = if c then f () else .error e := by
  cases c <;> rfl

/-- A selector is null by its value. -/
theorem isNull_eq (sel : BitVec 16) : isNull sel = decide (sel.toNat < 4) := by
  have high : (sel &&& 0xFFFC).toNat = sel.toNat / 4 * 4 := by
    have mask : ∀ i < 16, (0xFFFC).testBit i = decide (i ≥ 2) := by decide
    rw [BitVec.toNat_and, Nat.mul_comm]
    refine Nat.eq_of_testBit_eq fun i => ?_
    rw [Nat.testBit_and, show 4 = 2 ^ 2 from rfl, Nat.testBit_two_pow_mul, Nat.testBit_div_two_pow]
    by_cases low : i < 16
    · rw [show (0xFFFC : BitVec 16).toNat = 0xFFFC from rfl, mask i low]
      by_cases two : i ≥ 2
      · rw [Nat.sub_add_cancel two, decide_eq_true two, Bool.and_true, Bool.true_and]
      · rw [decide_eq_false two, Bool.and_false, Bool.false_and]
    · rw [testBit_of_lt sel.isLt (by omega), testBit_of_lt sel.isLt (by omega), Bool.false_and, Bool.and_false]
  rw [isNull, Bool.eq_iff_iff, beq_iff_eq, decide_eq_true_iff, ← BitVec.toNat_inj, high]
  change sel.toNat / 4 * 4 = 0 ↔ _
  omega

theorem shiftLeft_four (sel : BitVec 16) : sel.setWidth 64 <<< 4 = BitVec.ofNat 64 (sel.toNat * 16) := by
  apply BitVec.eq_of_toNat_eq
  rw [BitVec.toNat_shiftLeft, BitVec.toNat_setWidth_of_le (by decide), Nat.shiftLeft_eq, BitVec.toNat_ofNat]

theorem loadSegReg_real (n : SegName) (sel : BitVec 16) (real : s.protMode = false) :
    s.loadSegReg n sel = .ok (s.setSreg n { s.sreg n with sel := sel, base := BitVec.ofNat 64 (sel.toNat * 16) }) := by
  rw [State.loadSegReg, real, ← shiftLeft_four]
  rfl

theorem loadNull_eq (n : SegName) (sel : BitVec 16) : s.loadNull n sel = s.setSreg n { s.sreg n with
    sel := sel
    base := if s.feat.nullSelectClearsBase then 0 else (s.sreg n).base
    limit := if s.feat.nullSelectClearsBase then 0 else (s.sreg n).limit } := by
  rw [State.loadNull]
  cases s.feat.nullSelectClearsBase <;> rfl

/-- A null selector has no descriptor. -/
theorem not_isNull_of_readDesc {bad : Trap} {sel : BitVec 16} {d : Quad} (h : s.readDesc bad sel = .ok d) : isNull sel = false := by
  obtain ⟨⟨⟩, check, -⟩ := bind_ok.mp h
  simpa using require_ok.mp check

/-- What the descriptor must be for a load of a segment register. -/
def State.loadable (s : State) (n : SegName) (sel : BitVec 16) (a : SegAttr) : Bool :=
  if n = .ss then rpl sel == s.cpl && a.dpl == s.cpl && a.writable
  else a.readable && (a.conforming || (rpl sel ≤ a.dpl && s.cpl ≤ a.dpl))

theorem loadSegReg_desc {n : SegName} {sel : BitVec 16} {d : Quad} (prot : s.protMode = true)
    (read : s.readDesc (gpSel sel) sel = .ok d) :
    s.loadSegReg n sel = if s.loadable n sel (descAttr d) = false then .error (gpSel sel)
      else if (descAttr d).p = false then .error (excSel (if n = .ss then .ss else .np) sel)
      else .ok (s.setSreg n (descSeg sel d)) := by
  have present := not_isNull_of_readDesc read
  rw [State.loadSegReg, prot, present, State.loadable]
  have refuse : excSel .gp sel = gpSel sel := rfl
  by_cases ss : n = .ss
  · simp only [ss, if_true, Bool.not_true, Bool.false_eq_true, if_false, State.readSs, refuse, read, ok_bind, require_bind]
    cases (rpl sel == s.cpl && (descAttr d).dpl == s.cpl) <;> cases (descAttr d).writable <;> cases (descAttr d).p <;> rfl
  · simp only [ss, if_false, Bool.not_true, Bool.false_eq_true, State.readDataSeg, read, ok_bind, require_bind]
    cases (descAttr d).readable <;> cases ((descAttr d).conforming || (rpl sel ≤ (descAttr d).dpl && s.cpl ≤ (descAttr d).dpl)) <;>
      cases (descAttr d).p <;> rfl

theorem openShadow_eq (u s : State) (n : SegName) : u.openShadow s n =
    if n = .ss ∧ s.exec.shadow = .none then { u with exec := { u.exec with shadow := .ss } } else u := by
  simp [State.openShadow]

/-- A far pointer read and its segment register loaded. -/
theorem loadFar_eq {t u : State} {w : Width} {n : SegName} {dst : Gpr} {m : Mem} {ps qs : List Nat}
    (offset : t.access m.seg (t.ea m) (zWidth w).bytes false = .ok ps)
    (selector : t.access m.seg (t.ea m + BitVec.ofNat 64 (zWidth w).bytes) 2 false = .ok qs)
    (load : t.loadSegReg n (BitVec.ofNat 16 (t.loadAt qs)) = .ok u) :
    t.loadFar w n dst m = .ok (u.writeGpr (zWidth w) dst (BitVec.ofNat 64 (t.loadAt ps))) := by
  have narrow : (BitVec.ofNat 64 (t.loadAt qs)).setWidth 16 = BitVec.ofNat 16 (t.loadAt qs) := by
    apply BitVec.eq_of_toNat_eq
    simp only [BitVec.toNat_setWidth, BitVec.toNat_ofNat]
    omega
  simp only [State.loadFar, State.readFar, readM_of_access offset, readMem_ok.mpr ⟨qs, selector, rfl⟩, ok_bind, narrow, load]

/-- Settles O30. -/
theorem segmentRegisterLoads : Obligations.SegmentRegisterLoads := by
  refine fun s t u w rm dst m n sel d v off ps qs => ⟨loadSegReg_real n sel, fun prot null fine => ?_, fun prot null ss bad => ?_,
    fun prot read => loadSegReg_desc prot read, fun tf cs => ⟨fun read load => ?_, fun old pop load => ?_⟩,
    fun tf access second hoff hsel load x listed hn allowed => ?_⟩
  · have null : isNull sel = true := by rw [isNull_eq, decide_eq_true null]
    rw [State.loadSegReg, prot, null, ← loadNull_eq]
    by_cases ss : n = .ss
    · obtain ⟨mode, level⟩ := fine ss
      have allowed : (s.mode64 && s.cpl != 3) = true := by simpa using ⟨mode, level⟩
      simp only [ss, allowed, Bool.not_true, Bool.false_eq_true, if_true, if_false, require_true, ok_bind]
    · simp [ss]
  · have null : isNull sel = true := by rw [isNull_eq, decide_eq_true null]
    have refused : (s.mode64 && s.cpl != 3) = false := by
      rcases bad with h | h <;> simp [h]
    rw [State.loadSegReg, prot, null, refused]
    simp [ss]
  · rw [exec_mov, execMov]
    apply run_ok tf
    have legal : (n != .cs) = true := by simpa using cs
    simp only [State.movToSeg, legal, require_true, read, load, ok_bind, openShadow_eq]
  · rw [exec_pop, execPop]
    apply run_ok tf
    have legal : (n != .cs && !(s.start.mode64 && oldSegment n)) = true := by
      rw [start_mode64]
      cases mode : s.mode64 with
      | false => simpa using cs
      | true => rcases old mode with rfl | rfl <;> rfl
    simp only [State.popSeg, legal, require_true, pop, load, ok_bind, openShadow_eq]
  · subst hoff hsel hn
    have done := loadFar_eq (dst := dst) access second load
    simp only [List.mem_cons, List.not_mem_nil, or_false] at listed
    rcases listed with rfl | rfl | rfl | rfl | rfl
    · have mode : s.mode64 = false := by simpa using allowed
      rw [exec_lds, execLds]
      apply run_ok tf
      rw [start_mode64, mode]
      exact done
    · have mode : s.mode64 = false := by simpa using allowed
      rw [exec_les, execLes]
      apply run_ok tf
      rw [start_mode64, mode]
      exact done
    · rw [exec_lfs, execLfs]
      exact run_ok tf done
    · rw [exec_lgs, execLgs]
      exact run_ok tf done
    · rw [exec_lss, execLss]
      exact run_ok tf done

end Sys2Proof.Machine
end

