-- ==== Sys2Proof/Proofs/ControlMoves.lean ====
section
/-! PROOFS. The statement about MOV to and from the control and debug registers (51_sys_m_r.md R761, R762). -/

namespace Sys2Proof.Machine

variable {s t u : State}

/-! ### Control registers -/

/-- The number of a control register, with the 8 that LOCK adds. -/
def crIndex (lock : Bool) (n : BitVec 4) : Nat := n.toNat + (if lock then 8 else 0)

/-- The control registers that exist. -/
def crKnown (k : Nat) : Bool := k == 0 || k == 2 || k == 3 || k == 4 || k == 8

theorem crKnown_iff (k : Nat) : crKnown k = true ↔ k ∈ [0, 2, 3, 4, 8] := by
  simp [crKnown, or_assoc]

theorem crNumber_eq (lock : Bool) (n : BitVec 4) : t.crNumber lock n =
    if !lock || t.feat.altMovCr8 then if crKnown (crIndex lock n) then .ok (crIndex lock n) else .error ud else .error ud := by
  rw [State.crNumber, require_bind, ← require_bind (crKnown (crIndex lock n)) ud fun _ => .ok (crIndex lock n)]
  rfl

theorem crNumber_ok {lock : Bool} {n : BitVec 4} (allowed : lock = true → t.feat.altMovCr8 = true)
    (known : crIndex lock n ∈ [0, 2, 3, 4, 8]) : t.crNumber lock n = .ok (crIndex lock n) := by
  have first : (!lock || t.feat.altMovCr8) = true := by cases lock <;> simp_all
  rw [crNumber_eq, if_pos first, if_pos ((crKnown_iff _).mpr known)]

theorem crNumber_absent {lock : Bool} {n : BitVec 4}
    (absent : crIndex lock n ∉ [0, 2, 3, 4, 8] ∨ lock = true ∧ t.feat.altMovCr8 = false) : t.crNumber lock n = .error ud := by
  rw [crNumber_eq]
  rcases absent with unknown | ⟨rfl, without⟩
  · rw [if_neg ((crKnown_iff _).not.mpr unknown), ite_self]
  · rw [without]
    rfl

/-- A value that a control register takes. -/
def State.crLegal (s : State) (v : Quad) (k : Nat) : Prop :=
  match k with
  | 0 => v &&& s.cfg.cr0Reserved = 0 ∧ (v.getLsbD 31 = true → v.getLsbD 0 = true) ∧
      (v.getLsbD 29 = true → v.getLsbD 30 = true) ∧
      (v.getLsbD 31 = true → s.pg = false → s.eferBit 8 = true → s.cr4Bit 5 = true) ∧
      (v.getLsbD 31 = false → s.cr4Bit 17 = false)
  | 3 => v &&& (if s.longMode then s.cfg.cr3Reserved else s.cfg.cr3ReservedLegacy) = 0
  | 4 => v &&& s.cfg.cr4Reserved = 0 ∧ (s.longMode = true → v.getLsbD 5 = true) ∧
      (v.getLsbD 17 = true → s.cr4Bit 17 = false → s.longMode = true ∧ s.ctl.cr3.toNat % 4096 = 0)
  | 8 => v &&& s.cfg.cr8Reserved = 0
  | _ => True

theorem checkCr_ok_iff {v : Quad} {k : Nat} (known : k ∈ [0, 2, 3, 4, 8]) : t.checkCr k v = .ok () ↔ t.crLegal v k := by
  have low : t.ctl.cr3.extractLsb' 0 12 = 0 ↔ t.ctl.cr3.toNat % 4096 = 0 := by
    rw [← BitVec.toNat_inj, BitVec.extractLsb'_toNat, Nat.shiftRight_zero]
    rfl
  simp only [List.mem_cons, List.not_mem_nil, or_false] at known
  rcases known with rfl | rfl | rfl | rfl | rfl
  · simp only [State.checkCr, State.checkCr0, State.crLegal, bind_ok, require_ok, exists_const, beq_iff_eq, Bool.not_eq_true',
      Bool.and_eq_false_imp, Bool.not_eq_false', Bool.and_eq_true, and_imp]
  · simp only [State.checkCr, State.crLegal]
  · simp only [State.checkCr, State.checkCr3, State.crLegal, require_ok, State.cr3Mask, beq_iff_eq]
  · simp only [State.checkCr, State.checkCr4, State.crLegal, bind_ok, require_ok, exists_const, beq_iff_eq, Bool.not_eq_true',
      Bool.and_eq_false_imp, Bool.not_eq_false', Bool.and_eq_true, and_imp, Bool.or_eq_false_iff, bne_eq_false_iff_eq, low]
  · simp only [State.checkCr, State.crLegal, require_ok, beq_iff_eq]

theorem known_of_checked {k : Nat} (h : k ∈ [0, 3, 4, 8]) : k ∈ [0, 2, 3, 4, 8] :=
  List.mem_cons.mpr ((List.mem_cons.mp h).imp_right (List.mem_cons_of_mem 2))

/-- A value that a control register does not take raises #GP(0). -/
theorem checkCr_gp0 {v : Quad} {k : Nat} (known : k ∈ [0, 3, 4, 8]) (bad : ¬t.crLegal v k) : t.checkCr k v = .error gp0 := by
  have ok := (checkCr_ok_iff (t := t) (v := v) (k := k) (known_of_checked known)).not.mpr bad
  have or_gp0 (c : Bool) (x : Res Unit) (hx : x = .ok () ∨ x = .error gp0) : (require c gp0 >>= fun _ => x) = .ok () ∨
      (require c gp0 >>= fun _ => x) = .error gp0 := by
    cases c
    · exact .inr rfl
    · exact hx
  have last (c : Bool) : require c gp0 = .ok () ∨ require c gp0 = .error gp0 := by
    cases c
    · exact .inr rfl
    · exact .inl rfl
  refine Or.resolve_left ?_ ok
  simp only [List.mem_cons, List.not_mem_nil, or_false] at known
  rcases known with rfl | rfl | rfl | rfl
  · exact or_gp0 _ _ (or_gp0 _ _ (or_gp0 _ _ (or_gp0 _ _ (last _))))
  · exact last _
  · exact or_gp0 _ _ (or_gp0 _ _ (last _))
  · exact last _

theorem badPdpt_identity (h : t.cfg.paging = .identity) : t.badPdpt = false := by
  rw [State.badPdpt, h]
  rfl

/-- A control register written with a value that it takes. -/
theorem writeCr_eq {v : Quad} {k : Nat} (paging : t.cfg.paging = .identity) (known : k ∈ [0, 2, 3, 4, 8]) (legal : t.crLegal v k) :
    t.writeCr k v = .ok (if k = 0 then t.setCr0 v else { t with ctl := t.ctl.setCr k v }) := by
  have same : (if k = 0 then t.setCr0 v else { t with ctl := t.ctl.setCr k v }).cfg.paging = .identity := by
    split
    · rw [State.setCr0, State.clipRip, enterMode_frame]
      split <;> exact paging
    · exact paging
  rw [State.writeCr, (checkCr_ok_iff known).mpr legal, ok_bind]
  simp only [badPdpt_identity same, Bool.and_false, Bool.not_false, require_true, ok_bind]

theorem enterMode_rip (s t : State) : (s.enterMode t).rip = t.rip := by rw [enterMode_frame]

/-- The value that a move to a control or debug register takes. -/
theorem readGpr_crWidth (s : State) (r : Gpr) :
    s.start.readGpr s.start.crWidth r = BitVec.ofNat 64 (uns (if s.mode64 then .w64 else .w32) (s.reg r)) := by
  apply BitVec.eq_of_toNat_eq
  rw [readGpr_toNat, BitVec.toNat_ofNat, Nat.mod_eq_of_lt (Nat.lt_of_lt_of_le (uns_lt _ _) (pow_bits_le _))]
  rfl

theorem exec_fromCr (lock : Bool) (n : BitVec 4) (r : Gpr) (s : State) :
    exec (.mov (.fromCr lock n r)) s = run s fun t => t.movFromCr lock n r := rfl

theorem exec_toCr (lock : Bool) (n : BitVec 4) (r : Gpr) (s : State) :
    exec (.mov (.toCr lock n r)) s = run s fun t => t.movToCr lock n r := rfl

theorem exec_fromDr (n : BitVec 4) (r : Gpr) (s : State) : exec (.mov (.fromDr n r)) s = run s fun t => t.movFromDr n r := rfl

theorem exec_toDr (n : BitVec 4) (r : Gpr) (s : State) : exec (.mov (.toDr n r)) s = run s fun t => t.movToDr n r := rfl

theorem run_crRead {lock : Bool} {n : BitVec 4} {r : Gpr} (tf : s.flags.tf = false)
    (allowed : lock = true → s.feat.altMovCr8 = true) (known : crIndex lock n ∈ [0, 2, 3, 4, 8]) :
    exec (.mov (.fromCr lock n r)) s = if s.cpl = 0 then
      .next (s.start.writeGpr (if s.mode64 then .w64 else .w32) r (s.ctl.cr (crIndex lock n)))
    else s.raise { name := .gp, code := some 0 } := by
  have number := crNumber_ok (t := s.start) allowed known
  rw [exec_fromCr]
  split
  next level =>
    apply run_ok tf
    have level : (s.start.cpl == 0) = true := by simpa using level
    simp only [State.movFromCr, number, ok_bind, level, require_true]
    rfl
  next level =>
    apply run_exc
    have level : (s.start.cpl == 0) = false := by simpa using level
    simp only [State.movFromCr, number, ok_bind, level, require_false]
    rfl

theorem run_crWrite {lock : Bool} {n : BitVec 4} {r : Gpr} {v : Quad} (tf : s.flags.tf = false) (level : s.cpl = 0)
    (paging : s.cfg.paging = .identity)
    (allowed : lock = true → s.feat.altMovCr8 = true) (known : crIndex lock n ∈ [0, 2, 3, 4, 8])
    (value : s.start.readGpr s.start.crWidth r = v) (legal : s.crLegal v (crIndex lock n)) :
    exec (.mov (.toCr lock n r)) s =
      .next (if crIndex lock n = 0 then s.start.setCr0 v else { s.start with ctl := s.ctl.setCr (crIndex lock n) v }) := by
  have number := crNumber_ok (t := s.start) allowed known
  have level : (s.start.cpl == 0) = true := by simpa using level
  rw [exec_toCr]
  apply run_ok tf
  simp only [State.movToCr, number, ok_bind, level, require_true, value]
  exact writeCr_eq paging known legal

/-! ### Debug registers -/

/-- The number of a debug register: DR4 and DR5 are DR6 and DR7. -/
def drIndex (n : BitVec 4) : Nat := if n = 4 ∨ n = 5 then n.toNat + 2 else n.toNat

/-- A debug register that does not exist. -/
def State.drGone (s : State) (n : BitVec 4) : Prop := 8 ≤ n.toNat ∨ (n = 4 ∨ n = 5) ∧ s.cr4Bit 3 = true

theorem drNumber_gone {n : BitVec 4} (gone : t.drGone n) : t.drNumber n = .error ud := by
  rw [State.drNumber, require_bind]
  rcases gone with high | ⟨old, bit⟩
  · rw [if_neg (by simpa using high)]
  · have old : (n == 4 || n == 5) = true := by simpa using old
    split
    · simp only [old, bit, require_bind]
      rfl
    · rfl

theorem drNumber_eq {n : BitVec 4} (here : ¬t.drGone n) : t.drNumber n =
    if t.cpl = 0 then if t.dbg.dr7.getLsbD 13 then .error (.exc { name := .db }) else .ok (drIndex n) else .error gp0 := by
  rw [State.drGone, not_or, Nat.not_le] at here
  obtain ⟨low, notOld⟩ := here
  have second : (!((n == 4 || n == 5) && t.cr4Bit 3)) = true := by
    rw [Bool.not_eq_true', ← Bool.not_eq_true, Bool.and_eq_true, Bool.or_eq_true, beq_iff_eq, beq_iff_eq]
    exact notOld
  rw [State.drNumber, require_bind, if_pos (by simpa using low)]
  simp only [second, require_true, ok_bind, require_bind, drIndex, beq_iff_eq, Bool.or_eq_true, Bool.not_eq_true']
  split
  · cases t.dbg.dr7.getLsbD 13 <;> rfl
  · rfl

theorem clipRip_eq (t : State) : t.clipRip = { t with rip := if t.mode64 then t.rip else BitVec.ofNat 64 (t.rip.toNat % 2 ^ 32) } := by
  have low : trunc .w32 t.rip = BitVec.ofNat 64 (t.rip.toNat % 2 ^ 32) :=
    BitVec.eq_of_toNat_eq (by rw [trunc_toNat, BitVec.toNat_ofNat, uns, Nat.mod_eq_of_lt (b := 2 ^ 64)]; rfl; omega)
  rw [State.clipRip, ← low]
  split <;> rfl

/-- MOV DRn is refused as its register number is. -/
theorem run_drRefused {n : BitVec 4} {r : Gpr} {x : Exn} (bad : s.start.drNumber n = .error (.exc x)) :
    exec (.mov (.fromDr n r)) s = s.raise x ∧ exec (.mov (.toDr n r)) s = s.raise x := by
  rw [exec_fromDr, exec_toDr]
  exact ⟨run_exc (by rw [State.movFromDr, bad]; rfl), run_exc (by rw [State.movToDr, bad]; rfl)⟩

/-- MOV CRn is refused as its register number is. -/
theorem run_crRefused {lock : Bool} {n : BitVec 4} {r : Gpr} {x : Exn} (bad : s.start.crNumber lock n = .error (.exc x)) :
    exec (.mov (.fromCr lock n r)) s = s.raise x ∧ exec (.mov (.toCr lock n r)) s = s.raise x := by
  rw [exec_fromCr, exec_toCr]
  exact ⟨run_exc (by rw [State.movFromCr, bad]; rfl), run_exc (by rw [State.movToCr, bad]; rfl)⟩

/-- The value that an instruction of the debug registers moves has no bits above 31 outside 64-bit mode. -/
theorem upper_ne_zero (v : Quad) : (v.extractLsb' 32 32 != 0) = decide (2 ^ 32 ≤ v.toNat) := by
  have lt := v.isLt
  rw [Bool.eq_iff_iff, bne_iff_ne, decide_eq_true_iff, ne_eq, ← BitVec.toNat_inj, BitVec.extractLsb'_toNat, Nat.shiftRight_eq_div_pow]
  change ¬v.toNat / 2 ^ 32 % 2 ^ 32 = 0 ↔ _
  omega

/-- Settles O31. -/
theorem controlRegisterMoves : Obligations.ControlRegisterMoves := by
  intro s lock n r tf paging
  have value := readGpr_crWidth s r
  refine ⟨fun allowed level => ⟨fun x listed hk => ?_, fun hk legal => ?_, fun x listed hk legal => ?_, fun known bad => ?_⟩,
    fun allowed known level => ⟨?_, ?_⟩, fun absent => ⟨?_, ?_⟩, fun gone => ⟨?_, ?_⟩, fun here level => ⟨?_, ?_⟩,
    fun here level => ⟨fun detect => ⟨?_, ?_⟩, fun quiet x listed hj => ⟨?_, ?_⟩⟩⟩
  · have hk : x.1 = crIndex lock n := hk
    have known : crIndex lock n ∈ [0, 2, 3, 4, 8] := hk ▸ List.mem_map_of_mem (f := Prod.fst) listed
    have reg : s.ctl.cr x.1 = x.2 := by
      revert x
      simp [Control.cr]
    refine (run_crRead tf allowed known).trans ?_
    rw [if_pos level, ← hk, reg]
  · have hk : crIndex lock n = 0 := hk
    refine (run_crWrite tf level paging allowed (by simp [hk]) value legal).trans ?_
    rw [if_pos hk, State.setCr0, clipRip_eq, enterMode_rip]
    rfl
  · have hk : x.1 = crIndex lock n := hk
    have known : crIndex lock n ∈ [2, 3, 4, 8] := hk ▸ List.mem_map_of_mem (f := Prod.fst) listed
    have reg : s.ctl.setCr x.1 (BitVec.ofNat 64 (uns (if s.mode64 then .w64 else .w32) (s.reg r))) = x.2 := by
      revert x
      simp [Control.setCr]
    refine (run_crWrite tf level paging allowed (List.mem_cons_of_mem 0 known) value legal).trans ?_
    rw [if_neg (by rintro zero; rw [zero] at known; simp at known), ← hk, reg]
  · have known : crIndex lock n ∈ [0, 3, 4, 8] := known
    have number := crNumber_ok (t := s.start) allowed (known_of_checked known)
    have level : (s.start.cpl == 0) = true := by simpa using level
    refine (exec_toCr lock n r s).trans (run_exc ?_)
    simp only [State.movToCr, number, ok_bind, level, require_true, value, State.writeCr, checkCr_gp0 (t := s.start) known bad]
    rfl
  · exact (run_crRead tf allowed known).trans (if_neg level)
  · have number := crNumber_ok (t := s.start) allowed known
    have level : (s.start.cpl == 0) = false := by simpa using level
    refine (exec_toCr lock n r s).trans (run_exc ?_)
    simp only [State.movToCr, number, ok_bind, level, require_false]
    rfl
  · exact (run_crRefused (crNumber_absent (t := s.start) absent)).1
  · exact (run_crRefused (crNumber_absent (t := s.start) absent)).2
  · exact (run_drRefused (drNumber_gone (t := s.start) gone)).1
  · exact (run_drRefused (drNumber_gone (t := s.start) gone)).2
  · exact (run_drRefused ((drNumber_eq (t := s.start) here).trans (if_neg level))).1
  · exact (run_drRefused ((drNumber_eq (t := s.start) here).trans (if_neg level))).2
  · exact (run_drRefused ((drNumber_eq (t := s.start) here).trans ((if_pos level).trans (if_pos detect)))).1
  · exact (run_drRefused ((drNumber_eq (t := s.start) here).trans ((if_pos level).trans (if_pos detect)))).2
  · have hj : x.1 = drIndex n := hj
    have number : s.start.drNumber n = .ok x.1 :=
      (drNumber_eq (t := s.start) here).trans ((if_pos level).trans ((if_neg (by simpa using quiet)).trans (by rw [hj])))
    have reg : s.dbg.dr x.1 = x.2.1 := by
      revert x
      simp [Debug.dr]
    rw [exec_fromDr]
    apply run_ok tf
    rw [State.movFromDr, number, ← reg]
    rfl
  · have hj : x.1 = drIndex n := hj
    have number : s.start.drNumber n = .ok x.1 :=
      (drNumber_eq (t := s.start) here).trans ((if_pos level).trans ((if_neg (by simpa using quiet)).trans (by rw [hj])))
    have reg : s.dbg.setDr x.1 (BitVec.ofNat 64 (uns (if s.mode64 then .w64 else .w32) (s.reg r))) = x.2.2 := by
      revert x
      simp [Debug.setDr]
    have upper : (x.1 == 6 || x.1 == 7) = decide (6 ≤ x.1) := by
      revert x
      simp
    have illegal (v : Quad) : (s.start.mode64 && decide (6 ≤ x.1) && decide (2 ^ 32 ≤ v.toNat)) =
        decide (s.mode64 = true ∧ 6 ≤ drIndex n ∧ 2 ^ 32 ≤ v.toNat) := by
      rw [start_mode64, hj]
      cases s.mode64 <;> simp
    by_cases bad : s.mode64 = true ∧ 6 ≤ drIndex n ∧
        2 ^ 32 ≤ (BitVec.ofNat 64 (uns (if s.mode64 then .w64 else .w32) (s.reg r)) : Quad).toNat
    · refine (exec_toDr n r s).trans ((run_exc ?_).trans (if_pos bad).symm)
      simp only [State.movToDr, number, ok_bind, value, upper_ne_zero, upper, illegal]
      rw [decide_eq_true bad]
      rfl
    · refine (exec_toDr n r s).trans ((run_ok tf ?_).trans (if_neg bad).symm)
      simp only [State.movToDr, number, ok_bind, value, upper_ne_zero, upper, illegal]
      rw [decide_eq_false bad, ← reg]
      rfl

end Sys2Proof.Machine
end

