-- ==== Sys2Proof/Proofs/MediaMoves.lean ====
section
/-! PROOFS. The statement about MOVD, MOVMSKPD and MOVMSKPS (43_gp_l_m.md R472 to R474). -/

namespace Sys2Proof.Machine

variable {s t : State}

theorem checkXmm_ok (em : t.ctl.cr0.getLsbD 2 = false) (ts : t.ctl.cr0.getLsbD 3 = false) (sse2 : t.feat.sse2 = true)
    (osfxsr : t.cr4Bit 9 = true) : t.checkXmm = .ok () := by
  simp only [State.checkXmm, em, ts, sse2, osfxsr, Bool.not_false, Bool.and_self, require_true, ok_bind]

theorem checkMmx_ok (em : t.ctl.cr0.getLsbD 2 = false) (ts : t.ctl.cr0.getLsbD 3 = false) (mmx : t.feat.mmx = true)
    (pending : t.media.fsw.getLsbD 7 = false) : t.checkMmx = .ok () := by
  simp only [State.checkMmx, em, ts, mmx, pending, Bool.not_false, Bool.and_self, require_true, ok_bind]

/-- An operand is found without the media registers. -/
theorem touchTags_place (w : Width) (write : Bool) (rm : RM) : t.touchTags.place w write rm = t.place w write rm := by
  cases rm with
  | reg g => rfl
  | mem m =>
    have span := span_congr (s := t.touchTags) (t := t) rfl fun _ _ => rfl
    simp only [State.place, State.access, State.accessE, State.accessParts, span]
    rfl

/-- A bit moved. -/
theorem maskBit_eq (v : BitVec 256) (src dst : Nat) :
    maskBit v src dst = BitVec.ofNat 64 (2 ^ dst * (v.getLsbD src).toNat) := by
  rw [maskBit, flagBit]
  cases v.getLsbD src with
  | false => simp [bit]
  | true =>
    apply BitVec.eq_of_toNat_eq
    rw [bit, if_pos rfl, BitVec.toNat_shiftLeft, BitVec.toNat_ofNat, BitVec.toNat_ofNat, Nat.shiftLeft_eq, Bool.toNat_true, Nat.mul_one,
      Nat.one_mod, Nat.one_mul]

/-- Settles O35. -/
theorem mediaMoveResult : Obligations.MediaMoveResult := by
  refine fun s wide x k rm dst v p tf em ts => ⟨fun sse2 osfxsr => ⟨fun read => ?_, fun place => ?_, ?_, ?_⟩,
    fun mmx pending => ⟨fun read => ?_, fun place => ?_⟩⟩
  · have check : s.start.checkXmm = .ok () := checkXmm_ok em ts sse2 osfxsr
    rw [exec_movd, execMovd]
    apply run_ok tf
    simp only [check, ok_bind, movdWidth, read]
    rfl
  · have check : s.start.checkXmm = .ok () := checkXmm_ok em ts sse2 osfxsr
    rw [exec_movd, execMovd]
    apply run_ok tf
    simp only [check, ok_bind, movdWidth, writeRM_of_place place, wrap_toNat_eq_trunc]
    rfl
  · have check : s.start.checkXmm = .ok () := checkXmm_ok em ts sse2 osfxsr
    rw [exec_movmskpd, execMovmskpd]
    apply run_ok tf
    simp only [check, ok_bind, start_ymm, maskBit_eq]
    simp only [State.ymm]
    congr 2
    cases (s.media.ymm[x.toNat]).getLsbD 63 <;> cases (s.media.ymm[x.toNat]).getLsbD 127 <;> rfl
  · have check : s.start.checkXmm = .ok () := checkXmm_ok em ts sse2 osfxsr
    rw [exec_movmskps, execMovmskps]
    apply run_ok tf
    simp only [check, ok_bind, start_ymm, maskBit_eq]
    simp only [State.ymm]
    congr 2
    cases (s.media.ymm[x.toNat]).getLsbD 31 <;> cases (s.media.ymm[x.toNat]).getLsbD 63 <;>
      cases (s.media.ymm[x.toNat]).getLsbD 95 <;> cases (s.media.ymm[x.toNat]).getLsbD 127 <;> rfl
  · have check : s.start.checkMmx = .ok () := checkMmx_ok em ts mmx pending
    rw [exec_movd, execMovd]
    apply run_ok tf
    simp only [check, ok_bind, movdWidth, read]
    rfl
  · have check : s.start.checkMmx = .ok () := checkMmx_ok em ts mmx pending
    rw [exec_movd, execMovd]
    apply run_ok tf
    simp only [check, ok_bind, movdWidth, writeRM_of_place ((touchTags_place _ _ _).trans place), wrap_toNat_eq_trunc]
    rfl

end Sys2Proof.Machine
end

