-- ==== Sys2Proof/Proofs/ProcessorReads.lean ====
section
/-! PROOFS. The statement about reads of the processor's registers and about CPUID (45_gp_r_s.md R563 to R567, 46_gp_t_x.md R635,
41_gp_c.md R371, 43_gp_l_m.md R462, 53_cpuid.md). -/

namespace Sys2Proof.Machine

variable {s t : State} {w : Width}

/-! ### Packed flags -/

theorem packBits_foldl_getLsbD (l : List (Nat × Bool)) (acc : BitVec 32) (n : Nat) (h : n < 32) :
    (l.foldl (fun acc p => acc ||| (if p.2 then ((1 <<< p.1 : Nat) : BitVec 32) else 0)) acc).getLsbD n =
      (acc.getLsbD n || l.any fun p => p.2 && p.1 == n) := by
  induction l generalizing acc with
  | nil => rw [List.foldl_nil, List.any_nil, Bool.or_false]
  | cons p l ih =>
    have one : (if p.2 then ((1 <<< p.1 : Nat) : BitVec 32) else 0).getLsbD n = (p.2 && p.1 == n) := by
      cases p.2 with
      | false => simp
      | true =>
        change (BitVec.ofNat 32 (1 <<< p.1)).getLsbD n = _
        rw [BitVec.getLsbD_ofNat, Nat.one_shiftLeft, Nat.testBit_two_pow, decide_eq_true h, Bool.true_and, Bool.true_and]
        rfl
    rw [List.foldl_cons, ih, List.any_cons, BitVec.getLsbD_or, one, Bool.or_assoc]

theorem packBits_getLsbD (l : List (Nat × Bool)) (n : Nat) (h : n < 32) : (packBits l).getLsbD n = l.any fun p => p.2 && p.1 == n := by
  rw [packBits, packBits_foldl_getLsbD l 0 n h]
  simp

theorem any_key {l : List (Nat × Bool)} {n : Nat} {b : Bool} (keys : (l.map Prod.fst).Nodup) (listed : (n, b) ∈ l) :
    (l.any fun p => p.2 && p.1 == n) = b := by
  induction l with
  | nil => exact absurd listed List.not_mem_nil
  | cons p l ih =>
    rw [List.map_cons, List.nodup_cons] at keys
    rw [List.any_cons]
    rcases List.mem_cons.mp listed with rfl | rest
    · have none : (l.any fun p => p.2 && p.1 == n) = false := by
        rw [List.any_eq_false]
        intro q hq both
        obtain ⟨-, same⟩ := Bool.and_eq_true_iff.mp both
        have mem : q.1 ∈ l.map Prod.fst := List.mem_map_of_mem hq
        rw [beq_iff_eq.mp same] at mem
        exact keys.1 mem
      rw [none, beq_self_eq_true, Bool.and_true, Bool.or_false]
    · have other : (p.1 == n) = false := by
        refine beq_eq_false_iff_ne.mpr fun same => keys.1 ?_
        exact same ▸ List.mem_map_of_mem (f := Prod.fst) rest
      rw [other, Bool.and_false, Bool.false_or, ih keys.2 rest]

/-- A flag of a register of CPUID, whatever the row. -/
theorem flags_getLsbD {l : List (Nat × Bool)} {n : Nat} {b : Bool} (r : Option (BitVec 32)) (keys : (l.map Prod.fst).Nodup) (listed : (n, b) ∈ l)
    (h : n < 32) : ((CpuidWord.flags l).fill r).getLsbD n = b := by
  have fixed : (CpuidWord.flags l).fixed.getLsbD n = true := by
    refine (packBits_getLsbD _ n h).trans (any_key ?_ (List.mem_map_of_mem (f := fun p => (p.1, true)) listed))
    rwa [List.map_map]
  exact (CpuidWord.fill_fixed r fixed).trans ((packBits_getLsbD _ n h).trans (any_key keys listed))

/-- The flags of a register of CPUID among those that it lists. -/
theorem flags_listed {l part : List (Nat × Bool)} (r : Option (BitVec 32)) (keys : (l.map Prod.fst).Nodup) (inside : part ⊆ l)
    (small : ∀ x ∈ part, x.1 < 32) : ∀ x ∈ part, ((CpuidWord.flags l).fill r).getLsbD x.1 = x.2 :=
  fun x listed => flags_getLsbD r keys (inside listed) (small x listed)

/-! ### CPUID -/

/-- A function that CPUID answers. -/
def State.reaches (s : State) (fn : BitVec 32) : Prop :=
  if 2 ^ 31 ≤ fn.toNat then fn.toNat ≤ s.cfg.lFuncExt.toNat else fn.toNat ≤ s.cfg.lFuncStd.toNat

theorem cpuidInRange_iff (fn : BitVec 32) : s.cpuidInRange fn = true ↔ s.reaches fn := by
  have top : fn.getLsbD 31 = decide (2 ^ 31 ≤ fn.toNat) := by
    have lt := fn.isLt
    rw [BitVec.getLsbD, Nat.testBit_eq_decide_div_mod_eq]
    exact decide_eq_decide.mpr (by omega)
  rw [State.cpuidInRange, State.reaches, top]
  by_cases ext : 2 ^ 31 ≤ fn.toNat
  · rw [if_pos ext, if_pos (decide_eq_true ext), decide_eq_true_iff, BitVec.le_def]
  · rw [if_neg ext, if_neg (by simpa using ext), decide_eq_true_iff, BitVec.le_def]

theorem cpuidTable_eq {fn ecx : BitVec 32} (h : s.reaches fn) :
    s.cpuidTable fn ecx = (s.cpuidFields fn (cpuidSub fn ecx)).fill (s.cpuidRow fn (cpuidSub fn ecx)) :=
  if_pos ((cpuidInRange_iff fn).mpr h)

theorem cpuidTable_zero {fn ecx : BitVec 32} (h : ¬s.reaches fn) : s.cpuidTable fn ecx = .zero :=
  if_neg ((cpuidInRange_iff fn).not.mpr h)

/-- The flags of the standard functions 1 and 7. -/
theorem cpuid1_ecx (ecx : BitVec 32) (reach : s.reaches 1) :
    ∀ x ∈ [(3, s.feat.monitor), (13, s.feat.cmpxchg16b), (20, s.feat.sse42), (22, s.feat.movbe), (23, s.feat.popcnt), (26, s.feat.xsave),
      (27, s.feat.xsave && s.cr4Bit 18), (30, s.feat.rdrand)], (s.cpuidTable 1 ecx).ecx.getLsbD x.1 = x.2 := by
  rw [cpuidTable_eq reach]
  exact flags_listed _ (by simp) (by simp) (by simp)

theorem cpuid1_edx_common (ecx : BitVec 32) (reach : s.reaches 1) :
    ∀ x ∈ [(8, s.feat.cmpxchg8b), (15, s.feat.cmov), (23, s.feat.mmx)], (s.cpuidTable 1 ecx).edx.getLsbD x.1 = x.2 := by
  rw [cpuidTable_eq reach]
  exact flags_listed _ (by simp [cpuidCommon]) (by simp [cpuidCommon]) (by simp)

theorem cpuid1_edx (ecx : BitVec 32) (reach : s.reaches 1) :
    ∀ x ∈ [(19, s.feat.clfsh), (25, s.feat.sse), (26, s.feat.sse2)], (s.cpuidTable 1 ecx).edx.getLsbD x.1 = x.2 := by
  rw [cpuidTable_eq reach]
  exact flags_listed _ (by simp [cpuidCommon]) (by simp [cpuidCommon]) (by simp)

theorem cpuid7_ebx (reach : s.reaches 7) :
    ∀ x ∈ [(0, s.feat.fsgsbase), (3, s.feat.bmi1), (8, s.feat.bmi2), (18, s.feat.rdseed), (19, s.feat.adx), (23, s.feat.clflushopt),
      (24, s.feat.clwb)], (s.cpuidTable 7 0).ebx.getLsbD x.1 = x.2 := by
  rw [cpuidTable_eq reach]
  exact flags_listed _ (by simp) (by simp) (by simp)

theorem cpuid7_ecx (reach : s.reaches 7) :
    ∀ x ∈ [(3, s.feat.pku), (4, s.feat.pku && s.cr4Bit 22), (22, s.feat.rdpid)], (s.cpuidTable 7 0).ecx.getLsbD x.1 = x.2 := by
  rw [cpuidTable_eq reach]
  exact flags_listed _ (by simp) (by simp) (by simp)

/-- The flags of the extended functions 1 and 8. -/
theorem cpuidExt1_ecx (ecx : BitVec 32) (reach : s.reaches 0x80000001) :
    ∀ x ∈ [(0, s.feat.lahfSahf), (5, s.feat.abm), (8, s.feat.prefetch), (15, s.feat.lwp), (21, s.feat.tbm), (29, s.feat.monitorx)],
      (s.cpuidTable 0x80000001 ecx).ecx.getLsbD x.1 = x.2 := by
  rw [cpuidTable_eq reach]
  exact flags_listed _ (by simp) (by simp) (by simp)

theorem cpuidExt1_edx (ecx : BitVec 32) (reach : s.reaches 0x80000001) :
    ∀ x ∈ [(29, s.feat.lm), (31, s.feat.threeDNow)], (s.cpuidTable 0x80000001 ecx).edx.getLsbD x.1 = x.2 := by
  rw [cpuidTable_eq reach]
  exact flags_listed _ (by simp [cpuidCommon]) (by simp [cpuidCommon]) (by simp)

theorem cpuidExt1_edx_common (ecx : BitVec 32) (reach : s.reaches 0x80000001) :
    ∀ x ∈ [(8, s.feat.cmpxchg8b), (15, s.feat.cmov), (23, s.feat.mmx)], (s.cpuidTable 0x80000001 ecx).edx.getLsbD x.1 = x.2 := by
  rw [cpuidTable_eq reach]
  exact flags_listed _ (by simp [cpuidCommon]) (by simp [cpuidCommon]) (by simp)

theorem cpuidExt8_ebx (ecx : BitVec 32) (reach : s.reaches 0x80000008) :
    ∀ x ∈ [(0, s.feat.clzero), (4, s.feat.rdpru), (8, s.feat.mcommit)], (s.cpuidTable 0x80000008 ecx).ebx.getLsbD x.1 = x.2 := by
  rw [cpuidTable_eq reach]
  exact flags_listed _ (by simp) (by simp) (by simp)

/-- The size of the XSAVE area for the enabled states. -/
theorem cpuidD1_ebx (reach : s.reaches 0xD) (xsave : s.feat.xsave = true) : (s.cpuidTable 0xD 1).ebx.toNat =
    0x240 + (if s.xcr0.getLsbD 2 then 0x100 else 0) + (if s.xcr0.getLsbD 9 then 8 else 0) +
      (if s.msr.xss.getLsbD 11 then 0x10 else 0) + (if s.msr.xss.getLsbD 12 then 0x18 else 0) := by
  have small (b : Bool) (n : Nat) (k : Nat) (h : n ≤ k) : (if b then n else 0) ≤ k := by split <;> omega
  have fields : s.cpuidFields 0xD 1 = s.cpuidD1 := by
    rw [State.cpuidFields]
    simp [State.cpuidD, xsave]
  have bound : 0x240 + (if s.xcr0.getLsbD 2 then 0x100 else 0) + (if s.xcr0.getLsbD 9 then 8 else 0) +
      (if s.msr.xss.getLsbD 11 then 0x10 else 0) + (if s.msr.xss.getLsbD 12 then 0x18 else 0) < 2 ^ 32 := by
    have a := small (s.xcr0.getLsbD 2) 0x100 0x100 (le_refl _)
    have b := small (s.xcr0.getLsbD 9) 8 8 (le_refl _)
    have c := small (s.msr.xss.getLsbD 11) 0x10 0x10 (le_refl _)
    have d := small (s.msr.xss.getLsbD 12) 0x18 0x18 (le_refl _)
    omega
  rw [cpuidTable_eq reach, show cpuidSub 0xD 1 = 1 from rfl, fields, CpuidFields.fill, State.cpuidD1, CpuidWord.fill_all, BitVec.toNat_ofNat,
    Nat.mod_eq_of_lt bound]

/-! ### Registers -/

theorem checkFsgs_ok (mode : s.mode64 = true) (feat : s.feat.fsgsbase = true) (cr4 : s.cr4Bit 16 = true) : s.start.checkFsgs = .ok () := by
  simp only [State.checkFsgs, start_mode64, start_feat, start_cr4Bit, mode, feat, cr4, Bool.and_self, require_true]

theorem ofNat_uns_reg (s : State) (w : Width) (r : Gpr) : BitVec.ofNat 64 (uns w (s.reg r)) = s.readGpr w r := by
  rw [← readGpr_toNat, BitVec.ofNat_toNat, BitVec.setWidth_eq]

theorem writeBase_eq (n : SegName) (r : Gpr) (check : s.start.checkFsgs = .ok ()) : s.start.writeBase w n r =
    if w = .w64 → s.canonical (s.readGpr w r) = true then .ok (s.start.setBase n (s.readGpr w r)) else .error gp0 := by
  have legal : (w != .w64 || s.start.canonical (s.start.reg r)) = decide (w = .w64 → s.canonical (s.readGpr w r) = true) := by
    by_cases h : w = .w64
    · subst h
      rw [State.readGpr, trunc_w64]
      simp
    · simp [h]
  rw [State.writeBase, check, ok_bind, require_bind, legal]
  simp only [decide_eq_true_iff]
  rfl

/-- EDX and EAX of a value. -/
theorem setEdxEax_eq (t : State) (v : Quad) : t.setEdxEax v =
    (t.writeGpr .w32 .rax (BitVec.ofNat 64 (v.toNat % 2 ^ 32))).writeGpr .w32 .rdx (BitVec.ofNat 64 (v.toNat / 2 ^ 32)) := by
  have low : uns .w32 v = uns .w32 (BitVec.ofNat 64 (v.toNat % 2 ^ 32)) := by
    rw [uns_ofNat, uns, Width.bits, Nat.mod_mod]
  have high : v >>> 32 = BitVec.ofNat 64 (v.toNat / 2 ^ 32) := by
    apply BitVec.eq_of_toNat_eq
    rw [BitVec.toNat_ushiftRight, Nat.shiftRight_eq_div_pow, BitVec.toNat_ofNat, Nat.mod_eq_of_lt (Nat.lt_of_le_of_lt (Nat.div_le_self _ _) v.isLt)]
  rw [State.setEdxEax, high, writeGpr_congr low]

theorem trunc_w32 (v : Quad) : trunc .w32 v = BitVec.ofNat 64 (v.toNat % 2 ^ 32) := by
  apply BitVec.eq_of_toNat_eq
  rw [trunc_toNat, BitVec.toNat_ofNat, uns, Width.bits, Nat.mod_eq_of_lt (b := 2 ^ 64)]
  omega

/-- The register that RDPRU reads. -/
def State.rdpruValue (t : State) : Quad :=
  if t.readGpr .w32 .rcx == 0 then t.perfValue 0 t.msr.mperf
  else if t.readGpr .w32 .rcx == 1 && 1 ≤ t.cfg.maxRdpruId.toNat then t.perfValue 1 t.msr.aperf else 0

/-- The performance registers by number. -/
def State.perfRegister (s : State) : Nat → Quad
  | 0 => s.msr.mperf
  | 1 => s.msr.aperf
  | _ => 0

theorem rdpruValue_eq (own : s.cfg.perf = .default) : s.start.rdpruValue =
    if s.cfg.maxRdpruId.toNat < uns .w32 s.gpr.rcx then 0 else s.perfRegister (uns .w32 s.gpr.rcx) := by
  have perf (index : Nat) (v : Quad) : s.start.perfValue index v = v := by
    have own : s.start.cfg.perf = .default := own
    rw [State.perfValue, own]
  have number (n : Quad) : (s.start.readGpr .w32 .rcx == n) = decide (uns .w32 s.gpr.rcx = n.toNat) := by
    rw [Bool.eq_iff_iff, beq_iff_eq, decide_eq_true_iff, ← BitVec.toNat_inj, start_readGpr, readGpr_toNat]
    rfl
  rw [State.rdpruValue, perf, perf, number, number]
  generalize uns .w32 s.gpr.rcx = c
  match c with
  | 0 => rfl
  | 1 =>
    change (if (decide (1 = 1) && decide (1 ≤ s.cfg.maxRdpruId.toNat)) = true then s.msr.aperf else 0) = _
    rw [decide_eq_true rfl, Bool.true_and]
    by_cases h : 1 ≤ s.cfg.maxRdpruId.toNat
    · rw [if_pos (decide_eq_true h), if_neg (by omega)]
      rfl
    · rw [if_neg (by simpa using h), if_pos (by omega)]
  | n + 2 =>
    have one : decide (n + 2 = (1 : Quad).toNat) = false := decide_eq_false (by simp)
    rw [if_neg (by simp), one, Bool.false_and, if_neg Bool.false_ne_true]
    exact (ite_self _).symm

/-- Settles O36. -/
theorem processorRegisterReads : Obligations.ProcessorRegisterReads := by
  intro s w r tf
  refine ⟨fun mode fsgsbase osfsgsbase => ⟨?_, ?_, fun legal => ⟨?_, ?_⟩, fun bad => ⟨?_, ?_⟩⟩, fun rdpid => ?_, fun rdpru level perf => ?_,
    fun rdrand => ?_, fun rdseed => ?_, ?_, fun ecx => ?_, fun mcommit efer own => ?_⟩
  · rw [exec_rdfsbase, execRdfsbase]
    apply run_ok tf
    rw [checkFsgs_ok mode fsgsbase osfsgsbase]
    rfl
  · rw [exec_rdgsbase, execRdgsbase]
    apply run_ok tf
    rw [checkFsgs_ok mode fsgsbase osfsgsbase]
    rfl
  · rw [ofNat_uns_reg] at *
    rw [exec_wrfsbase, execWrfsbase]
    exact run_ok tf ((writeBase_eq .fs r (checkFsgs_ok mode fsgsbase osfsgsbase)).trans (if_pos legal))
  · rw [ofNat_uns_reg] at *
    rw [exec_wrgsbase, execWrgsbase]
    exact run_ok tf ((writeBase_eq .gs r (checkFsgs_ok mode fsgsbase osfsgsbase)).trans (if_pos legal))
  · rw [ofNat_uns_reg] at *
    rw [exec_wrfsbase, execWrfsbase]
    exact run_exc ((writeBase_eq .fs r (checkFsgs_ok mode fsgsbase osfsgsbase)).trans (if_neg bad))
  · rw [ofNat_uns_reg] at *
    rw [exec_wrgsbase, execWrgsbase]
    exact run_exc ((writeBase_eq .gs r (checkFsgs_ok mode fsgsbase osfsgsbase)).trans (if_neg bad))
  · rw [exec_rdpid, execRdpid]
    apply run_ok tf
    rw [start_feat, rdpid, trunc_w32]
    rfl
  · have checked : (!(s.start.cpl != 0 && s.start.cr4Bit 2)) = true := by
      rcases level with h | h
      · rw [show (s.start.cpl != 0) = false by simpa using h]
        rfl
      · rw [start_cr4Bit, h, Bool.and_false]
        rfl
    rw [exec_rdpru, execRdpru]
    apply run_ok tf
    simp only [start_feat, rdpru, require_true, ok_bind, checked, setEdxEax_eq]
    have value := rdpruValue_eq perf
    simp only [State.rdpruValue] at value
    rw [value]
    rfl
  · rw [exec_rdrand, execRdrand]
    refine (run_ok tf (t := s.start.randomInto w r s.start.freeResult) ?_).trans ?_
    · rw [start_feat, rdrand]
      rfl
    · rw [State.randomInto]
      cases s.start.randomValue w <;> rfl
  · rw [exec_rdseed, execRdseed]
    refine (run_ok tf (t := s.start.randomInto w r 0) ?_).trans ?_
    · rw [start_feat, rdseed]
      rfl
    · rw [State.randomInto]
      cases s.start.randomValue w <;> rfl
  · have low (v : Quad) : v.setWidth 32 = BitVec.ofNat 32 (uns .w32 v) := by
      apply BitVec.eq_of_toNat_eq
      rw [BitVec.toNat_setWidth, BitVec.toNat_ofNat, uns, Width.bits, Nat.mod_mod]
    rw [exec_cpuid, execCpuid]
    apply run_ok tf
    rw [low, low]
    rfl
  · refine ⟨?_, fun reach => ?_, fun reach => ⟨?_, cpuid1_ecx ecx reach⟩,
      fun x listed => ⟨fun reach => cpuid1_edx_common ecx reach x listed, fun reach => cpuidExt1_edx_common ecx reach x listed⟩,
      fun x listed reach => cpuid1_edx ecx reach x listed, fun reach => ⟨cpuid7_ebx reach, cpuid7_ecx reach⟩,
      fun reach xsave => cpuidD1_ebx reach xsave, fun x listed reach => cpuidExt1_ecx ecx reach x listed,
      fun x listed reach => cpuidExt1_edx ecx reach x listed, fun x listed reach => cpuidExt8_ebx ecx reach x listed,
      fun fn absent => cpuidTable_zero absent⟩
    · have reach : s.reaches 0 := Nat.zero_le _
      rw [cpuidTable_eq reach]
      exact CpuidFields.fill_all _ _
    · rw [cpuidTable_eq reach]
      exact CpuidFields.fill_all _ _
    · rw [cpuidTable_eq reach]
      exact CpuidWord.fill_all _ _
  · rw [exec_mcommit, execMcommit]
    apply run_ok tf
    have own : s.start.cfg.mcommitError = .default := own
    simp only [start_feat, start_eferBit, mcommit, efer, Bool.and_self, require_true, ok_bind, own]
    rfl

end Sys2Proof.Machine
end

