-- ==== Sys2Proof/Proofs/Hints.lean ====
section
/-! PROOFS. The statement about hints, fences, cache instructions, the monitor and its waits, and HLT (44_gp_n_p.md R511, 41_gp_c.md
R360 to R364, 43_gp_l_m.md R455, R463, R464, R482, 50_sys_a_l.md R707, R710 to R714, 51_sys_m_r.md R760, R763, 52_sys_s_w.md R844). -/

namespace Sys2Proof.Machine

variable {s t : State}

/-- A line whose first byte can be read passes the check of the cache instructions. -/
theorem checkLine_ok {m : Mem} {ps : List Nat} (h : t.access m.seg (t.ea m) 1 false = .ok ps) : t.checkLine m = .ok () := by
  obtain ⟨check, -, span⟩ := accessParts_ok.mp h
  simp only [Bool.false_eq_true, if_false] at span
  rw [State.segCheck] at check
  simp only [State.checkLine, span, ok_bind]
  split at check
  next mode =>
    have canonical := (Bool.and_eq_true_iff.mp (require_ok.mp check)).1
    rw [if_pos mode, canonical]
    rfl
  next mode =>
    obtain ⟨⟨⟩, null, check⟩ := bind_ok.mp check
    obtain ⟨⟨⟩, limit, -⟩ := bind_ok.mp check
    rw [if_neg mode, null, ok_bind, limit]
    rfl

theorem roundDown_eq (a : Quad) (n : Nat) : roundDown a n = BitVec.ofNat 64 (a.toNat / n * n) := rfl

theorem needCpl0_of (h : t.cpl = 0) : t.needCpl0 = .ok () := require_ok.mpr (beq_iff_eq.mpr h)

theorem needMonitor_ok (feat : t.feat.monitor = true) (level : t.cpl = 0 ∨ t.msr.hwcr.getLsbD 10 = true) : t.needMonitor = .ok () := by
  have allowed : (t.cpl == 0 || t.msr.hwcr.getLsbD 10) = true := by
    rcases level with h | h <;> simp [h]
  rw [State.needMonitor, feat, require_true, ok_bind, allowed, require_true]

theorem armMonitor_eq {seg : SegName} {asz : ASize} {ps : List Nat}
    (h : s.start.access seg (BitVec.ofNat 64 (uns (addrWidth asz) s.gpr.rax)) 1 false = .ok ps) :
    s.start.armMonitor seg asz = .ok { s.start with exec := { s.start.exec with monitor := {
      armed := true
      addr := BitVec.ofNat 64
        ((s.linear seg (BitVec.ofNat 64 (uns (addrWidth asz) s.gpr.rax))).toNat / s.cfg.monitorLine * s.cfg.monitorLine) } } } := by
  have off : s.start.readGpr (addrWidth asz) .rax = BitVec.ofNat 64 (uns (addrWidth asz) s.gpr.rax) :=
    (ofNat_uns_reg s (addrWidth asz) .rax).symm
  rw [State.armMonitor, off, h]
  rfl

theorem readGpr_ushiftRight (s : State) (w : Width) (r : Gpr) (n : Nat) (h : uns w (s.reg r) < 2 ^ n) :
    (s.readGpr w r >>> n == 0) = true := by
  rw [beq_iff_eq, ← BitVec.toNat_inj, BitVec.toNat_ushiftRight, readGpr_toNat, Nat.shiftRight_eq_div_pow, Nat.div_eq_of_lt h]
  rfl

/-- The descriptor of INVPCID passes its checks. -/
theorem checkPcid_ok {type : Quad} {n : Nat} (small : n < 2 ^ 128) (known : type.toNat ≤ 3) (pcid : n % 2 ^ 64 < 2 ^ 12)
    (canonical : type.toNat = 0 → t.canonical (BitVec.ofNat 64 (n / 2 ^ 64)) = true)
    (zero : type.toNat ≤ 1 → t.cr4Bit 17 = false → n % 2 ^ 64 = 0) : t.checkPcid type (BitVec.ofNat 128 n) = .ok () := by
  have low : ((BitVec.ofNat 128 n).extractLsb' 0 64).toNat = n % 2 ^ 64 := by
    rw [BitVec.extractLsb'_toNat, BitVec.toNat_ofNat, Nat.mod_eq_of_lt small, Nat.shiftRight_zero]
  have high : (BitVec.ofNat 128 n).extractLsb' 64 64 = BitVec.ofNat 64 (n / 2 ^ 64) := by
    apply BitVec.eq_of_toNat_eq
    rw [BitVec.extractLsb'_toNat, BitVec.toNat_ofNat, Nat.mod_eq_of_lt small, Nat.shiftRight_eq_div_pow, BitVec.toNat_ofNat]
  have first : decide (type.toNat ≤ 3) = true := decide_eq_true known
  have second : ((BitVec.ofNat 128 n).extractLsb' 0 64 >>> 12 == 0) = true := by
    rw [beq_iff_eq, ← BitVec.toNat_inj, BitVec.toNat_ushiftRight, low, Nat.shiftRight_eq_div_pow, Nat.div_eq_of_lt pcid]
    rfl
  have third : (!(type == 0) || t.canonical ((BitVec.ofNat 128 n).extractLsb' 64 64)) = true := by
    rw [high]
    by_cases h : type = 0
    · rw [canonical (by rw [h]; rfl), Bool.or_true]
    · rw [beq_false_of_ne h]
      rfl
  have fourth : (!decide (type.toNat ≤ 1) || t.cr4Bit 17 || ((BitVec.ofNat 128 n).extractLsb' 0 64).extractLsb' 0 12 == 0) = true := by
    by_cases h : type.toNat ≤ 1
    · cases cr4 : t.cr4Bit 17 with
      | true => simp
      | false =>
        have none : ((BitVec.ofNat 128 n).extractLsb' 0 64).extractLsb' 0 12 = 0 := by
          rw [← BitVec.toNat_inj, BitVec.extractLsb'_toNat, low, Nat.shiftRight_zero, zero h cr4]
          rfl
        rw [none, beq_self_eq_true, Bool.or_true]
    · simp [h]
  simp only [State.checkPcid, first, second, third, fourth, require_true, ok_bind]

/-- The privileged instructions over caches and translation buffers only pass. -/
theorem exec_cacheInstr {m : Mem} {i : Instr} (listed : i ∈ [Instr.invd, .wbinvd, .wbnoinvd, .invlpg m]) :
    exec i s = run s fun t => t.needCpl0 >>= fun _ => .ok t := by
  simp only [List.mem_cons, List.not_mem_nil, or_false] at listed
  rcases listed with rfl | rfl | rfl | rfl
  · rfl
  · rfl
  · rfl
  · rfl

theorem zero32 (h : uns .w32 s.gpr.rcx = 0) : (s.start.readGpr .w32 .rcx == 0) = true := by
  rw [beq_iff_eq, ← BitVec.toNat_inj, start_readGpr, readGpr_toNat]
  exact h

/-- Settles O37. -/
theorem hintsAndWaits : Obligations.HintsAndWaits := by
  refine fun s m o seg asz r ps tf => ⟨fun i listed => ?_, fun feat i listed => ?_, fun sse2 i listed => ?_, fun feat => ?_,
    fun access => ⟨fun clfsh => ?_, fun clfsh opt => ?_, fun clwb => ?_⟩, ⟨fun clzero access => ?_, fun access rcx => ⟨fun feat => ?_,
    fun feat level => ?_⟩⟩, ⟨fun feat rcx => ?_, fun feat level rcx => ?_⟩, fun level => ⟨fun i listed => ?_, ?_, fun svm prot efer => ?_,
    fun prot invpcid access type3 pcid canonical zero => ?_⟩, fun level i listed => ?_⟩
  · simp only [List.mem_cons, List.not_mem_nil, or_false] at listed
    rcases listed with rfl | rfl | rfl | rfl | rfl | rfl <;> exact run_ok tf rfl
  · have check : s.start.checkPrefetch = .ok () := require_ok.mpr feat
    simp only [List.mem_cons, List.not_mem_nil, or_false] at listed
    rcases listed with rfl | rfl
    · rw [exec_prefetch, execPrefetch]
      exact run_ok tf (by rw [check]; rfl)
    · rw [exec_prefetchw, execPrefetchw]
      exact run_ok tf (by rw [check]; rfl)
  · simp only [List.mem_cons, List.not_mem_nil, or_false] at listed
    rcases listed with rfl | rfl
    · rw [exec_lfence, execLfence]
      exact run_ok tf (by rw [start_feat, sse2]; rfl)
    · rw [exec_mfence, execMfence]
      exact run_ok tf (by rw [start_feat, sse2]; rfl)
  · rw [exec_sfence, execSfence]
    exact run_ok tf (by rw [start_feat, feat]; rfl)
  · rw [exec_clflush, execClflush]
    exact run_ok tf (by rw [start_feat, clfsh, checkLine_ok access]; rfl)
  · rw [exec_clflushopt, execClflushopt]
    exact run_ok tf (by rw [start_feat, clfsh, opt, checkLine_ok access]; rfl)
  · rw [exec_clwb, execClwb]
    exact run_ok tf (by rw [start_feat, clwb, checkLine_ok access]; rfl)
  · rw [exec_clzero, execClzero]
    apply run_ok tf
    simp only [start_feat, clzero, require_true, ok_bind, roundDown_eq, start_readGpr, readGpr_toNat]
    exact bind_map_ok.mpr ⟨ps, access, rfl⟩
  · rw [exec_monitorx, execMonitorx]
    apply run_ok tf
    simp only [start_feat, feat, zero32 rcx, require_true, ok_bind]
    exact armMonitor_eq access
  · rw [exec_monitor, execMonitor]
    apply run_ok tf
    simp only [needMonitor_ok (t := s.start) feat level, zero32 rcx, require_true, ok_bind]
    exact armMonitor_eq access
  · rw [exec_mwaitx, execMwaitx]
    apply run_ok tf
    rw [start_feat, feat, start_readGpr, readGpr_ushiftRight s .w32 .rcx 2 rcx]
    rfl
  · have small : uns .w32 (s.reg .rcx) < 2 ^ (if s.feat.mwaitIbe then 1 else 0) := by
      refine Nat.lt_of_lt_of_le rcx ?_
      split <;> decide
    rw [exec_mwait, execMwait]
    apply run_ok tf
    rw [needMonitor_ok (t := s.start) feat level, start_feat, start_readGpr, readGpr_ushiftRight s .w32 .rcx _ small]
    rfl
  · rw [exec_cacheInstr listed, run_needCpl0 (fun t => .ok t) level]
    exact run_ok tf rfl
  · rw [exec_hlt, execHlt]
    exact run_ok tf (by rw [needCpl0_of (t := s.start) level]; rfl)
  · rw [exec_invlpga, execInvlpga]
    apply run_ok tf
    simp only [State.needSvm, State.needProt, start_feat, svm, start_protMode, prot, start_eferBit, efer, require_true, ok_bind,
      needCpl0_of (t := s.start) level]
  · have small : s.loadAt ps < 2 ^ 128 := by
      have lt := Memory.load_lt s.mem ps
      rwa [access_length access] at lt
    have type := readGpr_toNat s s.crWidth r
    have passed : s.start.checkPcid (s.start.readGpr s.start.crWidth r) (BitVec.ofNat 128 (s.loadAt ps)) = .ok () :=
      checkPcid_ok small (type.trans_le type3) pcid (fun h => canonical (type.symm.trans h)) fun h => zero (type.symm.trans_le h)
    rw [exec_invpcid, execInvpcid]
    apply run_ok tf
    simp only [State.needProt, start_protMode, prot, start_feat, invpcid, require_true, ok_bind, needCpl0_of (t := s.start) level, access,
      start_loadAt, passed]
  · have split : i ∈ [Instr.invd, .wbinvd, .wbnoinvd, .invlpg m] ∨ i = .hlt := by
      simpa [or_assoc] using listed
    rcases split with cache | rfl
    · rw [exec_cacheInstr cache]
      exact run_needCpl0_fails (fun t => .ok t) level
    · exact run_needCpl0_fails (fun t => .ok { t with exec := { t.exec with activity := .halted } }) level

end Sys2Proof.Machine
end

