-- ==== Sys2Proof/Proofs/NearTransfers.lean ====
section
/-! PROOFS. The near jumps, calls, returns and loops (41_gp_c.md R350, R365, 42_gp_d_j.md R418 to R420, 43_gp_l_m.md R458,
45_gp_r_s.md R568). -/

namespace Sys2Proof.Machine

variable {s t u : State}

theorem checkTarget_fails {rip : Quad} (h : s.targetOk rip = false) : s.checkTarget rip = .error gp0 := by
  rw [State.checkTarget, show (if s.mode64 then s.canonical rip else rip.toNat ≤ s.seg.cs.limit.toNat) = false from h, require_false]

theorem targetOk_eq_true {rip : Quad} (h : ¬s.targetOk rip = false) : s.targetOk rip = true := by simpa using h

/-- The target check reads the code segment, the mode and the configuration. -/
theorem checkTarget_congr (cs : u.seg.cs = s.seg.cs) (ctl : u.ctl = s.ctl) (cfg : u.cfg = s.cfg) (rip : Quad) :
    u.checkTarget rip = s.checkTarget rip := by
  have canonical : u.canonical rip = s.canonical rip := by rw [State.canonical, State.canonical, cfg]
  have mode : u.mode64 = s.mode64 := by rw [State.mode64, State.mode64, State.longMode, State.longMode, cs, ctl]
  rw [State.checkTarget, State.checkTarget, mode, canonical, cs]

theorem pushE_checkTarget {bad : Trap} {n : Nat} {v : Quad} (h : s.pushE bad n v = .ok t) (rip : Quad) :
    t.checkTarget rip = s.checkTarget rip := by rw [pushE_frame h]; rfl

theorem pushE_mem_frame {bad : Trap} {n : Nat} {v : Quad} (h : s.pushE bad n v = .ok t) :
    t.cet = s.cet ∧ t.cpl = s.cpl ∧ ∀ l, t.shadowEnabled l = s.shadowEnabled l := by
  rw [pushE_frame h]
  exact ⟨rfl, rfl, fun _ => rfl⟩

/-- What the implicit accesses of a far or near transfer read and a pop does not change. -/
theorem writeGpr_sstkSpan (w : Width) (r : Gpr) (v : Quad) (user write : Bool) (lin : Quad) (n : Nat) :
    (s.writeGpr w r v).sstkSpan user write lin n = s.sstkSpan user write lin n :=
  span_congr (s := s.writeGpr w r v) (t := s) rfl (fun _ _ => rfl) _ _ _

theorem start_sstkSpan (user write : Bool) (lin : Quad) (n : Nat) : s.start.sstkSpan user write lin n = s.sstkSpan user write lin n :=
  span_congr (s := s.start) (t := s) rfl (fun _ _ => rfl) _ _ _

theorem sstkSpan_length {user write : Bool} {lin : Quad} {n : Nat} {ps : List Nat} (h : s.sstkSpan user write lin n = .ok ps) :
    ps.length = n := physAddrs_length _ (span_ok h).1

theorem sstkRead_of_span {lin : Quad} {n : Nat} {ps : List Nat} (h : s.sstkSpan (s.cpl == 3) false lin n = .ok ps) :
    s.sstkRead lin n = .ok (BitVec.ofNat 64 (s.loadAt ps)) := by rw [State.sstkRead, h, ok_bind]

theorem sstkWrite_of_span {lin : Quad} {n : Nat} {ps : List Nat} (h : s.sstkSpan (s.cpl == 3) true lin n = .ok ps) (v : Quad) :
    s.sstkWrite lin n v = .ok (s.storeAt ps v.toNat) := by rw [State.sstkWrite, h, ok_bind]

/-- A load of at most eight bytes is a quadword's value. -/
theorem loadAt_lt_quad {ps : List Nat} (h : ps.length ≤ 8) : s.loadAt ps < 2 ^ 64 :=
  Nat.lt_of_lt_of_le (Memory.load_lt s.mem ps) (by
    calc 256 ^ ps.length ≤ 256 ^ 8 := Nat.pow_le_pow_right (by decide) h
      _ = 2 ^ 64 := rfl)

/-! ### Jumps -/

/-- A transfer that is not taken, or that goes to its target where that lies in the code segment. -/
def State.jump (s u : State) (taken : Bool) (v : Quad) : Host.Outcome State Fault Refusal :=
  if taken = false then .next u else if s.targetOk v = false then s.raise { name := .gp, code := some 0 } else .next (u.goto v)

theorem run_taken {body : State → Res State} {v : Quad} (tf : s.flags.tf = false)
    (h : body s.start = (s.checkTarget v >>= fun _ => .ok (u.setRip v))) : run s body = s.jump u true v := by
  by_cases bad : s.targetOk v = false
  · rw [checkTarget_fails bad, error_bind] at h
    rw [run_exc h, State.jump, if_neg (by decide), if_pos bad]
  · rw [checkTarget_ok.mpr (targetOk_eq_true bad), ok_bind] at h
    rw [run_ok tf h, State.jump, if_neg (by decide), if_neg bad]
    rfl

theorem run_jumpTo {body : State → Res State} {v : Quad} (tf : s.flags.tf = false) (same : u.checkTarget v = s.checkTarget v)
    (h : body s.start = u.jumpTo v) : run s body = s.jump u true v :=
  run_taken tf (h.trans (by rw [State.jumpTo, same]))

theorem relTarget_eq (w : Width) (rel : Quad) : s.start.relTarget w rel = wrap w (s.nextRip.toNat + rel.toNat) :=
  trunc_add_eq_wrap rfl rfl

theorem run_jumpIf {body : State → Res State} {w : Width} {rel : Quad} {c : Bool} (tf : s.flags.tf = false)
    (same : ∀ v, u.checkTarget v = s.checkTarget v) (rip : u.rip = s.nextRip) (h : body s.start = u.jumpIf c w rel) :
    run s body = s.jump u c (wrap w (s.nextRip.toNat + rel.toNat)) := by
  cases c with
  | false => exact run_ok tf h
  | true =>
    have target : u.relTarget w rel = wrap w (s.nextRip.toNat + rel.toNat) := by
      rw [← relTarget_eq, State.relTarget, rip]
      rfl
    rw [State.jumpIf, if_pos rfl, target] at h
    exact run_jumpTo tf (same _) h

/-- A conditional jump by the number of its condition. -/
theorem jccs_exec : ∀ x ∈ jccs, ∃ c : Cond, (∀ f : Flags, f.cond c = condHolds f x.1) ∧
    ∀ (s : State) (w : Width) (rel : Quad), exec (x.2 w rel) s = run s fun t => t.jcc c w rel := by
  simp only [jccs, List.forall_mem_cons, List.not_mem_nil, false_implies, implies_true, and_true]
  exact ⟨⟨.o, fun _ => rfl, fun _ _ _ => rfl⟩, ⟨.no, fun _ => rfl, fun _ _ _ => rfl⟩, ⟨.b, fun _ => rfl, fun _ _ _ => rfl⟩,
    ⟨.nb, fun _ => rfl, fun _ _ _ => rfl⟩, ⟨.z, fun _ => rfl, fun _ _ _ => rfl⟩, ⟨.nz, fun _ => rfl, fun _ _ _ => rfl⟩,
    ⟨.be, fun _ => rfl, fun _ _ _ => rfl⟩, ⟨.nbe, cond_nbe, fun _ _ _ => rfl⟩, ⟨.s, fun _ => rfl, fun _ _ _ => rfl⟩,
    ⟨.ns, fun _ => rfl, fun _ _ _ => rfl⟩, ⟨.p, fun _ => rfl, fun _ _ _ => rfl⟩, ⟨.np, fun _ => rfl, fun _ _ _ => rfl⟩,
    ⟨.l, fun _ => rfl, fun _ _ _ => rfl⟩, ⟨.nl, cond_nl, fun _ _ _ => rfl⟩, ⟨.le, fun _ => rfl, fun _ _ _ => rfl⟩,
    ⟨.nle, cond_nle, fun _ _ _ => rfl⟩⟩

theorem readGpr_beq_zero (w : Width) (r : Gpr) : (s.readGpr w r == 0) = (uns w (s.reg r) == 0) := by
  rw [Bool.eq_iff_iff, beq_iff_eq, beq_iff_eq, ← BitVec.toNat_inj, readGpr_toNat]
  rfl

theorem trunc_pred (w : Width) (v : Quad) : trunc w (v - 1) = wrap w ((uns w v : Int) - 1) := by
  have pred : ((-1 : Quad).toNat : Int) % 2 ^ w.bits = (-1 : Int) % 2 ^ w.bits := by cases w <;> rfl
  have low : (v.toNat : Int) % 2 ^ w.bits = (uns w v : Int) % 2 ^ w.bits := by rw [uns]; push_cast; exact (Int.emod_emod _ _).symm
  rw [BitVec.sub_eq_add_neg, trunc_add_eq_wrap low pred]
  rfl

theorem run_jumpIfZero (w a : Width) (rel : Quad) (tf : s.flags.tf = false) :
    run s (fun t => t.jumpIf (t.readGpr a .rcx == 0) w rel) =
      s.jump s.start (uns a s.gpr.rcx == 0) (wrap w (s.nextRip.toNat + rel.toNat)) := by
  refine run_jumpIf tf (fun _ => rfl) rfl ?_
  rw [readGpr_beq_zero]
  rfl

/-- The three loops by the flag that they test. -/
theorem run_loopIf {w : Width} {asz : ASize} {rel : Quad} {c : State → Bool} {flag : Bool} (tf : s.flags.tf = false)
    (same : c s.start = flag) :
    run s (fun t => t.loopIf (c t) w asz rel) =
      s.jump (s.start.writeGpr (addrWidth asz) .rcx (wrap (addrWidth asz) ((uns (addrWidth asz) s.gpr.rcx : Int) - 1)))
        (wrap (addrWidth asz) ((uns (addrWidth asz) s.gpr.rcx : Int) - 1) != 0 && flag) (wrap w (s.nextRip.toNat + rel.toNat)) := by
  rw [← trunc_pred, Bool.and_comm, ← same]
  exact run_jumpIf tf (fun _ => rfl) rfl rfl

/-! ### Calls and returns -/

theorem execCall_eq {w : Width} {target : NearTarget} {v : Quad} (tf : s.flags.tf = false) (near : s.start.nearTarget w target = .ok v)
    (push : s.start.push w.bytes s.nextRip = .ok t) (shadow : t.callShadow w target s.nextRip = .ok u) :
    execCall w target s = s.jump u true v := by
  refine run_taken tf ?_
  rw [near, ok_bind, show s.start.rip = s.nextRip from rfl, push, ok_bind, pushE_checkTarget push, start_checkTarget]
  simp only [shadow, ok_bind]

theorem callShadow_off {w : Width} {target : NearTarget} {ret : Quad} (h : t.shadowEnabled t.cpl = false ∨ NearTarget.isNext target = true) :
    t.callShadow w target ret = .ok t := by
  refine if_neg ?_
  rcases h with off | next
  · simp [off]
  · simp [next]

theorem callShadow_on {w : Width} {target : NearTarget} {ret : Quad} {ps : List Nat} (on : t.shadowEnabled t.cpl = true)
    (far : NearTarget.isNext target = false)
    (span : t.sstkSpan (t.cpl == 3) true (t.cet.ssp - BitVec.ofNat 64 (if w = .w64 then 8 else 4)) (if w = .w64 then 8 else 4) = .ok ps) :
    t.callShadow w target ret =
      .ok ((t.storeAt ps (uns w ret)).setSsp (t.cet.ssp - BitVec.ofNat 64 (if w = .w64 then 8 else 4))) := by
  have taken : (t.shadowEnabled t.cpl && !NearTarget.isNext target) = true := by rw [on, far]; rfl
  rw [State.callShadow, if_pos taken, State.pushSsReturn]
  simp only [sstkWrite_of_span span, ok_bind, trunc_toNat]

theorem dropStack_eq (imm : BitVec 16) :
    t.dropStack imm = t.writeGpr t.stackWidth .rsp (t.gpr.rsp + BitVec.ofNat 64 imm.toNat) := by
  rw [State.dropStack, BitVec.ofNat_toNat]

theorem execRet_eq {w : Width} {imm : BitVec 16} {v : Quad} (tf : s.flags.tf = false) (pop : s.start.pop w.bytes = .ok (v, t))
    (shadow : t.retShadow w v = .ok u) : execRet w imm s = s.jump (u.dropStack imm) true v := by
  refine run_taken tf ?_
  obtain ⟨-, rfl⟩ := pop_ok.mp pop
  simp only [pop, ok_bind, shadow]
  rw [checkTarget_congr (s := s) (by rfl) (by rfl) (by rfl)]

theorem execRet_fails {w : Width} {imm : BitVec 16} {v : Quad} {x : Exn} (ok : s.targetOk v = true)
    (pop : s.start.pop w.bytes = .ok (v, t)) (shadow : t.retShadow w v = .error (.exc x)) : execRet w imm s = s.raise x := by
  apply run_exc
  obtain ⟨-, rfl⟩ := pop_ok.mp pop
  simp only [pop, ok_bind, shadow, error_bind]
  rw [checkTarget_congr (s := s) (by rfl) (by rfl) (by rfl), checkTarget_ok.mpr ok, ok_bind]

theorem retShadow_off {w : Width} {v : Quad} (off : t.shadowEnabled t.cpl = false) : t.retShadow w v = .ok t :=
  if_neg (by rw [off]; decide)

/-- RET compares the popped address with that of the shadow stack. -/
theorem retShadow_on {w : Width} {v : Quad} {ps : List Nat} (on : t.shadowEnabled t.cpl = true)
    (span : t.sstkSpan (t.cpl == 3) false t.cet.ssp (if w = .w64 then 8 else 4) = .ok ps) :
    t.retShadow w v = if v.toNat = t.loadAt ps then .ok (t.setSsp (t.cet.ssp + BitVec.ofNat 64 (if w = .w64 then 8 else 4)))
      else .error (cp .nearRet) := by
  have short : ps.length ≤ 8 := by
    rw [sstkSpan_length span]
    split <;> decide
  have same : (v == BitVec.ofNat 64 (t.loadAt ps)) = decide (v.toNat = t.loadAt ps) := by
    rw [Bool.eq_iff_iff, beq_iff_eq, decide_eq_true_eq, ← BitVec.toNat_inj, BitVec.toNat_ofNat, Nat.mod_eq_of_lt (loadAt_lt_quad short)]
  rw [State.retShadow, if_pos on]
  simp only [sstkRead_of_span span, ok_bind, require_bind, same, decide_eq_true_eq]

/-- Settles O38. -/
theorem nearTransfers : Obligations.NearTransfers := by
  intro s t w asz rel v rm imm ps tf target a n jump
  refine ⟨fun x listed => ?_, ?_, ?_, ?_, fun read => ?_, fun push => ⟨fun still => ?_, fun off read => ?_, fun on span => ⟨fun far => ?_, fun read => ?_⟩⟩,
    fun pop => ⟨fun off => ?_, fun on ok span => ?_⟩⟩
  · obtain ⟨c, cond, exec_x⟩ := jccs_exec x listed
    rw [exec_x]
    exact run_jumpIf tf (fun _ => rfl) rfl (congrArg (fun c => s.start.jumpIf c w rel) (cond s.flags))
  · simp only [List.forall_mem_cons, List.not_mem_nil, false_implies, implies_true, and_true]
    exact ⟨run_jumpIfZero w .w16 rel tf, run_jumpIfZero w .w32 rel tf, run_jumpIfZero w .w64 rel tf⟩
  · simp only [List.forall_mem_cons, List.not_mem_nil, false_implies, implies_true, and_true]
    exact ⟨run_loopIf (c := fun _ => true) tf rfl, run_loopIf (c := fun t => t.flags.zf) tf rfl,
      run_loopIf (c := fun t => !t.flags.zf) tf rfl⟩
  · rw [exec_jmp, execJmp]
    refine run_jumpTo (u := s.start) tf rfl ?_
    simp only [State.nearTarget, ok_bind, relTarget_eq]
    rfl
  · rw [exec_jmp, execJmp]
    refine run_jumpTo (u := s.start) tf rfl ?_
    simp only [State.nearTarget, read, ok_bind]
  · obtain ⟨-, cpl, shadow⟩ := pushE_mem_frame push
    refine execCall_eq tf (congrArg Except.ok (relTarget_eq w rel)) push (callShadow_off ?_)
    rw [shadow, cpl]
    exact still.imp id fun next => beq_iff_eq.mpr next
  · obtain ⟨-, cpl, shadow⟩ := pushE_mem_frame push
    exact execCall_eq tf read push (callShadow_off (.inl (by rw [shadow, cpl]; exact off)))
  · obtain ⟨cet, cpl, shadow⟩ := pushE_mem_frame push
    have on' : t.shadowEnabled t.cpl = true := by rw [shadow, cpl]; exact on
    have ssp : t.cet.ssp = s.cet.ssp := congrArg Cet.ssp cet
    refine execCall_eq tf (congrArg Except.ok (relTarget_eq w rel)) push ?_
    rw [callShadow_on on' (show NearTarget.isNext (.rel rel) = false from beq_eq_false_iff_ne.mpr far) (by rw [cpl, ssp]; exact span), ssp]
  · obtain ⟨cet, cpl, shadow⟩ := pushE_mem_frame push
    have on' : t.shadowEnabled t.cpl = true := by rw [shadow, cpl]; exact on
    have ssp : t.cet.ssp = s.cet.ssp := congrArg Cet.ssp cet
    refine execCall_eq tf read push ?_
    rw [callShadow_on on' rfl (by rw [cpl, ssp]; exact span), ssp]
  · obtain ⟨-, rfl⟩ := pop_ok.mp pop
    exact (execRet_eq tf pop (retShadow_off off)).trans (by rw [dropStack_eq]; rfl)
  · obtain ⟨-, frame⟩ := pop_ok.mp pop
    have on' : t.shadowEnabled t.cpl = true := by rw [frame]; exact on
    have span' : t.sstkSpan (t.cpl == 3) false t.cet.ssp n = .ok ps := by
      rw [frame]
      exact (writeGpr_sstkSpan _ _ _ _ _ _ _).trans ((start_sstkSpan _ _ _ _).trans span)
    have load : t.loadAt ps = s.loadAt ps := by rw [frame]; rfl
    have shadow := retShadow_on (v := v) on' span'
    rw [load] at shadow
    by_cases same : v.toNat = s.loadAt ps
    · rw [if_pos same] at shadow
      refine (execRet_eq tf pop shadow).trans ?_
      rw [State.jump, if_neg (by decide), if_neg (by rw [ok]; decide), if_pos same, dropStack_eq, frame]
      rfl
    · rw [if_neg same] at shadow
      exact (execRet_fails ok pop shadow).trans (if_neg same).symm

end Sys2Proof.Machine
end

