-- ==== Sys2Proof/Proofs/FarReal.lean ====
section
/-! PROOFS. The far calls, jumps and returns outside protected mode (41_gp_c.md R351, R352, 42_gp_d_j.md R421, R422,
45_gp_r_s.md R569). -/

namespace Sys2Proof.Machine

variable {s t u : State}

theorem ofNat16_toNat (v : Quad) : v.setWidth 16 = BitVec.ofNat 16 v.toNat := rfl

theorem readFar_eq {w : Width} {m : Mem} {ps qs : List Nat} (offset : t.access m.seg (t.ea m) (zWidth w).bytes false = .ok ps)
    (selector : t.access m.seg (t.ea m + BitVec.ofNat 64 (zWidth w).bytes) 2 false = .ok qs) :
    t.readFar w m = .ok (BitVec.ofNat 64 (t.loadAt ps), BitVec.ofNat 16 (t.loadAt qs)) := by
  have narrow : (BitVec.ofNat 64 (t.loadAt qs)).setWidth 16 = BitVec.ofNat 16 (t.loadAt qs) := by
    apply BitVec.eq_of_toNat_eq
    simp only [BitVec.toNat_setWidth, BitVec.toNat_ofNat]
    omega
  simp only [State.readFar, readM_of_access offset, readMem_ok.mpr ⟨qs, selector, rfl⟩, ok_bind, narrow]

theorem trunc_zWidth_ptr (w : Width) (o : BitVec 32) : trunc (zWidth w) (o.setWidth 64) = wrap (zWidth w) o.toNat := by
  rw [trunc_eq_wrap, uns, BitVec.toNat_setWidth_of_le (by decide)]
  apply BitVec.eq_of_toNat_eq
  rw [wrap_nat, wrap_nat, Nat.mod_mod]

theorem farTarget_ptr_long {w : Width} {sel : BitVec 16} {o : BitVec 32} (mode : t.mode64 = true) :
    t.farTarget w (.ptr sel o) = .error ud := by
  rw [State.farTarget, mode, Bool.not_true, require_false, error_bind]

/-- A far transfer outside protected mode: `u` with CS and rIP of the target, CS taken from the state before. -/
def State.enterReal (s u : State) (sel : BitVec 16) (off : Quad) : Host.Outcome State Fault Refusal :=
  if s.targetOk off = false then s.raise { name := .gp, code := some 0 }
  else .next { u with
    rip := off
    seg := { u.seg with cs := { s.seg.cs with sel := sel, base := BitVec.ofNat 64 (sel.toNat * 16) } }
    exec := { u.exec with monitor := { u.exec.monitor with armed := false } } }

theorem loadReal_eq (r : SegReg) (sel : BitVec 16) : r.loadReal sel = { r with sel := sel, base := BitVec.ofNat 64 (sel.toNat * 16) } := by
  rw [SegReg.loadReal, shiftLeft_four]

theorem run_enterReal {body : State → Res State} {sel : BitVec 16} {off : Quad} (tf : s.flags.tf = false) (cs : u.seg.cs = s.seg.cs)
    (h : body s.start = (s.checkTarget off >>= fun _ => .ok ((u.loadCsReal sel).setRip off))) :
    run s body = s.enterReal u sel off := by
  by_cases bad : s.targetOk off = false
  · rw [checkTarget_fails bad, error_bind] at h
    rw [run_exc h, State.enterReal, if_pos bad]
  · rw [checkTarget_ok.mpr (targetOk_eq_true bad), ok_bind] at h
    rw [run_ok tf h, State.enterReal, if_neg bad, State.loadCsReal, loadReal_eq, cs]
    rfl

theorem pushAllE_seg {bad : Trap} {n : Nat} {vs : List Quad} (h : s.pushAllE bad n vs = .ok t) :
    t.seg = s.seg ∧ ∀ v, t.checkTarget v = s.checkTarget v := by
  rw [pushAllE_frame h]
  exact ⟨rfl, fun _ => rfl⟩

theorem pop_frame {n : Nat} {v : Quad} (h : s.pop n = .ok (v, t)) : t = { s with gpr := { s.gpr with rsp := t.gpr.rsp } } := by
  obtain ⟨-, rfl⟩ := pop_ok.mp h
  rfl

/-- Settles O39. -/
theorem farTransfersReal : Obligations.FarTransfersReal := by
  intro s t u w far m off cs sel imm o ps qs tf z into
  refine ⟨fun mode => ?_, fun mode => ⟨?_, ?_⟩, fun offset selector => readFar_eq offset selector,
    fun prot mode => ⟨fun target => ⟨?_, fun push => ?_⟩, fun popOff popCs => ?_⟩⟩
  · rw [State.farTarget, start_mode64, mode, Bool.not_false, require_true, ok_bind, trunc_zWidth_ptr]
    rfl
  · rw [exec_jmpFar, execJmpFar]
    exact run_exc (by rw [farTarget_ptr_long (t := s.start) mode, error_bind]; rfl)
  · rw [exec_callFar, execCallFar]
    exact run_exc (by rw [farTarget_ptr_long (t := s.start) mode, error_bind]; rfl)
  · rw [exec_jmpFar, execJmpFar]
    refine run_enterReal (u := s.start) tf rfl ?_
    simp only [target, ok_bind, start_protMode, prot, Bool.false_eq_true, if_false]
    rfl
  · obtain ⟨seg, check⟩ := pushAllE_seg push
    rw [exec_callFar, execCallFar]
    refine run_enterReal tf (congrArg Segs.cs seg) ?_
    simp only [target, ok_bind, start_protMode, prot, Bool.false_eq_true, if_false, State.callReal]
    rw [show s.start.rip = s.nextRip from rfl, show s.start.seg = s.seg from rfl, push, ok_bind, check]
    rfl
  · have frame : t = { s.start with gpr := { s.start.gpr with rsp := t.gpr.rsp } } := by
      rw [pop_frame popCs, pop_frame popOff]
    rw [exec_retf, execRetf]
    refine Eq.trans (b := s.enterReal (t.dropStack imm) (BitVec.ofNat 16 cs.toNat) off)
      (run_enterReal tf (by rw [frame]; rfl) ?_) ?_
    · simp only [popOff, popCs, ok_bind, start_protMode, prot, Bool.not_false, if_true]
      rw [State.retfReal, frame]
      rfl
    · rw [dropStack_eq]
      rfl

end Sys2Proof.Machine
end

