-- ==== Sys2Proof/Proofs/Interrupts.lean ====
section
/-! PROOFS. Software interrupts, delivery in real mode, second exceptions and the single-step trap (42_gp_d_j.md R410, R411, R417,
40_gp_a_b.md R325, 60_exceptions.md R906, R920 to R926). -/

namespace Sys2Proof.Machine

variable {s t u : State}

/-! ### Software interrupts -/

theorem run_bound {w : Width} {idx : Gpr} {m : Mem} {ps qs : List Nat} (tf : s.flags.tf = false) (mode : s.mode64 = false)
    (lower : s.start.access m.seg (s.start.ea m) w.bytes false = .ok ps)
    (upper : s.start.access m.seg (s.start.ea m + BitVec.ofNat 64 w.bytes) w.bytes false = .ok qs) :
    execBound w idx m s =
      if sgn w (BitVec.ofNat 64 (s.loadAt ps)) ≤ sgn w (s.reg idx) ∧ sgn w (s.reg idx) ≤ sgn w (BitVec.ofNat 64 (s.loadAt qs)) then
        .next s.start
      else s.raise { name := .br } := by
  have second : s.start.readMem m.seg (s.start.ea m + BitVec.ofNat 64 w.bytes) w.bytes = .ok (BitVec.ofNat 64 (s.loadAt qs)) :=
    readMem_ok.mpr ⟨qs, upper, rfl⟩
  rw [execBound]
  by_cases inside : sgn w (BitVec.ofNat 64 (s.loadAt ps)) ≤ sgn w (s.reg idx) ∧ sgn w (s.reg idx) ≤ sgn w (BitVec.ofNat 64 (s.loadAt qs))
  · rw [if_pos inside]
    apply run_ok tf
    simp only [start_mode64, mode, Bool.not_false, require_true, ok_bind, readM_of_access lower, second, signed_eq, start_readGpr,
      sgn_readGpr, start_loadAt, decide_eq_true inside.1, decide_eq_true inside.2, Bool.and_self]
  · rw [if_neg inside]
    apply run_exc
    have outside : (decide (sgn w (BitVec.ofNat 64 (s.loadAt ps)) ≤ sgn w (s.reg idx)) &&
        decide (sgn w (s.reg idx) ≤ sgn w (BitVec.ofNat 64 (s.loadAt qs)))) = false := by
      simpa only [Bool.and_eq_false_iff, decide_eq_false_iff_not, ← not_and_or] using inside
    simp only [start_mode64, mode, Bool.not_false, require_true, ok_bind, readM_of_access lower, second, signed_eq, start_readGpr,
      sgn_readGpr, start_loadAt, outside, require_false, error_bind]

/-- Settles O41. -/
theorem softwareInterrupts : Obligations.SoftwareInterrupts := by
  intro s t v w idx m ps qs tf event
  refine ⟨fun h => ?_, fun h => ?_, fun mode of h => ?_, fun mode of => ?_, fun mode => ⟨?_, ?_⟩,
    fun h => execInt1_ok tf h, fun mode lower upper => run_bound tf mode lower upper⟩
  · rw [exec_int, execInt]
    exact run_ok tf h
  · rw [exec_int3, execInt3]
    exact run_ok tf h
  · rw [exec_into, execInto]
    apply run_ok tf
    rw [start_mode64, mode, Bool.not_false, require_true, ok_bind, show s.start.flags.of = true from of, if_pos rfl]
    exact h
  · rw [exec_into, execInto]
    apply run_ok tf
    rw [start_mode64, mode, Bool.not_false, require_true, ok_bind, show s.start.flags.of = false from of]
    rfl
  · rw [exec_into, execInto]
    exact run_exc (by rw [start_mode64, mode]; rfl)
  · rw [exec_bound, execBound]
    exact run_exc (by rw [start_mode64, mode]; rfl)

/-! ### Second exceptions -/

/-- The vectors of the contributory exceptions (60_exceptions.md R925). -/
def contributoryVectors : List Byte := [0, 10, 11, 12, 13, 21]

theorem vectorClass_contributory (v : Byte) : vectorClass v = .contributory ↔ v ∈ contributoryVectors := by
  revert v
  decide

theorem vectorClass_pageFault (v : Byte) : vectorClass v = .pageFault ↔ v = 14 := by
  revert v
  decide

theorem doubleFault_iff (a b : ExcClass) : doubleFault a b = true ↔
    a = .contributory ∧ b = .contributory ∨ a = .pageFault ∧ (b = .contributory ∨ b = .pageFault) := by
  cases a <;> cases b <;> decide

theorem cls_eq {e : Event} {c : ExcClass} (h : c ≠ .benign) : e.cls = c ↔ e.kind = .exception ∧ vectorClass e.vector = c := by
  unfold Event.cls
  split
  case isTrue kind => simp only [beq_iff_eq.mp kind, true_and]
  case isFalse kind =>
    have other : e.kind ≠ .exception := fun same => kind (beq_iff_eq.mpr same)
    simp only [other, false_and, iff_false]
    exact h.symm

/-- The pairs of exceptions that make a double fault, by their vectors (60_exceptions.md R925). -/
theorem doubleFault_vectors (e : Event) (v : Byte) : doubleFault e.cls (vectorClass v) = true ↔
    (e.kind = .exception ∧ e.vector ∈ contributoryVectors) ∧ v ∈ contributoryVectors ∨
      (e.kind = .exception ∧ e.vector ∈ [(14 : Byte)]) ∧ (v ∈ contributoryVectors ∨ v = 14) := by
  rw [doubleFault_iff, cls_eq (by decide), cls_eq (by decide), vectorClass_contributory, vectorClass_contributory, vectorClass_pageFault,
    vectorClass_pageFault, List.mem_singleton]

theorem take_df {e : Event} {x : Exn} (h : s.deliverOnce e = .error (.exc x)) (df : e.kind = .exception ∧ e.vector = 8) :
    s.take e = .next (s.noteFault x).shutdown := by
  obtain ⟨kind, vector⟩ := df
  simp only [State.take, State.deliverLoop, h, kind, vector, beq_self_eq_true, Bool.and_self, if_true]

theorem take_second {e : Event} {x : Exn} (h : s.deliverOnce e = .error (.exc x)) (other : ¬(e.kind = .exception ∧ e.vector = 8))
    (second : (s.noteFault x).deliverOnce (e.second x) = .ok t) : s.take e = .next t := by
  have notDf : (e.kind == .exception && e.vector == 8) = false := by
    simpa only [Bool.and_eq_false_iff, beq_eq_false_iff_ne, ne_eq, ← not_and_or] using other
  simp only [State.take, State.deliverLoop, h, notDf, Bool.false_eq_true, if_false, second]

/-- Settles O46. -/
theorem doubleFaults : Obligations.DoubleFaults := by
  intro s t e x fails contributory first double noted
  have twice : doubleFault e.cls (vectorClass x.name.vector) = true ↔ double := doubleFault_vectors e _
  refine ⟨fun kind vector => take_df fails ⟨kind, vector⟩, fun both second => ?_, fun other single second => ?_⟩
  · refine take_second fails (fun ⟨_, df⟩ => ?_) ?_
    · rcases both with ⟨⟨_, listed⟩, _⟩ | ⟨⟨_, listed⟩, _⟩
      · rw [df] at listed
        exact absurd listed (by decide)
      · rw [df] at listed
        exact absurd listed (by decide)
    · rw [Event.second, if_pos (twice.mpr both)]
      exact second
  · refine take_second fails (fun ⟨kind, vector⟩ => other ⟨kind, List.mem_singleton.mpr vector⟩) ?_
    rw [Event.second, if_neg (fun h => single (twice.mp h))]
    have code : (x.code.map fun c => if x.sel && e.kind != .software then c ||| 1 else c) =
        x.code.map fun c => if x.sel = true ∧ e.kind ≠ .software then c ||| 1 else c := by
      congr 1
      funext c
      simp only [Bool.and_eq_true, bne_iff_ne]
    rw [code]
    exact second

/-! ### The single-step trap -/

theorem complete_trap (tf : s.flags.tf = true) (h : t.exec.shadow ≠ .ss) : s.complete t = t.singleStep := by
  rw [State.complete, tf, Bool.true_and, if_pos (bne_iff_ne.mpr h)]

theorem complete_shadow (h : t.exec.shadow = .ss) : s.complete t = .next t := by
  rw [State.complete, h, bne_self_eq_false, Bool.and_false]
  rfl

theorem run_complete {body : State → Res State} (h : body s.start = .ok t) : run s body = s.complete t := by rw [run, h]

/-- Settles O47. -/
theorem singleStepTrap : Obligations.SingleStepTrap := by
  intro s t x body stepped trap
  refine ⟨fun tf next => ?_, fun tf open_ next => ?_, fun done tf open_ => ?_, fun done tf shadow => ?_, fun cr2 trap next => ?_⟩
  · rw [exec_nop, execNop, run_complete rfl, complete_trap tf (show Shadow.none ≠ .ss by decide)]
    exact take_ok next
  · have again : s.deliverOnce (s.excEvent int1Trap) = .ok t := next
    rw [exec_int1, execInt1, again]
    exact complete_trap tf open_
  · rw [run_complete done]
    exact complete_trap tf open_
  · rw [run_complete done]
    exact complete_shadow shadow
  · refine raise_ok ?_
    rw [State.noteFault, cr2, State.excEvent, trap]
    exact next

/-! ### Delivery in real mode -/

/-- A span without paging below 4 Gbyte. -/
theorem span_unpaged {acc : Config.Access} {lin : Quad} (pg : s.pg = false) (small : lin.toNat + acc.size ≤ 2 ^ 32)
    (bits : 32 ≤ s.cfg.physAddrBits) (some : 0 < acc.size) : s.span acc true lin = .ok (physRange lin.toNat acc.size) := by
  have unpaged (acc : Config.Access) (lin : Quad) :
      s.translate acc lin = ({ s with cfg := { s.cfg with paging := .identity } } : State).translate acc lin := by
    rw [translate_identity (s := { s with cfg := { s.cfg with paging := .identity } }) rfl, State.translate, pg]
    rfl
  have bytes : (List.range acc.size).map (byteAddr true lin) = physRange lin.toNat acc.size := by
    refine List.map_congr_left fun i hi => Nat.mod_eq_of_lt ?_
    have := List.mem_range.mp hi
    rw [if_pos rfl]
    omega
  refine span_of_physAddrs ?_ fun p hp => ?_
  · rw [physAddrs_congr unpaged, physAddrs_identity rfl _ _ _ _ (fun _ => by omega), bytes]
  · have within := mem_physRange.mp hp
    have wide : 2 ^ 32 ≤ 2 ^ s.cfg.physAddrBits := Nat.pow_le_pow_right (by decide) bits
    omega

/-- An implicit read of a table without paging, outside long mode. -/
theorem tableRead_unpaged {bad : Trap} {base : Quad} {limit : BitVec 32} {off n : Nat} (pg : s.pg = false) (long : s.longMode = false)
    (bits : 32 ≤ s.cfg.physAddrBits) (some : 0 < n) (small : base.toNat + off + n ≤ 2 ^ 32) (inside : off + n - 1 ≤ limit.toNat) :
    s.tableRead bad base limit off n = .ok (BitVec.ofNat 64 (s.loadAt (physRange (base.toNat + off) n))) := by
  have mode : s.mode64 = false := by rw [State.mode64, long]; rfl
  have lin : (trunc .w32 (base + BitVec.ofNat 64 off)).toNat = base.toNat + off := by
    rw [trunc_toNat, uns, BitVec.toNat_add, BitVec.toNat_ofNat]
    simp only [Width.bits]
    omega
  refine tableRead_ok.mpr ⟨inside, sysReadLin_ok.mpr ⟨_, ?_, rfl⟩⟩
  rw [State.sysSpan, State.wrap32, mode, if_neg (by decide), Bool.not_false, ← lin]
  exact span_unpaged pg (by rw [lin]; exact small) bits some

theorem ofNat16_ofNat64 (n : Nat) : (BitVec.ofNat 64 n).setWidth 16 = BitVec.ofNat 16 n := by
  apply BitVec.eq_of_toNat_eq
  simp only [BitVec.toNat_setWidth, BitVec.toNat_ofNat]
  omega

/-- What holds in the state that a delivery leaves, external NMIs blocked or not. -/
theorem deliverOnce_real {e : Event} (real : s.realMode = true)
    (h : ({ s with exec := { s.exec with activity := .running, shadow := .none, latch := [] } } : State).deliverReal
      { e with code := none } = .ok t) :
    s.deliverOnce e = .ok (if e.vector == 2 && e.kind == .external then { t with exec := { t.exec with nmiBlocked := true } } else t) := by
  rw [State.deliverOnce]
  simp only [State.realMode, State.pe] at real h ⊢
  rw [if_pos real, h, ok_bind]

/-- Settles O42. -/
theorem realModeEntry : Obligations.RealModeEntry := by
  intro s t e real pg long bits entry ip sel ready image small limit target push
  have inLimit : (s.idtr.limit.setWidth 32 : BitVec 32).toNat = s.idtr.limit.toNat := BitVec.toNat_setWidth_of_le (by decide)
  have vectorIp : ready.tableRead (excGate .gp e.vector) ready.idtr.base (ready.idtr.limit.setWidth 32) (e.vector.toNat * 4) 2 =
      .ok (BitVec.ofNat 64 ip) := by
    have at_ : ready.idtr.base.toNat + e.vector.toNat * 4 = entry := by rw [Nat.mul_comm]
    rw [tableRead_unpaged (s := ready) pg long bits (by decide) (by omega) (by rw [inLimit]; omega), at_]
    rfl
  have vectorCs : ready.tableRead (excGate .gp e.vector) ready.idtr.base (ready.idtr.limit.setWidth 32) (e.vector.toNat * 4 + 2) 2 =
      .ok (BitVec.ofNat 64 (s.loadAt (physRange (entry + 2) 2))) := by
    have at_ : ready.idtr.base.toNat + (e.vector.toNat * 4 + 2) = entry + 2 := by rw [Nat.mul_comm, ← Nat.add_assoc]
    rw [tableRead_unpaged (s := ready) pg long bits (by decide) (by omega) (by rw [inLimit]; omega), at_]
    rfl
  have inside : t.checkTarget (BitVec.ofNat 64 ip) = .ok () := by
    have seg := (pushAllE_seg push).2 (BitVec.ofNat 64 ip)
    have mode : ready.mode64 = false := by rw [State.mode64, show ready.longMode = false from long]; rfl
    rw [seg]
    refine checkTarget_ok.mpr ?_
    rw [State.targetOk, mode, if_neg (by decide), decide_eq_true_eq]
    exact Nat.le_trans (Nat.mod_le _ _) target
  have frame := pushAllE_frame push
  have pushed : ready.pushAllE ss0 2 [ready.flagsImage { e with code := none }, ready.seg.cs.sel.setWidth 64, e.savedRip] = .ok t := push
  have delivered : ready.deliverReal { e with code := none } =
      .ok (((t.loadCsReal sel).setFlags { t.flags with ac := false, tf := false, fi := false, rf := false }).setRip (BitVec.ofNat 64 ip)) := by
    simp only [State.deliverReal]
    rw [vectorIp, ok_bind, vectorCs, ok_bind, pushed, ok_bind, inside, ok_bind, ofNat16_ofNat64]
  rw [deliverOnce_real real delivered, State.loadCsReal, loadReal_eq, frame]
  cases (e.vector == 2 && e.kind == .external)
  · rw [Bool.or_false]
    rfl
  · rw [Bool.or_true]
    rfl

end Sys2Proof.Machine
end

