-- ==== Sys2Proof/Proofs/FarProtected.lean ====
section
/-! PROOFS. The far calls, jumps and returns in protected mode, with shadow stacks disabled (41_gp_c.md R353, R354, 42_gp_d_j.md R423,
R424, 45_gp_r_s.md R570, R571). -/

namespace Sys2Proof.Machine

variable {s t u : State}

/-! ### What the parts of a far transfer read -/

/-- An implicit read depends on memory, the translation and whether the mode is 64-bit mode. -/
theorem sysReadLin_congr (mem : s.mem = t.mem) (cfg : s.cfg = t.cfg) (translate : ∀ acc lin, s.translate acc lin = t.translate acc lin)
    (mode : s.mode64 = t.mode64) (lin : Quad) (n : Nat) : s.sysReadLin lin n = t.sysReadLin lin n := by
  simp only [State.sysReadLin, State.sysSpan, State.wrap32, mode, State.loadAt, mem, span_congr cfg translate]

theorem readDesc_setGpr (g : Gprs) (bad : Trap) (sel : BitVec 16) : ({ s with gpr := g } : State).readDesc bad sel = s.readDesc bad sel := by
  have read (lin : Quad) (n : Nat) : ({ s with gpr := g } : State).sysReadLin lin n = s.sysReadLin lin n :=
    sysReadLin_congr (s := { s with gpr := g }) (t := s) rfl rfl (fun _ _ => rfl) rfl lin n
  simp only [State.readDesc, State.descQuad, State.tableRead, read]

theorem readIretCs_setGpr (g : Gprs) (sel : BitVec 16) : ({ s with gpr := g } : State).readIretCs sel = s.readIretCs sel := by
  simp only [State.readIretCs, readDesc_setGpr]
  rfl

/-- Shadow stacks stay disabled while the control registers and the mode stay. -/
theorem shadowEnabled_off (ctl : t.ctl = s.ctl) (vm : t.flags.vm = s.flags.vm) (off : s.sstkEnabled = false) (level : BitVec 2) :
    t.shadowEnabled level = false := by
  have still : t.sstkEnabled = s.sstkEnabled := by
    rw [State.sstkEnabled, State.sstkEnabled, State.cr4Bit, State.cr4Bit, State.pe, State.pe, ctl, vm]
  rw [State.shadowEnabled, still, off, Bool.false_and]

theorem pushAllE_append {bad : Trap} {n : Nat} (vs ws : List Quad) :
    ∀ s : State, s.pushAllE bad n (vs ++ ws) = s.pushAllE bad n vs >>= fun t => t.pushAllE bad n ws := by
  induction vs with
  | nil => exact fun _ => rfl
  | cons v vs ih =>
    intro s
    simp only [List.cons_append, State.pushAllE, ih]
    cases s.pushE bad n v <;> rfl

theorem pushAllE_ctl {bad : Trap} {n : Nat} {vs : List Quad} (h : s.pushAllE bad n vs = .ok t) : t.ctl = s.ctl ∧ t.flags = s.flags := by
  rw [pushAllE_frame h]
  exact ⟨rfl, rfl⟩

/-- A transfer to `q` at `off`, which its code segment must hold. -/
def State.enter (s q : State) (off : Quad) : Host.Outcome State Fault Refusal :=
  if q.targetOk off = false then s.raise { name := .gp, code := some 0 } else .next (q.goto off)

theorem run_enter {body : State → Res State} {off : Quad} (tf : s.flags.tf = false)
    (h : body s.start = (u.checkTarget off >>= fun _ => .ok (u.setRip off))) : run s body = s.enter u off := by
  by_cases bad : u.targetOk off = false
  · rw [checkTarget_fails bad, error_bind] at h
    rw [run_exc h, State.enter, if_pos bad]
  · rw [checkTarget_ok.mpr (targetOk_eq_true bad), ok_bind] at h
    rw [run_ok tf h, State.enter, if_neg bad]
    rfl

/-! ### What a selector names -/

theorem isCode_s {a : SegAttr} (h : a.isCode = true) : a.s = true := (Bool.and_eq_true_iff.mp h).1

theorem farKind_code {a : SegAttr} (code : a.isCode = true) (legal : ¬(t.longMode = true ∧ a.l = true ∧ a.db = true)) :
    t.farKind a = some .code := by
  have type : t.codeType a = true := by
    rw [State.codeType, code, Bool.true_and, Bool.not_eq_true', ← Bool.not_eq_true, Bool.and_eq_true, Bool.and_eq_true, and_assoc]
    exact legal
  rw [State.farKind, if_pos (isCode_s code), if_pos type]

/-- The privilege rule of a code segment that a far transfer names. -/
theorem farPriv_code (sel : BitVec 16) (a : SegAttr) :
    t.farPriv sel a .code = true ↔ if a.conforming then a.dpl ≤ t.cpl else rpl sel ≤ t.cpl ∧ a.dpl = t.cpl := by
  rw [State.farPriv]
  split <;> simp

theorem farPriv_code_absurd {sel : BitVec 16} {a : SegAttr} (allowed : t.farPriv sel a .code = true)
    (forbidden : if a.conforming then t.cpl < a.dpl else t.cpl < rpl sel ∨ a.dpl ≠ t.cpl) : False := by
  have rule := (farPriv_code _ _).mp allowed
  by_cases conforming : a.conforming = true
  · rw [if_pos conforming] at rule forbidden
    exact absurd rule (BitVec.not_le.mpr forbidden)
  · rw [if_neg conforming] at rule forbidden
    rcases forbidden with high | dpl
    · exact absurd rule.1 (BitVec.not_le.mpr high)
    · exact dpl rule.2

theorem readFarDesc_ok {sel : BitVec 16} {d : Quad} {k : FarKind} (read : t.readDesc (gpSel sel) sel = .ok d)
    (kind : t.farKind (descAttr d) = some k) (priv : t.farPriv sel (descAttr d) k = true) (gdt : k = .tss → sel.getLsbD 2 = false)
    (present : (descAttr d).p = true) : t.readFarDesc sel = .ok (k, d) := by
  have table : (!(k == .tss && sel.getLsbD 2)) = true := by
    cases k <;> simp_all
  simp only [State.readFarDesc, read, ok_bind, kind, priv, table, present, require_true]

/-- A code segment that the privilege rule forbids. -/
theorem readFarDesc_code_forbidden {sel : BitVec 16} {d : Quad} (read : t.readDesc (gpSel sel) sel = .ok d)
    (code : (descAttr d).isCode = true) (forbidden : ¬t.farPriv sel (descAttr d) .code = true) : t.readFarDesc sel = .error (gpSel sel) := by
  have refused : t.farPriv sel (descAttr d) .code = false := Bool.not_eq_true _ ▸ forbidden
  by_cases legal : t.longMode = true ∧ (descAttr d).l = true ∧ (descAttr d).db = true
  · have none : t.farKind (descAttr d) = none := by
      obtain ⟨long, l, db⟩ := legal
      simp [State.farKind, isCode_s code, State.codeType, long, l, db]
    simp only [State.readFarDesc, read, ok_bind, none]
  · simp only [State.readFarDesc, read, ok_bind, farKind_code code legal, refused, require_false, error_bind]

theorem farPriv_gate {sel : BitVec 16} {a : SegAttr} {k : FarKind} (h : k ≠ .code) (cpl : t.cpl ≤ a.dpl) (rpl_ : rpl sel ≤ a.dpl) :
    t.farPriv sel a k = true := by
  cases k
  case code => exact absurd rfl h
  all_goals simp only [State.farPriv, decide_eq_true cpl, decide_eq_true rpl_, Bool.and_self]

theorem farKind_callGate {a : SegAttr} (sys : a.s = false) (type : a.type = 0xC ∨ t.longMode = false ∧ a.type = 4) :
    t.farKind a = some .callGate := by
  rcases type with type | ⟨long, type⟩
  · simp [State.farKind, sys, type]
  · simp [State.farKind, sys, type, long]

theorem farKind_tss {a : SegAttr} (sys : a.s = false) (long : t.longMode = false) (type : a.type = 1 ∨ a.type = 9) :
    t.farKind a = some .tss := by
  rcases type with type | type <;> simp [State.farKind, sys, type, long]

theorem farKind_taskGate {a : SegAttr} (sys : a.s = false) (long : t.longMode = false) (type : a.type = 5) :
    t.farKind a = some .taskGate := by
  simp [State.farKind, sys, type, long]

/-! ### Jumps and calls -/

theorem callFrame_off {v : Nat} (off : u.shadowEnabled u.cpl = false) : u.callFrame t v = .ok u := if_neg (by rw [off]; decide)

theorem setCsSame_eq (cs : SegReg) : t.setCsSame cs = (t.setCs cs t.cpl).setRsp t.gpr.rsp := rfl

/-- A call at the same level, without a frame on the shadow stack. -/
theorem callSame_eq {v : Nat} {cs : SegReg} {rip : Quad} (off : t.sstkEnabled = false)
    (push : ((t.setCs cs t.cpl).setRsp t.gpr.rsp).pushAllE ss0 v [t.seg.cs.sel.setWidth 64, t.rip] = .ok u) :
    t.callSame v cs rip = (u.checkTarget rip >>= fun _ => .ok (u.setRip rip)) := by
  obtain ⟨ctl, flags⟩ := pushAllE_ctl push
  have still : u.shadowEnabled u.cpl = false :=
    shadowEnabled_off (s := t) (by rw [ctl, State.setRsp_ctl, State.setCs_ctl]) (by rw [flags, State.setRsp_flags, State.setCs_flags]) off _
  rw [State.callSame, setCsSame_eq, push, ok_bind, callFrame_off still, ok_bind]

theorem run_jmpFar {w : Width} {far : FarTarget} {off : Quad} {sel : BitVec 16} (prot : s.protMode = true)
    (target : s.start.farTarget w far = .ok (off, sel)) : exec (.jmpFar w far) s = run s fun _ => s.start.jmpProtected sel off := by
  rw [exec_jmpFar, execJmpFar, run, run]
  simp only [target, ok_bind, start_protMode, prot, if_true]

theorem run_callFar {w : Width} {far : FarTarget} {off : Quad} {sel : BitVec 16} (prot : s.protMode = true)
    (target : s.start.farTarget w far = .ok (off, sel)) : exec (.callFar w far) s = run s fun _ => s.start.callProtected w sel off := by
  rw [exec_callFar, execCallFar, run, run]
  simp only [target, ok_bind, start_protMode, prot, if_true]

theorem jumpSame_eq (cs : SegReg) (rip : Quad) :
    t.jumpSame cs rip = ((t.setCs cs t.cpl).checkTarget rip >>= fun _ => .ok ((t.setCs cs t.cpl).setRip rip)) := rfl

/-- The offset of a gate's target as a number (20_memory.md R112). -/
theorem gateOffset_toNat (d : Quad) : (gateOffset d).toNat = d.toNat % 2 ^ 16 + d.toNat / 2 ^ 48 * 2 ^ 16 := by
  have low : (d.extractLsb' 0 16).toNat < 2 ^ 16 := BitVec.isLt _
  rw [gateOffset, BitVec.toNat_setWidth_of_le (by decide), BitVec.toNat_append, ← Nat.shiftLeft_add_eq_or_of_lt low, BitVec.extractLsb'_toNat,
    BitVec.extractLsb'_toNat, Nat.shiftLeft_eq, Nat.shiftRight_eq_div_pow, Nat.shiftRight_zero]
  have := d.isLt
  omega

theorem callGateTarget_legacy {sel : BitVec 16} {d rip : Quad} (long : t.longMode = false)
    (type : (descAttr d).type = 0xC ∨ t.longMode = false ∧ (descAttr d).type = 4) (h : t.callGateTarget sel d = .ok rip) :
    rip.toNat = d.toNat % 2 ^ 16 + (if (descAttr d).type = 0xC then d.toNat / 2 ^ 48 * 2 ^ 16 else 0) := by
  rw [State.callGateTarget, long, if_neg (by decide)] at h
  cases h
  rw [trunc_toNat, uns, gateOffset_toNat]
  have := d.isLt
  rcases type with type | ⟨-, type⟩
  · simp only [type, beq_self_eq_true, if_true, Width.bits]
    omega
  · simp only [type, show ((4 : BitVec 4) == 0xC) = false from rfl, show ¬(4 : BitVec 4) = 0xC by decide, Bool.false_eq_true, if_false, Width.bits]
    omega

theorem intTarget_same {sel : BitVec 16} {c : Quad} (same : (descAttr c).conforming = true ∨ (descAttr c).dpl = t.cpl) :
    intTarget t sel c = (descSeg (withRpl sel t.cpl) c, t.cpl) := by
  have level : (if (descAttr c).conforming then t.cpl else (descAttr c).dpl) = t.cpl := by
    rcases same with conforming | dpl
    · rw [if_pos conforming]
    · rw [dpl, ite_self]
  rw [intTarget, level]

theorem intTarget_inner {sel : BitVec 16} {c : Quad} (inner : ¬((descAttr c).conforming = true ∨ (descAttr c).dpl = t.cpl)) :
    intTarget t sel c = (descSeg (withRpl sel (descAttr c).dpl) c, (descAttr c).dpl) := by
  rw [intTarget, if_neg fun h => inner (.inl h)]

theorem readJumpCs_same {sel : BitVec 16} {c : Quad} (same : (descAttr c).conforming = true ∨ (descAttr c).dpl = t.cpl)
    (read : t.readIntCs sel = .ok c) : t.readJumpCs sel = .ok c := by
  obtain ⟨desc, dpl, code, present⟩ := readGateCs_ok.mp read
  refine readGateCs_ok.mpr ⟨desc, ?_, code, present⟩
  by_cases conforming : (descAttr c).conforming = true
  · rw [if_pos conforming]
    exact dpl
  · rw [if_neg conforming]
    exact beq_iff_eq.mpr (same.resolve_left conforming)

theorem callGate_same {sel : BitVec 16} {d rip c : Quad} (off : t.sstkEnabled = false) (target : t.callGateTarget sel d = .ok rip)
    (read : t.readIntCs (gateSel d) = .ok c) (same : (descAttr c).conforming = true ∨ (descAttr c).dpl = t.cpl)
    (push : ((t.setCs (descSeg (withRpl (gateSel d) t.cpl) c) t.cpl).setRsp t.gpr.rsp).pushAllE ss0 (t.callGateBytes d)
      [t.seg.cs.sel.setWidth 64, t.rip] = .ok u) :
    t.callGate sel d = (u.checkTarget rip >>= fun _ => .ok (u.setRip rip)) := by
  have check : (t.setCs (descSeg (withRpl (gateSel d) t.cpl) c) t.cpl).checkTarget rip = u.checkTarget rip := by
    rw [(pushAllE_seg push).2]
    rfl
  simp only [State.callGate, target, read, ok_bind, intTarget_same same, beq_self_eq_true, if_true, callSame_eq off push, check]
  cases u.checkTarget rip <;> rfl

/-- A call to an inner level through a gate without parameters, without a frame on the shadow stack. -/
theorem callGate_inner {sel : BitVec 16} {d rip c sp : Quad} {st : SegReg} (off : t.sstkEnabled = false)
    (target : t.callGateTarget sel d = .ok rip) (read : t.readIntCs (gateSel d) = .ok c)
    (inner : ¬((descAttr c).conforming = true ∨ (descAttr c).dpl = t.cpl))
    (stack : (t.setCs (descSeg (withRpl (gateSel d) (descAttr c).dpl) c) (descAttr c).dpl).innerStack (descAttr c).dpl 0 = .ok (st, sp))
    (params : t.longMode = true ∨ gateParams d = 0)
    (ok : (t.enterInner (descSeg (withRpl (gateSel d) (descAttr c).dpl) c) (descAttr c).dpl st sp).targetOk rip = true)
    (push : (t.enterInner (descSeg (withRpl (gateSel d) (descAttr c).dpl) c) (descAttr c).dpl st sp).pushAllE (excSel .ss st.sel)
      (t.callGateBytes d) [t.seg.ss.sel.setWidth 64, t.oldRsp, t.seg.cs.sel.setWidth 64, t.rip] = .ok u) :
    t.callGate sel d = .ok (u.setRip rip) := by
  have noParams : (if t.longMode then 0 else gateParams d) = 0 := by
    rcases params with long | none
    · rw [if_pos long]
    · rw [none, ite_self]
  have level : ((descAttr c).dpl == t.cpl) = false := beq_eq_false_iff_ne.mpr fun h => inner (.inr h)
  have check : (t.setCs (descSeg (withRpl (gateSel d) (descAttr c).dpl) c) (descAttr c).dpl).checkTarget rip = .ok () := by
    refine Eq.trans ?_ (checkTarget_ok.mpr ok)
    exact checkTarget_congr (by simp [State.enterInner]) (by simp [State.enterInner]) (by simp [State.enterInner]) _
  obtain ⟨ctl, flags⟩ := pushAllE_ctl push
  have noShadow : u.shadowEnabled u.cpl = false :=
    shadowEnabled_off (s := t) (by rw [ctl]; simp [State.enterInner]) (by rw [flags]; simp [State.enterInner]) off _
  have noUser : t.shadowEnabled 3 = false := shadowEnabled_off (s := t) rfl rfl off _
  obtain ⟨x, first, second⟩ := bind_ok.mp ((pushAllE_append [_, _] [_, _] _).symm.trans push)
  simp only [State.callGate, target, read, ok_bind, intTarget_inner inner, check, level, Bool.false_eq_true, if_false, noParams,
    State.callInner, stack, first, State.copyParams, second, State.callInnerShadow, noUser, Bool.false_and, noShadow]

theorem callGateBytes_eq (d : Quad) :
    t.callGateBytes d = if t.longMode then 8 else if (descAttr d).type = 0xC then 4 else 2 := by
  rw [State.callGateBytes]
  simp only [beq_iff_eq]

/-! ### Task gates -/

theorem taskGate_null {gate : Quad} (null : isNull (gateSel gate) = true) : t.taskGate gate = .error (gpSel (gateSel gate)) := by
  simp only [State.taskGate, State.readDesc, null, Bool.not_true, require_false, error_bind]

theorem taskGate_other {gate c : Quad} (read : t.readDesc (gpSel (gateSel gate)) (gateSel gate) = .ok c)
    (other : ¬((descAttr c).s = false ∧ ((descAttr c).type = 1 ∨ (descAttr c).type = 9) ∧ (gateSel gate).getLsbD 2 = false)) :
    t.taskGate gate = .error (gpSel (gateSel gate)) := by
  have not_tss : (!(gateSel gate).getLsbD 2 && !(descAttr c).s && ((descAttr c).type == 1 || (descAttr c).type == 9)) = false := by
    rw [← Bool.not_eq_true]
    simpa only [Bool.and_eq_true, Bool.not_eq_true', Bool.or_eq_true, beq_iff_eq, and_comm, and_assoc, and_left_comm] using other
  simp only [State.taskGate, read, ok_bind, not_tss, require_false, error_bind]

theorem taskGate_absent {gate c : Quad} (read : t.readDesc (gpSel (gateSel gate)) (gateSel gate) = .ok c)
    (tss : (descAttr c).s = false ∧ ((descAttr c).type = 1 ∨ (descAttr c).type = 9) ∧ (gateSel gate).getLsbD 2 = false)
    (absent : (descAttr c).p = false) : t.taskGate gate = .error (excSel .np (gateSel gate)) := by
  obtain ⟨sys, type, gdt⟩ := tss
  have is_tss : (!(gateSel gate).getLsbD 2 && !(descAttr c).s && ((descAttr c).type == 1 || (descAttr c).type == 9)) = true := by
    simp only [gdt, sys, Bool.not_false, Bool.true_and, Bool.or_eq_true, beq_iff_eq, type]
  simp only [State.taskGate, read, ok_bind, is_tss, require_true, absent, require_false, error_bind]

/-! ### Returns -/

theorem pop_ctl {n : Nat} {v : Quad} (h : s.pop n = .ok (v, t)) : t.ctl = s.ctl ∧ t.flags = s.flags ∧ t.cpl = s.cpl := by
  rw [pop_frame h]
  exact ⟨rfl, rfl, rfl⟩

theorem pop_readIretCs {n : Nat} {v : Quad} (h : s.pop n = .ok (v, t)) (sel : BitVec 16) : t.readIretCs sel = s.readIretCs sel := by
  rw [pop_frame h]
  exact readIretCs_setGpr _ _

theorem retfSame_eq {imm sel : BitVec 16} {rip d : Quad} (off : t.sstkEnabled = false) (read : t.readIretCs sel = .ok d)
    (same : u = ((t.setCs (descSeg sel d) t.cpl).setRsp t.gpr.rsp).dropStack imm) :
    t.retfSame imm sel rip = (u.checkTarget rip >>= fun _ => .ok (u.setRip rip)) := by
  have still : u.shadowEnabled u.cpl = false :=
    shadowEnabled_off (s := t) (by rw [same]; simp [dropStack_eq]) (by rw [same]; simp [dropStack_eq]) off _
  have shadow (sel : BitVec 16) : u.retfSameShadow sel rip = .ok u := if_neg (by rw [still]; decide)
  simp only [State.retfSame, read, ok_bind, setCsSame_eq, ← same, shadow]

/-- A return to an outer level, without frames on the shadow stacks. -/
theorem retfOuter_eq {w : Width} {x y q : State} {imm sel : BitVec 16} {rip sp ss d : Quad} {st : SegReg} (off : t.sstkEnabled = false)
    (popSp : (t.dropStack imm).pop w.bytes = .ok (sp, x)) (popSs : x.pop w.bytes = .ok (ss, y)) (read : y.readIretCs sel = .ok d)
    (ok : (y.setCs (descSeg sel d) (rpl sel)).targetOk rip = true)
    (stack : (y.setCs (descSeg sel d) (rpl sel)).returnSs (BitVec.ofNat 16 ss.toNat) (rpl sel) = .ok st)
    (same : q = ({ y.setCs (descSeg sel d) (rpl sel) with seg := { (y.setCs (descSeg sel d) (rpl sel)).seg with ss := st } } : State).writeRsp
      (sp + BitVec.ofNat 64 imm.toNat)) :
    t.retfOuter w imm sel rip = .ok (({ q with seg := q.seg.leaveLevel (rpl sel) } : State).setRip rip) := by
  obtain ⟨ctl, flags, cpl⟩ := pop_ctl popSs
  obtain ⟨ctl', flags', cpl'⟩ := pop_ctl popSp
  have readT : t.readIretCs sel = .ok d := by
    rw [← read, pop_readIretCs popSs, pop_readIretCs popSp, dropStack_eq]
    exact (readIretCs_setGpr _ _).symm
  have ctlQ : q.ctl = t.ctl := by rw [same, State.writeRsp]; simp [ctl, ctl', dropStack_eq]
  have flagsQ : q.flags = t.flags := by rw [same, State.writeRsp]; simp [flags, flags', dropStack_eq]
  have offQ : q.shadowEnabled q.cpl = false := shadowEnabled_off ctlQ (by rw [flagsQ]) off _
  have offT : t.shadowEnabled t.cpl = false := shadowEnabled_off (s := t) rfl rfl off _
  have imm64 : imm.setWidth 64 = BitVec.ofNat 64 imm.toNat := by rw [BitVec.ofNat_toNat]
  have frame : q.retfOuterFrame t sel rip = .ok (q.cet.ssp, q) := if_neg (by rw [offT]; decide)
  have shadow : q.retfOuterShadow t sel rip = .ok q := by
    simp only [State.retfOuterShadow, frame, ok_bind, offQ, offT, Bool.false_eq_true, if_false]
  simp only [State.retfOuter, popSp, popSs, readT, ok_bind, checkTarget_ok.mpr ok, ofNat16_toNat, stack, imm64, ← same, shadow]

/-- Settles O40. -/
theorem farTransfersProtected : Obligations.FarTransfersProtected := by
  intro s t u x y w far off rip v ss sp d c sel imm st tf prot sstk a sizes enter
  have offS : s.start.sstkEnabled = false := sstk
  refine ⟨fun target read => ⟨?codeSegment, fun code forbidden => ?forbidden, ?callGate, ?task⟩, fun popRip popCs hsel => ⟨?sameLevel, ?outerLevel⟩⟩
  case codeSegment =>
    intro code legal priv present cs
    have found := readFarDesc_ok read (farKind_code (t := s.start) code legal) ((farPriv_code _ _).mpr priv) (fun h => by cases h) present
    rw [run_jmpFar prot target, run_callFar prot target]
    refine ⟨run_enter tf ?_, fun push => run_enter tf ?_⟩
    · simp only [State.jmpProtected, found, ok_bind]
      exact jumpSame_eq _ _
    · simp only [State.callProtected, found, ok_bind]
      exact callSame_eq offS push
  case forbidden =>
    have refused := readFarDesc_code_forbidden (t := s.start) read code fun allowed => farPriv_code_absurd allowed forbidden
    rw [run_jmpFar prot target, run_callFar prot target]
    exact ⟨run_exc (by simp only [State.jmpProtected, refused, error_bind]; rfl),
      run_exc (by simp only [State.callProtected, refused, error_bind]; rfl)⟩
  case callGate =>
    intro sys type cpl level present gate readC b same cs
    have found := readFarDesc_ok read (farKind_callGate (t := s.start) sys type) (farPriv_gate (by decide) cpl level) (fun h => by cases h) present
    rw [run_jmpFar prot target, run_callFar prot target]
    refine ⟨fun long => callGateTarget_legacy (t := s.start) long type gate, fun same => run_enter tf ?_,
      fun same push => run_enter tf ?_, ?_⟩
    · simp only [State.jmpProtected, found, ok_bind, gate, readJumpCs_same (t := s.start) same readC]
      exact jumpSame_eq _ _
    · simp only [State.callProtected, found, ok_bind]
      exact callGate_same offS gate readC same (by rw [callGateBytes_eq]; exact push)
    · intro outside stack params inner ok push
      apply run_ok tf
      simp only [State.callProtected, found, ok_bind]
      exact callGate_inner offS gate readC outside stack params ok (by rw [callGateBytes_eq]; exact push)
  case task =>
    intro sys long cpl level present both task b tss no
    have both_iff (o : Host.Outcome State Fault Refusal) : both o ↔ exec (.jmpFar w far) s = o ∧ exec (.callFar w far) s = o := Iff.rfl
    simp only [both_iff, run_jmpFar prot target, run_callFar prot target]
    have taskFound (type : a.type = 5) :=
      readFarDesc_ok read (farKind_taskGate (t := s.start) sys long type) (farPriv_gate (by decide) cpl level) (fun h => by cases h) present
    refine ⟨fun type gdt => ?_, fun type null => ?_, fun type readC => ⟨fun other => ?_, fun is_tss => ?_⟩⟩
    · have found := readFarDesc_ok read (farKind_tss (t := s.start) sys long type) (farPriv_gate (by decide) cpl level) (fun _ => gdt) present
      exact ⟨run_refuse (by simp only [State.jmpProtected, found, ok_bind]), run_refuse (by simp only [State.callProtected, found, ok_bind])⟩
    · have found := taskFound type
      exact ⟨run_exc (by simp only [State.jmpProtected, found, ok_bind, taskGate_null null]; rfl),
        run_exc (by simp only [State.callProtected, found, ok_bind, taskGate_null null]; rfl)⟩
    · have found := taskFound type
      have ends := taskGate_other (t := s.start) readC other
      exact ⟨run_exc (by simp only [State.jmpProtected, found, ok_bind, ends]; rfl),
        run_exc (by simp only [State.callProtected, found, ok_bind, ends]; rfl)⟩
    · have found := taskFound type
      obtain ⟨tssSys, tssType, gdt⟩ := id is_tss
      by_cases there : b.p = true
      · have ends := taskGate_refuse (s := s.start) readC gdt tssSys tssType there
        rw [if_pos there]
        exact ⟨run_refuse (by simp only [State.jmpProtected, found, ok_bind, ends]),
          run_refuse (by simp only [State.callProtected, found, ok_bind, ends])⟩
      · have ends := taskGate_absent (t := s.start) readC is_tss (by simpa using there)
        rw [if_neg there]
        exact ⟨run_exc (by simp only [State.jmpProtected, found, ok_bind, ends]; rfl),
          run_exc (by simp only [State.callProtected, found, ok_bind, ends]; rfl)⟩
  case sameLevel =>
    intro same readD q
    obtain ⟨ctl, flags, cpl⟩ := pop_ctl popRip
    obtain ⟨ctl', flags', cpl'⟩ := pop_ctl popCs
    have offU : u.sstkEnabled = false := by
      rw [← sstk, State.sstkEnabled, State.sstkEnabled, State.cr4Bit, State.cr4Bit, State.pe, State.pe, ctl', flags', ctl, flags]
      rfl
    have level : (rpl sel == s.start.cpl) = true := beq_iff_eq.mpr same
    rw [exec_retf, execRetf]
    refine run_enter tf ?_
    simp only [popRip, popCs, ok_bind, start_protMode, prot, Bool.not_true, Bool.false_eq_true, if_false, ofNat16_toNat, ← hsel, level, if_true]
    refine retfSame_eq offU readD ?_
    rw [dropStack_eq, cpl', cpl]
    rfl
  case outerLevel =>
    intro outer popSp popSs readD z ok stack q
    obtain ⟨ctl, flags, cpl⟩ := pop_ctl popRip
    obtain ⟨ctl', flags', cpl'⟩ := pop_ctl popCs
    have offU : u.sstkEnabled = false := by
      rw [← sstk, State.sstkEnabled, State.sstkEnabled, State.cr4Bit, State.cr4Bit, State.pe, State.pe, ctl', flags', ctl, flags]
      rfl
    have level : (rpl sel == s.start.cpl) = false := beq_eq_false_iff_ne.mpr outer
    rw [exec_retf, execRetf]
    apply run_ok tf
    simp only [popRip, popCs, ok_bind, start_protMode, prot, Bool.not_true, Bool.false_eq_true, if_false, ofNat16_toNat, ← hsel, level]
    exact retfOuter_eq offU (by rw [dropStack_eq]; exact popSp) popSs readD ok stack rfl

end Sys2Proof.Machine
end

