-- ==== Sys2Proof/Proofs/Deliveries.lean ====
section
/-! PROOFS. Delivery in protected and virtual-8086 mode (42_gp_d_j.md R412 to R416, 60_exceptions.md R920, R922). -/

namespace Sys2Proof.Machine

variable {s t u v x y : State} {e : Event} {gate d rip sp ssp : Quad} {st : SegReg}

/-- The state a delivery begins in: running, without a shadow and without an instruction in progress. -/
def State.ready (s : State) : State := { s with exec := { s.exec with activity := .running, shadow := .none, latch := [] } }

/-- The state a delivery ends in: an external NMI blocks others. -/
def State.blockNmi (x : State) (e : Event) : State :=
  { x with exec := { x.exec with nmiBlocked := x.exec.nmiBlocked || (e.vector == 2 && e.kind == .external) } }

/-- A handler entered through a gate. -/
def State.handler (x : State) (gate rip : Quad) : State :=
  (x.setFlags (x.flags.enterGate (isIntGate (descAttr gate).type))).setRip rip

theorem blockNmi_eq (x : State) (e : Event) :
    (if e.vector == 2 && e.kind == .external then { x with exec := { x.exec with nmiBlocked := true } } else x) = x.blockNmi e := by
  rw [State.blockNmi]
  cases (e.vector == 2 && e.kind == .external)
  · rw [Bool.or_false]
    rfl
  · rw [Bool.or_true]
    rfl

theorem bind_blockNmi (x : Res State) : (x >>= fun t => (.ok (t.blockNmi e) : Res State)) =
    x >>= fun t => .ok (if e.vector == 2 && e.kind == .external then { t with exec := { t.exec with nmiBlocked := true } } else t) := by
  simp only [blockNmi_eq]

theorem deliverOnce_prot (prot : s.protMode = true) : s.deliverOnce e = s.ready.deliverProtected e >>= fun t => .ok (t.blockNmi e) := by
  have notReal : s.ready.realMode = false := by
    rw [State.realMode, show s.ready.pe = true from (Bool.and_eq_true_iff.mp prot).1]
    rfl
  rw [bind_blockNmi, State.deliverOnce]
  exact (if_neg (Bool.not_eq_true _ ▸ notReal)).trans (if_pos (show s.ready.protMode = true from prot))

theorem deliverOnce_virt (virt : s.virtMode = true) :
    s.deliverOnce e = (if e.kind = .software ∧ e.intN = true then s.ready.deliverVirtual e else s.ready.deliverFromVirtual e) >>=
      fun t => .ok (t.blockNmi e) := by
  obtain ⟨pe, vm⟩ := Bool.and_eq_true_iff.mp virt
  have notReal : s.ready.realMode = false := by
    rw [State.realMode, show s.ready.pe = true from pe]
    rfl
  have notProt : s.ready.protMode = false := by
    rw [State.protMode, show s.ready.flags.vm = true from vm, Bool.not_true, Bool.and_false]
  rw [bind_blockNmi, State.deliverOnce]
  refine (if_neg (Bool.not_eq_true _ ▸ notReal)).trans ((if_neg (Bool.not_eq_true _ ▸ notProt)).trans ?_)
  by_cases interrupt : e.kind = .software ∧ e.intN = true
  · have both : (e.kind == .software && e.intN) = true := by rw [interrupt.1, interrupt.2]; rfl
    rw [if_pos interrupt, if_pos both]
    rfl
  · have notBoth : ¬(e.kind == .software && e.intN) = true := by
      rw [Bool.and_eq_true, beq_iff_eq]
      exact interrupt
    rw [if_neg interrupt, if_neg notBoth]
    rfl

/-- A gate passed to its code segment. -/
structure State.Gated (s : State) (e : Event) (gate d rip : Quad) : Prop where
  read : s.readIdt e = .ok gate
  noTask : (descAttr gate).type ≠ 5
  target : s.gateTarget e gate = .ok rip
  code : s.readIntCs (gateSel gate) = .ok d

/-- In long mode a gate is an interrupt or a trap gate. -/
theorem readIdt_long (long : s.longMode = true) (read : s.readIdt e = .ok gate) : (descAttr gate).type ≠ 5 := by
  simp only [State.readIdt, bind_ok, require_ok, exists_const, Except.ok.injEq] at read
  obtain ⟨-, g, -, -, type, -, rfl⟩ := read
  intro five
  rw [five, long] at type
  simp at type

theorem deliverProtected_gated (gated : s.Gated e gate d rip) : s.deliverProtected e =
    (if (intTarget s (gateSel gate) d).2 = s.cpl then s.deliverSame e gate rip (intTarget s (gateSel gate) d).1
    else s.deliverInner e gate rip (intTarget s (gateSel gate) d).1 (intTarget s (gateSel gate) d).2) := by
  obtain ⟨read, noTask, target, code⟩ := gated
  rw [State.deliverProtected, read, ok_bind, if_neg (fun h => noTask (beq_iff_eq.mp h)), target, ok_bind, code, ok_bind]
  simp only [beq_iff_eq]

theorem gateBytes_eq (a : SegAttr) :
    s.gateBytes a.type = if s.longMode then 8 else if a.type = 0xE ∨ a.type = 0xF then 4 else 2 := by
  rw [State.gateBytes]
  simp only [Bool.or_eq_true, beq_iff_eq]

/-! ### At the same level -/

theorem sameStack_zero : s.sameStack 0 = .ok s := if_pos rfl

/-- An entry whose last part is the frame of the shadow stack, where it is pushed. -/
theorem bind_checked {c : Bool} {a b : Res State} (h : (if c then a else b) = .ok y) (ok : y.targetOk rip = true) :
    (if c then a >>= (fun t => t.checkTarget rip >>= fun _ => (.ok (t.handler gate rip) : Res State))
      else b >>= fun t => t.checkTarget rip >>= fun _ => .ok (t.handler gate rip)) = .ok (y.handler gate rip) := by
  have done : (y.checkTarget rip >>= fun _ => (.ok (y.handler gate rip) : Res State)) = .ok (y.handler gate rip) := by
    rw [checkTarget_ok.mpr ok, ok_bind]
  cases c
  · rw [show b = .ok y from h]
    exact done
  · rw [show a = .ok y from h]
    exact done

/-- The shadow stack of an entry at the same level: its token where the gate names an IST entry, and the frame. -/
def State.sameShadow (t s : State) (e : Event) (ist : Nat) : Res State :=
  if s.shadowEnabled s.cpl then
    (if ist = 0 then .ok t else t.setTokenBusy t.cet.ssp) >>= fun t =>
      t.alignSsp >>= fun t => t.pushSsFrame s.seg.cs.sel (s.seg.cs.base + e.oldRip) s.cet.ssp
  else .ok t

theorem deliverSame_eq {cs : SegReg} {ist : Nat} {stack : State} (hist : ist = if s.longMode then gateIst gate else 0)
    (same : ((s.setCs cs s.cpl).setRsp s.gpr.rsp).sameStack ist = .ok stack)
    (push : stack.pushAllE (if ist = 0 then ss0 else excSel .ss s.seg.ss.sel) (s.gateBytes (descAttr gate).type)
      ((if s.longMode then [s.seg.ss.sel.setWidth 64, s.oldRsp] else []) ++
        ([s.flagsImage e, s.seg.cs.sel.setWidth 64, e.savedRip] ++ e.codeList)) = .ok u)
    (shadow : u.sameShadow s e ist = .ok y) (ok : y.targetOk rip = true) :
    s.deliverSame e gate rip cs = .ok (y.handler gate rip) := by
  subst hist
  rw [State.sameShadow] at shadow
  simp only [State.deliverSame, setCsSame_eq, same, ok_bind, List.append_assoc, push]
  by_cases on : s.shadowEnabled s.cpl = true
  · rw [if_pos on] at shadow ⊢
    obtain ⟨a, token, shadow⟩ := bind_ok.mp shadow
    obtain ⟨b, align, frame⟩ := bind_ok.mp shadow
    by_cases ist : (if s.longMode then gateIst gate else 0) = 0
    · rw [if_pos ist] at token ⊢
      cases token
      simp only [align, frame, ok_bind, checkTarget_ok.mpr ok]
      rfl
    · rw [if_neg ist] at token ⊢
      simp only [token, align, frame, ok_bind, checkTarget_ok.mpr ok]
      rfl
  · rw [if_neg on] at shadow ⊢
    cases shadow
    rw [checkTarget_ok.mpr ok]
    rfl

theorem sameShadow_off {ist : Nat} (off : s.shadowEnabled s.cpl = false) : u.sameShadow s e ist = .ok u := if_neg (by rw [off]; decide)

theorem sameShadow_on (on : s.shadowEnabled s.cpl = true) (align : u.alignSsp = .ok x)
    (frame : x.pushSsFrame s.seg.cs.sel (s.seg.cs.base + e.oldRip) s.cet.ssp = .ok y) : u.sameShadow s e 0 = .ok y := by
  rw [State.sameShadow, if_pos on, if_pos rfl, ok_bind, align, ok_bind, frame]

theorem low3_zero (v : Quad) : (v.extractLsb' 0 3 == 0) = decide (v.toNat % 8 = 0) := by
  rw [Bool.eq_iff_iff, beq_iff_eq, decide_eq_true_eq, ← BitVec.toNat_inj, BitVec.extractLsb'_toNat, Nat.shiftRight_zero]
  rfl

theorem alignSsp_aligned (aligned : s.cet.ssp.toNat % 8 = 0) : s.alignSsp = .ok s := by
  have bit : s.cet.ssp.getLsbD 2 = false := by
    rw [← BitVec.testBit_toNat, Nat.testBit_eq_decide_div_mod_eq, decide_eq_false_iff_not]
    omega
  rw [State.alignSsp, bit]
  rfl

theorem sameShadow_ist {ist : Nat} (on : s.shadowEnabled s.cpl = true) (some : ist ≠ 0) (ssp_ : u.cet.ssp = ssp)
    (aligned : ssp.toNat % 8 = 0) (token : u.setTokenBusy ssp = .ok v)
    (frame : v.pushSsFrame s.seg.cs.sel (s.seg.cs.base + e.oldRip) s.cet.ssp = .ok y) : u.sameShadow s e ist = .ok y := by
  obtain ⟨ps, n, stored⟩ := setTokenBusy_frame token
  have kept : v.alignSsp = .ok v := alignSsp_aligned (by rw [stored]; exact ssp_ ▸ aligned)
  rw [State.sameShadow, if_pos on, if_neg some, ssp_, token, ok_bind, kept, ok_bind, frame]

theorem sameStack_ist {ist : Nat} (some : ist ≠ 0) (read : s.tssRead (ist * 8 + 28) 8 = .ok sp) (off : s.shadowEnabled s.cpl = false) :
    s.sameStack ist = .ok (s.setRsp (sp &&& ~~~(0xF : Quad))) := by
  rw [State.sameStack, if_neg some, read, ok_bind]
  exact if_neg (by rw [off]; decide)

/-- An IST entry with a shadow stack, whose SSP must be aligned. -/
theorem sameStack_isst {ist : Nat} (some : ist ≠ 0) (read : s.tssRead (ist * 8 + 28) 8 = .ok sp) (on : s.shadowEnabled s.cpl = true)
    (table : s.isstSsp ist = .ok ssp) :
    s.sameStack ist = if ssp.toNat % 8 = 0 then .ok ((s.setRsp (sp &&& ~~~(0xF : Quad))).setSsp ssp) else .error gp0 := by
  rw [State.sameStack, if_neg some, read, ok_bind]
  refine (if_pos on).trans ?_
  rw [table, ok_bind, require_bind, low3_zero]
  simp only [decide_eq_true_eq]

theorem deliverSame_stack_fails {cs : SegReg} {ist : Nat} {t : Trap} (hist : ist = if s.longMode then gateIst gate else 0)
    (fails : ((s.setCs cs s.cpl).setRsp s.gpr.rsp).sameStack ist = .error t) : s.deliverSame e gate rip cs = .error t := by
  subst hist
  simp only [State.deliverSame, setCsSame_eq, fails, error_bind]

theorem isstSsp_setRsp (v : Quad) (ist : Nat) : (s.setRsp v).isstSsp ist = s.isstSsp ist :=
  sysReadLin_congr (s := s.setRsp v) (t := s) rfl rfl (fun _ _ => rfl) rfl _ _

/-! ### At an inner level -/

/-- PL3_SSP keeps the shadow-stack pointer of a program that leaves CPL 3. -/
def State.leftUser (x s : State) : State :=
  if s.shadowEnabled 3 = true ∧ s.cpl = 3 then { x with cet := { x.cet with pl3Ssp := s.cet.ssp } } else x

theorem leftUser_eq (x s : State) :
    (if s.shadowEnabled 3 && s.cpl == 3 then { x with cet := { x.cet with pl3Ssp := s.cet.ssp } } else x) = x.leftUser s := by
  rw [State.leftUser]
  simp only [Bool.and_eq_true, beq_iff_eq]

theorem leftUser_setSsp (h : x.cet = s.cet) : (x.leftUser s).setSsp s.cet.ssp = x.leftUser s := by
  rw [State.leftUser]
  split
  · rw [State.setSsp, h]
  · rw [State.setSsp, ← h]

/-- The frame of an entry at an inner level. -/
def State.innerFrame (s : State) (e : Event) : List Quad :=
  [s.seg.ss.sel.setWidth 64, s.oldRsp, s.flagsImage e, s.seg.cs.sel.setWidth 64, e.savedRip] ++ e.codeList

section
variable {cs : SegReg} {level : BitVec 2} {ist : Nat} {stack : State}

theorem deliverInner_off (hist : ist = if s.longMode then gateIst gate else 0)
    (inner : (s.setCs cs level).innerStack level ist = .ok (st, sp))
    (hstack : stack = s.enterInner cs level st (if s.longMode then sp &&& ~~~(0xF : Quad) else sp))
    (push : stack.pushAllE (excSel .ss st.sel) (s.gateBytes (descAttr gate).type) (s.innerFrame e) = .ok u)
    (off : s.shadowEnabled level = false) (ok : u.targetOk rip = true) :
    s.deliverInner e gate rip cs level = .ok ((u.leftUser s).handler gate rip) := by
  have cet : u.cet = s.cet := by
    rw [pushAllE_frame push, hstack]
    simp [State.enterInner]
  have check : (u.leftUser s).checkTarget rip = .ok () := by
    refine Eq.trans ?_ (checkTarget_ok.mpr ok)
    rw [State.leftUser]
    split <;> rfl
  rw [State.innerFrame] at push
  subst hist
  simp only [State.deliverInner, inner, ok_bind, ← hstack, off, Bool.false_eq_true, if_false, push, leftUser_eq, leftUser_setSsp cet, check]
  rfl

/-- Where the shadow-stack pointer of an inner level comes from. -/
theorem innerSsp_cases (hist : ist = if s.longMode then gateIst gate else 0)
    (select : if ist = 0 then ssp = s.cet.plSsp level else stack.isstSsp ist = .ok ssp) :
    (s.longMode && gateIst gate != 0) = true ∧ stack.isstSsp (gateIst gate) = .ok ssp ∨
      (s.longMode && gateIst gate != 0) = false ∧ s.cet.plSsp level = ssp := by
  by_cases long : s.longMode = true
  · rw [if_pos long] at hist
    subst hist
    rw [long, Bool.true_and]
    by_cases none : gateIst gate = 0
    · rw [if_pos none] at select
      exact .inr ⟨by rw [none]; rfl, select.symm⟩
    · rw [if_neg none] at select
      exact .inl ⟨bne_iff_ne.mpr none, select⟩
  · rw [if_neg long] at hist
    rw [if_pos hist] at select
    exact .inr ⟨by rw [Bool.eq_false_iff.mpr long]; rfl, select.symm⟩

theorem deliverInner_misaligned (hist : ist = if s.longMode then gateIst gate else 0)
    (inner : (s.setCs cs level).innerStack level ist = .ok (st, sp))
    (hstack : stack = s.enterInner cs level st (if s.longMode then sp &&& ~~~(0xF : Quad) else sp))
    (on : s.shadowEnabled level = true) (select : if ist = 0 then ssp = s.cet.plSsp level else stack.isstSsp ist = .ok ssp)
    (misaligned : ssp.toNat % 8 ≠ 0) : s.deliverInner e gate rip cs level = .error gp0 := by
  have low : (ssp.extractLsb' 0 3 == 0) = false := by rw [low3_zero, decide_eq_false misaligned]
  have chosen := innerSsp_cases hist select
  subst hist
  simp only [State.deliverInner, inner, ok_bind, ← hstack, on, if_true]
  rcases chosen with ⟨table, chosen⟩ | ⟨table, chosen⟩ <;>
    simp only [table, chosen, ok_bind, low, require_false, error_bind, if_true, Bool.false_eq_true, if_false]

theorem deliverInner_on (hist : ist = if s.longMode then gateIst gate else 0)
    (inner : (s.setCs cs level).innerStack level ist = .ok (st, sp))
    (hstack : stack = s.enterInner cs level st (if s.longMode then sp &&& ~~~(0xF : Quad) else sp))
    (on : s.shadowEnabled level = true) (select : if ist = 0 then ssp = s.cet.plSsp level else stack.isstSsp ist = .ok ssp)
    (aligned : ssp.toNat % 8 = 0)
    (push : stack.pushAllE (excSel .ss st.sel) (s.gateBytes (descAttr gate).type) (s.innerFrame e) = .ok u)
    (token : ((u.leftUser s).setSsp ssp).setTokenBusy ssp = .ok v)
    (frame : if s.cpl = 3 then y = v else v.pushSsFrame s.seg.cs.sel (s.seg.cs.base + e.oldRip) s.cet.ssp = .ok y)
    (ok : y.targetOk rip = true) : s.deliverInner e gate rip cs level = .ok (y.handler gate rip) := by
  have low : (ssp.extractLsb' 0 3 == 0) = true := by rw [low3_zero, decide_eq_true aligned]
  have chosen := innerSsp_cases hist select
  have pushed : (if s.cpl != 3 then v.pushSsFrame s.seg.cs.sel (s.seg.cs.base + e.oldRip) s.cet.ssp else .ok v) = .ok y := by
    by_cases user : s.cpl = 3
    · rw [if_pos user] at frame
      rw [user, frame]
      rfl
    · rw [if_neg user] at frame
      rw [if_pos (bne_iff_ne.mpr user), frame]
  rw [State.innerFrame] at push
  subst hist
  simp only [State.deliverInner, inner, ok_bind, ← hstack, on, if_true]
  rcases chosen with ⟨table, chosen⟩ | ⟨table, chosen⟩ <;>
    simp only [table, chosen, ok_bind, low, require_true, if_true, Bool.false_eq_true, if_false, push, leftUser_eq, token] <;>
    exact bind_checked pushed ok

end

/-! ### From virtual-8086 mode -/

/-- The state that runs at CPL 0, out of virtual-8086 mode. -/
def State.leftVirtual (s : State) : State := { s with flags := { s.flags with vm := false } }

/-- The frame of an entry from virtual-8086 mode. -/
def State.virtualFrame (s : State) (e : Event) : List Quad :=
  [s.seg.gs.sel.setWidth 64, s.seg.fs.sel.setWidth 64, s.seg.ds.sel.setWidth 64, s.seg.es.sel.setWidth 64, s.seg.ss.sel.setWidth 64, s.oldRsp,
    s.flagsImage e, s.seg.cs.sel.setWidth 64, e.savedRip] ++ e.codeList

/-- The handler of an entry from virtual-8086 mode, its data segments null. -/
def State.virtualHandler (x : State) (gate rip : Quad) : State := ({ x with seg := x.seg.nullifyData } : State).handler gate rip

theorem deliverFromVirtual_eq (long : s.longMode = false) (gated : s.Gated e gate d rip) (dpl : (descAttr d).dpl = 0)
    (conforming : (descAttr d).conforming = false)
    (inner : (s.leftVirtual.setCs (descSeg (withRpl (gateSel gate) 0) d) 0).innerStack 0 0 = .ok (st, sp))
    (push : (s.leftVirtual.enterInner (descSeg (withRpl (gateSel gate) 0) d) 0 st sp).pushAllE (excSel .ss st.sel)
      (s.gateBytes (descAttr gate).type) (s.virtualFrame e) = .ok u)
    (ok : u.targetOk rip = true) :
    s.deliverFromVirtual e = if (u.virtualHandler gate rip).shadowEnabled 0 then
        ((u.virtualHandler gate rip).setSsp u.cet.pl0Ssp).setTokenBusy u.cet.pl0Ssp
      else .ok (u.virtualHandler gate rip) := by
  obtain ⟨read, noTask, target, code⟩ := gated
  have offset : gateOffset gate = rip := by
    rw [State.gateTarget, long] at target
    exact Except.ok.inj target
  have level : ((descAttr d).dpl == 0 && !(descAttr d).conforming) = true := by rw [dpl, conforming]; rfl
  rw [State.virtualFrame] at push
  rw [State.leftVirtual] at inner push
  rw [State.deliverFromVirtual, read, ok_bind, if_neg (fun h => noTask (beq_iff_eq.mp h))]
  simp only [code, ok_bind, level, require_true, inner, push, offset, checkTarget_ok.mpr ok]
  rfl

/-- The bit of the redirection bitmap for an event's vector. -/
def State.redirects (s : State) (e : Event) (b : Bool) : Prop :=
  ∃ io, s.tableRead gp0 s.tr.base s.tr.limit 102 2 = .ok io ∧ s.tssBit (io - 32).toNat e.vector.toNat = .ok b

theorem deliverVirtual_gate (h : s.cr4Bit 0 = false ∨ s.redirects e true) :
    s.deliverVirtual e = require (s.flags.iopl == 3) gp0 >>= fun _ => s.deliverFromVirtual e := by
  unfold State.deliverVirtual
  cases vme : s.cr4Bit 0 with
  | false => rfl
  | true =>
    rcases h with off | ⟨io, base, bit⟩
    · exact absurd (off.symm.trans vme) (by decide)
    · simp only [Bool.not_true, Bool.false_eq_true, if_false, base, bit, ok_bind, if_true]

/-- The flags that INT n pushes through the interrupt table of virtual-8086 mode. -/
def Flags.redirected (f : Flags) : Flags := if f.iopl = 3 then f else { f with fi := f.vif, iopl := 3 }

/-- The flags in which the program's own handler runs. -/
def Flags.enterRedirected (f : Flags) : Flags :=
  { f with tf := false, rf := false, fi := if f.iopl = 3 then false else f.fi, vif := if f.iopl = 3 then f.vif else false }

theorem deliverVirtual_redirect {cs : Quad} (vme : s.cr4Bit 0 = true) (h : s.redirects e false)
    (ip : s.sysReadLin (BitVec.ofNat 64 (e.vector.toNat * 4)) 2 = .ok rip)
    (sel : s.sysReadLin (BitVec.ofNat 64 (e.vector.toNat * 4 + 2)) 2 = .ok cs)
    (push : s.pushAllE ss0 2 [{ s.flags.redirected with rf := e.rf }.toBits, s.seg.cs.sel.setWidth 64, e.savedRip] = .ok u) :
    s.deliverVirtual e = .ok (((u.loadCsReal (BitVec.ofNat 16 cs.toNat)).setFlags u.flags.enterRedirected).setRip rip) := by
  obtain ⟨io, base, bit⟩ := h
  have image : (if s.flags.iopl == 3 then s.flags else { s.flags with fi := s.flags.vif, iopl := 3 }) = s.flags.redirected := by
    rw [Flags.redirected]
    simp only [beq_iff_eq]
  have flags : (if u.flags.iopl == 3 then { u.flags with tf := false, rf := false, fi := false }
      else { u.flags with tf := false, rf := false, vif := false }) = u.flags.enterRedirected := by
    rw [Flags.enterRedirected]
    by_cases iopl : u.flags.iopl = 3
    · rw [if_pos (beq_iff_eq.mpr iopl), if_pos iopl, if_pos iopl]
    · rw [if_neg (fun h => iopl (beq_iff_eq.mp h)), if_neg iopl, if_neg iopl]
  simp only [State.deliverVirtual, vme, Bool.not_true, Bool.false_eq_true, if_false, base, bit, ip, sel, ok_bind, image, push, ofNat16_toNat, flags]

/-! ### The statement -/

/-- What an entry at CPL 0 from virtual-8086 mode keeps. -/
theorem enteredVirtual_frame {cs : SegReg} {bad : Trap} {n : Nat} {vs : List Quad}
    (push : (s.leftVirtual.enterInner cs 0 st sp).pushAllE bad n vs = .ok u) :
    u.ctl = s.ctl ∧ u.cet = s.cet ∧ u.seg = { s.seg with cs := cs, ss := st } := by
  rw [pushAllE_frame push]
  exact ⟨by simp [State.enterInner, State.leftVirtual], by simp [State.enterInner, State.leftVirtual], by simp [State.enterInner, State.leftVirtual]⟩

theorem virtualHandler_shadow (pe : u.pe = true) :
    (u.virtualHandler gate rip).shadowEnabled 0 = (u.cr4Bit 23 && u.cet.sCet.getLsbD 0) := by
  change (u.cr4Bit 23 && u.pe && !false && u.cet.sCet.getLsbD 0) = _
  rw [pe, Bool.and_true, Bool.not_false, Bool.and_true]

theorem isIntGate_eq (type : BitVec 4) : isIntGate type = decide (type = 0xE ∨ type = 6) := by
  rw [Bool.eq_iff_iff, decide_eq_true_eq, isIntGate, Bool.or_eq_true, beq_iff_eq, beq_iff_eq]

theorem handler_eq (x : State) (gate rip : Quad) : x.handler gate rip = { x with
    rip := rip
    flags := { x.flags with
      vm := false, nt := false, tf := false, rf := false
      fi := x.flags.fi && !decide ((descAttr gate).type = 0xE ∨ (descAttr gate).type = 6) } } := by
  rw [State.handler, isIntGate_eq]
  rfl

theorem deliverOnce_gated {cs : SegReg} {level : BitVec 2} (prot : s.protMode = true) (gated : s.ready.Gated e gate d rip)
    (hlevel : level = if (descAttr d).conforming then s.cpl else (descAttr d).dpl)
    (hcs : cs = descSeg (withRpl (gateSel gate) level) d) :
    s.deliverOnce e = (if level = s.cpl then s.ready.deliverSame e gate rip cs else s.ready.deliverInner e gate rip cs level) >>=
      fun t => .ok (t.blockNmi e) := by
  rw [deliverOnce_prot prot, deliverProtected_gated gated, hcs, hlevel]
  rfl

theorem gateTarget_reserved {high : Quad} (long : s.longMode = true)
    (read : s.sysReadLin (s.idtr.base + BitVec.ofNat 64 (e.vector.toNat * 16 + 8)) 8 = .ok high) (reserved : high.toNat / 2 ^ 40 % 32 ≠ 0) :
    s.gateTarget e gate = .error (.exc { name := .gp, code := some (BitVec.ofNat 32 (e.vector.toNat * 8 + 2)), sel := true }) := by
  have bits : (high.extractLsb' 40 5 == 0) = false := by
    rw [beq_eq_false_iff_ne, ne_eq, ← BitVec.toNat_inj, BitVec.extractLsb'_toNat, Nat.shiftRight_eq_div_pow]
    exact reserved
  have code : e.vector.setWidth 32 * 8 + 2 = BitVec.ofNat 32 (e.vector.toNat * 8 + 2) := by
    apply BitVec.eq_of_toNat_eq
    have := e.vector.isLt
    simp only [BitVec.toNat_add, BitVec.toNat_mul, BitVec.toNat_setWidth, BitVec.toNat_ofNat, show (8 : BitVec 32).toNat = 8 from rfl,
      show (2 : BitVec 32).toNat = 2 from rfl]
    omega
  rw [State.gateTarget, if_pos long, read, ok_bind, bits, require_false, error_bind, excGate, code]

/-- Settles O43: the gate is read, the level of its code segment says which stack the frame goes to, and the parts of that delivery follow. -/
theorem protectedModeEntry : Obligations.ProtectedModeEntry := by
  intro s u v x y e gate d rip sp ssp st ready a bytes image zx outer core lip finish blocked gated
  have size : s.ready.gateBytes (descAttr gate).type = bytes := gateBytes_eq _
  have entered (z : State) : finish z = z.handler gate rip := (handler_eq z gate rip).symm
  refine ⟨fun prot long read high reserved => ?_, fun prot read task gdt readD sys type present => ?_, fun prot gate_ => ?_, fun virt long => ?_⟩
  · have fails : s.ready.deliverProtected e = .error (.exc { name := .gp, code := some (BitVec.ofNat 32 (e.vector.toNat * 8 + 2)), sel := true }) := by
      rw [State.deliverProtected, show s.ready.readIdt e = .ok gate from read, ok_bind,
        if_neg (fun h => readIdt_long (s := s.ready) long read (beq_iff_eq.mp h)), gateTarget_reserved (s := s.ready) long high reserved, error_bind]
    rw [deliverOnce_prot prot, fails, error_bind]
  · have fails : s.ready.deliverProtected e = .error (.refuse .taskSwitch) := by
      rw [State.deliverProtected, show s.ready.readIdt e = .ok gate from read, ok_bind, if_pos (beq_iff_eq.mpr task)]
      exact taskGate_refuse readD gdt sys type present
    rw [deliverOnce_prot prot, fails, error_bind]
  · obtain ⟨read, noTask, target, code⟩ := gate_
    intro level cs ist frame current moved stack left
    have delivered := deliverOnce_gated (level := level) (cs := cs) prot ⟨read, noTask, target, code⟩ rfl rfl
    refine ⟨fun same none push => ?_, fun same some_ readSp => ?_, fun other inner => ?_⟩
    · rw [if_pos same] at delivered
      have push' : current.pushAllE (if ist = 0 then ss0 else excSel .ss s.seg.ss.sel) (s.ready.gateBytes (descAttr gate).type) frame = .ok u := by
        rw [if_pos none, size]
        exact push
      have stackHere : current.sameStack ist = .ok current := by rw [none, sameStack_zero]
      refine ⟨fun off ok => ?_, fun on align ssFrame ok => ?_⟩
      · rw [entered, delivered, deliverSame_eq (s := s.ready) rfl stackHere push' (sameShadow_off (s := s.ready) off) ok, ok_bind]
        rfl
      · have shadow := sameShadow_on (s := s.ready) (e := e) on align ssFrame
        rw [← none] at shadow
        rw [entered, delivered, deliverSame_eq (s := s.ready) rfl stackHere push' shadow ok, ok_bind]
        rfl
    · rw [if_pos same] at delivered
      have here (l : BitVec 2) : current.shadowEnabled l = s.shadowEnabled l := by
        have cs_ : (s.ready.setCs cs s.cpl).shadowEnabled l = s.ready.shadowEnabled l := by simp [State.shadowEnabled, State.sstkEnabled, State.cr4Bit, State.pe]
        exact cs_
      have level_ : current.cpl = s.cpl := State.setCs_cpl _ _ _
      have push' (z : State) (h : z.pushAllE (excSel .ss s.seg.ss.sel) bytes frame = .ok u) :
          z.pushAllE (if ist = 0 then ss0 else excSel .ss s.seg.ss.sel) (s.ready.gateBytes (descAttr gate).type) frame = .ok u := by
        rw [if_neg some_, size]
        exact h
      refine ⟨fun off push ok => ?_, fun on table => ⟨fun misaligned => ?_, fun aligned push token ssFrame ok => ?_⟩⟩
      · have stackThere := sameStack_ist some_ readSp (by rw [here, level_]; exact off)
        rw [entered, delivered, deliverSame_eq (s := s.ready) rfl stackThere (push' _ push) (sameShadow_off (s := s.ready) off) ok, ok_bind]
        rfl
      · have stackThere := sameStack_isst some_ readSp (by rw [here, level_]; exact on) ((isstSsp_setRsp _ _).symm.trans table)
        rw [if_neg misaligned] at stackThere
        rw [delivered, deliverSame_stack_fails (s := s.ready) rfl stackThere, error_bind]
      · have stackThere := sameStack_isst some_ readSp (by rw [here, level_]; exact on) ((isstSsp_setRsp _ _).symm.trans table)
        rw [if_pos aligned] at stackThere
        have ssp_ : u.cet.ssp = ssp := by rw [pushAllE_frame push]; rfl
        have shadow := sameShadow_ist (s := s.ready) (e := e) on some_ ssp_ aligned token ssFrame
        rw [entered, delivered, deliverSame_eq (s := s.ready) rfl stackThere (push' _ push) shadow ok, ok_bind]
        rfl
    · rw [if_neg other] at delivered
      have push' (h : stack.pushAllE (excSel .ss st.sel) bytes (outer ++ core) = .ok u) :
          stack.pushAllE (excSel .ss st.sel) (s.ready.gateBytes (descAttr gate).type) (s.ready.innerFrame e) = .ok u := by
        rw [size]
        exact h
      refine ⟨fun off push ok => ?_, fun on select => ⟨fun misaligned => ?_, fun aligned push token ssFrame ok => ?_⟩⟩
      · rw [entered, delivered, deliverInner_off (s := s.ready) rfl inner rfl (push' push) off ok, ok_bind]
        rfl
      · rw [delivered, deliverInner_misaligned (s := s.ready) rfl inner rfl on select misaligned, error_bind]
      · rw [entered, delivered, deliverInner_on (s := s.ready) rfl inner rfl on select aligned (push' push) token ssFrame ok, ok_bind]
        rfl
  · intro interrupt bitmap byGate cs cleared
    have virtual := deliverOnce_virt (e := e) virt
    refine ⟨fun byGate_ gate_ dpl conforming inner push ok => ?_, fun int iopl direct => ?_, fun int vme redirect ip sel => ?_⟩
    · obtain ⟨read, noTask, target, code⟩ := gate_
      intro gone z shadow
      obtain ⟨ctl, cet, seg⟩ := enteredVirtual_frame (s := s.ready) push
      have path : (if e.kind = .software ∧ e.intN = true then s.ready.deliverVirtual e else s.ready.deliverFromVirtual e) =
          s.ready.deliverFromVirtual e := by
        by_cases int : e.kind = .software ∧ e.intN = true
        · obtain ⟨iopl, direct⟩ := byGate_.resolve_left fun no => no int
          rw [if_pos int, deliverVirtual_gate (s := s.ready) direct, show s.ready.flags.iopl = 3 from iopl, beq_self_eq_true, require_true, ok_bind]
        · rw [if_neg int]
      have handler : u.virtualHandler gate rip = z := by
        rw [show z = _ from entered _, State.virtualHandler, Segs.nullifyData, seg]
        rfl
      have pe : u.pe = true := by
        rw [State.pe, ctl]
        exact (Bool.and_eq_true_iff.mp virt).1
      have enabled : (u.virtualHandler gate rip).shadowEnabled 0 = shadow := by
        rw [virtualHandler_shadow pe, State.cr4Bit, ctl, cet]
        rfl
      have delivered := deliverFromVirtual_eq (s := s.ready) (e := e) long ⟨read, noTask, target, code⟩ dpl conforming inner
        (by rw [size]; exact push) ok
      rw [enabled, handler, cet] at delivered
      rw [virtual, path, delivered]
      refine ⟨fun off => ?_, fun on token => ?_⟩
      · rw [off, if_neg (by decide), ok_bind]
        rfl
      · rw [on, if_pos rfl]
        exact (congrArg (· >>= _) token).trans rfl
    · have no : (s.ready.flags.iopl == 3) = false := beq_eq_false_iff_ne.mpr iopl
      rw [virtual, if_pos int, deliverVirtual_gate (s := s.ready) direct, no, require_false, error_bind, error_bind]
    · intro pushed push
      have image : pushed = { s.flags.redirected with rf := e.rf } := by
        rw [Flags.redirected]
        change (if s.flags.iopl = 3 then _ else _) = _
        split <;> rfl
      have external : (e.vector == 2 && e.kind == .external) = false := by rw [int.1]; exact Bool.and_false _
      have delivered := deliverVirtual_redirect (s := s.ready) vme redirect ip sel (by rw [image] at push; exact push)
      rw [virtual, if_pos int, delivered, ok_bind, State.blockNmi, external, Bool.or_false, State.loadCsReal, loadReal_eq, pushAllE_frame push,
        BitVec.toNat_ofNat]
      rfl

end Sys2Proof.Machine
end

