-- ==== Sys2Proof/Proofs/Iret.lean ====
section
/-! PROOFS. IRET in its three sizes (50_sys_a_l.md R715 to R721). -/

namespace Sys2Proof.Machine

variable {s t u a b c x y z q f g : State} {w : Width} {rip cs image rsp ss d prev : Quad} {st : SegReg} {sel : BitVec 16}

theorem iret_exec : ∀ x ∈ [(Width.w16, Instr.iret), (.w32, .iretd), (.w64, .iretq)], exec x.2 s = run s fun t => t.iret x.1 := by
  simp only [List.forall_mem_cons, List.not_mem_nil, false_implies, implies_true, and_true]
  exact ⟨rfl, rfl, rfl⟩

/-- The state that IRET leaves: NMIs are unblocked. -/
def State.unblockNmi (t : State) : State := { t with exec := { t.exec with nmiBlocked := false } }

/-- The part of IRET that belongs to the mode. -/
theorem iret_real (real : s.realMode = true) : s.iret w = s.iretReal w >>= fun t => .ok t.unblockNmi := if_pos real

theorem iret_prot (prot : s.protMode = true) : s.iret w = s.iretProtected w >>= fun t => .ok t.unblockNmi := by
  have notReal : ¬s.realMode = true := by
    rw [State.realMode, (Bool.and_eq_true_iff.mp prot).1]
    decide
  exact (if_neg notReal).trans (if_pos prot)

theorem iret_virt (virt : s.virtMode = true) : s.iret w = s.iretVirtual w >>= fun t => .ok t.unblockNmi := by
  obtain ⟨pe, vm⟩ := Bool.and_eq_true_iff.mp virt
  have notReal : ¬s.realMode = true := by rw [State.realMode, pe]; decide
  have notProt : ¬s.protMode = true := by rw [State.protMode, vm, Bool.not_true, Bool.and_false]; decide
  exact (if_neg notReal).trans (if_neg notProt)

/-! ### Outside protected mode -/

/-- The target of a return outside protected mode. -/
def State.backReal (c : State) (rip cs : Quad) (f : Flags) : State := ((c.loadCsReal (BitVec.ofNat 16 cs.toNat)).setFlags f).setRip rip

theorem iretReal_eq (popRip : s.pop w.bytes = .ok (rip, a)) (popCs : a.pop w.bytes = .ok (cs, b)) (popFlags : b.pop w.bytes = .ok (image, c))
    (ok : c.targetOk rip = true) :
    s.iretReal w = .ok (c.backReal rip cs { c.flags.load w image with vif := c.flags.vif, vip := c.flags.vip, vm := c.flags.vm }) := by
  simp only [State.iretReal, popRip, popCs, popFlags, ok_bind, checkTarget_ok.mpr ok]
  rfl

theorem pops_flags (popRip : s.pop w.bytes = .ok (rip, a)) (popCs : a.pop w.bytes = .ok (cs, b)) (popFlags : b.pop w.bytes = .ok (image, c)) :
    c = { s with gpr := { s.gpr with rsp := c.gpr.rsp } } := by
  rw [pop_frame popFlags, pop_frame popCs, pop_frame popRip]

theorem iretVirtual_refused (iopl : s.flags.iopl ≠ 3) (vme : s.cr4Bit 0 = false) : s.iretVirtual w = .error gp0 := by
  have no : (s.flags.iopl == 3 || s.cr4Bit 0) = false := by rw [vme, Bool.or_false]; exact beq_eq_false_iff_ne.mpr iopl
  rw [State.iretVirtual, no, require_false, error_bind]

theorem iretVirtual_iopl (popRip : s.pop w.bytes = .ok (rip, a)) (popCs : a.pop w.bytes = .ok (cs, b))
    (popFlags : b.pop w.bytes = .ok (image, c)) (ok : c.targetOk rip = true) (iopl : s.flags.iopl = 3) :
    s.iretVirtual w = .ok (c.backReal rip cs { c.flags.load w image with
      vif := c.flags.vif, vip := c.flags.vip, vm := c.flags.vm, iopl := c.flags.iopl, rf := false }) := by
  have allowed : (s.flags.iopl == 3 || s.cr4Bit 0) = true := by rw [iopl]; rfl
  have here : (c.flags.iopl == 3) = true := by rw [pops_flags popRip popCs popFlags]; exact beq_iff_eq.mpr iopl
  simp only [State.iretVirtual, allowed, require_true, popRip, popCs, popFlags, ok_bind, checkTarget_ok.mpr ok, here, if_true]
  rfl

/-- IRET with the virtual interrupt flag (R719). -/
theorem iretVirtual_vme (popRip : s.pop w.bytes = .ok (rip, a)) (popCs : a.pop w.bytes = .ok (cs, b))
    (popFlags : b.pop w.bytes = .ok (image, c)) (ok : c.targetOk rip = true) (iopl : s.flags.iopl ≠ 3) (vme : s.cr4Bit 0 = true) :
    s.iretVirtual w = if w = .w16 ∧ ¬(image.getLsbD 9 = true ∧ s.flags.vip = true) ∧ image.getLsbD 8 = false then
        .ok (c.backReal rip cs { c.flags.load w image with vif := image.getLsbD 9, fi := c.flags.fi, iopl := c.flags.iopl, rf := false })
      else .error gp0 := by
  have frame := pops_flags popRip popCs popFlags
  have allowed : (s.flags.iopl == 3 || s.cr4Bit 0) = true := by rw [vme, Bool.or_true]
  have other : (c.flags.iopl == 3) = false := by rw [frame]; exact beq_eq_false_iff_ne.mpr iopl
  have vip : c.flags.vip = s.flags.vip := by rw [frame]
  have legal : (w == .w16 && (!(Flags.ofBits image).fi || !c.flags.vip) && !(Flags.ofBits image).tf) =
      decide (w = .w16 ∧ ¬(image.getLsbD 9 = true ∧ s.flags.vip = true) ∧ image.getLsbD 8 = false) := by
    rw [vip, Bool.eq_iff_iff, decide_eq_true_eq, show (Flags.ofBits image).fi = image.getLsbD 9 from rfl,
      show (Flags.ofBits image).tf = image.getLsbD 8 from rfl]
    simp only [Bool.and_eq_true, beq_iff_eq, Bool.or_eq_true, Bool.not_eq_true', not_and_or, Bool.not_eq_true, and_assoc]
  simp only [State.iretVirtual, allowed, require_true, popRip, popCs, popFlags, ok_bind, checkTarget_ok.mpr ok, other, Bool.false_eq_true,
    if_false, require_bind, legal, decide_eq_true_eq]
  split
  · rename_i h
    rw [h.1]
    rfl
  · rfl

/-! ### In protected mode -/

/-- The target of a return in protected mode. -/
def State.backProt (x c : State) (w : Width) (image rip : Quad) : State := (x.setFlags (iretFlagsProt c.flags c.cpl w image)).setRip rip

/-- The shadow stack of a return to the same level: the frame is compared, and in long mode the token released. -/
def State.sameReturn (t s : State) (sel : BitVec 16) (rip : Quad) : Res State :=
  if s.shadowEnabled s.cpl then
    require (t.cet.ssp.extractLsb' 0 3 == 0) (cp .farRet) >>= fun _ =>
      t.popSsFrame sel (t.seg.cs.base + rip) s.cpl >>= fun p =>
        require (!(p.2.compatMode && p.1.extractLsb' 32 32 != 0)) gp0 >>= fun _ =>
          (if s.longMode then p.2.clearToken p.2.cet.ssp (p.1 == p.2.cet.ssp) else .ok p.2) >>= fun u => .ok (u.setSsp p.1)
  else .ok t

theorem sameReturn_off (off : s.shadowEnabled s.cpl = false) : t.sameReturn s sel rip = .ok t := if_neg (by rw [off]; decide)

theorem high32_zero (v : Quad) : (v.extractLsb' 32 32 != 0) = decide (¬v.toNat < 2 ^ 32) := by
  rw [Bool.eq_iff_iff, bne_iff_ne, ne_eq, ← BitVec.toNat_inj, BitVec.extractLsb'_toNat, Nat.shiftRight_eq_div_pow, decide_eq_true_eq,
    show (0 : BitVec 32).toNat = 0 from rfl]
  have := v.isLt
  omega

/-- A shadow-stack pointer that the mode can hold. -/
theorem sspFits (low : u.compatMode = true → prev.toNat < 2 ^ 32) : (!(u.compatMode && prev.extractLsb' 32 32 != 0)) = true := by
  cases compat : u.compatMode
  · rfl
  · rw [high32_zero, Bool.true_and, Bool.not_eq_true', decide_eq_false_iff_not, not_not]
    exact low compat

theorem sameReturn_on (on : s.shadowEnabled s.cpl = true) (aligned : t.cet.ssp.toNat % 8 = 0)
    (frame : t.popSsFrame sel (t.seg.cs.base + rip) s.cpl = .ok (prev, f)) (low : f.compatMode = true → prev.toNat < 2 ^ 32)
    (token : if s.longMode then f.clearToken f.cet.ssp (prev == f.cet.ssp) = .ok g else g = f) :
    t.sameReturn s sel rip = .ok (g.setSsp prev) := by
  have released : (if s.longMode then f.clearToken f.cet.ssp (prev == f.cet.ssp) else .ok f) = .ok g := by
    split at token
    · rename_i long
      rw [if_pos long, token]
    · rename_i long
      rw [if_neg long, token]
  rw [State.sameReturn, if_pos on, low3_zero, decide_eq_true aligned, require_true, ok_bind, frame, ok_bind]
  simp only [sspFits low, require_true, ok_bind, released]

/-- SS and RSP after a return to the same level, which pops them in 64-bit mode only. -/
def State.popStack (t : State) (cpl : BitVec 2) : Option (Quad × Quad) → Res State
  | none => .ok t
  | some (rsp, ss) => t.returnSs (BitVec.ofNat 16 ss.toNat) cpl >>= fun st =>
      .ok (({ t with seg := { t.seg with ss := st } } : State).writeRsp rsp)

theorem sameReturn_bind (k : State → Res State) :
    (if s.shadowEnabled s.cpl then
      require (t.cet.ssp.extractLsb' 0 3 == 0) (cp .farRet) >>= fun _ =>
        t.popSsFrame sel (t.seg.cs.base + rip) s.cpl >>= fun p =>
          require (!(p.2.compatMode && p.1.extractLsb' 32 32 != 0)) gp0 >>= fun _ =>
            if s.longMode then p.2.clearToken p.2.cet.ssp (p.1 == p.2.cet.ssp) >>= fun u => k (u.setSsp p.1) else k (p.2.setSsp p.1)
    else k t) = t.sameReturn s sel rip >>= k := by
  rw [State.sameReturn]
  by_cases on : s.shadowEnabled s.cpl = true
  · rw [if_pos on, if_pos on]
    simp only [bind_assoc]
    refine bind_congr fun _ => bind_congr fun p => bind_congr fun _ => ?_
    split
    · simp only [ok_bind]
    · rfl
  · rw [if_neg on, if_neg on, ok_bind]

theorem iretSame_eq {popped : Option (Quad × Quad)} (hsel : sel = BitVec.ofNat 16 cs.toNat)
    (ht : t = (c.setCs (descSeg sel d) c.cpl).setRsp c.gpr.rsp) (ok : t.targetOk rip = true) (stack : t.popStack c.cpl popped = .ok q)
    (shadow : q.sameReturn c sel rip = .ok x) : c.iretSame w rip cs image popped d = .ok (x.backProt c w image rip) := by
  have done : (q.sameReturn c sel rip >>= fun x => (.ok (x.backProt c w image rip) : Res State)) = .ok (x.backProt c w image rip) := by
    rw [shadow, ok_bind]
  simp only [State.iretSame, ofNat16_toNat, ← hsel, setCsSame_eq, ← ht, checkTarget_ok.mpr ok, ok_bind]
  rcases popped with _ | ⟨rsp, ss⟩
  case none =>
    cases stack
    exact (sameReturn_bind fun x => .ok (x.backProt c w image rip)).trans done
  case some =>
    obtain ⟨st, read, stack⟩ := bind_ok.mp stack
    cases stack
    simp only [read, ok_bind]
    exact (sameReturn_bind fun x => .ok (x.backProt c w image rip)).trans done

/-- The target of a return to an outer level, which leaves the data segments of the inner one. -/
def State.backOuter (x c : State) (w : Width) (sel : BitVec 16) (image rip : Quad) : State :=
  ({ x with seg := x.seg.leaveLevel (rpl sel) } : State).backProt c w image rip

/-- The frame of a return to an outer level, on the shadow stack that is left. -/
def State.outerFrame (z q : State) (sel : BitVec 16) (rip : Quad) : Res (Quad × State) :=
  if z.shadowEnabled z.cpl then
    require (z.cet.ssp.extractLsb' 0 3 == 0) (cp .farRet) >>= fun _ =>
      if rpl sel ≠ 3 then z.popSsFrame sel (q.seg.cs.base + rip) z.cpl else .ok (z.cet.ssp, z)
  else .ok (z.cet.ssp, z)

/-- The shadow-stack pointer of the level that is entered. -/
def State.outerSsp (z q : State) (sel : BitVec 16) (p : Quad × State) : Res State :=
  if z.shadowEnabled (rpl sel) then
    require (!(q.compatMode && (if rpl sel == 3 then z.cet.pl3Ssp else p.1).extractLsb' 32 32 != 0)) gp0 >>= fun _ =>
      .ok (q.setSsp (if rpl sel == 3 then z.cet.pl3Ssp else p.1))
  else .ok (q.setSsp p.2.cet.ssp)

/-- The token of the shadow stack that is left. -/
def State.outerToken (z r : State) (sel : BitVec 16) (p : Quad × State) : Res State :=
  if z.shadowEnabled z.cpl then ({ r with cpl := z.cpl } : State).clearToken p.2.cet.ssp false >>= fun u => .ok { u with cpl := rpl sel }
  else .ok r

theorem outerFrame_bind (k : Quad × State → Res State) :
    (if z.shadowEnabled z.cpl then
      require (z.cet.ssp.extractLsb' 0 3 == 0) (cp .farRet) >>= fun _ =>
        if z.shadowEnabled z.cpl && rpl sel != 3 then z.popSsFrame sel (q.seg.cs.base + rip) z.cpl >>= k else k (z.cet.ssp, z)
    else if z.shadowEnabled z.cpl && rpl sel != 3 then z.popSsFrame sel (q.seg.cs.base + rip) z.cpl >>= k else k (z.cet.ssp, z)) =
      z.outerFrame q sel rip >>= k := by
  rw [State.outerFrame]
  cases on : z.shadowEnabled z.cpl with
  | false => rfl
  | true =>
    simp only [if_true, Bool.true_and, bind_assoc, bne_iff_ne]
    refine bind_congr fun _ => ?_
    split <;> rfl

theorem outerSsp_bind {p : Quad × State} (k : State → Res State) :
    (if z.shadowEnabled (rpl sel) then
      require (!(q.compatMode && (if rpl sel == 3 then z.cet.pl3Ssp else p.1).extractLsb' 32 32 != 0)) gp0 >>= fun _ =>
        k (q.setSsp (if rpl sel == 3 then z.cet.pl3Ssp else p.1))
    else k (q.setSsp p.2.cet.ssp)) = z.outerSsp q sel p >>= k := by
  rw [State.outerSsp]
  split
  · simp only [bind_assoc, ok_bind]
  · rfl

theorem outerToken_bind {r : State} {p : Quad × State} (k : State → Res State) :
    (if z.shadowEnabled z.cpl then
      ({ r with cpl := z.cpl } : State).clearToken p.2.cet.ssp false >>= fun u => k { u with cpl := rpl sel }
    else k r) = z.outerToken r sel p >>= k := by
  rw [State.outerToken]
  split
  · simp only [bind_assoc, ok_bind]
  · rfl

theorem outerFrame_ok (aligned : z.shadowEnabled z.cpl = true → z.cet.ssp.toNat % 8 = 0)
    (frame : if z.shadowEnabled z.cpl = true ∧ rpl sel ≠ 3 then z.popSsFrame sel (q.seg.cs.base + rip) z.cpl = .ok (prev, f)
      else prev = z.cet.ssp ∧ f = z) : z.outerFrame q sel rip = .ok (prev, f) := by
  rw [State.outerFrame]
  by_cases on : z.shadowEnabled z.cpl = true
  · rw [if_pos on, low3_zero, decide_eq_true (aligned on), require_true, ok_bind]
    by_cases user : rpl sel = 3
    · rw [if_neg fun h => h.2 user] at frame
      obtain ⟨rfl, rfl⟩ := frame
      exact if_neg fun h => h user
    · rw [if_pos ⟨on, user⟩] at frame
      rw [if_pos user, frame]
  · rw [if_neg fun h => on h.1] at frame
    obtain ⟨rfl, rfl⟩ := frame
    exact if_neg on

theorem outerSsp_ok (low : z.shadowEnabled (rpl sel) = true → q.compatMode = true → (if rpl sel = 3 then z.cet.pl3Ssp else prev).toNat < 2 ^ 32) :
    z.outerSsp q sel (prev, f) =
      .ok (q.setSsp (if z.shadowEnabled (rpl sel) then (if rpl sel = 3 then z.cet.pl3Ssp else prev) else f.cet.ssp)) := by
  rw [State.outerSsp]
  simp only [beq_iff_eq]
  by_cases new : z.shadowEnabled (rpl sel) = true
  · rw [if_pos new, if_pos new, sspFits (low new), require_true, ok_bind]
  · rw [if_neg new, if_neg new]

theorem outerToken_ok {r : State} (level : r.cpl = rpl sel)
    (token : if z.shadowEnabled z.cpl then ({ r with cpl := z.cpl } : State).clearToken f.cet.ssp false = .ok g else g = r) :
    z.outerToken r sel (prev, f) = .ok { g with cpl := rpl sel } := by
  rw [State.outerToken]
  by_cases on : z.shadowEnabled z.cpl = true
  · rw [if_pos on] at token ⊢
    rw [token, ok_bind]
  · rw [if_neg on] at token ⊢
    rw [token, ← level]

/-- CS loaded in 64-bit mode leaves the general registers. -/
theorem setCs_mode64 (mode : z.mode64 = true) (cs : SegReg) (cpl : BitVec 2) : (z.setCs cs cpl).setRsp z.gpr.rsp = z.setCs cs cpl := by
  have same : z.setCs cs cpl = { z.disarm with seg := { z.seg with cs := cs }, cpl := cpl } := by
    rw [State.setCs, State.enterMode, mode]
    rfl
  rw [same]
  rfl

/-- A return to the same level that pops SS and RSP. -/
theorem iretSame_popped (hsel : sel = BitVec.ofNat 16 cs.toNat) (same : rpl sel = z.cpl) (mode : z.mode64 = true)
    (ht : t = z.setCs (descSeg sel d) (rpl sel)) (ok : t.targetOk rip = true)
    (read : t.returnSs (BitVec.ofNat 16 ss.toNat) (rpl sel) = .ok st)
    (hq : q = ({ t with seg := { t.seg with ss := st } } : State).writeRsp rsp) (shadow : q.sameReturn z sel rip = .ok x) :
    z.iretSame w rip cs image (some (rsp, ss)) d = .ok (x.backProt z w image rip) := by
  have loaded : t = (z.setCs (descSeg sel d) z.cpl).setRsp z.gpr.rsp := by rw [← same, setCs_mode64 mode, ht]
  refine iretSame_eq hsel loaded ok ?_ shadow
  rw [State.popStack, ← same, read, ok_bind, hq]

theorem iretOuter_eq {p : Quad × State} (hsel : sel = BitVec.ofNat 16 cs.toNat) (ht : t = z.setCs (descSeg sel d) (rpl sel))
    (ok : t.targetOk rip = true) (read : t.returnSs (BitVec.ofNat 16 ss.toNat) (rpl sel) = .ok st)
    (hq : q = ({ t with seg := { t.seg with ss := st } } : State).writeRsp rsp) (frame : z.outerFrame q sel rip = .ok p)
    (pointer : z.outerSsp q sel p = .ok y) (token : z.outerToken y sel p = .ok x) :
    z.iretOuter w rip cs image rsp ss d = .ok (x.backOuter z w sel image rip) := by
  simp only [State.iretOuter, ofNat16_toNat, ← hsel, ← ht, checkTarget_ok.mpr ok, ok_bind, read, ← hq]
  refine (outerFrame_bind _).trans ?_
  rw [frame, ok_bind]
  refine (outerSsp_bind (k := fun r => if z.shadowEnabled z.cpl then
      ({ r with cpl := z.cpl } : State).clearToken p.2.cet.ssp false >>= fun u => .ok (({ u with cpl := rpl sel } : State).backOuter z w sel image rip)
      else .ok (r.backOuter z w sel image rip))).trans ?_
  rw [pointer, ok_bind]
  refine (outerToken_bind fun x => .ok (x.backOuter z w sel image rip)).trans ?_
  rw [token, ok_bind]

section
variable (nt : s.flags.nt = false) (here : ¬(image.getLsbD 17 = true ∧ s.cpl = 0 ∧ s.longMode = false)) (hsel : sel = BitVec.ofNat 16 cs.toNat)
  (popRip : s.pop w.bytes = .ok (rip, a)) (popCs : a.pop w.bytes = .ok (cs, b)) (popFlags : b.pop w.bytes = .ok (image, c))

theorem toVirtual_eq : (image.getLsbD 17 && s.cpl == 0 && !s.longMode) = decide (image.getLsbD 17 = true ∧ s.cpl = 0 ∧ s.longMode = false) := by
  rw [Bool.eq_iff_iff, decide_eq_true_eq]
  simp only [Bool.and_eq_true, beq_iff_eq, Bool.not_eq_true', and_assoc]

include nt here hsel popRip popCs popFlags

theorem iretProtected_same (same : rpl sel = s.cpl) (legacy : s.mode64 = false) (read : c.readIretCs sel = .ok d) :
    s.iretProtected w = c.iretSame w rip cs image none d := by
  simp only [State.iretProtected, nt, Bool.false_eq_true, if_false, popRip, popCs, popFlags, ok_bind, toVirtual_eq, decide_eq_false here,
    ofNat16_toNat, ← hsel, same, BitVec.le_refl, decide_true, require_true, legacy, bne_self_eq_false, Bool.or_self, read]

theorem iretProtected_popped (level : s.cpl < rpl sel ∨ rpl sel = s.cpl ∧ s.mode64 = true) (popSp : c.pop w.bytes = .ok (rsp, y))
    (popSs : y.pop w.bytes = .ok (ss, z)) (read : z.readIretCs sel = .ok d) :
    s.iretProtected w =
      if s.cpl < rpl sel then z.iretOuter w rip cs image rsp ss d else z.iretSame w rip cs image (some (rsp, ss)) d := by
  have allowed : decide (s.cpl ≤ rpl sel) = true := by
    rcases level with outer | ⟨same, -⟩
    · exact decide_eq_true (BitVec.le_of_lt outer)
    · rw [same]
      exact decide_eq_true (BitVec.le_refl _)
  have outer : (s.cpl != rpl sel) = decide (s.cpl < rpl sel) := by
    rcases level with outer | ⟨same, -⟩
    · rw [decide_eq_true outer, bne_iff_ne]
      exact BitVec.ne_of_lt outer
    · rw [same, bne_self_eq_false, decide_eq_false (BitVec.lt_irrefl _)]
  have pops : (s.mode64 || decide (s.cpl < rpl sel)) = true := by
    rcases level with outer | ⟨-, mode⟩
    · rw [decide_eq_true outer, Bool.or_true]
    · rw [mode, Bool.true_or]
  simp only [State.iretProtected, nt, Bool.false_eq_true, if_false, popRip, popCs, popFlags, ok_bind, toVirtual_eq,
    ofNat16_toNat, ← hsel, allowed, require_true, outer, pops, if_true, popSp, popSs, read, decide_eq_true_eq]
  exact if_neg here

end

theorem iretProtected_nt (nt : s.flags.nt = true) :
    s.iretProtected w = .error (if s.longMode then gp0 else .refuse .taskSwitch) := by
  rw [State.iretProtected, if_pos nt]
  split <;> rfl

/-! ### To virtual-8086 mode -/

/-- The segment registers of virtual-8086 mode, by the popped selectors. -/
theorem virtSeg_eq (code : Bool) (v : Quad) : virtSeg code (v.setWidth 16) = {
    sel := BitVec.ofNat 16 v.toNat, base := BitVec.ofNat 64 (v.toNat % 2 ^ 16 * 16), limit := 0xFFFF
    attr := {
      type := if code then 0xB else 3, s := true, dpl := 3, p := true, avl := false, l := false, db := false, g := false } } := by
  rw [virtSeg, shiftLeft_four, BitVec.toNat_setWidth]
  rfl

theorem and_low16 (v : Quad) : v &&& 0xFFFF = BitVec.ofNat 64 (v.toNat % 2 ^ 16) := by
  apply BitVec.eq_of_toNat_eq
  rw [BitVec.toNat_and, show (0xFFFF : Quad).toNat = 2 ^ 16 - 1 from rfl, Nat.and_two_pow_sub_one_eq_mod, BitVec.toNat_ofNat]
  omega

/-- The state that a return to virtual-8086 mode leaves, `p` the six values popped after the flags. -/
def State.backVirtual (u c : State) (rip cs image : Quad) (p : Fin 6 → Quad) : State :=
  (({ u.disarm with
    seg := { es := virtSeg false ((p 2).setWidth 16), cs := virtSeg true (cs.setWidth 16), ss := virtSeg false ((p 1).setWidth 16)
             ds := virtSeg false ((p 3).setWidth 16), fs := virtSeg false ((p 4).setWidth 16), gs := virtSeg false ((p 5).setWidth 16) }
    cpl := 3
    flags := c.flags.load .w32 image } : State).writeGpr .w32 .rsp (p 0)).setRip (rip &&& 0xFFFF)

/-- States that differ in rSP only. -/
def State.RspOnly (s t : State) : Prop := ∃ v, t = { s with gpr := { s.gpr with rsp := v } }

theorem rspOnly_trans (h : s.RspOnly t) (k : t.RspOnly u) : s.RspOnly u := by
  obtain ⟨v, rfl⟩ := h
  obtain ⟨v, rfl⟩ := k
  exact ⟨v, rfl⟩

theorem pop_rspOnly {n : Nat} {v : Quad} (h : s.pop n = .ok (v, t)) : s.RspOnly t := ⟨_, pop_frame h⟩

theorem iretToVirtual_eq {p : Fin 6 → Quad} {t : Fin 7 → State} (first : t 0 = c)
    (pops : ∀ i : Fin 6, (t i.castSucc).pop 4 = .ok (p i, t i.succ))
    (shadow : if c.shadowEnabled 0 then (t 6).clearToken c.cet.ssp false = .ok u else u = t 6) :
    c.iretToVirtual rip cs image = .ok (u.backVirtual c rip cs image p) := by
  have pop0 : c.pop 4 = .ok (p 0, t 1) := by rw [← first]; exact pops 0
  have pop1 : (t 1).pop 4 = .ok (p 1, t 2) := pops 1
  have pop2 : (t 2).pop 4 = .ok (p 2, t 3) := pops 2
  have pop3 : (t 3).pop 4 = .ok (p 3, t 4) := pops 3
  have pop4 : (t 4).pop 4 = .ok (p 4, t 5) := pops 4
  have pop5 : (t 5).pop 4 = .ok (p 5, t 6) := pops 5
  obtain ⟨_, last⟩ : c.RspOnly (t 6) := 
    rspOnly_trans (pop_rspOnly pop0) <| rspOnly_trans (pop_rspOnly pop1) <| rspOnly_trans (pop_rspOnly pop2) <|
      rspOnly_trans (pop_rspOnly pop3) <| rspOnly_trans (pop_rspOnly pop4) (pop_rspOnly pop5)
  have enabled : (t 6).shadowEnabled 0 = c.shadowEnabled 0 := by rw [last]; rfl
  have ssp : (t 6).cet.ssp = c.cet.ssp := by rw [last]
  simp only [State.iretToVirtual, pop0, pop1, pop2, pop3, pop4, pop5, ok_bind, enabled, ssp]
  by_cases on : c.shadowEnabled 0 = true
  · rw [if_pos on] at shadow ⊢
    obtain ⟨ps, v, stored⟩ := clearToken_frame shadow
    have flags : u.flags = c.flags := by rw [stored, State.storeAt, last]
    rw [shadow, ok_bind, flags]
    rfl
  · rw [if_neg on] at shadow ⊢
    have flags : (t 6).flags = c.flags := by rw [last]
    rw [flags, shadow]
    rfl

theorem iretProtected_virtual (nt : s.flags.nt = false) (popRip : s.pop w.bytes = .ok (rip, a)) (popCs : a.pop w.bytes = .ok (cs, b))
    (popFlags : b.pop w.bytes = .ok (image, c)) (virtual : image.getLsbD 17 = true ∧ s.cpl = 0 ∧ s.longMode = false) :
    s.iretProtected w = c.iretToVirtual rip cs image := by
  simp only [State.iretProtected, nt, Bool.false_eq_true, if_false, popRip, popCs, popFlags, ok_bind, toVirtual_eq, decide_eq_true virtual, if_true]

/-! ### The statement -/

theorem backReal_eq (f : Flags) : (c.backReal rip cs f).unblockNmi = ({ c with
    rip := rip
    flags := f
    seg := { c.seg with cs := { c.seg.cs with
      sel := BitVec.ofNat 16 cs.toNat, base := BitVec.ofNat 64 ((BitVec.ofNat 16 cs.toNat).toNat * 16) } }
    exec := { c.exec with monitor := { c.exec.monitor with armed := false } } } : State).unblockNmi := by
  rw [State.backReal, State.loadCsReal, loadReal_eq]
  rfl

theorem backProt_eq (t : State) : (t.backProt c w image rip).unblockNmi = ({ t with
    rip := rip
    flags := { c.flags.load w image with
      vif := if c.cpl = 0 then (c.flags.load w image).vif else c.flags.vif
      vip := if c.cpl = 0 then (c.flags.load w image).vip else c.flags.vip
      iopl := if c.cpl = 0 then (c.flags.load w image).iopl else c.flags.iopl
      fi := if c.cpl ≤ c.flags.iopl then (c.flags.load w image).fi else c.flags.fi
      vm := c.flags.vm
      rf := false } } : State).unblockNmi := by
  rw [State.backProt, iretFlagsProt]
  simp only [beq_iff_eq]
  rfl

/-- What states that differ in rSP only agree on. -/
theorem rspOnly_frame (h : s.RspOnly t) : t.flags = s.flags ∧ t.cpl = s.cpl ∧ t.cet = s.cet ∧ t.mode64 = s.mode64 ∧ t.longMode = s.longMode ∧
    ∀ l, t.shadowEnabled l = s.shadowEnabled l := by
  obtain ⟨v, rfl⟩ := h
  exact ⟨rfl, rfl, rfl, rfl, rfl, fun _ => rfl⟩

theorem backProt_congr (flags : z.flags = c.flags) (cpl : z.cpl = c.cpl) : x.backProt z w image rip = x.backProt c w image rip := by
  rw [State.backProt, State.backProt, flags, cpl]

theorem run_iret_prot {t : State} (tf : s.flags.tf = false) (prot : s.protMode = true) (h : s.start.iretProtected w = .ok t) :
    (run s fun t => t.iret w) = .next t.unblockNmi :=
  run_ok tf (by rw [iret_prot (s := s.start) prot, h, ok_bind])

/-- Settles O44. -/
theorem iretResult : Obligations.IretResult := by
  intro s a b c y z rip cs image rsp ss d st tf i listed n loaded unblocked sel on no real back low
  rw [iret_exec i listed]
  refine ⟨fun popRip popCs popFlags => ⟨fun realMode ok => ?_, fun virt ok => ⟨fun iopl => ?_, fun iopl vme => ?_⟩,
    fun prot nt here => ⟨fun same legacy read => ?_, fun level popSp popSs read => ?_⟩, fun p t u prot nt cpl long virtual first pops => ?_⟩,
    fun virt iopl vme => ?_, fun prot nt => ?_⟩
  · refine run_ok tf ?_
    rw [iret_real (s := s.start) realMode, iretReal_eq popRip popCs popFlags ok, ok_bind, backReal_eq]
    rfl
  · refine run_ok tf ?_
    rw [iret_virt (s := s.start) virt, iretVirtual_iopl popRip popCs popFlags ok iopl, ok_bind, backReal_eq]
    rfl
  · have vmeEq := iretVirtual_vme (s := s.start) popRip popCs popFlags ok iopl vme
    by_cases legal : i.1 = .w16 ∧ ¬(image.getLsbD 9 = true ∧ s.flags.vip = true) ∧ image.getLsbD 8 = false
    · rw [if_pos legal]
      refine run_ok tf ?_
      rw [iret_virt (s := s.start) virt, vmeEq]
      refine (congrArg (· >>= _) (if_pos legal)).trans ?_
      rw [ok_bind, backReal_eq]
      rfl
    · rw [if_neg legal]
      refine run_exc ?_
      rw [iret_virt (s := s.start) virt, vmeEq]
      exact congrArg (· >>= _) (if_neg legal)
  · have only : s.start.RspOnly c := ⟨_, pops_flags popRip popCs popFlags⟩
    obtain ⟨-, ccpl, ccet, -, clong, cshadow⟩ := rspOnly_frame only
    have back_of (x : State) : Host.Outcome.next (x.backProt c i.1 image rip).unblockNmi = back x := by rw [backProt_eq, ccpl]; rfl
    have done := iretProtected_same (s := s.start) nt here rfl popRip popCs popFlags same legacy read
    intro t ok
    have ht : t = (c.setCs (descSeg sel d) c.cpl).setRsp c.gpr.rsp := by rw [ccpl]; rfl
    refine ⟨fun off => ?_, fun prev f g on_ aligned ssFrame fits token => ?_⟩
    · rw [run_iret_prot tf prot (done.trans (iretSame_eq rfl ht ok rfl (sameReturn_off (by rw [cshadow, ccpl]; exact off)))), back_of]
    · have ssp : t.cet.ssp.toNat % 8 = 0 := by rw [show t.cet = s.cet from by rw [ht]; simp [ccet]]; exact aligned
      have shadow := sameReturn_on (s := c) (t := t) (by rw [cshadow, ccpl]; exact on_) ssp (by rw [ccpl]; exact ssFrame) fits
        (by rw [clong]; exact token)
      rw [run_iret_prot tf prot (done.trans (iretSame_eq rfl ht ok rfl shadow)), back_of]
  · have onlyC : s.start.RspOnly c := ⟨_, pops_flags popRip popCs popFlags⟩
    have onlyZ : c.RspOnly z := rspOnly_trans (pop_rspOnly popSp) (pop_rspOnly popSs)
    obtain ⟨-, ccpl, -⟩ := rspOnly_frame onlyC
    obtain ⟨zflags, zcpl', -⟩ := rspOnly_frame onlyZ
    obtain ⟨-, zcpl, zcet, zmode, zlong, zshadow⟩ := rspOnly_frame (rspOnly_trans onlyC onlyZ)
    have back_of (x : State) : Host.Outcome.next (x.backProt z i.1 image rip).unblockNmi = back x := by
      rw [backProt_congr zflags zcpl', backProt_eq, ccpl]; rfl
    have done := iretProtected_popped (s := s.start) nt here rfl popRip popCs popFlags level popSp popSs read
    intro t ok readSs q leave
    have qcet : q.cet = s.cet := by simp [q, t, State.writeRsp, zcet]
    have back_leave (x : State) : Host.Outcome.next (x.backOuter z i.1 sel image rip).unblockNmi = back (leave x) := back_of _
    refine ⟨fun same off => ?_, fun outer off => ?_, fun prev f g same on_ aligned ssFrame fits token => ?_,
      fun prev f g outer aligned frame => ?_⟩
    · have inner : ¬s.cpl < rpl sel := by rw [same]; exact BitVec.lt_irrefl _
      have ends := iretSame_popped (w := i.1) (image := image) (rsp := rsp) (t := t) (q := q) (sel := sel) rfl (same.trans zcpl.symm) (zmode.trans (level.resolve_left inner).2) rfl ok readSs rfl
        (sameReturn_off (s := z) (by rw [zshadow, zcpl]; exact off))
      rw [run_iret_prot tf prot (done.trans ((if_neg inner).trans ends)), back_of]
    · have offs (l : BitVec 2) : z.shadowEnabled l = false := (zshadow l).trans (shadowEnabled_off (s := s) rfl rfl off l)
      have framed : z.outerFrame q sel rip = .ok (z.cet.ssp, z) := if_neg (by rw [offs]; decide)
      have pointer : z.outerSsp q sel (z.cet.ssp, z) = .ok q := by
        rw [State.outerSsp, offs, if_neg (by decide), show z.cet = q.cet by rw [qcet, zcet]; rfl]
        rfl
      have token : z.outerToken q sel (z.cet.ssp, z) = .ok q := if_neg (by rw [offs]; decide)
      have ends := iretOuter_eq (w := i.1) (image := image) (rsp := rsp) (t := t) (q := q) (sel := sel) rfl rfl ok readSs rfl framed pointer token
      rw [run_iret_prot tf prot (done.trans ((if_pos outer).trans ends)), back_leave]
    · have inner : ¬s.cpl < rpl sel := by rw [same]; exact BitVec.lt_irrefl _
      have shadow := sameReturn_on (s := z) (t := q) (by rw [zshadow, zcpl]; exact on_) (by rw [qcet]; exact aligned) (by rw [zcpl]; exact ssFrame) fits
        (by rw [zlong]; exact token)
      have ends := iretSame_popped (w := i.1) (image := image) (rsp := rsp) (t := t) (q := q) (sel := sel) rfl (same.trans zcpl.symm) (zmode.trans (level.resolve_left inner).2) rfl ok readSs rfl shadow
      rw [run_iret_prot tf prot (done.trans ((if_neg inner).trans ends)), back_of]
    · intro new fits r token
      have framed : z.outerFrame q sel rip = .ok (prev, f) := by
        refine outerFrame_ok (fun on_ => ?_) ?_
        · rw [zcet]
          exact aligned (by rw [← on_, zshadow, zcpl]; rfl)
        · rw [zshadow, zcpl, zcet]
          exact frame
      have pointer : z.outerSsp q sel (prev, f) = .ok r := by
        rw [outerSsp_ok (by rw [zshadow, zcet]; exact fits), zshadow, zcet]
        rfl
      have level_ : r.cpl = rpl sel := by simp [r, q, t, State.setSsp, State.writeRsp]
      have token_ : z.outerToken r sel (prev, f) = .ok { g with cpl := rpl sel } := outerToken_ok level_ (by rw [zshadow, zcpl]; exact token)
      have ends := iretOuter_eq (w := i.1) (image := image) (rsp := rsp) (t := t) (q := q) (sel := sel) rfl rfl ok readSs rfl framed pointer token_
      rw [run_iret_prot tf prot (done.trans ((if_pos outer).trans ends)), back_leave]
  · obtain ⟨v, rfl⟩ : s.start.RspOnly c := ⟨_, pops_flags popRip popCs popFlags⟩
    intro seg shadow
    have done := iretProtected_virtual (s := s.start) nt popRip popCs popFlags ⟨virtual, cpl, long⟩
    rw [run_iret_prot tf prot (done.trans (iretToVirtual_eq first pops shadow)), State.backVirtual]
    simp only [virtSeg_eq, and_low16]
    rfl
  · refine run_exc ?_
    rw [iret_virt (s := s.start) virt, iretVirtual_refused (s := s.start) iopl vme]
    rfl
  · have ends : s.start.iret i.1 = .error (if s.longMode then gp0 else .refuse .taskSwitch) := by
      rw [iret_prot (s := s.start) prot, iretProtected_nt (s := s.start) nt]
      rfl
    by_cases long : s.longMode = true
    · rw [if_pos long] at ends ⊢
      exact run_exc ends
    · rw [if_neg long] at ends ⊢
      exact run_refuse ends

end Sys2Proof.Machine
end

