-- ==== Sys2Proof/Proofs/Strings.lean ====
section
/-! PROOFS. The string instructions with their repeat prefixes, and port input and output (30_encoding.md R166, 41_gp_c.md R368,
42_gp_d_j.md R407, R409, 43_gp_l_m.md R457, R476, 44_gp_n_p.md R514, R515, 45_gp_r_s.md R581, R592, 20_memory.md R130, R131). -/

namespace Sys2Proof.Machine

variable {s t u : State} {w : Width} {asz : ASize} {seg : SegName} {ps qs : List Nat}

/-! ### The repeat prefixes -/

theorem pred_eq (a : Width) (h : uns a s.gpr.rcx ≠ 0) :
    trunc a (s.readGpr a .rcx - 1) = BitVec.ofNat 64 (uns a s.gpr.rcx - 1) := by
  have lt := uns_lt a s.gpr.rcx
  have le := pow_bits_le a
  have value : (s.readGpr a .rcx).toNat = uns a s.gpr.rcx := readGpr_toNat s a .rcx
  have one : (1 : Quad).toNat = 1 := rfl
  apply BitVec.eq_of_toNat_eq
  rw [trunc_toNat, uns, BitVec.toNat_sub, value, one, BitVec.toNat_ofNat]
  rw [show 2 ^ 64 - 1 + uns a s.gpr.rcx = uns a s.gpr.rcx - 1 + 2 ^ 64 by omega, Nat.add_mod_right, mod_width,
    Nat.mod_eq_of_lt (by omega), Nat.mod_eq_of_lt (by omega)]

/-- One iteration of a repeated instruction. -/
theorem iterate_once {rep : Rep} {zfTest : Bool} {body : State → Res State} (repeated : rep ≠ .none)
    (count : uns (addrWidth asz) s.gpr.rcx ≠ 0) (h : body s.start = .ok u) :
    s.start.iterate s asz rep zfTest body =
      .ok (if uns (addrWidth asz) s.gpr.rcx - 1 = 0 ∨ zfTest = true ∧ (rep = .repe ∧ u.flags.zf = false ∨ rep = .repne ∧ u.flags.zf = true) then
        u.writeGpr (addrWidth asz) .rcx (BitVec.ofNat 64 (uns (addrWidth asz) s.gpr.rcx - 1))
      else (u.writeGpr (addrWidth asz) .rcx (BitVec.ofNat 64 (uns (addrWidth asz) s.gpr.rcx - 1))).again s) := by
  have lt : uns (addrWidth asz) s.gpr.rcx - 1 < 2 ^ 64 :=
    Nat.lt_of_le_of_lt (Nat.sub_le _ _) (Nat.lt_of_lt_of_le (uns_lt _ _) (pow_bits_le _))
  have nonzero : ¬s.start.readGpr (addrWidth asz) .rcx = 0 := fun zero => count (by
    have := congrArg BitVec.toNat zero
    rwa [readGpr_toNat] at this)
  have last : (BitVec.ofNat 64 (uns (addrWidth asz) s.gpr.rcx - 1) == (0 : Quad)) = decide (uns (addrWidth asz) s.gpr.rcx - 1 = 0) := by
    rw [Bool.eq_iff_iff, beq_iff_eq, decide_eq_true_eq, ← BitVec.toNat_inj, BitVec.toNat_ofNat, Nat.mod_eq_of_lt lt]
    rfl
  have ends : repDone rep zfTest (BitVec.ofNat 64 (uns (addrWidth asz) s.gpr.rcx - 1)) u.flags.zf = true ↔
      uns (addrWidth asz) s.gpr.rcx - 1 = 0 ∨ zfTest = true ∧ (rep = .repe ∧ u.flags.zf = false ∨ rep = .repne ∧ u.flags.zf = true) := by
    rw [repDone, last]
    simp only [Bool.or_eq_true, decide_eq_true_eq, Bool.and_eq_true, beq_iff_eq, Bool.not_eq_true']
  rw [State.iterate, if_neg repeated, if_neg nonzero, h, ok_bind]
  simp only [start_readGpr, pred_eq _ count, State.writeGpr_flags, ends]

theorem iterate_zero {rep : Rep} {zfTest : Bool} {body : State → Res State} (repeated : rep ≠ .none)
    (count : uns (addrWidth asz) s.gpr.rcx = 0) : s.start.iterate s asz rep zfTest body = .ok s.start := by
  have zero : s.start.readGpr (addrWidth asz) .rcx = 0 := by
    apply BitVec.eq_of_toNat_eq
    rw [readGpr_toNat]
    exact count
  rw [State.iterate, if_neg repeated, if_pos zero]

theorem iterate_error {rep : Rep} {zfTest : Bool} {body : State → Res State} {e : Trap}
    (count : uns (addrWidth asz) s.gpr.rcx ≠ 0) (h : body s.start = .error e) : s.start.iterate s asz rep zfTest body = .error e := by
  have nonzero : ¬s.start.readGpr (addrWidth asz) .rcx = 0 := fun zero => count (by
    have := congrArg BitVec.toNat zero
    rwa [readGpr_toNat] at this)
  rw [State.iterate, h, if_neg nonzero]
  split <;> rfl

/-- A string instruction iterates its body. -/
theorem stringForms_exec : ∀ x ∈ stringForms w seg asz, ∀ (rep : Rep) (s : State),
    exec (x.2.1 rep) s = run s fun t => t.iterate s asz rep x.1 x.2.2 := by
  simp only [stringForms, List.forall_mem_cons, List.not_mem_nil, false_implies, implies_true, and_true]
  exact ⟨fun _ _ => rfl, fun _ _ => rfl, fun _ _ => rfl, fun _ _ => rfl, fun _ _ => rfl, fun _ _ => rfl, fun _ _ => rfl, fun _ _ => rfl,
    fun _ _ => rfl, fun _ _ => rfl, fun _ _ => rfl, fun _ _ => rfl, fun _ _ => rfl, fun _ _ => rfl, fun _ _ => rfl, fun _ _ => rfl⟩

/-- Settles O50. -/
theorem stringRepeat : Obligations.StringRepeat := by
  intro s u w seg asz rep e tf repeated a x listed
  rw [stringForms_exec x listed, stringForms_exec x listed]
  refine ⟨fun zero => run_ok tf (iterate_zero repeated zero), fun body => ⟨run_ok tf body, fun count => ?_⟩,
    fun body count => ⟨run_exc body, run_exc (iterate_error count body)⟩⟩
  exact run_ok tf (iterate_once repeated count body)

/-! ### One iteration -/

theorem neg_toNat_emod (w : Width) (n : Nat) : ((-BitVec.ofNat 64 n).toNat : Int) % 2 ^ w.bits = (-(n : Int)) % 2 ^ w.bits := by
  have dvd : (2 : Int) ^ w.bits ∣ 18446744073709551616 := pow_dvd_pow (2 : Int) (bits_le w)
  have lt : n % 2 ^ 64 < 2 ^ 64 := Nat.mod_lt _ (Nat.two_pow_pos _)
  rw [BitVec.toNat_neg, BitVec.toNat_ofNat, Int.natCast_emod, Nat.cast_sub lt.le]
  push_cast
  rw [Int.emod_emod_of_dvd _ dvd, Int.sub_emod, Int.emod_emod_of_dvd _ dvd, Int.emod_eq_zero_of_dvd dvd, Int.zero_sub]
  exact Int.ModEq.neg (Int.emod_emod _ _)

theorem trunc_add_nat (w : Width) (v : Quad) (n : Nat) : trunc w (v + BitVec.ofNat 64 n) = wrap w ((uns w v : Int) + n) := by
  refine trunc_add_eq_wrap ?_ ?_
  · rw [uns]
    push_cast
    exact (Int.emod_emod _ _).symm
  · have dvd : (2 : Int) ^ w.bits ∣ 2 ^ 64 := pow_dvd_pow 2 (bits_le w)
    rw [BitVec.toNat_ofNat]
    push_cast
    exact Int.emod_emod_of_dvd _ dvd

theorem trunc_sub_nat (w : Width) (v : Quad) (n : Nat) : trunc w (v - BitVec.ofNat 64 n) = wrap w ((uns w v : Int) - n) := by
  rw [BitVec.sub_eq_add_neg, Int.sub_eq_add_neg]
  refine trunc_add_eq_wrap ?_ (neg_toNat_emod w n)
  rw [uns]
  push_cast
  exact (Int.emod_emod _ _).symm

/-- A pointer moved by the size of an element. -/
theorem advance_eq (t : State) (asz : ASize) (r : Gpr) (n : Nat) : t.advance asz r n = t.move asz r n := by
  have same : trunc (addrWidth asz) (if t.flags.df then t.readGpr (addrWidth asz) r - BitVec.ofNat 64 n
        else t.readGpr (addrWidth asz) r + BitVec.ofNat 64 n) =
      wrap (addrWidth asz) (if t.flags.df then (uns (addrWidth asz) (t.reg r) : Int) - n else uns (addrWidth asz) (t.reg r) + n) := by
    cases t.flags.df with
    | true => rw [if_pos rfl, if_pos rfl, trunc_sub_nat, uns_readGpr]
    | false => rw [if_neg (by decide), if_neg (by decide), trunc_add_nat, uns_readGpr]
  rw [State.advance, State.move, ← same, writeGpr_trunc]

theorem pointer_eq (t : State) (asz : ASize) (r : Gpr) : t.pointer asz r = BitVec.ofNat 64 (uns (addrWidth asz) (t.reg r)) :=
  (ofNat_uns_reg t (addrWidth asz) r).symm

theorem lods_eq (source : s.start.access seg (s.start.pointer asz .rsi) w.bytes false = .ok ps) :
    s.start.lods w seg asz = .ok ((s.start.writeGpr w .rax (BitVec.ofNat 64 (s.loadAt ps))).move asz .rsi w.bytes) := by
  simp only [State.lods, readMem_ok.mpr ⟨ps, source, rfl⟩, ok_bind, advance_eq, start_loadAt]

theorem movs_eq (source : s.start.access seg (s.start.pointer asz .rsi) w.bytes false = .ok ps)
    (dest : s.start.access .es (s.start.pointer asz .rdi) w.bytes true = .ok qs) :
    s.start.movs w seg asz = .ok (((s.start.storeAt qs (s.loadAt ps)).move asz .rsi w.bytes).move asz .rdi w.bytes) := by
  simp only [State.movs, readMem_ok.mpr ⟨ps, source, rfl⟩, writeMem_ok.mpr ⟨qs, dest, rfl⟩, ok_bind, advance_eq, loadAt_toNat source, start_loadAt]

theorem cmps_eq (source : s.start.access seg (s.start.pointer asz .rsi) w.bytes false = .ok ps)
    (dest : s.start.access .es (s.start.pointer asz .rdi) w.bytes false = .ok qs) :
    s.start.cmps w seg asz = .ok (((s.start.setFlags (diffFlags s.start.flags w (BitVec.ofNat 64 (s.loadAt ps)) (BitVec.ofNat 64 (s.loadAt qs))
      false)).move asz .rsi w.bytes).move asz .rdi w.bytes) := by
  simp only [State.cmps, readMem_ok.mpr ⟨ps, source, rfl⟩, readMem_ok.mpr ⟨qs, dest, rfl⟩, ok_bind, advance_eq, subFlags_eq, start_loadAt]

theorem scas_eq (dest : s.start.access .es (s.start.pointer asz .rdi) w.bytes false = .ok qs) :
    s.start.scas w asz = .ok ((s.start.setFlags (diffFlags s.start.flags w s.gpr.rax (BitVec.ofNat 64 (s.loadAt qs)) false)).move asz .rdi
      w.bytes) := by
  have acc : diffFlags s.start.flags w (s.readGpr w .rax) (BitVec.ofNat 64 (s.loadAt qs)) false =
      diffFlags s.start.flags w s.gpr.rax (BitVec.ofNat 64 (s.loadAt qs)) false := diffFlags_congr (uns_readGpr s w .rax) rfl _ _
  simp only [State.scas, readMem_ok.mpr ⟨qs, dest, rfl⟩, ok_bind, advance_eq, subFlags_eq, start_loadAt, start_readGpr, acc]

theorem stos_eq (dest : s.start.access .es (s.start.pointer asz .rdi) w.bytes true = .ok qs) :
    s.start.stos w asz = .ok ((s.start.storeAt qs (uns w s.gpr.rax)).move asz .rdi w.bytes) := by
  simp only [State.stos, writeMem_ok.mpr ⟨qs, dest, rfl⟩, ok_bind, advance_eq, start_readGpr, readGpr_toNat]
  rfl

/-! ### Ports -/

/-- What the devices receive. -/
def State.sent (s : State) (p : BitVec 16) (k v : Nat) : State :=
  if s.cfg.io = .default then s.start
  else { s.start with devices := Config.ioWrite s.devices s.freeCount p k (BitVec.ofNat 32 (v % 256 ^ k)) }

/-- What the devices answer. -/
def State.got (s : State) (p : BitVec 16) (k : Nat) : Nat × State :=
  if s.cfg.io = .default then (256 ^ k - 1, s.start)
  else ((Config.ioRead s.devices s.freeCount p k).1.toNat % 256 ^ k,
    { s.start with devices := (Config.ioRead s.devices s.freeCount p k).2 })

theorem ioWrite_eq (p : BitVec 16) (w : Width) (v : Quad) : s.start.ioWrite p w v = s.sent p w.bytes v.toNat := by
  have value : (trunc w v).setWidth 32 = BitVec.ofNat 32 (v.toNat % 256 ^ w.bytes) := by
    rw [pow_bytes]
    apply BitVec.eq_of_toNat_eq
    rw [BitVec.toNat_setWidth, trunc_toNat, BitVec.toNat_ofNat]
    rfl
  rw [State.sent]
  by_cases io : s.cfg.io = .default
  · rw [if_pos io, ioWrite_default (s := s.start) io]
  · have host : s.start.cfg.io = .host := by
      cases h : s.start.cfg.io with
      | default => exact absurd h io
      | host => rfl
    rw [if_neg io, State.ioWrite, host, value]
    rfl

theorem ioRead_eq (p : BitVec 16) (w : Width) :
    (s.start.ioRead p w).1 = BitVec.ofNat 64 (s.got p w.bytes).1 ∧ (s.start.ioRead p w).2 = (s.got p w.bytes).2 ∧
      (s.got p w.bytes).1 < 2 ^ 64 := by
  rw [State.got, pow_bytes]
  by_cases io : s.cfg.io = .default
  · rw [if_pos io, ioRead_default (s := s.start) io]
    have ones : trunc w (BitVec.allOnes 64) = BitVec.ofNat 64 (2 ^ w.bits - 1) := by cases w <;> decide
    exact ⟨ones, rfl, Nat.lt_of_lt_of_le (Nat.sub_lt (Nat.two_pow_pos _) (by decide)) (pow_bits_le w)⟩
  · have host : s.start.cfg.io = .host := by
      cases h : s.start.cfg.io with
      | default => exact absurd h io
      | host => rfl
    rw [if_neg io, State.ioRead, host]
    have small (n : Nat) : n % 2 ^ w.bits < 2 ^ 64 := Nat.lt_of_lt_of_le (Nat.mod_lt _ (Nat.two_pow_pos _)) (pow_bits_le w)
    have value (v : BitVec 32) : trunc w (v.setWidth 64) = BitVec.ofNat 64 (v.toNat % 2 ^ w.bits) := by
      apply BitVec.eq_of_toNat_eq
      rw [trunc_toNat, uns, BitVec.toNat_setWidth_of_le (by decide), BitVec.toNat_ofNat, Nat.mod_eq_of_lt (small _)]
    exact ⟨value _, rfl, small _⟩

theorem outs_eq (check : s.start.ioCheck (s.gpr.rdx.setWidth 16) w.bytes = .ok ())
    (source : s.start.access seg (s.start.pointer asz .rsi) w.bytes false = .ok ps) :
    s.start.outs w seg asz = .ok ((s.sent (s.gpr.rdx.setWidth 16) w.bytes (s.loadAt ps)).move asz .rsi w.bytes) := by
  have check' : s.start.ioCheck s.start.dxPort w.bytes = .ok () := check
  simp only [State.outs, check', readMem_ok.mpr ⟨ps, source, rfl⟩, ok_bind, advance_eq, ioWrite_eq, loadAt_toNat source]
  rfl

theorem ins_eq (check : s.start.ioCheck (s.gpr.rdx.setWidth 16) w.bytes = .ok ())
    (dest : s.start.access .es (s.start.pointer asz .rdi) w.bytes true = .ok qs) :
    s.start.ins w asz = .ok (((s.got (s.gpr.rdx.setWidth 16) w.bytes).2.storeAt qs (s.got (s.gpr.rdx.setWidth 16) w.bytes).1).move asz .rdi
      w.bytes) := by
  have check' : s.start.ioCheck s.start.dxPort w.bytes = .ok () := check
  obtain ⟨value, devices, small⟩ := ioRead_eq (s := s) (s.gpr.rdx.setWidth 16) w
  have value' : (s.start.ioRead s.start.dxPort w).1 = _ := value
  have devices' : (s.start.ioRead s.start.dxPort w).2 = _ := devices
  simp only [State.ins, check', dest, ok_bind, advance_eq, value', devices', BitVec.toNat_ofNat, Nat.mod_eq_of_lt small]

/-- Without the test of the privilege level every port is allowed. -/
theorem ioCheck_free {port : BitVec 16} {n : Nat} (virt : t.virtMode = false) (prot : t.protMode = true → t.cpl ≤ t.flags.iopl) :
    t.ioCheck port n = .ok () := by
  refine if_neg fun h => ?_
  rw [virt, Bool.false_or, Bool.and_eq_true, decide_eq_true_eq] at h
  exact absurd (prot h.1) (BitVec.not_le.mpr h.2)

theorem ioCheck_bitmap {port : BitVec 16} {n : Nat} {base : Quad} (tested : t.virtMode = true ∨ t.protMode = true ∧ t.flags.iopl < t.cpl)
    (type1 : t.tr.attr.type ≠ 1) (type3 : t.tr.attr.type ≠ 3) (read : t.tableRead gp0 t.tr.base t.tr.limit 102 2 = .ok base) :
    t.ioCheck port n = t.ioBits base.toNat port.toNat n := by
  have cond : (t.virtMode || (t.protMode && decide (t.flags.iopl < t.cpl))) = true := by
    rwa [Bool.or_eq_true, Bool.and_eq_true, decide_eq_true_eq]
  have tss : (t.tr.attr.type != 1 && t.tr.attr.type != 3) = true := by
    rw [Bool.and_eq_true, bne_iff_ne, bne_iff_ne]
    exact ⟨type1, type3⟩
  refine (if_pos cond).trans ?_
  simp only [tss, require_true, ok_bind, read]

theorem ioBits_clear {base port : Nat} : ∀ {n : Nat}, (∀ i < n, t.tssBit base (port + i) = .ok false) → t.ioBits base port n = .ok ()
  | 0, _ => rfl
  | n + 1, h => by
    have before := ioBits_clear (n := n) fun i hi => h i (Nat.lt_succ_of_lt hi)
    simp only [State.ioBits, before, ok_bind, h n (Nat.lt_succ_self n), Bool.not_false, require_true]

/-- The bit of the first port decides first. -/
theorem ioBits_first {base port : Nat} (h : t.tssBit base port = .ok true) : ∀ n, t.ioBits base port (n + 1) = .error gp0
  | 0 => by simp only [State.ioBits, ok_bind, Nat.add_zero, h, Bool.not_true, require_false]
  | n + 1 => by rw [State.ioBits, ioBits_first h n, error_bind]

theorem start_tssBit (base n : Nat) : s.start.tssBit base n = s.tssBit base n := by
  have read (bad : Trap) (b : Quad) (l : BitVec 32) (off n : Nat) : s.start.tableRead bad b l off n = s.tableRead bad b l off n := by
    rw [State.tableRead, State.tableRead, sysReadLin_congr (s := s.start) (t := s) rfl rfl (fun _ _ => rfl) rfl]
  rw [State.tssBit, State.tssBit, read]
  rfl

/-- The width of a port access. -/
theorem portWidth_eq (w : Width) : portWidth w = if w = .w64 then .w32 else w := by cases w <;> rfl

theorem execOut_eq {port : Port} (tf : s.flags.tf = false) (check : s.start.ioCheck (s.portOf port) (portWidth w).bytes = .ok ()) :
    exec (.out w port) s = .next (s.sent (s.portOf port) (portWidth w).bytes s.gpr.rax.toNat) := by
  have check' : s.start.ioCheck (s.start.portOf port) (portWidth w).bytes = .ok () := by cases port <;> exact check
  have low : s.sent (s.portOf port) (portWidth w).bytes (s.readGpr (portWidth w) .rax).toNat =
      s.sent (s.portOf port) (portWidth w).bytes s.gpr.rax.toNat := by
    rw [State.sent, State.sent, readGpr_toNat, pow_bytes, uns, Nat.mod_mod]
    rfl
  rw [exec_out, execOut]
  apply run_ok tf
  simp only [check', ok_bind, ioWrite_eq, start_readGpr]
  rw [← low]
  cases port <;> rfl

theorem execInp_eq {port : Port} (tf : s.flags.tf = false) (check : s.start.ioCheck (s.portOf port) (portWidth w).bytes = .ok ()) :
    exec (.inp w port) s = .next ((s.got (s.portOf port) (portWidth w).bytes).2.writeGpr (portWidth w) .rax
      (BitVec.ofNat 64 (s.got (s.portOf port) (portWidth w).bytes).1)) := by
  have same : s.start.portOf port = s.portOf port := by cases port <;> rfl
  obtain ⟨value, devices, -⟩ := ioRead_eq (s := s) (s.portOf port) (portWidth w)
  rw [exec_inp, execInp]
  apply run_ok tf
  simp only [check, ok_bind, same, value, devices]

theorem execPort_fails {port : Port} (fails : s.start.ioCheck (s.portOf port) (portWidth w).bytes = .error gp0) :
    exec (.out w port) s = s.raise { name := .gp, code := some 0 } ∧ exec (.inp w port) s = s.raise { name := .gp, code := some 0 } := by
  have fails' : s.start.ioCheck (s.start.portOf port) (portWidth w).bytes = .error gp0 := by cases port <;> exact fails
  rw [exec_out, exec_inp, execOut, execInp]
  exact ⟨run_exc (by rw [fails', error_bind]; rfl), run_exc (by rw [fails', error_bind]; rfl)⟩

theorem run_iterate {body : State → Res State} {zfTest : Bool} (tf : s.flags.tf = false) (h : body s.start = .ok u) :
    (run s fun t => t.iterate s asz .none zfTest body) = .next u := run_ok tf h

/-- Settles O49. -/
theorem stringIteration : Obligations.StringIteration := by
  intro s w seg asz port base ps qs tf a n si di dx pick port32 sent got
  refine ⟨fun source => ?_, fun dest => ?_, fun dest => ⟨?_, fun narrow check => ?_⟩, ?_⟩
  · rw [show si = s.start.pointer asz .rsi from (pointer_eq s.start asz .rsi).symm] at source
    intro v
    refine ⟨?_, fun dest => ?_, fun dest => ?_, fun narrow check => ?_⟩
    · have done := lods_eq source
      cases w <;> exact run_iterate tf done
    · rw [show di = s.start.pointer asz .rdi from (pointer_eq s.start asz .rdi).symm] at dest
      have done := movs_eq source dest
      cases w <;> exact run_iterate tf done
    · rw [show di = s.start.pointer asz .rdi from (pointer_eq s.start asz .rdi).symm] at dest
      have done := cmps_eq source dest
      cases w <;> exact run_iterate tf done
    · have done := outs_eq check source
      cases w
      case w64 => exact absurd rfl narrow
      all_goals exact run_iterate tf done
  · rw [show di = s.start.pointer asz .rdi from (pointer_eq s.start asz .rdi).symm] at dest
    have done := scas_eq dest
    cases w <;> exact run_iterate tf done
  · rw [show di = s.start.pointer asz .rdi from (pointer_eq s.start asz .rdi).symm] at dest
    have done := stos_eq dest
    cases w <;> exact run_iterate tf done
  · rw [show di = s.start.pointer asz .rdi from (pointer_eq s.start asz .rdi).symm] at dest
    have done := ins_eq check dest
    cases w
    case w64 => exact absurd rfl narrow
    all_goals exact run_iterate tf done
  · intro number pw
    have width : pw = portWidth w := (portWidth_eq w).symm
    have here : number = s.portOf port := by cases port <;> rfl
    rw [here, width]
    refine ⟨fun check => ⟨execOut_eq tf check, execInp_eq tf check⟩, fun virt prot => ioCheck_free (t := s.start) virt prot,
      fun tested type1 type3 read => ?_⟩
    have read' : s.start.tableRead gp0 s.start.tr.base s.start.tr.limit 102 2 = .ok base := by
      rw [State.tableRead, sysReadLin_congr (s := s.start) (t := s) rfl rfl (fun _ _ => rfl) rfl]
      exact read
    have bitmap := ioCheck_bitmap (t := s.start) (port := s.portOf port) (n := (portWidth w).bytes) tested type1 type3 read'
    refine ⟨fun clear => bitmap.trans (ioBits_clear fun i hi => (start_tssBit _ _).trans (clear i hi)), fun set => execPort_fails ?_⟩
    have first := ioBits_first ((start_tssBit _ _).trans set) ((portWidth w).bytes - 1)
    rw [show (portWidth w).bytes - 1 + 1 = (portWidth w).bytes by cases w <;> rfl] at first
    exact bitmap.trans first

end Sys2Proof.Machine
end

