-- ==== Sys2Proof/Proofs/Stacks.lean ====
section
/-! PROOFS. Pushes, pops, stack frames and POPF (42_gp_d_j.md R404, 43_gp_l_m.md R454, 44_gp_n_p.md R520 to R532). -/

namespace Sys2Proof.Machine

variable {s t u : State} {w : Width} {ps : List Nat}

/-- An access does not read the general registers. -/
theorem access_setGpr (g : Gprs) (seg : SegName) (off : Quad) (n : Nat) (write : Bool) :
    ({ s with gpr := g } : State).access seg off n write = s.access seg off n write := by
  have spans (acc : Config.Access) (b : Bool) (lin : Quad) : ({ s with gpr := g } : State).span acc b lin = s.span acc b lin :=
    span_congr (s := { s with gpr := g }) (t := s) rfl (fun _ _ => rfl) acc b lin
  simp only [State.access, State.accessE, State.accessParts, spans]
  rfl

theorem stackTop_eq (t : State) : trunc t.stackWidth t.gpr.rsp = wrap t.stackWidth (uns t.stackWidth t.gpr.rsp) := trunc_eq_wrap _ _

theorem push_of_access {v : Quad}
    (h : t.access .ss (wrap t.stackWidth ((uns t.stackWidth t.gpr.rsp : Int) - w.bytes)) w.bytes true = .ok ps) :
    t.push w.bytes v = .ok ((t.storeAt ps v.toNat).writeGpr t.stackWidth .rsp (wrap t.stackWidth ((uns t.stackWidth t.gpr.rsp : Int) - w.bytes))) := by
  rw [← trunc_sub_nat] at h ⊢
  exact pushE_ok.mpr ⟨ps, h, rfl⟩

theorem pop_of_access {n : Nat} (h : t.access .ss (wrap t.stackWidth (uns t.stackWidth t.gpr.rsp)) n false = .ok ps) :
    t.pop n = .ok (BitVec.ofNat 64 (t.loadAt ps), t.writeGpr t.stackWidth .rsp (t.gpr.rsp + BitVec.ofNat 64 n)) := by
  rw [← trunc_eq_wrap] at h
  exact pop_ok.mpr ⟨readMem_ok.mpr ⟨ps, h, rfl⟩, rfl⟩

/-! ### PUSHA and POPA -/

theorem mergeReg_mergeReg (w : Width) (old v x : Quad) : mergeReg w (mergeReg w old v) x = mergeReg w old x := by
  have masked (n : Nat) (l : Quad) (within : ∀ i, (l.getLsbD i) = true → i < n) :
      (((old &&& ~~~BitVec.ofNat 64 (2 ^ n - 1)) ||| l) &&& ~~~BitVec.ofNat 64 (2 ^ n - 1)) = old &&& ~~~BitVec.ofNat 64 (2 ^ n - 1) := by
    apply BitVec.eq_of_getLsbD_eq
    intro i hi
    simp only [BitVec.getLsbD_and, BitVec.getLsbD_or, BitVec.getLsbD_not, mask_getLsbD n i hi, hi, decide_true, Bool.true_and]
    have out := within i
    by_cases low : i < n
    · simp [low]
    · have clear : l.getLsbD i = false := Bool.eq_false_iff.mpr fun set => low (out set)
      simp [low, clear]
  have small (w : Width) (i : Nat) (set : (trunc w v).getLsbD i = true) : i < w.bits := by
    rw [trunc_getLsbD, Bool.and_eq_true, decide_eq_true_eq] at set
    exact set.1
  cases w with
  | w8 => exact congrArg (· ||| trunc .w8 x) (masked 8 (trunc .w8 v) (small .w8))
  | w16 => exact congrArg (· ||| trunc .w16 x) (masked 16 (trunc .w16 v) (small .w16))
  | w32 => rfl
  | w64 => rfl

theorem mergeReg_getLsbD {w : Width} {i : Nat} (old v : Quad) (low : i < w.bits) : (mergeReg w old v).getLsbD i = v.getLsbD i := by
  have hi : i < 64 := Nat.lt_of_lt_of_le low (bits_le w)
  have mask8 : (0xFF : Quad).getLsbD i = decide (i < 8) := mask_getLsbD 8 i hi
  have mask16 : (0xFFFF : Quad).getLsbD i = decide (i < 16) := mask_getLsbD 16 i hi
  cases w with
  | w8 =>
    simp only [mergeReg, BitVec.getLsbD_or, BitVec.getLsbD_and, BitVec.getLsbD_not, trunc_getLsbD, mask8, show i < 8 from low, Width.bits,
      decide_true, Bool.not_true, Bool.and_false, Bool.false_or, Bool.true_and]
  | w16 =>
    simp only [mergeReg, BitVec.getLsbD_or, BitVec.getLsbD_and, BitVec.getLsbD_not, trunc_getLsbD, mask16, show i < 16 from low, Width.bits,
      decide_true, Bool.not_true, Bool.and_false, Bool.false_or, Bool.true_and]
  | w32 => rw [mergeReg, trunc_getLsbD, decide_eq_true low, Bool.true_and]
  | w64 => rfl

theorem uns_mergeReg (w : Width) (old v : Quad) : uns w (mergeReg w old v) = uns w v := by
  have read : trunc w (mergeReg w old v) = trunc w v := by
    apply BitVec.eq_of_getLsbD_eq
    intro i hi
    rw [trunc_getLsbD, trunc_getLsbD]
    by_cases low : i < w.bits
    · rw [mergeReg_getLsbD old v low]
    · rw [decide_eq_false low, Bool.false_and, Bool.false_and]
  have value := congrArg BitVec.toNat read
  rwa [trunc_toNat, trunc_toNat] at value

/-- A popped value written to its register, or dropped. -/
def Gprs.pop (g : Gprs) (w : Width) (r : Option Gpr) (v : Quad) : Gprs :=
  match r with
  | some q => g.set q (mergeReg w (g.get q) v)
  | none => g

/-- The registers after a list of pops, whose values stand in the slots from `i` on. -/
def Gprs.pops (s : State) (w : Width) (slot : Nat → List Nat) : List (Option Gpr) → Nat → Gprs → Gprs
  | [], _, g => g
  | r :: rs, i, g => Gprs.pops s w slot rs (i + 1) (g.pop w r (BitVec.ofNat 64 (s.loadAt (slot i))))

theorem pop_set_rsp {g : Gprs} {r : Option Gpr} {v x : Quad} (other : r ≠ some .rsp) :
    ({ g with rsp := x } : Gprs).pop w r v = { g.pop w r v with rsp := x } := by
  cases r with
  | none => rfl
  | some q => cases q <;> first | rfl | exact absurd rfl other

theorem uns_rsp_next {sw : Width} {rsp old : Quad} {i n : Nat} (h : uns sw old = uns sw (rsp + BitVec.ofNat 64 (i * n))) :
    uns sw (old + BitVec.ofNat 64 n) = uns sw (rsp + BitVec.ofNat 64 ((i + 1) * n)) := by
  have e : (i + 1) * n = i * n + n := by rw [Nat.add_mul, Nat.one_mul]
  rw [e, BitVec.ofNat_add, ← BitVec.add_assoc, uns_add, uns_add, Nat.add_mod, Nat.add_mod (rsp + _).toNat]
  exact congrArg (fun x => (x + _) % _) h

/-- One pop of a list: the value of its slot, and rSP moved. -/
theorem pop_slot {slot : List Nat} {i : Nat} {g : Gprs} {old : Quad}
    (here : uns s.stackWidth old = uns s.stackWidth (s.gpr.rsp + BitVec.ofNat 64 (i * w.bytes)))
    (merge : ∀ x, mergeReg s.stackWidth old x = mergeReg s.stackWidth s.gpr.rsp x)
    (access : s.access .ss (wrap s.stackWidth (uns s.stackWidth s.gpr.rsp + i * w.bytes : Nat)) w.bytes false = .ok slot) :
    ({ s with gpr := { g with rsp := old } } : State).pop w.bytes = .ok (BitVec.ofNat 64 (s.loadAt slot),
      { s with gpr := { g with rsp := mergeReg s.stackWidth s.gpr.rsp (s.gpr.rsp + BitVec.ofNat 64 ((i + 1) * w.bytes)) } }) := by
  have at_ : wrap s.stackWidth (uns s.stackWidth old) = wrap s.stackWidth (uns s.stackWidth s.gpr.rsp + i * w.bytes : Nat) := by
    have moved := trunc_add_nat s.stackWidth s.gpr.rsp (i * w.bytes)
    rw [trunc_eq_wrap, ← here] at moved
    rw [moved]
    rfl
  have next : mergeReg s.stackWidth old (old + BitVec.ofNat 64 w.bytes) =
      mergeReg s.stackWidth s.gpr.rsp (s.gpr.rsp + BitVec.ofNat 64 ((i + 1) * w.bytes)) := by
    rw [merge]
    exact mergeReg_congr (uns_rsp_next here) _
  refine (pop_of_access (t := { s with gpr := { g with rsp := old } }) (ps := slot) ?_).trans ?_
  · rw [access_setGpr]
    exact (congrArg (fun a => s.access .ss a w.bytes false) at_).trans access
  · rw [← next]
    rfl

/-- Pops one after the other, as long as no popped register is rSP. -/
theorem popList_eq (slot : Nat → List Nat) : ∀ (rs : List (Option Gpr)) (r : Option Gpr) (i : Nat) (g : Gprs) (old : Quad),
    (∀ q ∈ r :: rs, q ≠ some .rsp) →
    uns s.stackWidth old = uns s.stackWidth (s.gpr.rsp + BitVec.ofNat 64 (i * w.bytes)) →
    (∀ x, mergeReg s.stackWidth old x = mergeReg s.stackWidth s.gpr.rsp x) →
    (∀ j, i ≤ j → j < i + 1 + rs.length →
      s.access .ss (wrap s.stackWidth (uns s.stackWidth s.gpr.rsp + j * w.bytes : Nat)) w.bytes false = .ok (slot j)) →
    ({ s with gpr := { g with rsp := old } } : State).popList w (r :: rs) =
      .ok { s with gpr := { Gprs.pops s w slot (r :: rs) i g with
        rsp := mergeReg s.stackWidth s.gpr.rsp (s.gpr.rsp + BitVec.ofNat 64 ((i + 1 + rs.length) * w.bytes)) } } := by
  intro rs
  induction rs with
  | nil =>
    intro r i g old other here merge slots
    have step := pop_slot (g := g) here merge (slots i (Nat.le_refl i) (Nat.lt_succ_self i))
    have value := pop_set_rsp (g := g) (w := w) (v := BitVec.ofNat 64 (s.loadAt (slot i)))
      (x := mergeReg s.stackWidth s.gpr.rsp (s.gpr.rsp + BitVec.ofNat 64 ((i + 1) * w.bytes))) (other r List.mem_cons_self)
    rw [State.popList, step, ok_bind]
    cases r with
    | none => rfl
    | some q => exact congrArg (fun g => (.ok { s with gpr := g } : Res State)) value
  | cons q rs ih =>
    intro r i g old other here merge slots
    have step := pop_slot (g := g) here merge (slots i (Nat.le_refl i) (by rw [List.length_cons]; omega))
    have value := pop_set_rsp (g := g) (w := w) (v := BitVec.ofNat 64 (s.loadAt (slot i)))
      (x := mergeReg s.stackWidth s.gpr.rsp (s.gpr.rsp + BitVec.ofNat 64 ((i + 1) * w.bytes))) (other r List.mem_cons_self)
    have rest := ih q (i + 1) (g.pop w r (BitVec.ofNat 64 (s.loadAt (slot i))))
      (mergeReg s.stackWidth s.gpr.rsp (s.gpr.rsp + BitVec.ofNat 64 ((i + 1) * w.bytes))) (fun p hp => other p (List.mem_cons_of_mem _ hp))
      (uns_mergeReg _ _ _) (fun x => mergeReg_mergeReg _ _ _ x)
      (fun j hj hj' => slots j (by omega) (by rw [List.length_cons]; omega))
    rw [← value] at rest
    rw [show i + 1 + (q :: rs).length = i + 1 + 1 + rs.length by rw [List.length_cons]; omega, Gprs.pops, ← rest, State.popList, step, ok_bind]
    cases r <;> rfl

/-- Registers written one after the other. -/
theorem foldl_writeGpr (f : Nat → Quad) : ∀ (l : List (Nat × Gpr)) (t : State), l.foldl (fun t r => t.writeGpr w r.2 (f r.1)) t =
    { t with gpr := l.foldl (fun g r => g.set r.2 (mergeReg w (g.get r.2) (f r.1))) t.gpr }
  | [], _ => rfl
  | _ :: l, t => foldl_writeGpr f l (t.writeGpr w _ _)

theorem pops_rsp (slot : Nat → List Nat) : ∀ (rs : List (Option Gpr)) (i : Nat) (g : Gprs), (∀ r ∈ rs, r ≠ some .rsp) →
    (Gprs.pops s w slot rs i g).rsp = g.rsp
  | [], _, _, _ => rfl
  | r :: rs, i, g, other => by
    rw [Gprs.pops, pops_rsp slot rs (i + 1) _ fun q hq => other q (List.mem_cons_of_mem _ hq)]
    cases r with
    | none => rfl
    | some q => exact Gprs.get_set_other g _ fun same => other (some q) List.mem_cons_self (congrArg some same)

/-- POPA's registers, in the order of their slots. -/
def poppedRegs : List (Option Gpr) := [some .rdi, some .rsi, some .rbp, none, some .rbx, some .rdx, some .rcx, some .rax]

theorem pops_poppedRegs (slot : Nat → List Nat) (g : Gprs) : Gprs.pops s w slot poppedRegs 0 g =
    [(0, Gpr.rdi), (1, .rsi), (2, .rbp), (4, .rbx), (5, .rdx), (6, .rcx), (7, .rax)].foldl
      (fun g r => g.set r.2 (mergeReg w (g.get r.2) (BitVec.ofNat 64 (s.loadAt (slot r.1))))) g := by
  simp only [poppedRegs, Gprs.pops, Gprs.pop, List.foldl_cons, List.foldl_nil, Nat.reduceAdd]

theorem writeRsp_record {sw : Width} {g : Gprs} (x : Quad) (h : g.rsp = s.gpr.rsp) :
    ({ s with gpr := g } : State).writeGpr sw .rsp x = { s with gpr := { g with rsp := mergeReg sw s.gpr.rsp x } } := by
  rw [← h]
  rfl

theorem popRegs_eq {slot : Nat → List Nat} (mode : s.mode64 = false)
    (slots : ∀ i < 8, s.start.access .ss (wrap s.stackWidth (uns s.stackWidth s.gpr.rsp + i * w.bytes : Nat)) w.bytes false = .ok (slot i)) :
    s.start.popRegs w = .ok (([(0, Gpr.rdi), (1, .rsi), (2, .rbp), (4, .rbx), (5, .rdx), (6, .rcx), (7, .rax)].foldl
      (fun t r => t.writeGpr w r.2 (BitVec.ofNat 64 (s.loadAt (slot r.1)))) s.start).writeGpr s.stackWidth .rsp
        (s.gpr.rsp + BitVec.ofNat 64 (8 * w.bytes))) := by
  have first : uns s.start.stackWidth s.gpr.rsp = uns s.start.stackWidth (s.start.gpr.rsp + BitVec.ofNat 64 (0 * w.bytes)) := by
    rw [Nat.zero_mul, BitVec.add_zero]
    rfl
  have popped := popList_eq (s := s.start) (w := w) slot [some .rsi, some .rbp, none, some .rbx, some .rdx, some .rcx, some .rax] (some .rdi) 0
    s.gpr s.gpr.rsp (by decide) first (fun _ => rfl) (fun j _ hj => slots j hj)
  have kept := pops_rsp (s := s.start) (w := w) slot poppedRegs 0 s.gpr (by decide)
  have regs := pops_poppedRegs (s := s.start) (w := w) slot s.gpr
  have list : s.start.popRegs w = s.start.popList w poppedRegs := by rw [State.popRegs, start_mode64, mode]; rfl
  have sum := foldl_writeGpr (w := w) (fun i => BitVec.ofNat 64 (s.loadAt (slot i)))
    [(0, Gpr.rdi), (1, .rsi), (2, .rbp), (4, .rbx), (5, .rdx), (6, .rcx), (7, .rax)] s.start
  rw [list, sum]
  refine popped.trans (congrArg Except.ok ((writeRsp_record (s := s.start) _ kept).symm.trans ?_))
  rw [regs]
  rfl

theorem pusha_exec : ∀ x ∈ [(Width.w16, Instr.pusha, Instr.popa), (.w32, .pushad, .popad)],
    (exec x.2.1 s = run s fun t => t.pushRegs x.1) ∧ exec x.2.2 s = run s fun t => t.popRegs x.1 := by
  simp only [List.forall_mem_cons, List.not_mem_nil, false_implies, implies_true, and_true]
  exact ⟨⟨rfl, rfl⟩, rfl, rfl⟩

/-! ### PUSHF and POPF -/

theorem pushf_exec : ∀ x ∈ [(Width.w16, Instr.pushf, Instr.popf), (.w32, .pushfd, .popfd), (.w64, .pushfq, .popfq)],
    (exec x.2.1 s = run s fun t => t.pushFlags x.1) ∧ exec x.2.2 s = run s fun t => t.popFlags x.1 := by
  simp only [List.forall_mem_cons, List.not_mem_nil, false_implies, implies_true, and_true]
  exact ⟨⟨rfl, rfl⟩, ⟨rfl, rfl⟩, rfl, rfl⟩

theorem plain_eq : (!t.virtMode || t.flags.iopl == 3) = decide (t.virtMode = false ∨ t.flags.iopl = 3) := by
  rw [Bool.eq_iff_iff, decide_eq_true_eq]
  simp only [Bool.or_eq_true, Bool.not_eq_true', beq_iff_eq]

theorem vme_eq : (t.cr4Bit 0 && w == .w16) = decide (t.cr4Bit 0 = true ∧ w = .w16) := by
  rw [Bool.eq_iff_iff, decide_eq_true_eq, Bool.and_eq_true, beq_iff_eq]

theorem pushFlags_eq (w : Width) : t.pushFlags w =
    if t.virtMode = false ∨ t.flags.iopl = 3 then t.push w.bytes { t.flags with rf := false, vm := false }.toBits
    else if t.cr4Bit 0 = true ∧ w = .w16 then t.push w.bytes { t.flags with rf := false, vm := false, fi := t.flags.vif, iopl := 3 }.toBits
    else .error gp0 := by
  simp only [State.pushFlags, plain_eq, vme_eq, decide_eq_true_eq, require_bind]

/-- POPF by mode and level, the popped image `v` and the state `u` after the pop. -/
theorem popFlags_eq {v : Quad} (pop : t.pop w.bytes = .ok (v, u)) : t.popFlags w =
    if t.virtMode = false then .ok (u.setFlags (popfFlags t.flags w v (t.cpl == 0) (t.cpl ≤ t.flags.iopl)))
    else if t.flags.iopl = 3 then .ok (u.setFlags (popfFlags t.flags w v false true))
    else if t.cr4Bit 0 = true ∧ w = .w16 then
      if v.getLsbD 9 && t.flags.vip || v.getLsbD 8 then .error gp0
      else .ok (u.setFlags { popfFlags t.flags w v false false with vif := v.getLsbD 9 })
    else .error gp0 := by
  have legal : (!((Flags.ofBits v).fi && t.flags.vip) && !(Flags.ofBits v).tf) = !(v.getLsbD 9 && t.flags.vip || v.getLsbD 8) := by
    rw [Bool.not_or]
    rfl
  simp only [State.popFlags, pop, ok_bind, vme_eq, require_bind, legal, decide_eq_true_eq, beq_iff_eq, Bool.not_eq_true']
  by_cases bad : (v.getLsbD 9 && t.flags.vip || v.getLsbD 8) = true
  · simp only [bad, if_true, Bool.true_eq_false, if_false]
  · simp only [bad, if_true]
    rfl

theorem popFlags_refused (plain : ¬(t.virtMode = false ∨ t.flags.iopl = 3)) (vme : t.cr4Bit 0 = false ∨ w ≠ .w16) :
    t.popFlags w = .error gp0 := by
  obtain ⟨virt, iopl⟩ := not_or.mp plain
  have off : ¬(t.cr4Bit 0 = true ∧ w = .w16) := by
    rintro ⟨on, narrow⟩
    exact vme.elim (fun h => absurd (h.symm.trans on) (by decide)) fun h => h narrow
  have mode : t.virtMode = true := by simpa using virt
  simp only [State.popFlags, mode, Bool.not_true, Bool.false_eq_true, if_false, beq_iff_eq, iopl, vme_eq, decide_eq_false off, require_false, error_bind]

/-! ### ENTER and LEAVE -/

theorem push_stackWidth {n : Nat} {v : Quad} (h : s.push n v = .ok t) : t.stackWidth = s.stackWidth := by
  rw [pushE_frame h]
  rfl

theorem copyDisplay_stackWidth {n : Nat} {bp : Quad} : ∀ {k i : Nat} {s t : State}, s.copyDisplay n bp k i = .ok t → t.stackWidth = s.stackWidth
  | 0, _, s, t, h => by
    cases h
    rfl
  | k + 1, i, s, t, h => by
    obtain ⟨v, -, h⟩ := bind_ok.mp h
    obtain ⟨u, push, h⟩ := bind_ok.mp h
    rw [copyDisplay_stackWidth h, push_stackWidth push]

/-- The display of ENTER: the frame pointers copied from the old frame, and that of the new one. -/
theorem enterDisplay_eq {z y : State} {n level : Nat} {bp frame : Quad}
    (h : if level = 0 then y = t else t.copyDisplay n bp (level - 1) 1 = .ok z ∧ z.push n frame = .ok y) :
    t.enterDisplay n level bp frame = .ok y ∧ y.stackWidth = t.stackWidth := by
  rw [State.enterDisplay]
  by_cases zero : level = 0
  · rw [if_pos zero] at h ⊢
    exact ⟨by rw [h], by rw [h]⟩
  · rw [if_neg zero] at h ⊢
    obtain ⟨copy, push⟩ := h
    rw [copy, ok_bind]
    exact ⟨push, (push_stackWidth push).trans (copyDisplay_stackWidth copy)⟩

theorem execEnter_eq {z y : State} {size : BitVec 16} {level : Byte} (tf : s.flags.tf = false) (push : s.start.push w.bytes s.gpr.rbp = .ok t)
    (display : if level.toNat % 32 = 0 then y = t
      else t.copyDisplay w.bytes s.gpr.rbp (level.toNat % 32 - 1) 1 = .ok z ∧ z.push w.bytes t.gpr.rsp = .ok y)
    (hu : u = y.writeGpr s.stackWidth .rsp (y.gpr.rsp - BitVec.ofNat 64 size.toNat))
    (access : u.access .ss (wrap s.stackWidth (uns s.stackWidth u.gpr.rsp)) w.bytes true = .ok ps) :
    exec (.enter w size level) s = .next (u.writeGpr w .rbp t.gpr.rsp) := by
  obtain ⟨made, width⟩ := enterDisplay_eq display
  have sw : y.stackWidth = s.stackWidth := width.trans (push_stackWidth (s := s.start) push)
  have hu' : y.writeGpr y.stackWidth .rsp (y.gpr.rsp - size.setWidth 64) = u := by rw [hu, sw, BitVec.ofNat_toNat]
  have usw : u.stackWidth = s.stackWidth := by
    rw [hu]
    exact sw
  have top : u.readGpr u.stackWidth .rsp = wrap s.stackWidth (uns s.stackWidth u.gpr.rsp) := by
    rw [usw]
    exact trunc_eq_wrap _ _
  have push' : s.start.push w.bytes s.start.gpr.rbp = .ok t := push
  have made' : t.enterDisplay w.bytes (level.toNat % 32) s.start.gpr.rbp t.gpr.rsp = .ok y := made
  rw [exec_enter, execEnter]
  apply run_ok tf
  simp only [push', made', ok_bind, hu', top, access]

theorem execLeave_eq (tf : s.flags.tf = false)
    (access : s.start.access .ss (wrap s.stackWidth (uns s.stackWidth s.gpr.rbp)) w.bytes false = .ok ps) :
    exec (.leave w) s = .next ((s.start.writeGpr s.stackWidth .rsp (BitVec.ofNat 64 (uns s.stackWidth s.gpr.rbp + w.bytes))).writeGpr w .rbp
      (BitVec.ofNat 64 (s.loadAt ps))) := by
  have at_ : uns s.stackWidth (s.start.writeGpr s.stackWidth .rsp (s.start.readGpr s.stackWidth .rbp)).gpr.rsp = uns s.stackWidth s.gpr.rbp :=
    (uns_mergeReg _ _ _).trans (uns_readGpr s s.stackWidth .rbp)
  have access' : (s.start.writeGpr s.stackWidth .rsp (s.start.readGpr s.stackWidth .rbp)).access .ss
      (wrap s.stackWidth (uns s.stackWidth (s.start.writeGpr s.stackWidth .rsp (s.start.readGpr s.stackWidth .rbp)).gpr.rsp)) w.bytes false = .ok ps := by
    rw [at_]
    exact (access_setGpr _ _ _ _ _).trans access
  have moved : mergeReg s.stackWidth (mergeReg s.stackWidth s.gpr.rsp (s.readGpr s.stackWidth .rbp))
      (mergeReg s.stackWidth s.gpr.rsp (s.readGpr s.stackWidth .rbp) + BitVec.ofNat 64 w.bytes) =
        mergeReg s.stackWidth s.gpr.rsp (BitVec.ofNat 64 (uns s.stackWidth s.gpr.rbp + w.bytes)) := by
    rw [mergeReg_mergeReg]
    refine mergeReg_congr ?_ _
    have low : uns s.stackWidth (mergeReg s.stackWidth s.gpr.rsp (s.readGpr s.stackWidth .rbp)) = uns s.stackWidth s.gpr.rbp :=
      (uns_mergeReg _ _ _).trans (uns_readGpr s s.stackWidth .rbp)
    rw [uns_add, Nat.add_mod, BitVec.toNat_ofNat, mod_width, uns_ofNat, Nat.add_mod (uns _ _)]
    congr 2
    rw [← low, uns, Nat.mod_mod]
  rw [exec_leave, execLeave]
  apply run_ok tf
  have pop := pop_of_access (t := s.start.writeGpr s.stackWidth .rsp (s.start.readGpr s.stackWidth .rbp)) access'
  simp only [start_stackWidth, pop, ok_bind]
  exact congrArg (fun v => Except.ok (State.writeGpr { s.start with gpr := { s.gpr with rsp := v } } w .rbp (BitVec.ofNat 64 (s.loadAt ps)))) moved

/-- Settles O51. -/
theorem stackResult : Obligations.StackResult := by
  intro s t u z y w rm g m n imm v size level ps slot p tf sw top below
  refine ⟨fun access => ⟨fun read => ?_, ?_, fun old => ?_⟩, fun access => ?_, fun x listed mode => ?_, fun x listed => ?_, ?_, execLeave_eq tf⟩
  · rw [exec_push, execPush]
    apply run_ok tf
    simp only [read, ok_bind]
    exact push_of_access (t := s.start) access
  · rw [exec_push, execPush]
    apply run_ok tf
    refine (push_of_access (t := s.start) access).trans ?_
    rw [trunc_toNat]
    rfl
  · have legal : (!(s.mode64 && oldSegment n)) = true := by
      cases mode : s.mode64 with
      | false => rfl
      | true => rcases old mode with rfl | rfl <;> rfl
    rw [exec_push, execPush]
    apply run_ok tf
    simp only [start_mode64, legal, require_true, ok_bind]
    refine (push_of_access (t := s.start) access).trans ?_
    rw [BitVec.toNat_setWidth_of_le (by decide)]
    rfl
  · intro v popped
    have pop : s.start.pop w.bytes = .ok (v, popped) := pop_of_access (t := s.start) access
    refine ⟨?_, fun place => ?_⟩
    · rw [exec_pop, execPop]
      apply run_ok tf
      simp only [State.popRM, pop, ok_bind]
      rfl
    · rw [exec_pop, execPop]
      apply run_ok tf
      simp only [State.popRM, pop, ok_bind]
      exact writeRM_of_place place
  · obtain ⟨pushes, pops⟩ := pusha_exec (s := s) x listed
    refine ⟨fun push => ?_, fun slots => ?_⟩
    · rw [pushes]
      apply run_ok tf
      rw [State.pushRegs, start_mode64, mode, Bool.not_false, require_true, ok_bind]
      exact push
    · rw [pops]
      exact run_ok tf (popRegs_eq mode slots)
  · obtain ⟨pushes, pops⟩ := pushf_exec (s := s) x listed
    intro f plain image
    refine ⟨fun h push => ?_, fun h vme narrow push => ?_, fun h off => ⟨?_, ?_⟩, fun pop => ?_⟩
    · rw [pushes]
      exact run_ok tf ((pushFlags_eq _).trans ((if_pos h).trans push))
    · rw [pushes]
      refine run_ok tf ((pushFlags_eq _).trans ((if_neg h).trans ((if_pos ⟨vme, narrow⟩).trans ?_)))
      rw [narrow]
      exact push
    · rw [pushes]
      refine run_exc ((pushFlags_eq _).trans ((if_neg h).trans (if_neg ?_)))
      rintro ⟨on, narrow⟩
      exact off.elim (fun h => absurd (h.symm.trans on) (by decide)) fun h => h narrow
    · rw [pops]
      exact run_exc (popFlags_refused h off)
    · intro loaded
      rw [pops]
      refine ⟨fun virt => ?_, fun virt iopl => ?_, fun h vme narrow => ?_⟩
      · refine run_ok tf ((popFlags_eq pop).trans ((if_pos virt).trans ?_))
        rw [popfFlags]
        simp only [beq_iff_eq, decide_eq_true_eq]
        rfl
      · exact run_ok tf ((popFlags_eq pop).trans ((if_neg (fun h => absurd (h.symm.trans virt) (by decide))).trans (if_pos iopl)))
      · obtain ⟨virt, iopl⟩ := not_or.mp h
        have path := (popFlags_eq pop).trans ((if_neg virt).trans ((if_neg iopl).trans (if_pos ⟨vme, narrow⟩)))
        by_cases bad : (v.getLsbD 9 && f.vip || v.getLsbD 8) = true
        · rw [if_pos bad]
          exact run_exc (path.trans (if_pos bad))
        · rw [if_neg bad]
          exact run_ok tf (path.trans (if_neg bad))
  · exact fun push display hu access => execEnter_eq tf push display hu access

end Sys2Proof.Machine
end

