-- ==== Sys2Proof/Proofs/Descriptors.lean ====
section
/-! PROOFS. The statement about the instructions over descriptor tables and the machine status word (52_sys_s_w.md R825, 50_sys_a_l.md
R726). -/

namespace Sys2Proof.Machine

/-- The state after reset, about to fall through to an instruction at 2^32, outside 64-bit mode. -/
def highNext : State := { State.reset with nextRip := 0x100000000 }

/-- LMSW writes CR0 as MOV CRn does, which clears rIP[63:32] outside 64-bit mode. -/
theorem lmsw_highNext : exec (.lmsw (.reg { r := .rax })) highNext = .next (highNext.start.setCr0 (mswCr0 highNext.ctl.cr0 0)) := by
  rw [exec_lmsw, execLmsw]
  exact run_ok rfl rfl

theorem lmsw_highNext_rip : (highNext.start.setCr0 (mswCr0 highNext.ctl.cr0 0)).rip = 0 := by decide

/-- Refutes O52: its clause for LMSW keeps the address of the next instruction, but a write of CR0 outside 64-bit mode clears
rIP[63:32] (10_state.md R44), which shows where that address is 2^32. -/
theorem not_descriptorInstructions : ¬ Obligations.DescriptorInstructions := by
  intro h
  obtain ⟨-, -, -, -, lmsw, -⟩ := h highNext .w16 (.reg { r := .rax }) .rax default { r := .rax } 0 0 0 (.mem []) [] [] rfl
  have same := (lmsw_highNext.symm.trans (lmsw rfl rfl rfl))
  have rip := congrArg State.rip (Host.Outcome.next.inj same)
  rw [lmsw_highNext_rip] at rip
  exact absurd rip (by decide)

end Sys2Proof.Machine
end

