-- ==== Sys2Proof/Proofs/FastCalls.lean ====
section
/-! PROOFS. The statement about the fast system calls (52_sys_s_w.md R831 to R835). -/

namespace Sys2Proof.Machine

variable {s t u : State}

/-- Without CR4.CET there is no shadow stack. -/
theorem shadowEnabled_no_cet (ctl : u.ctl = t.ctl) (cet : t.cr4Bit 23 = false) (level : BitVec 2) : u.shadowEnabled level = false := by
  have off : u.cr4Bit 23 = false := by rw [State.cr4Bit, ctl]; exact cet
  rw [State.shadowEnabled, State.sstkEnabled, off, Bool.false_and, Bool.false_and, Bool.false_and]

theorem setFlat_ctl (cs ss : SegReg) (cpl : BitVec 2) : (t.setFlat cs ss cpl).ctl = t.ctl := by
  have frame : (t.setCs cs cpl).ctl = t.ctl := by rw [State.setCs, enterMode_frame]; rfl
  exact frame

/-- Outside long mode a code segment is loaded without a change of the general registers. -/
theorem setCs_legacy (legacy : t.longMode = false) (cs : SegReg) (cpl : BitVec 2) :
    t.setCs cs cpl = { t.disarm with seg := { t.seg with cs := cs }, cpl := cpl } := by
  have stays : ({ t.disarm with seg := { t.seg with cs := cs }, cpl := cpl } : State).mode64 = false := by
    have kept : ({ t.disarm with seg := { t.seg with cs := cs }, cpl := cpl } : State).longMode = t.longMode := rfl
    rw [State.mode64, kept, legacy]
    rfl
  rw [State.setCs, State.enterMode, stays, Bool.and_false]
  exact if_neg Bool.false_ne_true

theorem setFlat_legacy (legacy : t.longMode = false) (cs ss : SegReg) (cpl : BitVec 2) :
    t.setFlat cs ss cpl = { t.disarm with seg := { t.seg with cs := cs, ss := ss }, cpl := cpl } := by
  rw [State.setFlat, setCs_legacy legacy]

theorem syscallLong_eq (cet : t.cr4Bit 23 = false) : t.syscallLong = 
    (((((t.syscallSegs true).setReg .rcx t.rip).setReg .r11 { t.flags with rf := false }.toBits).setFlags
      { Flags.ofBits (t.flags.toBits &&& ~~~t.msr.sfmask) with rf := false }).setRip (if t.mode64 then t.msr.lstar else t.msr.cstar)) := by
  have inner : ∀ f rip, (((((t.syscallSegs true).setReg .rcx t.rip).setReg .r11 { t.flags with rf := false }.toBits).setFlags f).setRip
      rip).ctl = t.ctl := fun _ _ => setFlat_ctl (t := t) (flatCode (t.syscallCs &&& 0xFFFC) 0 true) (flatStack (t.syscallCs + 8) 0) 0
  simp only [State.syscallLong, shadowEnabled_no_cet rfl cet, Bool.false_eq_true, if_false, shadowEnabled_no_cet (inner _ _) cet]

theorem sysretSsp_no_cet (ctl : u.ctl = t.ctl) (cet : t.cr4Bit 23 = false) : u.sysretSsp = u :=
  if_neg (by rw [shadowEnabled_no_cet ctl cet]; exact Bool.false_ne_true)

section

variable {mode : Bool} (feat : s.feat.sysEnterSysExit = true) (legacy : s.longMode = false)
include feat legacy

theorem needSysenter_ok (present : s.msr.sysenterCs.extractLsb' 0 16 &&& 0xFFFC ≠ 0) : s.start.needSysenter true = .ok () := by
  have sel : (s.start.sysenterSel != 0) = true := bne_iff_ne.mpr present
  rw [State.needSysenter, start_feat, start_longMode, feat, legacy, sel]
  rfl

theorem needSysenter_level : s.start.needSysenter false = .error gp0 := by
  rw [State.needSysenter, start_feat, start_longMode, feat, legacy]
  rfl

end

theorem needSysenter_long {mode : Bool} (long : s.longMode = true) : s.start.needSysenter mode = .error ud := by
  rw [State.needSysenter, start_longMode, long, Bool.not_true, Bool.and_false]
  rfl

/-- A write of 32 bits to a register clears its upper half. -/
theorem writeGpr_zero_extended (t : State) (r : Gpr) (v : Quad) : t.writeGpr .w32 r v = t.setReg r (BitVec.ofNat 64 (uns .w32 v)) :=
  congrArg (t.setReg r) (trunc_w32 v)

theorem not_kernel (h : s.protMode = false ∨ s.cpl ≠ 0) : (s.protMode && s.cpl == 0) = false := by
  rcases h with real | level
  · rw [real, Bool.false_and]
  · rw [beq_eq_false_iff_ne.mpr level, Bool.and_false]

/-- Settles O53. -/
theorem fastSystemCalls : Obligations.FastSystemCalls := by
  intro s w tf cet star callCs retCs sysCs enter back
  have entered : s.start.cr4Bit 23 = false := cet
  have returns : ∀ cs ss f rip, (((s.start.setFlat cs ss 3).setFlags f).setRip rip).sysretSsp = ((s.start.setFlat cs ss 3).setFlags f).setRip rip :=
    fun cs ss f rip => sysretSsp_no_cet (setFlat_ctl (t := s.start) cs ss 3) entered
  refine ⟨fun feat enabled => ⟨?long, ?legacy, ?ret64, ?ret, ?refused⟩, ?disabled, fun feat legacy present => ⟨?enter, ?exit, ?real, ?level⟩,
    ?longMode, ?swap, ?swapMode, ?swapLevel⟩
  case long =>
    intro long t
    rw [exec_syscall, execSyscall]
    apply run_ok tf
    simp only [start_feat, start_eferBit, start_longMode, feat, enabled, long, Bool.and_self, require_true, ok_bind, if_true,
      syscallLong_eq entered]
    rfl
  case legacy =>
    intro long
    rw [exec_syscall, execSyscall]
    apply run_ok tf
    simp only [start_feat, start_eferBit, start_longMode, feat, enabled, long, Bool.and_self, require_true, ok_bind, Bool.false_eq_true,
      if_false]
    have entry : enter (forcedCode (callCs &&& 0xFFFC) 0 false) (forcedStack (callCs + 8) 0) 0 = { s.start.disarm with
        seg := { s.seg with cs := forcedCode (callCs &&& 0xFFFC) 0 false, ss := forcedStack (callCs + 8) 0 }, cpl := 0 } :=
      setFlat_legacy (t := s.start) long _ _ 0
    rw [State.syscallLegacy, State.syscallSegs, setFlat_legacy (by exact long), entry, writeGpr_zero_extended, trunc_w32]
    rfl
  case ret64 =>
    intro prot level mode flags
    have size : ∀ w : Width, exec (.sysret w) s = .next (s.start.sysretLong w) := by
      intro w
      rw [exec_sysret, execSysret]
      apply run_ok tf
      simp only [start_feat, start_eferBit, start_protMode, State.start_cpl, start_mode64, feat, enabled, prot, level, mode, Bool.and_self,
        beq_self_eq_true, require_true, ok_bind, if_true]
    refine ⟨?_, fun narrow => ?_⟩
    · rw [size, State.sysretLong, returns, trunc_w32]
      rfl
    · rw [size, State.sysretLong, returns, decide_eq_false narrow, if_neg narrow, if_neg narrow, trunc_w32, trunc_w32]
      rfl
  case ret =>
    intro prot level mode
    rw [exec_sysret, execSysret]
    apply run_ok tf
    simp only [start_feat, start_eferBit, start_protMode, State.start_cpl, start_mode64, feat, enabled, prot, level, mode, Bool.and_self,
      beq_self_eq_true, require_true, ok_bind, Bool.false_eq_true, if_false]
    rw [State.sysretLegacy, returns, trunc_w32]
    rfl
  case refused =>
    intro bad
    rw [exec_sysret, execSysret]
    have check := not_kernel bad
    apply run_exc
    simp only [start_feat, start_eferBit, start_protMode, State.start_cpl, feat, enabled, check, Bool.and_self, require_true, ok_bind,
      require_false]
    rfl
  case disabled =>
    intro off
    have check : (s.feat.sysCallSysRet && s.eferBit 0) = false := by
      rcases off with h | h <;> simp [h]
    rw [exec_syscall, execSyscall, exec_sysret, execSysret]
    refine ⟨run_exc ?_, run_exc ?_⟩ <;> simp only [start_feat, start_eferBit, check, require_false] <;> rfl
  case enter =>
    intro pe
    rw [exec_sysenter, execSysenter]
    apply run_ok tf
    rw [start_pe, pe, needSysenter_ok feat legacy present, ok_bind, trunc_w32]
    rfl
  case exit =>
    intro prot level
    rw [exec_sysexit, execSysexit]
    apply run_ok tf
    rw [start_protMode, State.start_cpl, prot, level, Bool.true_and, beq_self_eq_true, needSysenter_ok feat legacy present, ok_bind, trunc_w32]
    rfl
  case real =>
    intro pe
    rw [exec_sysenter, execSysenter]
    apply run_exc
    rw [start_pe, pe, needSysenter_level feat legacy]
    rfl
  case level =>
    intro bad
    have check := not_kernel bad
    rw [exec_sysexit, execSysexit]
    apply run_exc
    rw [start_protMode, State.start_cpl, check, needSysenter_level feat legacy]
    rfl
  case longMode =>
    intro long
    rw [exec_sysenter, execSysenter, exec_sysexit, execSysexit]
    exact ⟨run_exc (by rw [needSysenter_long long]; rfl), run_exc (by rw [needSysenter_long long]; rfl)⟩
  case swap =>
    intro mode level
    rw [exec_swapgs, execSwapgs]
    apply run_ok tf
    rw [start_mode64, mode, require_true, ok_bind, needCpl0_of (t := s.start) level]
    rfl
  case swapMode =>
    intro mode
    rw [exec_swapgs, execSwapgs]
    apply run_exc
    rw [start_mode64, mode]
    rfl
  case swapLevel =>
    intro mode level
    have check : (s.cpl == 0) = false := beq_eq_false_iff_ne.mpr level
    rw [exec_swapgs, execSwapgs]
    apply run_exc
    rw [start_mode64, mode, require_true, ok_bind, State.needCpl0, State.start_cpl, check]
    rfl

end Sys2Proof.Machine
end

