-- ==== Sys2Proof/Proofs/SystemRegisters.lean ====
section
/-! PROOFS. The statement about the model-specific registers, the counters and the protection keys (51_sys_m_r.md R767 to R775,
52_sys_s_w.md R845, R846). -/

namespace Sys2Proof.Machine

variable {s t : State}

theorem perfValue_own (own : t.cfg.perf = .default) (index : Nat) (v : Quad) : t.perfValue index v = v := by
  rw [State.perfValue, own]

/-- A write of EFER keeps LMA. -/
theorem newEfer_eq (old v : Quad) : newEfer old v = if old.getLsbD 10 then v ||| 0x400 else v &&& ~~~(0x400 : Quad) := by
  rw [newEfer, show (0x400 : Quad) = BitVec.twoPow 64 10 from rfl, BitVec.and_twoPow]
  split
  · refine BitVec.eq_of_getElem_eq fun i small => ?_
    rw [BitVec.getElem_or, BitVec.getElem_and, BitVec.getElem_not, BitVec.getElem_or]
    cases (BitVec.twoPow 64 10)[i] <;> simp
  · exact BitVec.or_zero

/-- What a row of the table of model-specific registers says. -/
structure State.MsrRow (t : State) (x : BitVec 32 × Quad × Bool × Quad × (Quad → State)) : Prop where
  read : t.readMsr x.1 = x.2.1
  canonical : canonicalMsr x.1 = x.2.2.1
  reserved : t.msrReserved x.1 = x.2.2.2.1
  write : ∀ v, t.setMsr x.1 v = x.2.2.2.2 v

theorem msrTable_rows (own : t.cfg.perf = .default) : ∀ x ∈ msrTable t, t.MsrRow x := by
  simp only [msrTable, List.forall_mem_cons, List.not_mem_nil, false_implies, implies_true, and_true]
  and_intros
  any_goals exact ⟨rfl, rfl, rfl, fun _ => rfl⟩
  · exact ⟨perfValue_own own 0 _, rfl, rfl, fun _ => rfl⟩
  · exact ⟨perfValue_own own 1 _, rfl, rfl, fun _ => rfl⟩
  · refine ⟨rfl, rfl, rfl, fun v => ?_⟩
    show { t with ctl := { t.ctl with efer := newEfer t.ctl.efer v } } = _
    rw [newEfer_eq]

theorem require_and (a b : Bool) (e : Trap) : (require a e >>= fun _ => require b e) = require (a && b) e := by
  cases a <;> rfl

/-- The values that WRMSR accepts. -/
abbrev State.msrLegal (t : State) (n : BitVec 32) (v : Quad) : Prop :=
  (canonicalMsr n = true → t.canonical v = true) ∧ v &&& t.msrReserved n = 0 ∧
    (n = 0xC0000080 → t.pg = true → v.getLsbD 8 = t.eferBit 8)

theorem checkMsr_eq (n : BitVec 32) (v : Quad) : t.checkMsr n v = require (decide (t.msrLegal n v)) gp0 := by
  have lme : (!(n == 0xC0000080 && t.pg && (v ^^^ t.ctl.efer).getLsbD 8)) =
      decide (n = 0xC0000080 → t.pg = true → v.getLsbD 8 = t.eferBit 8) := by
    rw [BitVec.getLsbD_xor, State.eferBit]
    by_cases efer : n = 0xC0000080
    · subst efer
      cases t.pg <;> cases v.getLsbD 8 <;> cases t.ctl.efer.getLsbD 8 <;> rfl
    · rw [beq_eq_false_iff_ne.mpr efer, Bool.false_and, Bool.false_and, Bool.not_false, decide_eq_true fun h => absurd h efer]
  have canonical : (!canonicalMsr n || t.canonical v) = decide (canonicalMsr n = true → t.canonical v = true) := by
    cases canonicalMsr n <;> cases t.canonical v <;> rfl
  rw [State.checkMsr, lme, canonical, require_and, require_and, Bool.decide_and, Bool.decide_and, Bool.and_left_comm, beq_eq_decide]

theorem needMsr_ok {n : BitVec 32} (feat : t.feat.msr = true) (level : t.cpl = 0) (known : n ∈ t.cfg.msrs) : t.needMsr n = .ok () := by
  rw [State.needMsr, feat, require_true, ok_bind, needCpl0_of level, ok_bind, List.contains_iff_mem.mpr known, require_true]

theorem needMsr_refused {n : BitVec 32} (feat : t.feat.msr = true) (bad : t.cpl ≠ 0 ∨ n ∉ t.cfg.msrs) : t.needMsr n = .error gp0 := by
  rw [State.needMsr, feat, require_true, ok_bind, State.needCpl0, require_and,
    show (t.cpl == 0 && t.cfg.msrs.contains n) = false by
      rcases bad with level | unknown
      · rw [beq_eq_false_iff_ne.mpr level, Bool.false_and]
      · rw [Bool.eq_false_iff.mpr fun h => unknown (List.contains_iff_mem.mp h), Bool.and_false],
    require_false]

/-- The performance counters that exist. -/
theorem hasCounter_eq (n : Nat) : t.hasCounter n = (decide (n < 4) || (t.feat.perfCtrExtCore && 4 ≤ n && n < 6) ||
    (t.feat.perfCtrExtNb && 6 ≤ n && n < 10) || (t.feat.perfCtrExtL2i && 10 ≤ n && n < 14)) := by
  rw [State.hasCounter, Bool.eq_iff_iff]
  simp only [Bool.or_eq_true, Bool.and_eq_true, decide_eq_true_iff]
  cases t.feat.perfCtrExtCore <;> cases t.feat.perfCtrExtNb <;> cases t.feat.perfCtrExtL2i <;> simp only [Bool.false_eq_true, true_and,
    false_and, and_true, and_false, or_false] <;> omega

/-- An instruction restricted to CPL 0 by a bit of CR4. -/
theorem openLevel_eq (n : Nat) : (s.cpl == 0 || !s.cr4Bit n) = decide (s.cpl = 0 ∨ s.cr4Bit n = false) := by
  rw [Bool.decide_or, Bool.decide_eq_false, beq_eq_decide]

theorem low32_zero (r : Gpr) : (s.readGpr .w32 r == 0) = decide (uns .w32 (s.reg r) = 0) := by
  rw [Bool.eq_iff_iff, beq_iff_eq, decide_eq_true_iff, ← BitVec.toNat_inj, readGpr_toNat]
  rfl

theorem uns_low32 (r : Gpr) : uns .w32 (s.reg r) = 0 ↔ (s.reg r).extractLsb' 0 32 = 0 := by
  rw [← BitVec.toNat_inj, BitVec.extractLsb'_toNat]
  rfl

/-- Settles O54. -/
theorem modelSpecificRegisters : Obligations.ModelSpecificRegisters := by
  intro s t tf own n v stop
  refine ⟨fun feat level known x row number => ⟨?read, fun legal => ?write, fun bad => ?bad⟩, fun feat bad => ⟨?noRead, ?noWrite⟩,
    ⟨fun here level x listed index => ?counter, fun bad => ?noCounter⟩, ⟨fun feat => ⟨fun allowed => ?tsc, fun bad => ?noTsc⟩, fun feat => ⟨fun allowed => ?tscp, fun bad => ?noTscp⟩⟩,
    fun on => ⟨fun key => ?rdpkru, fun key upper => ?wrpkru, fun key => ?key, fun upper => ?upper⟩, fun off => ?noKeys, fun raised => ?rsm⟩
  case read =>
    obtain ⟨read, -, -, -⟩ := msrTable_rows (t := s.start) own x row
    rw [exec_rdmsr, execRdmsr]
    apply run_ok tf
    show (s.start.needMsr n >>= fun _ => .ok (s.start.setEdxEax (s.start.readMsr n))) = _
    rw [needMsr_ok (t := s.start) feat level known, ok_bind, setEdxEax_eq, ← number, read]
    rfl
  case write =>
    obtain ⟨-, canonical, reserved, write⟩ := msrTable_rows (t := s.start) own x row
    rw [exec_wrmsr, execWrmsr]
    apply run_ok tf
    have accepted : s.start.msrLegal n v := by
      rw [State.msrLegal, ← number, canonical, reserved, number]
      exact legal
    show (s.start.needMsr n >>= fun _ => s.start.checkMsr n v >>= fun _ => .ok (s.start.setMsr n v)) = _
    rw [needMsr_ok (t := s.start) feat level known, ok_bind, checkMsr_eq, decide_eq_true accepted, require_true, ok_bind, ← number, write]
  case bad =>
    obtain ⟨-, canonical, reserved, -⟩ := msrTable_rows (t := s.start) own x row
    have refused : ¬s.start.msrLegal n v := by
      rw [State.msrLegal, ← number, canonical, reserved, number]
      exact bad
    show exec .wrmsr s = _
    rw [exec_wrmsr, execWrmsr]
    apply run_exc
    show (s.start.needMsr n >>= fun _ => s.start.checkMsr n v >>= fun _ => .ok (s.start.setMsr n v)) = _
    rw [needMsr_ok (t := s.start) feat level known, ok_bind, checkMsr_eq, decide_eq_false refused]
    rfl
  case noRead =>
    show exec .rdmsr s = _
    rw [exec_rdmsr, execRdmsr]
    apply run_exc
    show (s.start.needMsr n >>= _) = _
    rw [needMsr_refused (t := s.start) feat bad]
    rfl
  case noWrite =>
    show exec .wrmsr s = _
    rw [exec_wrmsr, execWrmsr]
    apply run_exc
    show (s.start.needMsr n >>= _) = _
    rw [needMsr_refused (t := s.start) feat bad]
    rfl
  case counter =>
    have value : s.msr.perf.toList.getD n.toNat 0 = x.1 := by
      rw [List.getD_eq_getElem?_getD, ← index, List.mem_zipIdx_iff_getElem?.mp listed]
      rfl
    rw [exec_rdpmc, execRdpmc]
    apply run_ok tf
    have pce : (s.start.cpl == 0 || s.start.cr4Bit 8) = true := by
      rcases level with h | h <;> simp [h]
    show (require (s.start.cpl == 0 || s.start.cr4Bit 8) gp0 >>= fun _ => require (s.start.hasCounter n.toNat) gp0 >>= fun _ =>
      .ok (s.start.setEdxEax (s.start.perfValue (n.toNat + 2) (s.msr.perf.toList.getD n.toNat 0)))) = _
    rw [pce, require_true, ok_bind, (hasCounter_eq (t := s.start) n.toNat).trans here, require_true, ok_bind, perfValue_own (t := s.start) own, value,
      setEdxEax_eq]
    rfl
  case noCounter =>
    show exec .rdpmc s = _
    rw [exec_rdpmc, execRdpmc]
    apply run_exc
    rw [State.start_cpl, start_cr4Bit]
    cases pce : (s.cpl == 0 || s.cr4Bit 8) with
    | false => rfl
    | true =>
      have gone : s.start.hasCounter n.toNat = false := by
        rcases bad with none | ⟨level, closed⟩
        · exact (hasCounter_eq (t := s.start) n.toNat).trans none
        · rw [beq_eq_false_iff_ne.mpr level, closed] at pce
          exact absurd pce Bool.false_ne_true
      rw [require_true, ok_bind]
      show (require (s.start.hasCounter n.toNat) gp0 >>= fun _ => _) = _
      rw [gone]
      rfl
  case tsc =>
    rw [exec_rdtsc, execRdtsc]
    apply run_ok tf
    rw [start_feat, feat, require_true, ok_bind, State.needTsd, State.start_cpl, start_cr4Bit, openLevel_eq, decide_eq_true allowed,
      require_true, ok_bind, setEdxEax_eq]
    rfl
  case noTsc =>
    show exec .rdtsc s = _
    rw [exec_rdtsc, execRdtsc]
    apply run_exc
    rw [start_feat, feat, require_true, ok_bind, State.needTsd, State.start_cpl, start_cr4Bit, openLevel_eq, decide_eq_false bad]
    rfl
  case tscp =>
    rw [exec_rdtscp, execRdtscp]
    apply run_ok tf
    rw [start_feat, feat, require_true, ok_bind, State.needTsd, State.start_cpl, start_cr4Bit, openLevel_eq, decide_eq_true allowed,
      require_true, ok_bind, setEdxEax_eq, show BitVec.ofNat 64 (s.msr.tscAux.toNat % 2 ^ 32) = trunc .w32 s.msr.tscAux from
        (trunc_w32 _).symm, writeGpr_trunc]
    rfl
  case noTscp =>
    show exec .rdtscp s = _
    rw [exec_rdtscp, execRdtscp]
    apply run_exc
    rw [start_feat, feat, require_true, ok_bind, State.needTsd, State.start_cpl, start_cr4Bit, openLevel_eq, decide_eq_false bad]
    rfl
  case rdpkru =>
    have zero : (s.start.readGpr .w32 .rcx == 0) = true := by
      rw [start_readGpr, low32_zero, decide_eq_true ((uns_low32 .rcx).mpr key)]
    rw [exec_rdpkru, execRdpkru]
    apply run_ok tf
    have value : s.pkru.setWidth 64 = BitVec.ofNat 64 s.pkru.toNat := BitVec.eq_of_toNat_eq (by rw [BitVec.toNat_setWidth, BitVec.toNat_ofNat])
    rw [start_cr4Bit, on, require_true, ok_bind, zero, require_true, ok_bind, ← value]
    rfl
  case wrpkru =>
    have zero : (s.start.readGpr .w32 .rcx == 0 && s.start.readGpr .w32 .rdx == 0) = true := by
      rw [start_readGpr, low32_zero, start_readGpr, low32_zero, decide_eq_true ((uns_low32 .rcx).mpr key),
        decide_eq_true (p := uns .w32 (s.reg .rdx) = 0) upper]
      rfl
    rw [exec_wrpkru, execWrpkru]
    apply run_ok tf
    rw [start_cr4Bit, on, require_true, ok_bind, zero, require_true, ok_bind]
    have low : s.gpr.rax.extractLsb' 0 32 = BitVec.ofNat 32 (uns .w32 s.gpr.rax) := BitVec.eq_of_toNat_eq (by
      rw [BitVec.extractLsb'_toNat, BitVec.toNat_ofNat]
      exact (Nat.mod_mod _ _).symm)
    rw [← low]
    rfl
  case key =>
    have given : (s.start.readGpr .w32 .rcx == 0) = false := by
      rw [start_readGpr, low32_zero, decide_eq_false fun h => key ((uns_low32 .rcx).mp h)]
    show exec .rdpkru s = _ ∧ exec .wrpkru s = _
    rw [exec_rdpkru, execRdpkru, exec_wrpkru, execWrpkru]
    refine ⟨run_exc ?_, run_exc ?_⟩ <;> rw [start_cr4Bit, on, require_true, ok_bind, given] <;> rfl
  case upper =>
    have given : (s.start.readGpr .w32 .rcx == 0 && s.start.readGpr .w32 .rdx == 0) = false := by
      rw [start_readGpr, start_readGpr, low32_zero .rdx, decide_eq_false (p := uns .w32 (s.reg .rdx) = 0) upper, Bool.and_false]
    show exec .wrpkru s = _
    rw [exec_wrpkru, execWrpkru]
    apply run_exc
    rw [start_cr4Bit, on, require_true, ok_bind, given]
    rfl
  case noKeys =>
    rw [exec_rdpkru, execRdpkru, exec_wrpkru, execWrpkru]
    exact ⟨run_exc (by rw [start_cr4Bit, off]; rfl), run_exc (by rw [start_cr4Bit, off]; rfl)⟩
  case rsm =>
    rw [exec_rsm, execRsm]
    exact (run_exc rfl).trans (raise_ok (x := { name := .ud }) raised)

end Sys2Proof.Machine
end

