-- ==== Sys2Proof/Proofs/ShadowTokens.lean ====
section
/-! PROOFS. The statement about the shadow-stack instructions and the operations shared by transfers (50_sys_a_l.md R706, R708,
51_sys_m_r.md R770, R776, 52_sys_s_w.md R820, R821, R847, R848, 20_memory.md R117). -/

namespace Sys2Proof.Machine

variable {s t : State}

/-! ### The fields of a token -/

/-- A value with its low `k` bits cleared. -/
theorem clear_low (v : Quad) (k : Nat) : v &&& ~~~BitVec.ofNat 64 (2 ^ k - 1) = BitVec.ofNat 64 (v.toNat / 2 ^ k * 2 ^ k) := by
  refine BitVec.eq_of_getLsbD_eq fun i small => ?_
  rw [BitVec.getLsbD_and, BitVec.getLsbD_not, mask_getLsbD _ _ small, BitVec.getLsbD_ofNat, Nat.mul_comm, Nat.testBit_two_pow_mul,
    Nat.testBit_div_two_pow, decide_eq_true small, ← BitVec.testBit_toNat]
  by_cases low : i < k
  · rw [decide_eq_true low, decide_eq_false (Nat.not_le.mpr low)]
    simp
  · rw [decide_eq_false low, decide_eq_true (Nat.not_lt.mp low), Nat.sub_add_cancel (Nat.not_lt.mp low)]
    simp

theorem clear_low_toNat (v : Quad) (k : Nat) : (v &&& ~~~BitVec.ofNat 64 (2 ^ k - 1)).toNat = v.toNat / 2 ^ k * 2 ^ k := by
  rw [clear_low, BitVec.toNat_ofNat, Nat.mod_eq_of_lt (Nat.lt_of_le_of_lt (Nat.div_mul_le_self _ _) v.isLt)]

theorem bit_zero (v : Quad) : v.getLsbD 0 = decide (v.toNat % 2 = 1) := by
  rw [← BitVec.testBit_toNat, Nat.testBit_zero]

/-- A busy token names its own address and has bit 0 set. -/
theorem busy_eq (token lin : Quad) : (token.getLsbD 0 && (token &&& ~~~(1 : Quad)) == lin) =
    decide (token.toNat = lin.toNat + 1 ∧ lin.toNat % 2 = 0) := by
  have base := clear_low_toNat token 1
  rw [Bool.eq_iff_iff, Bool.and_eq_true, bit_zero, decide_eq_true_iff, decide_eq_true_iff, beq_iff_eq, ← BitVec.toNat_inj,
    show (1 : Quad) = BitVec.ofNat 64 (2 ^ 1 - 1) from rfl, base]
  omega

theorem upper_zero (v : Quad) : (v.extractLsb' 32 32 == 0) = decide (v.toNat < 2 ^ 32) := by
  rw [Bool.eq_iff_iff, beq_iff_eq, decide_eq_true_iff, ← BitVec.toNat_inj, BitVec.extractLsb'_toNat, Nat.shiftRight_eq_div_pow,
    show (0 : BitVec 32).toNat = 0 from rfl]
  have := v.isLt
  omega

/-- A free token names its own aligned address. -/
theorem free_eq (token ssp : Quad) (mode : Bool) (aligned : ssp.toNat % 8 = 0) :
    ((mode || token.extractLsb' 32 32 == 0) && !token.getLsbD 0 && (token &&& ~~~(1 : Quad)) == ssp) =
      decide (token.toNat = ssp.toNat ∧ (mode = true ∨ token.toNat < 2 ^ 32)) := by
  have base := clear_low_toNat token 1
  rw [Bool.eq_iff_iff, Bool.and_eq_true, Bool.and_eq_true, Bool.or_eq_true, Bool.not_eq_true', bit_zero, upper_zero, decide_eq_true_iff,
    decide_eq_true_iff, decide_eq_false_iff_not, beq_iff_eq, ← BitVec.toNat_inj, show (1 : Quad) = BitVec.ofNat 64 (2 ^ 1 - 1) from rfl, base]
  cases mode
  · simp only [Bool.false_eq_true, false_or]
    omega
  · simp only [true_or, true_and, and_true]
    omega

theorem loadAt_quad {ps : List Nat} (h : ps.length = 8) : (BitVec.ofNat 64 (s.loadAt ps)).toNat = s.loadAt ps := by
  rw [BitVec.toNat_ofNat, Nat.mod_eq_of_lt (loadAt_lt_quad (Nat.le_of_eq h))]

/-- The release of a token, or the check of one that is kept. -/
theorem clearToken_eq {lin : Quad} {keep : Bool} {ps qs : List Nat} (read : s.sstkSpan (s.cpl == 3) false lin 8 = .ok ps)
    (write : s.sstkSpan (s.cpl == 3) true lin 8 = .ok qs) : s.clearToken lin keep = .ok (s.storeAt qs
      (if (s.loadAt ps = lin.toNat + 1 ∧ lin.toNat % 2 = 0) ∧ keep = false then s.loadAt ps - 1 else s.loadAt ps)) := by
  have token : (BitVec.ofNat 64 (s.loadAt ps)).toNat = s.loadAt ps := loadAt_quad (sstkSpan_length read)
  have base := clear_low_toNat (BitVec.ofNat 64 (s.loadAt ps)) 1
  rw [State.clearToken, sstkRead_of_span read, ok_bind]
  simp only [busy_eq, sstkWrite_of_span write, token]
  by_cases busy : s.loadAt ps = lin.toNat + 1 ∧ lin.toNat % 2 = 0
  · cases keep
    · rw [decide_eq_true busy, Bool.not_false, Bool.true_and, if_pos rfl, if_pos ⟨busy, rfl⟩, show (1 : Quad) = BitVec.ofNat 64 (2 ^ 1 - 1) from rfl, base, token]
      congr 2
      omega
    · rw [Bool.not_true, Bool.and_false, if_neg Bool.false_ne_true, if_neg fun h => absurd h.2 (by decide), token]
  · rw [decide_eq_false busy, Bool.false_and, if_neg Bool.false_ne_true, if_neg fun h => busy h.1, token]

/-- A token that is free for the stack at `ssp`. -/
def freeToken (mode : Bool) (ssp token : Quad) : Bool :=
  (mode || token.extractLsb' 32 32 == 0) && !token.getLsbD 0 && (token &&& ~~~(1 : Quad)) == ssp

/-- A free token is taken; another one is written back. -/
theorem takeToken_bind {ssp : Quad} {ps qs : List Nat} {mode : Bool} (aligned : ssp.toNat % 8 = 0)
    (read : s.sstkSpan (s.cpl == 3) false ssp 8 = .ok ps) (write : s.sstkSpan (s.cpl == 3) true ssp 8 = .ok qs) (e : Trap)
    (k : State → Res State) :
    (s.sstkRead ssp 8 >>= fun token => s.sstkWrite ssp 8 (if freeToken mode ssp token then token ||| 1 else token) >>= fun t =>
      require (freeToken mode ssp token) e >>= fun _ => k t) =
    if s.loadAt ps = ssp.toNat ∧ (mode = true ∨ s.loadAt ps < 2 ^ 32) then k (s.storeAt qs (s.loadAt ps + 1)) else .error e := by
  have token : (BitVec.ofNat 64 (s.loadAt ps)).toNat = s.loadAt ps := loadAt_quad (sstkSpan_length read)
  have free : freeToken mode ssp (BitVec.ofNat 64 (s.loadAt ps)) =
      decide (s.loadAt ps = ssp.toNat ∧ (mode = true ∨ s.loadAt ps < 2 ^ 32)) := by
    rw [freeToken, free_eq _ _ _ aligned, token]
  rw [sstkRead_of_span read, ok_bind, free, sstkWrite_of_span write, ok_bind]
  by_cases h : s.loadAt ps = ssp.toNat ∧ (mode = true ∨ s.loadAt ps < 2 ^ 32)
  · have set : (BitVec.ofNat 64 (s.loadAt ps) ||| 1).toNat = s.loadAt ps + 1 := by
      have even : 2 ^ 1 * (s.loadAt ps / 2) = s.loadAt ps := by omega
      have low := Nat.two_pow_add_eq_or_of_lt (i := 1) (b := 1) (by decide) (s.loadAt ps / 2)
      rw [even] at low
      rw [BitVec.toNat_or, token]
      exact low.symm
    rw [if_pos h, decide_eq_true h, if_pos rfl, set, require_true, ok_bind]
  · rw [if_neg h, decide_eq_false h]
    rfl

theorem setTokenBusy_eq {ssp : Quad} {ps qs : List Nat} (read : s.sstkSpan (s.cpl == 3) false ssp 8 = .ok ps)
    (write : s.sstkSpan (s.cpl == 3) true ssp 8 = .ok qs) : s.setTokenBusy ssp =
      if ssp.toNat % 8 = 0 ∧ s.loadAt ps = ssp.toNat ∧ (s.mode64 = true ∨ s.loadAt ps < 2 ^ 32) then .ok (s.storeAt qs (s.loadAt ps + 1))
      else .error gp0 := by
  rw [State.setTokenBusy, low3_zero]
  by_cases aligned : ssp.toNat % 8 = 0
  · simp only [aligned, true_and]
    exact takeToken_bind aligned read write gp0 .ok
  · rw [decide_eq_false aligned, if_neg fun h => aligned h.1]
    rfl

theorem bit_two (v : Quad) : v.getLsbD 2 = decide (v.toNat / 4 % 2 = 1) := by
  rw [← BitVec.testBit_toNat, Nat.testBit_eq_decide_div_mod_eq]

theorem alignSsp_even (h : s.cet.ssp.toNat / 4 % 2 = 0) : s.alignSsp = .ok s := by
  rw [State.alignSsp, bit_two, decide_eq_false (by omega)]
  rfl

theorem alignSsp_odd {ps : List Nat} (h : s.cet.ssp.toNat / 4 % 2 = 1) (write : s.sstkSpan (s.cpl == 3) true (s.cet.ssp - 4) 4 = .ok ps) :
    s.alignSsp = .ok ((s.storeAt ps 0).setSsp (s.cet.ssp - 4)) := by
  rw [State.alignSsp, bit_two, decide_eq_true h, if_pos rfl, sstkWrite_of_span write]
  rfl

theorem pushSsFrame_eq {sel : BitVec 16} {lip old : Quad} {ps qs rs : List Nat}
    (cs : s.sstkSpan (s.cpl == 3) true (s.cet.ssp - 8) 8 = .ok ps)
    (mid : (s.storeAt ps sel.toNat).sstkSpan (s.cpl == 3) true (s.cet.ssp - 16) 8 = .ok qs)
    (last : ((s.storeAt ps sel.toNat).storeAt qs lip.toNat).sstkSpan (s.cpl == 3) true (s.cet.ssp - 24) 8 = .ok rs) :
    s.pushSsFrame sel lip old =
      .ok ((((s.storeAt ps sel.toNat).storeAt qs lip.toNat).storeAt rs old.toNat).setSsp (s.cet.ssp - 24)) := by
  have wide : (sel.setWidth 64).toNat = sel.toNat := BitVec.toNat_setWidth_of_le (by decide)
  rw [State.pushSsFrame, sstkWrite_of_span cs, ok_bind, wide, sstkWrite_of_span (by exact mid), ok_bind, sstkWrite_of_span (by exact last)]
  rfl

theorem popSsFrame_eq {sel : BitVec 16} {lip : Quad} {cpl : BitVec 2} {ps qs rs : List Nat}
    (cs : s.sstkSpan (cpl == 3) false (s.cet.ssp + 16) 8 = .ok ps) (mid : s.sstkSpan (cpl == 3) false (s.cet.ssp + 8) 8 = .ok qs)
    (last : s.sstkSpan (cpl == 3) false s.cet.ssp 8 = .ok rs) : s.popSsFrame sel lip cpl =
      if s.loadAt ps = sel.toNat ∧ s.loadAt qs = lip.toNat ∧ s.loadAt rs % 4 = 0 then
        .ok (BitVec.ofNat 64 (s.loadAt rs), s.setSsp (s.cet.ssp + 24))
      else .error (cp .farRet) := by
  have base : s.cet.ssp + 0 = s.cet.ssp := BitVec.add_zero _
  have same : (sel.setWidth 64 == BitVec.ofNat 64 (s.loadAt ps)) = decide (s.loadAt ps = sel.toNat) := by
    rw [Bool.eq_iff_iff, beq_iff_eq, decide_eq_true_iff, ← BitVec.toNat_inj, loadAt_quad (sstkSpan_length cs),
      BitVec.toNat_setWidth_of_le (by decide), eq_comm]
  have place : (lip == BitVec.ofNat 64 (s.loadAt qs)) = decide (s.loadAt qs = lip.toNat) := by
    rw [Bool.eq_iff_iff, beq_iff_eq, decide_eq_true_iff, ← BitVec.toNat_inj, loadAt_quad (sstkSpan_length mid), eq_comm]
  have low : ((BitVec.ofNat 64 (s.loadAt rs)).extractLsb' 0 2 == 0) = decide (s.loadAt rs % 4 = 0) := by
    rw [Bool.eq_iff_iff, beq_iff_eq, decide_eq_true_iff, ← BitVec.toNat_inj, BitVec.extractLsb'_toNat, loadAt_quad (sstkSpan_length last)]
    rfl
  simp only [State.popSsFrame, base, cs, mid, last, ok_bind, same, place, low, require_bind, decide_eq_true_iff]
  by_cases hs : s.loadAt ps = sel.toNat
  · by_cases hp : s.loadAt qs = lip.toNat
    · by_cases hl : s.loadAt rs % 4 = 0
      · rw [if_pos hs, if_pos hp, if_pos hl, if_pos ⟨hs, hp, hl⟩]
      · rw [if_pos hs, if_pos hp, if_neg hl, if_neg fun h => hl h.2.2]
    · rw [if_pos hs, if_neg hp, if_neg fun h => hp h.2.1]
  · rw [if_neg hs, if_neg fun h => hs h.1]

/-! ### The instructions -/

theorem bit_one (v : Quad) : v.getLsbD 1 = decide (v.toNat / 2 % 2 = 1) := by
  rw [← BitVec.testBit_toNat, Nat.testBit_eq_decide_div_mod_eq]

/-- A restore token names the end of the stack that it stands on and has the mode in its low bits. -/
theorem restoreValid_eq (mode : Bool) (token lin : Quad) : restoreValid mode token lin =
    decide (token.toNat % 4 = mode.toNat ∧ (mode = true ∨ token.toNat < 2 ^ 32) ∧
      (token.toNat + 2 ^ 64 - mode.toNat - 8) % 2 ^ 64 / 8 * 8 = lin.toNat) := by
  have base := clear_low_toNat token 1
  have top := clear_low_toNat ((token &&& ~~~(1 : Quad)) - 8) 3
  rw [BitVec.toNat_sub, show (1 : Quad) = BitVec.ofNat 64 (2 ^ 1 - 1) from rfl, base, show (8 : Quad).toNat = 8 from rfl] at top
  have small := token.isLt
  rw [Bool.eq_iff_iff, restoreValid, bit_one, bit_zero, upper_zero, Bool.and_eq_true, Bool.and_eq_true, Bool.and_eq_true, beq_iff_eq,
    beq_iff_eq, ← BitVec.toNat_inj, show (1 : Quad) = BitVec.ofNat 64 (2 ^ 1 - 1) from rfl,
    show (7 : Quad) = BitVec.ofNat 64 (2 ^ 3 - 1) from rfl, top, decide_eq_true_iff, Bool.not_eq_true', decide_eq_false_iff_not,
    Bool.or_eq_true, decide_eq_true_iff]
  cases mode
  · simp only [Bool.false_eq_true, false_or, decide_eq_false_iff_not, Bool.toNat_false]
    omega
  · simp only [true_or, true_and, and_true, decide_eq_true_iff, Bool.toNat_true]
    omega

/-- The token that RSTORSSP leaves: the old SSP, bit 1, and the mode in bit 0. -/
theorem previousToken_toNat (ssp : Quad) (mode : Bool) : (ssp ||| bit mode ||| 2).toNat = ssp.toNat ||| (mode.toNat + 2) := by
  have low : ((bit mode : Quad) ||| 2).toNat = mode.toNat + 2 := by cases mode <;> rfl
  rw [BitVec.or_assoc, BitVec.toNat_or, low]

theorem storeAt_mod (ps : List Nat) : ∀ (s : State) (v : Nat), s.storeAt ps (v % 256 ^ ps.length) = s.storeAt ps v := by
  suffices h : ∀ (m : List Host.Cell) (v : Nat), Memory.store m ps (v % 256 ^ ps.length) = Memory.store m ps v from
    fun s v => by rw [State.storeAt, h, State.storeAt]
  induction ps with
  | nil => exact fun m v => rfl
  | cons a as ih =>
    intro m v
    have head : BitVec.ofNat 8 (v % 256 ^ (as.length + 1)) = BitVec.ofNat 8 v := by
      apply BitVec.eq_of_toNat_eq
      rw [BitVec.toNat_ofNat, BitVec.toNat_ofNat]
      exact Nat.mod_mod_of_dvd v ⟨256 ^ as.length, Nat.pow_succ'⟩
    have tail : v % 256 ^ (as.length + 1) / 256 = v / 256 % 256 ^ as.length := by
      rw [Nat.pow_succ', Nat.mod_mul_right_div_self]
    rw [List.length_cons, Memory.store, Memory.store, head, tail, ih]

theorem sstkWrite_low {lin : Quad} {n : Nat} {ps : List Nat} (h : s.sstkSpan (s.cpl == 3) true lin n = .ok ps) (v : Quad) :
    s.sstkWrite lin n v = .ok (s.storeAt ps (v.toNat % 256 ^ n)) := by
  rw [sstkWrite_of_span h, ← storeAt_mod ps s v.toNat, sstkSpan_length h]

section

variable (feat : s.feat.cetSs = true)
include feat

theorem needShadow_eq : s.start.needShadow = if s.shadowEnabled s.cpl = true then .ok () else .error ud := by
  rw [State.needShadow, start_feat, start_shadowEnabled, State.start_cpl, feat, Bool.true_and]
  rfl

theorem needBusy_ok (prot : s.protMode = true) (cet : s.cr4Bit 23 = true) (enabled : s.cet.sCet.getLsbD 0 = true) (level : s.cpl = 0) :
    s.start.needBusy = .ok () := by
  rw [State.needBusy, start_feat, start_protMode, start_cr4Bit, State.start_cet, feat, prot, cet, enabled]
  exact needCpl0_of (t := s.start) level

theorem wruss_eq {n : Nat} {m : Mem} {r : Gpr} {lin : Quad} {ps : List Nat} (prot : s.protMode = true) (cet : s.cr4Bit 23 = true)
    (level : s.cpl = 0) (place : s.start.sstkOperand m n = .ok lin) (span : s.start.sstkSpan true true lin n = .ok ps) :
    s.start.wruss n m r = .ok (s.start.storeAt ps ((s.reg r).toNat % 256 ^ n)) := by
  rw [State.wruss, start_feat, start_protMode, start_cr4Bit, feat, prot, cet, Bool.and_self, Bool.and_self, require_true, ok_bind,
    needCpl0_of (t := s.start) level, ok_bind, place, ok_bind, span, ok_bind, start_reg, ← sstkSpan_length span, storeAt_mod]

theorem needWrss_ok (on : s.shadowEnabled s.cpl = true)
    (enabled : (if s.cpl = 3 then s.cet.uCet.getLsbD 1 else s.cet.sCet.getLsbD 1) = true) : s.start.needWrss = .ok () := by
  have level : (if s.start.cpl == 3 then s.start.cet.uCet.getLsbD 1 else s.start.cet.sCet.getLsbD 1) = true := by
    simp only [beq_iff_eq]
    exact enabled
  rw [State.needWrss, needShadow_eq feat, if_pos on, ok_bind, level, require_true]

theorem wrss_eq {n : Nat} {m : Mem} {r : Gpr} {lin : Quad} {ps : List Nat} (on : s.shadowEnabled s.cpl = true)
    (enabled : (if s.cpl = 3 then s.cet.uCet.getLsbD 1 else s.cet.sCet.getLsbD 1) = true) (place : s.start.sstkOperand m n = .ok lin)
    (span : s.start.sstkSpan (s.cpl == 3) true lin n = .ok ps) :
    s.start.wrss n m r = .ok (s.start.storeAt ps ((s.reg r).toNat % 256 ^ n)) := by
  rw [State.wrss, needWrss_ok feat on enabled, ok_bind, place, ok_bind, sstkWrite_low (s := s.start) span]
  rfl

theorem incSsp_eq {n : Nat} {r : Gpr} {ps qs : List Nat} (on : s.shadowEnabled s.cpl = true)
    (first : s.start.sstkSpan (s.cpl == 3) false s.cet.ssp n = .ok ps)
    (last : s.start.sstkSpan (s.cpl == 3) false (s.cet.ssp + BitVec.ofNat 64 ((max (uns .w8 (s.reg r)) 1 - 1) * n)) n = .ok qs) :
    s.start.incSsp n r = .ok (s.start.setSsp (s.cet.ssp + BitVec.ofNat 64 (uns .w8 (s.reg r) * n))) := by
  have count : ((s.start.reg r).extractLsb' 0 8).toNat = uns .w8 (s.reg r) := by
    rw [BitVec.extractLsb'_toNat]
    rfl
  have items : (if uns .w8 (s.reg r) = 0 then 1 else uns .w8 (s.reg r)) * n - n = (max (uns .w8 (s.reg r)) 1 - 1) * n := by
    rw [Nat.sub_mul, Nat.one_mul]
    congr 2
    split <;> omega
  rw [State.incSsp, needShadow_eq feat, if_pos on, ok_bind]
  simp only [count, items, State.start_cet, sstkRead_of_span (s := s.start) first, sstkRead_of_span (s := s.start) last, ok_bind]

theorem rstorssp_body {m : Mem} {lin : Quad} {ps qs : List Nat} (on : s.shadowEnabled s.cpl = true) (place : s.start.sstkOperand m 8 = .ok lin)
    (read : s.start.sstkSpan (s.cpl == 3) false lin 8 = .ok ps) (write : s.start.sstkSpan (s.cpl == 3) true lin 8 = .ok qs)
    (tf : s.flags.tf = false) :
    exec (.rstorssp m) s = if s.loadAt ps % 4 = s.mode64.toNat ∧ (s.mode64 = true ∨ s.loadAt ps < 2 ^ 32) ∧
        (s.loadAt ps + 2 ^ 64 - s.mode64.toNat - 8) % 2 ^ 64 / 8 * 8 = lin.toNat then
      .next (((s.start.storeAt qs (s.cet.ssp.toNat ||| (s.mode64.toNat + 2))).setSsp lin).setFlags
        (tokenFlags s.start.flags (s.loadAt ps / 4 % 2 == 1)))
    else s.raise { name := .cp, code := some 4 } := by
  have token : (BitVec.ofNat 64 (s.start.loadAt ps)).toNat = s.loadAt ps := loadAt_quad (s := s.start) (sstkSpan_length read)
  have body (t : Res State) (h : (s.start.needShadow >>= fun _ => s.start.sstkOperand m 8 >>= fun lin => s.start.sstkRead lin 8 >>=
      fun token => s.start.sstkWrite lin 8 (if restoreValid s.start.mode64 token lin then s.start.cet.ssp ||| bit s.start.mode64 ||| 2
        else token) >>= fun u => require (restoreValid s.start.mode64 token lin) (cp .rstorssp) >>=
      fun _ => .ok ((u.setSsp lin).setFlags (s.start.flags.token (token.getLsbD 2)))) = t) :
      exec (.rstorssp m) s = run s fun _ => t := by
    rw [exec_rstorssp, execRstorssp, ← h]
    rfl
  split
  · rename_i valid
    refine (body _ ?_).trans (run_ok tf rfl)
    rw [needShadow_eq (s := s) feat, if_pos on, ok_bind, place, ok_bind, sstkRead_of_span (s := s.start) read, ok_bind, start_mode64,
      restoreValid_eq, token, decide_eq_true valid, if_pos rfl, sstkWrite_of_span (s := s.start) write, ok_bind, previousToken_toNat,
      require_true, ok_bind, bit_two, token, ← beq_eq_decide]
    rfl
  · rename_i bad
    refine (body _ ?_).trans (run_exc rfl)
    rw [needShadow_eq (s := s) feat, if_pos on, ok_bind, place, ok_bind, sstkRead_of_span (s := s.start) read, ok_bind, start_mode64,
      restoreValid_eq, token, decide_eq_false bad, sstkWrite_of_span (s := s.start) write, ok_bind, require_false]
    rfl

/-- SAVEPREVSSP past its check of the token. -/
theorem saveprevssp_ok {ps qs rs us : List Nat} (on : s.shadowEnabled s.cpl = true) (aligned : s.cet.ssp.toNat % 8 = 0)
    (read : s.start.sstkSpan (s.cpl == 3) false s.cet.ssp 8 = .ok ps) (kind : s.loadAt ps % 4 = 2 + s.mode64.toNat)
    (fits : s.mode64 = true ∨ s.loadAt ps < 2 ^ 32)
    (hole : s.flags.cf = true → s.mode64 = false ∧ s.start.sstkSpan (s.cpl == 3) false (s.cet.ssp + 8) 4 = .ok rs ∧ s.loadAt rs = 0)
    (below : s.start.sstkSpan (s.cpl == 3) true (BitVec.ofNat 64 (s.loadAt ps / 4 * 4) - 4) 4 = .ok qs)
    (write : (s.start.storeAt qs 0).sstkSpan (s.cpl == 3) true (BitVec.ofNat 64 (s.loadAt ps / 8 * 8) - 8) 8 = .ok us)
    (tf : s.flags.tf = false) :
    exec .saveprevssp s = .next (((s.start.storeAt qs 0).storeAt us (s.loadAt ps / 4 * 4 + s.mode64.toNat)).setSsp
      (s.cet.ssp + (if s.flags.cf then 12 else 8))) := by
  have token : (BitVec.ofNat 64 (s.start.loadAt ps)).toNat = s.loadAt ps := loadAt_quad (s := s.start) (sstkSpan_length read)
  have past : s.start.pastHole = .ok (s.cet.ssp + (if s.flags.cf then 12 else 8)) := by
    have flag : s.start.flags.cf = s.flags.cf := rfl
    rw [State.pastHole, flag]
    cases cf : s.flags.cf with
    | false => rfl
    | true =>
      obtain ⟨mode, span, zero⟩ := hole cf
      have zero : s.start.loadAt rs = 0 := zero
      rw [if_pos rfl, start_mode64, mode, Bool.not_false, require_true, ok_bind, State.start_cet, sstkRead_of_span (s := s.start) span,
        ok_bind, zero]
      rfl
  have old : BitVec.ofNat 64 (s.start.loadAt ps) &&& ~~~(3 : Quad) = BitVec.ofNat 64 (s.loadAt ps / 4 * 4) := by
    rw [show (3 : Quad) = BitVec.ofNat 64 (2 ^ 2 - 1) from rfl, clear_low, token]
    rfl
  have small : s.loadAt ps / 4 * 4 < 2 ^ 64 := Nat.lt_of_le_of_lt (Nat.div_mul_le_self _ _) (loadAt_lt_quad (Nat.le_of_eq (sstkSpan_length read)))
  have base : BitVec.ofNat 64 (s.loadAt ps / 4 * 4) &&& ~~~(7 : Quad) = BitVec.ofNat 64 (s.loadAt ps / 8 * 8) := by
    rw [show (7 : Quad) = BitVec.ofNat 64 (2 ^ 3 - 1) from rfl, clear_low, BitVec.toNat_ofNat, Nat.mod_eq_of_lt small]
    congr 1
    omega
  have left : (BitVec.ofNat 64 (s.loadAt ps / 4 * 4) ||| bit s.mode64).toNat = s.loadAt ps / 4 * 4 + s.mode64.toNat := by
    rw [BitVec.toNat_or, BitVec.toNat_ofNat, Nat.mod_eq_of_lt small, Nat.mul_comm]
    have low : (bit s.mode64 : Quad).toNat = s.mode64.toNat := by cases s.mode64 <;> rfl
    rw [low]
    exact (Nat.two_pow_add_eq_or_of_lt (i := 2) (by cases s.mode64 <;> decide) _).symm
  have kindBit : (BitVec.ofNat 64 (s.start.loadAt ps)).getLsbD 1 = true := by
    rw [bit_one, token, decide_eq_true]
    cases mode : s.mode64 <;> rw [mode] at kind <;> simp only [Bool.toNat_true, Bool.toNat_false] at kind <;> omega
  have modeBit : ((BitVec.ofNat 64 (s.start.loadAt ps)).getLsbD 0 == s.mode64) = true := by
    rw [bit_zero, token, beq_iff_eq]
    cases mode : s.mode64 <;> rw [mode] at kind <;> simp only [Bool.toNat_true, Bool.toNat_false] at kind
    · exact decide_eq_false (by omega)
    · exact decide_eq_true (by omega)
  have high : (s.mode64 || (BitVec.ofNat 64 (s.start.loadAt ps)).extractLsb' 32 32 == 0) = true := by
    rw [upper_zero, token, Bool.or_eq_true, decide_eq_true_iff]
    exact fits
  rw [exec_saveprevssp, execSaveprevssp]
  apply run_ok tf
  rw [needShadow_eq feat, if_pos on, ok_bind, State.start_cet, low3_zero, decide_eq_true aligned, require_true, ok_bind,
    sstkRead_of_span (s := s.start) read, ok_bind, past, ok_bind, kindBit, require_true, ok_bind, start_mode64, modeBit, require_true,
    ok_bind, high, require_true, ok_bind]
  simp only [old, base]
  rw [sstkWrite_of_span (s := s.start) below, ok_bind, show (0 : Quad).toNat = 0 from rfl,
    sstkWrite_of_span (s := s.start.storeAt qs 0) write, ok_bind, left]

end

/-- Settles O55. -/
theorem shadowStackResult : Obligations.ShadowStackResult := by
  intro s m r lin lip old sel cpl keep ps qs rs us tf feat ssp user mode span on token
  refine ⟨fun prot cet enabled level => ⟨fun place read write => ?clear, fun aligned read write => ?set⟩,
    fun enabled => ⟨?inc, ?read32, ?read64, fun place read write => ⟨fun valid => ?restore, fun bad => ?refuse⟩, ?save,
      fun allowed x listed place write => ?write⟩,
    fun off => ⟨?off32, ?off64, fun i listed => ?off⟩, fun prot cet level x listed place write => ?user,
    fun read write => ⟨setTokenBusy_eq read write, clearToken_eq read write⟩, alignSsp_even, alignSsp_odd, ?push, popSsFrame_eq⟩
  case clear =>
    intro valid
    have number : (BitVec.ofNat 64 (s.loadAt ps)).toNat = s.loadAt ps := loadAt_quad (sstkSpan_length read)
    have released := clearToken_eq (s := s.start) (keep := false) read write
    rw [exec_clrssbsy, execClrssbsy]
    apply run_ok tf
    rw [needBusy_ok feat prot cet enabled level, ok_bind, place, ok_bind, sstkRead_of_span (s := s.start) read, ok_bind]
    rw [released]
    simp only [ok_bind, busy_eq, number, start_loadAt, and_true]
    by_cases busy : s.loadAt ps = lin.toNat + 1 ∧ lin.toNat % 2 = 0
    · have same : valid := busy
      rw [decide_eq_true busy, if_pos rfl, if_pos busy, if_pos same]
      rfl
    · have other : ¬valid := busy
      rw [decide_eq_false busy, if_neg Bool.false_ne_true, if_neg busy, if_neg other]
      rfl
  case set =>
    have taken := takeToken_bind (s := s.start) (mode := s.mode64) aligned read write (cp .setssbsy) fun u => .ok (u.setSsp s.cet.pl0Ssp)
    rw [exec_setssbsy, execSetssbsy]
    by_cases free : s.loadAt ps = s.cet.pl0Ssp.toNat ∧ (s.mode64 = true ∨ s.loadAt ps < 2 ^ 32)
    · refine Eq.trans ?_ (if_pos free).symm
      apply run_ok tf
      rw [needBusy_ok feat prot cet enabled level, ok_bind, State.start_cet]
      show (require (s.cet.pl0Ssp.extractLsb' 0 3 == 0) gp0 >>= fun _ => _) = _
      rw [low3_zero, decide_eq_true aligned, require_true, ok_bind]
      exact taken.trans (if_pos free)
    · refine Eq.trans ?_ (if_neg free).symm
      apply run_exc
      rw [needBusy_ok feat prot cet enabled level, ok_bind, State.start_cet]
      show (require (s.cet.pl0Ssp.extractLsb' 0 3 == 0) gp0 >>= fun _ => _) = _
      rw [low3_zero, decide_eq_true aligned, require_true, ok_bind]
      exact taken.trans (if_neg free)
  case inc =>
    intro x listed c first last
    simp only [List.mem_cons, List.not_mem_nil, or_false] at listed
    rcases listed with rfl | rfl
    · rw [exec_incsspd, execIncsspd]
      exact run_ok tf (incSsp_eq feat enabled first last)
    · rw [exec_incsspq, execIncsspq]
      exact run_ok tf (incSsp_eq feat enabled first last)
  case read32 =>
    rw [exec_rdsspd, execRdsspd]
    exact run_ok tf (congrArg Except.ok (if_pos enabled))
  case read64 =>
    rw [exec_rdsspq, execRdsspq]
    exact run_ok tf (congrArg Except.ok (if_pos enabled))
  case restore => exact (rstorssp_body feat enabled place read write tf).trans (if_pos valid)
  case refuse => exact (rstorssp_body feat enabled place read write tf).trans (if_neg bad)
  case save => exact fun aligned read kind fits hole below write => saveprevssp_ok feat enabled aligned read kind fits hole below write tf
  case write =>
    simp only [List.mem_cons, List.not_mem_nil, or_false] at listed
    rcases listed with rfl | rfl
    · rw [exec_wrssd, execWrssd]
      exact run_ok tf (wrss_eq feat enabled allowed place write)
    · rw [exec_wrssq, execWrssq]
      exact run_ok tf (wrss_eq feat enabled allowed place write)
  case off32 =>
    rw [exec_rdsspd, execRdsspd]
    exact run_ok tf (congrArg Except.ok (if_neg off))
  case off64 =>
    rw [exec_rdsspq, execRdsspq]
    exact run_ok tf (congrArg Except.ok (if_neg off))
  case off =>
    have shadow : s.start.needShadow = .error ud := (needShadow_eq feat).trans (if_neg off)
    simp only [List.mem_cons, List.not_mem_nil, or_false] at listed
    rcases listed with rfl | rfl | rfl | rfl | rfl | rfl
    · rw [exec_incsspd, execIncsspd]
      exact run_exc (by rw [State.incSsp, shadow]; rfl)
    · rw [exec_incsspq, execIncsspq]
      exact run_exc (by rw [State.incSsp, shadow]; rfl)
    · rw [exec_rstorssp, execRstorssp]
      exact run_exc (by rw [shadow]; rfl)
    · rw [exec_saveprevssp, execSaveprevssp]
      exact run_exc (by rw [shadow]; rfl)
    · rw [exec_wrssd, execWrssd]
      exact run_exc (by rw [State.wrss, State.needWrss, shadow]; rfl)
    · rw [exec_wrssq, execWrssq]
      exact run_exc (by rw [State.wrss, State.needWrss, shadow]; rfl)
  case user =>
    simp only [List.mem_cons, List.not_mem_nil, or_false] at listed
    rcases listed with rfl | rfl
    · rw [exec_wrussd, execWrussd]
      exact run_ok tf (wruss_eq feat prot cet level place write)
    · rw [exec_wrussq, execWrussq]
      exact run_ok tf (wruss_eq feat prot cet level place write)
  case push =>
    intro a b first second third
    exact pushSsFrame_eq first second third

end Sys2Proof.Machine
end

