-- ==== Sys2Proof/Proofs/CodePoints.lean ====
section
/-! PROOFS. The statement about the code points that raise an exception or belong to another volume (30_encoding.md R161,
31_opcode_maps.md R242, R247, 46_gp_t_x.md R634). -/

namespace Sys2Proof.Machine

variable {s t : State}

theorem onlyPrefixes_eq : onlyPrefixes s = s.raise { name := .gp, code := some 0 } := run_exc rfl

theorem run_undefined : (run s fun _ => .error ud) = s.raise { name := .ud } := run_exc rfl

/-- Runs of prefix bytes. -/
theorem exec_onlyPrefixes {i : Instr} (listed : i ∈ [Instr.prefixOpSize, .prefixAddrSize, .prefixCs, .prefixDs, .prefixEs, .prefixFs,
    .prefixGs, .prefixSs, .prefixLock, .prefixRep, .prefixRepne, .prefixRex]) : exec i s = s.raise { name := .gp, code := some 0 } := by
  simp only [List.mem_cons, List.not_mem_nil, or_false] at listed
  rcases listed with rfl | rfl | rfl | rfl | rfl | rfl | rfl | rfl | rfl | rfl | rfl | rfl <;> exact onlyPrefixes_eq

/-- The undefined and the reserved opcodes. -/
theorem exec_undefined {w : Width} {i : Instr} (listed : i ∈ [Instr.ud0, .ud1, .ud2, .reservedD6, .reservedGroup3 w]) :
    exec i s = s.raise { name := .ud } := by
  simp only [List.mem_cons, List.not_mem_nil, or_false] at listed
  rcases listed with rfl | rfl | rfl | rfl | rfl <;> exact run_undefined

/-- The code points of other volumes, each with its feature. -/
def State.foreign (s : State) (map : BitVec 5) (op modrm : Byte) (k : BitVec 3) : List (Instr × Bool) :=
  let media : Bool := s.feat.mmx || s.feat.sse || s.feat.sse2
  [(.prefixVex3 map op, s.feat.avx), (.prefixVex2 op, s.feat.avx), (.prefixXop map op, s.feat.xop),
    (.escape0F op modrm, s.hasEscape op modrm), (.escape0F38 op modrm, media), (.escape0F3A op modrm, media), (.x87 k modrm, s.feat.fpu),
    (.wait, s.feat.fpu), (.threeDNow op modrm, s.feat.threeDNow)]

theorem exec_foreign {map : BitVec 5} {op modrm : Byte} {k : BitVec 3} : ∀ x ∈ s.foreign map op modrm k, exec x.1 s = otherVolume x.2 s := by
  simp only [State.foreign, List.forall_mem_cons, List.not_mem_nil, false_implies, implies_true, and_true]
  and_intros <;> rfl

theorem otherVolume_absent : otherVolume false s = s.raise { name := .ud } := run_exc rfl

theorem otherVolume_present : otherVolume true s = .refused .otherVolume := rfl

/-- Settles O60. -/
theorem reservedCodePoints : Obligations.ReservedCodePoints := by
  refine fun s t map op modrm k w => ⟨fun raised i listed => (exec_onlyPrefixes listed).trans (raise_ok raised),
    fun raised => ⟨fun i listed => (exec_undefined listed).trans (raise_ok raised), fun x listed absent => ?_⟩, fun x listed present => ?_⟩
  · rw [exec_foreign x listed, absent, otherVolume_absent]
    exact raise_ok raised
  · rw [exec_foreign x listed, present, otherVolume_present]

end Sys2Proof.Machine
end

