-- ==== Sys2Proof/Proofs/Profiling.lean ====
section
/-! PROOFS. The statement about lightweight profiling (43_gp_l_m.md R456, R459, R460, 45_gp_r_s.md R589). -/

namespace Sys2Proof.Machine

variable {s t u : State} {w : Width} {r : Gpr} {rm : RM} {flags : BitVec 32}

theorem runLwp_abort {body : State → Res LwpEnd} {x : Exn} (h : body s.start = .ok (.abort t x)) :
    runLwp s body = ({ s with mem := t.mem, lwp := t.lwp } : State).raise x := by
  rw [runLwp, h]

theorem needLwp_ok (feat : s.feat.lwp = true) (prot : s.protMode = true) (xcr0 : s.xcr0.getLsbD 62 = true) :
    s.start.needLwp = .ok () := by
  rw [State.needLwp, start_feat, start_protMode, State.start_xcr0, feat, prot, xcr0]
  rfl

/-- The state after the facility has written its cells and its own state. -/
def State.profiled (t : State) (cells : List Host.Cell) (i : Config.LwpInternal) : State :=
  { t with mem := cells.foldl (fun m c => Memory.write m c.1 c.2) t.mem, lwp := { t.lwp with internal := i } }

theorem lwpResult_done {cells : List Host.Cell} {i : Config.LwpInternal} {cf : Bool} (present : ∀ x ∈ cells, x.1 < 2 ^ t.cfg.physAddrBits) :
    t.lwpResult (.done cells i cf) = .ok (.ok (t.profiled cells i, cf)) := by
  have here : t.absent (cells.map Prod.fst) = none := absent_none.mpr (by simpa using present)
  rw [State.lwpResult, State.lwpWrites, here]
  rfl

theorem lwpEnabled_iff : t.lwpEnabled = true ↔ t.lwp.cbAddr ≠ 0 := bne_iff_ne

theorem lwpFlush_disabled (off : t.lwp.cbAddr = 0) : t.lwpFlush w = .ok (.ok (t, false)) :=
  if_neg fun h => lwpEnabled_iff.mp h off

theorem lwpFlush_enabled (on : t.lwp.cbAddr ≠ 0) : t.lwpFlush w = t.lwpResult (Config.lwpStore t.mem (t.lwpCtx w)) :=
  if_pos (lwpEnabled_iff.mpr on)

theorem lwpStart_zero {a : Quad} (zero : a = 0) : t.lwpStart w a = .ok (.done (t.setLwpcb 0)) := if_pos zero

section

variable {a : Quad} (given : a ≠ 0)
include given

theorem lwpStart_done {load : List Host.Cell} {i : Config.LwpInternal} {cf : Bool}
    (answer : Config.lwpLoad t.mem (t.lwpCtx w) (t.linear .ds a) = some (.done load i cf))
    (present : ∀ x ∈ load, x.1 < 2 ^ t.cfg.physAddrBits) :
    t.lwpStart w a = .ok (.done ((t.profiled load i).setLwpcb (t.linear .ds a))) := by
  rw [State.lwpStart, if_neg given]
  simp only [answer, lwpResult_done present, ok_bind]

theorem lwpStart_pageFault {code : BitVec 32} {addr : Quad}
    (answer : Config.lwpLoad t.mem (t.lwpCtx w) (t.linear .ds a) = some (.pageFault code addr)) :
    t.lwpStart w a = .ok (.abort (t.setLwpcb 0) { name := .pf, code := some code, cr2 := some addr }) := by
  rw [State.lwpStart, if_neg given]
  simp only [answer, State.lwpResult, ok_bind]

theorem lwpStart_invalid (answer : Config.lwpLoad t.mem (t.lwpCtx w) (t.linear .ds a) = none) :
    t.lwpStart w a = .ok (.abort (t.setLwpcb 0) { name := .gp, code := some 0 }) := by
  rw [State.lwpStart, if_neg given]
  simp only [answer]

end

section

variable (need : s.start.needLwp = .ok ())
include need

/-- LLWPCB with the old contents flushed. -/
theorem llwpcb_done {cf : Bool} (tf : s.flags.tf = false) (flush : s.start.lwpFlush w = .ok (.ok (u, cf)))
    (load : u.lwpStart w (s.readGpr w r) = .ok (.done t)) : exec (.llwpcb w r) s = .next t := by
  rw [exec_llwpcb, execLlwpcb]
  apply runLwp_done tf
  simp only [need, ok_bind, flush, start_readGpr, load]

theorem llwpcb_abort {cf : Bool} {x : Exn} (flush : s.start.lwpFlush w = .ok (.ok (u, cf)))
    (load : u.lwpStart w (s.readGpr w r) = .ok (.abort t x)) :
    exec (.llwpcb w r) s = ({ s with mem := t.mem, lwp := t.lwp } : State).raise x := by
  rw [exec_llwpcb, execLlwpcb]
  apply runLwp_abort
  simp only [need, ok_bind, flush, start_readGpr, load]

theorem lwp_flush_fault {x : Exn} (on : s.lwp.cbAddr ≠ 0) (flush : s.start.lwpFlush w = .ok (.error x)) :
    exec (.llwpcb w r) s = s.raise x ∧ exec (.slwpcb w r) s = s.raise x := by
  have enabled : s.start.lwpEnabled = true := lwpEnabled_iff.mpr on
  rw [exec_llwpcb, execLlwpcb, exec_slwpcb, execSlwpcb]
  constructor
  · exact runLwp_abort (t := s.start) (by simp only [need, ok_bind, flush])
  · exact runLwp_abort (t := s.start) (by simp only [need, ok_bind, flush, enabled, if_true])

theorem slwpcb_done {cf : Bool} (tf : s.flags.tf = false) (on : s.lwp.cbAddr ≠ 0) (flush : s.start.lwpFlush w = .ok (.ok (u, cf))) :
    exec (.slwpcb w r) s = .next (u.writeGpr w r (wrap w (s.lwp.cbAddr.toNat - s.start.dsBase.toNat))) := by
  have enabled : s.start.lwpEnabled = true := lwpEnabled_iff.mpr on
  have offset : trunc w (s.lwp.cbAddr - s.start.dsBase) = wrap w (s.lwp.cbAddr.toNat - s.start.dsBase.toNat) := by
    have minus := neg_toNat_emod w s.start.dsBase.toNat
    rw [BitVec.ofNat_toNat, BitVec.setWidth_eq] at minus
    rw [BitVec.sub_eq_add_neg, Int.sub_eq_add_neg]
    exact trunc_add_eq_wrap rfl minus
  rw [exec_slwpcb, execSlwpcb, ← offset]
  apply runLwp_done tf
  simp only [need, ok_bind, flush, enabled, if_true]
  rfl

section

variable {v : Quad} {cells : List Host.Cell} {i : Config.LwpInternal} {cf : Bool} (tf : s.flags.tf = false)
    (present : ∀ x ∈ cells, x.1 < 2 ^ s.cfg.physAddrBits)
include tf present

theorem lwpins_done (on : s.lwp.cbAddr ≠ 0) (read : s.start.readRM .w32 rm = .ok v)
    (answer : Config.lwpInsert s.mem (s.start.lwpCtx w) (s.readGpr w r) (v.setWidth 32) (flags.setWidth 16) = .done cells i cf) :
    exec (.lwpins w r rm flags) s = .next ((s.start.profiled cells i).setFlags { s.start.flags with cf := cf }) := by
  have enabled : s.start.lwpEnabled = true := lwpEnabled_iff.mpr on
  have answered : s.start.lwpResult (Config.lwpInsert s.start.mem (s.start.lwpCtx w) (s.start.readGpr w r) (v.setWidth 32)
      (flags.setWidth 16)) = .ok (.ok (s.start.profiled cells i, cf)) :=
    (congrArg s.start.lwpResult answer).trans (lwpResult_done (t := s.start) present)
  rw [exec_lwpins, execLwpins]
  apply runLwp_done tf
  simp only [need, ok_bind, enabled, if_true, read, answered]
  rfl

theorem lwpval_due (on : s.lwp.cbAddr ≠ 0) (read : s.start.readRM .w32 rm = .ok v)
    (due : Config.lwpValueDue s.mem (s.start.lwpCtx w) = true)
    (answer : Config.lwpValue s.mem (s.start.lwpCtx w) (some (s.readGpr w r, v.setWidth 32, flags.setWidth 16)) = .done cells i cf) :
    exec (.lwpval w r rm flags) s = .next (s.start.profiled cells i) := by
  have enabled : s.start.lwpEnabled = true := lwpEnabled_iff.mpr on
  have due : Config.lwpValueDue s.start.mem (s.start.lwpCtx w) = true := due
  have answered : s.start.lwpResult (Config.lwpValue s.start.mem (s.start.lwpCtx w) (some (s.start.readGpr w r, v.setWidth 32,
      flags.setWidth 16))) = .ok (.ok (s.start.profiled cells i, cf)) :=
    (congrArg s.start.lwpResult answer).trans (lwpResult_done (t := s.start) present)
  rw [exec_lwpval, execLwpval]
  apply runLwp_done tf
  simp only [need, ok_bind, enabled, if_true, due, read, answered]

theorem lwpval_early (on : s.lwp.cbAddr ≠ 0) (due : Config.lwpValueDue s.mem (s.start.lwpCtx w) = false)
    (answer : Config.lwpValue s.mem (s.start.lwpCtx w) none = .done cells i cf) :
    exec (.lwpval w r rm flags) s = .next (s.start.profiled cells i) := by
  have enabled : s.start.lwpEnabled = true := lwpEnabled_iff.mpr on
  have due : Config.lwpValueDue s.start.mem (s.start.lwpCtx w) = false := due
  have answered : s.start.lwpResult (Config.lwpValue s.start.mem (s.start.lwpCtx w) none) = .ok (.ok (s.start.profiled cells i, cf)) :=
    (congrArg s.start.lwpResult answer).trans (lwpResult_done (t := s.start) present)
  rw [exec_lwpval, execLwpval]
  apply runLwp_done tf
  simp only [need, ok_bind, enabled, if_true, due, Bool.false_eq_true, if_false, answered]

end

theorem lwp_disabled (tf : s.flags.tf = false) (off : s.lwp.cbAddr = 0) :
    exec (.slwpcb w r) s = .next (s.start.writeGpr w r 0) ∧
    exec (.lwpins w r rm flags) s = .next (s.start.setFlags { s.start.flags with cf := false }) ∧
    exec (.lwpval w r rm flags) s = .next s.start := by
  have disabled : s.start.lwpEnabled = false := Bool.eq_false_iff.mpr fun h => lwpEnabled_iff.mp h off
  rw [exec_slwpcb, execSlwpcb, exec_lwpins, execLwpins, exec_lwpval, execLwpval]
  refine ⟨runLwp_done tf ?_, runLwp_done tf ?_, runLwp_done tf ?_⟩ <;>
    simp only [need, ok_bind, disabled, Bool.false_eq_true, if_false]

end

/-- Settles O59. -/
theorem lightweightProfiling : Obligations.LightweightProfiling := by
  intro s w r rm flags code cells load i j cf cf' v a tf feat prot xcr0 ctx here present written address lin fault
  have need := needLwp_ok feat prot xcr0
  have value : address = s.readGpr w r := ofNat_uns_reg s w r
  have start (u : State) : u.lwpStart w address = u.lwpStart w (s.readGpr w r) := by rw [value]
  refine ⟨fun off => ⟨fun zero => ?zero, fun given answer here => ?load, fun given answer => ?fault, fun given answer => ?invalid,
    lwp_disabled need tf off⟩, fun on answer here => ?flushed, fun on answer => ?flushFault, fun on read => ⟨fun answer here => ?insert,
    fun due answer here => ?value⟩, fun on due answer here => ?early⟩
  case zero => 
    exact llwpcb_done need tf (lwpFlush_disabled off) ((start s.start).symm.trans (lwpStart_zero zero))
  case load =>
    exact llwpcb_done need tf (lwpFlush_disabled off) ((start s.start).symm.trans (lwpStart_done (t := s.start) given answer here))
  case fault =>
    have raised := llwpcb_abort need (lwpFlush_disabled off) ((start s.start).symm.trans (lwpStart_pageFault (t := s.start) given answer))
    exact raised
  case invalid =>
    have raised := llwpcb_abort need (lwpFlush_disabled off) ((start s.start).symm.trans (lwpStart_invalid (t := s.start) given answer))
    exact raised
  case flushed =>
    intro flushed
    have flush : s.start.lwpFlush w = .ok (.ok (flushed, cf)) := (lwpFlush_enabled (t := s.start) on).trans
      ((congrArg s.start.lwpResult answer).trans (lwpResult_done (t := s.start) here))
    refine ⟨fun zero => ?_, fun given answer here => ?_, ?_⟩
    · exact llwpcb_done need tf flush ((start flushed).symm.trans (lwpStart_zero zero))
    · exact llwpcb_done need tf flush ((start flushed).symm.trans (lwpStart_done (t := flushed) given answer here))
    · exact slwpcb_done need tf on flush
  case flushFault =>
    exact lwp_flush_fault need on ((lwpFlush_enabled (t := s.start) on).trans (congrArg s.start.lwpResult answer))
  case insert =>
    rw [value] at answer
    exact lwpins_done need tf here on read answer
  case value =>
    rw [value] at answer
    exact lwpval_due need tf here on read due answer
  case early => exact lwpval_early need tf here on due answer

end Sys2Proof.Machine
end

