-- ==== Sys2Proof/Proofs/Records.lean ====
section
/-! PROOFS. The records of fields of the virtual machine in physical memory: what a read of each field gives, what a write of several
leaves unchanged, and the parts of a state that they hold (52_sys_s_w.md R839 to R842). -/

namespace Sys2Proof.Machine

open Config (VmcbField VmSeg)

variable {s t u : State} {a : Area} {val : VmcbField → Quad}

/-- The fields of a record are read from memory alone. -/
theorem getField_congr (mem : t.mem = s.mem) (cfg : t.cfg = s.cfg) (a : Area) (f : VmcbField) : t.getField a f = s.getField a f := by
  rw [State.getField, State.getField, State.readPa, State.readPa, State.absent, State.absent, State.loadAt, State.loadAt, mem, cfg]

/-- A record whose fields have the values `val`. -/
def State.Holds (t : State) (a : Area) (val : VmcbField → Quad) : Prop := ∀ f, t.getField a f = .ok (val f)

theorem State.Holds.congr (h : s.Holds a val) (mem : t.mem = s.mem) (cfg : t.cfg = s.cfg) : t.Holds a val := fun f =>
  (getField_congr mem cfg a f).trans (h f)

/-- A segment register in a record. -/
def recordSeg (val : VmcbField → Quad) (r : VmSeg) : SegReg where
  sel := (val (.seg r .sel)).extractLsb' 0 16
  base := val (.seg r .base)
  limit := (val (.seg r .limit)).extractLsb' 0 32
  attr := .unpack (Config.vmcbAttrRead ((val (.seg r .attr)).extractLsb' 0 16))

theorem getSeg_eq (h : t.Holds a val) (r : VmSeg) : t.getSeg a r = .ok (recordSeg val r) := by
  simp only [State.getSeg, h _, ok_bind]
  rfl

/-- The registers that a world switch loads from a record, without the segments. -/
def State.coreOf (t : State) (val : VmcbField → Quad) : State :=
  { t with
    gdtr := { base := val .gdtrBase, limit := (val .gdtrLimit).extractLsb' 0 16 }
    idtr := { base := val .idtrBase, limit := (val .idtrLimit).extractLsb' 0 16 }
    ctl := { t.ctl with efer := val .efer, cr0 := val .cr0 ||| 0x10, cr4 := val .cr4, cr3 := val .cr3 }
    flags := .ofBits (val .rflags)
    rip := val .rip
    gpr := { t.gpr with rsp := val .rsp, rax := val .rax } }

theorem loadCore_eq (h : t.Holds a val) : t.loadCore a = .ok (t.coreOf val) := by
  simp only [State.loadCore, h _, ok_bind]
  rfl

theorem putFields_frame {fields : List (VmcbField × Quad)} : ∀ {s t : State}, s.putFields a fields = .ok t → t = { s with mem := t.mem } := by
  induction fields with
  | nil =>
    rintro s t ⟨⟩
    rfl
  | cons x fields ih =>
    intro s t h
    obtain ⟨u, write, rest⟩ := bind_ok.mp h
    obtain ⟨-, rfl⟩ := writePa_ok.mp write
    rw [ih rest]
    rfl

/-- A record of fields changes memory in those fields only. -/
theorem putFields_other {fields : List (VmcbField × Quad)} : ∀ {s t : State}, s.putFields a fields = .ok t → ∀ b,
    (∀ x ∈ fields, b < a.pa + a.offset x.1 ∨ a.pa + a.offset x.1 + vmcbBytes x.1 ≤ b) → Memory.read t.mem b = Memory.read s.mem b := by
  induction fields with
  | nil =>
    rintro s t ⟨⟩ b -
    rfl
  | cons x fields ih =>
    intro s t h b outside
    obtain ⟨u, write, rest⟩ := bind_ok.mp h
    obtain ⟨-, rfl⟩ := writePa_ok.mp write
    rw [ih rest b fun y hy => outside y (List.mem_cons_of_mem _ hy)]
    have apart := outside x List.mem_cons_self
    exact storeAt_other s _ _ b fun hb => by
      have := mem_physRange.mp hb
      omega

/-- A world switch without the virtualization of the last branches. -/
theorem swapLbr_off (off : t.feat.lbrVirt = false) (vmcb store load : Area) : t.swapLbr vmcb store load = .ok t :=
  if_neg fun h => Bool.false_ne_true (off.symm.trans h)

/-- A world switch: the upper halves of the general registers are free on entry to 64-bit mode, but for RSP and RAX, which are
loaded; rIP has 32 bits outside it; and the monitor ends. -/
theorem switchWorld_eq (t u : State) : t.switchWorld u = { u with
    gpr := { (t.enterMode u).gpr with rsp := u.gpr.rsp, rax := u.gpr.rax }
    rip := if u.mode64 then u.rip else BitVec.ofNat 64 (u.rip.toNat % 2 ^ 32)
    exec := { u.exec with monitor := { u.exec.monitor with armed := false } } } := by
  have frame := enterMode_frame t u
  rw [State.switchWorld]
  rw [frame]
  simp only [clipRip_eq]
  rfl

/-- The general registers after a change of mode, but for RSP and RAX, do not depend on those two. -/
theorem enterMode_gpr_congr {t t' u u' : State} (mode : t.mode64 = t'.mode64) (entered : u.mode64 = u'.mode64)
    (count : u.freeCount = u'.freeCount) {a b : Quad} (gpr : u.gpr = { u'.gpr with rsp := a, rax := b }) (rsp rax : Quad) :
    { (t.enterMode u).gpr with rsp := rsp, rax := rax } = ({ (t'.enterMode u').gpr with rsp := rsp, rax := rax } : Gprs) := by
  rw [State.enterMode, State.enterMode, mode, entered, count, gpr]
  by_cases enters : (!t'.mode64 && u'.mode64) = true
  · rw [if_pos enters, if_pos enters]
    rfl
  · rw [if_neg enters, if_neg enters, gpr]

/-- What a world switch, its records and the last branches leave alone. -/
def State.worldKey (t : State) : Bool × Bool × Quad × BitVec 256 × BitVec 32 × Quad × Config.Params × Nat :=
  (t.svm.gif, t.svm.guest, t.svm.vmcb, t.svm.intercepts, t.svm.asid, t.svm.vmHsavePa, t.cfg, t.freeCount)

theorem putFields_key {fields : List (VmcbField × Quad)} (h : s.putFields a fields = .ok t) : t.worldKey = s.worldKey := by
  rw [putFields_frame h]
  rfl

theorem loadLbr_key (t : State) (a : Area) : Ends (fun u => u.worldKey = t.worldKey) (t.loadLbr a) :=
  ends_bind fun _ _ => ends_bind fun _ _ => ends_bind fun _ _ => ends_bind fun _ _ => ends_bind fun _ _ => ends_ok rfl

theorem swapLbr_key (t : State) (vmcb store load : Area) : Ends (fun u => u.worldKey = t.worldKey) (t.swapLbr vmcb store load) :=
  ends_ite (fun _ => ends_bind fun _ _ => ends_ite
      (fun _ => ends_bind fun u hu v hv => (loadLbr_key u load v hv).trans (putFields_key hu)) fun _ => ends_ok rfl)
    fun _ => ends_ok rfl

theorem loadCore_key (t : State) (a : Area) : Ends (fun u => u.worldKey = t.worldKey) (t.loadCore a) := by
  refine ends_bind fun _ _ => ends_bind fun _ _ => ends_bind fun _ _ => ends_bind fun _ _ => ends_bind fun _ _ => ?_
  refine ends_bind fun _ _ => ends_bind fun _ _ => ends_bind fun _ _ => ends_bind fun _ _ => ends_bind fun _ _ => ?_
  exact ends_bind fun _ _ => ends_bind fun _ _ => ends_ok rfl

theorem switchWorld_key (t u : State) : (t.switchWorld u).worldKey = u.worldKey := by
  rw [switchWorld_eq]
  rfl

theorem loadHost_key (t : State) : Ends (fun u => u.worldKey = t.worldKey) t.loadHost := by
  refine ends_bind fun u hu => ?_
  have loaded : u.worldKey = t.worldKey := loadCore_key t _ u hu
  refine ends_bind fun _ _ => ends_bind fun _ _ => ends_bind fun _ _ => ends_bind fun _ _ => ends_ok ?_
  exact (switchWorld_key t _).trans loaded

theorem loadGuest_key (t : State) (pa : Quad) : Ends (fun u => u.worldKey = t.worldKey) (t.loadGuest pa) := by
  refine ends_bind fun _ _ => ends_bind fun _ _ => ends_bind fun _ _ => ends_bind fun _ _ => ends_bind fun _ _ => ?_
  refine ends_bind fun _ _ => ends_bind fun _ _ => ends_bind fun _ _ => ends_bind fun _ _ => ends_bind fun _ _ => ?_
  refine ends_bind fun u hu => ends_ok ?_
  have loaded : u.worldKey = t.worldKey := loadCore_key t _ u hu
  exact (switchWorld_key t _).trans loaded

end Sys2Proof.Machine
end

