-- ==== Sys2Proof/Proofs/Guests.lean ====
section
/-! PROOFS. The statement about the instructions of the virtual machine (50_sys_a_l.md R703, R713, 52_sys_s_w.md R824, R829, R836,
R839 to R843). -/

namespace Sys2Proof.Machine

open Config (VmcbField VmSeg)

variable {s t u : State} {asz : ASize} {val : VmcbField → Quad}

theorem runVm_exit {body : State → Res VmEnd} {e : Config.ExitName} (h : body s.start = .ok (.exit t e)) : runVm s body = t.vmexit e := by
  rw [runVm, h]

theorem runVm_enter {body : State → Res VmEnd} (h : body s.start = .ok (.enter t)) : runVm s body = t.enterGuest := by
  rw [runVm, h]

theorem runVm_exc {body : State → Res VmEnd} {x : Exn} (h : body s.start = .error (.exc x)) : runVm s body = s.raise x := by
  rw [runVm, h]

/-- An intercept of the guest that runs is taken. -/
theorem intercepts_iff (i : Config.Intercept) : s.start.intercepts i = true ↔ s.svm.guest = true ∧ Config.intercepted s.svm.intercepts i = true := by
  rw [State.intercepts, Bool.and_eq_true]
  rfl

section

variable (svm : s.feat.svm = true) (enabled : s.eferBit 12 = true) (prot : s.protMode = true) (level : s.cpl = 0)
include svm enabled prot level

/-- The address of a VMCB: the page of rAX below the end of physical memory. -/
theorem vmcbAddr_eq : s.start.vmcbAddr asz =
    if uns (addrWidth asz) s.gpr.rax < 2 ^ s.cfg.physAddrBits ∧ uns (addrWidth asz) s.gpr.rax % 4096 = 0 then
      .ok (BitVec.ofNat 64 (uns (addrWidth asz) s.gpr.rax))
    else .error gp0 := by
  have value : s.start.readGpr (addrWidth asz) .rax = BitVec.ofNat 64 (uns (addrWidth asz) s.gpr.rax) :=
    (ofNat_uns_reg s (addrWidth asz) .rax).symm
  have small : uns (addrWidth asz) s.gpr.rax < 2 ^ 64 := Nat.lt_of_le_of_lt (Nat.mod_le _ _) s.gpr.rax.isLt
  have page : (BitVec.ofNat 64 (uns (addrWidth asz) s.gpr.rax) >>> s.cfg.physAddrBits == 0 &&
      (BitVec.ofNat 64 (uns (addrWidth asz) s.gpr.rax)).extractLsb' 0 12 == 0) =
      decide (uns (addrWidth asz) s.gpr.rax < 2 ^ s.cfg.physAddrBits ∧ uns (addrWidth asz) s.gpr.rax % 4096 = 0) := by
    rw [Bool.eq_iff_iff, Bool.and_eq_true, decide_eq_true_iff, beq_iff_eq, beq_iff_eq, ← BitVec.toNat_inj, ← BitVec.toNat_inj,
      BitVec.toNat_ushiftRight, BitVec.extractLsb'_toNat, BitVec.toNat_ofNat, Nat.mod_eq_of_lt small, Nat.shiftRight_eq_div_pow,
      show (0 : Quad).toNat = 0 from rfl, Nat.div_eq_zero_iff, or_iff_right (Nat.two_pow_pos _).ne']
    rfl
  rw [State.vmcbAddr, start_feat, start_eferBit, start_protMode, svm, enabled, prot, Bool.and_self, Bool.and_self, require_true, ok_bind,
    needCpl0_of (t := s.start) level, ok_bind, value, require_bind, State.start_cfg, page]
  simp only [decide_eq_true_iff]

end

/-- SVM is off. -/
theorem vmcbAddr_ud (off : s.feat.svm = false ∨ s.eferBit 12 = false) : s.start.vmcbAddr asz = .error ud := by
  have check : (s.feat.svm && s.eferBit 12) = false := by
    rcases off with h | h
    · rw [h, Bool.false_and]
    · rw [h, Bool.and_false]
  rw [State.vmcbAddr, start_feat, start_eferBit, check]
  rfl

theorem needSvm_ud (prot : s.protMode = true) (off : s.feat.svm = false ∨ s.eferBit 12 = false) : s.start.needSvm = .error ud := by
  rw [State.needSvm, State.needProt, start_protMode, prot, start_feat, start_eferBit]
  rcases off with h | h
  · rw [h]
    rfl
  · rw [h]
    cases s.feat.svm <;> rfl

/-! ### VMRUN -/

/-- The control information of a VMCB in force. -/
def State.controlOf (t : State) (pa : Quad) (val : VmcbField → Quad) : State :=
  let nested := t.feat.nestedPaging && (val .npEnable).getLsbD 0
  { t with svm := { t.svm with
    vmcb := pa, guest := true, npEnable := nested
    intercepts := val (.intercepts 3) ++ val (.intercepts 2) ++ val (.intercepts 1) ++ val (.intercepts 0)
    tscOffset := val .tscOffset, vIntr := val .intrControl, asid := (val .asid).extractLsb' 0 32
    nCr3 := if nested then val .nCr3 else t.svm.nCr3
    sevEs := t.feat.sevEs && Config.sevEs (val .sevControl)
    snpActive := t.feat.snp && Config.snpActive (val .sevControl)
    vmpl := Config.vmpl (val .sevControl) } }

theorem loadControl_eq {pa : Quad} (h : t.Holds (vmcbAt pa) val) : t.loadControl pa = .ok (t.controlOf pa val) := by
  simp only [State.loadControl, h _, ok_bind]
  rfl

/-- The state that a VMCB holds, at the level and in the shadow that it says. -/
def State.guestOf (t : State) (val : VmcbField → Quad) : State :=
  let u := t.coreOf val
  { u with
    seg := { u.seg with es := recordSeg val .es, cs := recordSeg val .cs, ss := recordSeg val .ss, ds := recordSeg val .ds }
    ctl := { u.ctl with cr2 := val .cr2 }
    dbg := { u.dbg with dr6 := val .dr6, dr7 := val .dr7 }
    exec := { u.exec with shadow := if (val .shadow).getLsbD 0 then .sti else .none }
    svm := { u.svm with gPat := if u.svm.npEnable then val .gPat else u.svm.gPat }
    cpl := if (val .cr0).getLsbD 0 = false then 0 else if (val .rflags).getLsbD 17 then 3 else (val .cpl).extractLsb' 0 2 }

theorem guestCpl_eq (val : VmcbField → Quad) (ctl : u.ctl.cr0 = val .cr0 ||| 0x10) (flags : u.flags = .ofBits (val .rflags)) (v : Quad) :
    u.guestCpl v = if (val .cr0).getLsbD 0 = false then 0 else if (val .rflags).getLsbD 17 then 3 else v.extractLsb' 0 2 := by
  have real : u.realMode = !(val .cr0).getLsbD 0 := by
    rw [State.realMode, State.pe, ctl, BitVec.getLsbD_or]
    exact congrArg _ (Bool.or_false _)
  rw [State.guestCpl, real, flags]
  cases (val .cr0).getLsbD 0 <;> rfl

theorem loadGuest_eq {pa : Quad} (h : t.Holds (vmcbAt pa) val) : t.loadGuest pa = .ok (t.switchWorld (t.guestOf val)) := by
  simp only [State.loadGuest, getSeg_eq h, h _, loadCore_eq h, ok_bind, guestCpl_eq val (u := { t.coreOf val with
    seg := { (t.coreOf val).seg with es := recordSeg val .es, cs := recordSeg val .cs, ss := recordSeg val .ss, ds := recordSeg val .ds }
    ctl := { (t.coreOf val).ctl with cr2 := val .cr2 }
    dbg := { (t.coreOf val).dbg with dr6 := val .dr6, dr7 := val .dr7 }
    exec := { (t.coreOf val).exec with shadow := if (val .shadow).getLsbD 0 then .sti else .none }
    svm := { (t.coreOf val).svm with gPat := if (t.coreOf val).svm.npEnable then val .gPat else (t.coreOf val).svm.gPat } }) rfl rfl]
  rfl

/-- The state in which VMRUN has saved the host. -/
def State.hosted (s : State) (pa : Quad) (mem : List Host.Cell) : State := { s.start with svm := { s.svm with vmcb := pa }, mem := mem }

/-- The guest that VMRUN loads, before its consistency checks. -/
def State.guestLoaded (s : State) (pa : Quad) (mem : List Host.Cell) (val : VmcbField → Quad) : State :=
  ((s.hosted pa mem).controlOf pa val).switchWorld (((s.hosted pa mem).controlOf pa val).guestOf val)

/-- VMRUN once the host is saved. -/
theorem vmrun_eq {pa : Quad} {h : State} (lbr : s.feat.lbrVirt = false)
    (saved : ({ s.start with svm := { s.svm with vmcb := pa } } : State).saveHost = .ok h) (holds : h.Holds (vmcbAt pa) val) :
    s.start.vmrun pa = if Config.guestInvalid (s.guestLoaded pa h.mem val).guestCheck || (s.guestLoaded pa h.mem val).needsLongMode then
      .ok (.exit (s.guestLoaded pa h.mem val) .invalid)
    else .ok (.enter { s.guestLoaded pa h.mem val with svm := { (s.guestLoaded pa h.mem val).svm with gif := true } }) := by
  have frame : h = s.hosted pa h.mem := putFields_frame saved
  have control : h.loadControl pa = .ok (h.controlOf pa val) := loadControl_eq holds
  have guest : (h.controlOf pa val).loadGuest pa = .ok (s.guestLoaded pa h.mem val) :=
    (loadGuest_eq (t := h.controlOf pa val) (holds.congr rfl rfl)).trans
      (congrArg (fun k : State => Except.ok (ε := Trap) ((k.controlOf pa val).switchWorld ((k.controlOf pa val).guestOf val))) frame)
  have feat : (s.guestLoaded pa h.mem val).feat.lbrVirt = false := by
    rw [State.guestLoaded, switchWorld_eq]
    exact lbr
  rw [State.vmrun, show ({ s.start with svm := { s.start.svm with vmcb := pa } } : State).saveHost = .ok h from saved, ok_bind, control,
    ok_bind, guest, ok_bind, swapLbr_off feat, ok_bind]

/-- The state of a guest, before the free upper halves and the width of rIP. -/
def State.guestRaw (s : State) (pa : Quad) (mem : List Host.Cell) (val : VmcbField → Quad) : State :=
  let h := s.hosted pa mem
  let nested := s.feat.nestedPaging && (val .npEnable).getLsbD 0
  { h with
    ctl := { s.ctl with
      cr0 := val .cr0 ||| 0x10, cr2 := val .cr2, cr3 := val .cr3, cr4 := val .cr4, efer := val .efer }
    dbg := { s.dbg with dr6 := val .dr6, dr7 := val .dr7 }
    seg := { s.seg with es := recordSeg val .es, cs := recordSeg val .cs, ss := recordSeg val .ss, ds := recordSeg val .ds }
    gdtr := { base := val .gdtrBase, limit := (val .gdtrLimit).extractLsb' 0 16 }
    idtr := { base := val .idtrBase, limit := (val .idtrLimit).extractLsb' 0 16 }
    flags := .ofBits (val .rflags)
    cpl := if (val .cr0).getLsbD 0 = false then 0 else if (val .rflags).getLsbD 17 then 3 else (val .cpl).extractLsb' 0 2
    exec := { s.start.exec with
      shadow := if (val .shadow).getLsbD 0 then .sti else .none
      monitor := { s.exec.monitor with armed := false } }
    svm := { s.svm with
      vmcb := pa, guest := true, npEnable := nested
      intercepts := val (.intercepts 3) ++ val (.intercepts 2) ++ val (.intercepts 1) ++ val (.intercepts 0)
      tscOffset := val .tscOffset, vIntr := val .intrControl, asid := (val .asid).extractLsb' 0 32
      nCr3 := if nested then val .nCr3 else s.svm.nCr3
      gPat := if nested then val .gPat else s.svm.gPat
      sevEs := s.feat.sevEs && Config.sevEs (val .sevControl)
      snpActive := s.feat.snp && Config.snpActive (val .sevControl)
      vmpl := Config.vmpl (val .sevControl) } }

theorem guestLoaded_eq (pa : Quad) (mem : List Host.Cell) (val : VmcbField → Quad) :
    s.guestLoaded pa mem val = { s.start.enterMode (s.guestRaw pa mem val) with
      gpr := { (s.start.enterMode (s.guestRaw pa mem val)).gpr with rsp := val .rsp, rax := val .rax }
      rip := if (s.guestRaw pa mem val).mode64 then val .rip else BitVec.ofNat 64 ((val .rip).toNat % 2 ^ 32) } := by
  have gpr := enterMode_gpr_congr (t := (s.hosted pa mem).controlOf pa val) (t' := s.start)
    (u := ((s.hosted pa mem).controlOf pa val).guestOf val) (u' := s.guestRaw pa mem val) rfl rfl rfl (a := val .rsp) (b := val .rax) rfl
    (val .rsp) (val .rax)
  have rip : (((s.hosted pa mem).controlOf pa val).guestOf val).rip = val .rip := rfl
  have mode : (((s.hosted pa mem).controlOf pa val).guestOf val).mode64 = (s.guestRaw pa mem val).mode64 := rfl
  have rsp : (((s.hosted pa mem).controlOf pa val).guestOf val).gpr.rsp = val .rsp := rfl
  have rax : (((s.hosted pa mem).controlOf pa val).guestOf val).gpr.rax = val .rax := rfl
  rw [State.guestLoaded, switchWorld_eq, rsp, rax, rip, mode, gpr, enterMode_frame s.start]
  rfl

/-- VMRUN without an intercept. -/
theorem vmrun_run {body : Res VmEnd} {pa : Quad} (addr : s.start.vmcbAddr asz = .ok pa)
    (free : ¬(s.svm.guest = true ∧ Config.intercepted s.svm.intercepts .vmrun = true)) (h : s.start.vmrun pa = body) :
    exec (.vmrun asz) s = runVm s fun _ => body := by
  have off : s.start.intercepts .vmrun = false := Bool.eq_false_iff.mpr fun h => free ((intercepts_iff .vmrun).mp h)
  rw [exec_vmrun, execVmrun, runVm, runVm]
  simp only [addr, ok_bind, off, Bool.false_eq_true, if_false, h]

theorem needsLongMode_eq : u.needsLongMode = !(u.feat.lm || !(u.eferBit 8 || u.eferBit 10)) := by
  rw [State.needsLongMode, Bool.not_or, Bool.not_not]

/-- A guest that VMRUN enters. -/
theorem vmrun_entered {pa : Quad} (h : s.start.vmrun pa = .ok (.enter t)) :
    t.svm.guest = true ∧ t.svm.gif = true ∧ t.svm.vmcb = pa ∧ t.svm.vmHsavePa = s.svm.vmHsavePa ∧ t.cfg = s.cfg := by
  simp only [State.vmrun, bind_ok] at h
  obtain ⟨a, saved, b, control, c, guest, d, swapped, h⟩ := h
  have running : b.svm.guest = true ∧ b.svm.vmcb = pa ∧ b.svm.vmHsavePa = a.svm.vmHsavePa ∧ b.cfg = a.cfg := by
    simp only [State.loadControl, bind_ok, Except.ok.injEq] at control
    obtain ⟨_, -, _, -, _, -, _, -, _, -, _, -, _, -, _, -, _, -, _, -, rfl⟩ := control
    exact ⟨rfl, rfl, rfl, rfl⟩
  have before : a.worldKey = ({ s.start with svm := { s.start.svm with vmcb := pa } } : State).worldKey := putFields_key saved
  have after : d.worldKey = b.worldKey := (swapLbr_key c _ _ _ d swapped).trans (loadGuest_key b pa c guest)
  simp only [State.worldKey, Prod.mk.injEq] at before after
  obtain ⟨-, -, -, -, -, area, cfg, -⟩ := before
  obtain ⟨-, kept, vmcb, -, -, area', cfg', -⟩ := after
  obtain ⟨guest, addr, host, world⟩ := running
  split at h
  · cases h
  · cases h
    exact ⟨kept.trans guest, rfl, vmcb.trans addr, area'.trans (host.trans area), cfg'.trans (world.trans cfg)⟩

theorem needLoader_eq (prot : s.protMode = true) (level : s.cpl = 0) :
    s.start.needLoader = if s.eferBit 12 || s.feat.svmLock || s.feat.skinit then .ok () else .error ud := by
  rw [State.needLoader, State.needProt, start_protMode, prot, require_true, ok_bind, start_eferBit, start_feat, require_bind]
  split
  · exact needCpl0_of (t := s.start) level
  · rfl

theorem needBroadcast_ok (prot : s.protMode = true) (level : s.cpl = 0) (feat : s.feat.invlpgb = true) (host : s.svm.guest = false) :
    s.start.needBroadcast = .ok () := by
  rw [State.needBroadcast, State.needProt, start_protMode, prot, require_true, ok_bind, start_feat, feat, State.start_svm, host]
  exact needCpl0_of (t := s.start) level

theorem needBroadcast_ud (prot : s.protMode = true) (feat : s.feat.invlpgb = false) : s.start.needBroadcast = .error ud := by
  rw [State.needBroadcast, State.needProt, start_protMode, prot, require_true, ok_bind, start_feat, feat]
  rfl

/-- The operands that INVLPGB accepts. -/
theorem broadcastLegal_iff : t.broadcastLegal = true ↔ t.gpr.rax.toNat / 64 % 64 = 0 ∧
    (t.gpr.rax.toNat / 32 % 2 = 1 → t.feat.invlpgbNested = true) ∧ t.gpr.rdx.toNat / 2 ^ 28 % 16 = 0 ∧
    (t.cr4Bit 17 = false → t.gpr.rdx.toNat / 2 ^ 16 % 2 ^ 12 = 0) ∧ (t.eferBit 12 = false → t.gpr.rdx.toNat % 2 ^ 16 = 0) ∧
    t.gpr.rdx.toNat % 2 ^ 16 ≤ (t.cpuidTable 0x8000000A 0).ebx.toNat ∧ t.gpr.rcx.toNat % 2 ^ 16 ≤ t.cfg.invlpgbCountMax ∧
    ¬(t.pg = true ∧ t.cr4Bit 4 = true ∧ t.cr4Bit 5 = false) := by
  have nested : t.gpr.rax.getLsbD 5 = decide (t.gpr.rax.toNat / 32 % 2 = 1) := by
    rw [← BitVec.testBit_toNat, Nat.testBit_eq_decide_div_mod_eq]
  have field (v : Quad) (start len : Nat) : (v.extractLsb' start len == 0) = decide (v.toNat / 2 ^ start % 2 ^ len = 0) := by
    rw [Bool.eq_iff_iff, beq_iff_eq, decide_eq_true_iff, ← BitVec.toNat_inj, BitVec.extractLsb'_toNat, Nat.shiftRight_eq_div_pow,
      show (0 : BitVec len).toNat = 0 from BitVec.toNat_zero]
  have low (v : Quad) : (v.extractLsb' 0 16).toNat = v.toNat % 2 ^ 16 := by
    rw [BitVec.extractLsb'_toNat, Nat.shiftRight_zero]
  simp only [State.broadcastLegal, field, nested, low, Bool.and_eq_true, Bool.or_eq_true, decide_eq_true_iff, Bool.not_eq_true',
    beq_iff_eq, and_assoc]
  have given (b : Bool) (p : Prop) : (b = true ∨ p) ↔ (b = false → p) := by cases b <;> simp
  refine and_congr Iff.rfl (and_congr ?_ (and_congr Iff.rfl (and_congr (given _ _) (and_congr (given _ _) (and_congr Iff.rfl
    (and_congr Iff.rfl ?_))))))
  · rw [decide_eq_false_iff_not, ← imp_iff_not_or]
  · cases t.pg <;> cases t.cr4Bit 4 <;> cases t.cr4Bit 5 <;> decide

/-- The secure loader block: rAX[31:16] with the low half clear. -/
theorem loaderBlock_eq (v : Quad) : v &&& 0xFFFF0000 = BitVec.ofNat 64 (v.toNat % 2 ^ 32 / 2 ^ 16 * 2 ^ 16) := by
  have mask : ∀ i < 64, (0xFFFF0000 : Quad).getLsbD i = (decide (i < 32) && decide (16 ≤ i)) := by decide
  refine BitVec.eq_of_getLsbD_eq fun i small => ?_
  rw [BitVec.getLsbD_and, mask i small, BitVec.getLsbD_ofNat, decide_eq_true small, Bool.true_and, Nat.mul_comm,
    Nat.testBit_two_pow_mul, Nat.testBit_div_two_pow]
  by_cases low : 16 ≤ i
  · rw [decide_eq_true low, Nat.sub_add_cancel low, Nat.testBit_mod_two_pow, BitVec.testBit_toNat, Bool.and_true, Bool.true_and,
      Bool.and_comm]
  · rw [decide_eq_false low, Bool.and_false, Bool.and_false, Bool.false_and]

theorem trunc_add_ofNat (v : Quad) (n : Nat) : trunc .w32 (v + BitVec.ofNat 64 n) = BitVec.ofNat 64 ((v.toNat + n) % 2 ^ 32) := by
  rw [trunc_w32, BitVec.toNat_add, BitVec.toNat_ofNat]
  congr 1
  omega

/-- Settles O56. -/
theorem virtualMachineInstructions : Obligations.VirtualMachineInstructions := by
  intro s t asz seg val w entry h tf prot level pa area reg taken stop
  have idle {i : Config.Intercept} (free : ¬taken i) : s.start.intercepts i = false :=
    Bool.eq_false_iff.mpr fun hit => free ((intercepts_iff i).mp hit)
  refine ⟨fun svm enabled => ⟨?clgi, fun small page => ⟨fun holds => ?vmload, fun saved => ?vmsave, fun hit => ?vmrun, fun free ran => ?entered,
      fun free ran => ?invalid, ?guest⟩, fun bad i listed => ?bad, fun hit => ?vmmcall, fun free => ?noVmmcall, fun es guest sevEs => ?vmgexit,
      fun off => ?noVmgexit⟩,
    fun off i listed => ?off, fun loader => ⟨?stgi, ?skinit⟩, fun none => ?noLoader, fun feat host => ⟨?tlbsync, ?invlpgb⟩, fun none => ?noBroadcast⟩
  case clgi =>
    rw [exec_clgi, execClgi]
    apply run_ok tf
    rw [State.needSvm, State.needProt, start_feat, start_protMode, start_eferBit, svm, prot, enabled]
    show (s.start.needCpl0 >>= fun _ => _) = _
    rw [needCpl0_of (t := s.start) level]
    rfl
  case vmload =>
    have addr := (vmcbAddr_eq (asz := asz) svm enabled prot level).trans (if_pos ⟨small, page⟩)
    have holds : s.start.Holds (vmcbAt (BitVec.ofNat 64 (uns (addrWidth asz) s.gpr.rax))) val := holds
    rw [exec_vmload, execVmload]
    apply run_ok tf
    simp only [addr, ok_bind, getSeg_eq holds, holds _]
    rfl
  case vmsave =>
    have addr := (vmcbAddr_eq (asz := asz) svm enabled prot level).trans (if_pos ⟨small, page⟩)
    rw [exec_vmsave, execVmsave]
    apply run_ok tf
    rw [addr, ok_bind]
    exact saved
  case vmrun =>
    have addr := (vmcbAddr_eq (asz := asz) svm enabled prot level).trans (if_pos ⟨small, page⟩)
    rw [exec_vmrun, execVmrun]
    apply runVm_exit
    rw [addr, ok_bind, if_pos ((intercepts_iff .vmrun).mpr hit)]
  case entered =>
    have addr := (vmcbAddr_eq (asz := asz) svm enabled prot level).trans (if_pos ⟨small, page⟩)
    obtain ⟨guest, gif, vmcb, host, cfg⟩ := vmrun_entered ran
    refine ⟨guest, gif, vmcb, host, cfg, fun event none => ?_⟩
    have event : t.getField (vmcbAt t.svm.vmcb) .eventInj = .ok w := by
      rw [vmcb]
      exact event
    rw [vmrun_run addr free ran, runVm_enter rfl, State.enterGuest, event]
    simp only [none]
  case invalid =>
    have addr := (vmcbAddr_eq (asz := asz) svm enabled prot level).trans (if_pos ⟨small, page⟩)
    rw [vmrun_run addr free ran, runVm_exit rfl]
  case guest =>
    intro free lbr saved holds nested guest opened g valid entered
    have addr := (vmcbAddr_eq (asz := asz) svm enabled prot level).trans (if_pos ⟨small, page⟩)
    obtain ⟨m, rfl⟩ : ∃ m, h = s.hosted pa m := ⟨h.mem, putFields_frame saved⟩
    have loaded : s.guestLoaded pa m val = g := guestLoaded_eq pa m val
    have ran := vmrun_eq lbr saved holds
    have accepted : (Config.guestInvalid g.guestCheck || g.needsLongMode) = decide ¬valid := by
      have long : g.needsLongMode = (!s.feat.lm && ((val .efer).getLsbD 8 || (val .efer).getLsbD 10)) := by
        rw [← loaded, State.guestLoaded, switchWorld_eq]
        rfl
      have legal : valid ↔ Config.guestInvalid g.guestCheck = false ∧ (s.feat.lm = true ∨ (val .efer).getLsbD 8 = false ∧
        (val .efer).getLsbD 10 = false) := Iff.rfl
      rw [long, Bool.eq_iff_iff, decide_eq_true_iff, legal]
      cases Config.guestInvalid g.guestCheck <;> cases s.feat.lm <;> cases (val .efer).getLsbD 8 <;> cases (val .efer).getLsbD 10 <;> decide
    rw [show (s.hosted pa m).mem = m from rfl, loaded, accepted] at ran
    have event : entered.getField (vmcbAt entered.svm.vmcb) .eventInj = .ok (val .eventInj) := by
      have vmcb : entered.svm.vmcb = pa := by
        show g.svm.vmcb = pa
        rw [← loaded, State.guestLoaded, switchWorld_eq]
        rfl
      have mem : entered.mem = m ∧ entered.cfg = s.cfg := by
        show g.mem = m ∧ g.cfg = s.cfg
        rw [← loaded, State.guestLoaded, switchWorld_eq]
        exact ⟨rfl, rfl⟩
      rw [vmcb, getField_congr (s := s.hosted pa m) mem.1 mem.2]
      exact holds _
    have enters (ok : valid) : s.start.vmrun pa = .ok (.enter entered) := by
      rw [ran, decide_eq_false (not_not.mpr ok), if_neg Bool.false_ne_true]
    refine ⟨fun bad => ?_, enters, fun ok none => ?_, fun x ok some => ?_⟩
    · rw [decide_eq_true bad, if_pos rfl] at ran
      rw [vmrun_run addr free ran, runVm_exit rfl]
    · rw [vmrun_run addr free (enters ok), runVm_enter rfl, State.enterGuest, event]
      simp only [none]
    · rw [vmrun_run addr free (enters ok), runVm_enter rfl, State.enterGuest, event]
      simp only [some]
      rfl
  case bad =>
    have refused : ¬(uns (addrWidth asz) s.gpr.rax < 2 ^ s.cfg.physAddrBits ∧ uns (addrWidth asz) s.gpr.rax % 4096 = 0) := by
      rcases bad with high | low
      · exact fun h => absurd h.1 (Nat.not_lt.mpr high)
      · exact fun h => low h.2
    have addr := (vmcbAddr_eq (asz := asz) svm enabled prot level).trans (if_neg refused)
    simp only [List.mem_cons, List.not_mem_nil, or_false] at listed
    rcases listed with rfl | rfl | rfl
    · rw [exec_vmload, execVmload]
      exact run_exc (by rw [addr]; rfl)
    · rw [exec_vmsave, execVmsave]
      exact run_exc (by rw [addr]; rfl)
    · rw [exec_vmrun, execVmrun]
      exact runVm_exc (by rw [addr]; rfl)
  case vmmcall =>
    have left : exec .vmmcall s = s.vmexit .vmmcall := by
      rw [exec_vmmcall, execVmmcall]
      apply runVm_exit
      rw [start_feat, start_eferBit, svm, enabled, State.vmmcall, if_pos ((intercepts_iff .vmmcall).mpr hit)]
      rfl
    exact ⟨left, fun out => left.trans out⟩
  case noVmmcall =>
    show exec .vmmcall s = _
    rw [exec_vmmcall, execVmmcall]
    apply runVm_exc
    rw [start_feat, start_eferBit, svm, enabled, State.vmmcall, idle free]
    rfl
  case vmgexit =>
    have left : exec .vmgexit s = s.vmexit .vmgexit := by
      rw [exec_vmgexit, execVmgexit]
      apply runVm_exit
      rw [start_feat, start_eferBit, svm, enabled, State.start_svm, es, guest, sevEs]
      rfl
    exact ⟨left, fun out => left.trans out⟩
  case noVmgexit =>
    have check : (s.feat.sevEs && s.svm.guest && s.svm.sevEs) = false := by
      rcases off with h | h | h <;> simp [h]
    rw [exec_vmgexit, execVmgexit, exec_vmmcall, execVmmcall, runVm, runVm]
    simp only [start_feat, State.start_svm, check, Bool.false_eq_true, if_false]
  case off =>
    have addr := vmcbAddr_ud (asz := asz) off
    have check : (s.feat.svm && s.eferBit 12) = false := by
      rcases off with h | h <;> simp [h]
    show exec i s = _
    simp only [List.mem_cons, List.not_mem_nil, or_false] at listed
    rcases listed with rfl | rfl | rfl | rfl | rfl | rfl
    · rw [exec_clgi, execClgi]
      exact run_exc (by rw [needSvm_ud prot off]; rfl)
    · rw [exec_vmload, execVmload]
      exact run_exc (by rw [addr]; rfl)
    · rw [exec_vmsave, execVmsave]
      exact run_exc (by rw [addr]; rfl)
    · rw [exec_vmrun, execVmrun]
      exact runVm_exc (by rw [addr]; rfl)
    · rw [exec_vmmcall, execVmmcall]
      exact runVm_exc (by rw [start_feat, start_eferBit, check]; rfl)
    · rw [exec_vmgexit, execVmgexit]
      exact runVm_exc (by rw [start_feat, start_eferBit, check]; rfl)
  case stgi =>
    rw [exec_stgi, execStgi]
    apply run_ok tf
    rw [needLoader_eq prot level, if_pos loader]
    rfl
  case skinit =>
    intro slb u below given
    have slb_eq : s.gpr.rax &&& 0xFFFF0000 = slb := loaderBlock_eq s.gpr.rax
    have first : s.start.readPa (slb.toNat + 2) 2 = .ok (s.loadAt (physRange (slb.toNat + 2) 2)) := readPa_ok.mpr ⟨fun p hp => by
      have := mem_physRange.mp hp
      rw [State.start_cfg]
      omega, rfl⟩
    have second : s.start.readPa slb.toNat 2 = .ok entry := readPa_ok.mpr ⟨fun p hp => by
      have := mem_physRange.mp hp
      rw [State.start_cfg]
      omega, given⟩
    have rip : trunc .w32 (slb + BitVec.ofNat 64 entry) = BitVec.ofNat 64 ((slb.toNat + entry) % 2 ^ 32) := trunc_add_ofNat slb entry
    have rsp : trunc .w32 (slb + 0x10000) = BitVec.ofNat 64 ((slb.toNat + 0x10000) % 2 ^ 32) := trunc_add_ofNat slb 0x10000
    rw [exec_skinit, execSkinit]
    apply run_ok tf
    rw [needLoader_eq prot level, if_pos loader, ok_bind]
    show (s.start.readPa ((s.gpr.rax &&& 0xFFFF0000).toNat + 2) 2 >>= fun _ => s.start.readPa (s.gpr.rax &&& 0xFFFF0000).toNat 2 >>=
      fun entry => .ok ((s.start.loaderState (s.gpr.rax &&& 0xFFFF0000)).setRip
        (trunc .w32 ((s.gpr.rax &&& 0xFFFF0000) + BitVec.ofNat 64 entry)))) = _
    rw [slb_eq, first, ok_bind, second, ok_bind, rip, State.loaderState, rsp]
    rfl
  case noLoader =>
    have refused : s.start.needLoader = .error ud := (needLoader_eq prot level).trans (if_neg (by rw [none]; exact Bool.false_ne_true))
    show exec .stgi s = _ ∧ exec .skinit s = _
    rw [exec_stgi, execStgi, exec_skinit, execSkinit]
    exact ⟨run_exc (by rw [refused]; rfl), run_exc (by rw [refused]; rfl)⟩
  case tlbsync =>
    rw [exec_tlbsync, execTlbsync]
    apply run_ok tf
    rw [needBroadcast_ok prot level feat host]
    rfl
  case invlpgb =>
    intro a d legal
    have free (i : Config.Intercept) : s.start.intercepts i = false := idle fun hit => Bool.false_ne_true (host.symm.trans hit.1)
    rw [exec_invlpgb, execInvlpgb]
    refine ⟨fun ok => runVm_done tf ?_, fun bad => runVm_exc ?_⟩
    · have accepted : s.start.broadcastLegal = true := broadcastLegal_iff.mpr ok
      rw [needBroadcast_ok prot level feat host, ok_bind, free, free, accepted]
      rfl
    · have refused : s.start.broadcastLegal = false := Bool.eq_false_iff.mpr fun ok => bad (broadcastLegal_iff.mp ok)
      rw [needBroadcast_ok prot level feat host, ok_bind, free, free, refused]
      rfl
  case noBroadcast =>
    have refused := needBroadcast_ud prot none
    show exec .tlbsync s = _ ∧ exec (.invlpgb seg asz) s = _
    rw [exec_tlbsync, execTlbsync, exec_invlpgb, execInvlpgb]
    exact ⟨run_exc (by rw [refused]; rfl), runVm_exc (by rw [refused]; rfl)⟩

end Sys2Proof.Machine
end

