-- ==== Sys2Proof/Proofs/Exits.lean ====
section
/-! PROOFS. The statement about #VMEXIT (52_sys_s_w.md R842, 60_exceptions.md R926). -/

namespace Sys2Proof.Machine

open Config (VmcbField VmSeg)

variable {s t u : State} {val : VmcbField → Quad}

/-! ### A world switch never ends in a refusal -/

/-- A computation that does not end in a refusal. -/
def NoRefusal {α : Type} (x : Res α) : Prop := ∀ r, x ≠ .error (.refuse r)

section

variable {α β : Type}

theorem noRefusal_ok (a : α) : NoRefusal (.ok a : Res α) := fun _ h => nomatch h

theorem noRefusal_exc (x : Exn) : NoRefusal (.error (.exc x) : Res α) := fun _ h => nomatch h

theorem noRefusal_fault (f : Fault) : NoRefusal (.error (.fault f) : Res α) := fun _ h => nomatch h

theorem noRefusal_error {x : Res α} {e : Trap} (h : NoRefusal x) (he : x = .error e) : NoRefusal (.error e : Res β) := fun r k =>
  h r (he.trans (congrArg Except.error (Except.error.inj k)))

theorem noRefusal_bind {x : Res α} {f : α → Res β} (h : NoRefusal x) (k : ∀ a, NoRefusal (f a)) : NoRefusal (x >>= f) := by
  cases x with
  | ok a => exact k a
  | error e => exact noRefusal_error h rfl

theorem noRefusal_ite {c : Prop} [Decidable c] {x y : Res α} (hx : NoRefusal x) (hy : NoRefusal y) : NoRefusal (if c then x else y) := by
  split
  · exact hx
  · exact hy

end

theorem translate_noRefusal (acc : Config.Access) (lin : Quad) : NoRefusal (t.translate acc lin) := by
  unfold State.translate
  split
  · split
    · exact noRefusal_ok _
    · exact noRefusal_exc _
  · exact noRefusal_ok _

theorem physAddrs_noRefusal (acc : Config.Access) (wrap32 : Bool) (n : Nat) : ∀ lin, NoRefusal (t.physAddrs acc wrap32 n lin) := by
  induction n with
  | zero => exact fun _ => noRefusal_ok _
  | succ n ih =>
    intro lin
    have here := translate_noRefusal (t := t) acc lin
    unfold State.physAddrs
    split
    next e he => exact noRefusal_error here he
    next =>
      have next := ih (nextLin wrap32 lin)
      split
      next e he => exact noRefusal_error next he
      next => exact noRefusal_ok _

theorem span_noRefusal (acc : Config.Access) (wrap32 : Bool) (lin : Quad) : NoRefusal (t.span acc wrap32 lin) := by
  have bytes := physAddrs_noRefusal (t := t) acc wrap32 acc.size lin
  unfold State.span
  split
  next e he => exact noRefusal_error bytes he
  next =>
    split
    · exact noRefusal_fault _
    · exact noRefusal_ok _

theorem tableRead_noRefusal {x : Exn} (base : Quad) (limit : BitVec 32) (off n : Nat) : NoRefusal (t.tableRead (.exc x) base limit off n) :=
  noRefusal_bind (noRefusal_ite (noRefusal_ok _) (noRefusal_exc _)) fun _ =>
    noRefusal_bind (span_noRefusal _ _ _) fun _ => noRefusal_ok _

theorem getField_noRefusal (a : Area) (f : VmcbField) : NoRefusal (t.getField a f) := by
  refine noRefusal_bind ?_ fun _ => noRefusal_ok _
  unfold State.readPa
  split
  · exact noRefusal_fault _
  · exact noRefusal_ok _

theorem putFields_noRefusal (a : Area) (fields : List (VmcbField × Quad)) : ∀ t : State, NoRefusal (t.putFields a fields) := by
  induction fields with
  | nil => exact fun t => noRefusal_ok t
  | cons x fields ih =>
    refine fun t => noRefusal_bind ?_ ih
    unfold State.writePa
    split
    · exact noRefusal_fault _
    · exact noRefusal_ok _

theorem loadCore_noRefusal (a : Area) : NoRefusal (t.loadCore a) := by
  have field (f : VmcbField) : NoRefusal (t.getField a f) := getField_noRefusal a f
  refine noRefusal_bind (field _) fun _ => noRefusal_bind (field _) fun _ => noRefusal_bind (field _) fun _ => ?_
  refine noRefusal_bind (field _) fun _ => noRefusal_bind (field _) fun _ => noRefusal_bind (field _) fun _ => ?_
  refine noRefusal_bind (field _) fun _ => noRefusal_bind (field _) fun _ => noRefusal_bind (field _) fun _ => ?_
  exact noRefusal_bind (field _) fun _ => noRefusal_bind (field _) fun _ => noRefusal_bind (field _) fun _ => noRefusal_ok _

theorem loadLbr_noRefusal (a : Area) : NoRefusal (t.loadLbr a) := by
  have field (f : VmcbField) : NoRefusal (t.getField a f) := getField_noRefusal a f
  exact noRefusal_bind (field _) fun _ => noRefusal_bind (field _) fun _ => noRefusal_bind (field _) fun _ =>
    noRefusal_bind (field _) fun _ => noRefusal_bind (field _) fun _ => noRefusal_ok _

theorem swapLbr_noRefusal (vmcb store load : Area) : NoRefusal (t.swapLbr vmcb store load) :=
  noRefusal_ite (noRefusal_bind (getField_noRefusal _ _) fun _ => noRefusal_ite
    (noRefusal_bind (putFields_noRefusal _ _ _) fun _ => loadLbr_noRefusal _) (noRefusal_ok _)) (noRefusal_ok _)

theorem hostSeg_noRefusal (old : SegReg) (r : VmSeg) : NoRefusal (t.hostSeg old r) :=
  noRefusal_bind (getField_noRefusal _ _) fun _ => noRefusal_ite (noRefusal_ok _)
    (noRefusal_bind (tableRead_noRefusal _ _ _ _) fun _ => noRefusal_ok _)

theorem returnToHost_noRefusal : NoRefusal t.returnToHost := by
  have host : NoRefusal t.loadHost := noRefusal_bind (loadCore_noRefusal _) fun _ =>
    noRefusal_bind (hostSeg_noRefusal _ _) fun _ => noRefusal_bind (hostSeg_noRefusal _ _) fun _ =>
    noRefusal_bind (hostSeg_noRefusal _ _) fun _ => noRefusal_bind (hostSeg_noRefusal _ _) fun _ => noRefusal_ok _
  exact noRefusal_bind host fun _ => noRefusal_bind (swapLbr_noRefusal _ _ _) fun _ => noRefusal_ok _

/-! ### The state after a #VMEXIT -/

/-- The host that a #VMEXIT of `s` leaves: no guest runs, and GIF is clear. -/
structure State.Left (s t : State) : Prop where
  gif : t.svm.gif = false
  guest : t.svm.guest = false
  intercepts : t.svm.intercepts = 0
  asid : t.svm.asid = 0
  area : t.svm.vmHsavePa = s.svm.vmHsavePa
  cfg : t.cfg = s.cfg
  count : t.freeCount = s.freeCount

theorem State.Left.of_key {v : State} (h : s.Left v) (key : t.worldKey = v.worldKey) : s.Left t := by
  obtain ⟨gif, guest, intercepts, asid, area, cfg, count⟩ := h
  simp only [State.worldKey, Prod.mk.injEq] at key
  obtain ⟨kgif, kguest, -, kintercepts, kasid, karea, kcfg, kcount⟩ := key
  exact ⟨kgif.trans gif, kguest.trans guest, kintercepts.trans intercepts, kasid.trans asid, karea.trans area, kcfg.trans cfg,
    kcount.trans count⟩

theorem shutdown_left (h : s.Left t) : s.Left t.shutdown := h.of_key rfl

theorem leaveGuest_left (h : (u.svm.vmHsavePa, u.cfg, u.freeCount) = (s.svm.vmHsavePa, s.cfg, s.freeCount)) :
    s.Left { u with svm := u.svm.leaveGuest } := by
  simp only [Prod.mk.injEq] at h
  obtain ⟨area, cfg, count⟩ := h
  exact ⟨rfl, rfl, rfl, rfl, area, cfg, count⟩

theorem returnToHost_key (t : State) : Ends (fun u => u.worldKey = t.worldKey) t.returnToHost := by
  refine ends_bind fun v hv => ends_bind fun w hw => ends_ok ?_
  have kept : w.worldKey = t.worldKey := (swapLbr_key v _ _ _ w hw).trans (loadHost_key t v hv)
  split
  · exact kept
  · exact kept

/-- A #VMEXIT leaves the guest, and ends in the host or in the single-step trap of the host, unless memory is missing. -/
theorem vmexit_left (s : State) (e : Config.ExitName) :
    (∃ t, (s.vmexit e = .next t ∨ t.flags.tf = true ∧ s.vmexit e = t.singleStep) ∧ s.Left t) ∨
      ∃ a, s.vmexit e = .fault (.noMemory a) := by
  rw [State.vmexit]
  cases saved : ({ s with svm := { s.svm with gif := false } } : State).saveGuest e with
  | ok u =>
    have left : s.Left { u with svm := u.svm.leaveGuest } := leaveGuest_left (by rw [putFields_frame saved])
    cases back : ({ u with svm := u.svm.leaveGuest } : State).returnToHost with
    | ok w =>
      refine .inl ⟨w, ?_, left.of_key (returnToHost_key _ w back)⟩
      simp only [back, State.resumeHost]
      split
      next trap =>
        obtain ⟨tf, -⟩ := Bool.and_eq_true_iff.mp trap
        exact .inr ⟨tf, rfl⟩
      next => exact .inl rfl
    | error x =>
      cases x with
      | exc x =>
        refine .inl ⟨_, .inl ?_, shutdown_left left⟩
        simp only [back]
      | fault f =>
        cases f with
        | noMemory a =>
          refine .inr ⟨a, ?_⟩
          simp only [back]
      | refuse r => exact absurd back (returnToHost_noRefusal r)
  | error x =>
    cases x with
    | exc x => exact .inl ⟨_, .inl rfl, shutdown_left (leaveGuest_left (s := s) (u := s) rfl)⟩
    | fault f =>
      cases f with
      | noMemory a => exact .inr ⟨a, rfl⟩
    | refuse r => exact absurd saved (putFields_noRefusal _ _ _ r)

/-! ### The host reloaded -/

/-- The registers of the host, without the segments. -/
def State.hostCore (t : State) (val : VmcbField → Quad) : State :=
  { t with
    gpr := { t.gpr with rsp := val .rsp, rax := val .rax }
    rip := val .rip
    flags := .ofBits (val .rflags)
    gdtr := { base := val .gdtrBase, limit := (val .gdtrLimit).extractLsb' 0 16 }
    idtr := { base := val .idtrBase, limit := (val .idtrLimit).extractLsb' 0 16 }
    ctl := { t.ctl with cr0 := val .cr0 ||| 0x11, cr3 := val .cr3, cr4 := val .cr4, efer := val .efer }
    dbg := { t.dbg with dr7 := 0x400 }
    cpl := 0 }

/-- The selector of a host segment. -/
def hostSel (val : VmcbField → Quad) (r : VmSeg) : BitVec 16 := (val (.seg r .sel)).extractLsb' 0 16

/-- The descriptor of a host segment, as a #VMEXIT reads it. -/
def State.hostDesc (t : State) (val : VmcbField → Quad) (r : VmSeg) : Res Quad :=
  (t.hostCore val).hostMode.tableRead (gpSel (hostSel val r)) (t.hostCore val).gdtr.base ((t.hostCore val).gdtr.limit.setWidth 32)
    ((hostSel val r).toNat / 8 * 8) 8

/-- A host segment by its selector and its descriptor. -/
def hostReg (val : VmcbField → Quad) (desc : VmSeg → Quad) (r : VmSeg) (old : SegReg) : SegReg :=
  if isNull (hostSel val r) then { old with sel := hostSel val r } else descSeg (hostSel val r) (desc r)

theorem and_FFF8 (sel : BitVec 16) : (sel &&& 0xFFF8).toNat = sel.toNat / 8 * 8 := by
  have mask : ∀ i < 16, (0xFFF8 : BitVec 16).getLsbD i = decide (3 ≤ i) := by decide
  have same : sel &&& 0xFFF8 = BitVec.ofNat 16 (sel.toNat / 2 ^ 3 * 2 ^ 3) := by
    refine BitVec.eq_of_getLsbD_eq fun i small => ?_
    rw [BitVec.getLsbD_and, mask i small, BitVec.getLsbD_ofNat, decide_eq_true small, Bool.true_and, Nat.mul_comm,
      Nat.testBit_two_pow_mul, Nat.testBit_div_two_pow]
    by_cases low : 3 ≤ i
    · rw [decide_eq_true low, Nat.sub_add_cancel low, BitVec.testBit_toNat, Bool.and_true, Bool.true_and]
    · rw [decide_eq_false low, Bool.and_false, Bool.false_and]
  rw [same, BitVec.toNat_ofNat, Nat.mod_eq_of_lt (Nat.lt_of_le_of_lt (Nat.div_mul_le_self _ _) sel.isLt)]
  rfl

section

variable (holds : t.Holds t.hostArea val)
include holds

theorem hostSeg_eq (old : SegReg) (r : VmSeg) : (t.hostCore val).hostMode.hostSeg old r =
    if isNull (hostSel val r) then .ok { old with sel := hostSel val r }
    else t.hostDesc val r >>= fun d => .ok (descSeg (hostSel val r) d) := by
  have field : (t.hostCore val).hostMode.getField (t.hostCore val).hostMode.hostArea (.seg r .sel) = .ok (val (.seg r .sel)) :=
    (getField_congr rfl rfl _ _).trans (holds _)
  rw [State.hostSeg, field, ok_bind, State.hostDesc, ← and_FFF8]
  rfl

theorem hostSeg_read {desc : VmSeg → Quad} {r : VmSeg} (read : isNull (hostSel val r) = false → t.hostDesc val r = .ok (desc r)) (old : SegReg) :
    (t.hostCore val).hostMode.hostSeg old r = .ok (hostReg val desc r old) := by
  rw [hostSeg_eq holds, hostReg]
  cases null : isNull (hostSel val r) with
  | true => rfl
  | false => rw [read null]; rfl

end

/-- The segments of the host, loaded after its registers, and the world switch. -/
def State.reloadHost (t u : State) : Res State :=
  u.hostMode.hostSeg t.seg.es .es >>= fun es => u.hostMode.hostSeg t.seg.cs .cs >>= fun cs =>
  u.hostMode.hostSeg t.seg.ss .ss >>= fun ss => u.hostMode.hostSeg t.seg.ds .ds >>= fun ds =>
  .ok (t.switchWorld { u with seg := { u.seg with es := es, cs := cs, ss := ss, ds := ds }, exec := u.exec.toHost })

theorem loadHost_eq (holds : t.Holds t.hostArea val) : t.loadHost = t.reloadHost (t.hostCore val) := by
  have cr0 : val .cr0 ||| 0x10 ||| 1 = val .cr0 ||| 0x11 := BitVec.or_assoc _ _ _
  have core : ({ t.coreOf val with ctl := { (t.coreOf val).ctl with cr0 := (t.coreOf val).ctl.cr0 ||| 1 }
                                   dbg := { (t.coreOf val).dbg with dr7 := Debug.reset.dr7 }, cpl := 0 } : State) = t.hostCore val := by
    rw [State.hostCore, ← cr0]
    rfl
  have parts : t.loadHost = t.loadCore t.hostArea >>= fun u => t.reloadHost { u with
      ctl := { u.ctl with cr0 := u.ctl.cr0 ||| 1 }, dbg := { u.dbg with dr7 := Debug.reset.dr7 }, cpl := 0 } := rfl
  rw [parts, loadCore_eq holds, ok_bind, core]

/-- The host before the free upper halves and the width of rIP. -/
def State.hostBack (t : State) (val : VmcbField → Quad) (desc : VmSeg → Quad) : State :=
  { t.hostCore val with
    seg := { t.seg with
      es := hostReg val desc .es t.seg.es, cs := hostReg val desc .cs t.seg.cs
      ss := hostReg val desc .ss t.seg.ss, ds := hostReg val desc .ds t.seg.ds }
    exec := t.exec.toHost }

theorem loadHost_read {desc : VmSeg → Quad} (holds : t.Holds t.hostArea val)
    (read : ∀ r ∈ [VmSeg.es, .cs, .ss, .ds], isNull (hostSel val r) = false → t.hostDesc val r = .ok (desc r)) :
    t.loadHost = .ok (t.switchWorld (t.hostBack val desc)) := by
  rw [loadHost_eq holds, State.reloadHost, hostSeg_read holds (read .es (by decide)), ok_bind, hostSeg_read holds (read .cs (by decide)),
    ok_bind, hostSeg_read holds (read .ss (by decide)), ok_bind, hostSeg_read holds (read .ds (by decide)), ok_bind]
  rfl

/-- A descriptor of the host that cannot be read. -/
theorem loadHost_fails {e : Trap} (holds : t.Holds t.hostArea val) (present : isNull (hostSel val .es) = false)
    (fails : t.hostDesc val .es = .error e) : t.loadHost = .error e := by
  rw [loadHost_eq holds, State.reloadHost, hostSeg_eq holds, present, fails]
  rfl

theorem vmexit_error {e : Config.ExitName} {x : Exn} (saved : ({ s with svm := { s.svm with gif := false } } : State).saveGuest e = .ok u)
    (fails : ({ u with svm := u.svm.leaveGuest } : State).returnToHost = .error (.exc x)) :
    s.vmexit e = .next ({ u with svm := u.svm.leaveGuest } : State).shutdown := by
  rw [State.vmexit, saved]
  simp only [fails]

theorem vmexit_ok {e : Config.ExitName} (saved : ({ s with svm := { s.svm with gif := false } } : State).saveGuest e = .ok u)
    (back : ({ u with svm := u.svm.leaveGuest } : State).returnToHost = .ok t) : s.vmexit e = t.resumeHost := by
  rw [State.vmexit, saved]
  simp only [back]

theorem returnToHost_off {h : State} (lbr : h.feat.lbrVirt = false) (host : t.loadHost = .ok h) :
    t.returnToHost = .ok (if h.badHost then h.shutdown else h) := by
  rw [State.returnToHost, host, ok_bind, swapLbr_off lbr]
  rfl

theorem returnToHost_fails {e : Trap} (host : t.loadHost = .error e) : t.returnToHost = .error e := by
  rw [State.returnToHost, host]
  rfl

/-- A host that is illegal shuts down; another one goes on, after its single-step trap if it has one. -/
theorem resumeHost_eq (running : t.exec.activity = .running) : (if t.badHost then t.shutdown else t).resumeHost =
    if t.badHost then .next t.shutdown else if t.flags.tf then t.singleStep else .next t := by
  cases t.badHost with
  | true => exact if_neg (by rw [show (if true = true then t.shutdown else t).exec.activity = Activity.shutdown from rfl]; simp)
  | false =>
    have on : (t.exec.activity == Activity.running) = true := by rw [running]; rfl
    show (if (t.flags.tf && t.exec.activity == .running) = true then t.singleStep else .next t) = _
    rw [on, Bool.and_true]
    rfl

theorem savedShadow_eq (x : Shadow) : (bit (x != .none) : Quad) = if x = .none then 0 else 1 := by cases x <;> rfl

/-- Settles O57. -/
theorem vmexitResult : Obligations.VmexitResult := by
  refine ⟨fun s e => ?left, fun s t a fields ok put => ⟨putFields_frame put, (putFields_plain a fields s t put).2 ok,
    putFields_other put⟩, ?host⟩
  case left =>
    rcases vmexit_left s e with ⟨t, out, gif, guest, intercepts, asid, area, cfg, count⟩ | fault
    · exact .inl ⟨t, out, gif, guest, intercepts, asid, area, cfg, count⟩
    · exact .inr fault
  case host =>
    intro s u e val desc x masked put holds left core sel read reg
    have saved : masked.saveGuest e = .ok u := by
      rw [State.saveGuest, savedShadow_eq]
      exact put
    obtain ⟨m, rfl⟩ : ∃ m, u = { masked with mem := m } := ⟨u.mem, putFields_frame put⟩
    have held : left.Holds left.hostArea val := holds
    refine ⟨fun present fails lbr => ?_, fun lbr reads => ?_⟩
    · exact vmexit_error saved (returnToHost_fails (loadHost_fails held present fails))
    · intro back free host legal
      have loaded : left.switchWorld (left.hostBack val desc) = host := by
        have gpr := enterMode_gpr_congr (t := left) (t' := s) (u := left.hostBack val desc) (u' := back) rfl rfl rfl (a := val .rsp)
          (b := val .rax) rfl (val .rsp) (val .rax)
        have rip : (left.hostBack val desc).rip = val .rip := rfl
        have mode : (left.hostBack val desc).mode64 = back.mode64 := rfl
        have rsp : (left.hostBack val desc).gpr.rsp = val .rsp := rfl
        have rax : (left.hostBack val desc).gpr.rax = val .rax := rfl
        have entered : host = _ := congrArg (fun f : State => ({ f with
            gpr := { f.gpr with rsp := val .rsp, rax := val .rax }
            rip := if back.mode64 then val .rip else BitVec.ofNat 64 ((val .rip).toNat % 2 ^ 32) } : State)) (enterMode_frame s back)
        rw [switchWorld_eq, rsp, rax, rip, mode, gpr, entered]
        rfl
      have reloaded : left.loadHost = .ok host := (loadHost_read held reads).trans (congrArg Except.ok loaded)
      have feat : host.feat = s.feat := by
        rw [← loaded, switchWorld_eq]
        rfl
      have running : host.exec.activity = .running := by
        rw [← loaded, switchWorld_eq]
        rfl
      have flags : host.flags = .ofBits (val .rflags) := by
        rw [← loaded, switchWorld_eq]
        rfl
      have efer : host.ctl.efer = val .efer := by
        rw [← loaded, switchWorld_eq]
        rfl
      have bad : host.badHost = decide ¬legal := by
        have said : legal ↔ Config.hostInvalid host.guestCheck = false ∧ host.badPdpt = false ∧ (s.feat.lm = true ∨
          (val .efer).getLsbD 8 = false ∧ (val .efer).getLsbD 10 = false) := Iff.rfl
        rw [State.badHost, State.needsLongMode, State.eferBit, State.eferBit, feat, efer, Bool.eq_iff_iff, decide_eq_true_iff, said]
        cases Config.hostInvalid host.guestCheck <;> cases host.badPdpt <;> cases s.feat.lm <;> cases (val .efer).getLsbD 8 <;>
          cases (val .efer).getLsbD 10 <;> decide
      have out := (vmexit_ok saved (returnToHost_off (feat ▸ lbr) reloaded)).trans (resumeHost_eq running)
      rw [bad] at out
      refine ⟨fun ok tf => ?_, fun ok tf => ?_, fun refused => ?_⟩
      · rw [out, decide_eq_false (not_not.mpr ok), flags, show (Flags.ofBits (val .rflags)).tf = false from tf]
        rfl
      · rw [out, decide_eq_false (not_not.mpr ok), flags, show (Flags.ofBits (val .rflags)).tf = true from tf]
        rfl
      · rw [out, decide_eq_true refused]
        rfl

end Sys2Proof.Machine
end

