-- ==== Sys2Proof/Proofs/ReverseMap.lean ====
section
/-! PROOFS. The statement about the instructions over the reverse map table (51_sys_m_r.md R764, R765, R766, R773, R774). -/

namespace Sys2Proof.Machine

open Config (RmpEntry)

variable {s t u : State} {asz : ASize} {seg : SegName} {e : RmpEntry}

/-- The state after an instruction of the family, with its code. -/
def State.rmpAnswer (u : State) (n : Nat) : State :=
  (u.writeGpr .w32 .rax (BitVec.ofNat 64 n)).setFlags { u.flags with zf := n == 0, sf := false, of := false, af := false, pf := evenOnes n }

theorem rmpReturn_eq (c : RmpCode) : u.rmpReturn c = u.rmpAnswer c.num.toNat := by
  cases c <;> rfl

/-- The address of the entry of a page. -/
def State.rmpSlot (s : State) (a : Nat) : Nat := s.cfg.rmpBase.toNat + 0x4000 + a / 4096 * 16

theorem rmpAddr_eq (a : Nat) : s.start.rmpAddr a = s.rmpSlot a := rfl

theorem rmpExists_iff (n : Nat) : s.start.rmpExists n = decide (n ≤ s.cfg.rmpEnd.toNat) := rfl

theorem needSnpHost_ok (snp : s.feat.snp = true) (mode : s.mode64 = true) (enabled : s.cfg.snpEn = true) (level : s.cpl = 0) :
    s.start.needSnpHost = .ok () := by
  rw [State.needSnpHost, State.needSnp, start_feat, snp, require_true, ok_bind, start_mode64, mode, require_true, ok_bind, State.start_cfg,
    enabled]
  exact needCpl0_of (t := s.start) level

theorem needSnpHost_ud (snp : s.feat.snp = true) (off : s.mode64 = false ∨ s.cfg.snpEn = false) : s.start.needSnpHost = .error ud := by
  rw [State.needSnpHost, State.needSnp, start_feat, snp, require_true, ok_bind, start_mode64, State.start_cfg]
  rcases off with h | h
  · rw [h]
    rfl
  · rw [h]
    cases s.mode64 <;> rfl

/-- Bits 20:12 of an address, for a 2-Mbyte page. -/
theorem pageBits_zero (v : Quad) : (v.extractLsb' 12 9 == 0) = decide (v.toNat / 4096 % 512 = 0) := by
  rw [Bool.eq_iff_iff, beq_iff_eq, decide_eq_true_iff, ← BitVec.toNat_inj, BitVec.extractLsb'_toNat, Nat.shiftRight_eq_div_pow]
  rfl

theorem misaligned2M_iff {large : Bool} {va : Quad} : misaligned2M large va = true ↔ ¬(large = true → va.toNat / 4096 % 512 = 0) := by
  rw [misaligned2M, bne, pageBits_zero]
  cases large <;> simp

theorem aligned2M {large : Bool} {va : Quad} (h : large = true → va.toNat / 4096 % 512 = 0) : misaligned2M large va = false :=
  Bool.eq_false_iff.mpr fun bad => misaligned2M_iff.mp bad h

theorem guestVa_eq (asz : ASize) : s.start.guestVa asz = BitVec.ofNat 64 (uns (addrWidth asz) s.gpr.rax / 4096 * 4096) := by
  have value : (s.start.readGpr (addrWidth asz) .rax).toNat = uns (addrWidth asz) s.gpr.rax := readGpr_toNat s _ _
  have page := clear_low (s.start.readGpr (addrWidth asz) .rax) 12
  rw [value] at page
  exact page

/-! ### PSMASH -/

section

variable (need : s.start.needSnpHost = .ok ())
include need

/-- PSMASH of the 2-Mbyte page that RAX names. -/
theorem psmash_eq {here : Nat} (place : s.rmpSlot (s.gpr.rax.toNat / 2 ^ 21 * 2 ^ 21) = here) : exec (.psmash asz) s = run s fun _ =>
    if s.svm.asid != 0 then .ok (s.start.rmpAnswer 2)
    else if !s.start.rmpExists here then .ok (s.start.rmpAnswer 1)
    else s.start.rmpGet here >>= fun e =>
      if e.immutable || !e.assigned || !e.large then .ok (s.start.rmpAnswer 4)
      else s.start.smashRest 512 here { e with large := false } >>= fun u => .ok (u.rmpAnswer 0) := by
  have page : (s.start.gpr.rax &&& ~~~(0x1FFFFF : Quad)).toNat = s.gpr.rax.toNat / 2 ^ 21 * 2 ^ 21 := clear_low_toNat s.gpr.rax 21
  rw [exec_psmash, execPsmash, run, run, ← place]
  simp only [need, ok_bind, page, rmpReturn_eq]
  rfl

/-- RMPUPDATE of the page that RAX names, with the 16 bytes at rCX. -/
theorem rmpupdate_eq (owner : s.svm.asid = 0) {ps : List Nat}
    (access : s.start.access seg (BitVec.ofNat 64 (uns (addrWidth asz) s.gpr.rcx)) 16 false = .ok ps) :
    exec (.rmpupdate seg asz) s = run s fun _ =>
      s.start.rmpUpdate (BitVec.ofNat 64 (s.gpr.rax.toNat / 4096 * 4096)) (.ofBits (BitVec.ofNat 128 (s.loadAt ps))) := by
  have page : s.start.gpr.rax &&& ~~~(0xFFF : Quad) = BitVec.ofNat 64 (s.gpr.rax.toNat / 4096 * 4096) := clear_low s.gpr.rax 12
  have address : s.start.readGpr (addrWidth asz) .rcx = BitVec.ofNat 64 (uns (addrWidth asz) s.gpr.rcx) :=
    (ofNat_uns_reg s (addrWidth asz) .rcx).symm
  have host : (s.start.svm.asid != 0) = false := by rw [State.start_svm, owner]; rfl
  rw [exec_rmpupdate, execRmpupdate, run, run]
  simp only [need, ok_bind, host, address, access, page]
  rfl

theorem rmp_owned (guest : s.svm.asid ≠ 0) (tf : s.flags.tf = false) :
    exec (.psmash asz) s = .next (s.start.rmpAnswer 2) ∧ exec (.rmpupdate seg asz) s = .next (s.start.rmpAnswer 2) := by
  have other : (s.start.svm.asid != 0) = true := bne_iff_ne.mpr guest
  rw [exec_psmash, execPsmash, exec_rmpupdate, execRmpupdate]
  constructor
  · apply run_ok tf
    rw [need, ok_bind, if_pos other, rmpReturn_eq]
    rfl
  · apply run_ok tf
    rw [need, ok_bind, if_pos other, rmpReturn_eq]
    rfl

end

/-! ### RMPUPDATE -/

/-- The new entry in the sixteen bytes of the operand. -/
theorem newRmp_eq (v : Nat) : NewRmp.ofBits (BitVec.ofNat 128 v) = {
    guestPa := BitVec.ofNat 64 v, assigned := v.testBit 64, large := v.testBit 72, immutable := v.testBit 80
    asid := BitVec.ofNat 32 (v / 2 ^ 96) } := by
  have low : (BitVec.ofNat 128 v).extractLsb' 0 64 = BitVec.ofNat 64 v := BitVec.eq_of_toNat_eq (by
    rw [BitVec.extractLsb'_toNat, BitVec.toNat_ofNat, BitVec.toNat_ofNat]
    omega)
  have high : (BitVec.ofNat 128 v).extractLsb' 96 32 = BitVec.ofNat 32 (v / 2 ^ 96) := BitVec.eq_of_toNat_eq (by
    rw [BitVec.extractLsb'_toNat, Nat.shiftRight_eq_div_pow, BitVec.toNat_ofNat, BitVec.toNat_ofNat]
    omega)
  rw [NewRmp.ofBits, low, high, BitVec.getLsbD_ofNat, BitVec.getLsbD_ofNat, BitVec.getLsbD_ofNat]
  rfl

section

variable {new : NewRmp} {pa : Quad}

/-- The operands of RMPUPDATE that it accepts. -/
def State.rmpInput (t : State) (pa : Quad) (new : NewRmp) : Bool :=
  !(misaligned2M new.large pa || (!new.assigned && (new.immutable || new.asid != 0)) || !t.rmpExists (t.rmpAddr pa.toNat))

theorem rmpUpdate_refused (bad : t.rmpInput pa new = false) : t.rmpUpdate pa new = .ok (t.rmpAnswer 1) := by
  rw [State.rmpInput, Bool.not_eq_false'] at bad
  rw [State.rmpUpdate]
  exact (if_pos bad).trans (congrArg Except.ok (rmpReturn_eq .failInput))

variable (accepted : t.rmpInput pa new = true) (read : t.rmpGet (t.rmpAddr pa.toNat) = .ok e)
include accepted read

theorem rmpUpdate_immutable (fixed : e.immutable = true) : t.rmpUpdate pa new = .ok (t.rmpAnswer 2) := by
  rw [State.rmpInput, Bool.not_eq_true'] at accepted
  rw [State.rmpUpdate]
  refine (if_neg (by rw [accepted]; exact Bool.false_ne_true)).trans ?_
  rw [read, ok_bind, if_pos fixed, rmpReturn_eq]
  rfl

theorem rmpUpdate_small (free : e.immutable = false) (small : new.large = false) : t.rmpUpdate pa new =
    if decide (pa.toNat / 4096 % 512 = 0) && e.large then .ok (t.rmpAnswer 4)
    else t.rmpPut (t.rmpAddr pa.toNat) (rmpNext new e t.cfg.numVmpl) >>= fun u => .ok (u.rmpAnswer 0) := by
  rw [State.rmpInput, Bool.not_eq_true'] at accepted
  rw [State.rmpUpdate]
  refine (if_neg (by rw [accepted]; exact Bool.false_ne_true)).trans ?_
  rw [read, ok_bind, if_neg (by rw [free]; exact Bool.false_ne_true), small, pageBits_zero, Bool.not_false, Bool.true_and, rmpReturn_eq]
  split
  · rfl
  · simp only [Bool.false_eq_true, if_false, ok_bind, rmpReturn_eq]
    rfl

end

/-- The page that RMPUPDATE names, of the address in RAX. -/
theorem page_toNat (r : Quad) : (BitVec.ofNat 64 (r.toNat / 4096 * 4096)).toNat = r.toNat / 4096 * 4096 := by
  rw [BitVec.toNat_ofNat]
  omega

theorem rmpAddr_page (r : Quad) : s.start.rmpAddr (BitVec.ofNat 64 (r.toNat / 4096 * 4096)).toNat = s.rmpSlot r.toNat := by
  rw [page_toNat, rmpAddr_eq, State.rmpSlot, State.rmpSlot, Nat.mul_div_cancel _ (by decide)]

/-- The operands that RMPUPDATE refuses, by the bits of the new entry. -/
theorem rmpInput_iff {r : Quad} {v : Nat} (small : v < 2 ^ 128) :
    s.start.rmpInput (BitVec.ofNat 64 (r.toNat / 4096 * 4096)) (.ofBits (BitVec.ofNat 128 v)) = false ↔
      (v.testBit 72 = true ∧ r.toNat / 4096 % 512 ≠ 0 ∨ v.testBit 64 = false ∧ (v.testBit 80 = true ∨ v / 2 ^ 96 ≠ 0) ∨
        s.cfg.rmpEnd.toNat < s.rmpSlot r.toNat) := by
  have asid : (BitVec.ofNat 32 (v / 2 ^ 96) != 0) = decide (v / 2 ^ 96 ≠ 0) := by
    rw [Bool.eq_iff_iff, bne_iff_ne, decide_eq_true_iff, ne_eq, ← BitVec.toNat_inj, BitVec.toNat_ofNat, Nat.mod_eq_of_lt (by omega)]
    rfl
  have misaligned : misaligned2M (v.testBit 72) (BitVec.ofNat 64 (r.toNat / 4096 * 4096)) = true ↔
      v.testBit 72 = true ∧ r.toNat / 4096 % 512 ≠ 0 := by
    rw [misaligned2M_iff, page_toNat, Nat.mul_div_cancel _ (by decide), Classical.not_imp]
  rw [State.rmpInput, newRmp_eq, rmpAddr_page, rmpExists_iff, asid]
  simp only [Bool.not_eq_false', Bool.or_eq_true, misaligned, Bool.and_eq_true, Bool.not_eq_true', decide_eq_true_iff, decide_eq_false_iff_not,
    Nat.not_le, or_assoc]

/-- An entry that RMPUPDATE leaves for a 4-Kbyte page. -/
theorem rmpNext_small {v : Nat} (small : v < 2 ^ 128) (n : Nat) : rmpNext {
    guestPa := BitVec.ofNat 64 v, assigned := v.testBit 64, large := false, immutable := v.testBit 80
    asid := BitVec.ofNat 32 (v / 2 ^ 96) } e n =
    if v.testBit 64 = false then rmpBlank false
    else {
      assigned := true, large := false, immutable := v.testBit 80, asid := BitVec.ofNat 32 (v / 2 ^ 96)
      guestPa := if v / 2 ^ 96 = 0 then 0 else BitVec.ofNat 64 v
      validated := decide (e.asid.toNat = v / 2 ^ 96 ∧ e.guestPa.toNat = v % 2 ^ 64 ∧ e.large = false ∧ e.assigned = true) && e.validated
      vmsa := decide (e.asid.toNat = v / 2 ^ 96 ∧ e.guestPa.toNat = v % 2 ^ 64 ∧ e.large = false ∧ e.assigned = true) && e.vmsa
      perms := if e.asid.toNat = v / 2 ^ 96 ∧ e.guestPa.toNat = v % 2 ^ 64 ∧ e.large = false ∧ e.assigned = true then e.perms
        else rmpResetPerms e.perms n } := by
  have asid : (BitVec.ofNat 32 (v / 2 ^ 96)).toNat = v / 2 ^ 96 := by rw [BitVec.toNat_ofNat]; omega
  have global : ((BitVec.ofNat 32 (v / 2 ^ 96)) == 0) = decide (v / 2 ^ 96 = 0) := by
    rw [Bool.eq_iff_iff, beq_iff_eq, decide_eq_true_iff, ← BitVec.toNat_inj, asid]
    rfl
  cases assigned : v.testBit 64 with
  | false => rfl
  | true =>
    have changes : (NewRmp.changes {
        guestPa := BitVec.ofNat 64 v, assigned := true, large := false, immutable := v.testBit 80
        asid := BitVec.ofNat 32 (v / 2 ^ 96) } e) =
        decide ¬(e.asid.toNat = v / 2 ^ 96 ∧ e.guestPa.toNat = v % 2 ^ 64 ∧ e.large = false ∧ e.assigned = true) := by
      rw [Bool.eq_iff_iff, decide_eq_true_iff, NewRmp.changes]
      simp only [Bool.or_eq_true, bne_iff_ne, ne_eq, ← BitVec.toNat_inj, asid, BitVec.toNat_ofNat, not_and_or, or_assoc]
    rw [rmpNext, changes, global]
    by_cases same : e.asid.toNat = v / 2 ^ 96 ∧ e.guestPa.toNat = v % 2 ^ 64 ∧ e.large = false ∧ e.assigned = true
    · rw [decide_eq_false (not_not.mpr same), decide_eq_true same, if_pos same, Bool.true_and, Bool.true_and]
      simp only [decide_eq_true_iff]
      rfl
    · rw [decide_eq_true same, decide_eq_false same, if_neg same, Bool.false_and, Bool.false_and]
      simp only [decide_eq_true_iff]
      rfl

/-! ### PVALIDATE and RMPADJUST -/

section

variable {va : Quad} (snp : s.feat.snp = true) (level : s.cpl = 0) (tf : s.flags.tf = false)
include snp level tf

theorem pvalidate_inactive (off : s.svm.snpActive = false) : exec (.pvalidate asz) s = .next ((s.start.rmpAnswer 0).setCf true) := by
  have check : (!s.start.svm.snpActive) = true := by rw [State.start_svm, off]; rfl
  rw [exec_pvalidate, execPvalidate]
  apply runVm_done tf
  simp only [State.needSnp, start_feat, snp, require_true, ok_bind, needCpl0_of (t := s.start) level, check, if_true, rmpReturn_eq]
  rfl

omit tf in
theorem pvalidate_refused (active : s.svm.snpActive = true) (inner : s.svm.vmpl ≠ 0) :
    exec (.pvalidate asz) s = s.raise { name := .gp, code := some 0 } := by
  have check : (!s.start.svm.snpActive) = false := by rw [State.start_svm, active]; rfl
  have outer : (s.start.svm.vmpl == 0) = false := beq_eq_false_iff_ne.mpr inner
  rw [exec_pvalidate, execPvalidate]
  apply runVm_exc
  simp only [State.needSnp, start_feat, snp, require_true, ok_bind, needCpl0_of (t := s.start) level, check, Bool.false_eq_true, if_false,
    outer, require_false]
  rfl

section

variable (active : s.svm.snpActive = true) (outermost : s.svm.vmpl = 0) (page : s.start.guestVa asz = va)
include active outermost page

theorem pvalidate_misaligned (bad : misaligned2M (s.gpr.rcx.getLsbD 0) va = true) :
    exec (.pvalidate asz) s = .next (s.start.rmpAnswer 1) := by
  have check : (!s.start.svm.snpActive) = false := by rw [State.start_svm, active]; rfl
  have outer : (s.start.svm.vmpl == 0) = true := by rw [State.start_svm, outermost]; rfl
  have bad : misaligned2M (s.start.gpr.rcx.getLsbD 0) va = true := bad
  rw [exec_pvalidate, execPvalidate]
  apply runVm_done tf
  simp only [State.needSnp, start_feat, snp, require_true, ok_bind, needCpl0_of (t := s.start) level, check, Bool.false_eq_true, if_false,
    outer, page, bad, if_true, rmpReturn_eq]
  rfl

theorem pvalidate_found {entry : Nat} (aligned : misaligned2M (s.gpr.rcx.getLsbD 0) va = false)
    (found : s.start.guestEntry va (s.gpr.rcx.getLsbD 0) = .ok (.found entry e))
    (valid : s.start.validate entry e (s.gpr.rcx.getLsbD 0) = .ok u) : exec (.pvalidate asz) s = .next u := by
  have check : (!s.start.svm.snpActive) = false := by rw [State.start_svm, active]; rfl
  have outer : (s.start.svm.vmpl == 0) = true := by rw [State.start_svm, outermost]; rfl
  have aligned : misaligned2M (s.start.gpr.rcx.getLsbD 0) va = false := aligned
  have found : s.start.guestEntry va (s.start.gpr.rcx.getLsbD 0) = .ok (.found entry e) := found
  have valid : s.start.validate entry e (s.start.gpr.rcx.getLsbD 0) = .ok u := valid
  rw [exec_pvalidate, execPvalidate]
  apply runVm_done tf
  simp only [State.needSnp, start_feat, snp, require_true, ok_bind, needCpl0_of (t := s.start) level, check, Bool.false_eq_true, if_false,
    outer, page, aligned, found, valid]

end

end

theorem validate_mismatch {entry : Nat} (small : e.large = false) : t.validate entry e true = .ok (t.rmpAnswer 6) := by
  rw [State.validate, small, if_pos (by rfl), rmpReturn_eq]
  rfl

theorem validate_ok {entry : Nat} {large : Bool} (fits : large = true → e.large = true)
    (put : t.rmpPut entry { e with validated := t.gpr.rdx.getLsbD 0 } = .ok u) :
    t.validate entry e large = .ok ((u.rmpAnswer 0).setCf (e.validated == t.gpr.rdx.getLsbD 0)) := by
  have check : ¬((!e.large && large) = true) := by
    cases large
    · simp
    · rw [fits rfl]
      decide
  rw [State.validate, if_neg check]
  simp only [put, ok_bind, rmpReturn_eq]
  rfl

theorem require_error {c : Bool} {x y : Trap} (h : require c x = .error y) : y = x := by
  cases c with
  | true => cases h
  | false => exact (Except.error.inj h).symm

theorem segCheck_error {off : Quad} {n : Nat} {write : Bool} {x : Trap} (h : t.segCheck gp0 .ds off n write = .error x) : x = gp0 := by
  rw [State.segCheck] at h
  by_cases long : t.mode64 = true
  · exact require_error ((if_pos long).symm.trans h)
  · have h := (if_neg long).symm.trans h
    rw [require_and, require_and] at h
    exact require_error h

/-- An entry is read from memory or not at all. -/
theorem rmpGet_no_exc (entry : Nat) (x : Exn) : t.rmpGet entry ≠ .error (.exc x) := by
  intro h
  rw [State.rmpGet, State.readPa] at h
  split at h
  · cases h
  · cases h

/-- Without paging the guest's page walk has no page fault. -/
theorem guestEntry_unpaged (off : t.pg = false) {va : Quad} {large : Bool} {x : Exn} (h : t.guestEntry va large = .error (.exc x)) :
    x.name ≠ .pf := by
  rw [State.guestEntry] at h
  cases check : t.segCheck gp0 .ds va 1 false with
  | error e =>
    rw [check] at h
    have general := (Except.error.inj h).symm.trans (segCheck_error check)
    cases general
    decide
  | ok _ =>
    rw [check, ok_bind] at h
    rcases guestWalk_unpaged off (t.linear .ds va) with walk | ⟨system, nested, walk⟩
    · simp only [walk] at h
      cases h
    · simp only [walk] at h
      split at h
      · cases h
      · cases entry : t.rmpGet (t.rmpAddr system) with
        | ok e =>
          rw [entry] at h
          cases h
        | error y =>
          rw [entry] at h
          cases Except.error.inj h
          exact absurd entry (rmpGet_no_exc _ x)

section

variable {va : Quad} (snp : s.feat.snp = true) (level : s.cpl = 0) (tf : s.flags.tf = false) (mode : s.mode64 = true)
  (active : s.svm.snpActive = true) (page : s.start.guestVa .a64 = va)
include snp level tf mode active page

theorem rmpadjust_misaligned (bad : misaligned2M (s.gpr.rcx.getLsbD 0) va = true) :
    exec (.rmpadjust asz) s = .next (s.start.rmpAnswer 1) := by
  have bad : misaligned2M (s.start.gpr.rcx.getLsbD 0) va = true := bad
  rw [exec_rmpadjust, execRmpadjust]
  apply runVm_done tf
  simp only [State.needSnp, start_feat, snp, require_true, ok_bind, start_mode64, mode, State.start_svm, active,
    needCpl0_of (t := s.start) level, page, bad, if_true, rmpReturn_eq]
  rfl

variable (aligned : misaligned2M (s.gpr.rcx.getLsbD 0) va = false) {target : Nat} (named : s.gpr.rdx.toNat % 256 = target)
include aligned named

theorem rmpadjust_inner (low : target ≤ s.svm.vmpl.toNat) : exec (.rmpadjust asz) s = .next (s.start.rmpAnswer 2) := by
  have aligned : misaligned2M (s.start.gpr.rcx.getLsbD 0) va = false := aligned
  have level8 : (s.start.gpr.rdx.extractLsb' 0 8).toNat = target := (BitVec.extractLsb'_toNat 0 8 s.gpr.rdx).trans named
  rw [exec_rmpadjust, execRmpadjust]
  apply runVm_done tf
  simp only [State.needSnp, start_feat, snp, require_true, ok_bind, start_mode64, mode, State.start_svm, active,
    needCpl0_of (t := s.start) level, page, aligned, Bool.false_eq_true, if_false, level8, if_pos low, rmpReturn_eq]
  rfl

theorem rmpadjust_unknown (outer : s.svm.vmpl.toNat < target) (high : s.cfg.numVmpl ≤ target) :
    exec (.rmpadjust asz) s = .next (s.start.rmpAnswer 1) := by
  have aligned : misaligned2M (s.start.gpr.rcx.getLsbD 0) va = false := aligned
  have level8 : (s.start.gpr.rdx.extractLsb' 0 8).toNat = target := (BitVec.extractLsb'_toNat 0 8 s.gpr.rdx).trans named
  rw [exec_rmpadjust, execRmpadjust]
  apply runVm_done tf
  simp only [State.needSnp, start_feat, snp, require_true, ok_bind, start_mode64, mode, State.start_svm, active,
    needCpl0_of (t := s.start) level, page, aligned, Bool.false_eq_true, if_false, level8, if_neg (Nat.not_le.mpr outer), State.start_cfg,
    if_pos high, rmpReturn_eq]
  rfl

theorem rmpadjust_found (outer : s.svm.vmpl.toNat < target) (known : target < s.cfg.numVmpl) {entry : Nat}
    (found : s.start.guestEntry va (s.gpr.rcx.getLsbD 0) = .ok (.found entry e))
    (adjusted : s.start.rmpAdjust entry e (s.gpr.rcx.getLsbD 0) target (s.gpr.rdx.extractLsb' 8 8) = .ok u) :
    exec (.rmpadjust asz) s = .next u := by
  have aligned : misaligned2M (s.start.gpr.rcx.getLsbD 0) va = false := aligned
  have level8 : (s.start.gpr.rdx.extractLsb' 0 8).toNat = target := (BitVec.extractLsb'_toNat 0 8 s.gpr.rdx).trans named
  have found : s.start.guestEntry va (s.start.gpr.rcx.getLsbD 0) = .ok (.found entry e) := found
  have adjusted : s.start.rmpAdjust entry e (s.start.gpr.rcx.getLsbD 0) target (s.start.gpr.rdx.extractLsb' 8 8) = .ok u := adjusted
  rw [exec_rmpadjust, execRmpadjust]
  apply runVm_done tf
  simp only [State.needSnp, start_feat, snp, require_true, ok_bind, start_mode64, mode, State.start_svm, active,
    needCpl0_of (t := s.start) level, page, aligned, Bool.false_eq_true, if_false, level8, if_neg (Nat.not_le.mpr outer), State.start_cfg,
    if_neg (Nat.not_le.mpr known), found, adjusted]

end

theorem sizes_fit {large : Bool} (fits : large = true → e.large = true) : (!e.large && large) = false := by
  cases large
  · exact Bool.and_false _
  · rw [fits rfl]
    rfl

section

variable {entry target : Nat} {large : Bool} {mask : Byte} (validated : e.validated = true)
include validated

theorem rmpAdjust_mismatch (small : e.large = false) : t.rmpAdjust entry e true target mask = .ok (t.rmpAnswer 6) := by
  rw [State.rmpAdjust, validated, require_true, ok_bind, small, if_pos (by rfl), rmpReturn_eq]
  rfl

variable (fits : large = true → e.large = true)
include fits

theorem rmpAdjust_denied (denied : mask &&& ~~~rmpPerm e t.svm.vmpl.toNat ≠ 0) :
    t.rmpAdjust entry e large target mask = .ok (t.rmpAnswer 2) := by
  rw [State.rmpAdjust, validated, require_true, ok_bind, sizes_fit fits, if_neg Bool.false_ne_true,
    if_pos (bne_iff_ne.mpr denied), rmpReturn_eq]
  rfl

theorem rmpAdjust_ok (allowed : mask &&& ~~~rmpPerm e t.svm.vmpl.toNat = 0)
    (put : t.rmpPut entry { e with
      vmsa := if t.svm.vmpl = 0 then t.gpr.rdx.getLsbD 16 else e.vmsa
      perms := rmpSetPerm e.perms target mask } = .ok u) : t.rmpAdjust entry e large target mask = .ok (u.rmpAnswer 0) := by
  have put : t.rmpPut entry { e with
      vmsa := if t.svm.vmpl == 0 then t.gpr.rdx.getLsbD 16 else e.vmsa
      perms := rmpSetPerm e.perms target mask } = .ok u := by simpa only [beq_iff_eq] using put
  rw [validated] at put
  rw [State.rmpAdjust, validated, require_true, ok_bind, sizes_fit fits, if_neg Bool.false_ne_true,
    if_neg (by rw [allowed]; decide), put, ok_bind, rmpReturn_eq]
  rfl

end

/-- Settles O58. -/
theorem reverseMapInstructions : Obligations.ReverseMapInstructions := by
  intro s t asz seg e entry ps tf snp level answer slot last large
  refine ⟨fun mode enabled => ?host, ⟨fun off => ?inactive, fun active outermost => ⟨fun wide bad => ?misaligned, fun aligned found =>
      ⟨fun small wide => ?mismatch, fun fits put => ?validated⟩⟩, fun active inner => ?refused⟩,
    fun off va x raised => guestEntry_unpaged off raised, fun mode active => ?adjust, fun off => ?noHost⟩
  case host =>
    have need := needSnpHost_ok snp mode enabled level
    refine ⟨fun guest => rmp_owned need guest tf, fun owner => ⟨?smash, fun access => ?update⟩⟩
    case smash =>
      intro here
      have host : (s.svm.asid != 0) = false := by rw [owner]; rfl
      refine ⟨fun outside => ?_, fun inside read => ⟨fun bad => ?_, fun free assigned whole smashed => ?_⟩⟩
      · have gone : s.start.rmpExists here = false := decide_eq_false (Nat.not_le.mpr outside)
        rw [psmash_eq need (here := here) rfl]
        apply run_ok tf
        rw [host, if_neg Bool.false_ne_true, gone]
        rfl
      · have there : s.start.rmpExists here = true := decide_eq_true inside
        have check : (e.immutable || !e.assigned || !e.large) = true := by
          rcases bad with h | h | h <;> simp [h]
        rw [psmash_eq need (here := here) rfl]
        apply run_ok tf
        rw [host, if_neg Bool.false_ne_true, there, read, ok_bind, check]
        rfl
      · have there : s.start.rmpExists here = true := decide_eq_true inside
        have check : (e.immutable || !e.assigned || !e.large) = false := by rw [free, assigned, whole]; rfl
        rw [psmash_eq need (here := here) rfl]
        apply run_ok tf
        rw [host, if_neg Bool.false_ne_true, there, read, ok_bind, check, Bool.not_true, if_neg Bool.false_ne_true, if_neg Bool.false_ne_true,
          smashed]
        rfl
    case update =>
      intro v assigned wide immutable asid here bad
      have small : v < 2 ^ 128 := by
        have bytes := Memory.load_lt s.mem ps
        rw [access_length access] at bytes
        exact bytes
      have refused := rmpInput_iff (s := s) (r := s.gpr.rax) small
      rw [rmpupdate_eq need owner access]
      refine ⟨fun wrong => run_ok tf (rmpUpdate_refused (refused.mpr wrong)), fun right read => ?_⟩
      have accepted := (Bool.not_eq_false _).mp (mt refused.mp right)
      have read : s.start.rmpGet (s.start.rmpAddr (BitVec.ofNat 64 (s.gpr.rax.toNat / 4096 * 4096)).toNat) = .ok e := by
        rw [rmpAddr_page]
        exact read
      have page : (BitVec.ofNat 64 (s.gpr.rax.toNat / 4096 * 4096)).toNat / 4096 % 512 = s.gpr.rax.toNat / 4096 % 512 := by
        rw [page_toNat, Nat.mul_div_cancel _ (by decide)]
      refine ⟨fun fixed => run_ok tf (rmpUpdate_immutable accepted read fixed), fun free narrow even whole => run_ok tf ?_,
        ?written⟩
      · have narrow : (NewRmp.ofBits (BitVec.ofNat 128 v)).large = false := by rw [newRmp_eq]; exact narrow
        rw [rmpUpdate_small accepted read free narrow, page, decide_eq_true even, whole]
        rfl
      case written =>
        intro free narrow apart same next (put : s.start.rmpPut (s.rmpSlot s.gpr.rax.toNat) next = .ok t)
        have small4K : (NewRmp.ofBits (BitVec.ofNat 128 v)).large = false := by rw [newRmp_eq]; exact narrow
        have apart : (decide (s.gpr.rax.toNat / 4096 % 512 = 0) && e.large) = false := by
          rw [← Bool.not_eq_true, Bool.and_eq_true, decide_eq_true_iff]
          exact apart
        have entry : rmpNext (NewRmp.ofBits (BitVec.ofNat 128 v)) e s.start.cfg.numVmpl = next := by
          rw [newRmp_eq, show v.testBit 72 = false from narrow, rmpNext_small small]
          rfl
        rw [rmpUpdate_small accepted read free small4K, page, apart, if_neg Bool.false_ne_true, rmpAddr_page, entry]
        refine run_ok tf ?_
        rw [put]
        rfl
  case inactive => exact pvalidate_inactive snp level tf off
  case misaligned =>
    refine pvalidate_misaligned snp level tf active outermost (guestVa_eq asz) ?_
    exact misaligned2M_iff.mpr fun h => bad (h wide)
  case mismatch =>
    have even : misaligned2M large _ = false := aligned2M aligned
    exact pvalidate_found snp level tf active outermost (guestVa_eq asz) even found (by rw [show s.gpr.rcx.getLsbD 0 = true from wide]; exact validate_mismatch small)
  case validated =>
    have even : misaligned2M large _ = false := aligned2M aligned
    exact pvalidate_found snp level tf active outermost (guestVa_eq asz) even found (validate_ok fits put)
  case refused => exact pvalidate_refused snp level active inner
  case adjust =>
    intro va target mask aligned
    have page : s.start.guestVa .a64 = va := by
      rw [guestVa_eq, show uns (addrWidth .a64) s.gpr.rax = s.gpr.rax.toNat from uns_w64 _]
    have odd (bad : ¬aligned) : misaligned2M large va = true := misaligned2M_iff.mpr bad
    have even (ok : aligned) : misaligned2M large va = false := aligned2M ok
    refine ⟨fun bad => rmpadjust_misaligned snp level tf mode active page (odd bad),
      fun ok low => rmpadjust_inner snp level tf mode active page (even ok) rfl low,
      fun ok outer high => rmpadjust_unknown snp level tf mode active page (even ok) rfl outer high,
      fun ok outer known found => ⟨fun valid small wide => ?_, fun valid fits => ⟨fun denied => ?_, fun allowed put => ?_⟩⟩⟩
    · exact rmpadjust_found snp level tf mode active page (even ok) rfl outer known found
        (by rw [show s.gpr.rcx.getLsbD 0 = true from wide]; exact rmpAdjust_mismatch valid small)
    · exact rmpadjust_found snp level tf mode active page (even ok) rfl outer known found (rmpAdjust_denied valid fits denied)
    · exact rmpadjust_found snp level tf mode active page (even ok) rfl outer known found (rmpAdjust_ok valid fits allowed put)
  case noHost =>
    have refused := needSnpHost_ud snp off
    rw [exec_psmash, execPsmash, exec_rmpupdate, execRmpupdate]
    exact ⟨run_exc (by rw [refused]; rfl), run_exc (by rw [refused]; rfl)⟩

end Sys2Proof.Machine
end

