-- ==== Sys2Proof/Proofs/PrefixReads.lean ====
section
/-! PROOFS. What the decoder has read after the prefixes that the encoder writes (30_encoding.md R162 to R175), and the operand that
ModRM names behind them (30_encoding.md R176 to R181). -/

namespace Sys2Proof

open WellFormed (needsRexByte)

/-! ### Runs of prefixes -/

/-- Prefix bytes and the environments before and after them. -/
structure Reads (e : Env) (ps : List Byte) (e' : Env) : Prop where
  prefixes : ∀ b ∈ ps, (prefixInstr e.c b).isSome = true
  folds : ps.foldl Env.addPrefix e = e'

theorem foldl_addPrefix_c (ps : List Byte) (e : Env) : (ps.foldl Env.addPrefix e).c = e.c := by
  induction ps generalizing e with
  | nil => rfl
  | cons b ps ih => exact (ih _).trans (addPrefix_c e b)

theorem Reads.ctx {e e' : Env} {ps : List Byte} (h : Reads e ps e') : e'.c = e.c := by
  rw [← h.folds, foldl_addPrefix_c]

theorem Reads.nil (e : Env) : Reads e [] e := ⟨by simp, rfl⟩

theorem Reads.append {e e' e'' : Env} {ps qs : List Byte} (h : Reads e ps e') (h' : Reads e' qs e'') : Reads e (ps ++ qs) e'' := by
  refine ⟨fun b mem => ?_, by rw [List.foldl_append, h.folds, h'.folds]⟩
  rcases List.mem_append.mp mem with early | late
  · exact h.prefixes b early
  · rw [← h.ctx]
    exact h'.prefixes b late

theorem Reads.byte {e e' : Env} {b : Byte} (known : (prefixInstr e.c b).isSome = true) (step : e.addPrefix b = e') : Reads e [b] e' :=
  ⟨by simpa using known, step⟩

/-! ### The prefixes that the encoder writes -/

/-- What legacy prefixes say. -/
def Env.legacy (c : Ctx) (l : Bool) (p : Rep) (o a : Bool) (s : Option SegName) : Env :=
  { c, opsz := o, addr := a, seg := s, lock := l, rep := p }

/-- The operand size is not the default, so that a prefix selects it. -/
def sized (c : Ctx) : Width → Bool
  | .w16 => c.mode64 || c.d32
  | .w32 => !(c.mode64 || c.d32)
  | _ => false

/-- The address size is not the default. -/
def addressed (c : Ctx) (a : ASize) : Bool := ({ c : Env }).asize != a

/-- A segment that is not the default. -/
def overrides (s dflt : SegName) : Option SegName := if s = dflt then none else some s

section

variable {c : Ctx} {l o a : Bool} {p : Rep} {s : Option SegName}

theorem reads_lock (l : Bool) : Reads (.legacy c false p o a s) (lockPrefix l) (.legacy c l p o a s) := by
  cases l with
  | false => exact .nil _
  | true => exact .byte rfl rfl

theorem reads_rep (p : Rep) : Reads (.legacy c l .none o a s) (repPrefix p) (.legacy c l p o a s) := by
  cases p with
  | none => exact .nil _
  | repe => exact .byte rfl rfl
  | repne => exact .byte rfl rfl

theorem reads_repe : Reads (.legacy c l .none o a s) [0xF3] (.legacy c l .repe o a s) := .byte rfl rfl

theorem reads_repne : Reads (.legacy c l .none o a s) [0xF2] (.legacy c l .repne o a s) := .byte rfl rfl

theorem reads_opsz : Reads (.legacy c l p false a s) [0x66] (.legacy c l p true a s) := .byte rfl rfl

theorem reads_size (w : Width) : Reads (.legacy c l p false a s) (sizePrefix c w) (.legacy c l p (sized c w) a s) := by
  cases w with
  | w8 => exact .nil _
  | w64 => exact .nil _
  | w16 =>
    rw [sizePrefix, sized]
    cases c.mode64 || c.d32
    · exact .nil _
    · exact .byte rfl rfl
  | w32 =>
    rw [sizePrefix, sized]
    cases c.mode64 || c.d32
    · exact .byte rfl rfl
    · exact .nil _

theorem reads_addr (z : ASize) : Reads (.legacy c l p o false s) (addrPrefix c z) (.legacy c l p o (addressed c z) s) := by
  rw [addrPrefix, addressed]
  by_cases same : ({ c : Env }).asize = z
  · rw [if_pos same, bne_eq_false_iff_eq.mpr same]
    exact .nil _
  · rw [if_neg same, bne_iff_ne.mpr same]
    exact .byte rfl rfl

theorem reads_seg {n dflt : SegName} (wf : WellFormed.seg c n dflt = true) :
    Reads (.legacy c l p o a none) (segPrefix n dflt) (.legacy c l p o a (overrides n dflt)) := by
  rw [segPrefix, overrides]
  by_cases same : n = dflt
  · rw [if_pos same, if_pos same]
    exact .nil _
  · rw [if_neg same, if_neg same]
    have allowed : (c.mode64 && n != .fs && n != .gs) = false := by
      simp only [WellFormed.seg, beq_eq_false_iff_ne.mpr same, Bool.or_false] at wf
      cases h : c.mode64 <;> cases n <;> simp_all
    have step : (Env.legacy c l p o a none).addPrefix (segByte n) = (Env.legacy c l p o a none).withSeg n := by
      cases n <;> rfl
    refine .byte (by cases n <;> rfl) (step.trans ?_)
    exact if_neg (Bool.eq_false_iff.mp allowed)

end

/-- The extension bits of a REX prefix, where one is written (30_encoding.md R174). -/
def Env.withRex (e : Env) (w r x b force : Bool) : Env := { e with rex := w || r || x || b || force, w, r, x, b }

theorem reads_rex {c : Ctx} {l o a : Bool} {p : Rep} {s : Option SegName} {w r x b force : Bool}
    (long : c.mode64 = true ∨ (w || r || x || b || force) = false) :
    Reads (.legacy c l p o a s) (rexByte w r x b force) ((Env.legacy c l p o a s).withRex w r x b force) := by
  rw [rexByte]
  cases used : w || r || x || b || force with
  | false =>
    simp only [Bool.or_eq_false_iff] at used
    obtain ⟨⟨⟨⟨rfl, rfl⟩, rfl⟩, rfl⟩, rfl⟩ := used
    exact .nil _
  | true =>
    rw [used] at long
    have mode : c.mode64 = true := long.resolve_right Bool.noConfusion
    have rex : ∀ w r x b, (prefixInstr c (0x40#8 ||| bit b ||| (bit x <<< 1) ||| (bit r <<< 2) ||| (bit w <<< 3))).isSome = true := by
      intro w r x b
      cases w <;> cases r <;> cases x <;> cases b <;> simp [prefixInstr, isRex, mode, bit]
    have step : ∀ w r x b, (Env.legacy c l p o a s).addPrefix (0x40#8 ||| bit b ||| (bit x <<< 1) ||| (bit r <<< 2) ||| (bit w <<< 3)) =
        { Env.legacy c l p o a s with rex := true, w, r, x, b } := by
      intro w r x b
      cases w <;> cases r <;> cases x <;> cases b <;> rfl
    refine .byte (rex w r x b) ((step w r x b).trans ?_)
    rw [Env.withRex, used]

/-! ### The prefixes of an operand -/

/-- The address-size prefix that an operand asks for. -/
def rmAddressed (c : Ctx) : RM → Bool
  | .reg _ => false
  | .mem m => addressed c m.asz

/-- The segment override that an operand asks for. -/
def rmOverrides : RM → Option SegName
  | .reg _ => none
  | .mem m => overrides m.seg (WellFormed.defaultSeg m.base)

/-- What the decoder knows before the opcode of an instruction with the operand `r`: the legacy prefixes, REX.W, REX.R, and that a
byte register asks for a REX prefix. -/
def operandEnv (c : Ctx) (l : Bool) (p : Rep) (o wide rr force : Bool) (r : RM) : Env :=
  (Env.legacy c l p o (rmAddressed c r) (rmOverrides r)).withRex wide rr (extBits r).1 (extBits r).2 force

section

variable {c : Ctx} {w : Width} {l o wide rr force : Bool} {p : Rep} {r : RM} {m : Mem}

theorem rm_of_rmLow (wf : WellFormed.rmLow c w r = true) : WellFormed.rm c w r = true := by
  cases r with
  | reg g => exact (Bool.and_eq_true_iff.mp wf).1
  | mem m => exact wf

theorem mem_seg (wf : WellFormed.mem c m = true) : WellFormed.seg c m.seg (WellFormed.defaultSeg m.base) = true := by
  simp only [WellFormed.mem, Bool.and_eq_true] at wf
  exact wf.1.2

theorem mem_asize (wf : WellFormed.mem c m = true) : WellFormed.asize c m.asz = true := by
  simp only [WellFormed.mem, Bool.and_eq_true] at wf
  exact wf.1.1

/-- The prefixes of an instruction with an operand. -/
theorem reads_operand {pre : List Byte} (legacy : Reads { c } pre (.legacy c l p o false none)) (wf : WellFormed.rm c w r = true)
    (long : c.mode64 = true ∨ (wide || rr || (extBits r).1 || (extBits r).2 || force) = false) :
    Reads { c } (pre ++ rmPrefixes c r ++ rexByte wide rr (extBits r).1 (extBits r).2 force) (operandEnv c l p o wide rr force r) := by
  refine (legacy.append ?_).append (reads_rex long)
  cases r with
  | reg g => exact .nil _
  | mem m => exact (reads_addr m.asz).append (reads_seg (mem_seg wf))

/-- The address-size prefix selects the address size (30_encoding.md R171). -/
theorem asize_addressed {e : Env} {a : ASize} (wf : WellFormed.asize c a = true) (ctx : e.c = c) (addr : e.addr = addressed c a) :
    e.asize = a := by
  rw [Env.asize, ctx, addr, addressed, Env.asize]
  rw [WellFormed.asize] at wf
  cases mode : c.mode64 <;> cases d : c.d32 <;> cases a <;> simp_all

theorem segOr_overrides {e : Env} {n dflt : SegName} (seg : e.seg = overrides n dflt) : e.segOr dflt = n := by
  rw [Env.segOr, seg, overrides]
  split
  next same => exact same.symm
  next => rfl

theorem operandEnv_names (wf : WellFormed.mem c m = true) : (operandEnv c l p o wide rr force (.mem m)).names m :=
  ⟨asize_addressed (mem_asize wf) rfl rfl, segOr_overrides rfl, rfl⟩

/-- An operand as ModRM names it: a register by its encoding number. -/
def rawRm : RM → RawRM
  | .reg g => .reg (gregNum g)
  | .mem m => .mem m

/-- A high byte register is one of the first four (30_encoding.md R176). -/
theorem greg_high {g : GReg} (wf : WellFormed.greg c w g = true) (high : g.high = true) :
    w = .w8 ∧ (g.r = .rax ∨ g.r = .rcx ∨ g.r = .rdx ∨ g.r = .rbx) := by
  simpa [WellFormed.greg, high, or_assoc] using wf

/-- The number of a register operand is its extension bit and its low three bits. -/
theorem extend_gregNum {g : GReg} (wf : WellFormed.greg c w g = true) :
    extend (!g.high && WellFormed.ext g.r) ((gregNum g).setWidth 3) = gregNum g := by
  cases high : g.high with
  | false =>
    rw [gregNum, high]
    exact extend_low3 g.r
  | true =>
    obtain ⟨-, h⟩ := greg_high wf high
    rw [gregNum, high]
    rcases h with h | h | h | h <;> rw [h] <;> rfl

/-- ModRM, SIB and displacement of an operand are read back (30_encoding.md R179 to R181). -/
theorem modrm_encRm (wf : WellFormed.rm c w r = true) (n : BitVec 3) (rest : List Byte) :
    (operandEnv c l p o wide rr force r).modrm (encRm n r ++ rest) = .ok ((extend rr n, rawRm r), rest) := by
  cases r with
  | reg g =>
    have number : extend (extBits (.reg g)).2 ((gregNum g).setWidth 3) = gregNum g := extend_gregNum wf
    have read := modrm_register (operandEnv c l p o wide rr force (.reg g)) n ((gregNum g).setWidth 3) rest
    rw [show (operandEnv c l p o wide rr force (.reg g)).b = (extBits (.reg g)).2 from rfl, number] at read
    exact read
  | mem m => exact modrm_memory (m := m) (e := operandEnv c l p o wide rr force (.mem m)) wf (operandEnv_names wf) n rest

end

/-! ### Registers by number -/

section

variable {c : Ctx} {e : Env} {w : Width} {r : RM} {g : GReg}

theorem low_eq_plain (low : g.high = false) : g = plain g.r := by
  obtain ⟨r, high⟩ := g
  cases low
  rfl

theorem gregNum_low (low : g.high = false) : gregNum g = g.r.num := by
  rw [gregNum, low]
  rfl

/-- A register number that is no byte register's names the register (30_encoding.md R176). -/
theorem greg_gregNum_low (wide : w ≠ .w8) (low : g.high = false) : e.greg w (gregNum g) = g := by
  rw [Env.greg, beq_eq_false_iff_ne.mpr wide, gregNum_low low, ofNum_num]
  exact (low_eq_plain low).symm

/-- A byte register: without a REX prefix the numbers 4 to 7 are AH, CH, DH and BH (30_encoding.md R176). -/
theorem greg_gregNum_byte (wf : WellFormed.greg c .w8 g = true) (rex : needsRexByte .w8 g = true → e.rex = true)
    (none : g.high = true → e.rex = false) : e.greg .w8 (gregNum g) = g := by
  obtain ⟨r, high⟩ := g
  cases high with
  | true =>
    obtain ⟨-, h⟩ := greg_high wf rfl
    rw [Env.greg, none rfl]
    rcases h with h | h | h | h <;> cases h <;> rfl
  | false =>
    rw [Env.greg]
    cases r <;> cases used : e.rex <;> simp_all [gregNum, needsRexByte, Gpr.num, Gpr.ofNum]

theorem rm_rawRm_low (wide : w ≠ .w8) {w' : Width} (wf : WellFormed.rmLow c w' r = true) : e.rm w (rawRm r) = r := by
  cases r with
  | mem m => rfl
  | reg g =>
    simp only [WellFormed.rmLow, Bool.and_eq_true, Bool.not_eq_true'] at wf
    exact congrArg RM.reg (greg_gregNum_low wide wf.2)

end

end Sys2Proof
end

