-- ==== Sys2Proof/Proofs/RoundTrips.lean ====
section
/-! PROOFS. Decoding what was encoded, for the shapes that the encoder's rows have: fields and opcodes as parsers that read back their
bytes, and the round trip of an instruction from that of its opcode and operands (30_encoding.md R161, R162, R190). -/

namespace Sys2Proof

open WellFormed (needsRexByte)

/-! ### Parsers that read back their bytes -/

/-- The parser reads these bytes, whatever follows them, as this value. -/
def Parses {α : Type} (p : Parser α) (bs : List Byte) (a : α) : Prop := ∀ rest, p (bs ++ rest) = .ok (a, rest)

section

variable {α β : Type} {p : Parser α} {bs cs : List Byte} {a : α} {b : β}

theorem Parses.ret (a : α) : Parses (Parser.ret a) [] a := fun _ => rfl

theorem Parses.andThen {f : α → Parser β} (h : Parses p bs a) (h' : Parses (f a) cs b) : Parses (p.andThen f) (bs ++ cs) b := by
  intro rest
  rw [List.append_assoc, Parser.andThen, h (cs ++ rest)]
  exact h' rest

theorem Parses.map {f : α → β} (h : Parses p bs a) : Parses (p.map f) bs (f a) := by
  intro rest
  rw [Parser.map, Parser.andThen, h rest]
  rfl

theorem Parses.eq {a' : α} (h : Parses p bs a) (same : a = a') : Parses p bs a' := same ▸ h

theorem Parses.cons {q : Parser α} {x : Byte} (h : Parses q bs a) (row : ∀ rest, p (x :: rest) = q rest) : Parses p (x :: bs) a :=
  fun rest => (row (bs ++ rest)).trans (h rest)

end

theorem parses_byte (v : Byte) : Parses Parser.byte [v] v := fun _ => rfl

theorem parses_word (v : BitVec 16) : Parses Parser.word (bytes16 v) v := word_bytes16 v

theorem parses_dword (v : BitVec 32) : Parses Parser.dword (bytes32 v) v := dword_bytes32 v

theorem parses_qword (v : BitVec 64) : Parses Parser.qword (bytes64 v) v := qword_bytes64 v

theorem parses_disp8 {d : BitVec 64} (short : d = (d.setWidth 8).signExtend 64) : Parses disp8 [d.setWidth 8] d :=
  (Parses.map (f := fun b : Byte => b.signExtend 64) (parses_byte _)).eq short.symm

theorem parses_disp16 {d : BitVec 64} (short : d = (d.setWidth 16).signExtend 64) : Parses disp16 (bytes16 (d.setWidth 16)) d :=
  disp16_bytes16 short

theorem parses_disp32 {d : BitVec 64} (short : d = (d.setWidth 32).signExtend 64) : Parses disp32 (bytes32 (d.setWidth 32)) d :=
  disp32_bytes32 short

theorem parses_immz {w : Width} {v : BitVec 64} (wf : WellFormed.imm w v = true) : Parses (immz w) (encImmz w v) v := by
  cases w with
  | w8 => exact parses_disp8 (eq_of_beq wf)
  | w16 => exact parses_disp16 (eq_of_beq wf)
  | w32 => exact parses_disp32 (eq_of_beq wf)
  | w64 => exact parses_disp32 (eq_of_beq wf)

/-! ### Opcodes -/

/-- Behind the opcode bytes `op`, the decoder goes on with `p`. -/
def Opcode (e : Env) (op : List Byte) (p : Parser Instr) : Prop := ∀ bs, decodeOpcode e (op ++ bs) = p bs

section

variable {e : Env} {op : Byte} {p : Parser Instr}

theorem opcode_primary (opcode : isPrimaryOpcode op = true) (row : decodePrimary e op = p) : Opcode e [op] p :=
  fun bs => (decodeOpcode_primary e bs opcode).trans (congrFun row bs)

theorem opcode_secondary (row : decodeSecondary e op = p) : Opcode e [0x0F, op] p :=
  fun bs => (decodeOpcode_secondary e op bs).trans (congrFun row bs)

theorem opcode_0F38 (row : decode0F38 e op = p) : Opcode e [0x0F, 0x38, op] p :=
  fun bs => (decodeOpcode_secondary e 0x38 (op :: bs)).trans (congrFun row bs)

theorem Opcode.parses {ops bs : List Byte} {i : Instr} (opcode : Opcode e ops p) (h : Parses p bs i) :
    Parses (decodeOpcode e) (ops ++ bs) i := by
  intro rest
  rw [List.append_assoc, opcode]
  exact h rest

end

/-! ### Round trips -/

/-- The bytes decode to the instruction, whatever follows them. -/
def RoundTrip (c : Ctx) (bs : List Byte) (i : Instr) : Prop := ∀ rest, decode c (bs ++ rest) = .ok (i, bs.length)

/-- A run of prefixes ends before a byte that is none. -/
theorem lastPrefix_append {c : Ctx} {b : Byte} (opcode : prefixInstr c b = none) (ps rest : List Byte) :
    lastPrefix c (ps ++ b :: rest) = none := by
  induction ps with
  | nil => cases rest <;> simp [lastPrefix, opcode]
  | cons x ps ih =>
    cases h : ps ++ b :: rest with
    | nil => simp at h
    | cons y ys =>
      rw [List.cons_append, h, lastPrefix, ← h, ih]
      · simp
      · simp

theorem roundTrip_of_parses {c : Ctx} {e : Env} {ps : List Byte} {b : Byte} {bs : List Byte} {i : Instr} (prefixes : Reads { c } ps e)
    (opcode : prefixInstr c b = none) (body : Parses (decodeOpcode e) (b :: bs) i) (locks : e.lock = true → lockable i = true) :
    RoundTrip c (ps ++ b :: bs) i := by
  intro rest
  have noRun : (if (ps ++ b :: bs ++ rest).length = 15 then lastPrefix c (ps ++ b :: bs ++ rest) else none) = none := by
    rw [List.append_assoc, List.cons_append, lastPrefix_append opcode, ite_self]
  have ctx : e.c = c := prefixes.ctx
  have read : readPrefixes { c } (ps ++ b :: bs ++ rest) = (e, b :: bs ++ rest) := by
    rw [List.append_assoc, readPrefixes_append ps _ _ prefixes.prefixes, prefixes.folds]
    exact readPrefixes_opcode (by rw [ctx]; exact opcode) _
  have lock : (e.lock && !lockable i) = false := by
    cases h : e.lock with
    | false => rfl
    | true => rw [locks h]; rfl
  have length : (ps ++ b :: bs ++ rest).length - rest.length = (ps ++ b :: bs).length := by
    rw [List.length_append, Nat.add_sub_cancel]
  simp only [decode, noRun, read, body rest, lock, Bool.false_eq_true, if_false, length]

/-- Opcode bytes begin with a byte that is no prefix in any mode. -/
def startsOpcode (op : List Byte) : Bool := op.head?.any fun b => (prefixInstr .long64 b).isNone

theorem startsOpcode_cons {op : List Byte} (h : startsOpcode op = true) (c : Ctx) : ∃ b bs, op = b :: bs ∧ prefixInstr c b = none := by
  cases op with
  | nil => cases h
  | cons b bs => exact ⟨b, bs, rfl, prefixInstr_none_of_long64 c (Option.isNone_iff_eq_none.mp h)⟩

/-- An instruction whose operands, if any, stand behind its opcode. -/
theorem roundTrip_opcode {c : Ctx} {e : Env} {ps op bs : List Byte} {i : Instr} {p : Parser Instr} (prefixes : Reads { c } ps e)
    (start : startsOpcode op = true) (opcode : Opcode e op p) (operands : Parses p bs i) (locks : e.lock = true → lockable i = true) :
    RoundTrip c (ps ++ (op ++ bs)) i := by
  obtain ⟨b, tail, rfl, none⟩ := startsOpcode_cons start c
  exact roundTrip_of_parses prefixes none (opcode.parses operands) locks

/-! ### Operand sizes -/

section

variable {c : Ctx} {w : Width} {e : Env}

theorem wide_mode64 (wf : WellFormed.wv c w = true) (wide : wBit w = true) : c.mode64 = true := by
  rw [wBit] at wide
  cases eq_of_beq wide
  exact wf

/-- The operand-size prefix and REX.W select the operand size (30_encoding.md R170). -/
theorem opsize_sized (wf : WellFormed.wv c w = true) (ctx : e.c = c) (size : e.opsz = sized c w) (wide : e.w = wBit w) :
    e.opsize false = w := by
  rw [Env.opsize, ctx, size, wide]
  cases w <;> cases mode : c.mode64 <;> cases d : c.d32 <;> simp_all [WellFormed.wv, sized, wBit]

/-- The operand size of a row that defaults to 64 bits (31_opcode_maps.md R270). -/
theorem opsize_sized64 (wf : WellFormed.wd64 c w = true) (ctx : e.c = c) (size : e.opsz = sized c w) (narrow : e.w = false) :
    e.opsize true = w := by
  rw [Env.opsize, ctx, size, narrow]
  cases w <;> cases mode : c.mode64 <;> cases d : c.d32 <;> simp_all [WellFormed.wd64, sized]

/-- The operand size `y` (31_opcode_maps.md R232). -/
theorem ysize_wide (wf : WellFormed.wy c w = true) (ctx : e.c = c) (wide : e.w = wBit w) : e.ysize = w := by
  rw [Env.ysize, ctx, wide]
  cases w <;> cases mode : c.mode64 <;> simp_all [WellFormed.wy, wBit]

/-- A row whose opcode's low bit selects byte or operand size. -/
theorem bv_opBv {op : Byte} (wf : WellFormed.wbv c w = true) (even : op.getLsbD 0 = false) (ctx : e.c = c) (size : e.opsz = sized c w)
    (wide : e.w = wBit w) : e.bv (if w = .w8 then op else op ||| 1) = w := by
  rw [WellFormed.wbv] at wf
  by_cases byte : w = .w8
  · rw [if_pos byte, Env.bv, even, byte]
    rfl
  · rw [beq_eq_false_iff_ne.mpr byte, Bool.false_or] at wf
    have odd : (op ||| 1).getLsbD 0 = true := by simp
    rw [if_neg byte, Env.bv, odd]
    exact opsize_sized wf ctx size wide

end

end Sys2Proof
end

