-- ==== Sys2Proof/Proofs/OperandRows.lean ====
section
/-! PROOFS. The round trip of an instruction with a ModRM operand, from the row of its opcode: the operand is read back after any
opcode, and a row is a parser that begins with ModRM (30_encoding.md R176 to R181, 31_opcode_maps.md R232). -/

namespace Sys2Proof

open WellFormed (needsRexByte)

/-! ### The bytes of an operand form -/

/-- The byte register of an operand asks for a REX prefix. -/
def rmForce (w : Width) : RM → Bool
  | .reg g => needsRexByte w g
  | .mem _ => false

/-- What the decoder knows before the opcode of `encModrm`. -/
def modrmEnv (c : Ctx) (l : Bool) (p : Rep) (o wide : Bool) (wReg wRm : Width) (g : GReg) (r : RM) : Env :=
  operandEnv c l p o wide (!g.high && WellFormed.ext g.r) (needsRexByte wReg g || rmForce wRm r) r

/-- What the decoder knows before the opcode of `encSlash`. -/
def slashEnv (c : Ctx) (l : Bool) (p : Rep) (o wide : Bool) (w : Width) (r : RM) : Env :=
  operandEnv c l p o wide false (rmForce w r) r

section

variable {c : Ctx} {pre op tail bs : List Byte} {l o wide rr force : Bool} {p : Rep} {w wReg wRm : Width} {g : GReg} {r : RM}
  {n : BitVec 3} {i : Instr} {q : Parser Instr} {k : BitVec 4 × RawRM → Parser Instr}

theorem encModrm_eq : encModrm c pre wide wReg wRm op g r =
    pre ++ rmPrefixes c r ++ rexByte wide (!g.high && WellFormed.ext g.r) (extBits r).1 (extBits r).2 (needsRexByte wReg g || rmForce wRm r) ++
      (op ++ encRm ((gregNum g).setWidth 3) r) := by
  rw [← List.append_assoc]
  cases r <;> rfl

theorem encSlash_eq : encSlash c pre wide w op n r =
    pre ++ rmPrefixes c r ++ rexByte wide false (extBits r).1 (extBits r).2 (rmForce w r) ++ (op ++ encRm n r) := by
  rw [← List.append_assoc]
  cases r <;> rfl

/-- Outside 64-bit mode no register asks for a REX prefix. -/
theorem greg_legacy (wf : WellFormed.greg c w g = true) (mode : c.mode64 = false) :
    (!g.high && WellFormed.ext g.r) = false ∧ needsRexByte w g = false := by
  cases high : g.high with
  | true => exact ⟨rfl, by simp [needsRexByte, high]⟩
  | false => simpa [WellFormed.greg, WellFormed.gpr, high, mode] using wf

/-- The 16-bit forms have no extended register (30_encoding.md R181). -/
theorem form16_legacy {m : Mem} {f : BitVec 3} (form : WellFormed.form16 m.base m.index = some f) :
    (extBits (.mem m)).1 = false ∧ (extBits (.mem m)).2 = false := by
  obtain ⟨seg, base, index, disp, asz⟩ := m
  dsimp only at form
  unfold WellFormed.form16 at form
  split at form <;> cases form <;> exact ⟨rfl, rfl⟩

/-- Outside 64-bit mode no operand asks for a REX prefix (30_encoding.md R176, R178). -/
theorem rm_legacy (wf : WellFormed.rm c w r = true) (mode : c.mode64 = false) :
    (extBits r).1 = false ∧ (extBits r).2 = false ∧ rmForce w r = false := by
  cases r with
  | reg g =>
    obtain ⟨ext, byte⟩ := greg_legacy wf mode
    exact ⟨rfl, ext, byte⟩
  | mem m =>
    obtain ⟨seg, base, index, disp, asz⟩ := m
    simp only [WellFormed.rm, WellFormed.mem, Bool.and_eq_true] at wf
    obtain ⟨-, form⟩ := wf
    cases asz with
    | a16 =>
      rcases Bool.or_eq_true_iff.mp (Bool.and_eq_true_iff.mp form).2 with some | none
      · obtain ⟨f, h⟩ := Option.isSome_iff_exists.mp some
        obtain ⟨x, b⟩ := form16_legacy (m := ⟨seg, base, index, disp, .a16⟩) h
        exact ⟨x, b, rfl⟩
      · simp_all [extBits, rmForce]
    | a32 =>
      simp only [Bool.and_eq_true] at form
      cases base <;> cases index <;> simp_all [extBits, rmForce, WellFormed.gpr]
    | a64 =>
      simp only [Bool.and_eq_true] at form
      cases base <;> cases index <;> simp_all [extBits, rmForce, WellFormed.gpr]

theorem modrm_modes (wfReg : WellFormed.greg c wReg g = true) (wfRm : WellFormed.rm c wRm r = true) (long : wide = true → c.mode64 = true) :
    c.mode64 = true ∨ (wide || (!g.high && WellFormed.ext g.r) || (extBits r).1 || (extBits r).2 ||
      (needsRexByte wReg g || rmForce wRm r)) = false := by
  cases mode : c.mode64 with
  | true => exact .inl rfl
  | false =>
    have narrow : wide = false := Bool.eq_false_iff.mpr fun h => by simp [mode] at long; simp [long] at h
    obtain ⟨ext, byte⟩ := greg_legacy wfReg mode
    obtain ⟨x, b, force⟩ := rm_legacy wfRm mode
    exact .inr (by rw [narrow, ext, x, b, byte, force]; rfl)

theorem slash_modes (wf : WellFormed.rm c w r = true) (long : wide = true → c.mode64 = true) :
    c.mode64 = true ∨ (wide || false || (extBits r).1 || (extBits r).2 || rmForce w r) = false := by
  cases mode : c.mode64 with
  | true => exact .inl rfl
  | false =>
    have narrow : wide = false := Bool.eq_false_iff.mpr fun h => by simp [mode] at long; simp [long] at h
    obtain ⟨x, b, force⟩ := rm_legacy wf mode
    exact .inr (by rw [narrow, x, b, force]; rfl)

/-! ### Parsers that begin with ModRM -/

theorem parses_operand (wf : WellFormed.rm c w r = true) (operands : Parses (k (extend rr n, rawRm r)) tail i) :
    Parses ((operandEnv c l p o wide rr force r).modrm.andThen k) (encRm n r ++ tail) i :=
  Parses.andThen (modrm_encRm wf n) operands

/-- The operands of `encModrm` are read back. -/
theorem parses_modrm (wfReg : WellFormed.greg c wReg g = true) (wfRm : WellFormed.rm c wRm r = true)
    (operands : Parses (k (gregNum g, rawRm r)) tail i) :
    Parses ((modrmEnv c l p o wide wReg wRm g r).modrm.andThen k) (encRm ((gregNum g).setWidth 3) r ++ tail) i := by
  have number : extend (!g.high && WellFormed.ext g.r) ((gregNum g).setWidth 3) = gregNum g := extend_gregNum wfReg
  exact parses_operand wfRm (by rw [number]; exact operands)

/-- The operand of `encSlash` is read back. -/
theorem parses_slash (wf : WellFormed.rm c w r = true) (operands : Parses (k (extend false n, rawRm r)) tail i) :
    Parses ((slashEnv c l p o wide w r).modrm.andThen k) (encRm n r ++ tail) i :=
  parses_operand wf operands

/-! ### Round trips -/

/-- An instruction with ModRM and immediate bytes, from the row of its opcode. -/
theorem roundTrip_modrm_tail (legacy : Reads { c } pre (.legacy c l p o false none)) (wfReg : WellFormed.greg c wReg g = true)
    (wfRm : WellFormed.rm c wRm r = true) (long : wide = true → c.mode64 = true) (start : startsOpcode op = true)
    (opcode : Opcode (modrmEnv c l p o wide wReg wRm g r) op q) (operands : Parses q (encRm ((gregNum g).setWidth 3) r ++ tail) i)
    (locks : l = true → lockable i = true) : RoundTrip c (encModrm c pre wide wReg wRm op g r ++ tail) i := by
  rw [encModrm_eq, List.append_assoc, List.append_assoc op]
  exact roundTrip_opcode (reads_operand legacy wfRm (modrm_modes wfReg wfRm long)) start opcode operands locks

theorem roundTrip_modrm (legacy : Reads { c } pre (.legacy c l p o false none)) (wfReg : WellFormed.greg c wReg g = true)
    (wfRm : WellFormed.rm c wRm r = true) (long : wide = true → c.mode64 = true) (start : startsOpcode op = true)
    (opcode : Opcode (modrmEnv c l p o wide wReg wRm g r) op q) (operands : Parses q (encRm ((gregNum g).setWidth 3) r ++ []) i)
    (locks : l = true → lockable i = true) : RoundTrip c (encModrm c pre wide wReg wRm op g r) i := by
  have h := roundTrip_modrm_tail legacy wfReg wfRm long start opcode operands locks
  rwa [List.append_nil] at h

/-- An instruction with an opcode extension /n and immediate bytes. -/
theorem roundTrip_slash_tail (legacy : Reads { c } pre (.legacy c l p o false none)) (wf : WellFormed.rm c w r = true)
    (long : wide = true → c.mode64 = true) (start : startsOpcode op = true) (opcode : Opcode (slashEnv c l p o wide w r) op q)
    (operands : Parses q (encRm n r ++ tail) i) (locks : l = true → lockable i = true) :
    RoundTrip c (encSlash c pre wide w op n r ++ tail) i := by
  rw [encSlash_eq, List.append_assoc, List.append_assoc op]
  exact roundTrip_opcode (reads_operand legacy wf (slash_modes wf long)) start opcode operands locks

theorem roundTrip_slash (legacy : Reads { c } pre (.legacy c l p o false none)) (wf : WellFormed.rm c w r = true)
    (long : wide = true → c.mode64 = true) (start : startsOpcode op = true) (opcode : Opcode (slashEnv c l p o wide w r) op q)
    (operands : Parses q (encRm n r ++ []) i) (locks : l = true → lockable i = true) :
    RoundTrip c (encSlash c pre wide w op n r) i := by
  have h := roundTrip_slash_tail legacy wf long start opcode operands locks
  rwa [List.append_nil] at h

end

/-! ### Operands by width -/

section

variable {c : Ctx} {w : Width} {l o wide : Bool} {p : Rep} {r : RM} {g : GReg} {d : Gpr} {n : BitVec 3} {e : Env}

/-- A high byte register as the operand. -/
def rmHigh : RM → Bool
  | .reg g => g.high
  | .mem _ => false

theorem rm_rawRm_byte (wf : WellFormed.rm c .w8 r = true) (rex : rmForce .w8 r = true → e.rex = true)
    (none : rmHigh r = true → e.rex = false) : e.rm .w8 (rawRm r) = r := by
  cases r with
  | mem m => rfl
  | reg g => exact congrArg RM.reg (greg_gregNum_byte wf rex none)

theorem high_eq_false (wide : w ≠ .w8) (wf : WellFormed.greg c w g = true) : g.high = false := by
  cases high : g.high with
  | false => rfl
  | true => exact absurd (greg_high wf high).1 wide

theorem rmLow_of_rm (wide : w ≠ .w8) (wf : WellFormed.rm c w r = true) : WellFormed.rmLow c w r = true := by
  cases r with
  | mem m => exact wf
  | reg g =>
    have low := high_eq_false wide wf
    exact Bool.and_eq_true_iff.mpr ⟨wf, by rw [low]; rfl⟩

/-- A register that is no byte has the same encoding at each width. -/
theorem rm_w32_of_rmLow (wf : WellFormed.rmLow c w r = true) : WellFormed.rm c .w32 r = true := by
  cases r with
  | mem m => exact wf
  | reg g =>
    simp only [WellFormed.rmLow, Bool.and_eq_true, Bool.not_eq_true'] at wf
    obtain ⟨named, low⟩ := wf
    simp_all [WellFormed.rm, WellFormed.greg, needsRexByte]

theorem greg_plain_of_ne (wide : w ≠ .w8) (wf : WellFormed.gpr c d = true) : WellFormed.greg c w (plain d) = true := by
  simp [WellFormed.greg, plain, needsRexByte, wf, beq_eq_false_iff_ne.mpr wide]

theorem wv_ne_w8 (wf : WellFormed.wv c w = true) : w ≠ .w8 := by
  rintro rfl
  cases wf

theorem byteMix_rex (wf : WellFormed.byteMix w r g = true) (high : rmHigh r = true ∨ g.high = true) :
    (extBits r).1 = false ∧ (extBits r).2 = false ∧ rmForce w r = false ∧ WellFormed.ext g.r = false ∧ needsRexByte w g = false := by
  cases r with
  | reg h =>
    have some : (h.high || g.high) = true := Bool.or_eq_true_iff.mpr high
    simp only [WellFormed.byteMix, some, Bool.true_and, Bool.not_eq_true', Bool.or_eq_false_iff, WellFormed.rexRm, WellFormed.rexReg] at wf
    obtain ⟨⟨ext, force⟩, ext', force'⟩ := wf
    exact ⟨rfl, by rw [extBits, ext, Bool.and_false], force, ext', force'⟩
  | mem m =>
    have some : g.high = true := high.resolve_left Bool.noConfusion
    simp only [WellFormed.byteMix, some, Bool.or_true, Bool.true_and, Bool.not_eq_true', Bool.or_eq_false_iff, WellFormed.rexRm,
      WellFormed.rexReg] at wf
    obtain ⟨⟨b, x⟩, ext', force'⟩ := wf
    exact ⟨x, b, rfl, ext', force'⟩

section

variable (mix : WellFormed.byteMix w r g = true)
include mix

/-- Without 64 bits and with a high byte register there is no REX prefix (30_encoding.md R176). -/
theorem modrmEnv_rex_none (byte : w = .w8) (high : rmHigh r = true ∨ g.high = true) :
    (modrmEnv c l p o (wBit w) w w g r).rex = false := by
  obtain ⟨x, b, force, ext, force'⟩ := byteMix_rex mix high
  show (wBit w || (!g.high && WellFormed.ext g.r) || (extBits r).1 || (extBits r).2 || (needsRexByte w g || rmForce w r)) = false
  rw [x, b, force, ext, force', byte, Bool.and_false]
  rfl

variable (wfReg : WellFormed.greg c w g = true) (wfRm : WellFormed.rm c w r = true)
include wfReg wfRm

/-- The register operands of an instruction whose width may be a byte. -/
theorem modrm_registers :
    (modrmEnv c l p o (wBit w) w w g r).greg w (gregNum g) = g ∧ (modrmEnv c l p o (wBit w) w w g r).rm w (rawRm r) = r := by
  by_cases byte : w = .w8
  · have none := modrmEnv_rex_none (c := c) (l := l) (p := p) (o := o) mix byte
    have rex : (needsRexByte w g || rmForce w r) = true → (modrmEnv c l p o (wBit w) w w g r).rex = true := fun h => by
      show (_ || (needsRexByte w g || rmForce w r)) = true
      rw [h, Bool.or_true]
    subst byte
    exact ⟨greg_gregNum_byte wfReg (fun h => rex (by rw [h, Bool.true_or])) fun h => none (.inr h),
      rm_rawRm_byte wfRm (fun h => rex (by rw [h, Bool.or_true])) fun h => none (.inl h)⟩
  · exact ⟨greg_gregNum_low byte (high_eq_false byte wfReg), rm_rawRm_low byte (rmLow_of_rm byte wfRm)⟩

end

/-- The operand of an instruction /n whose width may be a byte. -/
theorem slash_register (wf : WellFormed.rm c w r = true) (mix : WellFormed.byteMix w r ⟨.rax, false⟩ = true) :
    (slashEnv c l p o (wBit w) w r).rm w (rawRm r) = r := by
  by_cases byte : w = .w8
  · subst byte
    refine rm_rawRm_byte wf (fun h => ?_) fun h => ?_
    · show (_ || rmForce .w8 r) = true
      rw [h, Bool.or_true]
    · obtain ⟨x, b, force, -⟩ := byteMix_rex mix (.inl h)
      show (wBit .w8 || false || (extBits r).1 || (extBits r).2 || rmForce .w8 r) = false
      rw [x, b, force]
      rfl
  · exact rm_rawRm_low byte (rmLow_of_rm byte wf)

end

end Sys2Proof
end

