-- ==== Sys2Proof/Proofs/RegisterRows.lean ====
section
/-! PROOFS. The round trips of the instructions with a plain register and a ModRM operand (31_opcode_maps.md R232, R252 to R258). -/

namespace Sys2Proof

/-- What the decoder knows before the opcode of a form whose operands have one width. -/
def sizedEnv (c : Ctx) (l : Bool) (p : Rep) (w : Width) (g : GReg) (r : RM) : Env := modrmEnv c l p (sized c w) (wBit w) w w g r

section

variable {c : Ctx} {pre op tail : List Byte} {l o wide : Bool} {p : Rep} {w wReg wRm : Width} {d : Gpr} {r : RM} {m : Mem} {i : Instr}
  {k : BitVec 4 × RawRM → Parser Instr}

/-- A row with a plain register, by what it does with the two operands that it reads back. -/
theorem roundTrip_plain_tail (legacy : Reads { c } pre (.legacy c l p o false none)) (reg : WellFormed.greg c wReg (plain d) = true)
    (rm : WellFormed.rm c wRm r = true) (long : wide = true → c.mode64 = true) (start : startsOpcode op = true)
    (opcode : Opcode (modrmEnv c l p o wide wReg wRm (plain d) r) op ((modrmEnv c l p o wide wReg wRm (plain d) r).modrm.andThen k))
    (operands : Parses (k (d.num, rawRm r)) tail i) (locks : l = true → lockable i = true) :
    RoundTrip c (encModrm c pre wide wReg wRm op (plain d) r ++ tail) i :=
  roundTrip_modrm_tail legacy reg rm long start opcode (parses_modrm reg rm operands) locks

theorem roundTrip_plain (legacy : Reads { c } pre (.legacy c l p o false none)) (reg : WellFormed.greg c wReg (plain d) = true)
    (rm : WellFormed.rm c wRm r = true) (long : wide = true → c.mode64 = true) (start : startsOpcode op = true)
    (opcode : Opcode (modrmEnv c l p o wide wReg wRm (plain d) r) op ((modrmEnv c l p o wide wReg wRm (plain d) r).modrm.andThen k))
    (operands : Parses (k (d.num, rawRm r)) [] i) (locks : l = true → lockable i = true) :
    RoundTrip c (encModrm c pre wide wReg wRm op (plain d) r) i :=
  roundTrip_modrm legacy reg rm long start opcode (parses_modrm reg rm operands) locks

/-! ### A register and an operand of the operand size -/

section

variable {mk : Width → Gpr → RM → Instr} (wf : (WellFormed.wv c w && WellFormed.regRm c w d r) = true)
include wf

theorem roundTrip_rE (legacy : Reads { c } pre (.legacy c l p (sized c w) false none)) (start : startsOpcode op = true)
    (opcode : Opcode (sizedEnv c l p w (plain d) r) op ((sizedEnv c l p w (plain d) r).rE ((sizedEnv c l p w (plain d) r).opsize false)
      (mk ((sizedEnv c l p w (plain d) r).opsize false))))
    (locks : l = true → lockable (mk w d r) = true) : RoundTrip c (encModrm c pre (wBit w) w w op (plain d) r) (mk w d r) := by
  simp only [WellFormed.regRm, Bool.and_eq_true] at wf
  obtain ⟨width, reg, rm⟩ := wf
  have notByte := wv_ne_w8 width
  rw [opsize_sized width rfl rfl rfl] at opcode
  exact roundTrip_plain legacy (greg_plain_of_ne notByte reg) (rm_of_rmLow rm) (wide_mode64 width) start opcode
    ((Parses.ret _).eq (congrArg₂ (mk w) (ofNum_num d) (rm_rawRm_low notByte rm))) locks

theorem roundTrip_encV (start : startsOpcode op = true)
    (opcode : Opcode (sizedEnv c false .none w (plain d) r) op ((sizedEnv c false .none w (plain d) r).rE
      ((sizedEnv c false .none w (plain d) r).opsize false) (mk ((sizedEnv c false .none w (plain d) r).opsize false)))) :
    RoundTrip c (encV c w op d r) (mk w d r) :=
  roundTrip_rE wf (reads_size w) start opcode Bool.noConfusion

/-- The rows that F3 selects (31_opcode_maps.md R257). -/
theorem roundTrip_repe (start : startsOpcode op = true)
    (opcode : Opcode (sizedEnv c false .repe w (plain d) r) op ((sizedEnv c false .repe w (plain d) r).rE
      ((sizedEnv c false .repe w (plain d) r).opsize false) (mk ((sizedEnv c false .repe w (plain d) r).opsize false)))) :
    RoundTrip c (encRegRm c (0xF3 :: sizePrefix c w) w op d r) (mk w d r) :=
  roundTrip_rE wf (reads_repe.append (reads_size w)) start opcode Bool.noConfusion

/-- A row with a field after the operands. -/
theorem roundTrip_encV_tail {α : Type} {field : Width → Parser α} {v : α} {mk : Width → Gpr → RM → α → Instr}
    (value : Parses (field w) tail v) (start : startsOpcode op = true)
    (opcode : Opcode (sizedEnv c false .none w (plain d) r) op ((sizedEnv c false .none w (plain d) r).modrm.andThen k))
    (row : k (d.num, rawRm r) = (field ((sizedEnv c false .none w (plain d) r).opsize false)).map
      (mk ((sizedEnv c false .none w (plain d) r).opsize false) (.ofNum d.num)
        ((sizedEnv c false .none w (plain d) r).rm ((sizedEnv c false .none w (plain d) r).opsize false) (rawRm r)))) :
    RoundTrip c (encV c w op d r ++ tail) (mk w d r v) := by
  simp only [WellFormed.regRm, Bool.and_eq_true] at wf
  obtain ⟨width, reg, rm⟩ := wf
  have notByte := wv_ne_w8 width
  rw [opsize_sized width rfl rfl rfl, ofNum_num, rm_rawRm_low notByte rm] at row
  exact roundTrip_plain_tail (reads_size w) (greg_plain_of_ne notByte reg) (rm_of_rmLow rm) (wide_mode64 width) start opcode
    (row ▸ value.map) Bool.noConfusion

end

/-- A row of the operand size `y` (31_opcode_maps.md R232). -/
theorem roundTrip_ysize {mk : Width → Gpr → RM → Instr} (wf : (WellFormed.wy c w && WellFormed.regRm c w d r) = true)
    (legacy : Reads { c } pre (.legacy c false p o false none)) (start : startsOpcode op = true)
    (opcode : Opcode (modrmEnv c false p o (wBit w) w w (plain d) r) op ((modrmEnv c false p o (wBit w) w w (plain d) r).rE
      (modrmEnv c false p o (wBit w) w w (plain d) r).ysize (mk (modrmEnv c false p o (wBit w) w w (plain d) r).ysize))) :
    RoundTrip c (encModrm c pre (wBit w) w w op (plain d) r) (mk w d r) := by
  simp only [WellFormed.regRm, Bool.and_eq_true] at wf
  obtain ⟨width, reg, rm⟩ := wf
  have sized : WellFormed.wv c w = true := by
    cases w <;> simp_all [WellFormed.wy, WellFormed.wv]
  have notByte := wv_ne_w8 sized
  rw [ysize_wide width rfl rfl] at opcode
  exact roundTrip_plain legacy (greg_plain_of_ne notByte reg) (rm_of_rmLow rm) (wide_mode64 sized) start opcode
    ((Parses.ret _).eq (congrArg₂ (mk w) (ofNum_num d) (rm_rawRm_low notByte rm))) Bool.noConfusion

/-! ### A register and a memory operand -/

theorem roundTrip_gM {f : Gpr → Mem → Instr} (legacy : Reads { c } pre (.legacy c false p o false none))
    (wf : (WellFormed.gpr c d && WellFormed.mem c m) = true) (byte : wReg ≠ .w8) (long : wide = true → c.mode64 = true)
    (start : startsOpcode op = true)
    (opcode : Opcode (modrmEnv c false p o wide wReg wReg (plain d) (.mem m)) op ((modrmEnv c false p o wide wReg wReg (plain d) (.mem m)).gM f)) :
    RoundTrip c (encModrm c pre wide wReg wReg op (plain d) (.mem m)) (f d m) := by
  obtain ⟨reg, mem⟩ := Bool.and_eq_true_iff.mp wf
  exact roundTrip_plain legacy (greg_plain_of_ne byte reg) mem long start opcode
    ((Parses.ret _).eq (congrArg (fun g => f g m) (ofNum_num d))) Bool.noConfusion

/-- A memory operand with a register of the operand size. -/
theorem roundTrip_encV_mem {mk : Width → Gpr → Mem → Instr} (wf : (WellFormed.wv c w && WellFormed.gpr c d && WellFormed.mem c m) = true)
    (start : startsOpcode op = true)
    (opcode : Opcode (sizedEnv c false .none w (plain d) (.mem m)) op ((sizedEnv c false .none w (plain d) (.mem m)).gM
      (mk ((sizedEnv c false .none w (plain d) (.mem m)).opsize false)))) : RoundTrip c (encV c w op d (.mem m)) (mk w d m) := by
  simp only [Bool.and_eq_true, and_assoc] at wf
  obtain ⟨width, operands⟩ := wf
  rw [opsize_sized width rfl rfl rfl] at opcode
  exact roundTrip_gM (reads_size w) (Bool.and_eq_true_iff.mpr operands) (wv_ne_w8 width) (wide_mode64 width) start opcode

end

/-! ### The forms of some instructions -/

section

variable {c : Ctx} {w : Width} {d : Gpr} {r : RM} {m : Mem} {v : BitVec 64}

theorem roundTrip_imul_imm (wf : wellFormed c (.imul w (.regRmImm d r v)) = true) :
    RoundTrip c (encode c (.imul w (.regRmImm d r v))) (.imul w (.regRmImm d r v)) := by
  obtain ⟨operands, imm⟩ := Bool.and_eq_true_iff.mp wf
  exact roundTrip_encV_tail (field := immz) (mk := fun w d r v => .imul w (.regRmImm d r v)) operands (parses_immz imm) rfl
    (opcode_primary rfl rfl) rfl

theorem double_operands {cnt : ShiftCount} (wf : (WellFormed.wv c w && WellFormed.rmLow c w r && WellFormed.gpr c d && cnt != .one) = true) :
    (WellFormed.wv c w && WellFormed.regRm c w d r) = true ∧ cnt ≠ .one := by
  simp only [Bool.and_eq_true, bne_iff_ne] at wf
  obtain ⟨⟨⟨width, rm⟩, reg⟩, some⟩ := wf
  exact ⟨by rw [WellFormed.regRm, width, rm, reg]; rfl, some⟩

theorem roundTrip_shld {cnt : ShiftCount} (wf : wellFormed c (.shld w r d cnt) = true) :
    RoundTrip c (encode c (.shld w r d cnt)) (.shld w r d cnt) := by
  obtain ⟨operands, some⟩ := double_operands wf
  cases cnt with
  | one => exact absurd rfl some
  | cl => exact roundTrip_encV (mk := fun w g r => .shld w r g .cl) operands rfl (opcode_secondary rfl)
  | imm v =>
    exact roundTrip_encV_tail (field := fun _ => Parser.byte) (mk := fun w g r v => .shld w r g (.imm v)) operands (parses_byte v) rfl
      (opcode_secondary rfl) rfl

theorem roundTrip_shrd {cnt : ShiftCount} (wf : wellFormed c (.shrd w r d cnt) = true) :
    RoundTrip c (encode c (.shrd w r d cnt)) (.shrd w r d cnt) := by
  obtain ⟨operands, some⟩ := double_operands wf
  cases cnt with
  | one => exact absurd rfl some
  | cl => exact roundTrip_encV (mk := fun w g r => .shrd w r g .cl) operands rfl (opcode_secondary rfl)
  | imm v =>
    exact roundTrip_encV_tail (field := fun _ => Parser.byte) (mk := fun w g r v => .shrd w r g (.imm v)) operands (parses_byte v) rfl
      (opcode_secondary rfl) rfl

/-! ### Operands of two widths -/

/-- A source of a byte beside a plain register: no REX prefix hides a high byte register. -/
theorem modrm_byte_source {l o wide : Bool} {p : Rep} (rm : WellFormed.rm c .w8 r = true)
    (high : rmHigh r = true → (wide || WellFormed.ext d) = false) : (modrmEnv c l p o wide .w32 .w8 (plain d) r).rm .w8 (rawRm r) = r := by
  refine rm_rawRm_byte rm (fun force => ?_) fun some => ?_
  · show (_ || (_ || rmForce .w8 r)) = true
    rw [force, Bool.or_true, Bool.or_true]
  · have none := high some
    cases r with
    | mem m => cases some
    | reg g =>
      have some : g.high = true := some
      show (wide || (!(plain d).high && WellFormed.ext d) || (extBits (.reg g)).1 || (extBits (.reg g)).2 ||
        (WellFormed.needsRexByte .w32 (plain d) || rmForce .w8 (.reg g))) = false
      simpa [plain, extBits, rmForce, WellFormed.needsRexByte, some] using none

/-- MOVZX and MOVSX. -/
theorem roundTrip_extension {mk : Width → Width → Gpr → RM → Instr} {sw : Width} {op : Byte}
    (wf : (WellFormed.wv c w && (sw == .w8 || sw == .w16) && WellFormed.gpr c d && WellFormed.rm c sw r) = true)
    (high : rmHigh r = true → WellFormed.ext d = false ∧ w ≠ .w64)
    (byte : ∀ e : Env, decodeSecondary e op = e.rE .w8 fun g r => mk (e.opsize false) .w8 g r)
    (word : ∀ e : Env, decodeSecondary e (op ||| 1) = e.rE .w16 fun g r => mk (e.opsize false) .w16 g r) :
    RoundTrip c (encModrm c (sizePrefix c w) (wBit w) .w32 sw (0x0F :: opBv op sw) (plain d) r) (mk w sw d r) := by
  simp only [Bool.and_eq_true, Bool.or_eq_true, beq_iff_eq] at wf
  obtain ⟨⟨⟨width, source⟩, reg⟩, rm⟩ := wf
  have size : (modrmEnv c false .none (sized c w) (wBit w) .w32 sw (plain d) r).opsize false = w := opsize_sized width rfl rfl rfl
  have reg := greg_plain_of_ne (w := .w32) Width.noConfusion reg
  rcases source with rfl | rfl
  · have same : (modrmEnv c false .none (sized c w) (wBit w) .w32 .w8 (plain d) r).rm .w8 (rawRm r) = r :=
      modrm_byte_source rm fun some => by
        obtain ⟨low, narrow⟩ := high some
        rw [low, wBit, beq_eq_false_iff_ne.mpr narrow]
        rfl
    refine roundTrip_plain (reads_size w) reg rm (wide_mode64 width) rfl (opcode_secondary (byte _)) ((Parses.ret _).eq ?_)
      Bool.noConfusion
    rw [size]
    exact congrArg₂ (mk w .w8) (ofNum_num d) same
  · refine roundTrip_plain (reads_size w) reg rm (wide_mode64 width) rfl (opcode_secondary (word _)) ((Parses.ret _).eq ?_)
      Bool.noConfusion
    rw [size]
    exact congrArg₂ (mk w .w16) (ofNum_num d) (rm_rawRm_low Width.noConfusion (rmLow_of_rm Width.noConfusion rm))

/-- The last condition on the operands of MOVZX and MOVSX. -/
theorem extension_high {sw : Width} (wf : wellFormed c (.movzx w sw d r) = true) (high : rmHigh r = true) :
    WellFormed.ext d = false ∧ w ≠ .w64 := by
  have last := (Bool.and_eq_true_iff.mp wf).2
  cases r with
  | mem m => cases high
  | reg g => simpa [show g.high = true from high] using last

theorem roundTrip_movzx {sw : Width} (wf : wellFormed c (.movzx w sw d r) = true) :
    RoundTrip c (encode c (.movzx w sw d r)) (.movzx w sw d r) :=
  roundTrip_extension (mk := .movzx) (Bool.and_eq_true_iff.mp wf).1 (extension_high wf) (fun _ => rfl) fun _ => rfl

theorem roundTrip_movsx {sw : Width} (wf : wellFormed c (.movsx w sw d r) = true) :
    RoundTrip c (encode c (.movsx w sw d r)) (.movsx w sw d r) :=
  roundTrip_extension (mk := .movsx) (Bool.and_eq_true_iff.mp wf).1 (extension_high wf) (fun _ => rfl) fun _ => rfl

/-- REX.W is allowed in 64-bit mode only. -/
theorem ysize_wide_eq {e : Env} {wide : Bool} (long : wide = true → c.mode64 = true) (ctx : e.c = c) (w : e.w = wide) :
    (e.ysize == .w64) = wide := by
  rw [Env.ysize, ctx, w]
  cases wide with
  | false => rw [Bool.and_false]; rfl
  | true => rw [long rfl]; rfl

/-- CRC32 of a byte. -/
theorem roundTrip_crc32_byte {wide : Bool} (reg : WellFormed.gpr c d = true) (rm : WellFormed.rm c .w8 r = true)
    (long : wide = true → c.mode64 = true) (high : rmHigh r = true → (wide || WellFormed.ext d) = false) :
    RoundTrip c (encode c (.crc32 .w8 wide d r)) (.crc32 .w8 wide d r) := by
  have reg := greg_plain_of_ne (w := .w32) Width.noConfusion reg
  have size : ((modrmEnv c false .repne false wide .w32 .w8 (plain d) r).ysize == .w64) = wide := ysize_wide_eq long rfl rfl
  refine roundTrip_plain (reads_repne.append (.nil _)) reg rm long rfl (opcode_0F38 rfl) ((Parses.ret _).eq ?_) Bool.noConfusion
  rw [size]
  exact congrArg₂ (Instr.crc32 .w8 wide) (ofNum_num d) (modrm_byte_source rm high)

/-- CRC32 of a word, doubleword or quadword. -/
theorem roundTrip_crc32_sized (width : WellFormed.wv c w = true) (reg : WellFormed.gpr c d = true) (rm : WellFormed.rm c w r = true) :
    RoundTrip c (encModrm c ([0xF2] ++ sizePrefix c w) (wBit w) .w32 w [0x0F, 0x38, 0xF1] (plain d) r) (.crc32 w (wBit w) d r) := by
  have notByte := wv_ne_w8 width
  have reg := greg_plain_of_ne (w := .w32) Width.noConfusion reg
  have size : (modrmEnv c false .repne (sized c w) (wBit w) .w32 w (plain d) r).opsize false = w := opsize_sized width rfl rfl rfl
  have wide : ((modrmEnv c false .repne (sized c w) (wBit w) .w32 w (plain d) r).ysize == .w64) = wBit w :=
    ysize_wide_eq (wide_mode64 width) rfl rfl
  refine roundTrip_plain (reads_repne.append (reads_size w)) reg rm (wide_mode64 width) rfl (opcode_0F38 rfl) ((Parses.ret _).eq ?_)
    Bool.noConfusion
  rw [size, wide]
  exact congrArg₂ (Instr.crc32 w (wBit w)) (ofNum_num d) (rm_rawRm_low notByte (rmLow_of_rm notByte rm))

theorem roundTrip_crc32 {wide : Bool} (wf : wellFormed c (.crc32 w wide d r) = true) :
    RoundTrip c (encode c (.crc32 w wide d r)) (.crc32 w wide d r) := by
  have wf : (WellFormed.gpr c d && WellFormed.rm c w r && WellFormed.byteMix w r ⟨d, false⟩ && (c.mode64 || !wide) && _ && _) = true := wf
  simp only [Bool.and_eq_true] at wf
  obtain ⟨⟨⟨⟨⟨reg, rm⟩, -⟩, long⟩, high⟩, width⟩ := wf
  have long : wide = true → c.mode64 = true := fun h => by simpa [h] using long
  cases w with
  | w8 =>
    refine roundTrip_crc32_byte reg rm long fun some => ?_
    cases r with
    | mem m => cases some
    | reg g => simpa [show g.high = true from some] using high
  | w16 =>
    cases (show wide = false by simpa using width)
    exact roundTrip_crc32_sized (w := .w16) rfl reg rm
  | w32 =>
    cases (show wide = false by simpa using width)
    exact roundTrip_crc32_sized (w := .w32) rfl reg rm
  | w64 =>
    cases (show wide = true by simpa using width)
    exact roundTrip_crc32_sized (w := .w64) (long rfl) reg rm

/-! ### Opcode 63 (31_opcode_maps.md R235) -/

theorem roundTrip_arpl (wf : wellFormed c (.arpl r d) = true) : RoundTrip c (encode c (.arpl r d)) (.arpl r d) := by
  have wf : (!c.mode64 && WellFormed.rmLow c .w16 r && WellFormed.gpr c d) = true := wf
  simp only [Bool.and_eq_true, Bool.not_eq_true'] at wf
  obtain ⟨⟨mode, rm⟩, reg⟩ := wf
  have row : decodePrimary (modrmEnv c false .none false false .w32 .w32 (plain d) r) 0x63 =
      (modrmEnv c false .none false false .w32 .w32 (plain d) r).rE .w16 fun g r => .arpl r g :=
    if_neg (Bool.eq_false_iff.mp mode)
  exact roundTrip_plain (.nil _) (greg_plain_of_ne Width.noConfusion reg) (rm_w32_of_rmLow rm) Bool.noConfusion rfl
    (opcode_primary rfl row) ((Parses.ret _).eq (congrArg₂ (fun g r => Instr.arpl r g) (ofNum_num d) (rm_rawRm_low Width.noConfusion rm)))
    Bool.noConfusion

theorem roundTrip_movsxd (wf : wellFormed c (.movsxd w d r) = true) : RoundTrip c (encode c (.movsxd w d r)) (.movsxd w d r) := by
  have wf : (c.mode64 && WellFormed.wv c w && (WellFormed.gpr c d && WellFormed.rmLow c w r)) = true := wf
  simp only [Bool.and_eq_true] at wf
  obtain ⟨⟨mode, width⟩, reg, rm⟩ := wf
  have size : (modrmEnv c false .none (sized c w) (wBit w) .w32 .w32 (plain d) r).opsize false = w := opsize_sized width rfl rfl rfl
  have row : decodePrimary (modrmEnv c false .none (sized c w) (wBit w) .w32 .w32 (plain d) r) 0x63 =
      (modrmEnv c false .none (sized c w) (wBit w) .w32 .w32 (plain d) r).modrm.map fun a => .movsxd
        ((modrmEnv c false .none (sized c w) (wBit w) .w32 .w32 (plain d) r).opsize false) (.ofNum a.1)
        ((modrmEnv c false .none (sized c w) (wBit w) .w32 .w32 (plain d) r).rm .w32 a.2) :=
    if_pos mode
  rw [size] at row
  exact roundTrip_plain (reads_size w) (greg_plain_of_ne Width.noConfusion reg) (rm_w32_of_rmLow rm) (wide_mode64 width) rfl
    (opcode_primary rfl row) ((Parses.ret _).eq (congrArg₂ (Instr.movsxd w) (ofNum_num d) (rm_rawRm_low Width.noConfusion rm)))
    Bool.noConfusion

/-! ### LDS and LES: their opcodes begin a VEX prefix only before a register form (30_encoding.md R200) -/

theorem opcode_far_pointer {e : Env} {op : Byte} {p : Parser Instr} (mode : e.c.mode64 = false) (vex : op = 0xC4 ∨ op = 0xC5)
    (row : decodePrimary e op = p) {b : Byte} {bs : List Byte} (memory : modField b ≠ 3#2) : decodeOpcode e (op :: b :: bs) = p (b :: bs) := by
  have none : isExtendedPrefix e.c op b = false := by
    rcases vex with rfl | rfl <;> simp [isExtendedPrefix, mode, memory]
  have escape : op ≠ 0x0F#8 := by
    rcases vex with rfl | rfl <;> decide
  simp [decodeOpcode, Parser.byte, Parser.andThen, none, escape, row]

/-- ModRM of a memory operand. -/
theorem encMem_modField (n : BitVec 3) (m : Mem) : ∃ b bs, encMem n m = b :: bs ∧ modField b ≠ 3#2 := by
  obtain ⟨seg, base, index, disp, asz⟩ := m
  cases asz with
  | a16 =>
    cases form : WellFormed.form16 base index with
    | none => exact ⟨_, _, by simp only [encMem, form]; rfl, by rw [modField_modrmByte]; decide⟩
    | some f => exact ⟨_, _, by simp only [encMem, form]; rfl, by rw [modField_modrmByte]; decide⟩
  | a32 => cases base <;> exact ⟨_, _, rfl, by rw [modField_modrmByte]; decide⟩
  | a64 => cases base <;> exact ⟨_, _, rfl, by rw [modField_modrmByte]; decide⟩

theorem roundTrip_far_pointer {op : Byte} {mk : Width → Gpr → Mem → Instr}
    (wf : (!c.mode64 && (w == .w16 || w == .w32) && WellFormed.gpr c d && WellFormed.mem c m) = true) (vex : op = 0xC4 ∨ op = 0xC5)
    (row : ∀ e : Env, decodePrimary e op = e.gM (mk (e.opsize false))) : RoundTrip c (encV c w [op] d (.mem m)) (mk w d m) := by
  simp only [Bool.and_eq_true, Bool.not_eq_true', Bool.or_eq_true, beq_iff_eq] at wf
  obtain ⟨⟨⟨mode, size⟩, reg⟩, mem⟩ := wf
  have width : WellFormed.wv c w = true := by
    rcases size with rfl | rfl <;> rfl
  have reg := greg_plain_of_ne (wv_ne_w8 width) reg
  have opcode : prefixInstr c op = none := prefixInstr_none_of_long64 c (by rcases vex with rfl | rfl <;> rfl)
  rw [encV, encRegRm, encModrm_eq]
  refine roundTrip_of_parses (reads_operand (w := w) (reads_size w) mem (modrm_modes reg mem (wide_mode64 width))) opcode (fun rest => ?_)
    Bool.noConfusion
  obtain ⟨b, bs, bytes, memory⟩ := encMem_modField ((gregNum (plain d)).setWidth 3) m
  have row := row (sizedEnv c false .none w (plain d) (.mem m))
  rw [opsize_sized width rfl rfl rfl] at row
  have operands : Parses ((sizedEnv c false .none w (plain d) (.mem m)).gM (mk w)) (encRm ((gregNum (plain d)).setWidth 3) (.mem m) ++ [])
      (mk w d m) :=
    parses_modrm reg mem ((Parses.ret _).eq (congrArg (fun g => mk w g m) (ofNum_num d)))
  have read := operands rest
  rw [List.append_nil, encRm, bytes] at read
  rw [encRm, bytes]
  exact (opcode_far_pointer mode vex row memory).trans read

theorem roundTrip_bound (wf : wellFormed c (.bound w d m) = true) : RoundTrip c (encode c (.bound w d m)) (.bound w d m) := by
  have wf : (!c.mode64 && WellFormed.wv c w && WellFormed.gpr c d && WellFormed.mem c m) = true := wf
  refine roundTrip_encV_mem ?_ rfl (opcode_primary rfl rfl)
  simp_all

/-! ### Doublewords and quadwords by REX.W (31_opcode_maps.md R232 `y`) -/

theorem roundTrip_gM_ysize {pre op : List Byte} {p : Rep} {o : Bool} {f : Width → Gpr → Mem → Instr}
    (legacy : Reads { c } pre (.legacy c false p o false none)) (width : WellFormed.wy c w = true)
    (wf : (WellFormed.gpr c d && WellFormed.mem c m) = true) (start : startsOpcode op = true)
    (opcode : Opcode (modrmEnv c false p o (wBit w) .w32 .w32 (plain d) (.mem m)) op
      ((modrmEnv c false p o (wBit w) .w32 .w32 (plain d) (.mem m)).gM (f (modrmEnv c false p o (wBit w) .w32 .w32 (plain d) (.mem m)).ysize))) :
    RoundTrip c (encModrm c pre (wBit w) .w32 .w32 op (plain d) (.mem m)) (f w d m) := by
  have long : wBit w = true → c.mode64 = true := by cases w <;> simp_all [WellFormed.wy, wBit]
  rw [ysize_wide width rfl rfl] at opcode
  exact roundTrip_gM legacy wf Width.noConfusion long start opcode

theorem roundTrip_movnti (wf : wellFormed c (.movnti w m d) = true) : RoundTrip c (encode c (.movnti w m d)) (.movnti w m d) := by
  have wf : (WellFormed.wy c w && WellFormed.gpr c d && WellFormed.mem c m) = true := wf
  rw [Bool.and_assoc] at wf
  obtain ⟨width, operands⟩ := Bool.and_eq_true_iff.mp wf
  exact roundTrip_gM_ysize (f := fun w g m => .movnti w m g) (.nil _) width operands rfl (opcode_secondary rfl)

/-- WRSSD and WRSSQ. -/
def wrssInstr (y : Width) (d : Gpr) (m : Mem) : Instr := if y = .w64 then .wrssq m d else .wrssd m d

/-- WRUSSD and WRUSSQ. -/
def wrussInstr (y : Width) (d : Gpr) (m : Mem) : Instr := if y = .w64 then .wrussq m d else .wrussd m d

theorem wrss_quad (wf : (c.mode64 && WellFormed.mem c m && WellFormed.gpr c d) = true) :
    c.mode64 = true ∧ (WellFormed.gpr c d && WellFormed.mem c m) = true := by
  rw [Bool.and_assoc, Bool.and_comm (WellFormed.mem c m)] at wf
  exact Bool.and_eq_true_iff.mp wf

theorem roundTrip_wrssd (wf : wellFormed c (.wrssd m d) = true) : RoundTrip c (encode c (.wrssd m d)) (.wrssd m d) :=
  roundTrip_gM_ysize (w := .w32) (f := wrssInstr) (.nil _) rfl ((Bool.and_comm _ _).trans wf) rfl (opcode_0F38 rfl)

theorem roundTrip_wrssq (wf : wellFormed c (.wrssq m d) = true) : RoundTrip c (encode c (.wrssq m d)) (.wrssq m d) := by
  obtain ⟨mode, operands⟩ := wrss_quad wf
  exact roundTrip_gM_ysize (w := .w64) (f := wrssInstr) (.nil _) mode operands rfl (opcode_0F38 rfl)

theorem roundTrip_wrussd (wf : wellFormed c (.wrussd m d) = true) : RoundTrip c (encode c (.wrussd m d)) (.wrussd m d) :=
  roundTrip_gM_ysize (w := .w32) (f := wrussInstr) reads_opsz rfl ((Bool.and_comm _ _).trans wf) rfl (opcode_0F38 rfl)

theorem roundTrip_wrussq (wf : wellFormed c (.wrussq m d) = true) : RoundTrip c (encode c (.wrussq m d)) (.wrussq m d) := by
  obtain ⟨mode, operands⟩ := wrss_quad wf
  exact roundTrip_gM_ysize (w := .w64) (f := wrussInstr) reads_opsz mode operands rfl (opcode_0F38 rfl)

theorem roundTrip_invpcid (wf : wellFormed c (.invpcid d m) = true) : RoundTrip c (encode c (.invpcid d m)) (.invpcid d m) :=
  roundTrip_gM reads_opsz wf Width.noConfusion Bool.noConfusion rfl (opcode_0F38 rfl)

/-! ### Vector registers by number -/

theorem num_ofNum (x : BitVec 4) : (Gpr.ofNum x).num = x := by
  revert x
  decide

/-- The low three bits of an extended field. -/
theorem setWidth_extend (b : Bool) (n : BitVec 3) : (extend b n).setWidth 3 = n := by
  revert b n
  decide

theorem greg_vector {x : BitVec 4} (wf : (c.mode64 || !x.msb) = true) : WellFormed.greg c .w32 (plain (.ofNum x)) = true := by
  refine greg_plain_of_ne Width.noConfusion ?_
  rw [WellFormed.gpr, WellFormed.ext, num_ofNum]
  exact wf

theorem roundTrip_movd {wide : Bool} {f : MovdForm} (wf : wellFormed c (.movd wide f) = true) :
    RoundTrip c (encode c (.movd wide f)) (.movd wide f) := by
  obtain ⟨width, form⟩ := Bool.and_eq_true_iff.mp wf
  have long : wide = true → c.mode64 = true := fun h => by simpa [h] using width
  cases f with
  | toXmm x r =>
    obtain ⟨vector, rm⟩ := Bool.and_eq_true_iff.mp form
    refine roundTrip_plain reads_opsz (greg_vector vector) (rm_w32_of_rmLow rm) long rfl (opcode_secondary rfl) ((Parses.ret _).eq ?_)
      Bool.noConfusion
    show Instr.movd (Env.ysize _ == .w64) (.toXmm _ (Env.rm _ .w32 (rawRm r))) = _
    rw [ysize_wide_eq long rfl rfl, rm_rawRm_low Width.noConfusion rm, num_ofNum]
  | fromXmm r x =>
    obtain ⟨vector, rm⟩ := Bool.and_eq_true_iff.mp form
    refine roundTrip_plain reads_opsz (greg_vector vector) (rm_w32_of_rmLow rm) long rfl (opcode_secondary rfl) ((Parses.ret _).eq ?_)
      Bool.noConfusion
    show Instr.movd (Env.ysize _ == .w64) (.fromXmm (Env.rm _ .w32 (rawRm r)) _) = _
    rw [ysize_wide_eq long rfl rfl, rm_rawRm_low Width.noConfusion rm, num_ofNum]
  | toMmx x r =>
    refine roundTrip_slash (.nil _) (rm_w32_of_rmLow form) long rfl (opcode_secondary rfl)
      (parses_slash (rm_w32_of_rmLow form) ((Parses.ret _).eq ?_)) Bool.noConfusion
    show Instr.movd (Env.ysize _ == .w64) (.toMmx _ (Env.rm _ .w32 (rawRm r))) = _
    rw [ysize_wide_eq long rfl rfl, rm_rawRm_low Width.noConfusion form, setWidth_extend]
  | fromMmx r x =>
    refine roundTrip_slash (.nil _) (rm_w32_of_rmLow form) long rfl (opcode_secondary rfl)
      (parses_slash (rm_w32_of_rmLow form) ((Parses.ret _).eq ?_)) Bool.noConfusion
    show Instr.movd (Env.ysize _ == .w64) (.fromMmx (Env.rm _ .w32 (rawRm r)) _) = _
    rw [ysize_wide_eq long rfl rfl, rm_rawRm_low Width.noConfusion form, setWidth_extend]

theorem roundTrip_movmskpd {x : BitVec 4} (wf : wellFormed c (.movmskpd d x) = true) :
    RoundTrip c (encode c (.movmskpd d x)) (.movmskpd d x) := by
  obtain ⟨reg, vector⟩ := Bool.and_eq_true_iff.mp wf
  exact roundTrip_plain reads_opsz (greg_plain_of_ne Width.noConfusion reg) (greg_vector vector) Bool.noConfusion rfl
    (opcode_secondary rfl) ((Parses.ret _).eq (congrArg₂ Instr.movmskpd (ofNum_num d) (num_ofNum x))) Bool.noConfusion

theorem roundTrip_movmskps {x : BitVec 4} (wf : wellFormed c (.movmskps d x) = true) :
    RoundTrip c (encode c (.movmskps d x)) (.movmskps d x) := by
  obtain ⟨reg, vector⟩ := Bool.and_eq_true_iff.mp wf
  exact roundTrip_plain (.nil _) (greg_plain_of_ne Width.noConfusion reg) (greg_vector vector) Bool.noConfusion rfl
    (opcode_secondary rfl) ((Parses.ret _).eq (congrArg₂ Instr.movmskps (ofNum_num d) (num_ofNum x))) Bool.noConfusion

end

end Sys2Proof
end

