-- ==== Sys2Proof/Proofs/ByteRows.lean ====
section
/-! PROOFS. The round trips of the rows whose opcode's low bit selects byte or operand size, and of the opcode extensions /n
(31_opcode_maps.md R233, R236, R245 to R249, R263). -/

namespace Sys2Proof

/-- What the decoder knows before the opcode of a form /n of one width. -/
def sizedSlashEnv (c : Ctx) (l : Bool) (w : Width) (r : RM) : Env := slashEnv c l .none (sized c w) (wBit w) w r

section

variable {c : Ctx} {pre pfx op tail : List Byte} {l o wide : Bool} {p : Rep} {w : Width} {d : Gpr} {g : GReg} {r : RM} {m : Mem} {i : Instr}
  {n : BitVec 3} {k k8 : BitVec 4 × RawRM → Parser Instr}

/-! ### A register and an operand, bytes or of the operand size -/

theorem roundTrip_gE {low : Byte} {mk : Width → GReg → RM → Instr} (legacy : Reads { c } pre (.legacy c l .none (sized c w) false none))
    (wf : (WellFormed.wbv c w && WellFormed.rm c w r && WellFormed.greg c w g && WellFormed.byteMix w r g) = true)
    (start8 : startsOpcode (pfx ++ [low]) = true) (start : startsOpcode (pfx ++ [low ||| 1]) = true)
    (row8 : Opcode (sizedEnv c l .none w g r) (pfx ++ [low]) ((sizedEnv c l .none w g r).gE .w8 (mk .w8)))
    (row : Opcode (sizedEnv c l .none w g r) (pfx ++ [low ||| 1]) ((sizedEnv c l .none w g r).gE ((sizedEnv c l .none w g r).opsize false)
      (mk ((sizedEnv c l .none w g r).opsize false))))
    (locks : l = true → lockable (mk w g r) = true) :
    RoundTrip c (encModrm c pre (wBit w) w w (pfx ++ opBv low w) g r) (mk w g r) := by
  simp only [Bool.and_eq_true] at wf
  obtain ⟨⟨⟨width, rm⟩, reg⟩, mix⟩ := wf
  obtain ⟨sameReg, sameRm⟩ := modrm_registers (l := l) (p := .none) (o := sized c w) mix reg rm
  have operands : Parses ((sizedEnv c l .none w g r).gE w (mk w)) (encRm ((gregNum g).setWidth 3) r ++ []) (mk w g r) :=
    parses_modrm reg rm ((Parses.ret _).eq (congrArg₂ (mk w) sameReg sameRm))
  by_cases byte : w = .w8
  · subst byte
    exact roundTrip_modrm legacy reg rm Bool.noConfusion start8 row8 operands locks
  · have width : WellFormed.wv c w = true := by simpa [WellFormed.wbv, byte] using width
    rw [opsize_sized width rfl rfl rfl] at row
    rw [opBv, if_neg byte]
    exact roundTrip_modrm legacy reg rm (wide_mode64 width) start row operands locks

/-! ### Opcode extensions -/

section

variable {α : Type} {field : Width → Parser α} {v : α} {mk : Width → RM → α → Instr}
  (legacy : Reads { c } pre (.legacy c l .none (sized c w) false none)) (value : Parses (field w) tail v)
  (locks : l = true → lockable (mk w r v) = true)
include legacy value locks

/-- A form /n, a byte or of the operand size, with the field that follows it. -/
theorem roundTrip_slashB {low : Byte} (wf : (WellFormed.wbv c w && WellFormed.rm c w r && WellFormed.byteMix w r ⟨.rax, false⟩) = true)
    (start8 : startsOpcode [low] = true) (start : startsOpcode [low ||| 1] = true)
    (row8 : Opcode (sizedSlashEnv c l w r) [low] ((sizedSlashEnv c l w r).modrm.andThen k8))
    (row : Opcode (sizedSlashEnv c l w r) [low ||| 1] ((sizedSlashEnv c l w r).modrm.andThen k))
    (then8 : k8 (extend false n, rawRm r) = (field .w8).map (mk .w8 ((sizedSlashEnv c l w r).rm .w8 (rawRm r))))
    (thenV : k (extend false n, rawRm r) = (field ((sizedSlashEnv c l w r).opsize false)).map
      (mk ((sizedSlashEnv c l w r).opsize false) ((sizedSlashEnv c l w r).rm ((sizedSlashEnv c l w r).opsize false) (rawRm r)))) :
    RoundTrip c (encSlash c pre (wBit w) w (opBv low w) n r ++ tail) (mk w r v) := by
  simp only [Bool.and_eq_true] at wf
  obtain ⟨⟨width, rm⟩, mix⟩ := wf
  have same : (sizedSlashEnv c l w r).rm w (rawRm r) = r := slash_register rm mix
  by_cases byte : w = .w8
  · subst byte
    rw [same] at then8
    exact roundTrip_slash_tail legacy rm Bool.noConfusion start8 row8 (parses_slash rm (then8 ▸ value.map)) locks
  · have width : WellFormed.wv c w = true := by simpa [WellFormed.wbv, byte] using width
    rw [opsize_sized width rfl rfl rfl, same] at thenV
    rw [opBv, if_neg byte]
    exact roundTrip_slash_tail legacy rm (wide_mode64 width) start row (parses_slash rm (thenV ▸ value.map)) locks

/-- A form /n of the operand size. -/
theorem roundTrip_slashV (wf : (WellFormed.wv c w && WellFormed.rmLow c w r) = true) (start : startsOpcode op = true)
    (row : Opcode (sizedSlashEnv c l w r) op ((sizedSlashEnv c l w r).modrm.andThen k))
    (thenV : k (extend false n, rawRm r) = (field ((sizedSlashEnv c l w r).opsize false)).map
      (mk ((sizedSlashEnv c l w r).opsize false) ((sizedSlashEnv c l w r).rm ((sizedSlashEnv c l w r).opsize false) (rawRm r)))) :
    RoundTrip c (encSlash c pre (wBit w) w op n r ++ tail) (mk w r v) := by
  obtain ⟨width, rm⟩ := Bool.and_eq_true_iff.mp wf
  rw [opsize_sized width rfl rfl rfl, rm_rawRm_low (wv_ne_w8 width) rm] at thenV
  exact roundTrip_slash_tail legacy (rm_of_rmLow rm) (wide_mode64 width) start row (parses_slash (rm_of_rmLow rm) (thenV ▸ value.map)) locks

end

/-- No field. -/
def noField : Width → Parser Unit := fun _ => Parser.ret ()

theorem roundTrip_slashB_plain {low : Byte} {mk : Width → RM → Instr}
    (wf : (WellFormed.wbv c w && WellFormed.rm c w r && WellFormed.byteMix w r ⟨.rax, false⟩) = true)
    (start8 : startsOpcode [low] = true) (start : startsOpcode [low ||| 1] = true)
    (row8 : Opcode (sizedSlashEnv c l w r) [low] ((sizedSlashEnv c l w r).modrm.andThen k8))
    (row : Opcode (sizedSlashEnv c l w r) [low ||| 1] ((sizedSlashEnv c l w r).modrm.andThen k))
    (then8 : k8 (extend false n, rawRm r) = Parser.ret (mk .w8 ((sizedSlashEnv c l w r).rm .w8 (rawRm r))))
    (thenV : k (extend false n, rawRm r) = Parser.ret (mk ((sizedSlashEnv c l w r).opsize false)
      ((sizedSlashEnv c l w r).rm ((sizedSlashEnv c l w r).opsize false) (rawRm r))))
    (locks : l = true → lockable (mk w r) = true) :
    RoundTrip c (encSlash c (lockPrefix l ++ sizePrefix c w) (wBit w) w (opBv low w) n r) (mk w r) := by
  have h := roundTrip_slashB (mk := fun w r _ => mk w r) ((reads_lock l).append (reads_size w)) (field := noField) (v := ()) (Parses.ret _) locks wf
    start8 start row8 row then8 thenV
  rwa [List.append_nil] at h

end

/-! ### The arithmetic-logic rows (31_opcode_maps.md R233, R246) -/

theorem three_bits (n : BitVec 3) : n = 0 ∨ n = 1 ∨ n = 2 ∨ n = 3 ∨ n = 4 ∨ n = 5 ∨ n = 6 ∨ n = 7 := by
  revert n
  decide

/-- The opcodes of an arithmetic-logic row. -/
theorem isPrimaryOpcode_alu (n : BitVec 3) : isPrimaryOpcode (n.setWidth 8 <<< 3) = true ∧ isPrimaryOpcode (n.setWidth 8 <<< 3 ||| 1) = true ∧
    isPrimaryOpcode (n.setWidth 8 <<< 3 ||| 2) = true ∧ isPrimaryOpcode (n.setWidth 8 <<< 3 ||| 2 ||| 1) = true := by
  revert n
  decide

theorem decodePrimary_alu (e : Env) (n : BitVec 3) :
    (decodePrimary e (n.setWidth 8 <<< 3) = e.gE .w8 fun g r => aluInstr n.toNat .w8 (.rmReg r g) e.lock) ∧
    (decodePrimary e (n.setWidth 8 <<< 3 ||| 1) = e.gE (e.opsize false) fun g r => aluInstr n.toNat (e.opsize false) (.rmReg r g) e.lock) ∧
    (decodePrimary e (n.setWidth 8 <<< 3 ||| 2) = e.gE .w8 fun g r => aluInstr n.toNat .w8 (.regRm g r) e.lock) ∧
    (decodePrimary e (n.setWidth 8 <<< 3 ||| 2 ||| 1) =
      e.gE (e.opsize false) fun g r => aluInstr n.toNat (e.opsize false) (.regRm g r) e.lock) := by
  rcases three_bits n with rfl | rfl | rfl | rfl | rfl | rfl | rfl | rfl <;> exact ⟨rfl, rfl, rfl, rfl⟩

theorem startsOpcode_primary {op : Byte} (h : isPrimaryOpcode op = true) : startsOpcode [op] = true :=
  Option.isNone_iff_eq_none.mpr (isPrimaryOpcode_iff.mp h).1

theorem roundTrip_alu {c : Ctx} {w : Width} {f : AluForm} {l : Bool} (n : BitVec 3)
    (wf : (WellFormed.wbv c w && WellFormed.alu c w f) = true) (locks : l = true → lockable (aluInstr n.toNat w f l) = true) :
    RoundTrip c (encAlu c n w f l) (aluInstr n.toNat w f l) := by
  have prefixes := (reads_lock (c := c) (o := false) (a := false) (p := .none) (s := none) l).append (reads_size w)
  obtain ⟨op8, op, op8', op'⟩ := isPrimaryOpcode_alu n
  cases f with
  | rmReg r g =>
    obtain ⟨row8, row, -, -⟩ := decodePrimary_alu (sizedEnv c l .none w g r) n
    exact roundTrip_gE (pfx := []) (mk := fun w g r => aluInstr n.toNat w (.rmReg r g) l) prefixes
      (by simpa [WellFormed.alu, Bool.and_assoc] using wf) (startsOpcode_primary op8) (startsOpcode_primary op)
      (opcode_primary op8 row8) (opcode_primary op row) locks
  | regRm g r =>
    obtain ⟨-, -, row8, row⟩ := decodePrimary_alu (sizedEnv c l .none w g r) n
    exact roundTrip_gE (pfx := []) (mk := fun w g r => aluInstr n.toNat w (.regRm g r) l) prefixes
      (by simpa [WellFormed.alu, Bool.and_assoc] using wf) (startsOpcode_primary op8') (startsOpcode_primary op')
      (opcode_primary op8' row8) (opcode_primary op' row) locks
  | rmImm r v =>
    have wf : (WellFormed.wbv c w && WellFormed.rm c w r && WellFormed.byteMix w r ⟨.rax, false⟩) = true ∧ WellFormed.imm w v = true := by
      simp only [WellFormed.alu, Bool.and_eq_true] at wf ⊢
      obtain ⟨width, ⟨rm, imm⟩, mix⟩ := wf
      exact ⟨⟨⟨width, rm⟩, mix⟩, imm⟩
    obtain ⟨operand, imm⟩ := wf
    rw [← slash_extend false n] at locks ⊢
    exact roundTrip_slashB (mk := fun w r v => aluInstr (slash (extend false n)) w (.rmImm r v) l) prefixes (parses_immz imm) locks operand
      rfl rfl (opcode_primary rfl rfl) (opcode_primary rfl rfl) rfl rfl

/-! ### Shifts and rotates (31_opcode_maps.md R245) -/

theorem roundTrip_shift {c : Ctx} {w : Width} {r : RM} {cnt : ShiftCount} (n : BitVec 3)
    (wf : (WellFormed.wbv c w && WellFormed.rm c w r && WellFormed.byteMix w r ⟨.rax, false⟩) = true) :
    RoundTrip c (encShift c n w r cnt) (shiftInstr n.toNat w r cnt) := by
  rw [← slash_extend false n]
  cases cnt with
  | imm v =>
    exact roundTrip_slashB (mk := fun w r v => shiftInstr (slash (extend false n)) w r (.imm v)) (field := fun _ => Parser.byte) (l := false)
      (reads_size w) (parses_byte v) Bool.noConfusion wf rfl rfl (opcode_primary rfl rfl) (opcode_primary rfl rfl) rfl rfl
  | one =>
    exact roundTrip_slashB_plain (l := false) (mk := fun w r => shiftInstr (slash (extend false n)) w r .one) wf rfl rfl
      (opcode_primary rfl rfl) (opcode_primary rfl rfl) rfl rfl Bool.noConfusion
  | cl =>
    exact roundTrip_slashB_plain (l := false) (mk := fun w r => shiftInstr (slash (extend false n)) w r .cl) wf rfl rfl
      (opcode_primary rfl rfl) (opcode_primary rfl rfl) rfl rfl Bool.noConfusion

/-! ### Bit tests (31_opcode_maps.md R256, R257, R263) -/

section

variable {c : Ctx} {w : Width} {r : RM} {off : BitOff} {l : Bool}

theorem bitTest_operand {op : Byte} {n : BitVec 3} {mk : Width → RM → BitOff → Instr}
    (wf : (WellFormed.wv c w && WellFormed.rmLow c w r && WellFormed.bitOff c off) = true)
    (reg : ∀ d, decodeSecondary (sizedEnv c l .none w (plain d) r) op = (sizedEnv c l .none w (plain d) r).rE
      ((sizedEnv c l .none w (plain d) r).opsize false) fun g r => mk ((sizedEnv c l .none w (plain d) r).opsize false) r (.reg g))
    (imm : ∀ e : Env, e.lock = l → ∃ k, decodeSecondary e 0xBA = e.modrm.andThen k ∧ ∀ r, k (extend false n, r) = Parser.byte.map fun v =>
      mk (e.opsize false) (e.rm (e.opsize false) r) (.imm v))
    (locks : l = true → lockable (mk w r off) = true) : RoundTrip c (encBit c op n w r off l) (mk w r off) := by
  have prefixes := (reads_lock (c := c) (o := false) (a := false) (p := .none) (s := none) l).append (reads_size w)
  simp only [Bool.and_eq_true] at wf
  obtain ⟨⟨width, rm⟩, offset⟩ := wf
  cases off with
  | reg d =>
    have operands : (WellFormed.wv c w && WellFormed.regRm c w d r) = true := by
      rw [WellFormed.regRm, width, rm, show WellFormed.gpr c d = true from offset]
      rfl
    exact roundTrip_rE (mk := fun w g r => mk w r (.reg g)) operands prefixes rfl (opcode_secondary (reg d)) locks
  | imm v =>
    obtain ⟨k, row, rowN⟩ := imm (sizedSlashEnv c l w r) rfl
    exact roundTrip_slashV (mk := fun w r v => mk w r (.imm v)) (field := fun _ => Parser.byte) prefixes (parses_byte v) locks
      (Bool.and_eq_true_iff.mpr ⟨width, rm⟩) rfl (opcode_secondary row) (rowN _)

theorem roundTrip_bt (wf : wellFormed c (.bt w r off) = true) : RoundTrip c (encode c (.bt w r off)) (.bt w r off) :=
  bitTest_operand (l := false) (mk := .bt) wf (fun _ => rfl) (fun _ _ => ⟨_, rfl, fun _ => rfl⟩) Bool.noConfusion

theorem roundTrip_btc (wf : wellFormed c (.btc w r off l) = true) : RoundTrip c (encode c (.btc w r off l)) (.btc w r off l) :=
  bitTest_operand (mk := fun w r off => .btc w r off l) wf (fun _ => rfl) (fun _ same => ⟨_, rfl, fun _ => by rw [← same]; rfl⟩) fun _ => rfl

theorem roundTrip_btr (wf : wellFormed c (.btr w r off l) = true) : RoundTrip c (encode c (.btr w r off l)) (.btr w r off l) :=
  bitTest_operand (mk := fun w r off => .btr w r off l) wf (fun _ => rfl) (fun _ same => ⟨_, rfl, fun _ => by rw [← same]; rfl⟩) fun _ => rfl

theorem roundTrip_bts (wf : wellFormed c (.bts w r off l) = true) : RoundTrip c (encode c (.bts w r off l)) (.bts w r off l) :=
  bitTest_operand (mk := fun w r off => .bts w r off l) wf (fun _ => rfl) (fun _ same => ⟨_, rfl, fun _ => by rw [← same]; rfl⟩) fun _ => rfl

end

section

variable {c : Ctx} {l : Bool} {w : Width} {d : Gpr} {g : GReg} {r : RM} {m : Mem} {v : BitVec 64}

theorem roundTrip_test_imm (wf : wellFormed c (.test w r (.imm v)) = true) : RoundTrip c (encode c (.test w r (.imm v))) (.test w r (.imm v)) := by
  have wf : (WellFormed.wbv c w && WellFormed.rm c w r && (WellFormed.imm w v && WellFormed.byteMix w r ⟨.rax, false⟩)) = true := wf
  rw [Bool.and_comm (WellFormed.imm w v), ← Bool.and_assoc] at wf
  obtain ⟨operand, imm⟩ := Bool.and_eq_true_iff.mp wf
  exact roundTrip_slashB (mk := fun w r v => .test w r (.imm v)) (pre := lockPrefix false ++ sizePrefix c w) (reads_size w)
    (parses_immz imm) Bool.noConfusion operand rfl rfl (opcode_primary rfl rfl) (opcode_primary rfl rfl) rfl rfl

theorem roundTrip_test_reg (wf : wellFormed c (.test w r (.reg g)) = true) :
    RoundTrip c (encode c (.test w r (.reg g))) (.test w r (.reg g)) := by
  have wf : (WellFormed.wbv c w && WellFormed.rm c w r && (WellFormed.greg c w g && WellFormed.byteMix w r g)) = true := wf
  rw [← Bool.and_assoc] at wf
  exact roundTrip_gE (mk := fun w g r => .test w r (.reg g)) (pfx := []) (reads_size w) wf rfl rfl (opcode_primary rfl rfl)
    (opcode_primary rfl rfl) Bool.noConfusion

theorem roundTrip_xchg (wf : wellFormed c (.xchg w r g l) = true) : RoundTrip c (encode c (.xchg w r g l)) (.xchg w r g l) :=
  roundTrip_gE (mk := fun w g r => .xchg w r g l) (pfx := []) ((reads_lock l).append (reads_size w)) wf rfl rfl (opcode_primary rfl rfl)
    (opcode_primary rfl rfl) fun _ => rfl

theorem roundTrip_xadd (wf : wellFormed c (.xadd w r g l) = true) : RoundTrip c (encode c (.xadd w r g l)) (.xadd w r g l) :=
  roundTrip_gE (mk := fun w g r => .xadd w r g l) (pfx := [0x0F]) ((reads_lock l).append (reads_size w)) wf rfl rfl (opcode_secondary rfl)
    (opcode_secondary rfl) fun _ => rfl

theorem roundTrip_cmpxchg (wf : wellFormed c (.cmpxchg w r g l) = true) : RoundTrip c (encode c (.cmpxchg w r g l)) (.cmpxchg w r g l) :=
  roundTrip_gE (mk := fun w g r => .cmpxchg w r g l) (pfx := [0x0F]) ((reads_lock l).append (reads_size w)) wf rfl rfl (opcode_secondary rfl)
    (opcode_secondary rfl) fun _ => rfl

end

end Sys2Proof
end

