-- ==== Sys2Proof/Proofs/GroupRows.lean ====
section
/-! PROOFS. The round trips of the other rows with an opcode extension /n: those that default to 64 bits, the groups of the secondary
map, and the forms of MOV (31_opcode_maps.md R240, R249, R260 to R266, R270). -/

namespace Sys2Proof

section

variable {c : Ctx} {pre op tail : List Byte} {l o wide : Bool} {p : Rep} {w : Width} {d : Gpr} {g : GReg} {r : RM} {m : Mem} {i : Instr}
  {n : BitVec 3} {k : BitVec 4 × RawRM → Parser Instr}

/-! ### The shapes -/

/-- The first byte of an operand, looked at before it is read. -/
theorem parses_peek {f : Byte → Parser Instr} (operands : ∀ b, Parses (f b) (encRm n r ++ tail) i) :
    Parses (Parser.peek.andThen f) (encRm n r ++ tail) i := by
  have some : ∃ b bs, encRm n r = b :: bs := by
    cases r with
    | reg g => exact ⟨_, _, rfl⟩
    | mem m =>
      obtain ⟨b, bs, bytes, -⟩ := encMem_modField n m
      exact ⟨b, bs, bytes⟩
  obtain ⟨b, bs, bytes⟩ := some
  intro rest
  have h := operands b rest
  rw [bytes] at h ⊢
  exact h

/-- The width of the operand in `encSlash` counts for a byte register only. -/
theorem encSlash_w32 (byte : w ≠ .w8) : encSlash c pre wide .w32 op n r = encSlash c pre wide w op n r := by
  rw [encSlash_eq, encSlash_eq]
  cases r with
  | mem m => rfl
  | reg g => rw [rmForce, rmForce, WellFormed.needsRexByte, WellFormed.needsRexByte, beq_eq_false_iff_ne.mpr byte]; rfl

/-- A memory operand with an opcode extension. -/
theorem roundTrip_mem (legacy : Reads { c } pre (.legacy c l p o false none)) (mem : WellFormed.mem c m = true)
    (long : wide = true → c.mode64 = true) (start : startsOpcode op = true)
    (opcode : Opcode (slashEnv c l p o wide .w32 (.mem m)) op ((slashEnv c l p o wide .w32 (.mem m)).modrm.andThen k))
    (row : k (extend false n, .mem m) = Parser.ret i) (locks : l = true → lockable i = true) :
    RoundTrip c (encSlash c pre wide .w32 op n (.mem m)) i :=
  roundTrip_slash legacy (w := .w32) mem long start opcode (parses_slash (w := .w32) mem (row ▸ Parses.ret i)) locks

theorem roundTrip_encMem0 (legacy : Reads { c } pre (.legacy c false p o false none)) (mem : WellFormed.mem c m = true)
    (start : startsOpcode op = true)
    (opcode : Opcode (slashEnv c false p o false .w32 (.mem m)) op ((slashEnv c false p o false .w32 (.mem m)).modrm.andThen k))
    (row : k (extend false n, .mem m) = Parser.ret i) : RoundTrip c (encMem0 c pre op n m) i :=
  roundTrip_mem legacy mem Bool.noConfusion start opcode row Bool.noConfusion

/-- The same in a group that looks at the ModRM byte first. -/
theorem roundTrip_encMem0_peek {k : Byte → BitVec 4 × RawRM → Parser Instr} (legacy : Reads { c } pre (.legacy c false p o false none))
    (mem : WellFormed.mem c m = true) (start : startsOpcode op = true)
    (opcode : Opcode (slashEnv c false p o false .w32 (.mem m)) op
      (Parser.peek.andThen fun b => (slashEnv c false p o false .w32 (.mem m)).modrm.andThen (k b)))
    (row : ∀ b, k b (extend false n, .mem m) = Parser.ret i) : RoundTrip c (encMem0 c pre op n m) i :=
  roundTrip_slash legacy (w := .w32) mem Bool.noConfusion start opcode
    (parses_peek fun b => parses_slash (w := .w32) mem (row b ▸ Parses.ret i)) Bool.noConfusion

/-- A register with an opcode extension, of the operand size `y`. -/
theorem roundTrip_encReg0 {mk : Width → Gpr → Instr} (legacy : Reads { c } pre (.legacy c false p o false none))
    (wf : (WellFormed.wy c w && WellFormed.gpr c d) = true) (start : startsOpcode op = true)
    (opcode : Opcode (slashEnv c false p o (wBit w) .w32 (.reg (plain d))) op
      ((slashEnv c false p o (wBit w) .w32 (.reg (plain d))).modrm.andThen k))
    (row : k (extend false n, .reg d.num) = Parser.ret (mk (slashEnv c false p o (wBit w) .w32 (.reg (plain d))).ysize (.ofNum d.num))) :
    RoundTrip c (encReg0 c pre w op n d) (mk w d) := by
  obtain ⟨width, reg⟩ := Bool.and_eq_true_iff.mp wf
  have long : wBit w = true → c.mode64 = true := by cases w <;> simp_all [WellFormed.wy, wBit]
  have reg := greg_plain_of_ne (w := .w32) Width.noConfusion reg
  rw [ysize_wide width rfl rfl, ofNum_num] at row
  exact roundTrip_slash legacy (w := .w32) (r := .reg (plain d)) reg long start opcode
    (parses_slash (w := .w32) (r := .reg (plain d)) reg (show Parses (k (_, .reg d.num)) _ _ from row ▸ Parses.ret _)) Bool.noConfusion

theorem roundTrip_encReg0_peek {k : Byte → BitVec 4 × RawRM → Parser Instr} {mk : Width → Gpr → Instr}
    (legacy : Reads { c } pre (.legacy c false p o false none))
    (wf : (WellFormed.wy c w && WellFormed.gpr c d) = true) (start : startsOpcode op = true)
    (opcode : Opcode (slashEnv c false p o (wBit w) .w32 (.reg (plain d))) op
      (Parser.peek.andThen fun b => (slashEnv c false p o (wBit w) .w32 (.reg (plain d))).modrm.andThen (k b)))
    (row : ∀ b, k b (extend false n, .reg d.num) =
      Parser.ret (mk (slashEnv c false p o (wBit w) .w32 (.reg (plain d))).ysize (.ofNum d.num))) :
    RoundTrip c (encReg0 c pre w op n d) (mk w d) := by
  obtain ⟨width, reg⟩ := Bool.and_eq_true_iff.mp wf
  have long : wBit w = true → c.mode64 = true := by cases w <;> simp_all [WellFormed.wy, wBit]
  have reg := greg_plain_of_ne (w := .w32) Width.noConfusion reg
  rw [ysize_wide width rfl rfl, ofNum_num] at row
  exact roundTrip_slash legacy (w := .w32) (r := .reg (plain d)) reg long start opcode
    (parses_peek fun b => parses_slash (w := .w32) (r := .reg (plain d)) reg
      (show Parses (k b (_, .reg d.num)) _ _ from row b ▸ Parses.ret _)) Bool.noConfusion

/-- A register with an opcode extension, of the operand size. -/
theorem roundTrip_encReg0_sized {mk : Width → Gpr → Instr} (wf : (WellFormed.wv c w && WellFormed.gpr c d) = true)
    (start : startsOpcode op = true)
    (opcode : Opcode (slashEnv c false .none (sized c w) (wBit w) .w32 (.reg (plain d))) op
      ((slashEnv c false .none (sized c w) (wBit w) .w32 (.reg (plain d))).modrm.andThen k))
    (row : k (extend false n, .reg d.num) =
      Parser.ret (mk ((slashEnv c false .none (sized c w) (wBit w) .w32 (.reg (plain d))).opsize false) (.ofNum d.num))) :
    RoundTrip c (encReg0 c (sizePrefix c w) w op n d) (mk w d) := by
  obtain ⟨width, reg⟩ := Bool.and_eq_true_iff.mp wf
  have reg := greg_plain_of_ne (w := .w32) Width.noConfusion reg
  rw [opsize_sized width rfl rfl rfl, ofNum_num] at row
  exact roundTrip_slash (reads_size w) (w := .w32) (r := .reg (plain d)) reg (wide_mode64 width) start opcode
    (parses_slash (w := .w32) (r := .reg (plain d)) reg (show Parses (k (_, .reg d.num)) _ _ from row ▸ Parses.ret _)) Bool.noConfusion

theorem wd64_ne_w8 (width : WellFormed.wd64 c w = true) : w ≠ .w8 := by
  rintro rfl
  cases mode : c.mode64 <;> simp [WellFormed.wd64, mode] at width

/-- A form /n that defaults to 64 bits (31_opcode_maps.md R270). -/
theorem roundTrip_slash64 {mk : Width → RM → Instr} (wf : (WellFormed.wd64 c w && WellFormed.rmLow c w r) = true)
    (start : startsOpcode op = true)
    (opcode : Opcode (slashEnv c false .none (sized c w) false .w32 r) op ((slashEnv c false .none (sized c w) false .w32 r).modrm.andThen k))
    (row : k (extend false n, rawRm r) = Parser.ret (mk ((slashEnv c false .none (sized c w) false .w32 r).opsize true)
      ((slashEnv c false .none (sized c w) false .w32 r).rm ((slashEnv c false .none (sized c w) false .w32 r).opsize true) (rawRm r)))) :
    RoundTrip c (encSlash c (sizePrefix c w) false .w32 op n r) (mk w r) := by
  obtain ⟨width, rm⟩ := Bool.and_eq_true_iff.mp wf
  rw [opsize_sized64 width rfl rfl rfl, rm_rawRm_low (wd64_ne_w8 width) rm] at row
  exact roundTrip_slash (reads_size w) (rm_w32_of_rmLow rm) Bool.noConfusion start opcode
    (parses_slash (rm_w32_of_rmLow rm) (row ▸ Parses.ret _)) Bool.noConfusion

/-- A form /n of a word operand. -/
theorem roundTrip_slash16 {mk : RM → Instr} {q : Parser Instr} (wf : WellFormed.rmLow c .w16 r = true) (start : startsOpcode op = true)
    (opcode : Opcode (slashEnv c false .none false false .w32 r) op q)
    (operands : Parses q (encRm n r ++ []) (mk ((slashEnv c false .none false false .w32 r).rm .w16 (rawRm r)))) :
    RoundTrip c (encSlash c [] false .w32 op n r) (mk r) := by
  rw [rm_rawRm_low Width.noConfusion wf] at operands
  exact roundTrip_slash (.nil _) (rm_w32_of_rmLow wf) Bool.noConfusion start opcode operands Bool.noConfusion

end

section

variable {c : Ctx} {l : Bool} {w : Width} {d : Gpr} {g : GReg} {r : RM} {m : Mem} {v : BitVec 64}

theorem roundTrip_lmsw (wf : wellFormed c (.lmsw r) = true) : RoundTrip c (encode c (.lmsw r)) (.lmsw r) := by
  refine roundTrip_slash16 (mk := .lmsw) wf rfl (opcode_secondary rfl) (parses_peek fun b => parses_slash (rm_w32_of_rmLow wf) ?_)
  cases r <;> exact Parses.ret _

/-! ### Operands of the operand size as registers, words as memory -/

section

variable {op : List Byte} {n : BitVec 3} {mk : Width → RM → Instr}

theorem roundTrip_store_reg {q : Parser Instr} (width : WellFormed.wv c w = true) (rm : WellFormed.rmLow c w r = true)
    (start : startsOpcode op = true) (opcode : Opcode (sizedSlashEnv c false w r) op q)
    (operands : Parses q (encRm n r ++ []) (mk ((sizedSlashEnv c false w r).opsize false)
      ((sizedSlashEnv c false w r).rm ((sizedSlashEnv c false w r).opsize false) (rawRm r)))) :
    RoundTrip c (encSlash c (sizePrefix c w) (wBit w) .w32 op n r) (mk w r) := by
  rw [opsize_sized width rfl rfl rfl, rm_rawRm_low (wv_ne_w8 width) rm] at operands
  rw [encSlash_w32 (wv_ne_w8 width)]
  exact roundTrip_slash (reads_size w) (rm_of_rmLow rm) (wide_mode64 width) start opcode operands Bool.noConfusion

end

theorem roundTrip_sldt (wf : wellFormed c (.sldt w r) = true) : RoundTrip c (encode c (.sldt w r)) (.sldt w r) := by
  obtain ⟨width, rm⟩ := Bool.and_eq_true_iff.mp wf
  cases r with
  | reg g =>
    exact roundTrip_store_reg (mk := .sldt) width rm rfl (opcode_secondary rfl) (parses_slash (rm_of_rmLow rm) (Parses.ret _))
  | mem m =>
    cases eq_of_beq width
    exact roundTrip_mem (.nil _) rm Bool.noConfusion rfl (opcode_secondary rfl) rfl Bool.noConfusion

theorem roundTrip_str (wf : wellFormed c (.str w r) = true) : RoundTrip c (encode c (.str w r)) (.str w r) := by
  obtain ⟨width, rm⟩ := Bool.and_eq_true_iff.mp wf
  cases r with
  | reg g =>
    exact roundTrip_store_reg (mk := .str) width rm rfl (opcode_secondary rfl) (parses_slash (rm_of_rmLow rm) (Parses.ret _))
  | mem m =>
    cases eq_of_beq width
    exact roundTrip_mem (.nil _) rm Bool.noConfusion rfl (opcode_secondary rfl) rfl Bool.noConfusion

theorem roundTrip_smsw (wf : wellFormed c (.smsw w r) = true) : RoundTrip c (encode c (.smsw w r)) (.smsw w r) := by
  obtain ⟨width, rm⟩ := Bool.and_eq_true_iff.mp wf
  cases r with
  | reg g =>
    exact roundTrip_store_reg (mk := .smsw) width rm rfl (opcode_secondary rfl)
      (parses_peek fun _ => parses_slash (rm_of_rmLow rm) (Parses.ret _))
  | mem m =>
    cases eq_of_beq width
    exact roundTrip_encMem0_peek (.nil _) rm rfl (opcode_secondary rfl) fun _ => rfl

/-! ### The forms of MOV with ModRM (43_gp_l_m.md R470) -/

theorem roundTrip_mov_fromSeg {s : SegName} (wf : wellFormed c (.mov (.fromSeg w r s)) = true) :
    RoundTrip c (encode c (.mov (.fromSeg w r s))) (.mov (.fromSeg w r s)) := by
  obtain ⟨width, rm⟩ := Bool.and_eq_true_iff.mp wf
  cases r with
  | reg g =>
    refine roundTrip_store_reg (mk := fun w r => .mov (.fromSeg w r s)) width rm rfl (opcode_primary rfl rfl)
      (parses_slash (rm_of_rmLow rm) ?_)
    cases s <;> exact Parses.ret _
  | mem m =>
    cases eq_of_beq width
    refine roundTrip_mem (.nil _) rm Bool.noConfusion rfl (opcode_primary rfl rfl) ?_ Bool.noConfusion
    cases s <;> rfl

theorem roundTrip_mov_toSeg {s : SegName} (wf : wellFormed c (.mov (.toSeg s r)) = true) :
    RoundTrip c (encode c (.mov (.toSeg s r))) (.mov (.toSeg s r)) := by
  refine roundTrip_slash16 (mk := fun r => .mov (.toSeg s r)) wf rfl (opcode_primary rfl rfl) (parses_slash (rm_w32_of_rmLow wf) ?_)
  cases s <;> exact Parses.ret _

theorem roundTrip_mov_rmReg (wf : wellFormed c (.mov (.rmReg w r g)) = true) :
    RoundTrip c (encode c (.mov (.rmReg w r g))) (.mov (.rmReg w r g)) :=
  roundTrip_gE (mk := fun w g r => .mov (.rmReg w r g)) (pfx := []) (reads_size w) wf rfl rfl (opcode_primary rfl rfl)
    (opcode_primary rfl rfl) Bool.noConfusion

theorem roundTrip_mov_regRm (wf : wellFormed c (.mov (.regRm w g r)) = true) :
    RoundTrip c (encode c (.mov (.regRm w g r))) (.mov (.regRm w g r)) := by
  have wf : (WellFormed.wbv c w && WellFormed.rm c w r && WellFormed.greg c w g && WellFormed.byteMix w r g) = true := wf
  exact roundTrip_gE (mk := fun w g r => .mov (.regRm w g r)) (pfx := []) (reads_size w) wf rfl rfl (opcode_primary rfl rfl)
    (opcode_primary rfl rfl) Bool.noConfusion

/-- MOV of an immediate behind ModRM. -/
theorem roundTrip_mov_C6 (wf : (WellFormed.wbv c w && WellFormed.rm c w r && WellFormed.byteMix w r ⟨.rax, false⟩) = true)
    (imm : WellFormed.imm w v = true) :
    RoundTrip c (encSlash c (sizePrefix c w) (wBit w) w (opBv 0xC6 w) 0 r ++ encImmz w v) (.mov (.rmImm w r v)) :=
  roundTrip_slashB (l := false) (mk := fun w r v => .mov (.rmImm w r v)) (reads_size w) (parses_immz imm) Bool.noConfusion wf rfl rfl
    (opcode_primary rfl rfl) (opcode_primary rfl rfl) rfl rfl

/-! ### SETcc and NOP -/

theorem roundTrip_setcc {op : Byte} {mk : RM → Instr} (wf : (WellFormed.rm c .w8 r && WellFormed.byteMix .w8 r ⟨.rax, false⟩) = true)
    (row : ∀ e : Env, decodeSecondary e op = e.modrm.andThen fun a => Parser.ret (mk (e.rm .w8 a.2))) :
    RoundTrip c (encSlash c [] false .w8 [0x0F, op] 0 r) (mk r) := by
  obtain ⟨rm, mix⟩ := Bool.and_eq_true_iff.mp wf
  have same : (slashEnv c false .none false false .w8 r).rm .w8 (rawRm r) = r := slash_register (o := false) rm mix
  exact roundTrip_slash (.nil _) rm Bool.noConfusion rfl (opcode_secondary (row _))
    (parses_slash rm ((Parses.ret _).eq (congrArg mk same))) Bool.noConfusion

theorem roundTrip_nop_rm (wf : wellFormed c (.nop (some r)) = true) : RoundTrip c (encode c (.nop (some r))) (.nop (some r)) := by
  have same := rm_rawRm_low (e := slashEnv c false .none false false .w32 r) (w := .w32) Width.noConfusion wf
  refine roundTrip_slash (.nil _) (rm_w32_of_rmLow wf) Bool.noConfusion rfl (opcode_secondary rfl)
    (parses_slash (rm_w32_of_rmLow wf) ?_) Bool.noConfusion
  cases r with
  | reg g => exact (Parses.ret _).eq (congrArg (fun r => Instr.nop (some r)) same)
  | mem m => exact Parses.ret _

/-! ### POP: its opcode begins an XOP prefix only before a map of 8 or above (30_encoding.md R200) -/

theorem opcode_pop {e : Env} {b : Byte} {bs : List Byte} (map : (b.setWidth 5).ule 7#5 = true) :
    decodeOpcode e (0x8F :: b :: bs) = decodePrimary e 0x8F (b :: bs) := by
  have none : isExtendedPrefix e.c 0x8F#8 b = false := by simp [isExtendedPrefix, map]
  simp [decodeOpcode, Parser.byte, Parser.andThen, none]

/-- ModRM of the form /0. -/
theorem encRm_zero_map (r : RM) : ∃ b bs, encRm 0 r = b :: bs ∧ (b.setWidth 5).ule 7#5 = true := by
  have map : ∀ (m : BitVec 2) (f : BitVec 3), ((modrmByte m 0 f).setWidth 5).ule 7#5 = true := by decide
  cases r with
  | reg g => exact ⟨_, _, rfl, map _ _⟩
  | mem m =>
    obtain ⟨seg, base, index, disp, asz⟩ := m
    cases asz with
    | a16 =>
      cases form : WellFormed.form16 base index with
      | none => exact ⟨_, _, by simp only [encRm, encMem, form]; rfl, map _ _⟩
      | some f => exact ⟨_, _, by simp only [encRm, encMem, form]; rfl, map _ _⟩
    | a32 => cases base <;> exact ⟨_, _, rfl, map _ _⟩
    | a64 => cases base <;> exact ⟨_, _, rfl, map _ _⟩

theorem roundTrip_pop_rm (wf : wellFormed c (.pop w (.rm r)) = true) : RoundTrip c (encode c (.pop w (.rm r))) (.pop w (.rm r)) := by
  obtain ⟨width, rm⟩ := Bool.and_eq_true_iff.mp wf
  have rm32 := rm_w32_of_rmLow rm
  have size : (slashEnv c false .none (sized c w) false .w32 r).opsize true = w := opsize_sized64 width rfl rfl rfl
  have same : (slashEnv c false .none (sized c w) false .w32 r).rm w (rawRm r) = r := rm_rawRm_low (wd64_ne_w8 width) rm
  have operands : Parses (decodePrimary (slashEnv c false .none (sized c w) false .w32 r) 0x8F) (encRm 0 r ++ []) (.pop w (.rm r)) := by
    refine parses_slash rm32 ((Parses.ret _).eq ?_)
    show Instr.pop (Env.opsize _ true) (.rm (Env.rm _ (Env.opsize _ true) (rawRm r))) = _
    rw [size, same]
  show RoundTrip c (encSlash c (sizePrefix c w) false .w32 [0x8F] 0 r) _
  rw [encSlash_eq]
  refine roundTrip_of_parses (reads_operand (reads_size w) rm32 (slash_modes rm32 Bool.noConfusion)) (prefixInstr_none_of_long64 c rfl)
    (fun rest => ?_) Bool.noConfusion
  obtain ⟨b, bs, bytes, map⟩ := encRm_zero_map r
  have read := operands rest
  rw [List.append_nil, bytes] at read
  rw [bytes]
  exact (opcode_pop map).trans read

end

end Sys2Proof
end

