-- ==== Sys2Proof/Proofs/ImplicitRows.lean ====
section
/-! PROOFS. The round trips of the instructions without ModRM: bare opcodes with their fields, the string instructions and the implicit
addresses (31_opcode_maps.md R234 to R244, R261). -/

namespace Sys2Proof

/-- What the decoder knows before the opcode of an instruction without ModRM. -/
def plainEnv (c : Ctx) (p : Rep) (o a : Bool) (s : Option SegName) (w : Bool) : Env :=
  (Env.legacy c false p o a s).withRex w false false false false

section

variable {c : Ctx} {pre op bs : List Byte} {p : Rep} {w : Width} {q : Parser Instr} {i : Instr} {a : ASize} {s : SegName}

/-! ### Bare opcodes -/

/-- An opcode with its fields and no prefix. -/
theorem roundTrip_bare (start : startsOpcode op = true) (opcode : Opcode { c } op q) (fields : Parses q bs i) : RoundTrip c (op ++ bs) i :=
  roundTrip_opcode (.nil _) start opcode fields Bool.noConfusion

/-- An opcode behind F3. -/
theorem roundTrip_F3 (start : startsOpcode op = true) (opcode : Opcode (.legacy c false .repe false false none) op (Parser.ret i)) :
    RoundTrip c (0xF3 :: op) i := by
  have h := roundTrip_opcode (bs := []) (reads_repe (c := c)) start opcode (Parses.ret i) Bool.noConfusion
  rwa [List.append_nil] at h

/-- An opcode with its fields behind prefixes. -/
theorem roundTrip_append {e : Env} (prefixes : Reads { c } pre e) (start : startsOpcode op = true) (opcode : Opcode e op q)
    (fields : Parses q bs i) (locks : e.lock = true → lockable i = true) : RoundTrip c (pre ++ op ++ bs) i := by
  rw [List.append_assoc]
  exact roundTrip_opcode prefixes start opcode fields locks

/-- An opcode alone behind prefixes. -/
theorem roundTrip_append_ret {e : Env} (prefixes : Reads { c } pre e) (start : startsOpcode op = true) (opcode : Opcode e op q)
    (value : q = Parser.ret i) (locks : e.lock = true → lockable i = true) : RoundTrip c (pre ++ op) i := by
  have h := roundTrip_append prefixes start opcode (value ▸ Parses.ret i) locks
  rwa [List.append_nil] at h

/-! ### Opcodes by the operand size -/

section

variable {α : Type} {field : Width → Parser α} {v : α} {mk : Width → α → Instr} {mk0 : Width → Instr}

theorem roundTrip_opsize (width : WellFormed.wv c w = true) (start : startsOpcode op = true)
    (opcode : Opcode (.legacy c false .none (sized c w) false none) op
      (Parser.ret (mk0 ((Env.legacy c false .none (sized c w) false none).opsize false)))) (narrow : w ≠ .w64) :
    RoundTrip c (sizePrefix c w ++ op) (mk0 w) := by
  have wide : (Env.legacy c false .none (sized c w) false none).w = wBit w := (beq_eq_false_iff_ne.mpr narrow).symm
  rw [opsize_sized width rfl rfl wide] at opcode
  exact roundTrip_append_ret (reads_size w) start opcode rfl Bool.noConfusion

/-- A quadword opcode behind REX.W. -/
theorem roundTrip_rexW (long : c.mode64 = true) (start : startsOpcode op = true)
    (opcode : Opcode (plainEnv c .none false false none true) op (Parser.ret (mk0 ((plainEnv c .none false false none true).opsize false)))) :
    RoundTrip c (0x48 :: op) (mk0 .w64) := by
  rw [opsize_sized (w := .w64) long rfl rfl rfl] at opcode
  exact roundTrip_append_ret (pre := [0x48]) (reads_rex (w := true) (r := false) (x := false) (b := false) (force := false) (.inl long)) start
    opcode rfl Bool.noConfusion

/-- An opcode that defaults to 64 bits, with its field (31_opcode_maps.md R270). -/
theorem roundTrip_encD64 (width : WellFormed.wd64 c w = true) (value : Parses (field w) bs v) (start : startsOpcode op = true)
    (opcode : Opcode (.legacy c false .none (sized c w) false none) op
      ((field ((Env.legacy c false .none (sized c w) false none).opsize true)).map
        (mk ((Env.legacy c false .none (sized c w) false none).opsize true)))) : RoundTrip c (encD64 c w op ++ bs) (mk w v) := by
  rw [opsize_sized64 width rfl rfl rfl] at opcode
  exact roundTrip_append (reads_size w) start opcode value.map Bool.noConfusion

theorem roundTrip_encD64_ret (width : WellFormed.wd64 c w = true) (start : startsOpcode op = true)
    (opcode : Opcode (.legacy c false .none (sized c w) false none) op
      (Parser.ret (mk0 ((Env.legacy c false .none (sized c w) false none).opsize true)))) : RoundTrip c (encD64 c w op) (mk0 w) := by
  rw [opsize_sized64 width rfl rfl rfl] at opcode
  exact roundTrip_append_ret (reads_size w) start opcode rfl Bool.noConfusion

end

/-- A displacement of a near transfer (30_encoding.md R190). -/
theorem imm_of_rel {d : BitVec 64} (width : WellFormed.wd64 c w = true) (rel : WellFormed.rel w c d = true) : WellFormed.imm w d = true := by
  cases w with
  | w8 => exact absurd rfl (wd64_ne_w8 width)
  | w16 => exact rel
  | w32 => cases mode : c.mode64 <;> simpa [WellFormed.rel, WellFormed.imm, mode] using rel
  | w64 => cases mode : c.mode64 <;> simpa [WellFormed.rel, WellFormed.imm, mode] using rel

theorem roundTrip_encJcc {n : Byte} {d : BitVec 64} {mk : Width → BitVec 64 → Instr}
    (wf : (WellFormed.wd64 c w && WellFormed.rel w c d) = true)
    (row : ∀ e : Env, decodeSecondary e (0x80 ||| n) = (immz (e.opsize true)).map fun d => mk (e.opsize true) d) :
    RoundTrip c (encJcc c n w d) (mk w d) := by
  obtain ⟨width, rel⟩ := Bool.and_eq_true_iff.mp wf
  exact roundTrip_encD64 (field := immz) width (parses_immz (imm_of_rel width rel)) rfl (opcode_secondary (row _))

/-! ### String instructions and implicit addresses -/

theorem str_default (wf : WellFormed.asize c a = true) : WellFormed.str c .ds a = true := by
  simp [WellFormed.str, WellFormed.seg, wf]

theorem reads_address (wf : WellFormed.str c s a = true) {o : Bool} :
    Reads (.legacy c false p o false none) (addrPrefix c a ++ segPrefix s .ds) (.legacy c false p o (addressed c a) (overrides s .ds)) :=
  (reads_addr a).append (reads_seg (Bool.and_eq_true_iff.mp wf).2)

section

variable {mk : SegName → ASize → Rep → Instr} {mkW : Width → SegName → ASize → Rep → Instr} {rep : Rep} {b : Byte}

/-- What the decoder knows before the opcode of a string instruction. -/
def stringEnv (c : Ctx) (p : Rep) (w : Width) (a : ASize) (s : SegName) : Env :=
  plainEnv c p (sized c w) (addressed c a) (overrides s .ds) (wBit w)

theorem reads_string (wf : WellFormed.str c s a = true) (long : wBit w = true → c.mode64 = true) :
    Reads { c } (repPrefix rep ++ sizePrefix c w ++ addrPrefix c a ++ segPrefix s .ds ++ rexByte (wBit w) false false false false)
      (stringEnv c rep w a s) := by
  have h := (((reads_rep (c := c) (l := false) (o := false) (a := false) (s := none) rep).append (reads_size w)).append (reads_address wf)).append
    (reads_rex (w := wBit w) (r := false) (x := false) (b := false) (force := false) (by
      cases wide : wBit w with
      | false => exact .inr rfl
      | true => exact .inl (long wide)))
  rwa [← List.append_assoc (repPrefix rep ++ sizePrefix c w)] at h

theorem stringEnv_asize (wf : WellFormed.str c s a = true) : (stringEnv c rep w a s).asize = a :=
  asize_addressed (Bool.and_eq_true_iff.mp wf).1 rfl rfl

theorem stringEnv_seg : (stringEnv c rep w a s).segOr .ds = s := segOr_overrides rfl

/-- A string instruction of bytes. -/
theorem roundTrip_encStr_byte (wf : WellFormed.str c s a = true) (opcode : isPrimaryOpcode b = true)
    (row : decodePrimary (stringEnv c rep .w8 a s) b = Parser.ret (mk ((stringEnv c rep .w8 a s).segOr .ds) (stringEnv c rep .w8 a s).asize
      (stringEnv c rep .w8 a s).rep)) : RoundTrip c (encStr c .w8 s a rep b) (mk s a rep) := by
  rw [stringEnv_asize wf, stringEnv_seg] at row
  exact roundTrip_append_ret (reads_string wf Bool.noConfusion) (startsOpcode_primary opcode) (opcode_primary opcode row) rfl Bool.noConfusion

/-- A string instruction of the operand size. -/
theorem roundTrip_encStr (wf : (WellFormed.wv c w && WellFormed.str c s a) = true) (opcode : isPrimaryOpcode b = true)
    (row : decodePrimary (stringEnv c rep w a s) b = Parser.ret (mkW ((stringEnv c rep w a s).opsize false) ((stringEnv c rep w a s).segOr .ds)
      (stringEnv c rep w a s).asize (stringEnv c rep w a s).rep)) : RoundTrip c (encStr c w s a rep b) (mkW w s a rep) := by
  obtain ⟨width, address⟩ := Bool.and_eq_true_iff.mp wf
  rw [stringEnv_asize address, stringEnv_seg, opsize_sized width rfl rfl rfl] at row
  exact roundTrip_append_ret (reads_string address (wide_mode64 width)) (startsOpcode_primary opcode) (opcode_primary opcode row) rfl Bool.noConfusion

end

/-- A string instruction of the operand size without a source. -/
theorem roundTrip_encStr_es {mk : Width → ASize → Rep → Instr} {rep : Rep} {b : Byte}
    (wf : (WellFormed.wv c w && WellFormed.asize c a) = true) (opcode : isPrimaryOpcode b = true)
    (row : decodePrimary (stringEnv c rep w a .ds) b = Parser.ret (mk ((stringEnv c rep w a .ds).opsize false) (stringEnv c rep w a .ds).asize
      (stringEnv c rep w a .ds).rep)) : RoundTrip c (encStr c w .ds a rep b) (mk w a rep) := by
  obtain ⟨width, size⟩ := Bool.and_eq_true_iff.mp wf
  exact roundTrip_encStr (mkW := fun w _ a rep => mk w a rep) (Bool.and_eq_true_iff.mpr ⟨width, str_default size⟩) opcode row

/-! ### Branches on the counter -/

theorem roundTrip_counter {b : Byte} {d : BitVec 64} {mk : Width → ASize → BitVec 64 → Instr}
    (wf : (WellFormed.wd64 c w && WellFormed.asize c a && d == (d.setWidth 8).signExtend 64) = true) (opcode : isPrimaryOpcode b = true)
    (row : ∀ e : Env, decodePrimary e b = disp8.map (mk (e.opsize true) e.asize)) :
    RoundTrip c (sizePrefix c w ++ addrPrefix c a ++ [b, d.setWidth 8]) (mk w a d) := by
  simp only [Bool.and_eq_true, beq_iff_eq] at wf
  obtain ⟨⟨width, size⟩, short⟩ := wf
  have row := row (.legacy c false .none (sized c w) (addressed c a) none)
  rw [opsize_sized64 width rfl rfl rfl, asize_addressed size rfl rfl] at row
  exact roundTrip_opcode ((reads_size w).append (reads_addr a)) (startsOpcode_primary opcode) (opcode_primary opcode row)
    (parses_disp8 short).map Bool.noConfusion

/-! ### Far pointers (31_opcode_maps.md R284) -/

/-- The offset of a far pointer in the instruction. -/
def farOffset (w : Width) : Parser (BitVec 32) := if w = .w16 then Parser.word.map (·.setWidth 32) else Parser.dword

theorem parses_farOffset {off : BitVec 32} (short : w = .w16 → off.ule 0xFFFF = true) :
    Parses (farOffset w) (if w = .w16 then bytes16 (off.setWidth 16) else bytes32 off) off := by
  rw [farOffset]
  split
  next word =>
    refine (parses_word (off.setWidth 16)).map.eq ?_
    have low := short word
    simp only [BitVec.ule, decide_eq_true_eq] at low
    bv_omega
  next => exact parses_dword off

theorem roundTrip_far {b : Byte} {sel : BitVec 16} {off : BitVec 32} {mk : Width → BitVec 16 → BitVec 32 → Instr}
    (wf : (WellFormed.wv c w && WellFormed.far c w (.ptr sel off)) = true) (opcode : isPrimaryOpcode b = true)
    (row : ∀ e : Env, decodePrimary e b = (farOffset (e.opsize false)).andThen fun off => Parser.word.map fun sel =>
      mk (e.opsize false) sel off) : RoundTrip c (sizePrefix c w ++ [b] ++ encFar w sel off) (mk w sel off) := by
  have wf : (WellFormed.wv c w && (!c.mode64 && w != .w64 && (w == .w32 || off.ule 0xFFFF))) = true := wf
  simp only [Bool.and_eq_true, bne_iff_ne, Bool.or_eq_true, beq_iff_eq] at wf
  obtain ⟨width, ⟨-, narrow⟩, short⟩ := wf
  have wide : (Env.legacy c false .none (sized c w) false none).w = wBit w := (beq_eq_false_iff_ne.mpr narrow).symm
  have row := row (.legacy c false .none (sized c w) false none)
  rw [opsize_sized width rfl rfl wide] at row
  refine roundTrip_append (reads_size w) (startsOpcode_primary opcode) (opcode_primary opcode row) ?_ Bool.noConfusion
  exact (parses_farOffset fun word => short.resolve_left fun h => by cases h.symm.trans word).andThen (parses_word sel).map

/-! ### Ports -/

/-- The operand size of a port: never a quadword (31_opcode_maps.md R243). -/
theorem port_size (width : (w == .w8 || w == .w16 || w == .w32) = true) (byte : w ≠ .w8) :
    (if (Env.legacy c false .none (sized c w) false none).opsize false = .w16 then Width.w16 else .w32) = w := by
  have width : WellFormed.wv c w = true ∧ w ≠ .w64 ∧ (w ≠ .w16 → w = .w32) := by cases w <;> simp_all [WellFormed.wv]
  obtain ⟨width, narrow, other⟩ := width
  have wide : (Env.legacy c false .none (sized c w) false none).w = wBit w := (beq_eq_false_iff_ne.mpr narrow).symm
  rw [opsize_sized width rfl rfl wide]
  split
  next word => exact word.symm
  next notWord => exact (other notWord).symm

theorem roundTrip_port {low : Byte} {α : Type} {field : Parser α} {v : α} {mk : Width → α → Instr}
    (width : (w == .w8 || w == .w16 || w == .w32) = true) (value : Parses field bs v)
    (opcode8 : isPrimaryOpcode low = true) (opcode : isPrimaryOpcode (low ||| 1) = true)
    (row8 : ∀ e : Env, decodePrimary e low = field.map (mk .w8))
    (row : ∀ e : Env, decodePrimary e (low ||| 1) = field.map (mk (if e.opsize false = .w16 then .w16 else .w32))) :
    RoundTrip c (sizePrefix c w ++ opBv low w ++ bs) (mk w v) := by
  by_cases byte : w = .w8
  · subst byte
    exact roundTrip_append (reads_size .w8) (startsOpcode_primary opcode8) (opcode_primary opcode8 (row8 _)) value.map Bool.noConfusion
  · have row := row (.legacy c false .none (sized c w) false none)
    rw [port_size width byte] at row
    rw [opBv, if_neg byte]
    exact roundTrip_append (reads_size w) (startsOpcode_primary opcode) (opcode_primary opcode row) value.map Bool.noConfusion

/-! ### Direct memory offsets (30_encoding.md R191) -/

/-- The bytes of a direct memory offset. -/
def offsetBytes (a : ASize) (o : BitVec 64) : List Byte :=
  match a with
  | .a16 => bytes16 (o.setWidth 16)
  | .a32 => bytes32 (o.setWidth 32)
  | .a64 => bytes64 o

theorem parses_moffs {o : BitVec 64} (short : o.toNat < 2 ^ a.bits) : Parses (moffs a) (offsetBytes a o) o := by
  cases a with
  | a16 => exact (parses_word _).map.eq (by have : o.toNat < 2 ^ 16 := short; bv_omega)
  | a32 => exact (parses_dword _).map.eq (by have : o.toNat < 2 ^ 32 := short; bv_omega)
  | a64 => exact parses_qword o

theorem roundTrip_moffs {low : Byte} {o : BitVec 64} {mk : Width → SegName → ASize → BitVec 64 → Instr}
    (wf : (WellFormed.wbv c w && WellFormed.str c s a && decide (o.toNat < 2 ^ a.bits)) = true)
    (opcode8 : isPrimaryOpcode low = true) (opcode : isPrimaryOpcode (low ||| 1) = true)
    (row8 : ∀ e : Env, decodePrimary e low = (moffs e.asize).map (mk .w8 (e.segOr .ds) e.asize))
    (row : ∀ e : Env, decodePrimary e (low ||| 1) = (moffs e.asize).map (mk (e.opsize false) (e.segOr .ds) e.asize)) :
    RoundTrip c (sizePrefix c w ++ encAddr c s a (rexByte (wBit w) false false false false ++ opBv low w) ++ offsetBytes a o) (mk w s a o) := by
  simp only [Bool.and_eq_true, decide_eq_true_eq] at wf
  obtain ⟨⟨width, address⟩, short⟩ := wf
  have prefixes (long : wBit w = true → c.mode64 = true) := reads_string (rep := .none) address long
  have bytes : sizePrefix c w ++ encAddr c s a (rexByte (wBit w) false false false false ++ opBv low w) ++ offsetBytes a o =
      repPrefix .none ++ sizePrefix c w ++ addrPrefix c a ++ segPrefix s .ds ++ rexByte (wBit w) false false false false ++ opBv low w ++
        offsetBytes a o := by
    simp [encAddr, repPrefix]
  rw [bytes]
  have row8 := row8 (stringEnv c .none w a s)
  have row := row (stringEnv c .none w a s)
  rw [stringEnv_asize address, stringEnv_seg] at row row8
  by_cases byte : w = .w8
  · subst byte
    exact roundTrip_append (prefixes Bool.noConfusion) (startsOpcode_primary opcode8) (opcode_primary opcode8 row8) (parses_moffs short).map
      Bool.noConfusion
  · have width : WellFormed.wv c w = true := by simpa [WellFormed.wbv, byte] using width
    rw [opsize_sized width rfl rfl rfl] at row
    rw [opBv, if_neg byte]
    exact roundTrip_append (prefixes (wide_mode64 width)) (startsOpcode_primary opcode) (opcode_primary opcode row) (parses_moffs short).map
      Bool.noConfusion

/-! ### Registers in the opcode byte (30_encoding.md R177) -/

section

variable {d : Gpr} {l : Bool} {n : BitVec 4}

theorem gpr_long (wf : WellFormed.gpr c d = true) (wide : Bool) (long : wide = true → c.mode64 = true) :
    c.mode64 = true ∨ (wide || false || false || WellFormed.ext d || false) = false := by
  cases mode : c.mode64 with
  | true => exact .inl rfl
  | false =>
    have narrow : wide = false := Bool.eq_false_iff.mpr fun h => Bool.false_ne_true (mode.symm.trans (long h))
    have low : WellFormed.ext d = false := by simpa [WellFormed.gpr, mode] using wf
    exact .inr (by rw [narrow, low]; rfl)

theorem decodePrimary_B8 (e : Env) (n : BitVec 3) : isPrimaryOpcode (0xB8 ||| n.setWidth 8) = true ∧
    decodePrimary e (0xB8 ||| n.setWidth 8) =
      (immv (e.opsize false)).map fun v => .mov (.rmImm (e.opsize false) (.reg { r := .ofNum (extend e.b n) }) v) := by
  rcases three_bits n with rfl | rfl | rfl | rfl | rfl | rfl | rfl | rfl <;> exact ⟨rfl, rfl⟩

theorem decodeSecondary_C8 (e : Env) (n : BitVec 3) :
    decodeSecondary e (0xC8 ||| n.setWidth 8) = Parser.ret (.bswap (e.opsize false) (.ofNum (extend e.b n))) := by
  rcases three_bits n with rfl | rfl | rfl | rfl | rfl | rfl | rfl | rfl <;> rfl

theorem roundTrip_bswap (wf : wellFormed c (.bswap w d) = true) : RoundTrip c (encode c (.bswap w d)) (.bswap w d) := by
  obtain ⟨width, reg⟩ := Bool.and_eq_true_iff.mp wf
  have row := decodeSecondary_C8 ((Env.legacy c false .none (sized c w) false none).withRex (wBit w) false false (WellFormed.ext d) false) (low3 d)
  rw [opsize_sized width rfl rfl rfl] at row
  refine roundTrip_append_ret ((reads_size w).append (reads_rex (gpr_long reg _ (wide_mode64 width)))) rfl (opcode_secondary row) ?_
    Bool.noConfusion
  exact congrArg (fun g => Parser.ret (Instr.bswap w g)) ((congrArg Gpr.ofNum (extend_low3 d)).trans (ofNum_num d))

/-- MOV of an immediate of 64 bits. -/
theorem roundTrip_mov_B8 {v : BitVec 64} {g : GReg} (long : c.mode64 = true) (low : g.high = false) :
    RoundTrip c (rexByte true false false (WellFormed.ext g.r) false ++ [0xB8#8 ||| (low3 g.r).setWidth 8] ++ bytes64 v)
      (.mov (.rmImm .w64 (.reg g) v)) := by
  obtain ⟨opcode, row⟩ := decodePrimary_B8 ((Env.legacy c false .none false false none).withRex true false false (WellFormed.ext g.r) false)
    (low3 g.r)
  rw [opsize_sized (w := .w64) long rfl rfl rfl] at row
  refine roundTrip_append (reads_rex (gpr_long (d := g.r) (by rw [WellFormed.gpr, long]; rfl) true fun _ => long)) (startsOpcode_primary opcode)
    (opcode_primary opcode row) ((parses_qword v).map.eq ?_) Bool.noConfusion
  show Instr.mov (.rmImm .w64 (.reg { r := .ofNum (extend (WellFormed.ext g.r) (low3 g.r)) }) v) = _
  rw [extend_low3, ofNum_num, low_eq_plain low]
  rfl

theorem roundTrip_mov_rmImm {r : RM} {v : BitVec 64} (wf : wellFormed c (.mov (.rmImm w r v)) = true) :
    RoundTrip c (encode c (.mov (.rmImm w r v))) (.mov (.rmImm w r v)) := by
  have wf : (WellFormed.wbv c w && WellFormed.rm c w r && WellFormed.byteMix w r ⟨.rax, false⟩ && (WellFormed.imm w v || (w == .w64 && _))) =
    true := wf
  obtain ⟨operand, imm⟩ := Bool.and_eq_true_iff.mp wf
  by_cases quad : w = .w64
  · subst quad
    cases r with
    | reg g =>
      simp only [Bool.and_eq_true] at operand
      obtain ⟨⟨width, rm⟩, -⟩ := operand
      exact roundTrip_mov_B8 width (high_eq_false Width.noConfusion rm)
    | mem m => exact roundTrip_mov_C6 operand (by simpa using imm)
  · have imm : WellFormed.imm w v = true := by simpa [quad] using imm
    cases w with
    | w64 => exact absurd rfl quad
    | w8 => exact roundTrip_mov_C6 operand imm
    | w16 => exact roundTrip_mov_C6 operand imm
    | w32 => exact roundTrip_mov_C6 operand imm

/-! ### Control and debug registers (31_opcode_maps.md R254) -/

theorem extend_msb (n : BitVec 4) : extend n.msb (n.setWidth 3) = n := by
  revert n
  decide

theorem roundTrip_control {op : Byte} {mk : BitVec 4 → Gpr → Instr} (wf : (WellFormed.gpr c d && (c.mode64 || !n.msb)) = true)
    (row : ∀ e : Env, e.lock = l → decodeSecondary e op = Parser.byte.map fun b =>
      mk (extend e.r (regField b)) (.ofNum (extend e.b (rmField b)))) (locks : l = true → lockable (mk n d) = true) :
    RoundTrip c (lockPrefix l ++ rexByte false n.msb false (WellFormed.ext d) false ++ [0x0F, op, modrmByte 3 (n.setWidth 3) (low3 d)])
      (mk n d) := by
  obtain ⟨reg, number⟩ := Bool.and_eq_true_iff.mp wf
  have long : c.mode64 = true ∨ (false || n.msb || false || WellFormed.ext d || false) = false := by
    cases mode : c.mode64 <;> simp_all [WellFormed.gpr]
  refine roundTrip_opcode (op := [0x0F, op]) ((reads_lock l).append (reads_rex long)) rfl (opcode_secondary (row _ rfl))
    ((parses_byte _).map.eq ?_) locks
  rw [regField_modrmByte, rmField_modrmByte]
  exact congrArg₂ mk (extend_msb n) ((congrArg Gpr.ofNum (extend_low3 d)).trans (ofNum_num d))

end

/-! ### Instructions that the whole ModRM byte names (31_opcode_maps.md R261, R266) -/

theorem parses_group7 {e : Env} {reg f : BitVec 3} (form : reg.toNat ≠ 4 ∧ reg.toNat ≠ 6)
    (h : decode0F01 e (modrmByte 3#2 reg f) = some i) : Parses (decodeGroup7 e) [modrmByte 3#2 reg f] i := by
  intro rest
  have modrm : e.modrm (modrmByte 3#2 reg f :: rest) = _ := modrm_register e reg f rest
  obtain ⟨notSmsw, notLmsw⟩ := form
  simp [decodeGroup7, Parser.andThen, Parser.peek, modrm, slash_extend, h, Parser.ret]

/-- A register form of Group 7 behind prefixes, by its ModRM byte. -/
theorem roundTrip_group7 {e : Env} (prefixes : Reads { c } pre e) (free : e.lock = false) (reg f : BitVec 3)
    (form : reg.toNat ≠ 4 ∧ reg.toNat ≠ 6) (row : decode0F01 e (modrmByte 3#2 reg f) = some i) :
    RoundTrip c (pre ++ [0x0F, 0x01, modrmByte 3#2 reg f]) i :=
  roundTrip_opcode (op := [0x0F, 0x01]) prefixes rfl (opcode_secondary rfl) (parses_group7 form row)
    fun lock => absurd (free.symm.trans lock) Bool.false_ne_true

/-- The same with an address in rAX. -/
theorem roundTrip_group7_address {mk : SegName → ASize → Instr} (legacy : Reads { c } pre (.legacy c false p false false none))
    (wf : WellFormed.str c s a = true) (reg f : BitVec 3) (form : reg.toNat ≠ 4 ∧ reg.toNat ≠ 6)
    (row : decode0F01 (.legacy c false p false (addressed c a) (overrides s .ds)) (modrmByte 3#2 reg f) =
      some (mk ((Env.legacy c false p false (addressed c a) (overrides s .ds)).segOr .ds)
        (Env.legacy c false p false (addressed c a) (overrides s .ds)).asize)) :
    RoundTrip c (pre ++ encAddr c s a [0x0F, 0x01, modrmByte 3#2 reg f]) (mk s a) := by
  rw [segOr_overrides (n := s) rfl, asize_addressed (Bool.and_eq_true_iff.mp wf).1 rfl rfl] at row
  rw [encAddr, ← List.append_assoc]
  exact roundTrip_group7 (legacy.append (reads_address wf)) rfl reg f form row

/-- The same with an address size alone. -/
theorem roundTrip_group7_asize {mk : ASize → Instr} (legacy : Reads { c } pre (.legacy c false p false false none))
    (wf : WellFormed.asize c a = true) (reg f : BitVec 3) (form : reg.toNat ≠ 4 ∧ reg.toNat ≠ 6)
    (row : decode0F01 (.legacy c false p false (addressed c a) none) (modrmByte 3#2 reg f) =
      some (mk (Env.legacy c false p false (addressed c a) none).asize)) :
    RoundTrip c (pre ++ addrPrefix c a ++ [0x0F, 0x01, modrmByte 3#2 reg f]) (mk a) := by
  rw [asize_addressed wf rfl rfl] at row
  exact roundTrip_group7 (legacy.append (reads_addr a)) rfl reg f form row

/-- The fences are register forms of Group 15. -/
theorem roundTrip_fence {k : Byte → BitVec 4 × RawRM → Parser Instr} (reg : BitVec 3)
    (group : decodeGroup15 { c } = Parser.peek.andThen fun b => ({ c } : Env).modrm.andThen (k b))
    (row : ∀ b, k b (extend false reg, .reg (extend false 0)) = Parser.ret i) : RoundTrip c [0x0F, 0xAE, modrmByte 3 reg 0] i := by
  refine roundTrip_bare (op := [0x0F, 0xAE]) (q := decodeGroup15 { c }) rfl (opcode_secondary rfl) fun rest => ?_
  have modrm : ({ c } : Env).modrm (modrmByte 3 reg 0 :: rest) = _ := modrm_register { c } reg 0 rest
  rw [group]
  simp only [List.cons_append, List.nil_append, Parser.andThen, Parser.peek, modrm]
  rw [show (k _ (extend _ reg, .reg (extend _ 0))) = Parser.ret i from row _]
  rfl

end

end Sys2Proof
end

