-- ==== Sys2Proof/Proofs/VexRows.lean ====
section
/-! PROOFS. The round trips of the instructions behind a VEX or XOP prefix (30_encoding.md R200 to R205, 31_opcode_maps.md R279, R280). -/

namespace Sys2Proof

/-! ### The prefix bytes -/

/-- The byte after the prefix byte: the inverted extension bits and the map. -/
def vexByte1 (r x b : Bool) (map : BitVec 5) : Byte := (bit (!r) : BitVec 1) ++ (bit (!x) : BitVec 1) ++ (bit (!b) : BitVec 1) ++ map

/-- The byte after that: W, the inverted register, L = 0 and pp. -/
def vexByte2 (w : Bool) (v : BitVec 4) (pp : BitVec 2) : Byte := (bit w : BitVec 1) ++ v ++ (0 : BitVec 1) ++ pp

theorem vexByte1_fields (r x b : Bool) (map : BitVec 5) : (vexByte1 r x b map).getLsbD 7 = !r ∧ (vexByte1 r x b map).getLsbD 6 = !x ∧
    (vexByte1 r x b map).getLsbD 5 = !b ∧ (vexByte1 r x b map).setWidth 5 = map := by
  revert r x b map
  decide

theorem vexByte2_fields (w : Bool) (v : BitVec 4) (pp : BitVec 2) : (vexByte2 w v pp).getLsbD 7 = w ∧
    (vexByte2 w v pp).extractLsb' 3 4 = v ∧ (vexByte2 w v pp).getLsbD 2 = false ∧ (vexByte2 w v pp).setWidth 2 = pp := by
  revert w v pp
  decide

theorem modField_vexByte1 (b : Bool) (map : BitVec 5) : modField (vexByte1 false false b map) = 3#2 := by
  revert b map
  decide

/-- The fields of a prefix that the encoder writes. -/
def vexFields (map : BitVec 5) (v : Gpr) (pp : BitVec 2) : VexFields := { map, v := ~~~v.num, l := false, pp }

/-- What the decoder knows before the opcode behind a VEX or XOP prefix. -/
def vexEnv (c : Ctx) (w : Width) (regHi : Bool) (r : RM) : Env := operandEnv c false .none false (wBit w) regHi true r

/-- The rows of a VEX or XOP map. -/
def extendedRows (b0 : Byte) (e : Env) (f : VexFields) (op : Byte) : Parser Instr :=
  if b0 = 0xC4 then decodeVex e f op else decodeXop e f op

section

variable {c : Ctx} {b0 op : Byte} {map : BitVec 5} {pp : BitVec 2} {w : Width} {v d : Gpr} {regHi : Bool} {reg : BitVec 3} {r : RM}
  {tail : List Byte} {i : Instr} {k : BitVec 4 × RawRM → Parser Instr}

/-- The operands exist in the mode, and the map belongs to the prefix byte. -/
structure VexForm (c : Ctx) (b0 : Byte) (map : BitVec 5) (regHi : Bool) (r : RM) : Prop where
  prot : c.prot = true
  which : b0 = 0xC4 ∨ b0 = 0x8F ∧ map.ule 7#5 = false
  long : regHi = true → c.mode64 = true
  rm : WellFormed.rm c .w32 r = true

theorem isExtendedPrefix_vex (form : VexForm c b0 map regHi r) :
    isExtendedPrefix c b0 (vexByte1 regHi (extBits r).1 (extBits r).2 map) = true := by
  obtain ⟨prot, which, long, rm⟩ := form
  obtain ⟨-, -, -, low⟩ := vexByte1_fields regHi (extBits r).1 (extBits r).2 map
  rcases which with rfl | ⟨rfl, high⟩
  · cases mode : c.mode64 with
    | true => simp [isExtendedPrefix, prot, mode]
    | false =>
      obtain ⟨x, -, -⟩ := rm_legacy rm mode
      have narrow : regHi = false := Bool.eq_false_iff.mpr fun h => Bool.false_ne_true (mode.symm.trans (long h))
      simp [isExtendedPrefix, prot, mode, x, narrow, modField_vexByte1]
  · simp [isExtendedPrefix, prot, low, high]

/-- The prefix leaves the environment of an operand with all extension bits known. -/
theorem withVex_eq (form : VexForm c b0 map regHi r) :
    (Env.legacy c false .none false (rmAddressed c r) (rmOverrides r)).withVex (!regHi) (!(extBits r).1) (!(extBits r).2) (wBit w) =
      vexEnv c w regHi r := by
  have base : ((!!(extBits r).2) && c.mode64) = (extBits r).2 := by
    cases mode : c.mode64 with
    | true => simp
    | false =>
      obtain ⟨-, byte, -⟩ := rm_legacy form.rm mode
      rw [byte]
      rfl
  have rex : (wBit w || regHi || (extBits r).1 || (extBits r).2 || true) = true := Bool.or_true _
  show { Env.legacy c false .none false (rmAddressed c r) (rmOverrides r) with
    rex := true, r := !!regHi, x := !!(extBits r).1, b := (!!(extBits r).2) && c.mode64, w := wBit w } = _
  rw [vexEnv, operandEnv, Env.withRex, rex, base, Bool.not_not, Bool.not_not]

theorem decodeExtended_vex (form : VexForm c b0 map regHi r) (rest : List Byte) :
    decodeExtended (.legacy c false .none false (rmAddressed c r) (rmOverrides r)) b0
      (vexByte1 regHi (extBits r).1 (extBits r).2 map :: vexByte2 (wBit w) (~~~v.num) pp :: op :: rest) =
        extendedRows b0 (vexEnv c w regHi r) (vexFields map v pp) op rest := by
  obtain ⟨r7, x6, b5, low⟩ := vexByte1_fields regHi (extBits r).1 (extBits r).2 map
  obtain ⟨w7, v3, l2, p0⟩ := vexByte2_fields (wBit w) (~~~v.num) pp
  have env := withVex_eq (w := w) form
  obtain ⟨prot, which, long, rm⟩ := form
  have notC5 : b0 ≠ (0xC5 : Byte) := by
    rcases which with rfl | ⟨rfl, -⟩ <;> decide
  have allowed : ¬((!c.mode64) = true ∧ ((vexEnv c w regHi r).r = true ∨ (vexEnv c w regHi r).x = true)) := by
    rintro ⟨mode, bad⟩
    rw [Bool.not_eq_true'] at mode
    rcases bad with hi | x
    · exact Bool.false_ne_true (mode.symm.trans (long hi))
    · exact Bool.false_ne_true ((rm_legacy rm mode).1.symm.trans x)
  have none : ¬((Env.legacy c false .none false (rmAddressed c r) (rmOverrides r)).lock = true ∨
      (Env.legacy c false .none false (rmAddressed c r) (rmOverrides r)).opsz = true ∨
      (Env.legacy c false .none false (rmAddressed c r) (rmOverrides r)).rep ≠ .none ∨
      (Env.legacy c false .none false (rmAddressed c r) (rmOverrides r)).rex = true) := by
    simp [Env.legacy]
  rw [decodeExtended, if_neg none, if_neg notC5]
  simp only [Parser.andThen, Parser.byte, r7, x6, b5, w7, env, low, v3, l2, p0]
  rw [if_neg (by exact allowed)]
  rfl

theorem roundTrip_encVex_tail (form : VexForm c b0 map regHi r)
    (row : extendedRows b0 (vexEnv c w regHi r) (vexFields map v pp) op = (vexEnv c w regHi r).modrm.andThen k)
    (operands : Parses (k (extend regHi reg, rawRm r)) tail i) : RoundTrip c (encVex c b0 map pp w v op regHi reg r ++ tail) i := by
  have rm := form.rm
  have opcode : prefixInstr c b0 = none := by
    rcases form.which with rfl | ⟨rfl, -⟩ <;> exact prefixInstr_none_of_long64 c rfl
  have prefixes : Reads { c } (rmPrefixes c r) (.legacy c false .none false (rmAddressed c r) (rmOverrides r)) := by
    cases r with
    | reg g => exact .nil _
    | mem m => exact (reads_addr m.asz).append (reads_seg (mem_seg rm))
  have bytes : encVex c b0 map pp w v op regHi reg r ++ tail = rmPrefixes c r ++ b0 ::
      (vexByte1 regHi (extBits r).1 (extBits r).2 map :: vexByte2 (wBit w) (~~~v.num) pp :: op :: (encRm reg r ++ tail)) := by
    simp [encVex, vexByte1, vexByte2]
  rw [bytes]
  refine roundTrip_of_parses prefixes opcode (fun rest => ?_) Bool.noConfusion
  have read := parses_operand (l := false) (p := .none) (o := false) (wide := wBit w) (rr := regHi) (force := true) (n := reg) rm operands rest
  rw [List.cons_append, List.cons_append, List.cons_append, List.cons_append, decodeOpcode]
  simp only [Parser.andThen, Parser.byte]
  rw [show (Env.legacy c false .none false (rmAddressed c r) (rmOverrides r)).c = c from rfl, isExtendedPrefix_vex form, if_pos rfl,
    decodeExtended_vex form, row]
  exact read

theorem ofNum_and_seven (low : WellFormed.ext v = false) : Gpr.ofNum (v.num &&& 7) = v := by
  revert low
  cases v <;> decide

/-- The register in vvvv (30_encoding.md R203). -/
theorem vreg_vexFields {e : Env} (ctx : e.c = c) (wf : WellFormed.gpr c v = true) : e.vreg (vexFields map v pp) = v := by
  rw [Env.vreg, ctx]
  show Gpr.ofNum (if c.mode64 = true then ~~~(~~~v.num) else ~~~(~~~v.num) &&& 7) = v
  cases mode : c.mode64 with
  | true => rw [if_pos rfl, BitVec.not_not, ofNum_num]
  | false =>
    have low : WellFormed.ext v = false := by simpa [WellFormed.gpr, mode] using wf
    rw [if_neg Bool.false_ne_true, BitVec.not_not]
    exact ofNum_and_seven low

/-! ### The shapes of the rows -/

section

variable {α : Type} {field : Parser α} {a : α} {src : Width → Width} {mk : Width → Gpr → Gpr → RM → α → Instr}
  (prot : c.prot = true) (width : WellFormed.wy c w = true) (vvvv : WellFormed.gpr c v = true) (rm : WellFormed.rmLow c .w32 r = true)
  (which : b0 = 0xC4 ∨ b0 = 0x8F ∧ map.ule 7#5 = false) (value : Parses field tail a)
include prot width vvvv rm which value

/-- A row by its operand size, the register in vvvv, the field ModRM.reg, the operand and the field behind it. -/
theorem roundTrip_vex (long : regHi = true → c.mode64 = true) (source : src w ≠ .w8)
    (row : extendedRows b0 (vexEnv c w regHi r) (vexFields map v pp) op = (vexEnv c w regHi r).modrm.andThen k)
    (fields : k (extend regHi reg, rawRm r) = field.map (mk (vexEnv c w regHi r).ysize ((vexEnv c w regHi r).vreg (vexFields map v pp))
      (.ofNum (extend regHi reg)) ((vexEnv c w regHi r).rm (src (vexEnv c w regHi r).ysize) (rawRm r)))) :
    RoundTrip c (encVex c b0 map pp w v op regHi reg r ++ tail) (mk w v (.ofNum (extend regHi reg)) r a) := by
  rw [ysize_wide width rfl rfl, vreg_vexFields rfl vvvv, rm_rawRm_low source rm] at fields
  exact roundTrip_encVex_tail ⟨prot, which, long, rm_w32_of_rmLow rm⟩ row (fields ▸ value.map)

end

/-- The width of an operand that is no byte does not count. -/
theorem rmLow_w32 (rm : WellFormed.rmLow c w r = true) : WellFormed.rmLow c .w32 r = true :=
  rmLow_of_rm Width.noConfusion (rm_w32_of_rmLow rm)

theorem wy_ne_w8 (width : WellFormed.wy c w = true) : w ≠ .w8 := by
  rintro rfl
  cases width

/-- A form with its destination in ModRM.reg, and a field behind it. -/
theorem roundTrip_encVexR_tail {α : Type} {field : Parser α} {a : α} {mk : Width → Gpr → Gpr → RM → α → Instr}
    (wf : (WellFormed.vex c w d r && WellFormed.gpr c v) = true) (which : b0 = 0xC4 ∨ b0 = 0x8F ∧ map.ule 7#5 = false)
    (value : Parses field tail a)
    (row : extendedRows b0 (vexEnv c w (WellFormed.ext d) r) (vexFields map v pp) op = (vexEnv c w (WellFormed.ext d) r).modrm.andThen k)
    (fields : k (extend (WellFormed.ext d) (low3 d), rawRm r) = field.map (mk (vexEnv c w (WellFormed.ext d) r).ysize
      (.ofNum (extend (WellFormed.ext d) (low3 d))) ((vexEnv c w (WellFormed.ext d) r).vreg (vexFields map v pp))
      ((vexEnv c w (WellFormed.ext d) r).rm (vexEnv c w (WellFormed.ext d) r).ysize (rawRm r)))) :
    RoundTrip c (encVex c b0 map pp w v op (WellFormed.ext d) (low3 d) r ++ tail) (mk w d v r a) := by
  simp only [WellFormed.vex, WellFormed.regRm, Bool.and_eq_true] at wf
  obtain ⟨⟨⟨prot, width⟩, reg, rm⟩, vvvv⟩ := wf
  have long : WellFormed.ext d = true → c.mode64 = true := fun h => by simpa [WellFormed.gpr, h] using reg
  have h := roundTrip_vex (src := id) (mk := fun w v d r a => mk w d v r a) prot width vvvv (rmLow_w32 rm) which value long (wy_ne_w8 width) row
    fields
  rwa [extend_low3, ofNum_num] at h

theorem roundTrip_encVexR {mk : Width → Gpr → Gpr → RM → Instr} (wf : (WellFormed.vex c w d r && WellFormed.gpr c v) = true)
    (row : decodeVex (vexEnv c w (WellFormed.ext d) r) (vexFields map v pp) op = (vexEnv c w (WellFormed.ext d) r).rE
      (vexEnv c w (WellFormed.ext d) r).ysize fun g r => mk (vexEnv c w (WellFormed.ext d) r).ysize g
        ((vexEnv c w (WellFormed.ext d) r).vreg (vexFields map v pp)) r) : RoundTrip c (encVexR c map pp w d v op r) (mk w d v r) := by
  have h := roundTrip_encVexR_tail (mk := fun w d v r (_ : Unit) => mk w d v r) wf (.inl rfl) (Parses.ret ()) row rfl
  rwa [List.append_nil] at h

/-- A group form: its destination in vvvv. -/
theorem roundTrip_group {b0 op : Byte} {map : BitVec 5} {mk : Width → Gpr → RM → Instr} (wf : WellFormed.vex c w d r = true)
    (which : b0 = 0xC4 ∨ b0 = 0x8F ∧ map.ule 7#5 = false)
    (row : extendedRows b0 (vexEnv c w false r) (vexFields map d pp) op = (vexEnv c w false r).modrm.andThen k)
    (fields : k (extend false reg, rawRm r) = Parser.ret (mk (vexEnv c w false r).ysize ((vexEnv c w false r).vreg (vexFields map d pp))
      ((vexEnv c w false r).rm (vexEnv c w false r).ysize (rawRm r)))) : RoundTrip c (encVex c b0 map pp w d op false reg r) (mk w d r) := by
  simp only [WellFormed.vex, WellFormed.regRm, Bool.and_eq_true] at wf
  obtain ⟨⟨prot, width⟩, vvvv, rm⟩ := wf
  have h := roundTrip_vex (src := id) (mk := fun w v _ r (_ : Unit) => mk w v r) prot width vvvv (rmLow_w32 rm) which (Parses.ret ())
    Bool.noConfusion (wy_ne_w8 width) row fields
  rwa [List.append_nil] at h

end

/-! ### The instructions with fields or registers of their own -/

section

variable {c : Ctx} {w : Width} {d v : Gpr} {r : RM} {flags : BitVec 32} {n : Byte}

theorem gpr_rax : WellFormed.gpr c .rax = true := Bool.or_true _

theorem roundTrip_rorx (wf : wellFormed c (.rorx w d r n) = true) : RoundTrip c (encode c (.rorx w d r n)) (.rorx w d r n) :=
  roundTrip_encVexR_tail (v := .rax) (mk := fun w d _ r n => .rorx w d r n) (Bool.and_eq_true_iff.mpr ⟨wf, gpr_rax⟩) (.inl rfl)
    (parses_byte n) rfl rfl

theorem roundTrip_bextr {ctl : BextrCtl} (wf : wellFormed c (.bextr w d r ctl) = true) :
    RoundTrip c (encode c (.bextr w d r ctl)) (.bextr w d r ctl) := by
  cases ctl with
  | reg v => exact roundTrip_encVexR (mk := fun w d v r => .bextr w d r (.reg v)) wf rfl
  | imm v =>
    exact roundTrip_encVexR_tail (v := .rax) (mk := fun w d _ r v => .bextr w d r (.imm v))
      (Bool.and_eq_true_iff.mpr ⟨(Bool.and_eq_true_iff.mp wf).1, gpr_rax⟩) (.inr ⟨rfl, rfl⟩) (parses_dword v) rfl rfl

/-- LWPINS and LWPVAL. -/
theorem roundTrip_lwp {mk : Width → Gpr → RM → BitVec 32 → Instr} {reg : BitVec 3}
    (wf : (c.prot && WellFormed.wy c w && WellFormed.gpr c d && WellFormed.rmLow c .w32 r) = true)
    (row : ∃ k, decodeXop (vexEnv c w false r) (vexFields 10 d 0) 0x12 = (vexEnv c w false r).modrm.andThen k ∧
      k (extend false reg, rawRm r) = Parser.dword.map (mk (vexEnv c w false r).ysize ((vexEnv c w false r).vreg (vexFields 10 d 0))
        ((vexEnv c w false r).rm .w32 (rawRm r)))) :
    RoundTrip c (encVex c 0x8F 10 0 w d 0x12 false reg r ++ bytes32 flags) (mk w d r flags) := by
  simp only [Bool.and_eq_true] at wf
  obtain ⟨⟨⟨prot, width⟩, reg⟩, rm⟩ := wf
  obtain ⟨k, opcode, fields⟩ := row
  exact roundTrip_vex (src := fun _ => .w32) (mk := fun w v _ r flags => mk w v r flags) prot width reg rm (.inr ⟨rfl, rfl⟩)
    (parses_dword flags) Bool.noConfusion Width.noConfusion opcode fields

theorem roundTrip_lwpins (wf : wellFormed c (.lwpins w d r flags) = true) :
    RoundTrip c (encode c (.lwpins w d r flags)) (.lwpins w d r flags) :=
  roundTrip_lwp wf ⟨_, rfl, rfl⟩

theorem roundTrip_lwpval (wf : wellFormed c (.lwpval w d r flags) = true) :
    RoundTrip c (encode c (.lwpval w d r flags)) (.lwpval w d r flags) :=
  roundTrip_lwp wf ⟨_, rfl, rfl⟩

/-- LLWPCB and SLWPCB. -/
theorem roundTrip_lwpcb {mk : Width → Gpr → Instr} {reg : BitVec 3} (wf : (c.prot && WellFormed.wy c w && WellFormed.gpr c d) = true)
    (row : ∃ k, decodeXop (vexEnv c w false (.reg (plain d))) (vexFields 9 .rax 0) 0x12 =
      (vexEnv c w false (.reg (plain d))).modrm.andThen k ∧
      k (extend false reg, .reg d.num) = Parser.ret (mk (vexEnv c w false (.reg (plain d))).ysize (.ofNum d.num))) :
    RoundTrip c (encVex c 0x8F 9 0 w .rax 0x12 false reg (.reg (plain d))) (mk w d) := by
  simp only [Bool.and_eq_true] at wf
  obtain ⟨⟨prot, width⟩, named⟩ := wf
  obtain ⟨k, opcode, fields⟩ := row
  rw [ysize_wide width rfl rfl, ofNum_num] at fields
  have form : VexForm c 0x8F 9 false (.reg (plain d)) :=
    { prot, which := .inr ⟨rfl, rfl⟩, long := Bool.noConfusion, rm := greg_plain_of_ne Width.noConfusion named }
  have operands : Parses (k (extend false reg, rawRm (.reg (plain d)))) [] (mk w d) := by
    rw [show rawRm (.reg (plain d)) = .reg d.num from rfl, fields]
    exact Parses.ret _
  have h := roundTrip_encVex_tail (w := w) (v := .rax) (pp := 0) (op := 0x12) form opcode operands
  rwa [List.append_nil] at h

theorem roundTrip_llwpcb (wf : wellFormed c (.llwpcb w d) = true) : RoundTrip c (encode c (.llwpcb w d)) (.llwpcb w d) :=
  roundTrip_lwpcb wf ⟨_, rfl, rfl⟩

theorem roundTrip_slwpcb (wf : wellFormed c (.slwpcb w d) = true) : RoundTrip c (encode c (.slwpcb w d)) (.slwpcb w d) :=
  roundTrip_lwpcb wf ⟨_, rfl, rfl⟩

end

end Sys2Proof
end

