-- ==== Sys2Proof/Proofs/InstructionRows.lean ====
section
/-! PROOFS. The round trips of the instructions with several forms, and of those that the operand size or REX.W tells apart
(31_opcode_maps.md R234 to R249). -/

namespace Sys2Proof

/-! ### One opcode, several instructions by the operand size -/

/-- Opcode 98 (31_opcode_maps.md R237). -/
def accumulatorExtension : Width → Instr
  | .w16 => .cbw
  | .w64 => .cdqe
  | _ => .cwde

/-- Opcode 99. -/
def accumulatorSign : Width → Instr
  | .w16 => .cwd
  | .w64 => .cqo
  | _ => .cdq

/-- Opcode 9C. -/
def flagsPush : Width → Instr
  | .w16 => .pushf
  | .w64 => .pushfq
  | _ => .pushfd

/-- Opcode 9D. -/
def flagsPop : Width → Instr
  | .w16 => .popf
  | .w64 => .popfq
  | _ => .popfd

/-- Opcode CF (31_opcode_maps.md R241). -/
def interruptReturn : Width → Instr
  | .w16 => .iret
  | .w64 => .iretq
  | _ => .iretd

theorem decodePrimary_98 (e : Env) : decodePrimary e 0x98 = Parser.ret (accumulatorExtension (e.opsize false)) := rfl

theorem decodePrimary_99 (e : Env) : decodePrimary e 0x99 = Parser.ret (accumulatorSign (e.opsize false)) := rfl

theorem decodePrimary_9C (e : Env) : decodePrimary e 0x9C = Parser.ret (flagsPush (e.opsize true)) := rfl

theorem decodePrimary_9D (e : Env) : decodePrimary e 0x9D = Parser.ret (flagsPop (e.opsize true)) := rfl

theorem decodePrimary_CF (e : Env) : decodePrimary e 0xCF = Parser.ret (interruptReturn (e.opsize false)) := rfl

section

variable {c : Ctx} {l : Bool} {w : Width} {d : Gpr} {g : GReg} {r : RM} {m : Mem} {a : ASize} {v : BitVec 64}

theorem wd64_w16 : WellFormed.wd64 c .w16 = true := by
  cases mode : c.mode64 <;> simp [WellFormed.wd64, mode]

theorem wd64_w32 (legacy : (!c.mode64) = true) : WellFormed.wd64 c .w32 = true := by
  rw [Bool.not_eq_true'] at legacy
  simp [WellFormed.wd64, legacy]

theorem wd64_w64 (long : c.mode64 = true) : WellFormed.wd64 c .w64 = true := by
  simp [WellFormed.wd64, long]

/-! ### Near and far transfers -/

theorem roundTrip_call {t : NearTarget} (wf : wellFormed c (.call w t) = true) : RoundTrip c (encode c (.call w t)) (.call w t) := by
  obtain ⟨width, target⟩ := Bool.and_eq_true_iff.mp wf
  cases t with
  | rel d =>
    exact roundTrip_encD64 (field := immz) (mk := fun w d => .call w (.rel d)) width (parses_immz (imm_of_rel width target)) rfl
      (opcode_primary rfl rfl)
  | rm r => exact roundTrip_slash64 (mk := fun w r => .call w (.rm r)) wf rfl (opcode_primary rfl rfl) rfl

theorem roundTrip_jmp {t : NearTarget} (wf : wellFormed c (.jmp w t) = true) : RoundTrip c (encode c (.jmp w t)) (.jmp w t) := by
  obtain ⟨width, target⟩ := Bool.and_eq_true_iff.mp wf
  cases t with
  | rel d =>
    exact roundTrip_encD64 (field := immz) (mk := fun w d => .jmp w (.rel d)) width (parses_immz (imm_of_rel width target)) rfl
      (opcode_primary rfl rfl)
  | rm r => exact roundTrip_slash64 (mk := fun w r => .jmp w (.rm r)) wf rfl (opcode_primary rfl rfl) rfl

/-- A form /n of the operand size without a field. -/
theorem roundTrip_slashV_plain {op : List Byte} {n : BitVec 3} {mk : Width → RM → Instr} {k : BitVec 4 × RawRM → Parser Instr}
    (wf : (WellFormed.wv c w && WellFormed.rmLow c w r) = true) (start : startsOpcode op = true)
    (row : Opcode (sizedSlashEnv c false w r) op ((sizedSlashEnv c false w r).modrm.andThen k))
    (thenV : k (extend false n, rawRm r) = Parser.ret (mk ((sizedSlashEnv c false w r).opsize false)
      ((sizedSlashEnv c false w r).rm ((sizedSlashEnv c false w r).opsize false) (rawRm r)))) :
    RoundTrip c (encSlash c (sizePrefix c w) (wBit w) w op n r) (mk w r) := by
  have h := roundTrip_slashV (mk := fun w r (_ : Unit) => mk w r) (field := noField) (l := false) (reads_size w) (Parses.ret ())
    Bool.noConfusion wf start row thenV
  rwa [List.append_nil] at h

theorem roundTrip_callFar {t : FarTarget} (wf : wellFormed c (.callFar w t) = true) :
    RoundTrip c (encode c (.callFar w t)) (.callFar w t) := by
  cases t with
  | ptr sel off => exact roundTrip_far (mk := fun w sel off => .callFar w (.ptr sel off)) wf rfl fun _ => rfl
  | mem m =>
    exact roundTrip_slashV_plain (r := .mem m) (mk := fun w _ => .callFar w (.mem m)) wf rfl (opcode_primary rfl rfl) rfl

theorem roundTrip_jmpFar {t : FarTarget} (wf : wellFormed c (.jmpFar w t) = true) :
    RoundTrip c (encode c (.jmpFar w t)) (.jmpFar w t) := by
  cases t with
  | ptr sel off => exact roundTrip_far (mk := fun w sel off => .jmpFar w (.ptr sel off)) wf rfl fun _ => rfl
  | mem m =>
    exact roundTrip_slashV_plain (r := .mem m) (mk := fun w _ => .jmpFar w (.mem m)) wf rfl (opcode_primary rfl rfl) rfl

/-- JCXZ, JECXZ and JRCXZ, by the address size. -/
theorem roundTrip_jrcxz (size : WellFormed.asize c a = true) (width : WellFormed.wd64 c w = true)
    (short : (v == (v.setWidth 8).signExtend 64) = true) :
    RoundTrip c (sizePrefix c w ++ addrPrefix c a ++ [0xE3, v.setWidth 8]) (jrcxzInstr a w v) :=
  roundTrip_counter (mk := fun w a d => jrcxzInstr a w d) (by rw [width, size, short]; rfl) rfl fun _ => rfl

theorem roundTrip_jcxz (wf : wellFormed c (.jcxz w v) = true) : RoundTrip c (encode c (.jcxz w v)) (.jcxz w v) := by
  have wf : (!c.mode64 && WellFormed.wd64 c w && v == (v.setWidth 8).signExtend 64) = true := wf
  simp only [Bool.and_eq_true, Bool.not_eq_true'] at wf
  obtain ⟨⟨mode, width⟩, short⟩ := wf
  exact roundTrip_jrcxz (a := .a16) (by simp [WellFormed.asize, mode]) width short

theorem roundTrip_jecxz (wf : wellFormed c (.jecxz w v) = true) : RoundTrip c (encode c (.jecxz w v)) (.jecxz w v) := by
  obtain ⟨width, short⟩ := Bool.and_eq_true_iff.mp wf
  exact roundTrip_jrcxz (a := .a32) (by cases mode : c.mode64 <;> simp [WellFormed.asize, mode]) width short

theorem roundTrip_jrcxz_a64 (wf : wellFormed c (.jrcxz w v) = true) : RoundTrip c (encode c (.jrcxz w v)) (.jrcxz w v) := by
  have wf : (c.mode64 && WellFormed.wd64 c w && v == (v.setWidth 8).signExtend 64) = true := wf
  simp only [Bool.and_eq_true] at wf
  obtain ⟨⟨mode, width⟩, short⟩ := wf
  exact roundTrip_jrcxz (a := .a64) (by simp [WellFormed.asize, mode]) width short

theorem roundTrip_retf {n : BitVec 16} (width : WellFormed.wv c w = true) : RoundTrip c (encode c (.retf w n)) (.retf w n) := by
  have long : c.mode64 = true ∨ (wBit w || false || false || false || false) = false := by
    cases wide : wBit w with
    | false => exact .inr rfl
    | true => exact .inl (wide_mode64 width wide)
  have size : ((Env.legacy c false .none (sized c w) false none).withRex (wBit w) false false false false).opsize false = w :=
    opsize_sized width rfl rfl rfl
  have row : decodePrimary ((Env.legacy c false .none (sized c w) false none).withRex (wBit w) false false false false) 0xCA =
      Parser.word.map fun n => .retf
        (((Env.legacy c false .none (sized c w) false none).withRex (wBit w) false false false false).opsize false) n := rfl
  rw [size] at row
  exact roundTrip_append ((reads_size w).append (reads_rex long)) rfl (opcode_primary rfl row) (parses_word n).map Bool.noConfusion

theorem roundTrip_sysret (wf : wellFormed c (.sysret w) = true) : RoundTrip c (encode c (.sysret w)) (.sysret w) := by
  have width : WellFormed.wy c w = true := wf
  have long : c.mode64 = true ∨ (wBit w || false || false || false || false) = false := by
    cases w <;> simp_all [WellFormed.wy, wBit]
  refine roundTrip_append_ret (reads_rex (l := false) (p := .none) (o := false) (a := false) (s := none) long) rfl (opcode_secondary rfl) ?_
    Bool.noConfusion
  show Parser.ret (Instr.sysret (if Env.ysize _ = .w64 then .w64 else .w32)) = _
  rw [ysize_wide width rfl rfl]
  cases w with
  | w8 => cases width
  | w16 => cases width
  | w32 => rfl
  | w64 => rfl

/-! ### The stack -/

theorem roundTrip_push {f : PushForm} (wf : wellFormed c (.push w f) = true) : RoundTrip c (encode c (.push w f)) (.push w f) := by
  obtain ⟨width, form⟩ := Bool.and_eq_true_iff.mp wf
  cases f with
  | rm r => exact roundTrip_slash64 (mk := fun w r => .push w (.rm r)) wf rfl (opcode_primary rfl rfl) rfl
  | imm v =>
    exact roundTrip_encD64 (field := immz) (mk := fun w v => .push w (.imm v)) width (parses_immz form) rfl (opcode_primary rfl rfl)
  | seg s =>
    cases s with
    | es => exact roundTrip_encD64_ret (mk0 := fun w => .push w (.seg .es)) width rfl (opcode_primary rfl rfl)
    | cs => exact roundTrip_encD64_ret (mk0 := fun w => .push w (.seg .cs)) width rfl (opcode_primary rfl rfl)
    | ss => exact roundTrip_encD64_ret (mk0 := fun w => .push w (.seg .ss)) width rfl (opcode_primary rfl rfl)
    | ds => exact roundTrip_encD64_ret (mk0 := fun w => .push w (.seg .ds)) width rfl (opcode_primary rfl rfl)
    | fs => exact roundTrip_encD64_ret (mk0 := fun w => .push w (.seg .fs)) width rfl (opcode_secondary rfl)
    | gs => exact roundTrip_encD64_ret (mk0 := fun w => .push w (.seg .gs)) width rfl (opcode_secondary rfl)

theorem roundTrip_pop {f : PopForm} (wf : wellFormed c (.pop w f) = true) : RoundTrip c (encode c (.pop w f)) (.pop w f) := by
  cases f with
  | rm r => exact roundTrip_pop_rm wf
  | seg s =>
    obtain ⟨width, form⟩ := Bool.and_eq_true_iff.mp wf
    cases s with
    | es => exact roundTrip_encD64_ret (mk0 := fun w => .pop w (.seg .es)) width rfl (opcode_primary rfl rfl)
    | cs => cases form
    | ss => exact roundTrip_encD64_ret (mk0 := fun w => .pop w (.seg .ss)) width rfl (opcode_primary rfl rfl)
    | ds => exact roundTrip_encD64_ret (mk0 := fun w => .pop w (.seg .ds)) width rfl (opcode_primary rfl rfl)
    | fs => exact roundTrip_encD64_ret (mk0 := fun w => .pop w (.seg .fs)) width rfl (opcode_secondary rfl)
    | gs => exact roundTrip_encD64_ret (mk0 := fun w => .pop w (.seg .gs)) width rfl (opcode_secondary rfl)

theorem roundTrip_enter {n : BitVec 16} {level : Byte} (width : WellFormed.wd64 c w = true) :
    RoundTrip c (encode c (.enter w n level)) (.enter w n level) := by
  have size : (Env.legacy c false .none (sized c w) false none).opsize true = w := opsize_sized64 width rfl rfl rfl
  have row : decodePrimary (.legacy c false .none (sized c w) false none) 0xC8 = Parser.word.andThen fun n => Parser.byte.map fun level =>
      .enter ((Env.legacy c false .none (sized c w) false none).opsize true) n level := rfl
  rw [size] at row
  show RoundTrip c (sizePrefix c w ++ [0xC8] ++ bytes16 n ++ [level]) _
  rw [List.append_assoc _ (bytes16 n)]
  exact roundTrip_append (reads_size w) rfl (opcode_primary rfl row) ((parses_word n).andThen (parses_byte level).map) Bool.noConfusion

/-! ### Other instructions with several forms -/

theorem roundTrip_mov {f : MovForm} (wf : wellFormed c (.mov f) = true) : RoundTrip c (encode c (.mov f)) (.mov f) := by
  cases f with
  | rmReg w r g => exact roundTrip_mov_rmReg wf
  | regRm w g r => exact roundTrip_mov_regRm wf
  | rmImm w r v => exact roundTrip_mov_rmImm wf
  | load w s a o => exact roundTrip_moffs (mk := fun w s a o => .mov (.load w s a o)) wf rfl rfl (fun _ => rfl) fun _ => rfl
  | store w s a o => exact roundTrip_moffs (mk := fun w s a o => .mov (.store w s a o)) wf rfl rfl (fun _ => rfl) fun _ => rfl
  | fromSeg w r s => exact roundTrip_mov_fromSeg wf
  | toSeg s r => exact roundTrip_mov_toSeg wf
  | fromCr l n d =>
    exact roundTrip_control (mk := fun n d => .mov (.fromCr l n d)) wf (fun _ same => by rw [← same]; rfl) fun _ => rfl
  | toCr l n d =>
    exact roundTrip_control (mk := fun n d => .mov (.toCr l n d)) wf (fun _ same => by rw [← same]; rfl) fun _ => rfl
  | fromDr n d => exact roundTrip_control (l := false) (mk := fun n d => .mov (.fromDr n d)) wf (fun _ _ => rfl) Bool.noConfusion
  | toDr n d => exact roundTrip_control (l := false) (mk := fun n d => .mov (.toDr n d)) wf (fun _ _ => rfl) Bool.noConfusion

theorem roundTrip_movbe {f : MovbeForm} (wf : wellFormed c (.movbe w f) = true) : RoundTrip c (encode c (.movbe w f)) (.movbe w f) := by
  cases f with
  | load d m => exact roundTrip_encV_mem (mk := fun w d m => .movbe w (.load d m)) wf rfl (opcode_0F38 rfl)
  | store m d => exact roundTrip_encV_mem (mk := fun w d m => .movbe w (.store m d)) wf rfl (opcode_0F38 rfl)

theorem roundTrip_imul {f : ImulForm} (wf : wellFormed c (.imul w f) = true) : RoundTrip c (encode c (.imul w f)) (.imul w f) := by
  cases f with
  | acc r =>
    exact roundTrip_slashB_plain (l := false) (mk := fun w r => .imul w (.acc r)) wf rfl rfl (opcode_primary rfl rfl) (opcode_primary rfl rfl)
      rfl rfl Bool.noConfusion
  | regRm d r => exact roundTrip_encV (mk := fun w d r => .imul w (.regRm d r)) wf rfl (opcode_secondary rfl)
  | regRmImm d r v => exact roundTrip_imul_imm wf

theorem roundTrip_test {f : RegImm} (wf : wellFormed c (.test w r f) = true) : RoundTrip c (encode c (.test w r f)) (.test w r f) := by
  cases f with
  | reg g => exact roundTrip_test_reg wf
  | imm v => exact roundTrip_test_imm wf

theorem roundTrip_inp {p : Port} (wf : wellFormed c (.inp w p) = true) : RoundTrip c (encode c (.inp w p)) (.inp w p) := by
  cases p with
  | imm v => exact roundTrip_port (mk := fun w v => .inp w (.imm v)) wf (parses_byte v) rfl rfl (fun _ => rfl) fun _ => rfl
  | dx =>
    have h := roundTrip_port (c := c) (low := 0xEC) (mk := fun w (_ : Unit) => .inp w .dx) wf (Parses.ret ()) rfl rfl (fun _ => rfl)
      fun _ => rfl
    rwa [List.append_nil] at h

theorem roundTrip_out {p : Port} (wf : wellFormed c (.out w p) = true) : RoundTrip c (encode c (.out w p)) (.out w p) := by
  cases p with
  | imm v => exact roundTrip_port (mk := fun w v => .out w (.imm v)) wf (parses_byte v) rfl rfl (fun _ => rfl) fun _ => rfl
  | dx =>
    have h := roundTrip_port (c := c) (low := 0xEE) (mk := fun w (_ : Unit) => .out w .dx) wf (Parses.ret ()) rfl rfl (fun _ => rfl)
      fun _ => rfl
    rwa [List.append_nil] at h

theorem roundTrip_nop {r : Option RM} (wf : wellFormed c (.nop r) = true) : RoundTrip c (encode c (.nop r)) (.nop r) := by
  cases r with
  | none => exact roundTrip_bare rfl (opcode_primary rfl rfl) (Parses.ret _)
  | some r => exact roundTrip_nop_rm wf

theorem roundTrip_xlat {s : SegName} (wf : wellFormed c (.xlat s a) = true) : RoundTrip c (encode c (.xlat s a)) (.xlat s a) := by
  have size : (Env.legacy c false .none false (addressed c a) (overrides s .ds)).asize = a :=
    asize_addressed (Bool.and_eq_true_iff.mp wf).1 rfl rfl
  have segment : (Env.legacy c false .none false (addressed c a) (overrides s .ds)).segOr .ds = s := segOr_overrides rfl
  refine roundTrip_append_ret (reads_address wf) rfl (opcode_primary rfl rfl) ?_ Bool.noConfusion
  show Parser.ret (Instr.xlat (Env.segOr _ .ds) (Env.asize _)) = _
  rw [size, segment]

theorem roundTrip_cmpxchg8b (wf : wellFormed c (.cmpxchg8b m l) = true) : RoundTrip c (encode c (.cmpxchg8b m l)) (.cmpxchg8b m l) := by
  refine roundTrip_mem (reads_lock l) wf Bool.noConfusion rfl (opcode_secondary rfl) ?_ fun _ => rfl
  show Parser.ret (if Env.ysize _ = .w64 then Instr.cmpxchg16b m l else .cmpxchg8b m l) = _
  rw [ysize_wide (w := .w32) rfl rfl rfl]
  rfl

theorem roundTrip_cmpxchg16b (wf : wellFormed c (.cmpxchg16b m l) = true) :
    RoundTrip c (encode c (.cmpxchg16b m l)) (.cmpxchg16b m l) := by
  obtain ⟨long, mem⟩ := Bool.and_eq_true_iff.mp wf
  refine roundTrip_mem (reads_lock l) mem (fun _ => long) rfl (opcode_secondary rfl) ?_ fun _ => rfl
  show Parser.ret (if Env.ysize _ = .w64 then Instr.cmpxchg16b m l else .cmpxchg8b m l) = _
  rw [ysize_wide (w := .w64) long rfl rfl]
  rfl

/-- The operand size of LGDT and LIDT (31_opcode_maps.md R270). -/
theorem tableSize_sized {e : Env} (width : (if c.mode64 then w == .w64 else w == .w16 || w == .w32) = true) (ctx : e.c = c)
    (size : e.opsz = sized c w) (narrow : e.w = false) : e.tableSize = w := by
  rw [Env.tableSize, ctx]
  cases mode : c.mode64 with
  | true =>
    rw [mode, if_pos rfl] at width
    exact (eq_of_beq width).symm
  | false =>
    rw [mode, if_neg Bool.false_ne_true] at width
    have narrower : WellFormed.wv c w = true ∧ wBit w = false := by cases w <;> simp_all [WellFormed.wv, wBit]
    obtain ⟨wv, short⟩ := narrower
    exact opsize_sized wv ctx size (narrow.trans short.symm)

theorem roundTrip_lgdt (wf : wellFormed c (.lgdt w m) = true) : RoundTrip c (encode c (.lgdt w m)) (.lgdt w m) := by
  obtain ⟨width, mem⟩ := Bool.and_eq_true_iff.mp wf
  refine roundTrip_encMem0_peek (reads_size w) mem rfl (opcode_secondary rfl) fun _ => ?_
  exact congrArg (fun w => Parser.ret (Instr.lgdt w m)) (tableSize_sized width rfl rfl rfl)

theorem roundTrip_lidt (wf : wellFormed c (.lidt w m) = true) : RoundTrip c (encode c (.lidt w m)) (.lidt w m) := by
  obtain ⟨width, mem⟩ := Bool.and_eq_true_iff.mp wf
  refine roundTrip_encMem0_peek (reads_size w) mem rfl (opcode_secondary rfl) fun _ => ?_
  exact congrArg (fun w => Parser.ret (Instr.lidt w m)) (tableSize_sized width rfl rfl rfl)

theorem roundTrip_reservedGroup3 (width : WellFormed.wbv c w = true) :
    RoundTrip c (encode c (.reservedGroup3 w)) (.reservedGroup3 w) := by
  refine roundTrip_slashB_plain (l := false) (mk := fun w _ => .reservedGroup3 w) ?_ rfl rfl (opcode_primary rfl rfl) (opcode_primary rfl rfl)
    rfl rfl Bool.noConfusion
  simp [width, WellFormed.rm, WellFormed.greg, WellFormed.gpr, WellFormed.byteMix, WellFormed.needsRexByte, WellFormed.ext, plain, Gpr.num]

end

end Sys2Proof
end

