-- ==== Sys2Proof/Proofs/DecodeEncode.lean ====
section
/-! PROOFS. The statements that decoding gives back what was encoded (30_encoding.md, 31_opcode_maps.md). -/

namespace Sys2Proof

/-! ### Every instruction by its row -/

/-- INCSSPD and INCSSPQ. -/
def incsspInstr (y : Width) (d : Gpr) : Instr := if y = .w64 then .incsspq d else .incsspd d

/-- RDSSPD and RDSSPQ. -/
def rdsspInstr (y : Width) (d : Gpr) : Instr := if y = .w64 then .rdsspq d else .rdsspd d

/-- INSW and INSD. -/
def insInstr (w : Width) (a : ASize) (p : Rep) : Instr := if w = .w16 then .insw a p else .insd a p

/-- OUTSW and OUTSD. -/
def outsInstr (w : Width) (s : SegName) (a : ASize) (p : Rep) : Instr := if w = .w16 then .outsw s a p else .outsd s a p

/-- Each instruction that has an encoding is read back: the row of its opcode is the decoder's, and its operands are the encoder's
(31_opcode_maps.md R233 to R284). -/
theorem roundTrip_encode {c : Ctx} {i : Instr} (wf : wellFormed c i = true) : RoundTrip c (encode c i) i := by
  cases i with
  | add w f l => exact roundTrip_alu 0 wf fun _ => rfl
  | or w f l => exact roundTrip_alu 1 wf fun _ => rfl
  | adc w f l => exact roundTrip_alu 2 wf fun _ => rfl
  | sbb w f l => exact roundTrip_alu 3 wf fun _ => rfl
  | and w f l => exact roundTrip_alu 4 wf fun _ => rfl
  | sub w f l => exact roundTrip_alu 5 wf fun _ => rfl
  | xor w f l => exact roundTrip_alu 6 wf fun _ => rfl
  | cmp w f => exact roundTrip_alu 7 wf Bool.noConfusion
  | aaa => exact roundTrip_bare rfl (opcode_primary rfl rfl) (Parses.ret _)
  | aas => exact roundTrip_bare rfl (opcode_primary rfl rfl) (Parses.ret _)
  | daa => exact roundTrip_bare rfl (opcode_primary rfl rfl) (Parses.ret _)
  | das => exact roundTrip_bare rfl (opcode_primary rfl rfl) (Parses.ret _)
  | clc => exact roundTrip_bare rfl (opcode_primary rfl rfl) (Parses.ret _)
  | cld => exact roundTrip_bare rfl (opcode_primary rfl rfl) (Parses.ret _)
  | cmc => exact roundTrip_bare rfl (opcode_primary rfl rfl) (Parses.ret _)
  | stc => exact roundTrip_bare rfl (opcode_primary rfl rfl) (Parses.ret _)
  | std => exact roundTrip_bare rfl (opcode_primary rfl rfl) (Parses.ret _)
  | cli => exact roundTrip_bare rfl (opcode_primary rfl rfl) (Parses.ret _)
  | sti => exact roundTrip_bare rfl (opcode_primary rfl rfl) (Parses.ret _)
  | into => exact roundTrip_bare rfl (opcode_primary rfl rfl) (Parses.ret _)
  | lahf => exact roundTrip_bare rfl (opcode_primary rfl rfl) (Parses.ret _)
  | sahf => exact roundTrip_bare rfl (opcode_primary rfl rfl) (Parses.ret _)
  | hlt => exact roundTrip_bare rfl (opcode_primary rfl rfl) (Parses.ret _)
  | int3 => exact roundTrip_bare rfl (opcode_primary rfl rfl) (Parses.ret _)
  | int1 => exact roundTrip_bare rfl (opcode_primary rfl rfl) (Parses.ret _)
  | reservedD6 => exact roundTrip_bare rfl (opcode_primary rfl rfl) (Parses.ret _)
  | cpuid => exact roundTrip_bare rfl (opcode_secondary rfl) (Parses.ret _)
  | clts => exact roundTrip_bare rfl (opcode_secondary rfl) (Parses.ret _)
  | invd => exact roundTrip_bare rfl (opcode_secondary rfl) (Parses.ret _)
  | wbinvd => exact roundTrip_bare rfl (opcode_secondary rfl) (Parses.ret _)
  | rdmsr => exact roundTrip_bare rfl (opcode_secondary rfl) (Parses.ret _)
  | wrmsr => exact roundTrip_bare rfl (opcode_secondary rfl) (Parses.ret _)
  | rdpmc => exact roundTrip_bare rfl (opcode_secondary rfl) (Parses.ret _)
  | rdtsc => exact roundTrip_bare rfl (opcode_secondary rfl) (Parses.ret _)
  | rsm => exact roundTrip_bare rfl (opcode_secondary rfl) (Parses.ret _)
  | syscall => exact roundTrip_bare rfl (opcode_secondary rfl) (Parses.ret _)
  | sysenter => exact roundTrip_bare rfl (opcode_secondary rfl) (Parses.ret _)
  | sysexit => exact roundTrip_bare rfl (opcode_secondary rfl) (Parses.ret _)
  | ud0 => exact roundTrip_bare rfl (opcode_secondary rfl) (Parses.ret _)
  | ud1 => exact roundTrip_bare rfl (opcode_secondary rfl) (Parses.ret _)
  | ud2 => exact roundTrip_bare rfl (opcode_secondary rfl) (Parses.ret _)
  | aad v => exact roundTrip_bare rfl (opcode_primary rfl rfl) (parses_byte _).map
  | aam v => exact roundTrip_bare rfl (opcode_primary rfl rfl) (parses_byte _).map
  | int v => exact roundTrip_bare rfl (opcode_primary rfl rfl) (parses_byte _).map
  | pause => exact roundTrip_F3 rfl (opcode_primary rfl rfl)
  | wbnoinvd => exact roundTrip_F3 rfl (opcode_secondary rfl)
  | adcx w d s => exact roundTrip_ysize wf reads_opsz rfl (opcode_0F38 rfl)
  | adox w d s => exact roundTrip_ysize wf reads_repe rfl (opcode_0F38 rfl)
  | andn w d v s => exact roundTrip_encVexR wf rfl
  | mulx w d v s => exact roundTrip_encVexR wf rfl
  | pdep w d v s => exact roundTrip_encVexR wf rfl
  | pext w d v s => exact roundTrip_encVexR wf rfl
  | bzhi w d s v => exact roundTrip_encVexR (mk := fun w d v s => .bzhi w d s v) wf rfl
  | sarx w d s v => exact roundTrip_encVexR (mk := fun w d v s => .sarx w d s v) wf rfl
  | shlx w d s v => exact roundTrip_encVexR (mk := fun w d v s => .shlx w d s v) wf rfl
  | shrx w d s v => exact roundTrip_encVexR (mk := fun w d v s => .shrx w d s v) wf rfl
  | blsi w d s => exact roundTrip_group wf (.inl rfl) rfl rfl
  | blsmsk w d s => exact roundTrip_group wf (.inl rfl) rfl rfl
  | blsr w d s => exact roundTrip_group wf (.inl rfl) rfl rfl
  | blcfill w d s => exact roundTrip_group wf (.inr ⟨rfl, rfl⟩) rfl rfl
  | blci w d s => exact roundTrip_group wf (.inr ⟨rfl, rfl⟩) rfl rfl
  | blcic w d s => exact roundTrip_group wf (.inr ⟨rfl, rfl⟩) rfl rfl
  | blcmsk w d s => exact roundTrip_group wf (.inr ⟨rfl, rfl⟩) rfl rfl
  | blcs w d s => exact roundTrip_group wf (.inr ⟨rfl, rfl⟩) rfl rfl
  | blsfill w d s => exact roundTrip_group wf (.inr ⟨rfl, rfl⟩) rfl rfl
  | blsic w d s => exact roundTrip_group wf (.inr ⟨rfl, rfl⟩) rfl rfl
  | t1mskc w d s => exact roundTrip_group wf (.inr ⟨rfl, rfl⟩) rfl rfl
  | tzmsk w d s => exact roundTrip_group wf (.inr ⟨rfl, rfl⟩) rfl rfl
  | bextr w d s x => exact roundTrip_bextr wf
  | rorx w d s v => exact roundTrip_rorx wf
  | lwpins w d s v => exact roundTrip_lwpins wf
  | lwpval w d s v => exact roundTrip_lwpval wf
  | llwpcb w d => exact roundTrip_llwpcb wf
  | slwpcb w d => exact roundTrip_slwpcb wf
  | bsf w d s => exact roundTrip_encV wf rfl (opcode_secondary rfl)
  | bsr w d s => exact roundTrip_encV wf rfl (opcode_secondary rfl)
  | lar w d s => exact roundTrip_encV wf rfl (opcode_secondary rfl)
  | lsl w d s => exact roundTrip_encV wf rfl (opcode_secondary rfl)
  | cmovo w d s => exact roundTrip_encV wf rfl (opcode_secondary rfl)
  | cmovno w d s => exact roundTrip_encV wf rfl (opcode_secondary rfl)
  | cmovb w d s => exact roundTrip_encV wf rfl (opcode_secondary rfl)
  | cmovnb w d s => exact roundTrip_encV wf rfl (opcode_secondary rfl)
  | cmovz w d s => exact roundTrip_encV wf rfl (opcode_secondary rfl)
  | cmovnz w d s => exact roundTrip_encV wf rfl (opcode_secondary rfl)
  | cmovbe w d s => exact roundTrip_encV wf rfl (opcode_secondary rfl)
  | cmovnbe w d s => exact roundTrip_encV wf rfl (opcode_secondary rfl)
  | cmovs w d s => exact roundTrip_encV wf rfl (opcode_secondary rfl)
  | cmovns w d s => exact roundTrip_encV wf rfl (opcode_secondary rfl)
  | cmovp w d s => exact roundTrip_encV wf rfl (opcode_secondary rfl)
  | cmovnp w d s => exact roundTrip_encV wf rfl (opcode_secondary rfl)
  | cmovl w d s => exact roundTrip_encV wf rfl (opcode_secondary rfl)
  | cmovnl w d s => exact roundTrip_encV wf rfl (opcode_secondary rfl)
  | cmovle w d s => exact roundTrip_encV wf rfl (opcode_secondary rfl)
  | cmovnle w d s => exact roundTrip_encV wf rfl (opcode_secondary rfl)
  | tzcnt w d s => exact roundTrip_repe wf rfl (opcode_secondary rfl)
  | lzcnt w d s => exact roundTrip_repe wf rfl (opcode_secondary rfl)
  | popcnt w d s => exact roundTrip_repe wf rfl (opcode_secondary rfl)
  | bound w d m => exact roundTrip_bound wf
  | lfs w d m => exact roundTrip_encV_mem wf rfl (opcode_secondary rfl)
  | lgs w d m => exact roundTrip_encV_mem wf rfl (opcode_secondary rfl)
  | lss w d m => exact roundTrip_encV_mem wf rfl (opcode_secondary rfl)
  | lea w d m => exact roundTrip_encV_mem wf rfl (opcode_primary rfl rfl)
  | lds w d m => exact roundTrip_far_pointer wf (.inr rfl) fun _ => rfl
  | les w d m => exact roundTrip_far_pointer wf (.inl rfl) fun _ => rfl
  | bswap w d => exact roundTrip_bswap wf
  | bt w s x => exact roundTrip_bt wf
  | btc w s x l => exact roundTrip_btc wf
  | btr w s x l => exact roundTrip_btr wf
  | bts w s x l => exact roundTrip_bts wf
  | call w t => exact roundTrip_call wf
  | jmp w t => exact roundTrip_jmp wf
  | callFar w t => exact roundTrip_callFar wf
  | jmpFar w t => exact roundTrip_jmpFar wf
  | crc32 w x d s => exact roundTrip_crc32 wf
  | imul w f => exact roundTrip_imul wf
  | inp w p => exact roundTrip_inp wf
  | out w p => exact roundTrip_out wf
  | mov f => exact roundTrip_mov wf
  | movbe w f => exact roundTrip_movbe wf
  | movd x f => exact roundTrip_movd wf
  | movmskpd d x => exact roundTrip_movmskpd wf
  | movmskps d x => exact roundTrip_movmskps wf
  | movnti w m d => exact roundTrip_movnti wf
  | movsx w w' d s => exact roundTrip_movsx wf
  | movsxd w d s => exact roundTrip_movsxd wf
  | movzx w w' d s => exact roundTrip_movzx wf
  | nop s => exact roundTrip_nop wf
  | pop w f => exact roundTrip_pop wf
  | push w f => exact roundTrip_push wf
  | shld w s d x => exact roundTrip_shld wf
  | shrd w s d x => exact roundTrip_shrd wf
  | test w s f => exact roundTrip_test wf
  | xlat s a => exact roundTrip_xlat wf
  | arpl s d => exact roundTrip_arpl wf
  | invpcid d m => exact roundTrip_invpcid wf
  | lgdt w m => exact roundTrip_lgdt wf
  | lidt w m => exact roundTrip_lidt wf
  | lmsw s => exact roundTrip_lmsw wf
  | sldt w s => exact roundTrip_sldt wf
  | smsw w s => exact roundTrip_smsw wf
  | str w s => exact roundTrip_str wf
  | sysret w => exact roundTrip_sysret wf
  | cmpxchg8b m l => exact roundTrip_cmpxchg8b wf
  | cmpxchg16b m l => exact roundTrip_cmpxchg16b wf
  | reservedGroup3 w => exact roundTrip_reservedGroup3 wf
  | jcxz w d => exact roundTrip_jcxz wf
  | jecxz w d => exact roundTrip_jecxz wf
  | retf w n => exact roundTrip_retf wf
  | enter w n v => exact roundTrip_enter wf
  | jrcxz w d => exact roundTrip_jrcxz_a64 wf
  | cbw => exact roundTrip_opsize (w := .w16) (mk0 := accumulatorExtension) rfl rfl (opcode_primary rfl rfl) Width.noConfusion
  | cwde => exact roundTrip_opsize (w := .w32) (mk0 := accumulatorExtension) rfl rfl (opcode_primary rfl rfl) Width.noConfusion
  | cdqe => exact roundTrip_rexW (mk0 := accumulatorExtension) wf rfl (opcode_primary rfl rfl)
  | cwd => exact roundTrip_opsize (w := .w16) (mk0 := accumulatorSign) rfl rfl (opcode_primary rfl rfl) Width.noConfusion
  | cdq => exact roundTrip_opsize (w := .w32) (mk0 := accumulatorSign) rfl rfl (opcode_primary rfl rfl) Width.noConfusion
  | cqo => exact roundTrip_rexW (mk0 := accumulatorSign) wf rfl (opcode_primary rfl rfl)
  | iret => exact roundTrip_opsize (w := .w16) (mk0 := interruptReturn) rfl rfl (opcode_primary rfl rfl) Width.noConfusion
  | iretd => exact roundTrip_opsize (w := .w32) (mk0 := interruptReturn) rfl rfl (opcode_primary rfl rfl) Width.noConfusion
  | iretq => exact roundTrip_rexW (mk0 := interruptReturn) wf rfl (opcode_primary rfl rfl)
  | pusha => exact roundTrip_opsize (w := .w16) (mk0 := fun w => if w = .w16 then .pusha else .pushad) rfl rfl (opcode_primary rfl rfl) Width.noConfusion
  | pushad => exact roundTrip_opsize (w := .w32) (mk0 := fun w => if w = .w16 then .pusha else .pushad) rfl rfl (opcode_primary rfl rfl) Width.noConfusion
  | popa => exact roundTrip_opsize (w := .w16) (mk0 := fun w => if w = .w16 then .popa else .popad) rfl rfl (opcode_primary rfl rfl) Width.noConfusion
  | popad => exact roundTrip_opsize (w := .w32) (mk0 := fun w => if w = .w16 then .popa else .popad) rfl rfl (opcode_primary rfl rfl) Width.noConfusion
  | pushf => exact roundTrip_encD64_ret (w := .w16) (mk0 := flagsPush) wd64_w16 rfl (opcode_primary rfl rfl)
  | pushfd => exact roundTrip_encD64_ret (w := .w32) (mk0 := flagsPush) (wd64_w32 wf) rfl (opcode_primary rfl rfl)
  | pushfq => exact roundTrip_encD64_ret (w := .w64) (mk0 := flagsPush) (wd64_w64 wf) rfl (opcode_primary rfl rfl)
  | popf => exact roundTrip_encD64_ret (w := .w16) (mk0 := flagsPop) wd64_w16 rfl (opcode_primary rfl rfl)
  | popfd => exact roundTrip_encD64_ret (w := .w32) (mk0 := flagsPop) (wd64_w32 wf) rfl (opcode_primary rfl rfl)
  | popfq => exact roundTrip_encD64_ret (w := .w64) (mk0 := flagsPop) (wd64_w64 wf) rfl (opcode_primary rfl rfl)
  | leave w => exact roundTrip_encD64_ret wf rfl (opcode_primary rfl rfl)
  | ret w n => exact roundTrip_encD64 (field := fun _ => Parser.word) wf (parses_word n) rfl (opcode_primary rfl rfl)
  | jo w d => exact roundTrip_encJcc wf fun _ => rfl
  | jno w d => exact roundTrip_encJcc wf fun _ => rfl
  | jb w d => exact roundTrip_encJcc wf fun _ => rfl
  | jnb w d => exact roundTrip_encJcc wf fun _ => rfl
  | jz w d => exact roundTrip_encJcc wf fun _ => rfl
  | jnz w d => exact roundTrip_encJcc wf fun _ => rfl
  | jbe w d => exact roundTrip_encJcc wf fun _ => rfl
  | jnbe w d => exact roundTrip_encJcc wf fun _ => rfl
  | js w d => exact roundTrip_encJcc wf fun _ => rfl
  | jns w d => exact roundTrip_encJcc wf fun _ => rfl
  | jp w d => exact roundTrip_encJcc wf fun _ => rfl
  | jnp w d => exact roundTrip_encJcc wf fun _ => rfl
  | jl w d => exact roundTrip_encJcc wf fun _ => rfl
  | jnl w d => exact roundTrip_encJcc wf fun _ => rfl
  | jle w d => exact roundTrip_encJcc wf fun _ => rfl
  | jnle w d => exact roundTrip_encJcc wf fun _ => rfl
  | loop w a d => exact roundTrip_counter wf rfl fun _ => rfl
  | loope w a d => exact roundTrip_counter wf rfl fun _ => rfl
  | loopne w a d => exact roundTrip_counter wf rfl fun _ => rfl
  | seto s => exact roundTrip_setcc wf fun _ => rfl
  | setno s => exact roundTrip_setcc wf fun _ => rfl
  | setb s => exact roundTrip_setcc wf fun _ => rfl
  | setnb s => exact roundTrip_setcc wf fun _ => rfl
  | setz s => exact roundTrip_setcc wf fun _ => rfl
  | setnz s => exact roundTrip_setcc wf fun _ => rfl
  | setbe s => exact roundTrip_setcc wf fun _ => rfl
  | setnbe s => exact roundTrip_setcc wf fun _ => rfl
  | sets s => exact roundTrip_setcc wf fun _ => rfl
  | setns s => exact roundTrip_setcc wf fun _ => rfl
  | setp s => exact roundTrip_setcc wf fun _ => rfl
  | setnp s => exact roundTrip_setcc wf fun _ => rfl
  | setl s => exact roundTrip_setcc wf fun _ => rfl
  | setnl s => exact roundTrip_setcc wf fun _ => rfl
  | setle s => exact roundTrip_setcc wf fun _ => rfl
  | setnle s => exact roundTrip_setcc wf fun _ => rfl
  | dec w s l => exact roundTrip_slashB_plain (mk := fun w s => .dec w s l) wf rfl rfl (opcode_primary rfl rfl) (opcode_primary rfl rfl) rfl rfl fun _ => rfl
  | inc w s l => exact roundTrip_slashB_plain (mk := fun w s => .inc w s l) wf rfl rfl (opcode_primary rfl rfl) (opcode_primary rfl rfl) rfl rfl fun _ => rfl
  | neg w s l => exact roundTrip_slashB_plain (mk := fun w s => .neg w s l) wf rfl rfl (opcode_primary rfl rfl) (opcode_primary rfl rfl) rfl rfl fun _ => rfl
  | not w s l => exact roundTrip_slashB_plain (mk := fun w s => .not w s l) wf rfl rfl (opcode_primary rfl rfl) (opcode_primary rfl rfl) rfl rfl fun _ => rfl
  | div w s => exact roundTrip_slashB_plain (l := false) (mk := .div) wf rfl rfl (opcode_primary rfl rfl) (opcode_primary rfl rfl) rfl rfl Bool.noConfusion
  | idiv w s => exact roundTrip_slashB_plain (l := false) (mk := .idiv) wf rfl rfl (opcode_primary rfl rfl) (opcode_primary rfl rfl) rfl rfl Bool.noConfusion
  | mul w s => exact roundTrip_slashB_plain (l := false) (mk := .mul) wf rfl rfl (opcode_primary rfl rfl) (opcode_primary rfl rfl) rfl rfl Bool.noConfusion
  | rol w s x => exact roundTrip_shift 0 wf
  | ror w s x => exact roundTrip_shift 1 wf
  | rcl w s x => exact roundTrip_shift 2 wf
  | rcr w s x => exact roundTrip_shift 3 wf
  | shl w s x => exact roundTrip_shift 4 wf
  | shr w s x => exact roundTrip_shift 5 wf
  | sar w s x => exact roundTrip_shift 7 wf
  | xchg w s g l => exact roundTrip_xchg wf
  | xadd w s g l => exact roundTrip_xadd wf
  | cmpxchg w s g l => exact roundTrip_cmpxchg wf
  | lldt s => exact roundTrip_slash16 (mk := .lldt) wf rfl (opcode_secondary rfl) (parses_slash (rm_w32_of_rmLow wf) (Parses.ret _))
  | ltr s => exact roundTrip_slash16 (mk := .ltr) wf rfl (opcode_secondary rfl) (parses_slash (rm_w32_of_rmLow wf) (Parses.ret _))
  | verr s => exact roundTrip_slash16 (mk := .verr) wf rfl (opcode_secondary rfl) (parses_slash (rm_w32_of_rmLow wf) (Parses.ret _))
  | verw s => exact roundTrip_slash16 (mk := .verw) wf rfl (opcode_secondary rfl) (parses_slash (rm_w32_of_rmLow wf) (Parses.ret _))
  | prefetch m => exact roundTrip_encMem0 (.nil _) wf rfl (opcode_secondary rfl) rfl
  | prefetchw m => exact roundTrip_encMem0 (.nil _) wf rfl (opcode_secondary rfl) rfl
  | prefetchnta m => exact roundTrip_encMem0 (.nil _) wf rfl (opcode_secondary rfl) rfl
  | prefetcht0 m => exact roundTrip_encMem0 (.nil _) wf rfl (opcode_secondary rfl) rfl
  | prefetcht1 m => exact roundTrip_encMem0 (.nil _) wf rfl (opcode_secondary rfl) rfl
  | prefetcht2 m => exact roundTrip_encMem0 (.nil _) wf rfl (opcode_secondary rfl) rfl
  | clflush m => exact roundTrip_encMem0_peek (.nil _) wf rfl (opcode_secondary rfl) fun _ => rfl
  | clflushopt m => exact roundTrip_encMem0_peek reads_opsz wf rfl (opcode_secondary rfl) fun _ => rfl
  | clwb m => exact roundTrip_encMem0_peek reads_opsz wf rfl (opcode_secondary rfl) fun _ => rfl
  | clrssbsy m => exact roundTrip_encMem0_peek reads_repe wf rfl (opcode_secondary rfl) fun _ => rfl
  | rstorssp m => exact roundTrip_encMem0_peek reads_repe wf rfl (opcode_secondary rfl) fun _ => rfl
  | invlpg m => exact roundTrip_encMem0_peek (.nil _) wf rfl (opcode_secondary rfl) fun _ => rfl
  | sgdt m => exact roundTrip_encMem0_peek (.nil _) wf rfl (opcode_secondary rfl) fun _ => rfl
  | sidt m => exact roundTrip_encMem0_peek (.nil _) wf rfl (opcode_secondary rfl) fun _ => rfl
  | rdfsbase w d => exact roundTrip_encReg0_peek reads_repe wf rfl (opcode_secondary rfl) fun _ => rfl
  | rdgsbase w d => exact roundTrip_encReg0_peek reads_repe wf rfl (opcode_secondary rfl) fun _ => rfl
  | wrfsbase w d => exact roundTrip_encReg0_peek reads_repe wf rfl (opcode_secondary rfl) fun _ => rfl
  | wrgsbase w d => exact roundTrip_encReg0_peek reads_repe wf rfl (opcode_secondary rfl) fun _ => rfl
  | incsspd d => exact roundTrip_encReg0_peek (w := .w32) (mk := incsspInstr) reads_repe wf rfl (opcode_secondary rfl) fun _ => rfl
  | incsspq d => exact roundTrip_encReg0_peek (w := .w64) (mk := incsspInstr) reads_repe wf rfl (opcode_secondary rfl) fun _ => rfl
  | rdsspd d => exact roundTrip_encReg0 (w := .w32) (mk := rdsspInstr) reads_repe wf rfl (opcode_secondary rfl) rfl
  | rdsspq d => exact roundTrip_encReg0 (w := .w64) (mk := rdsspInstr) reads_repe wf rfl (opcode_secondary rfl) rfl
  | rdpid d => exact roundTrip_encReg0 (w := .w32) (mk := fun _ d => .rdpid d) reads_repe wf rfl (opcode_secondary rfl) rfl
  | rdrand w d => exact roundTrip_encReg0_sized wf rfl (opcode_secondary rfl) rfl
  | rdseed w d => exact roundTrip_encReg0_sized wf rfl (opcode_secondary rfl) rfl
  | cmpsb s a p => exact roundTrip_encStr_byte wf rfl rfl
  | lodsb s a p => exact roundTrip_encStr_byte wf rfl rfl
  | movsb s a p => exact roundTrip_encStr_byte wf rfl rfl
  | outsb s a p => exact roundTrip_encStr_byte wf rfl rfl
  | cmpsv w s a p => exact roundTrip_encStr wf rfl rfl
  | lodsv w s a p => exact roundTrip_encStr wf rfl rfl
  | movsv w s a p => exact roundTrip_encStr wf rfl rfl
  | insb a p => exact roundTrip_encStr_byte (mk := fun _ a p => .insb a p) (str_default wf) rfl rfl
  | scasb a p => exact roundTrip_encStr_byte (mk := fun _ a p => .scasb a p) (str_default wf) rfl rfl
  | stosb a p => exact roundTrip_encStr_byte (mk := fun _ a p => .stosb a p) (str_default wf) rfl rfl
  | scasv w a p => exact roundTrip_encStr_es wf rfl rfl
  | stosv w a p => exact roundTrip_encStr_es wf rfl rfl
  | insw a p => exact roundTrip_encStr_es (w := .w16) (mk := insInstr) wf rfl rfl
  | insd a p => exact roundTrip_encStr_es (w := .w32) (mk := insInstr) wf rfl rfl
  | outsw s a p => exact roundTrip_encStr (w := .w16) (mkW := outsInstr) wf rfl rfl
  | outsd s a p => exact roundTrip_encStr (w := .w32) (mkW := outsInstr) wf rfl rfl
  | clac => exact roundTrip_group7 (.nil _) rfl 1 2 (by decide) rfl
  | stac => exact roundTrip_group7 (.nil _) rfl 1 3 (by decide) rfl
  | clgi => exact roundTrip_group7 (.nil _) rfl 3 5 (by decide) rfl
  | stgi => exact roundTrip_group7 (.nil _) rfl 3 4 (by decide) rfl
  | skinit => exact roundTrip_group7 (.nil _) rfl 3 6 (by decide) rfl
  | mwait => exact roundTrip_group7 (.nil _) rfl 1 1 (by decide) rfl
  | mwaitx => exact roundTrip_group7 (.nil _) rfl 7 3 (by decide) rfl
  | rdpkru => exact roundTrip_group7 (.nil _) rfl 5 6 (by decide) rfl
  | wrpkru => exact roundTrip_group7 (.nil _) rfl 5 7 (by decide) rfl
  | swapgs => exact roundTrip_group7 (.nil _) rfl 7 0 (by decide) rfl
  | rdtscp => exact roundTrip_group7 (.nil _) rfl 7 1 (by decide) rfl
  | rdpru => exact roundTrip_group7 (.nil _) rfl 7 5 (by decide) rfl
  | tlbsync => exact roundTrip_group7 (.nil _) rfl 7 7 (by decide) rfl
  | vmmcall => exact roundTrip_group7 (.nil _) rfl 3 1 (by decide) rfl
  | mcommit => exact roundTrip_group7 reads_repe rfl 7 2 (by decide) rfl
  | saveprevssp => exact roundTrip_group7 reads_repe rfl 5 2 (by decide) rfl
  | setssbsy => exact roundTrip_group7 reads_repe rfl 5 0 (by decide) rfl
  | vmgexit => exact roundTrip_group7 reads_repe rfl 3 1 (by decide) rfl
  | clzero s a => exact roundTrip_group7_address (.nil _) wf 7 4 (by decide) rfl
  | monitorx s a => exact roundTrip_group7_address (.nil _) wf 7 2 (by decide) rfl
  | monitor s a => exact roundTrip_group7_address (.nil _) wf 1 0 (by decide) rfl
  | invlpga s a => exact roundTrip_group7_address (.nil _) wf 3 7 (by decide) rfl
  | invlpgb s a => exact roundTrip_group7_address (.nil _) wf 7 6 (by decide) rfl
  | rmpupdate s a => exact roundTrip_group7_address reads_repne wf 7 6 (by decide) rfl
  | psmash a => exact roundTrip_group7_asize reads_repe wf 7 7 (by decide) rfl
  | pvalidate a => exact roundTrip_group7_asize reads_repne wf 7 7 (by decide) rfl
  | rmpadjust a => exact roundTrip_group7_asize reads_repe wf 7 6 (by decide) rfl
  | vmload a => exact roundTrip_group7_asize (.nil _) wf 3 2 (by decide) rfl
  | vmrun a => exact roundTrip_group7_asize (.nil _) wf 3 0 (by decide) rfl
  | vmsave a => exact roundTrip_group7_asize (.nil _) wf 3 3 (by decide) rfl
  | lfence => exact roundTrip_fence 5 rfl fun _ => rfl
  | mfence => exact roundTrip_fence 6 rfl fun _ => rfl
  | sfence => exact roundTrip_fence 7 rfl fun _ => rfl
  | wrssd m d => exact roundTrip_wrssd wf
  | wrussd m d => exact roundTrip_wrussd wf
  | wrssq m d => exact roundTrip_wrssq wf
  | wrussq m d => exact roundTrip_wrussq wf
  | prefixOpSize => cases wf
  | prefixAddrSize => cases wf
  | prefixCs => cases wf
  | prefixDs => cases wf
  | prefixEs => cases wf
  | prefixFs => cases wf
  | prefixGs => cases wf
  | prefixSs => cases wf
  | prefixLock => cases wf
  | prefixRep => cases wf
  | prefixRepne => cases wf
  | prefixRex => cases wf
  | wait => cases wf
  | prefixVex3 x y => cases wf
  | prefixVex2 x => cases wf
  | prefixXop x y => cases wf
  | escape0F x y => cases wf
  | escape0F38 x y => cases wf
  | escape0F3A x y => cases wf
  | x87 x y => cases wf
  | threeDNow x y => cases wf

end Sys2Proof

namespace Sys2Proof.Machine

/-- Settles O5: the eight instructions are the rows of one table by their number, whose bytes are read back whatever the operands. -/
theorem aluDecodeEncode : Obligations.AluDecodeEncode := by
  intro c w f lock rest i mem wf
  suffices h : RoundTrip c (encode c i) i from h rest
  simp only [List.mem_cons, List.not_mem_nil, or_false] at mem
  rcases mem with rfl | rfl | rfl | rfl | rfl | rfl | rfl | rfl
  · exact roundTrip_alu 0 wf fun _ => rfl
  · exact roundTrip_alu 1 wf fun _ => rfl
  · exact roundTrip_alu 2 wf fun _ => rfl
  · exact roundTrip_alu 3 wf fun _ => rfl
  · exact roundTrip_alu 4 wf fun _ => rfl
  · exact roundTrip_alu 5 wf fun _ => rfl
  · exact roundTrip_alu 6 wf fun _ => rfl
  · exact roundTrip_alu 7 wf Bool.noConfusion

/-- Settles O6: each constructor has its row. -/
theorem instrDecodeEncode : Obligations.InstrDecodeEncode := fun _ _ rest wf => roundTrip_encode wf rest

end Sys2Proof.Machine
end
